-- ==== Sys2Proof/Word.lean ====
section
/-! DEFINITION. The word types of the BDX-2304 and their plainest arithmetic. -/

namespace Sys2Proof

/-- A byte is 8 bits (R5). -/
abbrev Byte := BitVec 8
/-- A word is 32 bits (R5). -/
abbrev W32 := BitVec 32
/-- A dword is 64 bits (R5). -/
abbrev W64 := BitVec 64
/-- An instruction word is 128 bits (R66). -/
abbrev W128 := BitVec 128
/-- One 32-bit value for each of the 32 lanes of a gang (R38, R141). -/
abbrev Lanes := Vector W32 32
/-- One bit for each lane of a gang, bit `l` for lane `l`. -/
abbrev Mask := BitVec 32
/-- One bit for each quad of a gang, bit `q` for quad `q`. -/
abbrev QuadMask := BitVec 8

end Sys2Proof
end

