-- ==== Sys2Proof/Config.lean ====
section
/-! DEFINITION. What an implementation of the BDX-2304 fixes, and the free values: constants with no body, of which nothing can be proved but that they are some value. -/

namespace Sys2Proof

/-- Free choice among the turns that may move next (R44, R49, R54, R504): applied to the number of the choice. [log 1: DESIGN CHOICE, safe] -/
opaque Config.pick : Nat → Nat

/-- Free count of nanoseconds that pass at a step (R504): applied to the number of the step. [log 2: DESIGN CHOICE, safe] -/
opaque Config.elapsed : Nat → Nat

/-- Free slewing of a unit's tick counter in a period of 1,024 counts (R409): 0 holds it back by one count, 1 leaves it, 2 advances it by one; applied to the unit's number and the period's. [log 3: DESIGN CHOICE, unsafe] -/
opaque Config.slew : Nat → Nat → Fin 3

/-- Free signature bytes of an attestation report (R501): applied to the bytes signed and the index of the byte. [log 12: DESIGN CHOICE, safe] -/
opaque Config.signature : List Byte → Nat → Byte

/-- Free verdict on a firmware image's signature (R499), which rests on a key that the spec does not give: applied to the image's bytes. [log 12: DESIGN CHOICE, safe] -/
opaque Config.signatureHolds : List Byte → Bool

/-- Free bytes where the spec leaves the result of a copy open (R372): applied to the number of the choice. [log 19: DESIGN CHOICE, safe] -/
opaque Config.freeByte : Nat → Byte

/-- Free size of the fabric fault queue, which the studio firmware sets: a ring of 2^(6 + n) records (R344). [log 42: DESIGN CHOICE, unsafe] -/
opaque Config.fabricLog : Fin 11

/-- Free partial values that the movers of other modules contribute to a tree collective (R467): applied to the number of the choice. [log 19: DESIGN CHOICE, safe] -/
opaque Config.partialSum : Nat → W64

/-- Free 32-bit significand for an argument at which the model's bounds on a function of R201 do not decide the rounding: applied to the opcode and the argument. [log 14: DESIGN CHOICE, safe] -/
opaque Config.undecided : Nat → W32 → W32

end Sys2Proof
end

