-- ==== Sys2Proof/Syntax.lean ====
section
/-! DEFINITION. The instruction forms and the steps of the BDX-2304 as syntax: one constructor of `Instr` for each row of spec/opcode_table.json. -/

namespace Sys2Proof

/-- Which part of a scalar register a scalar operand names (R72, kind 01). -/
inductive Sel where
  | full
  | lo
  | hi
  deriving DecidableEq, Repr, Inhabited

/-- An operand field (R72, R75). The constructors cover exactly the values that R72 and R75 do not reserve. -/
inductive Operand where
  /-- vector register, kind 00 -/
  | vec (r : BitVec 8)
  /-- scalar register with its select, kind 01 -/
  | sca (sel : Sel) (r : BitVec 6)
  /-- predicate, kind 10 file 000 -/
  | pred (i : BitVec 3)
  /-- scalar condition, kind 10 file 001 -/
  | cond (i : BitVec 3)
  /-- translation register, kind 10 file 010 -/
  | trans (i : BitVec 3)
  /-- tile handle, kind 10 file 011 -/
  | tile (i : BitVec 5)
  /-- special register, kind 10 file 100 -/
  | spec (i : BitVec 5)
  /-- 0x300: `IMM` as given -/
  | immZ
  /-- 0x301: `IMM` sign-extended -/
  | immS
  /-- 0x302: `IMM` read as `f32` -/
  | immF
  /-- 0x3FF -/
  | none
  deriving DecidableEq, Repr, Inhabited

/-- The element types of R77, in the order of their codes. -/
inductive Ty where
  | none | i8 | i16 | i32 | i64 | n8 | n16 | n32 | n64 | b32 | b64
  | f16 | bf16 | f32 | f64 | e5m2 | e4m3 | e2m1
  | mx8 | mx8e5 | mx4 | mxi8 | e8m0 | x96 | rx256 | f16x2 | bf16x2
  deriving DecidableEq, Repr, Inhabited

/-- The guard of R66 and R70. -/
structure Guard where
  neg : Bool
  idx : BitVec 3
  deriving DecidableEq, Repr, Inhabited

/-- The scheduling control `SC` of R85; its reserved bits are zero. -/
structure Sched where
  sw : Bool
  slk : BitVec 6
  xs : Bool
  yld : Bool
  hda : Bool
  hdb : Bool
  hdc : Bool
  dly : BitVec 4
  deriving DecidableEq, Repr, Inhabited

/-- The fields of an instruction word beside its opcode (R66). -/
structure Fields where
  fn : BitVec 4
  g : Guard
  d : Operand
  a : Operand
  b : Operand
  c : Operand
  imm : W32
  ty : Ty
  md : BitVec 11
  sc : Sched
  deriving DecidableEq, Repr, Inhabited

/-- A unit that issues instructions: gang `g` of team `t`, or sequencer `n` (6 × die + cluster). -/
inductive Issuer where
  | gang (t g : Nat)
  | seq (n : Nat)
  deriving DecidableEq, Repr, Inhabited

/-- Where a data sector with an error lies (R260): at the memory side, in a die's cache with an uncorrectable error of its array or with a fill whose varnish does not match, in a die's scratch, or in a team's window. -/
inductive SectorPlace where
  | memory (sector : Nat)
  | dieCopy (die sector : Nat)
  | dieFill (die sector : Nat)
  | dieScratch (die sector : Nat)
  | window (team sector : Nat)
  deriving DecidableEq, Repr, Inhabited

/-- What a good Utium flit carries (R486): bytes at a physical address of this module with the poison bit of their sector, for each sector. -/
structure Flit where
  writes : List (Nat × List Byte × Bool)
  deriving DecidableEq, Repr, Inhabited

/-- An access that arrives over a host link: to device memory (R479, R480), a read of the management space (R481) or of a queue's `HEAD` there (R358), and the debugger's read or write of a vector register of a gang held for it (R148, R445). -/
inductive HostAccess where
  | read (pa len : Nat)
  | write (pa : Nat) (bytes : List Byte) (poisoned : Bool)
  | register (offset width : Nat)
  | head (q : Nat)
  | debugRead (ctx slot gang reg : Nat)
  | debugWrite (ctx slot gang reg word : Nat) (value : W32)
  deriving DecidableEq, Repr, Inhabited

/-- A lane that adapts and retrains (R490, R491): of a router plane for the pair (i, j), or of a Utium port. -/
inductive LaneName where
  | router (i j plane : Nat)
  | utium (port lane : Nat)
  deriving DecidableEq, Repr, Inhabited

/-- One constructor for each row of spec/opcode_table.json. The first 158 are the instruction forms, each with the fields of its word; the other 88 are the steps that no word encodes, each with the parties and values it concerns. -/
inductive Instr where
  | sadd (w : Fields)
  | ssub (w : Fields)
  | smul (w : Fields)
  | smulh (w : Fields)
  | sdiv (w : Fields)
  | srem (w : Fields)
  | sand (w : Fields)
  | sor (w : Fields)
  | sxor (w : Fields)
  | sshl (w : Fields)
  | sshr (w : Fields)
  | ssar (w : Fields)
  | srot (w : Fields)
  | smin (w : Fields)
  | smax (w : Fields)
  | scmp (w : Fields)
  | ssel (w : Fields)
  | smov (w : Fields)
  | sli (w : Fields)
  | sclz (w : Fields)
  | spopc (w : Fields)
  | sbfx (w : Fields)
  | sbfi (w : Fields)
  | sfadd (w : Fields)
  | sfmul (w : Fields)
  | sffma (w : Fields)
  | sfcvt (w : Fields)
  | vadd (w : Fields)
  | vsub (w : Fields)
  | vmul (w : Fields)
  | vmulh (w : Fields)
  | vmad (w : Fields)
  | vand (w : Fields)
  | vor (w : Fields)
  | vxor (w : Fields)
  | vandn (w : Fields)
  | vshl (w : Fields)
  | vshr (w : Fields)
  | vsar (w : Fields)
  | vrot (w : Fields)
  | vfunnel (w : Fields)
  | vmin (w : Fields)
  | vmax (w : Fields)
  | vabs (w : Fields)
  | vcmp (w : Fields)
  | vsel (w : Fields)
  | vmov (w : Fields)
  | vli (w : Fields)
  | vclz (w : Fields)
  | vctz (w : Fields)
  | vpopc (w : Fields)
  | vbrev (w : Fields)
  | vbswap (w : Fields)
  | vbfx (w : Fields)
  | vbfi (w : Fields)
  | vbitil (w : Fields)
  | vbitdl (w : Fields)
  | vclmul (w : Fields)
  | vperm (w : Fields)
  | vdot4 (w : Fields)
  | vaddc (w : Fields)
  | plog (w : Fields)
  | pmov (w : Fields)
  | vfadd (w : Fields)
  | vfsub (w : Fields)
  | vfmul (w : Fields)
  | vffma (w : Fields)
  | vfmin (w : Fields)
  | vfmax (w : Fields)
  | vfcmp (w : Fields)
  | vfdiv (w : Fields)
  | vfsqrt (w : Fields)
  | vfrcp (w : Fields)
  | vfrsq (w : Fields)
  | vfexp2 (w : Fields)
  | vflog2 (w : Fields)
  | vfsinpi (w : Fields)
  | vfcospi (w : Fields)
  | vfcvt (w : Fields)
  | vfcvti (w : Fields)
  | vicvtf (w : Fields)
  | vfrnd (w : Fields)
  | vfclass (w : Fields)
  | vfscale (w : Fields)
  | vfgetexp (w : Fields)
  | vfpack (w : Fields)
  | vfdot2 (w : Fields)
  | ld (w : Fields)
  | st (w : Fields)
  | ldsp (w : Fields)
  | stsp (w : Fields)
  | sld (w : Fields)
  | sst (w : Fields)
  | xlate (w : Fields)
  | stmap (w : Fields)
  | stflush (w : Fields)
  | atom (w : Fields)
  | red (w : Fields)
  | fence (w : Fields)
  | fpromote (w : Fields)
  | prefetch (w : Fields)
  | ldg (w : Fields)
  | stg (w : Fields)
  | mma (w : Fields)
  | mmat (w : Fields)
  | mperm (w : Fields)
  | mrsum (w : Fields)
  | tld (w : Fields)
  | tst (w : Fields)
  | tcvt (w : Fields)
  | tzero (w : Fields)
  | mcopy (w : Fields)
  | mwait (w : Fields)
  | tallocWait (w : Fields)
  | tallocTry (w : Fields)
  | tgive (w : Fields)
  | ttake (w : Fields)
  | tfree (w : Fields)
  | rlock (w : Fields)
  | runlock (w : Fields)
  | tlbinv (w : Fields)
  | cprobe (w : Fields)
  | bra (w : Fields)
  | brq (w : Fields)
  | call (w : Fields)
  | ret (w : Fields)
  | btab (w : Fields)
  | regang (w : Fields)
  | exit (w : Fields)
  | nop (w : Fields)
  | trap (w : Fields)
  | trapret (w : Fields)
  | mfsr (w : Fields)
  | mtsr (w : Fields)
  | icinv (w : Fields)
  | brk (w : Fields)
  | rgrowWait (w : Fields)
  | rgrowTry (w : Fields)
  | rshrink (w : Fields)
  | rshapeGet (w : Fields)
  | rshapeSet (w : Fields)
  | gvote (w : Fields)
  | gshfl (w : Fields)
  | gscan (w : Fields)
  | greduce (w : Fields)
  | gbcast (w : Fields)
  | bar (w : Fields)
  | launch (w : Fields)
  | qappend (w : Fields)
  | qtail (w : Fields)
  | evget (w : Fields)
  | evwait (w : Fields)
  | msem (w : Fields)
  | semup (w : Fields)
  | semwait (w : Fields)
  | semread (w : Fields)
  | slkset (w : Fields)
  | seqwait (w : Fields)
  | resultReply (u : Issuer) (id : Nat)
  | dlyExpiry (team gang : Nat)
  | slotDrowsy (team gang reg : Nat)
  | trapEntry (u : Issuer)
  | rangeLockRetry (team gang : Nat)
  | handleBusyTimeout (team gang : Nat)
  | commandQueueAccept (team gang : Nat)
  | commandBegin (core cmd : Nat)
  | commandComplete (core cmd : Nat)
  | granuleClearDone (core release : Nat)
  | allocationDeadlock (core : Nat)
  | registerDeadlock (core : Nat)
  | evwaitTimeout (seq : Nat)
  | gangRetire (team gang : Nat)
  | teamDone (team : Nat)
  | debuggerKill (team gang : Nat) (lanes : Mask)
  | contextSave (team : Nat)
  | teamRestore (team : Nat)
  | parkedEnsembleSave (ensemble : Nat)
  | parkedEnsembleRestore (ensemble : Nat)
  | debugGo (ctx : Nat) (value : W64)
  | slackExhausted (packet : Nat)
  | packetService (queue : Nat)
  | coalesceWindowClose (core line : Nat)
  | promotionArrival (promotion die : Nat)
  | remoteWriteAck (op : Nat)
  | sectorPoison (place : SectorPlace)
  | correctableError (chip : Nat)
  | eventPost (post : Nat)
  | queueDoorbell (q : Nat) (bell : W32)
  | doorbellDropClear (q : Nat)
  | queueSwitch
  | launchDeal (die count : Nat)
  | waitPacketPoll (q : Nat)
  | signalPacket (q : Nat)
  | dieDistributorDeal (die cluster : Nat)
  | ensembleStart (seq : Nat) (cores : List Nat)
  | stealRequest (thief victim : Nat)
  | stealReply (victim : Nat)
  | deadlineMiss (launch : Nat)
  | forcedReset (ctx : Nat)
  | contextEnd (ctx : Nat)
  | moverCopy (mover slot : Nat)
  | moverRingAllreduce (mover slot : Nat)
  | moverTreeAllreduce (mover slot : Nat)
  | ethernetSend (mover slot : Nat)
  | ethernetReceive (mover slot : Nat)
  | ethernetFrameArrival (port : Nat) (frame : List Byte) (fcsGood paused : Bool)
  | utiumFlitReceive (port : Nat) (crcGood : Bool) (flit : Flit)
  | hostLinkAccess (link : Nat) (access : HostAccess)
  | switchMatrixCommand (asg : BitVec 384)
  | switchCommandApplied
  | fabricFaultServed (idx : W32) (fail : Bool)
  | faultServed (ctx : Nat) (idx : W32)
  | faultQueueHeadWrite (ctx : Nat) (head : W32)
  | tlbInvalidateControl (ctx : Nat) (value : W64)
  | icacheInvalidateGo
  | wayMaskWrite (die : Nat) (way : W32)
  | routingRegisterWrite (i j : Nat) (value : W32)
  | routeChangeEffect (i j : Nat)
  | pairFaultCountClear (i j : Nat)
  | syndromeClear (port : Nat)
  | sequencerStart (seq : Nat)
  | registerWrite (offset width : Nat) (value : W64)
  | railLoss (i j plane : Nat)
  | railRelock (i j rail : Nat)
  | pairLossTimeout (i j : Nat)
  | laneLossOfLock (lane : LaneName)
  | retrainAttemptEnd (lane : LaneName) (locked : Bool)
  | heaterRollover (lane : LaneName)
  | containedError (die : Nat) (cls : Byte) (unit : BitVec 16)
  | dieFence (die : Nat)
  | uncontainedError (port : Nat) (cls : Byte) (unit : BitVec 16)
  | link0Down
  | attestationRequest (nonce : BitVec 256)
  | powerOn
  | fundamentalReset
  | rst
  | groundWatchdogReset
  | start (good : Bool) (spare : Nat)
  | startStepTimeout
  | startFailureReset
  | studioRestart
  | gangAged (team gang : Nat)
  | cacheEviction (die line : Nat)
  | invalidationReachesCore (inval core : Nat)
  | powerRemoval
  | hostLinkTrained (link : Nat)
  deriving DecidableEq, Repr, Inhabited

end Sys2Proof
end

