-- ==== Sys2Proof/Decode.lean ====
section
/-! DEFINITION. The decoder and the encoder of the 128-bit instruction word (R66 to R101) and the checks of R68. -/

namespace Sys2Proof

/-! ## Types -/

/-- The code of a type (R77). -/
def Ty.code : Ty → BitVec 5
  | .none => 0x00#5 | .i8 => 0x01#5 | .i16 => 0x02#5 | .i32 => 0x03#5 | .i64 => 0x04#5
  | .n8 => 0x05#5 | .n16 => 0x06#5 | .n32 => 0x07#5 | .n64 => 0x08#5 | .b32 => 0x09#5 | .b64 => 0x0A#5
  | .f16 => 0x10#5 | .bf16 => 0x11#5 | .f32 => 0x12#5 | .f64 => 0x13#5
  | .e5m2 => 0x14#5 | .e4m3 => 0x15#5 | .e2m1 => 0x16#5
  | .mx8 => 0x17#5 | .mx8e5 => 0x18#5 | .mx4 => 0x19#5 | .mxi8 => 0x1A#5 | .e8m0 => 0x1B#5
  | .x96 => 0x1C#5 | .rx256 => 0x1D#5 | .f16x2 => 0x1E#5 | .bf16x2 => 0x1F#5

/-- The type of a code, none for the reserved codes 0x0B to 0x0F (R77). -/
def tyOfCode (c : BitVec 5) : Option Ty :=
  match c.toNat with
  | 0x00 => some .none | 0x01 => some .i8 | 0x02 => some .i16 | 0x03 => some .i32 | 0x04 => some .i64
  | 0x05 => some .n8 | 0x06 => some .n16 | 0x07 => some .n32 | 0x08 => some .n64 | 0x09 => some .b32 | 0x0A => some .b64
  | 0x10 => some .f16 | 0x11 => some .bf16 | 0x12 => some .f32 | 0x13 => some .f64
  | 0x14 => some .e5m2 | 0x15 => some .e4m3 | 0x16 => some .e2m1
  | 0x17 => some .mx8 | 0x18 => some .mx8e5 | 0x19 => some .mx4 | 0x1A => some .mxi8 | 0x1B => some .e8m0
  | 0x1C => some .x96 | 0x1D => some .rx256 | 0x1E => some .f16x2 | 0x1F => some .bf16x2
  | _ => none

/-- Bits per element of a type (R77); 0 for the code that names no type. -/
def Ty.width : Ty → Nat
  | .none => 0 | .i8 => 8 | .i16 => 16 | .i32 => 32 | .i64 => 64
  | .n8 => 8 | .n16 => 16 | .n32 => 32 | .n64 => 64 | .b32 => 32 | .b64 => 64
  | .f16 => 16 | .bf16 => 16 | .f32 => 32 | .f64 => 64
  | .e5m2 => 8 | .e4m3 => 8 | .e2m1 => 4
  | .mx8 => 8 | .mx8e5 => 8 | .mx4 => 4 | .mxi8 => 8 | .e8m0 => 8
  | .x96 => 96 | .rx256 => 256 | .f16x2 => 32 | .bf16x2 => 32

/-- Signed integer types (R77). -/
def Ty.isSigned : Ty → Bool
  | .i8 | .i16 | .i32 | .i64 => true
  | _ => false

/-- Floating types, narrow and packed ones included (R77). -/
def Ty.isFloat : Ty → Bool
  | .f16 | .bf16 | .f32 | .f64 | .e5m2 | .e4m3 | .e2m1 | .f16x2 | .bf16x2 => true
  | _ => false

/-- The type sets of R168: I. -/
def tysI : List Ty := [.i32, .i64]
/-- The type sets of R168: N. -/
def tysN : List Ty := [.n32, .n64]
/-- The type sets of R168: B. -/
def tysB : List Ty := [.b32, .b64]
/-- The type sets of R168: I and N. -/
def tysIN : List Ty := [.i32, .i64, .n32, .n64]
/-- The type sets of R168: I, N and B. -/
def tysINB : List Ty := [.i32, .i64, .n32, .n64, .b32, .b64]
/-- The type sets of R192: H. -/
def tysH : List Ty := [.f16, .bf16, .f32, .f64, .f16x2, .bf16x2]
/-- The type sets of R192: S. -/
def tysS : List Ty := [.f16, .bf16, .f32, .f64]
/-- The type sets of R192: Q. -/
def tysQ : List Ty := [.e5m2, .e4m3, .e2m1]
/-- The type sets of R192: S and Q. -/
def tysSQ : List Ty := [.f16, .bf16, .f32, .f64, .e5m2, .e4m3, .e2m1]
/-- The type sets of R192: Z. -/
def tysZ : List Ty := [.i8, .i16, .i32, .i64, .n8, .n16, .n32, .n64]
/-- The types of the memory instructions (R297). -/
def tysMem : List Ty :=
  [.none, .i8, .n8, .i16, .n16, .b32, .i32, .n32, .f32, .f16x2, .bf16x2, .b64, .i64, .n64, .f64]

/-! ## Modifier fields (R79 to R84) -/

/-- `RM` of the arithmetic layout (R80). -/
def mdRM (md : BitVec 11) : BitVec 3 := md.extractLsb' 8 3
/-- `SAT` (R80). -/
def mdSAT (md : BitVec 11) : Bool := md.getLsbD 7
/-- `NA` (R80). -/
def mdNA (md : BitVec 11) : Bool := md.getLsbD 6
/-- `NB` (R80). -/
def mdNB (md : BitVec 11) : Bool := md.getLsbD 5
/-- `SUB` (R80). -/
def mdSUB (md : BitVec 11) : BitVec 5 := md.extractLsb' 0 5
/-- Scope of the memory layout (R81). -/
def mdScope (md : BitVec 11) : BitVec 3 := md.extractLsb' 8 3
/-- Ordering of the memory layout (R81). -/
def mdOrder (md : BitVec 11) : BitVec 2 := md.extractLsb' 6 2
/-- Cache hint of the memory layout (R81). -/
def mdHint (md : BitVec 11) : BitVec 2 := md.extractLsb' 4 2
/-- Size field of the memory layout (R81): the bytes per lane less one. -/
def mdSize (md : BitVec 11) : BitVec 4 := md.extractLsb' 0 4
/-- Bytes per lane (R81). -/
def mdBytes (md : BitVec 11) : Nat := (mdSize md).toNat + 1
/-- The N field of the matrix layout (R82). -/
def mdN (md : BitVec 11) : BitVec 9 := md.extractLsb' 2 9
/-- Output columns: the field, with 0 for 512 (R82). -/
def mdCols (md : BitVec 11) : Nat := if mdN md = 0#9 then 512 else (mdN md).toNat
/-- `ASRC` of the matrix layout (R82). -/
def mdASRC (md : BitVec 11) : BitVec 2 := md.extractLsb' 0 2

/-! ## Operand fields (R72 to R76) -/

/-- The operand that a 10-bit field names; none for the values that R72, R75 and R156 reserve. -/
def operandOf (x : BitVec 10) : Option Operand :=
  match (x.extractLsb' 8 2).toNat with
  | 0 => some (.vec (x.extractLsb' 0 8))
  | 1 =>
    match (x.extractLsb' 6 2).toNat with
    | 0 => some (.sca .full (x.extractLsb' 0 6))
    | 1 => some (.sca .lo (x.extractLsb' 0 6))
    | 2 => some (.sca .hi (x.extractLsb' 0 6))
    | _ => none
  | 2 =>
    match (x.extractLsb' 5 3).toNat with
    | 0 => if x.extractLsb' 3 2 = 0#2 then some (.pred (x.extractLsb' 0 3)) else none
    | 1 => if x.extractLsb' 3 2 = 0#2 then some (.cond (x.extractLsb' 0 3)) else none
    | 2 => if x.extractLsb' 3 2 = 0#2 then some (.trans (x.extractLsb' 0 3)) else none
    | 3 => some (.tile (x.extractLsb' 0 5))
    | 4 => if (x.extractLsb' 0 5).toNat ≤ 0x1A then some (.spec (x.extractLsb' 0 5)) else none
    | _ => none
  | _ =>
    match (x.extractLsb' 0 8).toNat with
    | 0x00 => some .immZ
    | 0x01 => some .immS
    | 0x02 => some .immF
    | 0xFF => some .none
    | _ => none

/-- The code of a scalar select (R72). -/
def Sel.code : Sel → BitVec 2
  | .full => 0#2
  | .lo => 1#2
  | .hi => 2#2

/-- The 10-bit field of an operand (R72, R75). -/
def Operand.bits : Operand → BitVec 10
  | .vec r => 0#2 ++ r
  | .sca s r => 1#2 ++ s.code ++ r
  | .pred i => 0b1000000#7 ++ i
  | .cond i => 0b1000100#7 ++ i
  | .trans i => 0b1001000#7 ++ i
  | .tile i => 0b10011#5 ++ i
  | .spec i => 0b10100#5 ++ i
  | .immZ => 0x300#10
  | .immS => 0x301#10
  | .immF => 0x302#10
  | .none => 0x3FF#10

/-! ## Scheduling control and guard -/

/-- The 20 bits of `SC` (R85). -/
def Sched.bits (s : Sched) : BitVec 20 :=
  BitVec.ofBool s.sw ++ s.slk ++ BitVec.ofBool s.xs ++ BitVec.ofBool s.yld ++ BitVec.ofBool s.hda
    ++ BitVec.ofBool s.hdb ++ BitVec.ofBool s.hdc ++ s.dly ++ 0#4

/-- The scheduling control of `SC` (R85); bits [3:0] are checked apart. -/
def schedOf (x : BitVec 20) : Sched where
  sw := x.getLsbD 19
  slk := x.extractLsb' 13 6
  xs := x.getLsbD 12
  yld := x.getLsbD 11
  hda := x.getLsbD 10
  hdb := x.getLsbD 9
  hdc := x.getLsbD 8
  dly := x.extractLsb' 4 4

/-- The four bits of `G` (R66, R70). -/
def Guard.bits (g : Guard) : BitVec 4 := BitVec.ofBool g.neg ++ g.idx

/-- The guard of `G` (R66, R70). -/
def guardOf (x : BitVec 4) : Guard where
  neg := x.getLsbD 3
  idx := x.extractLsb' 0 3

/-! ## What each position accepts -/

/-- The type by which a position reads its operand. -/
inductive OpTy where
  /-- the type of `TY`, an integer or bit position -/
  | ty
  /-- the type of `TY`, a floating position (R190) -/
  | fty
  /-- the source type of `SUB` (R80), an integer position -/
  | sub
  /-- the source type of `SUB`, a floating position -/
  | fsub
  /-- the source type of `SUB`, of either kind (R210) -/
  | anysub
  /-- a type that the description fixes -/
  | as (t : Ty)
  deriving DecidableEq, Repr

/-- What an operand position accepts (R73, R164, R165, R190 and the encoding tables). -/
inductive Slot where
  /-- unused: 0x3FF only (R73) -/
  | none
  /-- scalar destination: full select for a 64-bit `TY` (R164) -/
  | sDst
  /-- scalar, select 00 -/
  | sFull
  /-- scalar half -/
  | sHalf
  /-- scalar half, or none -/
  | sHalfN
  /-- scalar, any select -/
  | sAny
  /-- scalar, any select, or none: an ensemble rank (R296) -/
  | sRank
  /-- even scalar, select 00 (R374) -/
  | sEven
  /-- scalar whose select the special-register index in `IMM` limits (R230) -/
  | sIdx
  /-- scalar half or 0x300 -/
  | sHalfZ
  /-- scalar half, 0x300 or 0x301 (R234) -/
  | sHalfZS
  /-- 0x300 -/
  | immZ
  /-- 0x300 with a register count in `IMM` (R149) -/
  | immCount
  /-- scalar condition -/
  | k
  /-- predicate -/
  | p
  /-- predicate or none -/
  | pn
  /-- predicate, condition or none, conditions only on a sequencer (R213) -/
  | pkn
  /-- predicate or condition -/
  | pk
  /-- source of the scalar class (R164, R190) -/
  | sSrc (t : OpTy)
  /-- source of the vector class (R165, R190) -/
  | vSrc (t : OpTy)
  /-- source of the vector class in a word whose `IMM` has a meaning of its own: no immediate kind (R73) -/
  | vSrcN (t : OpTy)
  /-- `smov` A: a scalar source, or on a core a vector register (R176) -/
  | smovA
  /-- vector register by the type's width (R76) -/
  | vec (t : OpTy)
  /-- any one vector register -/
  | vec1
  /-- even vector pair (R296) -/
  | vPair
  /-- vector register or scalar destination by `TY` (R234) -/
  | vOrSDst
  /-- vector register, or scalar under R74 (R234) -/
  | vOrS
  /-- byte-permute table (R182) -/
  | table
  /-- translation register -/
  | trans
  /-- address offset: vector register, scalar half or none (R296) -/
  | offset
  /-- load destination of R297 -/
  | memDst
  /-- store data of R297 -/
  | memData
  /-- scalar store data of R297 -/
  | sMemData
  /-- atomic or prefetch address: translation register or even vector pair -/
  | addr
  /-- offset when A is a translation register, none otherwise (R296) -/
  | offIfA
  /-- atomic destination: vector register by `TY`, or none -/
  | atomDst
  /-- atomic operand: vector register, or scalar broadcast (R296, R297, R309) -/
  | atomData (t : OpTy)
  /-- compare and swap data (R309) -/
  | casData
  /-- 64-bit branch target: even pair, or scalar select 00 (R217) -/
  | btabA
  /-- tile handle -/
  | tile
  /-- the handle of D, or none (R329) -/
  | tileD
  /-- matrix A source by `ASRC` (R329) -/
  | asrc
  /-- vector register, a multiple of 8 whose run of 16 ends by v255 (R336) -/
  | vRun
  deriving DecidableEq, Repr

/-- What the slots consult beside the operand: the words' other fields, all from the word alone (R68). -/
structure SlotCtx where
  seq : Bool
  ty : Option Ty
  sub : Option Ty
  md : BitVec 11
  imm : W32
  d : Option Operand
  a : Option Operand

/-- The type of a position; none where the code is reserved. -/
def SlotCtx.opTy (x : SlotCtx) : OpTy → Option Ty
  | .ty | .fty => x.ty
  | .sub | .fsub | .anysub => x.sub
  | .as t => some t

/-- Width of an operand at step 5 of R68; a reserved code, which step 6 or 7 rejects, counts as 32 bits (log 15). -/
def widthOr32 : Option Ty → Nat
  | some t => if t.width = 0 then 32 else t.width
  | none => 32

/-- Cause 0x5 for an odd register of a type of 64 bits or more (R76). -/
def vecCause (t : Option Ty) (r : BitVec 8) : Option (BitVec 4) :=
  if widthOr32 t ≥ 64 ∧ r.getLsbD 0 then some 0x5#4 else none

/-- Scalar broadcast source under R74. -/
def scaCause (t : Option Ty) (s : Sel) : Option (BitVec 4) :=
  match s with
  | .full => if widthOr32 t ≥ 64 then none else some 0x4#4
  | .lo | .hi => if t = some .f64 then some 0x4#4 else none

/-- Scalar broadcast as memory data: select 00 for 8 bytes, a half for 4 bytes or fewer (R297). -/
def scaDataCause (t : Option Ty) (s : Sel) : Option (BitVec 4) :=
  if (widthOr32 t ≥ 64) = (s = .full) then none else some 0x4#4

/-- Whether a position is a floating one (R190). -/
def SlotCtx.isFloatPos (x : SlotCtx) : OpTy → Bool
  | .ty | .sub => false
  | .fty | .fsub => true
  | .anysub => x.sub.any Ty.isFloat
  | .as t => t.isFloat

/-- Immediate kinds 0x300 and 0x301 stand in integer and bit positions (R75, R190). -/
def immCause (x : SlotCtx) (t : OpTy) : Option (BitVec 4) := if x.isFloatPos t then some 0x4#4 else none

/-- Immediate kind 0x302 stands in `f32` and `f64` positions (R75, R190). -/
def immFCause (x : SlotCtx) (t : OpTy) : Option (BitVec 4) :=
  if x.isFloatPos t ∧ (x.opTy t = some .f32 ∨ x.opTy t = some .f64) then none else some 0x4#4

/-- Scalar destination: a 64-bit value needs select 00 (R164). -/
def sDstCause (t : Option Ty) (s : Sel) : Option (BitVec 4) :=
  if widthOr32 t ≥ 64 ∧ s ≠ .full then some 0x4#4 else none

/-- A register that holds 16 bytes per lane is a multiple of 4 (R297). -/
def quadCause (r : BitVec 8) : Option (BitVec 4) := if r.toNat % 4 = 0 then none else some 0x4#4

/-- Special registers of 64 bits, with `%csp` (R156, R230). -/
def specIs64 (i : Nat) : Bool := i = 0x10 ∨ i = 0x13 ∨ i = 0x16 ∨ i = 0x17 ∨ i = 0x19 ∨ i = 0x1A ∨ i = 0x20

/-- The cause for which a position rejects an operand at step 5 of R68, none when it accepts. -/
def slotCause (x : SlotCtx) (s : Slot) (o : Operand) : Option (BitVec 4) :=
  match s, o with
  | .none, .none => none
  | .sDst, .sca sel _ => sDstCause x.ty sel
  | .sFull, .sca .full _ => none
  | .sHalf, .sca .lo _ | .sHalf, .sca .hi _ => none
  | .sHalfN, .sca .lo _ | .sHalfN, .sca .hi _ | .sHalfN, .none => none
  | .sAny, .sca _ _ => none
  | .sRank, .sca _ _ | .sRank, .none => none
  | .sEven, .sca .full r => if r.getLsbD 0 then some 0x5#4 else none
  | .sIdx, .sca sel _ => if specIs64 (x.imm.extractLsb' 0 8).toNat ∧ sel ≠ .full then some 0x4#4 else none
  | .sHalfZ, .sca .lo _ | .sHalfZ, .sca .hi _ | .sHalfZ, .immZ => none
  | .sHalfZS, .sca .lo _ | .sHalfZS, .sca .hi _ | .sHalfZS, .immZ | .sHalfZS, .immS => none
  | .immZ, .immZ => none
  | .immCount, .immZ =>
    if x.imm.toNat % 8 = 0 ∧ 8 ≤ x.imm.toNat ∧ x.imm.toNat ≤ 248 then none else some 0x4#4
  | .k, .cond _ => none
  | .p, .pred _ => none
  | .pn, .pred _ => if x.seq then some 0x4#4 else none
  | .pn, .none => none
  | .pkn, .pred _ => if x.seq then some 0x4#4 else none
  | .pkn, .cond _ | .pkn, .none => none
  | .pk, .pred _ | .pk, .cond _ => none
  | .sSrc t, .sca sel _ => scaCause (x.opTy t) sel
  | .sSrc t, .immZ | .sSrc t, .immS => immCause x t
  | .sSrc t, .immF => immFCause x t
  | .sSrc _, .spec i => if i.toNat = 0x00 ∨ i.toNat = 0x01 ∨ i.toNat = 0x14 then some 0x4#4 else none
  | .vSrc t, .vec r => vecCause (x.opTy t) r
  | .vSrc t, .sca sel _ => scaCause (x.opTy t) sel
  | .vSrc t, .immZ | .vSrc t, .immS => immCause x t
  | .vSrc t, .immF => immFCause x t
  | .vSrc _, .spec _ => none
  | .vSrcN t, .vec r => vecCause (x.opTy t) r
  | .vSrcN t, .sca sel _ => scaCause (x.opTy t) sel
  | .vSrcN _, .spec _ => none
  | .smovA, .vec r => if x.seq then some 0x4#4 else vecCause x.ty r
  | .smovA, .sca sel _ => scaCause x.ty sel
  | .smovA, .immZ | .smovA, .immS => immCause x .ty
  | .smovA, .spec i => if i.toNat = 0x00 ∨ i.toNat = 0x01 ∨ i.toNat = 0x14 then some 0x4#4 else none
  | .vec t, .vec r => vecCause (x.opTy t) r
  | .vec1, .vec _ => none
  | .vPair, .vec r => if r.getLsbD 0 then some 0x5#4 else none
  | .vOrSDst, .vec r => vecCause x.ty r
  | .vOrSDst, .sca sel _ => sDstCause x.ty sel
  | .vOrS, .vec r => vecCause x.ty r
  | .vOrS, .sca sel _ => scaCause x.ty sel
  | .table, .vec r => quadCause r
  | .table, .sca .full r => if r.getLsbD 0 then some 0x5#4 else none
  | .trans, .trans _ => none
  | .offset, .vec _ | .offset, .sca .lo _ | .offset, .sca .hi _ | .offset, .none => none
  | .memDst, .vec r => if mdSize x.md = 15#4 then quadCause r else vecCause x.ty r
  | .memData, .vec r => if mdSize x.md = 15#4 then quadCause r else vecCause x.ty r
  | .memData, .sca sel _ => if mdSize x.md = 15#4 then some 0x4#4 else scaDataCause x.ty sel
  | .sMemData, .sca sel _ => if mdSize x.md = 15#4 then none else scaDataCause x.ty sel
  | .atomData t, .vec r => vecCause (x.opTy t) r
  | .atomData t, .sca sel _ => scaDataCause (x.opTy t) sel
  | .addr, .trans _ => none
  | .addr, .vec r => if r.getLsbD 0 then some 0x5#4 else none
  | .offIfA, .none => none
  | .offIfA, .vec _ | .offIfA, .sca .lo _ | .offIfA, .sca .hi _ =>
    match x.a with
    | some (.vec _) => some 0x4#4
    | _ => none
  | .atomDst, .vec r => vecCause x.ty r
  | .atomDst, .none => none
  | .casData, .vec r =>
    if r.getLsbD 0 then some 0x5#4 else if widthOr32 x.ty ≥ 64 then quadCause r else none
  | .btabA, .vec r => if r.getLsbD 0 then some 0x5#4 else none
  | .btabA, .sca .full _ => none
  | .tile, .tile _ => none
  | .tileD, .none => none
  | .tileD, .tile i => if x.d = some (.tile i) then none else some 0x4#4
  | .asrc, .sca .lo _ | .asrc, .sca .hi _ => if mdASRC x.md = 0#2 ∨ mdASRC x.md = 3#2 then none else some 0x4#4
  | .asrc, .tile _ => if mdASRC x.md = 1#2 ∨ mdASRC x.md = 3#2 then none else some 0x4#4
  | .asrc, .vec r =>
    if (mdASRC x.md = 2#2 ∨ mdASRC x.md = 3#2) ∧ r.toNat % 16 = 0 ∧ r.toNat ≤ 224 then none else some 0x4#4
  | .vRun, .vec r => if r.toNat % 8 = 0 ∧ r.toNat + 15 ≤ 255 then none else some 0x4#4
  | _, _ => some 0x4#4

/-- How many vector registers a source position touches for the bank rule (R98), 0 where it takes no part. -/
def slotRegs (x : SlotCtx) (s : Slot) (o : Operand) : Nat :=
  match s, o with
  | .vSrc t, .vec _ | .vSrcN t, .vec _ | .atomData t, .vec _ | .vec t, .vec _ => if widthOr32 (x.opTy t) ≥ 64 then 2 else 1
  | .smovA, .vec _ | .vOrS, .vec _ => if widthOr32 x.ty ≥ 64 then 2 else 1
  | .vec1, .vec _ | .offset, .vec _ | .offIfA, .vec _ => 1
  | .vPair, .vec _ | .addr, .vec _ | .btabA, .vec _ => 2
  | .table, .vec _ => 4
  | .memData, .vec _ => if mdSize x.md = 15#4 then 4 else if widthOr32 x.ty ≥ 64 then 2 else 1
  | .casData, .vec _ => if widthOr32 x.ty ≥ 64 then 4 else 2
  | _, _ => 0

/-! ## What each form accepts -/

/-- The check of `MD`, and of the `IMM` bits that cause 0x7 covers, at step 7 of R68. A `.remote` form with an ordering or scope that R298 does not permit has the cause 0x7 that R298 gives other combinations, and not the 0x1 of an `FN` value that depends on `MD`. [log 54: DEDUCED, unsafe] -/
inductive MdRule where
  /-- `MD` zero, any `IMM` -/
  | zero
  /-- `MD` and `IMM` zero -/
  | zeroImm
  /-- `MD` zero, and `IMM` zero unless a position takes it as 0x300 or 0x301 -/
  | zeroImmUse
  /-- integer arithmetic (R170): whether `SAT` and whether negation is defined -/
  | int (sat neg : Bool)
  /-- integer comparison (R174) -/
  | icmp
  /-- floating arithmetic (R192, R193): SR permitted, `SAT` defined, `NA` defined, `NB` defined, `.nc` defined -/
  | fl (sr sat na nb nc : Bool)
  /-- no modifier but `FN` (R197) -/
  | fcmp
  | vfcvt | vfcvti | vicvtf | vfclass (p : Bool) | vfscale | vfgetexp | vfpack | vfdot2 | sfcvt | plog
  /-- loads and stores (R298): `.remote`, scratchpad form, scalar form -/
  | mem (remote sp scalar : Bool)
  | atom | fence (remote : Bool) | stflush | memNone | memNoneDisp | prefetch
  | mma | mperm | mrsum | tile (v : Bool) | tcvt | mcopy | talloc
  | btab | low16 | srIndex | ignoreImm | gscan
  | msem | semPair (n : Bool) | semPark (n : Bool) | seqwait | bar
  deriving DecidableEq, Repr

/-- Which units execute an opcode (R97). -/
inductive Runs where
  | both
  | core
  | seq
  deriving DecidableEq, Repr

/-- What an opcode with one `FN` value accepts. -/
structure Form where
  runs : Runs
  tys : List Ty
  d : Slot
  a : Slot
  b : Slot
  c : Slot
  md : MdRule
  deriving DecidableEq, Repr

/-- Scalar-class form (R168, R193). -/
def formS (tys : List Ty) (d a b c : Slot) (md : MdRule) : Option Form := some ⟨.both, tys, d, a, b, c, md⟩
/-- Form that only cores execute. -/
def formC (tys : List Ty) (d a b c : Slot) (md : MdRule) : Option Form := some ⟨.core, tys, d, a, b, c, md⟩

/-- The form when `FN` is 0, which is the one value the opcode defines. -/
def only0 (fn : Nat) (f : Option Form) : Option Form := if fn = 0 then f else none
/-- The form when `FN` is at most `n`. -/
def upTo (n fn : Nat) (f : Option Form) : Option Form := if fn ≤ n then f else none

/-- Scalar class, 0x01 to 0x1B (R168, R193). -/
def formScalar (op fn : Nat) : Option Form :=
  let src := Slot.sSrc .ty
  let amt := Slot.sSrc (.as .n32)
  let fsrc := Slot.sSrc .fty
  match op with
  | 0x01 | 0x02 => only0 fn (formS tysINB .sDst src src .none (.int true true))
  | 0x03 => only0 fn (formS tysINB .sDst src src .none (.int true false))
  | 0x04 | 0x05 | 0x06 => only0 fn (formS tysIN .sDst src src .none .zero)
  | 0x07 | 0x08 | 0x09 => only0 fn (formS tysINB .sDst src src .none .zero)
  | 0x0A | 0x0B | 0x0C | 0x0D => only0 fn (formS tysINB .sDst src amt .none .zero)
  | 0x0E | 0x0F => only0 fn (formS tysIN .sDst src src .none .zero)
  | 0x10 => only0 fn (formS tysINB .k src src .none .icmp)
  | 0x11 => only0 fn (formS tysINB .sDst .k src src .zero)
  | 0x12 => only0 fn (formS tysINB .sDst .smovA .none .none .zero)
  | 0x13 => upTo 1 fn (formS [.none] .sFull .immZ .none .none .zero)
  | 0x14 | 0x15 => only0 fn (formS tysINB .sDst src .none .none .zero)
  | 0x16 => only0 fn (formS tysIN .sDst src amt .none .zero)
  | 0x17 => only0 fn (formS tysINB .sDst src amt src .zero)
  | 0x18 | 0x19 => only0 fn (formS [.f32, .f64] .sDst fsrc fsrc .none (.fl false true true true false))
  | 0x1A => only0 fn (formS [.f32, .f64] .sDst fsrc fsrc fsrc (.fl false true true true true))
  | 0x1B => only0 fn (formS [.f16, .bf16, .f32, .f64, .i32, .i64, .n32, .n64] .sDst (.sSrc .anysub) .none .none .sfcvt)
  | _ => none

/-- Vector integer class, 0x40 to 0x63 (R169). -/
def formVector (op fn : Nat) : Option Form :=
  let src := Slot.vSrc .ty
  let s32 := Slot.vSrc (.as .n32)
  let dst := Slot.vec .ty
  let d32 := Slot.vec (.as .b32)
  match op with
  | 0x40 | 0x41 => only0 fn (formC tysINB dst src src .none (.int true true))
  | 0x42 => only0 fn (formC tysINB dst src src .none (.int true false))
  | 0x43 => only0 fn (formC tysIN dst src src .none .zero)
  | 0x44 => only0 fn (formC tysINB dst src src src (.int true true))
  | 0x45 | 0x46 | 0x47 | 0x48 => only0 fn (formC tysINB dst src src .none .zero)
  | 0x49 | 0x4A | 0x4B | 0x4C => only0 fn (formC tysINB dst src s32 .none .zero)
  | 0x4D => only0 fn (formC tysINB dst src src s32 .zero)
  | 0x4E | 0x4F => only0 fn (formC tysIN dst src src .none .zero)
  | 0x50 => only0 fn (formC tysI dst src .none .none (.int true false))
  | 0x51 => only0 fn (formC tysINB .p src src .none .icmp)
  | 0x52 => only0 fn (formC tysINB dst .pk src src .zero)
  | 0x53 => only0 fn (formC tysINB dst src .none .none .zero)
  | 0x54 => only0 fn (formC [.b32] dst .immZ .none .none .zero)
  | 0x55 | 0x56 | 0x57 | 0x58 | 0x59 => only0 fn (formC tysINB dst src .none .none .zero)
  | 0x5A => only0 fn (formC tysIN dst src s32 .none .zero)
  | 0x5B => only0 fn (formC tysINB dst src s32 src .zero)
  | 0x5C =>
    match fn with
    | 0 => formC tysB dst src src .none .zero
    | 1 => formC tysB dst src src src .zero
    | _ => none
  | 0x5D => upTo 4 fn (formC tysB dst src .none .none .zero)
  | 0x5E => upTo 1 fn (formC [.b64] dst src src .none .zero)
  | 0x5F => upTo 1 fn (formC [.b32] d32 s32 .table .none .zero)
  | 0x60 => only0 fn (formC [.i8, .n8] d32 s32 s32 s32 (.int true false))
  | 0x61 => upTo 1 fn (formC tysN dst src src .p .zero)
  | 0x62 => only0 fn (formC [.none] .p .pkn .pkn .pkn .plog)
  | 0x63 =>
    match fn with
    | 0 => formC [.b32] .p s32 .none .none .zero
    | 1 => formC [.b32] d32 .pk .none .none .zero
    | 2 => formC [.b32] .p s32 .none .none .zero
    | _ => none
  | _ => none

/-- Vector floating class, 0x68 to 0x7F (R192). -/
def formFloat (op fn : Nat) : Option Form :=
  let src := Slot.vSrc .fty
  let f32 := Slot.vSrc (.as .f32)
  let dst := Slot.vec .ty
  match op with
  | 0x68 | 0x69 | 0x6A => only0 fn (formC tysH dst src src .none (.fl true true true true false))
  | 0x6B => only0 fn (formC tysH dst src src src (.fl true true true true true))
  | 0x6C | 0x6D => upTo 1 fn (formC tysH dst src src .none .zero)
  | 0x6E => only0 fn (formC tysS .p src src .none .fcmp)
  | 0x6F => only0 fn (formC [.f32, .f64] dst src src .none (.fl true false true true false))
  | 0x70 => only0 fn (formC [.f32, .f64] dst src .none .none (.fl true false false false false))
  | 0x71 | 0x72 | 0x73 | 0x74 | 0x75 | 0x76 =>
    only0 fn (formC [.f32] dst src .none .none (.fl true false false false false))
  | 0x77 => upTo 7 fn (formC tysSQ dst (.vSrc .fsub) .none .none .vfcvt)
  | 0x78 => only0 fn (formC tysZ dst (.vSrc .fsub) .none .none .vfcvti)
  | 0x79 => only0 fn (formC tysS dst (.vSrc .sub) .none .none .vicvtf)
  | 0x7A => upTo 1 fn (formC tysH dst src .none .none (.fl true false false false false))
  | 0x7B =>
    match fn with
    | 0 => formC tysSQ (.vec (.as .b32)) src .none .none (.vfclass false)
    | 1 => formC tysSQ .p (.vSrcN .fty) .none .none (.vfclass true)
    | _ => none
  | 0x7C => only0 fn (formC tysS dst src (.vSrc (.as .n32)) .none .vfscale)
  | 0x7D => only0 fn (formC [.i32, .e8m0] (.vec .ty) (.vSrc .fsub) .none .none .vfgetexp)
  | 0x7E => upTo 3 fn (formC [.f16x2, .bf16x2, .e5m2, .e4m3, .e2m1] (.vec (.as .b32)) f32 f32 (.vSrc (.as .b32)) .vfpack)
  | 0x7F => only0 fn (formC [.f16x2, .bf16x2] dst src src f32 .vfdot2)
  | _ => none

/-- Memory class, 0x80 to 0x8F (R296). -/
def formMemory (op fn : Nat) : Option Form :=
  match op with
  | 0x80 => upTo 1 fn (formC tysMem .memDst .trans .offset .none (.mem (fn = 1) false false))
  | 0x81 => only0 fn (formC tysMem .none .trans .offset .memData (.mem false false false))
  | 0x82 => only0 fn (formC tysMem .memDst .sRank .offset .none (.mem false true false))
  | 0x83 => only0 fn (formC tysMem .none .sRank .offset .memData (.mem false true false))
  | 0x84 => upTo 1 fn (formS tysMem .sDst .sFull .none .none (.mem (fn = 1) false true))
  | 0x85 => only0 fn (formS tysMem .none .sFull .none .sMemData (.mem false false true))
  | 0x86 => only0 fn (formC [.none] .trans .sFull .none .none .memNoneDisp)
  | 0x87 => upTo 3 fn (formC [.none] .none .sHalf .sFull .sHalf .memNone)
  | 0x88 => upTo 4 fn (formC [.none] .none .none .none .none .stflush)
  | 0x89 =>
    match fn with
    | 0 | 1 | 2 => formC [.i32, .n32, .i64, .n64, .f32, .f64] .atomDst .addr .offIfA (.atomData .ty) .atom
    | 3 | 4 | 5 | 6 => formC [.b32, .b64] .atomDst .addr .offIfA (.atomData .ty) .atom
    | 7 => formC [.b32, .b64] .atomDst .addr .offIfA .casData .atom
    | 8 => formC [.rx256] .none .addr .offIfA (.atomData (.as .f64)) .atom
    | 9 | 10 => formC [.rx256] .atomDst .addr .offIfA .none .atom
    | _ => none
  | 0x8A =>
    match fn with
    | 0 | 1 | 2 => formC [.i32, .n32, .i64, .n64, .f32, .f64] .none .addr .offIfA (.atomData .ty) .atom
    | 3 | 4 | 5 => formC [.b32, .b64] .none .addr .offIfA (.atomData .ty) .atom
    | 8 => formC [.rx256] .none .addr .offIfA (.atomData (.as .f64)) .atom
    | _ => none
  | 0x8B => upTo 1 fn (formS [.none] .none .none .none .none (.fence (fn = 1)))
  | 0x8C =>
    match fn with
    | 0 => formC [.none] .none .sHalf .none .none .memNone
    | 1 => formC [.none] .none .none .none .none .memNone
    | _ => none
  | 0x8D => only0 fn (formC [.none] .none .addr .offIfA .none .prefetch)
  | 0x8E => upTo 1 fn (formC tysMem .memDst .vPair .none .none (.mem (fn = 1) false false))
  | 0x8F => only0 fn (formC tysMem .none .vPair .none .memData (.mem false false false))
  | _ => none

/-- The input types of the matrix family (R330). -/
def tysMma : List Ty := [.e2m1, .mx4, .e4m3, .e5m2, .i8, .mx8, .mx8e5, .mxi8, .bf16, .f16, .f32, .f64]

/-- Matrix class and tables, 0x90 to 0xA7 (R329, R336, R339 to R343, R398). -/
def formMatrix (op fn : Nat) : Option Form :=
  match op with
  | 0x90 | 0x91 => upTo 2 fn (formC tysMma .tile .asrc .sHalf .tileD .mma)
  | 0x92 => upTo 2 fn (formC tysMma .tile .sHalfN .sHalf .tileD .mperm)
  | 0x93 => upTo 2 fn (formC tysMma .tile .asrc .none .tileD .mrsum)
  | 0x94 =>
    match fn with
    | 0 => formC [.none] .tile .none .sHalf .sHalfN (.tile false)
    | 1 => formC [.none] .tile .sFull .none .sHalfN (.tile false)
    | 2 => formC [.none] .tile .vRun .none .none (.tile true)
    | _ => none
  | 0x95 =>
    match fn with
    | 0 => formC [.none] .none .tile .sHalf .sHalfN (.tile false)
    | 1 => formC [.none] .none .tile .sFull .sHalfN (.tile false)
    | 2 => formC [.none] .vRun .tile .none .none (.tile true)
    | _ => none
  | 0x96 => only0 fn (formC [.none] .tile .tile .none .none .tcvt)
  | 0x97 => only0 fn (formC [.none] .tile .none .none .none (.tile false))
  | 0x98 => upTo 1 fn (formC [.none] .none .sFull .sHalf .none .mcopy)
  | 0x99 =>
    match fn with
    | 0 => formC [.none] .none .tile .none .none .zeroImm
    | 1 => formC [.none] .none .none .none .none .zeroImm
    | _ => none
  | 0xA0 =>
    match fn with
    | 0 => formC [.f32, .f64, .x96] .none .tile .none .none .talloc
    | 1 => formC [.f32, .f64, .x96] .k .tile .none .none .talloc
    | _ => none
  | 0xA1 => only0 fn (formC [.none] .none .tile .sHalfZ .none .zeroImmUse)
  | 0xA2 => only0 fn (formC [.none] .k .tile .none .none .zeroImm)
  | 0xA3 => only0 fn (formC [.none] .none .tile .none .none .zeroImm)
  | 0xA4 =>
    if fn ≤ 1 then formC [.none] .sFull .sFull .sHalfZ .none .zeroImmUse
    else if fn ≤ 3 then formC [.none] .sFull .sHalf .sHalfZ .none .zeroImmUse
    else none
  | 0xA5 => only0 fn (formC [.none] .none .sHalfZ .none .none .zeroImmUse)
  | 0xA6 =>
    match fn with
    | 0 => formC [.none] .none .sFull .sHalfZ .none .zeroImmUse
    | 1 => formC [.none] .none .none .none .none .zeroImm
    | _ => none
  | 0xA7 =>
    match fn with
    | 0 => formC [.none] .sFull .tile .none .none .zeroImm
    | 1 => formC [.none] .sFull .sHalfZ .none .none .zeroImmUse
    | _ => none
  | _ => none

/-- Class 11, 0xC0 to 0xFF (R149, R217, R234, R374, R418). -/
def formControl (op fn : Nat) : Option Form :=
  let n := Slot.none
  match op with
  | 0xC0 => upTo 1 fn (formS [.none] n .pkn n n .zero)
  | 0xC1 => upTo 3 fn (formC [.none] n .p n n .zero)
  | 0xC2 => only0 fn (formS [.none] n n n n .zero)
  | 0xC3 => only0 fn (formS [.none] n n n n .zeroImm)
  | 0xC4 => upTo 1 fn (formC [.none] n .btabA n n .btab)
  | 0xC5 => only0 fn (formC [.none] n n n n .zero)
  | 0xC6 => only0 fn (formS [.none] n .pn n n .zeroImm)
  | 0xC7 => only0 fn (formS [.none] n n n n .zero)
  | 0xC8 => only0 fn (formS [.none] n n n n .low16)
  | 0xC9 => upTo 2 fn (formS [.none] n n n n .zeroImm)
  | 0xCA => only0 fn (formS [.none] .sIdx n n n .srIndex)
  | 0xCB => only0 fn (formS [.none] n .sIdx n n .srIndex)
  | 0xCC => upTo 1 fn (formC [.none] n n n n .zeroImm)
  | 0xCD =>
    match fn with
    | 0 => formC [.none] n .immCount n n .zero
    | 1 => formC [.none] .k .immCount n n .zero
    | _ => none
  | 0xCE => only0 fn (formC [.none] n .immCount n n .zero)
  | 0xCF =>
    if fn = 0 then formC [.none] .sAny .vec1 n n .zero
    else if fn ≤ 3 then formC [.none] .k .vec1 n n .zero
    else none
  | 0xD0 =>
    if fn ≤ 1 then formC [.none] .k .p n .pn .zeroImm
    else if fn = 2 then formC [.none] .sAny .p n .pn .zeroImm
    else none
  | 0xD1 => upTo 3 fn (formC tysB (.vec .ty) .vOrS (.vSrc (.as .n32)) .pn .zeroImmUse)
  | 0xD2 => upTo 1 fn (formC [.i32, .n32, .i64, .n64, .f32, .f64, .b32, .b64] (.vec .ty) .vOrS n .pn .gscan)
  | 0xD3 => only0 fn (formC [.i32, .n32, .i64, .n64, .f32, .f64, .b32, .b64] .vOrSDst .vOrS n .pn .gscan)
  | 0xD4 => only0 fn (formC tysB .vOrSDst (.vec .ty) .sHalfZS .pn .zeroImmUse)
  | 0xD5 => upTo 1 fn (formC [.none] n n n n .bar)
  | 0xE0 => only0 fn (formS [.none] n .sFull .sHalf n .zeroImm)
  | 0xE1 => only0 fn (formS [.none] n .sFull .sFull n .zeroImm)
  | 0xE2 => upTo 2 fn (formS [.none] n .sFull .sHalf n .zeroImm)
  | 0xE3 => only0 fn (some ⟨.seq, [.none], .sEven, n, n, n, .zeroImm⟩)
  | 0xE4 => only0 fn (some ⟨.seq, [.none], n, n, n, n, .zero⟩)
  | 0xE5 => upTo 5 fn (some ⟨.seq, [.none], .k, .sFull, .sFull, n, .msem⟩)
  | 0xE8 =>
    match fn with
    | 0 => formS [.none] n .sHalf n n (.semPair true)
    | 1 => formS [.none] n .sFull n n (.semPark true)
    | _ => none
  | 0xE9 =>
    match fn with
    | 0 => formS [.none] n .sHalf n n (.semPair true)
    | 1 => formS [.none] n .sFull n n (.semPark true)
    | _ => none
  | 0xEA =>
    match fn with
    | 0 => formS [.none] .sAny .sHalf n n (.semPair false)
    | 1 => formS [.none] .sFull .sFull n n (.semPark false)
    | _ => none
  | 0xEB => only0 fn (formS [.none] n .sHalfZ n n .zeroImmUse)
  | 0xEC => only0 fn (formS [.none] n .sFull .sHalf n .seqwait)
  | 0xFF => only0 fn (formS [.none] n n n n .low16)
  | _ => none

/-- The form of an opcode with an `FN` value; none when the opcode does not define the value (R84, R99). -/
def formOf (op fn : Nat) : Option Form :=
  if op < 0x40 then formScalar op fn
  else if op < 0x64 then formVector op fn
  else if op < 0x80 then formFloat op fn
  else if op < 0x90 then formMemory op fn
  else if op < 0xA8 then formMatrix op fn
  else formControl op fn

/-- Assigned opcodes (R99, R100): those with a form for `FN` 0. -/
def opAssigned (op : Nat) : Bool := (formOf op 0).isSome

/-- Whether a unit executes an opcode (R97). -/
def opRuns (seq : Bool) (op : Nat) : Bool :=
  match formOf op 0 with
  | some f => f.runs = .both ∨ (f.runs = .seq ∧ seq) ∨ (f.runs = .core ∧ ¬ seq)
  | none => false

/-! ## The word -/

/-- The instruction word split as R66 gives it, before any check. -/
structure Raw where
  op : BitVec 8
  fn : BitVec 4
  g : BitVec 4
  d : BitVec 10
  a : BitVec 10
  b : BitVec 10
  c : BitVec 10
  imm : W32
  ty : BitVec 5
  md : BitVec 11
  res : BitVec 4
  sc : BitVec 20
  deriving DecidableEq, Repr

/-- The fields of a word (R66). -/
def rawOf (w : W128) : Raw where
  op := w.extractLsb' 120 8
  fn := w.extractLsb' 116 4
  g := w.extractLsb' 112 4
  d := w.extractLsb' 102 10
  a := w.extractLsb' 92 10
  b := w.extractLsb' 82 10
  c := w.extractLsb' 72 10
  imm := w.extractLsb' 40 32
  ty := w.extractLsb' 35 5
  md := w.extractLsb' 24 11
  res := w.extractLsb' 20 4
  sc := w.extractLsb' 0 20

/-- The word of the fields (R66). -/
def Raw.bits (r : Raw) : W128 :=
  r.op ++ r.fn ++ r.g ++ r.d ++ r.a ++ r.b ++ r.c ++ r.imm ++ r.ty ++ r.md ++ r.res ++ r.sc

/-- Why a word is no instruction (R68, R69). -/
inductive DecodeTrap where
  /-- illegal-opcode; `assigned` when the opcode is assigned but not executed by the unit -/
  | opcode (op : BitVec 8) (assigned : Bool)
  /-- illegal-encoding with its cause and the positions it names: 1 D, 2 A, 3 B, 4 C, 0 none -/
  | encoding (op : BitVec 8) (cause p1 p2 : BitVec 4)
  deriving DecidableEq, Repr, Inhabited

/-- The rounding and saturation bits that a down-converter field of `IMM` may hold (R82, R339): `RM` other than 111. -/
def downRMOk (imm : W32) : Bool := imm.extractLsb' 28 3 ≠ 7#3

/-- Column counts are multiples of 8 (R82). -/
def colsOk (md : BitVec 11) : Bool := md.extractLsb' 2 3 = 0#3

/-- Sizes of R297: the size field and the type agree. -/
def sizeTyOk (size : Nat) (t : Ty) : Bool :=
  match size with
  | 0 => t = .i8 ∨ t = .n8
  | 1 => t = .i16 ∨ t = .n16
  | 3 => [Ty.b32, .i32, .n32, .f32, .f16x2, .bf16x2].contains t
  | 7 => [Ty.b64, .i64, .n64, .f64].contains t
  | 15 => t = .none
  | _ => true

/-- Step 6 of R68 where the accepted types depend on `MD`: memory sizes (R297, R309) and the operations of gang reductions (R237). -/
def tyMdCause (f : Form) (t : Ty) (md : BitVec 11) : Bool :=
  match f.md with
  | .mem _ _ _ => sizeTyOk (mdSize md).toNat t
  | .atom => (mdSize md).toNat = (if t.width = 32 then 3 else 7)
  | .gscan =>
    match (mdSUB md).toNat with
    | 0 | 1 | 2 => ¬ (t = .b32 ∨ t = .b64)
    | 3 | 4 | 5 => t = .b32 ∨ t = .b64
    | 6 => t = .f32 ∨ t = .f64
    | _ => true
  | _ => true

/-- The `FN` values of `vfpack` that its type permits (R209). -/
def vfpackFnOk (t : Ty) (fn : Nat) : Bool :=
  match t with
  | .f16x2 | .bf16x2 => fn = 0
  | .e5m2 | .e4m3 => fn ≤ 1
  | _ => fn ≤ 3

/-- The source elements that a `vfcvt` source type permits (R202). -/
def vfcvtFnOk (t : Ty) (fn : Nat) : Bool :=
  match t with
  | .f64 | .f32 => fn = 0
  | .f16 | .bf16 => fn ≤ 1
  | .e5m2 | .e4m3 => fn ≤ 3
  | _ => fn ≤ 7

/-- Exact conversion pairs (R203): source, destination. -/
def exactCvt (src dst : Ty) : Bool :=
  match src with
  | .e2m1 => [Ty.e4m3, .e5m2, .f16, .bf16, .f32, .f64].contains dst
  | .e4m3 | .e5m2 => [Ty.f16, .bf16, .f32, .f64].contains dst
  | .f16 | .bf16 => dst = .f32 ∨ dst = .f64
  | .f32 => dst = .f64
  | _ => false

/-- `RM` other than the reserved 111 (R80). -/
def rmOk (md : BitVec 11) : Bool := mdRM md ≠ 7#3

/-- Pairs of `TY`, accumulator and `ASRC` of R330. -/
def mmaOk (t : Ty) (acc : Nat) (asrc : Nat) (perm : Bool) : Bool :=
  match t with
  | .e2m1 | .e4m3 | .e5m2 => (acc = 0 ∨ acc = 1) ∧ asrc ≤ 2
  | .i8 => (acc = 0 ∨ acc = 1) ∧ (asrc = 0 ∨ asrc = 2)
  | .mx4 | .mx8 | .mx8e5 | .mxi8 => acc = 0 ∧ asrc = 0 ∧ ¬ perm
  | .bf16 | .f16 | .f32 => acc = 0 ∧ asrc ≤ 2
  | .f64 => acc = 2 ∧ asrc ≤ 2
  | _ => false

/-- Operation codes of `gscan` and `greduce` by type (R237). -/
def gscanOk (t : Ty) (md : BitVec 11) : Bool :=
  let sub := (mdSUB md).toNat
  let rm := (mdRM md).toNat
  md.extractLsb' 5 3 = 0#3 &&
  match t with
  | .i32 | .n32 | .i64 | .n64 => sub ≤ 2 ∧ rm = 0
  | .f32 | .f64 => (sub = 0 ∧ rm ≠ 5 ∧ rm ≠ 7) ∨ ((sub = 1 ∨ sub = 2 ∨ sub = 6) ∧ rm = 0)
  | .b32 | .b64 => 3 ≤ sub ∧ sub ≤ 5 ∧ rm = 0
  | _ => false

/-- Scope codes that R81 defines. -/
def scopeOk (md : BitVec 11) : Bool := (mdScope md).toNat ≤ 5

/-- Size codes that R81 defines. -/
def sizeOk (md : BitVec 11) : Bool :=
  match (mdSize md).toNat with
  | 0 | 1 | 3 | 7 | 15 => true
  | _ => false

/-- Step 7 of R68: the `MD` and `IMM` bits that a form permits; `uses` says whether an operand field reads `IMM`. [log 54: DEDUCED, unsafe] -/
def MdRule.ok (r : MdRule) (fn : Nat) (t : Ty) (md : BitVec 11) (imm : W32) (uses : Bool) : Bool :=
  let sub := (mdSUB md).toNat
  let subTy := tyOfCode (mdSUB md)
  let rm0 : Bool := mdRM md = 0#3
  let neg0 : Bool := !mdNA md && !mdNB md
  match r with
  | .zero | .ignoreImm => md = 0#11
  | .zeroImm => md = 0#11 ∧ imm = 0#32
  | .zeroImmUse => md = 0#11 ∧ (uses ∨ imm = 0#32)
  | .int sat neg =>
    rm0 ∧ sub = 0 ∧ (mdSAT md → sat ∧ ¬ (t = .b32 ∨ t = .b64)) ∧
      (mdNA md ∨ mdNB md → neg ∧ (t = .i32 ∨ t = .i64))
  | .icmp => rm0 ∧ ¬ mdSAT md ∧ neg0 ∧ sub ≤ 7
  | .fl sr sat na nb nc =>
    rmOk md ∧ (mdRM md = 5#3 → sr) ∧ (mdSAT md → sat) ∧ (mdNA md → na) ∧ (mdNB md → nb) ∧
      (sub = 0 ∨ (sub = 1 ∧ nc))
  | .fcmp => rm0 ∧ ¬ mdSAT md ∧ neg0 ∧ sub ≤ 7
  | .vfcvt =>
    rmOk md && neg0 &&
    match subTy with
    | some s => tysSQ.contains s ∧ s ≠ t ∧ (exactCvt s t → rm0 ∧ ¬ mdSAT md)
    | none => false
  | .vfcvti => rmOk md ∧ neg0 ∧ (subTy.any tysS.contains)
  | .vicvtf => rmOk md ∧ neg0 ∧ (subTy.any tysZ.contains)
  | .vfclass p => md = 0#11 ∧ (if p then imm.extractLsb' 9 23 = 0#23 else imm = 0#32)
  | .vfscale => rmOk md ∧ neg0 ∧ (sub = 0x03 ∨ sub = 0x1B)
  | .vfgetexp => rm0 ∧ ¬ mdSAT md ∧ neg0 ∧ (subTy.any tysS.contains)
  | .vfpack => rmOk md ∧ neg0 ∧ sub = 0x12
  | .vfdot2 => rmOk md ∧ neg0 ∧ sub = 0
  | .sfcvt =>
    rmOk md && decide (mdRM md ≠ 5#3) && neg0 &&
    match subTy with
    | some s =>
      [Ty.f16, .bf16, .f32, .f64, .i32, .i64, .n32, .n64].contains s ∧ (s.isFloat ∨ t.isFloat) ∧ s ≠ t ∧
        (exactCvt s t → rm0 ∧ ¬ mdSAT md)
    | none => false
  | .plog => md = 0#11 ∧ imm.extractLsb' 8 24 = 0#24
  | .mem remote sp scalar =>
    scopeOk md ∧ sizeOk md ∧ (sp → mdHint md = 0#2) ∧ (scalar → mdSize md ≠ 15#4) ∧
      (remote → (mdOrder md).toNat ≥ 2 ∧ (mdScope md).toNat ≥ 3)
  | .atom =>
    scopeOk md ∧ sizeOk md ∧ (mdOrder md = 1#2 ∨ mdOrder md = 3#2) ∧ (mdHint md = 0#2 ∨ mdHint md = 3#2)
  | .fence remote =>
    scopeOk md ∧ mdOrder md = 3#2 ∧ mdHint md = 0#2 ∧ mdSize md = 0#4 ∧ imm = 0#32 ∧
      (remote → (mdScope md).toNat ≥ 3)
  | .stflush =>
    scopeOk md ∧ (mdOrder md = 0#2 ∨ mdOrder md = 2#2) ∧ mdHint md = 0#2 ∧ mdSize md = 0#4 ∧ imm = 0#32
  | .memNone => md = 0#11 ∧ imm = 0#32
  | .memNoneDisp => md = 0#11
  | .prefetch => mdScope md = 0#3 ∧ mdOrder md = 0#2 ∧ mdSize md = 0#4
  | .mma =>
    colsOk md ∧ mmaOk t fn (mdASRC md).toNat false ∧
      (if mdASRC md = 1#2 then downRMOk imm ∧ imm.extractLsb' 9 19 = 0#19 else imm = 0#32)
  | .mrsum =>
    colsOk md ∧ mmaOk t fn (mdASRC md).toNat false ∧
      (if mdASRC md = 1#2 then downRMOk imm ∧ imm.extractLsb' 9 19 = 0#19 else imm = 0#32)
  | .mperm => colsOk md ∧ mdASRC md = 0#2 ∧ mmaOk t fn 0 true ∧ imm.extractLsb' 1 31 = 0#31
  | .tile v => colsOk md ∧ mdASRC md = 0#2 ∧ imm.extractLsb' 9 23 = 0#23 ∧ (v → mdCols md = 8)
  | .tcvt => colsOk md ∧ mdASRC md = 0#2 ∧ downRMOk imm ∧ imm.extractLsb' 18 10 = 0#10
  | .mcopy => md = 0#11 ∧ imm.toNat % 128 = 0 ∧ 128 ≤ imm.toNat ∧ imm.toNat ≤ 524288
  | .talloc => colsOk md ∧ mdASRC md = 0#2 ∧ imm = 0#32
  | .btab => md = 0#11 ∧ 1 ≤ imm.toNat ∧ imm.toNat ≤ 256
  | .low16 => md = 0#11 ∧ imm.extractLsb' 16 16 = 0#16
  | .srIndex => md = 0#11 ∧ (imm.toNat ≤ 0x1A ∨ imm.toNat = 0x20)
  | .gscan => imm = 0#32 ∧ gscanOk t md
  | .msem => imm = 0#32 ∧ md.extractLsb' 0 8 = 0#8 ∧ 3 ≤ (mdScope md).toNat ∧ (mdScope md).toNat ≤ 5
  | .semPair n =>
    md.extractLsb' 0 8 = 0#8 ∧ 1 ≤ (mdScope md).toNat ∧ (mdScope md).toNat ≤ 3 ∧
      (if n then 1 ≤ imm.toNat ∧ imm.toNat ≤ 65535 else imm = 0#32)
  | .semPark n =>
    md.extractLsb' 0 8 = 0#8 ∧ 3 ≤ (mdScope md).toNat ∧ (mdScope md).toNat ≤ 5 ∧
      (if n then 1 ≤ imm.toNat ∧ imm.toNat ≤ 65535 else imm = 0#32)
  | .seqwait => imm = 0#32 ∧ md.extractLsb' 0 8 = 0#8 ∧ 3 ≤ (mdScope md).toNat ∧ (mdScope md).toNat ≤ 5
  | .bar => md = 0#11 ∧ imm.extractLsb' 4 4 = 0#4 ∧ (imm.extractLsb' 8 6).toNat ≤ 32 ∧ imm.extractLsb' 14 18 = 0#18

/-- Whether an operand field reads the one `IMM` (R75). -/
def isImm : Operand → Bool
  | .immZ | .immS | .immF => true
  | _ => false

/-- The rejection of one position at step 5, with the position's number (R69, R433). -/
def posCause (x : SlotCtx) (s : Slot) (o : Option Operand) (pos : BitVec 4) : Option (BitVec 4 × BitVec 4) :=
  match o with
  | none => some (0x4#4, pos)
  | some o => (slotCause x s o).map (·, pos)

/-- `vfpack` takes C only for the types of 8 bits and fewer (R209). Where `TY` is reserved or not accepted, C counts as used at step 5, before step 6 rejects `TY`. [log 15: DEDUCED, unsafe] -/
def slotC (f : Form) (t : Option Ty) : Slot :=
  if f.md = .vfpack ∧ (t = some .f16x2 ∨ t = some .bf16x2) then .none else f.c

/-- The registers that a source touches, as (first, count); count 0 when it takes no part (R98). -/
def touched (x : SlotCtx) (s : Slot) (o : Option Operand) : Nat × Nat :=
  match o with
  | some (.vec r) => (r.toNat, slotRegs x s (.vec r))
  | _ => (0, 0)

/-- Whether register `v + i` for some i below `n` and `w + j` for some j below `m` lie in one bank of 8 (R98). -/
def banksMeet (v n w m : Nat) : Bool :=
  (List.range n).any fun i => (List.range m).any fun j => (v + i) % 8 = (w + j) % 8

/-- Two sources conflict unless they name the same register with the same width (R98). -/
def conflict (p q : Nat × Nat) : Bool := ¬ (p = q) ∧ banksMeet p.1 p.2 q.1 q.2

/-- Step 8 of R68: the first two positions whose banks meet. -/
def bankCause (x : SlotCtx) (f : Form) (a b c : Option Operand) : Option (BitVec 4 × BitVec 4) :=
  let pa := touched x f.a a
  let pb := touched x f.b b
  let pc := touched x (slotC f x.ty) c
  if conflict pa pb then some (2#4, 3#4)
  else if conflict pa pc then some (2#4, 4#4)
  else if conflict pb pc then some (3#4, 4#4)
  else none

/-- The `FN` tests that depend on `TY` (step 6) and on `MD` (step 7) (R68). -/
def fnTyOk (f : Form) (t : Ty) (fn : Nat) : Bool := if f.md = .vfpack then vfpackFnOk t fn else true
/-- The `FN` test of `vfcvt` after `SUB` has passed (R68, R202). -/
def fnMdOk (f : Form) (md : BitVec 11) (fn : Nat) : Bool :=
  if f.md = .vfcvt then
    match tyOfCode (mdSUB md) with
    | some s => vfcvtFnOk s fn
    | none => false
  else true

/-- Steps 5 to 8 of R68 on operands and fields already split, in order: the first failure. -/
def fieldsCause (seq : Bool) (f : Form) (fn : Nat) (ty : Option Ty) (d a b c : Option Operand)
    (md : BitVec 11) (imm : W32) : Option (BitVec 4 × BitVec 4 × BitVec 4) :=
  let x : SlotCtx := { seq, ty, sub := tyOfCode (mdSUB md), md, imm, d, a }
  match posCause x f.d d 1#4 with
  | some (k, p) => some (k, p, 0#4)
  | none =>
  match posCause x f.a a 2#4 with
  | some (k, p) => some (k, p, 0#4)
  | none =>
  match posCause x f.b b 3#4 with
  | some (k, p) => some (k, p, 0#4)
  | none =>
  match posCause x (slotC f ty) c 4#4 with
  | some (k, p) => some (k, p, 0#4)
  | none =>
  match ty with
  | none => some (0x6#4, 0#4, 0#4)
  | some t =>
    if ¬ f.tys.contains t ∨ ¬ tyMdCause f t md then some (0x6#4, 0#4, 0#4)
    else if ¬ fnTyOk f t fn then some (0x1#4, 0#4, 0#4)
    else if ¬ f.md.ok fn t md imm ((a.any isImm) || (b.any isImm) || (c.any isImm)) then some (0x7#4, 0#4, 0#4)
    else if ¬ fnMdOk f md fn then some (0x1#4, 0#4, 0#4)
    else (bankCause x f a b c).map fun p => (0x8#4, p.1, p.2)

/-- The decode checks of R68 in order, for a sequencer or a core: the trap of the first failure, none when all pass. -/
def decodeTrap (seq : Bool) (r : Raw) : Option DecodeTrap :=
  let op := r.op.toNat
  if ¬ opAssigned op then some (.opcode r.op false)
  else if ¬ opRuns seq op then some (.opcode r.op true)
  else
    match formOf op r.fn.toNat with
    | none => some (.encoding r.op 0x1#4 0#4 0#4)
    | some f =>
      if r.g = 0xF#4 then some (.encoding r.op 0x2#4 0#4 0#4)
      else if r.res ≠ 0#4 ∨ r.sc.extractLsb' 0 4 ≠ 0#4 then some (.encoding r.op 0x3#4 0#4 0#4)
      else
        (fieldsCause seq f r.fn.toNat (tyOfCode r.ty) (operandOf r.d) (operandOf r.a) (operandOf r.b)
          (operandOf r.c) r.md r.imm).map fun k => .encoding r.op k.1 k.2.1 k.2.2

/-- The typed fields of a word whose operands and type are not reserved. -/
def fieldsOf (r : Raw) : Option Fields :=
  match operandOf r.d, operandOf r.a, operandOf r.b, operandOf r.c, tyOfCode r.ty with
  | some d, some a, some b, some c, some ty =>
    some { fn := r.fn, g := guardOf r.g, d, a, b, c, imm := r.imm, ty, md := r.md, sc := schedOf r.sc }
  | _, _, _, _, _ => none

/-- The raw fields of typed ones. -/
def Fields.raw (w : Fields) (op : BitVec 8) : Raw where
  op := op
  fn := w.fn
  g := w.g.bits
  d := w.d.bits
  a := w.a.bits
  b := w.b.bits
  c := w.c.bits
  imm := w.imm
  ty := w.ty.code
  md := w.md
  res := 0#4
  sc := w.sc.bits

/-- The constructor of an opcode, with `FN` choosing where the table splits one (R99). -/
def Instr.ofOp (op : Nat) (w : Fields) : Option Instr :=
  match op with
  | 0x01 => some (.sadd w)
  | 0x02 => some (.ssub w)
  | 0x03 => some (.smul w)
  | 0x04 => some (.smulh w)
  | 0x05 => some (.sdiv w)
  | 0x06 => some (.srem w)
  | 0x07 => some (.sand w)
  | 0x08 => some (.sor w)
  | 0x09 => some (.sxor w)
  | 0x0A => some (.sshl w)
  | 0x0B => some (.sshr w)
  | 0x0C => some (.ssar w)
  | 0x0D => some (.srot w)
  | 0x0E => some (.smin w)
  | 0x0F => some (.smax w)
  | 0x10 => some (.scmp w)
  | 0x11 => some (.ssel w)
  | 0x12 => some (.smov w)
  | 0x13 => some (.sli w)
  | 0x14 => some (.sclz w)
  | 0x15 => some (.spopc w)
  | 0x16 => some (.sbfx w)
  | 0x17 => some (.sbfi w)
  | 0x18 => some (.sfadd w)
  | 0x19 => some (.sfmul w)
  | 0x1A => some (.sffma w)
  | 0x1B => some (.sfcvt w)
  | 0x40 => some (.vadd w)
  | 0x41 => some (.vsub w)
  | 0x42 => some (.vmul w)
  | 0x43 => some (.vmulh w)
  | 0x44 => some (.vmad w)
  | 0x45 => some (.vand w)
  | 0x46 => some (.vor w)
  | 0x47 => some (.vxor w)
  | 0x48 => some (.vandn w)
  | 0x49 => some (.vshl w)
  | 0x4A => some (.vshr w)
  | 0x4B => some (.vsar w)
  | 0x4C => some (.vrot w)
  | 0x4D => some (.vfunnel w)
  | 0x4E => some (.vmin w)
  | 0x4F => some (.vmax w)
  | 0x50 => some (.vabs w)
  | 0x51 => some (.vcmp w)
  | 0x52 => some (.vsel w)
  | 0x53 => some (.vmov w)
  | 0x54 => some (.vli w)
  | 0x55 => some (.vclz w)
  | 0x56 => some (.vctz w)
  | 0x57 => some (.vpopc w)
  | 0x58 => some (.vbrev w)
  | 0x59 => some (.vbswap w)
  | 0x5A => some (.vbfx w)
  | 0x5B => some (.vbfi w)
  | 0x5C => some (.vbitil w)
  | 0x5D => some (.vbitdl w)
  | 0x5E => some (.vclmul w)
  | 0x5F => some (.vperm w)
  | 0x60 => some (.vdot4 w)
  | 0x61 => some (.vaddc w)
  | 0x62 => some (.plog w)
  | 0x63 => some (.pmov w)
  | 0x68 => some (.vfadd w)
  | 0x69 => some (.vfsub w)
  | 0x6A => some (.vfmul w)
  | 0x6B => some (.vffma w)
  | 0x6C => some (.vfmin w)
  | 0x6D => some (.vfmax w)
  | 0x6E => some (.vfcmp w)
  | 0x6F => some (.vfdiv w)
  | 0x70 => some (.vfsqrt w)
  | 0x71 => some (.vfrcp w)
  | 0x72 => some (.vfrsq w)
  | 0x73 => some (.vfexp2 w)
  | 0x74 => some (.vflog2 w)
  | 0x75 => some (.vfsinpi w)
  | 0x76 => some (.vfcospi w)
  | 0x77 => some (.vfcvt w)
  | 0x78 => some (.vfcvti w)
  | 0x79 => some (.vicvtf w)
  | 0x7A => some (.vfrnd w)
  | 0x7B => some (.vfclass w)
  | 0x7C => some (.vfscale w)
  | 0x7D => some (.vfgetexp w)
  | 0x7E => some (.vfpack w)
  | 0x7F => some (.vfdot2 w)
  | 0x80 => some (.ld w)
  | 0x81 => some (.st w)
  | 0x82 => some (.ldsp w)
  | 0x83 => some (.stsp w)
  | 0x84 => some (.sld w)
  | 0x85 => some (.sst w)
  | 0x86 => some (.xlate w)
  | 0x87 => some (.stmap w)
  | 0x88 => some (.stflush w)
  | 0x89 => some (.atom w)
  | 0x8A => some (.red w)
  | 0x8B => some (.fence w)
  | 0x8C => some (.fpromote w)
  | 0x8D => some (.prefetch w)
  | 0x8E => some (.ldg w)
  | 0x8F => some (.stg w)
  | 0x90 => some (.mma w)
  | 0x91 => some (.mmat w)
  | 0x92 => some (.mperm w)
  | 0x93 => some (.mrsum w)
  | 0x94 => some (.tld w)
  | 0x95 => some (.tst w)
  | 0x96 => some (.tcvt w)
  | 0x97 => some (.tzero w)
  | 0x98 => some (.mcopy w)
  | 0x99 => some (.mwait w)
  | 0xA0 => if w.fn = 0#4 then some (.tallocWait w) else some (.tallocTry w)
  | 0xA1 => some (.tgive w)
  | 0xA2 => some (.ttake w)
  | 0xA3 => some (.tfree w)
  | 0xA4 => some (.rlock w)
  | 0xA5 => some (.runlock w)
  | 0xA6 => some (.tlbinv w)
  | 0xA7 => some (.cprobe w)
  | 0xC0 => some (.bra w)
  | 0xC1 => some (.brq w)
  | 0xC2 => some (.call w)
  | 0xC3 => some (.ret w)
  | 0xC4 => some (.btab w)
  | 0xC5 => some (.regang w)
  | 0xC6 => some (.exit w)
  | 0xC7 => some (.nop w)
  | 0xC8 => some (.trap w)
  | 0xC9 => some (.trapret w)
  | 0xCA => some (.mfsr w)
  | 0xCB => some (.mtsr w)
  | 0xCC => some (.icinv w)
  | 0xCD => if w.fn = 0#4 then some (.rgrowWait w) else some (.rgrowTry w)
  | 0xCE => some (.rshrink w)
  | 0xCF => if w.fn = 0#4 then some (.rshapeGet w) else some (.rshapeSet w)
  | 0xD0 => some (.gvote w)
  | 0xD1 => some (.gshfl w)
  | 0xD2 => some (.gscan w)
  | 0xD3 => some (.greduce w)
  | 0xD4 => some (.gbcast w)
  | 0xD5 => some (.bar w)
  | 0xE0 => some (.launch w)
  | 0xE1 => some (.qappend w)
  | 0xE2 => some (.qtail w)
  | 0xE3 => some (.evget w)
  | 0xE4 => some (.evwait w)
  | 0xE5 => some (.msem w)
  | 0xE8 => some (.semup w)
  | 0xE9 => some (.semwait w)
  | 0xEA => some (.semread w)
  | 0xEB => some (.slkset w)
  | 0xEC => some (.seqwait w)
  | 0xFF => some (.brk w)
  | _ => none

/-- The opcode and the fields of an instruction form; none for the steps that no word encodes. -/
def Instr.parts : Instr → Option (BitVec 8 × Fields)
  | .sadd w => some (0x01#8, w)
  | .ssub w => some (0x02#8, w)
  | .smul w => some (0x03#8, w)
  | .smulh w => some (0x04#8, w)
  | .sdiv w => some (0x05#8, w)
  | .srem w => some (0x06#8, w)
  | .sand w => some (0x07#8, w)
  | .sor w => some (0x08#8, w)
  | .sxor w => some (0x09#8, w)
  | .sshl w => some (0x0A#8, w)
  | .sshr w => some (0x0B#8, w)
  | .ssar w => some (0x0C#8, w)
  | .srot w => some (0x0D#8, w)
  | .smin w => some (0x0E#8, w)
  | .smax w => some (0x0F#8, w)
  | .scmp w => some (0x10#8, w)
  | .ssel w => some (0x11#8, w)
  | .smov w => some (0x12#8, w)
  | .sli w => some (0x13#8, w)
  | .sclz w => some (0x14#8, w)
  | .spopc w => some (0x15#8, w)
  | .sbfx w => some (0x16#8, w)
  | .sbfi w => some (0x17#8, w)
  | .sfadd w => some (0x18#8, w)
  | .sfmul w => some (0x19#8, w)
  | .sffma w => some (0x1A#8, w)
  | .sfcvt w => some (0x1B#8, w)
  | .vadd w => some (0x40#8, w)
  | .vsub w => some (0x41#8, w)
  | .vmul w => some (0x42#8, w)
  | .vmulh w => some (0x43#8, w)
  | .vmad w => some (0x44#8, w)
  | .vand w => some (0x45#8, w)
  | .vor w => some (0x46#8, w)
  | .vxor w => some (0x47#8, w)
  | .vandn w => some (0x48#8, w)
  | .vshl w => some (0x49#8, w)
  | .vshr w => some (0x4A#8, w)
  | .vsar w => some (0x4B#8, w)
  | .vrot w => some (0x4C#8, w)
  | .vfunnel w => some (0x4D#8, w)
  | .vmin w => some (0x4E#8, w)
  | .vmax w => some (0x4F#8, w)
  | .vabs w => some (0x50#8, w)
  | .vcmp w => some (0x51#8, w)
  | .vsel w => some (0x52#8, w)
  | .vmov w => some (0x53#8, w)
  | .vli w => some (0x54#8, w)
  | .vclz w => some (0x55#8, w)
  | .vctz w => some (0x56#8, w)
  | .vpopc w => some (0x57#8, w)
  | .vbrev w => some (0x58#8, w)
  | .vbswap w => some (0x59#8, w)
  | .vbfx w => some (0x5A#8, w)
  | .vbfi w => some (0x5B#8, w)
  | .vbitil w => some (0x5C#8, w)
  | .vbitdl w => some (0x5D#8, w)
  | .vclmul w => some (0x5E#8, w)
  | .vperm w => some (0x5F#8, w)
  | .vdot4 w => some (0x60#8, w)
  | .vaddc w => some (0x61#8, w)
  | .plog w => some (0x62#8, w)
  | .pmov w => some (0x63#8, w)
  | .vfadd w => some (0x68#8, w)
  | .vfsub w => some (0x69#8, w)
  | .vfmul w => some (0x6A#8, w)
  | .vffma w => some (0x6B#8, w)
  | .vfmin w => some (0x6C#8, w)
  | .vfmax w => some (0x6D#8, w)
  | .vfcmp w => some (0x6E#8, w)
  | .vfdiv w => some (0x6F#8, w)
  | .vfsqrt w => some (0x70#8, w)
  | .vfrcp w => some (0x71#8, w)
  | .vfrsq w => some (0x72#8, w)
  | .vfexp2 w => some (0x73#8, w)
  | .vflog2 w => some (0x74#8, w)
  | .vfsinpi w => some (0x75#8, w)
  | .vfcospi w => some (0x76#8, w)
  | .vfcvt w => some (0x77#8, w)
  | .vfcvti w => some (0x78#8, w)
  | .vicvtf w => some (0x79#8, w)
  | .vfrnd w => some (0x7A#8, w)
  | .vfclass w => some (0x7B#8, w)
  | .vfscale w => some (0x7C#8, w)
  | .vfgetexp w => some (0x7D#8, w)
  | .vfpack w => some (0x7E#8, w)
  | .vfdot2 w => some (0x7F#8, w)
  | .ld w => some (0x80#8, w)
  | .st w => some (0x81#8, w)
  | .ldsp w => some (0x82#8, w)
  | .stsp w => some (0x83#8, w)
  | .sld w => some (0x84#8, w)
  | .sst w => some (0x85#8, w)
  | .xlate w => some (0x86#8, w)
  | .stmap w => some (0x87#8, w)
  | .stflush w => some (0x88#8, w)
  | .atom w => some (0x89#8, w)
  | .red w => some (0x8A#8, w)
  | .fence w => some (0x8B#8, w)
  | .fpromote w => some (0x8C#8, w)
  | .prefetch w => some (0x8D#8, w)
  | .ldg w => some (0x8E#8, w)
  | .stg w => some (0x8F#8, w)
  | .mma w => some (0x90#8, w)
  | .mmat w => some (0x91#8, w)
  | .mperm w => some (0x92#8, w)
  | .mrsum w => some (0x93#8, w)
  | .tld w => some (0x94#8, w)
  | .tst w => some (0x95#8, w)
  | .tcvt w => some (0x96#8, w)
  | .tzero w => some (0x97#8, w)
  | .mcopy w => some (0x98#8, w)
  | .mwait w => some (0x99#8, w)
  | .tallocWait w => some (0xA0#8, w)
  | .tallocTry w => some (0xA0#8, w)
  | .tgive w => some (0xA1#8, w)
  | .ttake w => some (0xA2#8, w)
  | .tfree w => some (0xA3#8, w)
  | .rlock w => some (0xA4#8, w)
  | .runlock w => some (0xA5#8, w)
  | .tlbinv w => some (0xA6#8, w)
  | .cprobe w => some (0xA7#8, w)
  | .bra w => some (0xC0#8, w)
  | .brq w => some (0xC1#8, w)
  | .call w => some (0xC2#8, w)
  | .ret w => some (0xC3#8, w)
  | .btab w => some (0xC4#8, w)
  | .regang w => some (0xC5#8, w)
  | .exit w => some (0xC6#8, w)
  | .nop w => some (0xC7#8, w)
  | .trap w => some (0xC8#8, w)
  | .trapret w => some (0xC9#8, w)
  | .mfsr w => some (0xCA#8, w)
  | .mtsr w => some (0xCB#8, w)
  | .icinv w => some (0xCC#8, w)
  | .brk w => some (0xFF#8, w)
  | .rgrowWait w => some (0xCD#8, w)
  | .rgrowTry w => some (0xCD#8, w)
  | .rshrink w => some (0xCE#8, w)
  | .rshapeGet w => some (0xCF#8, w)
  | .rshapeSet w => some (0xCF#8, w)
  | .gvote w => some (0xD0#8, w)
  | .gshfl w => some (0xD1#8, w)
  | .gscan w => some (0xD2#8, w)
  | .greduce w => some (0xD3#8, w)
  | .gbcast w => some (0xD4#8, w)
  | .bar w => some (0xD5#8, w)
  | .launch w => some (0xE0#8, w)
  | .qappend w => some (0xE1#8, w)
  | .qtail w => some (0xE2#8, w)
  | .evget w => some (0xE3#8, w)
  | .evwait w => some (0xE4#8, w)
  | .msem w => some (0xE5#8, w)
  | .semup w => some (0xE8#8, w)
  | .semwait w => some (0xE9#8, w)
  | .semread w => some (0xEA#8, w)
  | .slkset w => some (0xEB#8, w)
  | .seqwait w => some (0xEC#8, w)
  | .resultReply _ _ => none
  | .dlyExpiry _ _ => none
  | .slotDrowsy _ _ _ => none
  | .trapEntry _ => none
  | .rangeLockRetry _ _ => none
  | .handleBusyTimeout _ _ => none
  | .commandQueueAccept _ _ => none
  | .commandBegin _ _ => none
  | .commandComplete _ _ => none
  | .granuleClearDone _ _ => none
  | .allocationDeadlock _ => none
  | .registerDeadlock _ => none
  | .evwaitTimeout _ => none
  | .gangRetire _ _ => none
  | .teamDone _ => none
  | .debuggerKill _ _ _ => none
  | .contextSave _ => none
  | .teamRestore _ => none
  | .parkedEnsembleSave _ => none
  | .parkedEnsembleRestore _ => none
  | .debugGo _ _ => none
  | .slackExhausted _ => none
  | .packetService _ => none
  | .coalesceWindowClose _ _ => none
  | .promotionArrival _ _ => none
  | .remoteWriteAck _ => none
  | .sectorPoison _ => none
  | .correctableError _ => none
  | .eventPost _ => none
  | .queueDoorbell _ _ => none
  | .doorbellDropClear _ => none
  | .queueSwitch => none
  | .launchDeal _ _ => none
  | .waitPacketPoll _ => none
  | .signalPacket _ => none
  | .dieDistributorDeal _ _ => none
  | .ensembleStart _ _ => none
  | .stealRequest _ _ => none
  | .stealReply _ => none
  | .deadlineMiss _ => none
  | .forcedReset _ => none
  | .contextEnd _ => none
  | .moverCopy _ _ => none
  | .moverRingAllreduce _ _ => none
  | .moverTreeAllreduce _ _ => none
  | .ethernetSend _ _ => none
  | .ethernetReceive _ _ => none
  | .ethernetFrameArrival _ _ _ _ => none
  | .utiumFlitReceive _ _ _ => none
  | .hostLinkAccess _ _ => none
  | .switchMatrixCommand _ => none
  | .switchCommandApplied => none
  | .fabricFaultServed _ _ => none
  | .faultServed _ _ => none
  | .faultQueueHeadWrite _ _ => none
  | .tlbInvalidateControl _ _ => none
  | .icacheInvalidateGo => none
  | .wayMaskWrite _ _ => none
  | .routingRegisterWrite _ _ _ => none
  | .routeChangeEffect _ _ => none
  | .pairFaultCountClear _ _ => none
  | .syndromeClear _ => none
  | .sequencerStart _ => none
  | .registerWrite _ _ _ => none
  | .railLoss _ _ _ => none
  | .railRelock _ _ _ => none
  | .pairLossTimeout _ _ => none
  | .laneLossOfLock _ => none
  | .retrainAttemptEnd _ _ => none
  | .heaterRollover _ => none
  | .containedError _ _ _ => none
  | .dieFence _ => none
  | .uncontainedError _ _ _ => none
  | .link0Down => none
  | .attestationRequest _ => none
  | .powerOn => none
  | .fundamentalReset => none
  | .rst => none
  | .groundWatchdogReset => none
  | .start _ _ => none
  | .startStepTimeout => none
  | .startFailureReset => none
  | .studioRestart => none
  | .gangAged _ _ => none
  | .cacheEviction _ _ => none
  | .invalidationReachesCore _ _ => none
  | .powerRemoval => none
  | .hostLinkTrained _ => none

/-- Decode of a word by a sequencer or a core: the instruction, or the trap of R68. -/
def decode (seq : Bool) (x : W128) : Except DecodeTrap Instr :=
  let r := rawOf x
  match decodeTrap seq r with
  | some t => .error t
  | none =>
    match (fieldsOf r).bind (Instr.ofOp r.op.toNat) with
    | some i => .ok i
    | none => .error (.opcode r.op false)

/-- The word of an instruction form; none for the steps that no word encodes. -/
def encode (i : Instr) : Option W128 := i.parts.map fun p => (p.2.raw p.1).bits

/-- What the host asks of the decoder: an instruction whose low `nbits` bits are `w`, on a core. -/
def decodeTableWord (nbits w : Nat) : Option Instr :=
  match decode false (BitVec.ofNat 128 (w % 2 ^ nbits)) with
  | .ok i => some i
  | .error _ =>
    match decode true (BitVec.ofNat 128 (w % 2 ^ nbits)) with
    | .ok i => some i
    | .error _ => none

end Sys2Proof
end

