-- ==== Sys2Proof/Machine/Number.lean ====
section
/-! DEFINITION. Number formats, rounding, the stochastic-rounding hash and the functions of the floating units, on exact integers. -/

namespace Sys2Proof.Machine

/-! ## Formats (R118, R119) -/

/-- What a format has beside its finite values. -/
inductive Special where
  /-- infinities and NaNs at the top exponent -/
  | ieee
  /-- one NaN magnitude, no infinity -/
  | oneNan
  /-- finite values only -/
  | finite
  deriving DecidableEq, Repr, Inhabited

/-- A floating format: exponent bits, fraction bits, bias. -/
structure Format where
  ebits : Nat
  tbits : Nat
  bias : Nat
  special : Special
  deriving DecidableEq, Repr, Inhabited

/-- The format of a floating type; of the element, for a packed one (R118). -/
def formatOf : Ty → Format
  | .f64 => ⟨11, 52, 1023, .ieee⟩
  | .f16 | .f16x2 => ⟨5, 10, 15, .ieee⟩
  | .bf16 | .bf16x2 => ⟨8, 7, 127, .ieee⟩
  | .e5m2 => ⟨5, 2, 15, .ieee⟩
  | .e4m3 => ⟨4, 3, 7, .oneNan⟩
  | .e2m1 => ⟨2, 1, 1, .finite⟩
  | _ => ⟨8, 23, 127, .ieee⟩

/-- Bits of an encoding. -/
def Format.bits (f : Format) : Nat := 1 + f.ebits + f.tbits
/-- The canonical NaN (R119); `e2m1` has none and gives +0 (R126). -/
def Format.nan (f : Format) : Nat :=
  match f.special with
  | .ieee => (2 ^ f.ebits - 1) * 2 ^ f.tbits + 2 ^ (f.tbits - 1)
  | .oneNan => 2 ^ (f.ebits + f.tbits) - 1
  | .finite => 0
/-- Encoding of the largest finite magnitude. -/
def Format.top (f : Format) : Nat :=
  match f.special with
  | .ieee => (2 ^ f.ebits - 1) * 2 ^ f.tbits - 1
  | .oneNan => 2 ^ (f.ebits + f.tbits) - 2
  | .finite => 2 ^ (f.ebits + f.tbits) - 1
/-- An encoding with its sign bit. -/
def Format.signed (f : Format) (neg : Bool) (mag : Nat) : Nat := if neg then mag + 2 ^ (f.ebits + f.tbits) else mag
/-- Exponent of the quantum of the subnormal range (R126). -/
def Format.qmin (f : Format) : Int := 1 - (f.bias : Int) - f.tbits

/-- A value: NaN, an infinity, or the finite (−1)^neg × m × 2^e with its zero's sign. -/
inductive Val where
  | nan
  | inf (neg : Bool)
  | fin (neg : Bool) (m : Nat) (e : Int)
  deriving DecidableEq, Repr, Inhabited

/-- The value of an encoding (R118, R119). -/
def Format.read (f : Format) (x : Nat) : Val :=
  let neg := x / 2 ^ (f.ebits + f.tbits) % 2 = 1
  let ex := x / 2 ^ f.tbits % 2 ^ f.ebits
  let t := x % 2 ^ f.tbits
  let finite := if ex = 0 then Val.fin neg t f.qmin else Val.fin neg (2 ^ f.tbits + t) ((ex : Int) - 1 + f.qmin)
  match f.special with
  | .ieee => if ex = 2 ^ f.ebits - 1 then (if t = 0 then .inf neg else .nan) else finite
  | .oneNan => if x % 2 ^ (f.ebits + f.tbits) = 2 ^ (f.ebits + f.tbits) - 1 then .nan else finite
  | .finite => finite

/-- The value of bits in a floating type. -/
def readAs (t : Ty) (x : Nat) : Val := (formatOf t).read (x % 2 ^ (formatOf t).bits)

/-! ## Flags (R129, R158) -/

/-- No flag. -/
def flagNone : BitVec 5 := 0#5
/-- Invalid. -/
def flagNV : BitVec 5 := 1#5
/-- Divide-by-zero. -/
def flagDZ : BitVec 5 := 2#5
/-- Overflow. -/
def flagOF : BitVec 5 := 4#5
/-- Underflow. -/
def flagUF : BitVec 5 := 8#5
/-- Inexact. -/
def flagNX : BitVec 5 := 16#5

/-! ## Rounding (R126, R127) -/

/-- Rounding modes (R126). -/
inductive Mode where
  | rne | rtz | rup | rdn | rna | sr
  deriving DecidableEq, Repr, Inhabited

/-- The mode of a code from 0 to 5 (R80); the codes 6 and 7 do not reach here. -/
def modeOf (c : BitVec 3) : Mode :=
  match c.toNat with
  | 0 => .rne
  | 1 => .rtz
  | 2 => .rup
  | 3 => .rdn
  | 4 => .rna
  | _ => .sr

/-- Number of bits of a number. -/
def bitLen (n : Nat) : Nat := if n = 0 then 0 else Nat.log2 n + 1

/-- Whether a magnitude between `n` and `n + 1` quanta goes up: `r` of 2^`s` parts above `n`, and more when `sticky`. `h` is the hash of R128. -/
def goesUp (rm : Mode) (h : Nat) (neg : Bool) (n r s : Nat) (sticky : Bool) : Bool :=
  let inexact := r != 0 || sticky
  match rm with
  | .rtz => false
  | .rup => inexact && !neg
  | .rdn => inexact && neg
  | .rna => 2 * r ≥ 2 ^ s
  | .rne => 2 * r > 2 ^ s || (2 * r = 2 ^ s && (sticky || n % 2 = 1))
  | .sr =>
    if neg then
      -- the threshold is that of the lower neighbour, the greater magnitude
      let c := (r * 2 ^ 32 + 2 ^ s - 1) / 2 ^ s + (if sticky && (r * 2 ^ 32) % 2 ^ s = 0 then 1 else 0)
      inexact && decide (2 ^ 32 - c ≤ h)
    else h < r * 2 ^ 32 / 2 ^ s

/-- Quanta, exponent of the quantum and inexactness of a magnitude m × 2^e, more when `sticky`, rounded to a precision with a least quantum. -/
def quantise (p : Nat) (qmin : Option Int) (rm : Mode) (h : Nat) (neg : Bool) (m : Nat) (e : Int) (sticky : Bool) :
    Nat × Int × Bool :=
  let q := e + bitLen m - p
  let q := match qmin with
    | some z => max q z
    | none => q
  if q ≤ e then (m * 2 ^ (e - q).toNat, q, sticky)
  else
    let s := (q - e).toNat
    let n := m / 2 ^ s
    let r := m % 2 ^ s
    (if goesUp rm h neg n r s sticky then n + 1 else n, q, r != 0 || sticky)

/-- Whether a magnitude n × 2^q exceeds another m × 2^e. -/
def exceeds (n : Nat) (q : Int) (m : Nat) (e : Int) : Bool :=
  let z := min q e
  n * 2 ^ (q - z).toNat > m * 2 ^ (e - z).toNat

/-- The result of an overflow (R126). -/
def overflowTo (f : Format) (rm : Mode) (sat neg : Bool) : Nat :=
  let top := f.signed neg f.top
  if sat || f.special == .finite then top
  else
    let most := match f.special with
      | .oneNan => f.nan
      | _ => f.signed neg ((2 ^ f.ebits - 1) * 2 ^ f.tbits)
    match rm with
    | .rtz => top
    | .rup => if neg then top else most
    | .rdn => if neg then most else top
    | _ => most

/-- Round a magnitude m × 2^e, above it when `sticky`, with a sign, into a format: the encoding and the flags (R126, R127, R129). -/
def roundMag (f : Format) (rm : Mode) (sat : Bool) (h : Nat) (neg : Bool) (m : Nat) (e : Int) (sticky : Bool) :
    Nat × BitVec 5 :=
  if m = 0 ∧ ¬ sticky then (f.signed neg 0, flagNone)
  else
    let (n, q, inexact) := quantise (f.tbits + 1) (some f.qmin) rm h neg m e sticky
    let (tm, te) := match f.read f.top with
      | .fin _ tm te => (tm, te)
      | _ => (0, 0)
    if exceeds n q tm te ∨ (rm = .sr ∧ (exceeds m e tm te ∨ (sticky ∧ ¬ exceeds tm te m e))) then
      (overflowTo f rm sat neg, flagOF ||| flagNX)
    else
      let tiny := exceeds (2 ^ f.tbits) f.qmin m e
      let flags := if inexact then (if tiny then flagUF ||| flagNX else flagNX) else flagNone
      let mag :=
        if n < 2 ^ f.tbits then n
        else if n = 2 ^ (f.tbits + 1) then (q - f.qmin + 2).toNat * 2 ^ f.tbits
        else (q - f.qmin + 1).toNat * 2 ^ f.tbits + (n - 2 ^ f.tbits)
      (f.signed neg mag, flags)

/-- `round` of R126 for a value: the encoding in the format and the flags. -/
def roundVal (f : Format) (rm : Mode) (sat : Bool) (h : Nat) (v : Val) : Nat × BitVec 5 :=
  match v with
  | .nan => (f.nan, if f.special = .finite then flagNV else flagNone)
  | .inf neg =>
    if sat || f.special == .finite then (f.signed neg f.top, flagNone)
    else if f.special = .oneNan then (overflowTo f rm sat neg, flagOF ||| flagNX)
    else (f.signed neg ((2 ^ f.ebits - 1) * 2 ^ f.tbits), flagNone)
  | .fin neg m e => roundMag f rm sat h neg m e false

/-- `round_int` of R204 and R206: the integer, and whether it differs from the value. -/
def roundInt (rm : Mode) (h : Nat) (neg : Bool) (m : Nat) (e : Int) : Int × Bool :=
  let sgn := fun n : Nat => if neg then -(n : Int) else (n : Int)
  if e ≥ 0 then (sgn (m * 2 ^ e.toNat), false)
  else
    let s := (-e).toNat
    let n := m / 2 ^ s
    let r := m % 2 ^ s
    (sgn (if goesUp rm h neg n r s false then n + 1 else n), r != 0)

/-! ## The stochastic-rounding hash (R128) -/

/-- `mixstep`. -/
def mixstep (h w : W32) : W32 :=
  let h := (h ^^^ w) * 0x9E3779B1#32
  h ^^^ (h >>> 15)

/-- `srhash` of seed, team number, gang, lane and counter. -/
def srhash (seed t : W64) (g l : BitVec 5) (c : W32) : W32 :=
  let h := mixstep 0x6A09E667#32 (seed.extractLsb' 0 32)
  let h := mixstep h (seed.extractLsb' 32 32)
  let h := mixstep h (t.extractLsb' 0 32)
  let h := mixstep h (t.extractLsb' 32 32)
  let h := mixstep h (0#22 ++ g ++ l)
  let h := mixstep h c
  let h := h * 0x85EBCA6B#32
  let h := h ^^^ (h >>> 13)
  let h := h * 0xC2B2AE35#32
  h ^^^ (h >>> 16)

/-! ## Exact arithmetic on values -/

/-- A value with its sign reversed. -/
def Val.negate : Val → Val
  | .nan => .nan
  | .inf s => .inf (!s)
  | .fin s m e => .fin (!s) m e

/-- Signed mantissa of a finite value. -/
def sint (neg : Bool) (m : Nat) : Int := if neg then -(m : Int) else m

/-- Exact product and its flags: 0 × ∞ is invalid (R195). -/
def Val.mul (a b : Val) : Val × BitVec 5 :=
  match a, b with
  | .nan, _ | _, .nan => (.nan, flagNone)
  | .inf s, .inf t => (.inf (s ^^ t), flagNone)
  | .inf s, .fin t m _ | .fin t m _, .inf s => if m = 0 then (.nan, flagNV) else (.inf (s ^^ t), flagNone)
  | .fin s m e, .fin t n d => (.fin (s ^^ t) (m * n) (e + d), flagNone)

/-- Exact sum and its flags; `down` when the mode is RDN, which decides the sign of an exact zero (R126, R195). -/
def Val.add (down : Bool) (a b : Val) : Val × BitVec 5 :=
  match a, b with
  | .nan, _ | _, .nan => (.nan, flagNone)
  | .inf s, .inf t => if s = t then (.inf s, flagNone) else (.nan, flagNV)
  | .inf s, .fin _ _ _ | .fin _ _ _, .inf s => (.inf s, flagNone)
  | .fin s m e, .fin t n d =>
    let z := min e d
    let x := sint s (m * 2 ^ (e - z).toNat) + sint t (n * 2 ^ (d - z).toNat)
    if x = 0 then (.fin (if m = 0 ∧ n = 0 ∧ s = t then s else down) 0 0, flagNone)
    else (.fin (x < 0) x.natAbs z, flagNone)

/-- An integer as a value. -/
def Val.ofInt (x : Int) : Val := .fin (x < 0) x.natAbs 0

/-- Order of two values that are not NaN, with −0 below +0 when `zeros` (R197, R198). -/
def Val.lt (zeros : Bool) (a b : Val) : Bool :=
  match a, b with
  | .inf s, .inf t => s && !t
  | .inf s, .fin _ _ _ => s
  | .fin _ _ _, .inf t => !t
  | .fin s m e, .fin t n d =>
    let z := min e d
    let x := sint s (m * 2 ^ (e - z).toNat)
    let y := sint t (n * 2 ^ (d - z).toNat)
    x < y || (zeros && m == 0 && n == 0 && s && !t)
  | _, _ => false

/-! ## Division, roots and functions (R200, R201) -/

/-- A real result before rounding: a value, or a magnitude strictly between two neighbours at full working precision, or one that the bounds do not decide. -/
inductive RealVal where
  | exact (v : Val)
  | above (neg : Bool) (m : Nat) (e : Int)
  | undecided
  deriving DecidableEq, Repr, Inhabited

/-- Round a real result; an undecided one is the given free encoding, inexact (log 14). -/
def roundReal (f : Format) (rm : Mode) (h : Nat) (free : Nat) (x : RealVal) : Nat × BitVec 5 :=
  match x with
  | .exact v => roundVal f rm false h v
  | .above neg m e => roundMag f rm false h neg m e true
  | .undecided => (free, flagNX)

/-- A quotient m × 2^e / d to 140 bits and more. -/
def quotient (neg : Bool) (m : Nat) (e : Int) (d : Nat) : RealVal :=
  let k := 140 + bitLen d
  let q := m * 2 ^ k / d
  if m * 2 ^ k % d = 0 then .exact (.fin neg q (e - k)) else .above neg q (e - k)

/-- a / b (R200). -/
def divide (a b : Val) : RealVal × BitVec 5 :=
  match a, b with
  | .nan, _ | _, .nan => (.exact .nan, flagNone)
  | .inf _, .inf _ => (.exact .nan, flagNV)
  | .inf s, .fin t _ _ => (.exact (.inf (s ^^ t)), flagNone)
  | .fin s _ _, .inf t => (.exact (.fin (s ^^ t) 0 0), flagNone)
  | .fin s m e, .fin t n d =>
    if n = 0 then (if m = 0 then (.exact .nan, flagNV) else (.exact (.inf (s ^^ t)), flagDZ))
    else if m = 0 then (.exact (.fin (s ^^ t) 0 0), flagNone)
    else (quotient (s ^^ t) m (e - d) n, flagNone)

/-- One Newton step of the integer square root, repeated with fuel from above. -/
def sqrtFrom (n : Nat) : (fuel x : Nat) → Nat
  | 0, x => x
  | k + 1, x =>
    let y := (x + n / x) / 2
    if y < x then sqrtFrom n k y else x

/-- Integer square root. -/
def isqrt (n : Nat) : Nat := if n = 0 then 0 else sqrtFrom n (bitLen n + 8) (2 ^ ((bitLen n + 1) / 2))

/-- √a (R200). -/
def squareRoot (a : Val) : RealVal × BitVec 5 :=
  match a with
  | .nan => (.exact .nan, flagNone)
  | .inf s => if s then (.exact .nan, flagNV) else (.exact (.inf false), flagNone)
  | .fin s m e =>
    if m = 0 then (.exact (.fin s 0 0), flagNone)
    else if s then (.exact .nan, flagNV)
    else
      let (m, e) := if e % 2 = 0 then (m, e) else (2 * m, e - 1)
      let n := m * 2 ^ 400
      let r := isqrt n
      (if r * r = n then .exact (.fin false r (e / 2 - 200)) else .above false r (e / 2 - 200), flagNone)

/-- 1 / √a (R201). -/
def inverseRoot (a : Val) : RealVal × BitVec 5 :=
  match a with
  | .nan => (.exact .nan, flagNone)
  | .inf s => if s then (.exact .nan, flagNV) else (.exact (.fin false 0 0), flagNone)
  | .fin s m e =>
    if m = 0 then (.exact (.inf s), flagDZ)
    else if s then (.exact .nan, flagNV)
    else
      let (m, e) := if e % 2 = 0 then (m, e) else (2 * m, e - 1)
      let r := isqrt (2 ^ 500 / m)
      (if r * r * m = 2 ^ 500 then .exact (.fin false r (-(e / 2) - 250)) else .above false r (-(e / 2) - 250), flagNone)

/-- The magnitude that bounds `lo` and `hi`, both in units of 2^-`w`, agree on to 80 bits; a true value between them is no multiple of that last place. -/
def agree (neg : Bool) (lo hi w : Nat) : RealVal :=
  let s := bitLen lo - 80
  if lo / 2 ^ s = hi / 2 ^ s then .above neg (lo / 2 ^ s) ((s : Int) - w) else .undecided

/-- The first decided result at rising precisions. [log 14: DESIGN CHOICE, safe] -/
def firstDecided (f : Nat → RealVal) : List Nat → RealVal
  | [] => .undecided
  | w :: ws =>
    match f w with
    | .undecided => firstDecided f ws
    | r => r

/-- Lower bound of ln 2 in units of 2^-w, within w + 2: the sum of 2^-k / k. -/
def ln2Lower (w : Nat) : Nat := ((List.range w).map fun k => 2 ^ w / ((k + 1) * 2 ^ (k + 1))).sum

/-- Terms of the exponential series from a term on, each rounded down or, with `up`, up: their sum and the last term. -/
def expTerms (w y : Nat) (up : Bool) : (fuel k term sum : Nat) → Nat × Nat
  | 0, _, term, sum => (sum, term)
  | n + 1, k, term, sum =>
    let t := term * y / (2 ^ w * k) + (if up then 1 else 0)
    expTerms w y up n (k + 1) t (sum + t)

/-- 2^(num / 2^k) for 0 < num < 2^k, at precision w. -/
def exp2Part (num k w : Nat) : RealVal :=
  let l := ln2Lower w
  let yl := num * l / 2 ^ k
  let yu := num * (l + w + 2) / 2 ^ k + 1
  let lo := (expTerms w yl false (w / 3) 1 (2 ^ w) (2 ^ w)).1
  let (sum, last) := expTerms w yu true (w / 3) 1 (2 ^ w) (2 ^ w)
  agree false lo (min (sum + 2 * last + 2) (2 ^ (w + 1) - 1)) w

/-- A real result times a power of two. -/
def RealVal.scale (k : Int) : RealVal → RealVal
  | .exact (.fin s m e) => .exact (.fin s m (e + k))
  | .above s m e => .above s m (e + k)
  | x => x

/-- 2^a (R201). [log 14: DESIGN CHOICE, safe] -/
def expTwo (a : Val) : RealVal × BitVec 5 :=
  match a with
  | .nan => (.exact .nan, flagNone)
  | .inf s => (if s then .exact (.fin false 0 0) else .exact (.inf false), flagNone)
  | .fin s m e =>
    -- beyond 1,024 in magnitude every result overflows or underflows alike
    let big := exceeds m e 1024 0
    if big then (if s then .above false (2 ^ 80) (-1100) else .above false (2 ^ 80) 1000, flagNone)
    else
      let k := (-e).toNat
      let x := sint s (m * 2 ^ e.toNat)
      let n := x / (2 ^ k : Int)
      let num := (x % (2 ^ k : Int)).toNat
      (if num = 0 then .exact (.fin false 1 n)
       else (firstDecided (exp2Part num k) [192, 384, 768]).scale n, flagNone)

/-- Binary digits of log2 z for z between lo and hi in units of 2^-w, 1 ≤ z < 2, by repeated squaring: the digits as a number and how many were decided. -/
def logDigits (w : Nat) : (fuel lo hi acc count : Nat) → Nat × Nat
  | 0, _, _, acc, count => (acc, count)
  | n + 1, lo, hi, acc, count =>
    let lo := lo * lo / 2 ^ w
    let hi := hi * hi / 2 ^ w + 1
    if hi < 2 ^ (w + 1) then logDigits w n lo hi (2 * acc) (count + 1)
    else if lo ≥ 2 ^ (w + 1) then logDigits w n (lo / 2) (hi / 2 + 1) (2 * acc + 1) (count + 1)
    else (acc, count)

/-- log2 a (R201). [log 14: DESIGN CHOICE, safe] -/
def logTwo (a : Val) : RealVal × BitVec 5 :=
  match a with
  | .nan => (.exact .nan, flagNone)
  | .inf s => if s then (.exact .nan, flagNV) else (.exact (.inf false), flagNone)
  | .fin s m e =>
    if m = 0 then (.exact (.inf true), flagDZ)
    else if s then (.exact .nan, flagNV)
    else
      let k := e + (bitLen m : Int) - 1
      if m = 2 ^ (bitLen m - 1) then (.exact (Val.ofInt k), flagNone)
      else
        let w := 400
        let z := m * 2 ^ w / 2 ^ (bitLen m - 1)
        let (d, b) := logDigits w 160 z z 0 0
        if b < 160 then (.undecided, flagNone)
        else if k ≥ 0 then (.above false (k.toNat * 2 ^ 160 + d) (-160), flagNone)
        else (.above true ((-k).toNat * 2 ^ 160 - d - 1) (-160), flagNone)

/-- Terms of the arctangent series of 1 / n in units of 2^-w: the sum of the even or of the odd ones. -/
def atanTerms (w n : Nat) (odd : Bool) : Nat :=
  (((List.range w).filter fun k => (k % 2 = 1) = odd).map fun k => 2 ^ w / ((2 * k + 1) * n ^ (2 * k + 1))).sum

/-- π in units of 2^-w, within 32 w of the truth: 16 atan(1/5) − 4 atan(1/239). -/
def piNear (w : Nat) : Nat :=
  16 * (atanTerms w 5 false - atanTerms w 5 true) - 4 * (atanTerms w 239 false - atanTerms w 239 true)

/-- Terms of the sine series: the sums of the added and of the subtracted terms. -/
def sinTerms (w y2 : Nat) : (fuel k term plus minus : Nat) → Nat × Nat
  | 0, _, _, plus, minus => (plus, minus)
  | n + 1, k, term, plus, minus =>
    let t := term * y2 / 2 ^ w / ((2 * k) * (2 * k + 1))
    if k % 2 = 1 then sinTerms w y2 n (k + 1) t plus (minus + t) else sinTerms w y2 n (k + 1) t (plus + t) minus

/-- sin(π × num / 2^k) for 0 < num / 2^k < 1/2, at precision w. -/
def sinPart (neg : Bool) (num k w : Nat) : RealVal :=
  let y := num * piNear w / 2 ^ k
  let (plus, minus) := sinTerms w (y * y / 2 ^ w) (w / 4) 1 y y 0
  let near := plus - minus
  -- the argument is within 32 w + 1 units, each term within 4
  let err := 40 * w
  agree neg (near - err) (min (near + err) (2 ^ w - 1)) w

/-- |a| modulo 2 as a fraction: numerator and the power of two of the denominator, at least 2. -/
def modTwo (m : Nat) (e : Int) : Nat × Nat :=
  let k := max (-e).toNat 2
  (m * 2 ^ (e + k).toNat % 2 ^ (k + 1), k)

/-- sin(πa) (R201). [log 14: DESIGN CHOICE, safe] -/
def sinPi (a : Val) : RealVal × BitVec 5 :=
  match a with
  | .nan => (.exact .nan, flagNone)
  | .inf _ => (.exact .nan, flagNV)
  | .fin s m e =>
    let (r, k) := modTwo m e
    let neg := s ^^ decide (r ≥ 2 ^ k)
    let r := r % 2 ^ k
    let r := if r > 2 ^ (k - 1) then 2 ^ k - r else r
    (if r = 0 then .exact (.fin s 0 0)
     else if r = 2 ^ (k - 1) then .exact (.fin neg 1 0)
     else firstDecided (sinPart neg r k) [512, 1024], flagNone)

/-- cos(πa) (R201). [log 14: DESIGN CHOICE, safe] -/
def cosPi (a : Val) : RealVal × BitVec 5 :=
  match a with
  | .nan => (.exact .nan, flagNone)
  | .inf _ => (.exact .nan, flagNV)
  | .fin _ m e =>
    let (r, k) := modTwo m e
    let r := if r > 2 ^ k then 2 ^ (k + 1) - r else r
    let neg := decide (r > 2 ^ (k - 1))
    let r := if neg then 2 ^ k - r else r
    (if r = 0 then .exact (.fin neg 1 0)
     else if r = 2 ^ (k - 1) then .exact (.fin false 0 0)
     else firstDecided (sinPart neg (2 ^ (k - 1) - r) k) [512, 1024], flagNone)

/-! ## Integers (R117, R171) -/

/-- Least value of an integer or bit type. -/
def loOf (t : Ty) : Int := if t.isSigned then -(2 ^ (t.width - 1) : Int) else 0
/-- Greatest value of an integer or bit type. -/
def hiOf (t : Ty) : Int := if t.isSigned then 2 ^ (t.width - 1) - 1 else 2 ^ t.width - 1
/-- Value of bits under an integer or bit type (R117). -/
def intVal (t : Ty) (x : Nat) : Int :=
  let y := x % 2 ^ t.width
  if t.isSigned ∧ y ≥ 2 ^ (t.width - 1) then (y : Int) - 2 ^ t.width else y
/-- An integer into the range of a type. -/
def clamp (t : Ty) (r : Int) : Int := min (max r (loOf t)) (hiOf t)
/-- `fin` of R167: the bits of an exact integer. -/
def fin (t : Ty) (r : Int) (sat : Bool) : Nat := ((if sat then clamp t r else r) % (2 ^ t.width : Int)).toNat

/-! ## The pairwise tree (R134) -/

/-- One level of the pairwise tree (R134). -/
def pairUp {α : Type} (f : α → α → α) : List α → List α
  | a :: b :: r => f a b :: pairUp f r
  | r => r

/-- The pairwise tree over 2^`k` leaves (R134). -/
def pairTree {α : Type} (f : α → α → α) : (k : Nat) → List α → List α
  | 0, l => l
  | k + 1, l => pairTree f k (pairUp f l)

end Sys2Proof.Machine
end

