-- ==== Sys2Proof/WellFormed.lean ====
section
/-! DEFINITION. Well-formed syntax: an instruction form that passes every decode check of R68, and a step whose parties exist (R13, R28, R31, R344, R483). -/

namespace Sys2Proof

/-- Fields whose word passes the decode checks of the given kind of unit, under an opcode and `FN` that name the instruction `i`. -/
def Fields.wfAs (w : Fields) (seq : Bool) (i : Instr) : Bool :=
  match i.parts with
  | some (op, _) => decodeTrap seq (w.raw op) = none ∧ Instr.ofOp op.toNat w = some i
  | none => false

/-- A lane of a router plane or of a Utium port that the package has (R17, R486). -/
def laneWf : LaneName → Bool
  | .router i j plane => i ≤ 22 ∧ j ≤ 22 ∧ i ≠ j ∧ plane < 12
  | .utium port lane => port < 48 ∧ lane < 4

/-- Well-formedness for a core, or for a sequencer when `seq` holds. -/
def Instr.wf (seq : Bool) (i : Instr) : Bool :=
  match i with
  | .sadd w => w.wfAs seq i
  | .ssub w => w.wfAs seq i
  | .smul w => w.wfAs seq i
  | .smulh w => w.wfAs seq i
  | .sdiv w => w.wfAs seq i
  | .srem w => w.wfAs seq i
  | .sand w => w.wfAs seq i
  | .sor w => w.wfAs seq i
  | .sxor w => w.wfAs seq i
  | .sshl w => w.wfAs seq i
  | .sshr w => w.wfAs seq i
  | .ssar w => w.wfAs seq i
  | .srot w => w.wfAs seq i
  | .smin w => w.wfAs seq i
  | .smax w => w.wfAs seq i
  | .scmp w => w.wfAs seq i
  | .ssel w => w.wfAs seq i
  | .smov w => w.wfAs seq i
  | .sli w => w.wfAs seq i
  | .sclz w => w.wfAs seq i
  | .spopc w => w.wfAs seq i
  | .sbfx w => w.wfAs seq i
  | .sbfi w => w.wfAs seq i
  | .sfadd w => w.wfAs seq i
  | .sfmul w => w.wfAs seq i
  | .sffma w => w.wfAs seq i
  | .sfcvt w => w.wfAs seq i
  | .vadd w => w.wfAs seq i
  | .vsub w => w.wfAs seq i
  | .vmul w => w.wfAs seq i
  | .vmulh w => w.wfAs seq i
  | .vmad w => w.wfAs seq i
  | .vand w => w.wfAs seq i
  | .vor w => w.wfAs seq i
  | .vxor w => w.wfAs seq i
  | .vandn w => w.wfAs seq i
  | .vshl w => w.wfAs seq i
  | .vshr w => w.wfAs seq i
  | .vsar w => w.wfAs seq i
  | .vrot w => w.wfAs seq i
  | .vfunnel w => w.wfAs seq i
  | .vmin w => w.wfAs seq i
  | .vmax w => w.wfAs seq i
  | .vabs w => w.wfAs seq i
  | .vcmp w => w.wfAs seq i
  | .vsel w => w.wfAs seq i
  | .vmov w => w.wfAs seq i
  | .vli w => w.wfAs seq i
  | .vclz w => w.wfAs seq i
  | .vctz w => w.wfAs seq i
  | .vpopc w => w.wfAs seq i
  | .vbrev w => w.wfAs seq i
  | .vbswap w => w.wfAs seq i
  | .vbfx w => w.wfAs seq i
  | .vbfi w => w.wfAs seq i
  | .vbitil w => w.wfAs seq i
  | .vbitdl w => w.wfAs seq i
  | .vclmul w => w.wfAs seq i
  | .vperm w => w.wfAs seq i
  | .vdot4 w => w.wfAs seq i
  | .vaddc w => w.wfAs seq i
  | .plog w => w.wfAs seq i
  | .pmov w => w.wfAs seq i
  | .vfadd w => w.wfAs seq i
  | .vfsub w => w.wfAs seq i
  | .vfmul w => w.wfAs seq i
  | .vffma w => w.wfAs seq i
  | .vfmin w => w.wfAs seq i
  | .vfmax w => w.wfAs seq i
  | .vfcmp w => w.wfAs seq i
  | .vfdiv w => w.wfAs seq i
  | .vfsqrt w => w.wfAs seq i
  | .vfrcp w => w.wfAs seq i
  | .vfrsq w => w.wfAs seq i
  | .vfexp2 w => w.wfAs seq i
  | .vflog2 w => w.wfAs seq i
  | .vfsinpi w => w.wfAs seq i
  | .vfcospi w => w.wfAs seq i
  | .vfcvt w => w.wfAs seq i
  | .vfcvti w => w.wfAs seq i
  | .vicvtf w => w.wfAs seq i
  | .vfrnd w => w.wfAs seq i
  | .vfclass w => w.wfAs seq i
  | .vfscale w => w.wfAs seq i
  | .vfgetexp w => w.wfAs seq i
  | .vfpack w => w.wfAs seq i
  | .vfdot2 w => w.wfAs seq i
  | .ld w => w.wfAs seq i
  | .st w => w.wfAs seq i
  | .ldsp w => w.wfAs seq i
  | .stsp w => w.wfAs seq i
  | .sld w => w.wfAs seq i
  | .sst w => w.wfAs seq i
  | .xlate w => w.wfAs seq i
  | .stmap w => w.wfAs seq i
  | .stflush w => w.wfAs seq i
  | .atom w => w.wfAs seq i
  | .red w => w.wfAs seq i
  | .fence w => w.wfAs seq i
  | .fpromote w => w.wfAs seq i
  | .prefetch w => w.wfAs seq i
  | .ldg w => w.wfAs seq i
  | .stg w => w.wfAs seq i
  | .mma w => w.wfAs seq i
  | .mmat w => w.wfAs seq i
  | .mperm w => w.wfAs seq i
  | .mrsum w => w.wfAs seq i
  | .tld w => w.wfAs seq i
  | .tst w => w.wfAs seq i
  | .tcvt w => w.wfAs seq i
  | .tzero w => w.wfAs seq i
  | .mcopy w => w.wfAs seq i
  | .mwait w => w.wfAs seq i
  | .tallocWait w => w.wfAs seq i
  | .tallocTry w => w.wfAs seq i
  | .tgive w => w.wfAs seq i
  | .ttake w => w.wfAs seq i
  | .tfree w => w.wfAs seq i
  | .rlock w => w.wfAs seq i
  | .runlock w => w.wfAs seq i
  | .tlbinv w => w.wfAs seq i
  | .cprobe w => w.wfAs seq i
  | .bra w => w.wfAs seq i
  | .brq w => w.wfAs seq i
  | .call w => w.wfAs seq i
  | .ret w => w.wfAs seq i
  | .btab w => w.wfAs seq i
  | .regang w => w.wfAs seq i
  | .exit w => w.wfAs seq i
  | .nop w => w.wfAs seq i
  | .trap w => w.wfAs seq i
  | .trapret w => w.wfAs seq i
  | .mfsr w => w.wfAs seq i
  | .mtsr w => w.wfAs seq i
  | .icinv w => w.wfAs seq i
  | .brk w => w.wfAs seq i
  | .rgrowWait w => w.wfAs seq i
  | .rgrowTry w => w.wfAs seq i
  | .rshrink w => w.wfAs seq i
  | .rshapeGet w => w.wfAs seq i
  | .rshapeSet w => w.wfAs seq i
  | .gvote w => w.wfAs seq i
  | .gshfl w => w.wfAs seq i
  | .gscan w => w.wfAs seq i
  | .greduce w => w.wfAs seq i
  | .gbcast w => w.wfAs seq i
  | .bar w => w.wfAs seq i
  | .launch w => w.wfAs seq i
  | .qappend w => w.wfAs seq i
  | .qtail w => w.wfAs seq i
  | .evget w => w.wfAs seq i
  | .evwait w => w.wfAs seq i
  | .msem w => w.wfAs seq i
  | .semup w => w.wfAs seq i
  | .semwait w => w.wfAs seq i
  | .semread w => w.wfAs seq i
  | .slkset w => w.wfAs seq i
  | .seqwait w => w.wfAs seq i
  | .resultReply _ _ => true
  | .dlyExpiry _ _ => true
  | .slotDrowsy _ _ reg => reg < 256
  | .trapEntry _ => true
  | .rangeLockRetry _ _ => true
  | .handleBusyTimeout _ _ => true
  | .commandQueueAccept _ _ => true
  | .commandBegin core _ => core < 2592
  | .commandComplete core _ => core < 2592
  | .granuleClearDone core _ => core < 2592
  | .allocationDeadlock core => core < 2592
  | .registerDeadlock core => core < 2592
  | .evwaitTimeout seq => seq < 54
  | .gangRetire _ _ => true
  | .teamDone _ => true
  | .debuggerKill _ _ _ => true
  | .contextSave _ => true
  | .teamRestore _ => true
  | .parkedEnsembleSave _ => true
  | .parkedEnsembleRestore _ => true
  | .debugGo ctx _ => ctx < 1024
  | .slackExhausted _ => true
  | .packetService _ => true
  | .coalesceWindowClose core _ => core < 2592
  | .promotionArrival _ die => die < 9
  | .remoteWriteAck _ => true
  | .sectorPoison _ => true
  | .correctableError chip => chip < 12
  | .eventPost _ => true
  | .queueDoorbell q _ => q < 4096
  | .doorbellDropClear q => q < 4096
  | .queueSwitch => true
  | .launchDeal die _ => die < 9
  | .waitPacketPoll q => q < 4096
  | .signalPacket q => q < 4096
  | .dieDistributorDeal die cluster => die < 9 ∧ cluster < 54
  | .ensembleStart seq _ => seq < 54
  | .stealRequest thief victim => thief < 54 ∧ victim < 54
  | .stealReply victim => victim < 54
  | .deadlineMiss _ => true
  | .forcedReset ctx => ctx < 1024
  | .contextEnd ctx => ctx < 1024
  | .moverCopy mover slot => mover < 64 ∧ slot < 16
  | .moverRingAllreduce mover slot => mover < 64 ∧ slot < 16
  | .moverTreeAllreduce mover slot => mover < 64 ∧ slot < 16
  | .ethernetSend mover slot => mover < 64 ∧ slot < 16
  | .ethernetReceive mover slot => mover < 64 ∧ slot < 16
  | .ethernetFrameArrival port _ _ _ => port < 4
  | .utiumFlitReceive port _ _ => port < 48
  | .hostLinkAccess link _ => link < 2
  | .switchMatrixCommand _ => true
  | .switchCommandApplied => true
  | .fabricFaultServed _ _ => true
  | .faultServed ctx _ => ctx < 1024
  | .faultQueueHeadWrite ctx _ => ctx < 1024
  | .tlbInvalidateControl ctx _ => ctx < 1024
  | .icacheInvalidateGo => true
  | .wayMaskWrite die _ => die < 9
  | .routingRegisterWrite i j _ => i ≤ 22 ∧ j ≤ 22
  | .routeChangeEffect i j => i ≤ 22 ∧ j ≤ 22
  | .pairFaultCountClear i j => i ≤ 22 ∧ j ≤ 22
  | .syndromeClear port => port ≤ 22
  | .sequencerStart seq => seq < 54
  | .registerWrite _ width _ => (width = 32 ∨ width = 64)
  | .railLoss i j plane => i ≤ 22 ∧ j ≤ 22 ∧ plane < 12
  | .railRelock i j rail => i ≤ 22 ∧ j ≤ 22 ∧ rail < 2
  | .pairLossTimeout i j => i ≤ 22 ∧ j ≤ 22
  | .laneLossOfLock lane => laneWf lane
  | .retrainAttemptEnd lane _ => laneWf lane
  | .heaterRollover lane => laneWf lane
  | .containedError die _ _ => die < 9
  | .dieFence die => die < 9
  | .uncontainedError port _ _ => port ≤ 22
  | .link0Down => true
  | .attestationRequest _ => true
  | .powerOn => true
  | .fundamentalReset => true
  | .rst => true
  | .groundWatchdogReset => true
  | .start _ _ => true
  | .startStepTimeout => true
  | .startFailureReset => true
  | .studioRestart => true
  | .gangAged _ _ => true
  | .cacheEviction die _ => die < 9
  | .invalidationReachesCore _ core => core < 2592
  | .powerRemoval => true
  | .hostLinkTrained link => link < 2

end Sys2Proof
end

