-- ==== Sys2Proof/Machine/State.lean ====
section
/-! DEFINITION. The state of a BDX-2304 module as plain data, the reasons for which a step may stop, and the state right after power-on reset. -/

namespace Sys2Proof.Machine

/-- Reasons for which the machine stops with a fault. -/
inductive Fault where
  /-- `exec` was asked to run an instruction form while no unit issues one (field `cur`). Raised by `exec` alone; no step reaches it. Safe: the machine stops where the hardware has nothing to do. -/
  | noIssuer
  deriving DecidableEq, Repr, Inhabited

/-- Reasons for which the model gives a step no meaning. -/
inductive Refusal where
  /-- The instruction of this mnemonic has no meaning yet. Raised by an arm of `exec`. Safe: nothing can be proved about it. -/
  | notModelled (mnemonic : String)
  deriving DecidableEq, Repr, Inhabited

/-! ## Registers of a gang and of a sequencer -/

/-- Shape tag of a vector register (R144). -/
inductive Tag where
  | uniform
  | affine
  | general
  deriving DecidableEq, Repr, Inhabited

/-- A vector register (R141, R144, R154, R155). -/
structure VReg where
  lanes : Lanes
  /-- the tag of the write that prevails (R88) -/
  tag : Tag
  poison : Mask
  /-- lanes with a variable-latency write not yet covered (R87) -/
  pend : Mask
  drowsy : Bool
  /-- tick of the last read or write (R154) -/
  used : Nat
  deriving DecidableEq, Repr, Inhabited

/-- A translation register (R160). -/
structure Trans where
  lim : W32
  cp : BitVec 2
  cc : BitVec 4
  vis : Bool
  xwr : BitVec 3
  v : Bool
  pa : BitVec 52
  va : BitVec 56
  deriving DecidableEq, Repr, Inhabited

/-- What a gang holds for each quad (R38, R53, R54, R161, R220). -/
structure Quad where
  pc : BitVec 56
  csp : W64
  /-- lowest quad of the quad's sub-gang -/
  sub : BitVec 3
  /-- waiting at a `regang` -/
  wait : Bool
  rejoin : W32
  /-- trapped quad (R434) -/
  trapped : Bool
  /-- issues of the gang since the quad's sub-gang was last chosen (R54) -/
  skipped : Nat
  deriving DecidableEq, Repr, Inhabited

/-- A write of a vector register that a reply will make. -/
structure VecWrite where
  reg : Nat
  mask : Mask
  data : Lanes
  poison : Mask
  deriving DecidableEq, Repr, Inhabited

/-- A write of a scalar register that a reply will make: bit 0 of `halves` for the low half, bit 1 for the high half. -/
structure ScaWrite where
  reg : BitVec 6
  halves : BitVec 2
  value : W64
  poison : BitVec 2
  deriving DecidableEq, Repr, Inhabited

/-- What an outstanding variable-latency result still waits for. -/
inductive ResultWait where
  /-- nothing: its reply may arrive -/
  | none
  /-- the completion of a command (R338) -/
  | command (id : Nat)
  /-- the performance of its remote operations (R291) -/
  | remote
  deriving DecidableEq, Repr, Inhabited

/-- An outstanding variable-latency result (R51, R86, R303): the values are bound, and the reply has not yet written them. -/
structure Result where
  id : Nat
  vec : List VecWrite
  sca : List ScaWrite
  cond : List (BitVec 3 × Bool)
  trans : List (BitVec 3 × Trans)
  flags : BitVec 5
  waits : ResultWait
  deriving DecidableEq, Repr, Inhabited

/-- The registers that a gang and a sequencer both hold (R141, R143). -/
structure Regs where
  s : Vector W64 64
  /-- poison tags of the low halves (R155) -/
  poisonLo : BitVec 64
  /-- poison tags of the high halves -/
  poisonHi : BitVec 64
  k : BitVec 8
  fpflags : BitVec 5
  fpctl : BitVec 3
  trapcause : W32
  trapdetail : W64
  trappc : W64
  pending : List Result
  deriving DecidableEq, Repr, Inhabited

/-- A trap or a fault that a step raises (R432). -/
inductive Trap where
  /-- one with a code, and the detail of R433 -/
  | coded (code : BitVec 8) (detail : W64)
  /-- page fault; `acc` bit 0 read, bit 1 write, bit 2 execute (R367) -/
  | page (va : BitVec 56) (acc : BitVec 3)
  /-- circuit-unlit -/
  | circuit (va : BitVec 56) (acc : BitVec 3)
  deriving DecidableEq, Repr, Inhabited

/-- A trap held until the earlier results have returned (R90, R434). -/
structure HeldTrap where
  trap : Trap
  quads : QuadMask
  pc : BitVec 56
  /-- the trap is a `brk` issued outside a handler (R445) -/
  brk : Bool
  deriving DecidableEq, Repr, Inhabited

/-- Why a gang or a sequencer waits at the issue checks of an instruction, which has no effect yet (R90). -/
inductive Wait where
  /-- the 65th outstanding result (R304) -/
  | results
  /-- an entry of a unit's queue (R322) -/
  | queue
  /-- an entry of the range-lock table (R285), or of its `rlock` share (R405) -/
  | locks
  /-- a handle busy on the other unit (R323), or the busy handle of a `tgive` (R402) -/
  | handle (op : BitVec 8) (h : BitVec 5)
  /-- a range of the other unit (R323) -/
  | range (op : BitVec 8)
  /-- a promotion of its own (R315) or of a `.remote` acquire -/
  | promotion
  /-- acknowledgements of remote writes (R293, R302) -/
  | remote
  /-- commands that use a translation to be discarded (R406) -/
  | commands
  /-- a held range, in a team without a handler (R437) -/
  | lockRetry
  deriving DecidableEq, Repr, Inhabited

/-- State of a handle; busy is owned with an accepted command that names it (R323, R394). -/
inductive HandleSt where
  | unallocated
  | owned
  | given
  | released
  deriving DecidableEq, Repr, Inhabited

/-- A palette entry (R392). -/
structure Handle where
  st : HandleSt
  own : BitVec 5
  dest : BitVec 5
  ty : Ty
  nc : Nat
  /-- the tile held, none while unallocated, released or waiting -/
  tile : Option Nat
  deriving DecidableEq, Repr, Inhabited

/-- Why a gang or a sequencer is blocked inside an instruction (R50). -/
inductive Block where
  | rgrow (n : Nat)
  /-- a `talloc.wait` of a handle with its type and columns, and the handle as it was before (R396, R399) -/
  | talloc (h : BitVec 5) (ty : Ty) (cols : Nat) (before : Handle)
  | semPair (i j : Nat)
  | semPark (key : Nat)
  | bar (b : Nat)
  | seqwait (key : Nat) (n : W32) (sc : BitVec 3)
  | mwait (h : BitVec 5)
  | mwaitAll
  | evwait (until_ : Option Nat)
  | icinv (id : Nat)
  /-- a remote write or atomic that is a release of domain or system scope, until it is performed (R302) -/
  | remoteRelease
  deriving DecidableEq, Repr, Inhabited

/-- The states of R50, with the waits at issue checks and the stops of R440 and R258. The trapped state is `ready` with a handler. -/
inductive Status where
  | ready
  | parked
  /-- `seq` orders the waiters of one arbiter by issue -/
  | blocked (why : Block) (order : Nat)
  | waiting (why : Wait)
  /-- stopped at a page or circuit-unlit fault, raised in an epoch, that no save has taken yet (R430, R440) -/
  | faulted (t : Trap) (epoch : W64)
  /-- held at its instruction until record `rec` is served: of the fabric queue when `fabric` (R258) -/
  | held (fabric : Bool) (rec : Nat)
  /-- held for the debugger (R445) -/
  | debug
  /-- stopped by a trap that ends its context, which has not ended yet (R437, R447) -/
  | ended
  | retired
  deriving DecidableEq, Repr, Inhabited

/-- A gang (R38, R141). -/
structure Gang where
  alloc : Nat
  vregs : List VReg
  preds : Vector Mask 8
  trans : Vector Trans 8
  quads : Vector Quad 8
  live : Mask
  srctr : Lanes
  regs : Regs
  /-- releases of register slots that wait for replies: slots, and the results that are due (R151) -/
  releasing : List (Nat × List Nat)
  displaced : W128
  /-- quads whose next issue takes the displaced word (R229) -/
  emul : QuadMask
  status : Status
  /-- quads and address of the blocked instruction, for backing it out (R440) -/
  blockPc : BitVec 56
  blockQuads : QuadMask
  /-- in its handler, with the code of the trap served (R434, R436) -/
  handler : Option (BitVec 8)
  heldTrap : Option HeldTrap
  /-- scheduler of the core (R46, R49) -/
  sched : BitVec 2
  aged : Bool
  readySince : Nat
  /-- place of the gang's last issue in the order of all issues (R49) -/
  lastIssue : Nat
  /-- ticks that the current issue has waited for the other unit, and the tick since which it waits so now (R323) -/
  otherWait : Nat
  otherSince : Option Nat
  /-- tick at which a delay of `DLY` ends, while it runs (R96) -/
  delay : Option Nat
  /-- the last issued instruction had `YLD` (R49, R94) -/
  yielded : Bool
  /-- the blocked instruction had `SW`, which acts when it completes (R50, R87) -/
  swLater : Bool
  deriving DecidableEq, Repr, Inhabited

/-! ## Teams and ensembles -/

/-- One 2 KiB granule in row-major order, and its poison bit (R254). -/
structure Granule where
  data : BitVec 16384
  poison : Bool
  deriving DecidableEq, Repr, Inhabited

/-- The granules behind an allocated handle (R319), under a name of the model's own so that a freed handle's commands still find them. -/
structure Tile where
  id : Nat
  ty : Ty
  cols : Nat
  granules : List Granule
  /-- freed: cleared once no command names it (R404) -/
  freed : Bool
  deriving DecidableEq, Repr, Inhabited

/-- A stash slot's mapping (R316): window offset, global address, length. -/
structure StashSlot where
  w : Nat
  va : BitVec 64
  n : Nat
  deriving DecidableEq, Repr, Inhabited

/-- State of a stash sector of the window (R253): filled, the bytes written since the last write-back, and poison that those writes brought. -/
structure StashSector where
  sector : Nat
  filled : Bool
  mask : BitVec 128
  carried : Bool
  deriving DecidableEq, Repr, Inhabited

/-- A barrier of a team (R408, R425). -/
structure Barrier where
  arrivals : Nat
  count : Nat
  /-- the count came from m = 0 -/
  fromGangs : Bool
  phase : Bool
  deriving DecidableEq, Repr, Inhabited

/-- Where a team is (R60, R440, R445, R423). -/
inductive Residence where
  | resident
  /-- a save into a slot has begun: for a fault, for the debugger or for parking -/
  | saving (slot : Nat) (debug : Bool)
  | saved (slot : Nat) (debug parked : Bool)
  | exited
  | done
  deriving DecidableEq, Repr, Inhabited

/-- A team (R38, R41, R251, R257, R392). -/
structure Team where
  tid : Nat
  launch : Nat
  ensemble : Nat
  rank : Nat
  x : W32
  y : W32
  z : W32
  stage : W32
  ctx : Nat
  core : Nat
  /-- core-local slot, 0 to 3 (R391) -/
  slot : Nat
  deadline : W64
  slack : BitVec 12
  srseed : W64
  trapvec : W64
  winSize : Nat
  window : List Host.Cell
  winPoison : List Nat
  stash : Vector (Option StashSlot) 4
  sectors : List StashSector
  reserve : Nat
  handles : Vector Handle 32
  tiles : List Tile
  barriers : Vector Barrier 16
  gangs : List Gang
  residence : Residence
  /-- records of this save not yet served: fabric queue or not, index (R442) -/
  records : List (Bool × Nat)
  /-- served with `FAIL`: a circuit-unlit fault is raised as a protection fault (R489) -/
  circuitFailed : Bool
  /-- a remote write of the team was lost: peer and address (R293) -/
  lost : Option (Nat × Nat)
  /-- the team ended by a domain-write-lost fault (R439) -/
  endedLost : Bool
  /-- the first instruction's acquire is still to come (R288) -/
  fresh : Bool
  /-- place in the order of the teams whose last record has been served (R442) -/
  claimed : Nat
  /-- how gangs that a `brk` stopped resume, after a `GO` (R444, R445) -/
  resume : Option (BitVec 2)
  deriving DecidableEq, Repr, Inhabited

/-- A waiter of a semaphore, in the order of arrival (R420): a gang of a team, or a sequencer. -/
structure SemWaiter where
  who : Issuer
  n : Nat
  /-- scope of the acquire at its wake (R421) -/
  sc : BitVec 3
  deriving DecidableEq, Repr, Inhabited

/-- A pair counter of an ensemble with its waiters (R419, R420). -/
structure PairCounter where
  i : Nat
  j : Nat
  value : Nat
  waiters : List SemWaiter
  deriving DecidableEq, Repr, Inhabited

/-- A started ensemble (R42, R45). -/
structure Ensemble where
  eid : Nat
  launch : Nat
  index : Nat
  /-- sequencer that holds it, 6 × die + cluster -/
  cluster : Nat
  teams : List Nat
  counters : List PairCounter
  /-- saved while parked, and whether its wait has been satisfied (R423) -/
  parkedSaved : Bool
  parkedReady : Bool
  /-- tick at which its pre-emption began, while it drains (R57 to R59) -/
  drain : Option Nat
  deriving DecidableEq, Repr, Inhabited

/-! ## Commands, tables and caches of a core -/

/-- What a command does (R322). -/
inductive CmdKind where
  | mma | mmat | mperm | mrsum | tcvt | tzero
  | tldSp | tldGl | tldV | tstSp | tstGl | tstV
  | mcopy
  deriving DecidableEq, Repr, Inhabited

/-- A leaf translation (R384, R386) of a page of 2^`bits` bytes. -/
structure Leaf where
  bits : Nat
  base : Nat
  frame : Nat
  cp : BitVec 2
  cc : BitVec 4
  vis : Bool
  xwr : BitVec 3
  deriving DecidableEq, Repr, Inhabited

/-- A TLB entry (R386). -/
structure TlbEntry where
  ctx : Nat
  leaf : Leaf
  deriving DecidableEq, Repr, Inhabited

/-- A command range: scratchpad window of team `win`, or global (R324). -/
structure CmdRange where
  win : Option Nat
  base : Nat
  len : Nat
  writes : Bool
  deriving DecidableEq, Repr, Inhabited

/-- What a packet carries from the request that it belongs to (R91 to R93, R412, R413): its slack, whether its exhaustion posts an event, the issuing cluster and core, the instruction's address, and the source port. -/
structure Stamp where
  slack : Nat
  xs : Bool
  cluster : Nat
  core : Option Nat
  pc : BitVec 56
  port : Nat
  deriving DecidableEq, Repr, Inhabited

/-- An accepted command with everything it read at issue (R324). -/
structure Command where
  id : Nat
  kind : CmdKind
  team : Nat
  gang : Nat
  w : Fields
  /-- tile of D and of A, where they are handles -/
  dTile : Option Nat
  aTile : Option Nat
  /-- the handles' numbers, for `mwait` and the waits of R323 -/
  dHandle : Option (BitVec 5)
  aHandle : Option (BitVec 5)
  aOff : Nat
  bOff : Nat
  /-- team whose window a tile store or load names -/
  peer : Nat
  addr : Nat
  pitch : Nat
  /-- the register block read at issue, in register order -/
  block : List Lanes
  rm : BitVec 3
  seed : W64
  teamNo : W64
  result : Option Nat
  ranges : List CmdRange
  leaves : List Leaf
  /-- the copy that a follow-on waits for (R342) -/
  after : Option Nat
  /-- stamp of the requests that it makes (R92) -/
  stamp : Stamp
  begun : Bool
  beginTick : Nat
  deriving DecidableEq, Repr, Inhabited

/-- A range-lock entry (R391). -/
structure Lock where
  entry : Nat
  cmd : Option Nat
  wo : Bool
  sp : Bool
  base : Nat
  len : Nat
  gang : Nat
  team : Nat
  ctx : Nat
  deriving DecidableEq, Repr, Inhabited

/-- An L1 line of 128 bytes (R249); `key` is the sector's number in the memory's key space. -/
structure L1Line where
  key : Nat
  data : BitVec 1024
  deriving DecidableEq, Repr, Inhabited

/-- A miss-status entry (R250, R390): one fill of an L1 line with the loads that share it. -/
structure Miss where
  key : Nat
  opened : Nat
  /-- later loads may join -/
  open_ : Bool
  /-- the load that missed first and those that joined it: the unit, and the number of its step -/
  loads : List (Option Issuer × Nat)
  data : BitVec 1024
  poison : Bool
  deriving DecidableEq, Repr, Inhabited

/-- A source that the operand collector read: the register, its width in registers, and the values (R95). -/
structure HeldSource where
  reg : Nat
  count : Nat
  values : List Lanes
  deriving DecidableEq, Repr, Inhabited

/-- The hold store of a scheduler: the gang of its last issue, and the vector sources read there (R95). -/
structure Hold where
  team : Nat
  gang : Nat
  sources : List HeldSource
  deriving DecidableEq, Repr, Inhabited

/-- A core (R29, R381). A core not listed is as at reset. -/
structure Core where
  idx : Nat
  l1 : List L1Line
  icache : List (Nat × W128)
  tlb : List TlbEntry
  locks : List Lock
  misses : List Miss
  array : List Command
  copy : List Command
  /-- releases of granules being cleared: name and count (R254, R393) -/
  clearing : List (Nat × Nat)
  hold : Vector (Option Hold) 4
  perfSel : W32
  perf : Vector W64 4
  deriving DecidableEq, Repr, Inhabited

/-! ## Sequencers, dies and memory -/

/-- An unstarted ensemble that a sequencer or a die range holds (R344, R357). -/
structure HeldEnsemble where
  launch : Nat
  index : Nat
  hold : Bool
  /-- held because of reissue to the spare die (R47) -/
  reissued : Bool
  deriving DecidableEq, Repr, Inhabited

/-- A steal request with the thief's free resources of each core: team places, gang slots, register slots, scratchpad, tensor granules (R369). -/
structure Steal where
  thief : Nat
  free : List (Nat × Nat × Nat × Nat × Nat)
  deriving DecidableEq, Repr, Inhabited

/-- A cluster's sequencer (R44, R143, R365, R506). One not listed is as at reset. -/
structure Seq where
  idx : Nat
  regs : Regs
  pc : BitVec 56
  csp : W64
  slack : BitVec 12
  trapvec : W64
  run : Bool
  /-- stopped by a trap that nothing serves: the unstarted ensembles that it holds wait for its restart (R454) -/
  halted : Bool
  sctx : Nat
  spc : BitVec 56
  status : Status
  blockPc : BitVec 56
  handler : Option (BitVec 8)
  heldTrap : Option HeldTrap
  emul : Bool
  displaced : W128
  holding : List HeldEnsemble
  steals : List Steal
  /-- a steal request of this sequencer is not yet answered -/
  asked : Bool
  events : List W128
  drops : Nat
  tlb : List TlbEntry
  /-- a remote write of the sequencer was lost: peer and address (R293) -/
  lost : Option (Nat × Nat)
  deriving DecidableEq, Repr, Inhabited

/-- A run of ensembles dealt to a die (R344, R359). -/
structure DieRange where
  launch : Nat
  next : Nat
  stop : Nat
  hold : Bool
  reissued : Bool
  deriving DecidableEq, Repr, Inhabited

/-- A sector of a die cache (R243). -/
structure Sector where
  key : Nat
  data : BitVec 1024
  /-- bytes written since the last write-back -/
  dirty : BitVec 128
  /-- bytes that the sector holds: all when filled, else those written -/
  have_ : BitVec 128
  gen : BitVec 16
  /-- made stale by the generation's wrap (R244) -/
  wrapped : Bool
  /-- poison that a fill brought -/
  poison : Bool
  /-- poison that the die's own writes brought (R261) -/
  carried : Bool
  shared : Bool
  deriving DecidableEq, Repr, Inhabited

/-- A compute die (R14, R28, R244, R246). -/
structure Die where
  inService : Bool
  spare : Bool
  fenced : Bool
  gen : BitVec 16
  way : BitVec 16
  cache : List Sector
  scratch : List Host.Cell
  scratchPoison : List Nat
  ranges : List DieRange
  /-- a contained error latched and not yet fenced: class and unit (R448) -/
  error : Option (BitVec 8 × BitVec 16)
  deriving DecidableEq, Repr, Inhabited

/-- A memory chiplet (R25, R242, R386). -/
structure Chip where
  tlb : List TlbEntry
  cecnt : W32
  deriving DecidableEq, Repr, Inhabited

/-- An atomic operation with all that it takes at issue (R309, R311). -/
structure AtomicOp where
  fn : Nat
  ty : Ty
  c : W64
  /-- new value of `.cas` -/
  new : W64
  /-- rounding mode code of `.readx` and `.takex` -/
  rm : BitVec 3
  deriving DecidableEq, Repr, Inhabited

/-- A remote write or atomic that is not yet performed at its peer (R291, R292). -/
structure RemoteOp where
  id : Nat
  who : Issuer
  peer : Nat
  /-- number of the sector in the memory's key space, and the bytes of it -/
  sector : Nat
  mask : BitVec 128
  data : BitVec 1024
  /-- the write brings poison -/
  brings : Bool
  atomic : Option AtomicOp
  /-- result and lane that receive an atomic's old value -/
  dest : Option (Nat × Nat)
  /-- virtual address, for a poison event (R365) -/
  va : Nat
  /-- a release of domain or system scope, which holds its unit's later instructions (R302) -/
  holds : Bool
  /-- scope of the acquire effect that its unit makes when the operation is performed (R268, R270) -/
  acq : Option (BitVec 3)
  deriving DecidableEq, Repr, Inhabited

/-- A lost remote write that happens before a release (R271, R293): its peer and address, the release's scope, and the team, ensemble and die of the releasing unit. -/
structure LostWrite where
  peer : Nat
  addr : Nat
  sc : BitVec 3
  team : Option Nat
  ensemble : Option Nat
  die : Nat
  deriving DecidableEq, Repr, Inhabited

/-- A promotion on its way (R282): who waits, the stamp of its instruction (R412), and the dies that it has yet to reach. -/
structure Promotion where
  id : Nat
  who : Issuer
  stamp : Stamp
  dies : List Nat
  deriving DecidableEq, Repr, Inhabited

/-- A waiter of a parking semaphore (R420): the word's key, the gang, and the count. -/
structure ParkWaiter where
  key : Nat
  who : Issuer
  n : Nat
  sc : BitVec 3
  /-- the ensemble was saved while parked (R423) -/
  saved : Bool
  deriving DecidableEq, Repr, Inhabited

/-- An instruction-cache invalidation on its way (R232, R485): the unit that waits, none for the host's. -/
structure Inval where
  id : Nat
  who : Option Issuer
  cores : List Nat
  deriving DecidableEq, Repr, Inhabited

/-- A packet waiting in a queue (R410 to R413): its queue, slack and tick on entry, whether its exhaustion was counted, the queues that it and its reply have still to pass, and the tick at which it joined the zero class. -/
structure Packet where
  id : Nat
  queue : Nat
  slack : Nat
  entry : Nat
  counted : Bool
  stamp : Stamp
  path : List Nat
  zeroSince : Option Nat
  /-- the outstanding result that waits for its reply (R303) -/
  reply : Option (Issuer × Nat)
  /-- while a relay carries it: the ordered pair, and its place in the order in which the pair's sender sent it (R19, R21) -/
  relayed : Option (Nat × Nat × Nat)
  /-- the module to which the request goes, none for this one (R491) -/
  away : Option Nat
  deriving DecidableEq, Repr, Inhabited

/-- An event record posted and not yet arrived at its cluster's queue (R366). -/
structure Post where
  id : Nat
  cluster : Nat
  producer : Nat
  record : W128
  deriving DecidableEq, Repr, Inhabited

/-! ## Launches, queues and contexts -/

/-- The fields of a launch packet (R349). -/
structure PacketFields where
  flags : Byte
  res : BitVec 16
  grace : W32
  deadline : W64
  kernel : W64
  record : W64
  gx : W32
  gy : W32
  gz : W32
  s : Byte
  w : Byte
  g : Byte
  regs : Byte
  scr : BitVec 16
  ten : BitVec 16
  zero : Bool
  deriving DecidableEq, Repr, Inhabited

/-- A launch that a queue has accepted, until its record is written (R349 to R363). -/
structure Launch where
  key : Nat
  lid : W64
  ctx : Nat
  queue : Nat
  index : W32
  /-- virtual address of its packet -/
  va : Nat
  p : PacketFields
  deadline : W64
  nextEns : Nat
  /-- ensembles whose teams are all done, by index -/
  doneEns : List Nat
  firstStart : Option Nat
  restamped : Bool
  dropped : Bool
  lostWrite : Bool
  /-- cluster that issued the `launch`, none for a host-fed queue (R364) -/
  issuer : Option Nat
  dealt : Bool
  /-- accepted, and not yet come to the head of its queue, where its packet is checked (R350) -/
  early : Bool
  /-- ensembles that a fenced die lost and that are still to be dealt again, each with the die in service that was the spare, if there was one (R451) -/
  lost : List (Nat × Option Nat)
  deriving DecidableEq, Repr, Inhabited

/-- A queue control register (R346), with the count of launch packets accepted (R349) and an `ERR` that its descriptor cannot take (R505). -/
structure QueueReg where
  q : Nat
  desc : W64
  drop : BitVec 16
  qctx : BitVec 10
  en : Bool
  accepted : Nat
  heldErr : W32
  /-- clusters that issued the device-side packets still in the ring, by packet index (R364) -/
  issuers : List (W32 × Nat)
  /-- stopped, and no doorbell has yet found `ERR` cleared (R352) -/
  stopped : Bool
  /-- packets behind the head whose launches are over (R362, R363) -/
  skipped : List W32
  /-- a read of `HEAD` is held until the switch-out has written it (R358) -/
  headRead : Bool
  deriving DecidableEq, Repr, Inhabited

/-- A hardware queue slot's queue (R344, R345). -/
structure QueueSlot where
  q : Nat
  base : W64
  logn : Nat
  cls : Byte
  head : W32
  tail : W32
  latch : W32
  lv : Bool
  nextens : W64
  err : W32
  /-- a switch-out of the queue has begun (R357) -/
  leaving : Bool
  deriving DecidableEq, Repr, Inhabited

/-- A page-fault or fabric record that its reader has not served (R367). -/
structure FaultRecord where
  idx : Nat
  team : Nat
  gang : Nat
  slot : Nat
  /-- the epoch in which the fault was raised (R430) -/
  epoch : W64
  deriving DecidableEq, Repr, Inhabited

/-- A record that waits for the ring, with the fault record to register when it is written (R367, R485). -/
structure WaitingRecord where
  bytes : List Byte
  team : Nat
  gang : Nat
  slot : Nat
  /-- the epoch in which the fault was raised (R430) -/
  epoch : W64
  deriving DecidableEq, Repr, Inhabited

/-- A context's block (R484, R485, R382, R256, R428, R444). -/
structure Ctx where
  id : Nat
  root : W64
  frame : W64
  timer : W64
  dbg : Bool
  dbgMode : BitVec 2
  dbgSlot : Byte
  held : BitVec 256
  tvec : BitVec 56
  invAddr : W64
  /-- the running invalidation: first address and end -/
  inv : Option (Nat × Nat)
  /-- control writes held until the running invalidation completes (R485) -/
  invs : List W64
  fqBase : W64
  fqHead : W32
  fqLen : BitVec 5
  fqTail : W32
  slots : List Nat
  outstanding : List FaultRecord
  waiting : List WaitingRecord
  /-- notices dropped because the ring was full (R367) -/
  dropped : Nat
  /-- a deadline or an error ends the context (R447) -/
  ending : Bool
  /-- the context's host interrupt has been raised (R445) -/
  interrupt : Bool
  deriving DecidableEq, Repr, Inhabited

/-- A router pair register (R389). -/
structure Pair where
  i : Nat
  j : Nat
  fcnt : Byte
  rail0 : Bool
  rail1 : Bool
  rlyen : Bool
  relay : BitVec 5
  /-- a written route that has not taken effect (R22) -/
  next : Option (Bool × BitVec 5)
  /-- tick at which the second rail was lost with no relay (R23) -/
  lostAt : Option Nat
  deriving DecidableEq, Repr, Inhabited

/-- A circuit-table entry (R388). -/
structure Circuit where
  ports : Byte
  lit : Bool
  peer : BitVec 9
  deriving DecidableEq, Repr, Inhabited

/-- A switch-matrix command (R488). -/
structure SwitchCmd where
  asg : BitVec 384
  why : Byte
  st : BitVec 2
  deriving DecidableEq, Repr, Inhabited

/-- A syndrome register (R453). -/
structure Syndrome where
  v : Bool
  fatal : Bool
  cls : Byte
  unit : BitVec 16
  count : BitVec 16
  deriving DecidableEq, Repr, Inhabited

/-- A reservation of whole clusters for a context (R361). -/
structure Reservation where
  r : Nat
  ctx : Nat
  count : Nat
  clusters : List Nat
  deriving DecidableEq, Repr, Inhabited

/-- A mover-chain registration (R506). -/
structure Registration where
  mover : Nat
  slot : Nat
  rv : Bool
  rctx : BitVec 10
  cba : BitVec 56
  /-- the chain has been rung and not yet found idle (R377) -/
  rung : Bool
  /-- address of the chain's last descriptor done, 0 before the first (R372) -/
  last : Nat
  /-- the fabric record that the chain waits for, and whether one was served with `FAIL` (R467, R489) -/
  unlit : Option Nat
  failed : Bool
  deriving DecidableEq, Repr, Inhabited

/-- An Ethernet port (R493). -/
structure EthPort where
  received : List (List Byte)
  sent : List (List Byte)
  dropped : Nat
  deriving DecidableEq, Repr, Inhabited

/-- A lane under retraining with its failures in a row (R491). -/
structure Retrain where
  lane : LaneName
  failures : Nat
  deriving DecidableEq, Repr, Inhabited

/-- The topology table (R487). -/
structure Topology where
  mn : BitVec 9
  /-- peer module at the far end of each fibre pair -/
  far : List (Option Nat)
  /-- allowed assignments -/
  allowed : List (BitVec 384)
  deriving DecidableEq, Repr, Inhabited

/-- The provisioning record's content that the start uses (R499). -/
structure Provision where
  contexts : List Nat
  reservations : List Reservation
  peers : List (Nat × BitVec 9)
  deriving DecidableEq, Repr, Inhabited

/-- Firmware images and what their bodies hold (R499). -/
structure Flash where
  ground : List Byte
  studio : List Byte
  topology : List Byte
  provisioning : List Byte
  table : Topology
  provision : Provision
  /-- fused minimum `SVN` of each kind -/
  minSvn : List Nat
  deriving DecidableEq, Repr, Inhabited

/-- Start control and status (R495), with what a start keeps of itself. -/
structure Start where
  mode : BitVec 2
  step : Byte
  gf : BitVec 4
  rf : BitVec 4
  safe : Bool
  ready : Bool
  kind : Bool
  phase : Nat
  /-- the last start failed, and the reset that follows has not come (R498) -/
  failed : Bool
  /-- ground-image digest of the saved set, none when no set is saved (R496, R497) -/
  saved : Option (BitVec 512)
  /-- the last start completed, or failed at step 6 or later (R497) -/
  lastGood : Bool
  deriving DecidableEq, Repr, Inhabited

/-- One decided turn: an issue of a unit, a step that no word encodes, or the drop of a cached copy that needs no write-back (log 11). -/
inductive Turn where
  | issue (u : Issuer)
  | event (i : Instr)
  | dropLine (core key : Nat)
  | dropWord (core key : Nat)
  | dropTlb (core n : Nat)
  | dropSeqTlb (seq n : Nat)
  | dropChipTlb (chip n : Nat)
  deriving DecidableEq, Repr, Inhabited

/-- The state of the module. -/
structure State where
  teams : List Team
  ensembles : List Ensemble
  launches : List Launch
  cores : List Core
  seqs : List Seq
  dies : Vector Die 9
  chips : Vector Chip 12
  mem : List Host.Cell
  memPoison : List Nat
  remote : List RemoteOp
  /-- lost writes that happen before releases already made (R293) -/
  lostWrites : List LostWrite
  promotions : List Promotion
  parkWaiters : List ParkWaiter
  invals : List Inval
  packets : List Packet
  /-- exhaustion counts by router port and unit (R413) -/
  zsc : List (Nat × W32)
  posts : List Post
  /-- the master's 1 GHz count; units read it modulo 2^64 with their slewing (R409) -/
  tick : Nat
  epoch : W64
  circuits : Vector Circuit 16
  pairs : List Pair
  switchCmds : List SwitchCmd
  assignment : BitVec 384
  topology : Option Topology
  syndromes : Vector Syndrome 23
  queues : List QueueReg
  slots : List QueueSlot
  ctxs : List Ctx
  reservations : List Reservation
  registrations : List Registration
  fabricOut : List FaultRecord
  fabricNext : Nat
  fabricRing : List (List Byte)
  /-- records that wait for room in the fabric fault queue (R344, R367) -/
  fabricWaiting : List WaitingRecord
  eth : Vector EthPort 4
  retrains : List Retrain
  deadPorts : List Nat
  link0 : Bool
  link1 : Bool
  /-- the last completion sent to the host: its bytes, and a poison indication for each 64-byte line that they touch, or one for them all (R480) -/
  hostReply : Option (List Byte × List Bool)
  /-- advanced error reports and management interrupts raised (R445, R449, R452) -/
  reports : Nat
  /-- notices to the studio firmware (R20, R260, R449) -/
  studioNotices : Nat
  /-- the last attestation report (R501) -/
  attestation : List Byte
  termWord : W64
  start : Start
  measures : Vector (BitVec 512) 8
  flash : Flash
  icBusy : Bool
  powered : Bool
  /-- an uncontained error has stopped every unit (R452) -/
  stopped : Bool
  -- the model's own fields (log 1, log 2)
  agenda : List Turn
  cur : Option Issuer
  free : Nat
  ids : Nat
  deriving DecidableEq, Repr, Inhabited

/-! ## Reset -/

/-- Registers of a gang at its start and of a sequencer at reset (R141, R143). -/
def Regs.reset : Regs where
  s := Vector.ofFn fun _ => 0#64
  poisonLo := 0#64
  poisonHi := 0#64
  k := 0#8
  fpflags := 0#5
  fpctl := 0#3
  trapcause := 0#32
  trapdetail := 0#64
  trappc := 0#64
  pending := []

/-- A vector register at gang start and at grant (R141, R150). -/
def VReg.reset : VReg where
  lanes := Vector.ofFn fun _ => 0#32
  tag := .uniform
  poison := 0#32
  pend := 0#32
  drowsy := false
  used := 0

/-- A translation register at gang start (R141, R160). -/
def Trans.reset : Trans := ⟨0#32, 0#2, 0#4, false, 0#3, false, 0#52, 0#56⟩

/-- A sequencer at whole-package reset (R143, R506). [log 8: DESIGN CHOICE, unsafe] -/
def Seq.reset (n : Nat) : Seq where
  idx := n
  regs := Regs.reset
  pc := 0#56
  csp := 0#64
  slack := 4095#12
  trapvec := 0#64
  run := false
  halted := false
  sctx := 0
  spc := 0#56
  status := .ready
  blockPc := 0#56
  handler := none
  heldTrap := none
  emul := false
  displaced := 0#128
  holding := []
  steals := []
  asked := false
  events := []
  drops := 0
  tlb := []
  lost := none

/-- A core at reset (R381, R431). [log 8: DESIGN CHOICE, unsafe] -/
def Core.reset (n : Nat) : Core where
  idx := n
  l1 := []
  icache := []
  tlb := []
  locks := []
  misses := []
  array := []
  copy := []
  clearing := []
  hold := Vector.ofFn fun _ => none
  perfSel := 0#32
  perf := Vector.ofFn fun _ => 0#64

/-- A compute die at reset (R14, R241, R244, R246). -/
def Die.reset : Die where
  inService := false
  spare := false
  fenced := false
  gen := 0#16
  way := 0#16
  cache := []
  scratch := []
  scratchPoison := []
  ranges := []
  error := none

/-- A context's block at reset (R256, R382, R428, R444, R484, R485). -/
def Ctx.reset (n : Nat) : Ctx where
  id := n
  root := 0#64
  frame := 0#64
  timer := 100000#32 ++ 1000000#32
  dbg := false
  dbgMode := 0#2
  dbgSlot := 0#8
  held := 0#256
  tvec := 0#56
  invAddr := 0#64
  inv := none
  invs := []
  fqBase := 0#64
  fqHead := 0#32
  fqLen := 0#5
  fqTail := 0#32
  slots := []
  outstanding := []
  waiting := []
  dropped := 0
  ending := false
  interrupt := false

/-- A queue control register at reset (R346). -/
def QueueReg.reset (q : Nat) : QueueReg := ⟨q, 0#64, 0#16, 0#10, false, 0, 0#32, [], false, [], false⟩

/-- A router pair register at reset (R389). -/
def Pair.reset (i j : Nat) : Pair := ⟨i, j, 0#8, true, true, false, 0#5, none, none⟩

/-- The module right after power-on reset, before its first start (R241, R478, R494, R495). The values that the spec does not give are those of logs 1, 2, 7, 8 and 9. [log 8: DESIGN CHOICE, unsafe; 9: DESIGN CHOICE, unsafe] -/
def State.reset : State where
  teams := []
  ensembles := []
  launches := []
  cores := []
  seqs := []
  dies := Vector.ofFn fun _ => Die.reset
  chips := Vector.ofFn fun _ => ⟨[], 0#32⟩
  mem := []
  memPoison := []
  remote := []
  lostWrites := []
  promotions := []
  parkWaiters := []
  invals := []
  packets := []
  zsc := []
  posts := []
  tick := 0
  epoch := 0#64
  circuits := Vector.ofFn fun _ => ⟨0#8, false, 0#9⟩
  pairs := []
  switchCmds := []
  assignment := BitVec.allOnes 384
  topology := none
  syndromes := Vector.ofFn fun _ => ⟨false, false, 0#8, 0#16, 0#16⟩
  queues := []
  slots := []
  ctxs := []
  reservations := []
  registrations := []
  fabricOut := []
  fabricNext := 0
  fabricRing := []
  fabricWaiting := []
  eth := Vector.ofFn fun _ => ⟨[], [], 0⟩
  retrains := []
  deadPorts := []
  link0 := false
  link1 := false
  hostReply := none
  reports := 0
  studioNotices := 0
  attestation := []
  termWord := 0#64
  start := ⟨0#2, 0#8, 0#4, 0#4, false, false, false, 0, false, none, false⟩
  measures := Vector.ofFn fun _ => 0#512
  flash := ⟨[], [], [], [], ⟨0#9, [], []⟩, ⟨[], [], []⟩, []⟩
  icBusy := false
  powered := true
  stopped := false
  agenda := []
  cur := none
  free := 0
  ids := 0

end Sys2Proof.Machine
end

