-- ==== Sys2Proof/Machine/Ops.lean ====
section
/-! DEFINITION. The named operations over the parts of the state: finding and replacing them, register writes, the issue of an instruction, taking a trap and returning from one. -/

namespace Sys2Proof.Machine

open Host (Outcome)

/-! ## Lists as tables -/

/-- Replace every element that the test names. -/
def replaceIf {α : Type} (p : α → Bool) (f : α → α) : List α → List α
  | [] => []
  | x :: xs => (if p x then f x else x) :: replaceIf p f xs

/-- Change the first element that the test names. -/
def updateFirst {α : Type} (p : α → Bool) (f : α → α) : List α → List α
  | [] => []
  | x :: xs => if p x then f x :: xs else x :: updateFirst p f xs

/-- Replace the first element that the test names, or append a new one. -/
def upsert {α : Type} (p : α → Bool) (v : α) : List α → List α
  | [] => [v]
  | x :: xs => if p x then v :: xs else x :: upsert p v xs

/-- Replace element `n`. -/
def setNth {α : Type} (v : α) : List α → Nat → List α
  | [], _ => []
  | _ :: xs, 0 => v :: xs
  | x :: xs, n + 1 => x :: setNth v xs n

/-- Element `n` of a vector, or a default beyond its end. -/
def vget {α : Type} {n : Nat} (v : Vector α n) (i : Nat) (d : α) : α := if h : i < n then v[i] else d

/-- A vector with element `n` replaced; unchanged beyond its end. -/
def vset {α : Type} {n : Nat} (v : Vector α n) (i : Nat) (x : α) : Vector α n := if h : i < n then v.set i x else v

/-- Insert into a strictly rising list of numbers. -/
def insertNat (n : Nat) : List Nat → List Nat
  | [] => [n]
  | x :: xs => if n < x then n :: x :: xs else if n = x then x :: xs else x :: insertNat n xs

/-! ## Parts of the state -/

/-- The team of a name. -/
def State.team? (s : State) (t : Nat) : Option Team := s.teams.find? fun x => x.tid = t
/-- Apply a change to a team. -/
def State.modTeam (s : State) (t : Nat) (f : Team → Team) : State :=
  { s with teams := updateFirst (fun x => x.tid = t) f s.teams }
/-- Gang `g` of a team. -/
def State.gang? (s : State) (t g : Nat) : Option Gang := (s.team? t).bind fun x => x.gangs[g]?
/-- A team with one gang replaced. -/
def Team.setGang (x : Team) (g : Nat) (v : Gang) : Team := { x with gangs := setNth v x.gangs g }
/-- Replace a gang. -/
def State.setGang (s : State) (t g : Nat) (v : Gang) : State := s.modTeam t fun x => x.setGang g v
/-- Apply a change to a gang. -/
def State.modGang (s : State) (t g : Nat) (f : Gang → Gang) : State :=
  s.modTeam t fun x =>
    match x.gangs[g]? with
    | some v => x.setGang g (f v)
    | none => x
/-- A sequencer; one not listed is at reset. -/
def State.seq (s : State) (n : Nat) : Seq := (s.seqs.find? fun x => x.idx = n).getD (Seq.reset n)
/-- Replace a sequencer. -/
def State.setSeq (s : State) (v : Seq) : State := { s with seqs := upsert (fun x => x.idx = v.idx) v s.seqs }
/-- Apply a change to a sequencer. -/
def State.modSeq (s : State) (n : Nat) (f : Seq → Seq) : State := s.setSeq (f (s.seq n))
/-- A core; one not listed is at reset. -/
def State.core (s : State) (n : Nat) : Core := (s.cores.find? fun x => x.idx = n).getD (Core.reset n)
/-- Replace a core. -/
def State.setCore (s : State) (v : Core) : State := { s with cores := upsert (fun x => x.idx = v.idx) v s.cores }
/-- Apply a change to a core. -/
def State.modCore (s : State) (n : Nat) (f : Core → Core) : State := s.setCore (f (s.core n))
/-- A compute die. -/
def State.die (s : State) (n : Nat) : Die := vget s.dies n Die.reset
/-- Apply a change to a compute die. -/
def State.modDie (s : State) (n : Nat) (f : Die → Die) : State := { s with dies := vset s.dies n (f (s.die n)) }
/-- A memory chiplet. -/
def State.chip (s : State) (n : Nat) : Chip := vget s.chips n ⟨[], 0#32⟩
/-- Apply a change to a memory chiplet. -/
def State.modChip (s : State) (n : Nat) (f : Chip → Chip) : State := { s with chips := vset s.chips n (f (s.chip n)) }
/-- A context that the ground firmware has created. -/
def State.ctx? (s : State) (n : Nat) : Option Ctx := s.ctxs.find? fun x => x.id = n
/-- Apply a change to a context. -/
def State.modCtx (s : State) (n : Nat) (f : Ctx → Ctx) : State :=
  { s with ctxs := updateFirst (fun x => x.id = n) f s.ctxs }
/-- An ensemble. -/
def State.ensemble? (s : State) (e : Nat) : Option Ensemble := s.ensembles.find? fun x => x.eid = e
/-- Apply a change to an ensemble. -/
def State.modEnsemble (s : State) (e : Nat) (f : Ensemble → Ensemble) : State :=
  { s with ensembles := updateFirst (fun x => x.eid = e) f s.ensembles }
/-- A launch. -/
def State.launch? (s : State) (k : Nat) : Option Launch := s.launches.find? fun x => x.key = k
/-- Apply a change to a launch. -/
def State.modLaunch (s : State) (k : Nat) (f : Launch → Launch) : State :=
  { s with launches := updateFirst (fun x => x.key = k) f s.launches }
/-- A queue control register; one not listed is at reset. -/
def State.queue (s : State) (q : Nat) : QueueReg := (s.queues.find? fun x => x.q = q).getD (QueueReg.reset q)
/-- Apply a change to a queue control register. -/
def State.modQueue (s : State) (q : Nat) (f : QueueReg → QueueReg) : State :=
  { s with queues := upsert (fun x => x.q = q) (f (s.queue q)) s.queues }
/-- A router pair register; one not listed is at reset. -/
def State.pair (s : State) (i j : Nat) : Pair :=
  (s.pairs.find? fun x => x.i = i ∧ x.j = j).getD (Pair.reset i j)
/-- Apply a change to a router pair register. -/
def State.modPair (s : State) (i j : Nat) (f : Pair → Pair) : State :=
  { s with pairs := upsert (fun x => x.i = i ∧ x.j = j) (f (s.pair i j)) s.pairs }
/-- A circuit-table entry. -/
def State.circuit (s : State) (c : Nat) : Circuit := vget s.circuits c ⟨0#8, false, 0#9⟩
/-- A name that nothing else of the state has. [log 53: DEDUCED, unsafe] -/
def State.fresh (s : State) : Nat := s.ids
/-- The state with its next name used up. [log 53: DEDUCED, unsafe] -/
def State.bump (s : State) : State := { s with ids := s.ids + 1 }

/-- The cluster of a core, numbered 6 × die + cluster (R28). -/
def clusterOf (core : Nat) : Nat := core / 48
/-- The die of a core. -/
def dieOf (core : Nat) : Nat := core / 288

/-- Number of a unit for the slewing of its tick: cores, then sequencers, distributors, chiplets and I/O dies (R409). -/
def unitOfCore (core : Nat) : Nat := core
/-- Number of a sequencer as a unit. -/
def unitOfSeq (n : Nat) : Nat := 2592 + n
/-- How far a unit's counter is from the master's after `n` periods of 1,024 counts: it starts at none, and in each period the disciplining may slew it by one count, within 2 µs (R408, R409). [log 3: DESIGN CHOICE, unsafe] -/
def tickSkew (unit : Nat) : (n : Nat) → Int
  | 0 => 0
  | n + 1 =>
    let old := tickSkew unit n
    let new := old + (Config.slew unit n).val - 1
    if new.natAbs ≤ 2000 then new else old
/-- Clocks of the cores' 1.2 GHz that have passed between two ticks (R29). -/
def clocksPassed (since now clocks : Nat) : Bool := 6 * (now - since) ≥ 5 * clocks
/-- The tick that a unit reads (R409). The master distributor's own tick is not slewed. [log 3: DESIGN CHOICE, unsafe] -/
def State.tickOf (s : State) (unit : Nat) : W64 := BitVec.ofInt 64 (s.tick + tickSkew unit (s.tick / 1024))
/-- The master distributor's tick. [log 3: DESIGN CHOICE, unsafe] -/
def State.masterTick (s : State) : W64 := BitVec.ofNat 64 s.tick

/-! ## Masks -/

/-- The bits of a test on numbers, bit `i` for `i`. -/
def bitsOf (f : Nat → Bool) : (n : Nat) → BitVec n
  | 0 => 0#0
  | n + 1 => BitVec.cons (f n) (bitsOf f n)
/-- Mask of the lanes that satisfy a test. -/
def maskOf (f : Fin 32 → Bool) : Mask := bitsOf (fun i => if h : i < 32 then f ⟨i, h⟩ else false) 32
/-- Mask of the quads that satisfy a test. -/
def quadMaskOf (f : Fin 8 → Bool) : QuadMask := bitsOf (fun i => if h : i < 8 then f ⟨i, h⟩ else false) 8
/-- Lanes of the quads of a mask (R39). -/
def quadLanes (q : QuadMask) : Mask := maskOf fun l => q.getLsbD (l.val / 4)
/-- Quads with a lane in a mask (R56). -/
def laneQuads (m : Mask) : QuadMask := quadMaskOf fun q => m.extractLsb' (4 * q.val) 4 ≠ 0#4
/-- Lowest set bit of a mask of `n` bits, `n` when none is set. -/
def lowestFrom {n : Nat} (m : BitVec n) : Nat → Nat → Nat
  | 0, i => i
  | k + 1, i => if m.getLsbD i then i else lowestFrom m k (i + 1)
/-- Lowest set bit of a mask, its width when none is set. -/
def lowest {n : Nat} (m : BitVec n) : Nat := lowestFrom m n 0
/-- Count of set bits. -/
def popcount {n : Nat} (m : BitVec n) : Nat := ((List.range n).filter fun i => m.getLsbD i).length

/-! ## Quads and sub-gangs (R52 to R54) -/

/-- Apply a change to each quad. -/
def mapQuads (qs : Vector Quad 8) (f : Fin 8 → Quad → Quad) : Vector Quad 8 := Vector.ofFn fun q => f q qs[q]

/-- Live quads of a gang (R56). -/
def Gang.liveQuads (x : Gang) : QuadMask := laneQuads x.live

/-- The quads of the sub-gang whose lowest quad is `r`. -/
def Gang.groupOf (x : Gang) (r : Nat) : QuadMask :=
  quadMaskOf fun q => x.liveQuads.getLsbD q ∧ x.quads[q].sub.toNat = r

/-- Rank of a sub-gang for the choice of R54: true when `a` goes ahead of `b`. -/
def ahead (x : Gang) (a b : Fin 8) : Bool :=
  let qa := x.quads[a]
  let qb := x.quads[b]
  let na := popcount (x.groupOf a)
  let nb := popcount (x.groupOf b)
  let normal := na > nb ∨ (na = nb ∧ qa.pc.toNat ≤ qb.pc.toNat)
  if qa.skipped ≥ 256 ∨ qb.skipped ≥ 256 then
    qa.skipped > qb.skipped ∨ (qa.skipped = qb.skipped ∧ normal)
  else normal

/-- The lowest quads of the sub-gangs that may issue: those not at a `regang`, and in a handler those of the trapped quads only (R54, R435). -/
def Gang.candidates (x : Gang) : List (Fin 8) :=
  (List.finRange 8).filter fun q =>
    x.liveQuads.getLsbD q ∧ x.quads[q].sub.toNat = q.val ∧ ¬ x.quads[q].wait ∧
      (x.handler.isNone ∨ x.quads[q].trapped)

/-- The quads that issue next: the sub-gang that the convergence optimiser chooses (R54); no quad when none may issue. -/
def Gang.issuing (x : Gang) : QuadMask :=
  match x.candidates with
  | [] => 0#8
  | c :: cs => x.groupOf (cs.foldl (fun (best q : Fin 8) => if ahead x best q then best else q) c).val

/-- Program counter of the lowest quad of a mask. -/
def Gang.pcOf (x : Gang) (quads : QuadMask) : BitVec 56 := (vget x.quads (lowest quads) default).pc

/-- Set the program counter of the quads of a mask. -/
def Gang.setPc (x : Gang) (quads : QuadMask) (pc : BitVec 56) : Gang :=
  { x with quads := mapQuads x.quads fun q v => if quads.getLsbD q then { v with pc := pc } else v }

/-- After quads of one sub-gang have moved, they part by their program counters (R215). -/
def Gang.regroup (x : Gang) (quads : QuadMask) : Gang :=
  let low := fun q : Fin 8 =>
    lowest (quadMaskOf fun r => quads.getLsbD r ∧ x.quads[r].pc = x.quads[q].pc)
  { x with quads := mapQuads x.quads fun q v =>
      if quads.getLsbD q then { v with sub := BitVec.ofNat 3 (low q) } else v }

/-- Name each sub-gang by its lowest live quad again, after lanes have gone (R161). -/
def Gang.rename (x : Gang) : Gang :=
  { x with quads := mapQuads x.quads fun _ v =>
      { v with sub := BitVec.ofNat 3 (lowest (x.groupOf v.sub.toNat) % 8) } }

/-- Complete a `regang` when every live quad waits at one with the same identifier (R53, R224). The gang continues converged after the word of the lowest live quad; in a handler all its live quads are then quads of the handler. -/
def Gang.rejoinIfAll (x : Gang) : Gang :=
  let lq := x.liveQuads
  let r := vget x.quads (lowest lq) default
  if lq ≠ 0#8 ∧ (List.finRange 8).all fun q => ¬ lq.getLsbD q ∨ (x.quads[q].wait ∧ x.quads[q].rejoin = r.rejoin)
  then
    { x with quads := mapQuads x.quads fun q v =>
        if lq.getLsbD q then
          { v with
            pc := r.pc + 16#56, sub := BitVec.ofNat 3 (lowest lq), wait := false, rejoin := 0#32, skipped := 0
            trapped := x.handler.isSome }
        else v }
  else x

/-- Every live quad waits at a `regang` and the identifiers differ (R53). [log 33: DEDUCED, unsafe] -/
def Gang.rejoinClash (x : Gang) : Bool :=
  let lq := x.liveQuads
  let r := vget x.quads (lowest lq) default
  lq ≠ 0#8 ∧ ((List.finRange 8).all fun q => ¬ lq.getLsbD q ∨ x.quads[q].wait) ∧
    ¬ (List.finRange 8).all fun q => ¬ lq.getLsbD q ∨ x.quads[q].rejoin = r.rejoin

/-! ## Register writes -/

/-- Read of a scalar register. -/
def Regs.get (r : Regs) (i : BitVec 6) : W64 := r.s[i.toNat]'i.isLt

/-- A pending result without the halves of a scalar register that a later write covers (R88). -/
def Result.dropSca (x : Result) (i : BitVec 6) (halves : BitVec 2) : Result :=
  { x with sca := x.sca.map fun p => if p.reg = i then { p with halves := p.halves &&& ~~~halves } else p }
/-- A pending result without the lanes of a vector register that a later write covers (R88). -/
def Result.dropVec (x : Result) (reg : Nat) (mask : Mask) : Result :=
  { x with vec := x.vec.map fun p => if p.reg = reg then { p with mask := p.mask &&& ~~~mask } else p }
/-- A pending result without a scalar condition that a later write covers. -/
def Result.dropCond (x : Result) (i : BitVec 3) : Result := { x with cond := x.cond.filter fun p => p.1 ≠ i }
/-- A pending result without a translation register that a later write covers. -/
def Result.dropTrans (x : Result) (i : BitVec 3) : Result := { x with trans := x.trans.filter fun p => p.1 ≠ i }

/-- A scalar register's value after the named halves are written. -/
def mergeHalves (old new : W64) (halves : BitVec 2) : W64 :=
  (if halves.getLsbD 1 then new.extractLsb' 32 32 else old.extractLsb' 32 32) ++
    (if halves.getLsbD 0 then new.extractLsb' 0 32 else old.extractLsb' 0 32)

/-- Write halves of a scalar register with their poison (R73, R155). -/
def Regs.putSca (r : Regs) (i : BitVec 6) (halves : BitVec 2) (v : W64) (poison : BitVec 2) : Regs :=
  let bit := 1#64 <<< i.toNat
  { r with
    s := r.s.set i.toNat (mergeHalves (r.get i) v halves) i.isLt
    poisonLo := if halves.getLsbD 0 then (if poison.getLsbD 0 then r.poisonLo ||| bit else r.poisonLo &&& ~~~bit) else r.poisonLo
    poisonHi := if halves.getLsbD 1 then (if poison.getLsbD 1 then r.poisonHi ||| bit else r.poisonHi &&& ~~~bit) else r.poisonHi }

/-- A fixed-latency write of scalar halves, which supersedes the pending ones (R88). -/
def Regs.writeSca (r : Regs) (i : BitVec 6) (halves : BitVec 2) (v : W64) (poison : BitVec 2) : Regs :=
  { r.putSca i halves v poison with pending := r.pending.map fun x => x.dropSca i halves }

/-- Read of a scalar condition: `k7` is true (R142). -/
def Regs.cond (r : Regs) (i : BitVec 3) : Bool := i = 7#3 ∨ r.k.getLsbD i.toNat

/-- Put a scalar condition; a write to `k7` is discarded (R142). -/
def Regs.putCond (r : Regs) (i : BitVec 3) (b : Bool) : Regs :=
  if i = 7#3 then r
  else { r with k := if b then r.k ||| (1#8 <<< i.toNat) else r.k &&& ~~~(1#8 <<< i.toNat) }

/-- A fixed-latency write of a scalar condition. -/
def Regs.writeCond (r : Regs) (i : BitVec 3) (b : Bool) : Regs :=
  { r.putCond i b with pending := r.pending.map fun x => x.dropCond i }

/-- OR flags into `%fpflags` (R129). -/
def Regs.orFlags (r : Regs) (f : BitVec 5) : Regs := { r with fpflags := r.fpflags ||| f }

/-- A vector register of a gang. -/
def Gang.vreg (x : Gang) (r : Nat) : VReg := (x.vregs[r]?).getD VReg.reset

/-- Lane values with those of a mask replaced. -/
def mergeLanes (old new : Lanes) (mask : Mask) : Lanes := Vector.ofFn fun l => if mask.getLsbD l then new[l] else old[l]

/-- Put lanes of a vector register with their poison, leaving the pending results alone. -/
def VReg.put (v : VReg) (mask : Mask) (data : Lanes) (poison : Mask) : VReg :=
  { v with lanes := mergeLanes v.lanes data mask, poison := (v.poison &&& ~~~mask) ||| (poison &&& mask) }

/-- A fixed-latency write of a vector register's lanes, clean, with the tag that its shape takes (R88, R145). -/
def Gang.writeVec (x : Gang) (reg : Nat) (mask : Mask) (data : Lanes) (tag : Tag) : Gang :=
  { x with
    vregs := setNth { (x.vreg reg).put mask data 0#32 with tag := tag } x.vregs reg
    regs := { x.regs with pending := x.regs.pending.map fun r => r.dropVec reg mask } }

/-- Read of a predicate: `p7` is true in every lane (R142). -/
def Gang.pred (x : Gang) (i : BitVec 3) : Mask := if i = 7#3 then BitVec.allOnes 32 else x.preds[i.toNat]'i.isLt

/-- Write the lanes of a mask of a predicate; a write to `p7` is discarded (R142). -/
def Gang.writePred (x : Gang) (i : BitVec 3) (mask value : Mask) : Gang :=
  if i = 7#3 then x
  else { x with preds := x.preds.set i.toNat ((x.pred i &&& ~~~mask) ||| (value &&& mask)) i.isLt }

/-- Registers of a gang become general (R144, R145). -/
def Gang.generalize (x : Gang) (ps : List (Nat × Nat)) : Gang :=
  { x with vregs := x.vregs.mapIdx fun i v => if ps.any fun p => p.1 ≤ i ∧ i < p.1 + p.2 then { v with tag := .general } else v }

/-- Every register is covered: no lane is pending any more (R87). -/
def Gang.settle (x : Gang) : Gang := { x with vregs := x.vregs.map fun v => { v with pend := 0#32 } }

/-- Add an outstanding result: its destinations are pending, and it supersedes earlier ones when it is written (R87, R88). The tag that will prevail is `tag`. -/
def Gang.addResult (x : Gang) (r : Result) (tag : Tag) : Gang :=
  { x with
    vregs := r.vec.foldl (fun vs w =>
      match vs[w.reg]? with
      | some v => setNth { v with pend := v.pend ||| w.mask, tag := if w.mask = 0#32 then v.tag else tag } vs w.reg
      | none => vs) x.vregs
    regs := { x.regs with pending := x.regs.pending ++ [r] } }

/-! ## The issue of an instruction -/

/-- How an instruction's checks end it: with a trap, or with a wait at its issue checks (R68, R90). -/
inductive Stop where
  | trap (t : Trap)
  | wait (w : Wait)
  deriving DecidableEq, Repr, Inhabited

/-- What an issuing instruction consults (R55, R70, R166, R216). -/
structure Exec where
  u : Issuer
  t : Nat
  g : Nat
  ctx : Nat
  core : Nat
  cluster : Nat
  die : Nat
  op : BitVec 8
  w : Fields
  pc : BitVec 56
  /-- live quads of the issuing sub-gang -/
  quads : QuadMask
  /-- live quads of the gang -/
  liveQuads : QuadMask
  /-- live lanes of the issuing sub-gang -/
  sub : Mask
  /-- lanes that take part, for per-lane guards -/
  part : Mask
  guard : Bool
  /-- issued by a privileged handler (R435) -/
  priv : Bool
  seq : Bool
  deriving DecidableEq, Repr, Inhabited

/-- The detail of a trap that names a lane, a two-bit kind and an address (R433). [log 51: DEDUCED, unsafe] -/
def detailLane (lane : Nat) (kind : BitVec 2) (addr : BitVec 56) : W64 := BitVec.ofNat 6 lane ++ kind ++ addr

/-- The detail of a trap that names the opcode, with low bits (R433). -/
def detailOp (op : BitVec 8) (low : BitVec 24) : W64 := 0#32 ++ op ++ low

/-- Lane number for an instruction that acts once per issue (R433). [log 51: DEDUCED, unsafe] -/
def laneNone : Nat := 0x3F

/-- A protection fault of an instruction that acts once, holding an operand value or 0 (R433). [log 51: DEDUCED, unsafe] -/
def protectionOnce (v : BitVec 56) : Trap := .coded 0x25#8 (detailLane laneNone 0#2 v)

/-- An illegal-state trap with its reason and the quad masks (R216). -/
def illegalState (x : Exec) (why : BitVec 8) : Trap := .coded 0x23#8 (0#32 ++ x.op ++ why ++ x.liveQuads ++ x.quads)

/-- The trap of a decode failure (R68, R69, R433). -/
def trapOfDecode : DecodeTrap → Trap
  | .opcode op assigned => .coded 0x20#8 (detailOp op (if assigned then 1#24 else 0#24))
  | .encoding op cause p1 p2 => .coded 0x21#8 (detailOp op (0#8 ++ p1 ++ p2 ++ 0#4 ++ cause))

/-- The guard's value in each lane of a predicate guard (R70). -/
def predGuard (x : Gang) (g : Guard) : Mask := if g.neg then ~~~(x.pred g.idx) else x.pred g.idx

/-- The guard's value of a scalar-condition guard (R70). -/
def condGuard (r : Regs) (g : Guard) : Bool := (r.cond g.idx) ^^ g.neg

/-- The class of an opcode takes its guard from the predicates (R70). -/
def predClass (op : BitVec 8) : Bool := op.extractLsb' 6 2 = 1#2 ∨ op.extractLsb' 6 2 = 2#2

/-- What an instruction `op` with fields `w` consults when unit `u` issues it; none where no such unit may issue. -/
def execOf (s : State) (u : Issuer) (op : BitVec 8) (w : Fields) : Option Exec :=
  match u with
  | .gang t g =>
    (s.team? t).bind fun tm => (tm.gangs[g]?).map fun x =>
      let quads := x.issuing
      let sub := x.live &&& quadLanes quads
      let m := predGuard x w.g
      { u, t, g, ctx := tm.ctx, core := tm.core, cluster := clusterOf tm.core, die := dieOf tm.core, op, w
        pc := x.pcOf quads, quads, liveQuads := x.liveQuads, sub
        part := if predClass op then sub &&& m else sub
        guard := if predClass op then sub &&& m ≠ 0#32 else condGuard x.regs w.g
        priv := x.handler.isSome, seq := false }
  | .seq n =>
    let q := s.seq n
    some { u, t := 0, g := 0, ctx := q.sctx, core := 0, cluster := n, die := n / 6, op, w
           pc := q.pc, quads := 1#8, liveQuads := 1#8, sub := 1#32, part := 1#32
           guard := condGuard q.regs w.g, priv := q.handler.isSome, seq := true }

/-- The registers of the issuing unit. -/
def State.regsOf (s : State) (u : Issuer) : Regs :=
  match u with
  | .gang t g => ((s.gang? t g).map (·.regs)).getD Regs.reset
  | .seq n => (s.seq n).regs

/-- Apply a change to the registers of the issuing unit. -/
def State.modRegs (s : State) (u : Issuer) (f : Regs → Regs) : State :=
  match u with
  | .gang t g => s.modGang t g fun x => { x with regs := f x.regs }
  | .seq n => s.modSeq n fun q => { q with regs := f q.regs }

/-- Set the program counter of the issuing sub-gang, or of the sequencer. -/
def setPcOf (x : Exec) (pc : BitVec 56) (s : State) : State :=
  match x.u with
  | .gang t g => s.modGang t g fun v => v.setPc x.quads pc
  | .seq n => s.modSeq n fun q => { q with pc := pc }

/-- Move on by `len` bytes: the displaced word of R229, where it was one, has issued. -/
def moveOn (x : Exec) (len : Nat) (s : State) : State :=
  let pc := x.pc + BitVec.ofNat 56 len
  match x.u with
  | .gang t g => s.modGang t g fun v => { v.setPc x.quads pc with emul := v.emul &&& ~~~x.quads }
  | .seq n => s.modSeq n fun q => { q with pc := pc, emul := false }

/-! ### Traps -/

/-- Code of a range-lock trap (R432). -/
def codeLock : BitVec 8 := 0x12#8
/-- Code of a handle-busy timeout (R432). -/
def codeBusy : BitVec 8 := 0x13#8
/-- A trap that is terminal to the team (R432). -/
def terminal (code : BitVec 8) : Bool := 0x20#8 ≤ code

/-- Stop a team as R439 says: its lanes are killed, its waiters leave, and its gangs retire as their results return. -/
def State.endTeam (s : State) (t : Nat) (lost : Bool) : State :=
  let s := s.modTeam t fun x =>
    { x with
      endedLost := x.endedLost || lost
      gangs := x.gangs.map fun v =>
        { v with live := 0#32, handler := none, heldTrap := none,
                 status := if v.status = .retired then .retired else .ready } }
  let mine := fun u : Issuer => match u with | .gang t' _ => t' = t | .seq _ => false
  { s with
    parkWaiters := s.parkWaiters.filter fun w => !mine w.who
    ensembles := s.ensembles.map fun e =>
      { e with counters := e.counters.map fun c => { c with waiters := c.waiters.filter fun w => !mine w.who } } }

/-- The context ends within its time (R437, R447). -/
def State.endContext (s : State) (c : Nat) : State := s.modCtx c fun x => { x with ending := true }

/-- A sequencer stops as at `exit`, and the studio firmware is told; it starts no ensemble until it is restarted (R454). -/
def State.stopSeq (s : State) (n : Nat) : State :=
  { s.modSeq n fun q => { q with run := false, halted := true, handler := none, heldTrap := none, status := .ready } with
    studioNotices := s.studioNotices + 1 }

/-- Trap entry: the trap registers, the trapped quads and the handler (R434). -/
def Gang.enter (x : Gang) (code : BitVec 8) (detail : W64) (quads : QuadMask) (pc vec : BitVec 56) : Gang :=
  { x with
    regs := { x.regs with trapcause := code.zeroExtend 32, trapdetail := detail, trappc := pc.zeroExtend 64 }
    quads := mapQuads x.quads fun q v =>
      if quads.getLsbD q then
        { v with pc := vec, sub := BitVec.ofNat 3 (lowest quads), wait := false, trapped := true }
      else { v with trapped := false }
    handler := some code
    heldTrap := none
    emul := x.emul &&& ~~~quads
    status := .ready }

/-- A trap without a handler, or inside one, or of a displaced word (R437, R438, R445). A range-lock waits, a handle-busy timeout issues again, a software trap or breakpoint has no effect, and a terminal trap ends the context. -/
def State.serveGang (s : State) (t g : Nat) (code : BitVec 8) (quads : QuadMask) (pc : BitVec 56) : State :=
  match s.team? t, s.gang? t g with
  | some tm, some x =>
    let x := { x with heldTrap := none }
    if code = codeLock then s.setGang t g { x with status := .waiting .lockRetry }
    else if code = codeBusy then s.setGang t g { x with status := .ready }
    else if ¬ terminal code then s.setGang t g { x.setPc quads (pc + 16#56) with emul := x.emul &&& ~~~quads }
    else (s.setGang t g { x with status := .ended }).endContext tm.ctx
  | _, _ => s

/-- Whether a coded trap of a gang enters no handler (R437, R438, R445). -/
def State.noHandler (s : State) (t : Nat) (x : Gang) (quads : QuadMask) : Bool :=
  x.handler.isSome || (s.team? t).all (fun tm => tm.trapvec = 0#64) || x.emul &&& quads != 0#8

/-- Whether a `brk` of a gang stops for the debugger (R445). [log 41: DEDUCED, unsafe] -/
def State.debugged (s : State) (t : Nat) (x : Gang) : Bool :=
  x.handler.isNone && ((s.team? t).bind fun tm => s.ctx? tm.ctx).any fun c => c.dbg

/-- Take a coded trap for a gang whose earlier results have returned (R434, R437, R438, R445). -/
def State.takeGang (s : State) (t g : Nat) (code : BitVec 8) (detail : W64) (quads : QuadMask) (pc : BitVec 56)
    (brk : Bool) : State :=
  match s.team? t, s.gang? t g with
  | some tm, some x =>
    if brk && s.debugged t x then
      s.setGang t g { x.settle.enter code detail quads pc (tm.trapvec.extractLsb' 0 56) with status := .debug }
    else if s.noHandler t x quads then s.serveGang t g code quads pc
    else s.setGang t g (x.settle.enter code detail quads pc (tm.trapvec.extractLsb' 0 56))
  | _, _ => s

/-- Take a coded trap for a sequencer (R454). -/
def State.takeSeq (s : State) (n : Nat) (code : BitVec 8) (detail : W64) (pc : BitVec 56) : State :=
  let q := s.seq n
  if q.handler.isNone ∧ q.trapvec ≠ 0#64 ∧ ¬ q.emul then
    s.setSeq
      { q with
        regs := { q.regs with trapcause := code.zeroExtend 32, trapdetail := detail, trappc := pc.zeroExtend 64 }
        pc := q.trapvec.extractLsb' 0 56
        handler := some code
        heldTrap := none }
  else if ¬ terminal code ∧ code ≠ codeLock ∧ code ≠ codeBusy then s.setSeq { q with pc := pc + 16#56, emul := false }
  else s.stopSeq n

/-- Counter `i` of a core selects an event (R431). -/
def Core.selects (c : Core) (ev i : Nat) : Bool := decide ((c.perfSel.extractLsb' (8 * i) 5).toNat = ev)

/-- Count `n` occurrences of an event in the performance counters that select it (R431). -/
def countPerf (core ev n : Nat) (s : State) : State :=
  let c := s.core core
  let counted := { c with perf := Vector.ofFn fun i => if c.selects ev i.val then c.perf[i] + BitVec.ofNat 64 n else c.perf[i] }
  { s with cores := if (List.range 4).any (c.selects ev) then (s.setCore counted).cores else s.cores }

/-- What an issue leaves in its gang whatever becomes of the instruction: its place in the order of issues, its age, and the turns that other sub-gangs have waited (R49, R50, R54, R94). -/
def Gang.counted (v : Gang) (x : Exec) (tick order : Nat) : Gang :=
  { v with
    lastIssue := order, aged := false, readySince := tick, yielded := x.w.sc.yld, otherWait := 0, otherSince := none
    quads := mapQuads v.quads fun q u =>
      if x.quads.getLsbD q then { u with skipped := 0 } else { u with skipped := u.skipped + 1 } }

/-- An issue takes its place in the order of issues (R49), and counts as an instruction issued (R431). [log 50: DEDUCED, unsafe] -/
def noteIssue (x : Exec) (s : State) : State :=
  match x.u with
  | .gang t g => (countPerf x.core 0x02 1 s.bump).modGang t g fun v => v.counted x s.tick s.ids
  | .seq _ => s

/-- Take a trap of the issuing instruction, from the state before it (R12, R90, R434, R440). A handler is entered once the earlier results have returned; a page or circuit-unlit fault stops the gang for the save of its team. -/
def trapFrom (x : Exec) (t : Trap) (brk : Bool) (s : State) : State :=
  match x.u with
  | .gang tt g =>
    match s.gang? tt g with
    | none => s
    | some v =>
      match t with
      | .coded code detail =>
        let s := if code = codeLock then countPerf x.core 0x07 1 s else s
        if v.regs.pending = [] ∨ (s.noHandler tt v x.quads ∧ ¬ (brk ∧ s.debugged tt v)) then
          s.takeGang tt g code detail x.quads x.pc brk
        else s.setGang tt g { v with heldTrap := some ⟨t, x.quads, x.pc, brk⟩ }
      | .page _ _ | .circuit _ _ => s.setGang tt g { v with status := .faulted t s.epoch }
  | .seq n =>
    match t with
    | .coded code detail => s.takeSeq n code detail x.pc
    | .page _ _ | .circuit _ _ => s.stopSeq n

/-- Raise a trap at the issuing instruction: it has issued, and has no effect but the trap (R49, R50, R90). -/
def raiseTrap (x : Exec) (t : Trap) (brk : Bool) (s : State) : State := trapFrom x t brk (noteIssue x s)

/-! ### Waking -/

/-- What a gang does when it becomes ready after a block: a marker that it carried acts now (R50, R87). -/
def Gang.wake (x : Gang) : Gang :=
  if x.swLater then
    if x.regs.pending = [] then { x.settle with status := .ready, swLater := false }
    else { x with status := .parked, swLater := false }
  else { x with status := .ready }

/-- Wake a unit (R50). -/
def State.wake (s : State) (u : Issuer) : State :=
  match u with
  | .gang t g => s.modGang t g fun x => { x.wake with readySince := s.tick }
  | .seq n => s.modSeq n fun q => { q with status := .ready }

/-- Block the issuing unit inside its instruction (R50). [log 50: DEDUCED, unsafe] -/
def blockUnit (x : Exec) (why : Block) (s : State) : State :=
  let s' := s.bump
  match x.u with
  | .gang t g => s'.modGang t g fun v => { v with status := .blocked why s.ids, blockPc := x.pc, blockQuads := x.quads }
  | .seq n => s'.modSeq n fun q => { q with status := .blocked why s.ids, blockPc := x.pc }

/-! ### The envelope -/

/-- How an instruction issues (R55, R68, R71). -/
structure IssueKind where
  /-- privileged (R68) -/
  priv : Bool
  /-- requires a converged gang (R55) -/
  conv : Bool
  /-- class-10 instruction that acts once: the guard is equal in every live lane (R71) -/
  uniform : Bool
  /-- its result is variable-latency: at most 64 are outstanding (R304) -/
  late : Bool
  /-- it accesses memory and so waits for a promotion and for an acquire of its own (R270, R315) -/
  memory : Bool
  deriving DecidableEq, Repr, Inhabited

/-- The vector registers that a position names, as first and count (R148). -/
def gatedSpan (x : SlotCtx) (s : Slot) (o : Operand) : Nat × Nat :=
  match s, o with
  | .memDst, .vec r => (r.toNat, if mdSize x.md = 15#4 then 4 else if widthOr32 x.ty ≥ 64 then 2 else 1)
  | .atomDst, .vec r | .vOrSDst, .vec r => (r.toNat, if widthOr32 x.ty ≥ 64 then 2 else 1)
  | .asrc, .vec r => (r.toNat, 32)
  | _, .vec r => (r.toNat, slotRegs x s (.vec r))
  | _, _ => (0, 0)

/-- The first gated register that an instruction names in D, A, B or C, given the allocation (R148). [log 15: DEDUCED, unsafe] -/
def gatedReg (op : BitVec 8) (w : Fields) (alloc : Nat) : Option Nat :=
  match formOf op.toNat w.fn.toNat with
  | none => none
  | some f =>
    let x : SlotCtx := { seq := false, ty := some w.ty, sub := tyOfCode (mdSUB w.md), md := w.md, imm := w.imm, d := some w.d, a := some w.a }
    let past := fun p : Nat × Nat => if p.2 > 0 ∧ p.1 + p.2 > alloc then some (max p.1 alloc) else none
    (past (gatedSpan x f.d w.d)).or <| (past (gatedSpan x f.a w.a)).or <|
      (past (gatedSpan x f.b w.b)).or (past (gatedSpan x (slotC f (some w.ty)) w.c))

/-- The checks made at issue, after decode and in order (R68): privilege, allocation, convergence and guard uniformity. The live lanes among which the guard must agree (R71) are those of the issuing sub-gang (log 55). [log 55: DEDUCED, unsafe] -/
def issueCheck (k : IssueKind) (x : Exec) (alloc : Nat) : Option Trap :=
  if k.priv ∧ ¬ x.priv then some (protectionOnce 0#56)
  else
    match (if x.seq then none else gatedReg x.op x.w alloc) with
    | some r => some (.coded 0x22#8 (detailOp x.op (BitVec.ofNat 24 r)))
    | none =>
      if k.conv ∧ x.quads ≠ x.liveQuads then some (illegalState x 1#8)
      else if k.uniform ∧ ¬ x.seq ∧ x.part ≠ 0#32 ∧ x.part ≠ x.sub then some (illegalState x 4#8)
      else none

/-- The registers that an instruction names in A, B and C, and in D. -/
def namedRegs (op : BitVec 8) (w : Fields) : List (Nat × Nat) × List (Nat × Nat) :=
  match formOf op.toNat w.fn.toNat with
  | none => ([], [])
  | some f =>
    let x : SlotCtx := { seq := false, ty := some w.ty, sub := tyOfCode (mdSUB w.md), md := w.md, imm := w.imm, d := some w.d, a := some w.a }
    ([gatedSpan x f.a w.a, gatedSpan x f.b w.b, gatedSpan x (slotC f (some w.ty)) w.c].filter fun p => p.2 > 0,
      [gatedSpan x f.d w.d].filter fun p => p.2 > 0)

/-- Two spans of registers, as first and count, meet. -/
def spansMeet (p q : Nat × Nat) : Bool := decide (p.1 < q.1 + q.2 ∧ q.1 < p.1 + p.2)

/-- The vector sources of an instruction, each with its `RU` bit: positions A, B and C in order. A block that goes by the block port is none of them (R95, R98). -/
def collected (op : BitVec 8) (w : Fields) : List (Bool × Nat × Nat) :=
  match formOf op.toNat w.fn.toNat with
  | none => []
  | some f =>
    let x : SlotCtx := { seq := false, ty := some w.ty, sub := tyOfCode (mdSUB w.md), md := w.md, imm := w.imm, d := some w.d, a := some w.a }
    [(w.sc.hda, gatedSpan x f.a w.a), (w.sc.hdb, gatedSpan x f.b w.b), (w.sc.hdc, gatedSpan x (slotC f (some w.ty)) w.c)].filter fun p =>
      decide (0 < p.2.2 ∧ p.2.2 ≤ 4)

/-- A hold store gives the source: the scheduler's last issue was of the same gang and read the same register with the same width, and nothing has written the register since (R95). -/
def Hold.gives (h : Hold) (t g : Nat) (p : Nat × Nat) : Bool :=
  decide (h.team = t ∧ h.gang = g) && h.sources.any fun v => decide (v.reg = p.1 ∧ v.count = p.2)

/-- A hold store without the sources of a gang that a write meets (R95). -/
def Hold.without (h : Hold) (t g : Nat) (ps : List (Nat × Nat)) : Hold :=
  if h.team = t ∧ h.gang = g then { h with sources := h.sources.filter fun v => !ps.any fun p => spansMeet p (v.reg, v.count) } else h

/-- A core's schedulers lose the sources of a gang that a write meets (R95). -/
def Core.unhold (c : Core) (t g : Nat) (ps : List (Nat × Nat)) : Core :=
  { c with hold := Vector.ofFn fun i => c.hold[i].map fun h => h.without t g ps }

/-- The sources of an instruction that are taken from the hold store in place of the bank: those whose `RU` bit is set and that it gives (R95). A value that is taken is the register's own. -/
def takenSources (h : Option Hold) (t g : Nat) (op : BitVec 8) (w : Fields) : List (Nat × Nat) :=
  ((collected op w).filter fun p => p.1 && h.any fun h => h.gives t g p.2).map (·.2)

/-- What the operand collector has read for an instruction, as the hold store keeps it: the sources that the instruction's own results do not write (R95). -/
def heldAfter (v : Gang) (x : Exec) : List HeldSource :=
  ((collected x.op x.w).filter fun p => !(namedRegs x.op x.w).2.any fun d => spansMeet d p.2).map fun p =>
    ⟨p.2.1, p.2.2, (List.range p.2.2).map fun i => (v.vreg (p.2.1 + i)).lanes⟩

/-- The registers that an issued instruction reads or writes, for drowsiness (R154). -/
def touchedRegs (op : BitVec 8) (w : Fields) : List (Nat × Nat) := (namedRegs op w).2 ++ (namedRegs op w).1

/-- Drowsy registers among those that an instruction reads from their banks, which are not those that it takes from the hold store (R95, R98, R154, R431). -/
def drowsyReads (v : Gang) (ps taken : List (Nat × Nat)) : Nat :=
  (v.vregs.zipIdx.filter fun r =>
    r.1.drowsy && (ps.filter fun p => !taken.contains p).any fun p => p.1 ≤ r.2 && r.2 < p.1 + p.2).length

/-- Mark registers as used at a tick (R154). -/
def touchRegs (tick : Nat) (ps : List (Nat × Nat)) (vs : List VReg) : List VReg :=
  vs.mapIdx fun i v => if ps.any fun p => p.1 ≤ i ∧ i < p.1 + p.2 then { v with used := tick, drowsy := false } else v

/-- What a gang's issue leaves in the gang beside the instruction's own effect: the scheduling control and the order of issues (R49, R54, R85 to R96). -/
def Gang.afterIssue (v : Gang) (x : Exec) (tick order : Nat) : Gang :=
  let v := { v.counted x tick order with
    delay := if x.w.sc.dly = 0#4 then none else some (tick + (5 * x.w.sc.dly.toNat + 5) / 6)
    vregs := touchRegs tick (touchedRegs x.op x.w) v.vregs }
  if x.w.sc.sw then
    match v.status with
    | .ready => if v.regs.pending = [] then v.settle else { v with status := .parked }
    | .blocked _ _ => { v with swLater := true }
    | _ => v
  else v

/-- The end of an issue: scheduling control, order of issues, hold store and counters. [log 50: DEDUCED, unsafe] -/
def finish (x : Exec) (s : State) : State :=
  match x.u with
  | .gang t g =>
    let order := s.ids
    let sched := ((s.gang? t g).map (·.sched.toNat)).getD 0
    let taken := takenSources (vget (s.core x.core).hold sched none) t g x.op x.w
    let s := countPerf x.core 0x09 (((s.gang? t g).map fun v => drowsyReads v (namedRegs x.op x.w).1 taken).getD 0) s
    let s := (s.bump).modGang t g fun v => v.afterIssue x s.tick order
    let held := ((s.gang? t g).map fun v => heldAfter v x).getD []
    let s := s.modCore x.core fun c => { c with hold := vset c.hold sched (some ⟨t, g, held⟩) }
    countPerf x.core 0x02 1 s
  | .seq _ => s.bump

/-- A wait for a handle or a range of the other unit, whose clocks count (R323, R402). -/
def Wait.counts (w : Wait) : Bool :=
  match w with
  | .handle _ _ | .range _ => true
  | _ => false

/-- A wait at the issue checks: the instruction has no effect and issues again later (R90). The clocks of a wait for the other unit count from its begin (R323). [log 23: DEDUCED, unsafe] -/
def waitUnit (x : Exec) (w : Wait) (s : State) : State :=
  match x.u with
  | .gang t g => s.modGang t g fun v => { v with status := .waiting w, otherSince := if w.counts then some s.tick else none }
  | .seq n => s.modSeq n fun q => { q with status := .waiting w }

/-- Whether a unit has a promotion of its own outstanding (R315). -/
def State.promoting (s : State) (u : Issuer) : Bool := s.promotions.any fun p => p.who = u

/-- What an instruction of a unit that accesses memory waits for at its issue checks: a promotion of the unit's own, or the acquire effect of an earlier write or atomic of its own, which comes when that is performed at its peer (R270, R315). -/
def State.memoryWait (s : State) (u : Issuer) : Option Wait :=
  if s.promoting u then some .promotion
  else if s.remote.any fun r => decide (r.who = u) && r.acq.isSome then some .remote
  else none

/-- Allocation of the issuing gang; a sequencer has none. -/
def State.allocOf (s : State) (u : Issuer) : Nat :=
  match u with
  | .gang t g => ((s.gang? t g).map (·.alloc)).getD 0
  | .seq _ => 0

/-- What a guard that is false in every lane leaves: a vector instruction of fixed latency makes its destination general, since not all 32 lanes have a true guard (R71, R145, R146). -/
def falseGuard (k : IssueKind) (x : Exec) (s : State) : State :=
  match x.u with
  | .gang t g =>
    if x.op.extractLsb' 6 2 = 1#2 ∧ ¬ k.late then s.modGang t g fun v => v.generalize (namedRegs x.op x.w).2 else s
  | .seq _ => s

/-- The issue of an instruction by the current unit: the issue checks, the guard, the waits, the body, and the end of the issue. The body starts from the state with the program counter moved on by `len` bytes; a trap or a wait that it answers leaves the state before the issue. -/
def issue (k : IssueKind) (op : BitVec 8) (w : Fields) (len : Nat) (body : Exec → State → Except Stop State) (s : State) :
    Outcome State Fault Refusal :=
  match s.cur.bind fun u => execOf s u op w with
  | none => .fault .noIssuer
  | some x =>
    .next <|
      match issueCheck k x (s.allocOf x.u) with
      | some t => raiseTrap x t false s
      | none =>
        let moved := moveOn x len s
        if ¬ x.guard then finish x (falseGuard k x moved)
        else if k.late ∧ ¬ x.seq ∧ (s.regsOf x.u).pending.length ≥ 64 then waitUnit x .results s
        else
          match (if k.memory then s.memoryWait x.u else none) with
          | some w' => waitUnit x w' s
          | none =>
            match body x moved with
            | .ok s' => finish x s'
            | .error (.trap t) => raiseTrap x t (op = 0xFF#8) s
            | .error (.wait w') => waitUnit x w' s

/-- Issue of an instruction of fixed latency without further conditions. -/
def kindPlain : IssueKind := ⟨false, false, false, false, false⟩
/-- Issue of an instruction with a variable-latency result. -/
def kindVariable : IssueKind := ⟨false, false, false, true, false⟩

/-- A body that changes only the issuing gang. -/
def gangBody (f : Exec → Gang → Except Stop Gang) (x : Exec) (s : State) : Except Stop State :=
  match s.gang? x.t x.g with
  | none => .ok s
  | some v =>
    match f x v with
    | .ok v' => .ok (s.setGang x.t x.g v')
    | .error e => .error e

/-- A body that changes only the issuing unit's registers. -/
def regsBody (f : Exec → Regs → Except Stop Regs) (x : Exec) (s : State) : Except Stop State :=
  match f x (s.regsOf x.u) with
  | .ok r => .ok (s.modRegs x.u fun _ => r)
  | .error e => .error e

/-! ### Return from a handler -/

/-- The trapped quads leave their handler as one sub-gang at `pc`; with `emul` their next word is the displaced one (R229). -/
def Gang.leave (x : Gang) (pc : BitVec 56) (emul : Bool) : Gang :=
  let tq := quadMaskOf fun q => x.liveQuads.getLsbD q ∧ x.quads[q].trapped
  { x with
    handler := none
    emul := if emul then x.emul ||| tq else x.emul
    quads := mapQuads x.quads fun q v =>
      if tq.getLsbD q then { v with pc := pc, trapped := false, wait := false, sub := BitVec.ofNat 3 (lowest tq) }
      else { v with trapped := false } }

/-- The misaligned fault of a control transfer to a program counter with a non-zero bit [3:0] (R67, R433): an execute access of an instruction that acts once. -/
def misalignedPc (pc : BitVec 56) : Trap := .coded 0x29#8 (detailLane laneNone 2#2 pc)

/-- The displaced word may not be `trapret` or `brk` (R229). [log 41: DEDUCED, unsafe] -/
def displacedBad (w : W128) : Bool := w.extractLsb' 120 8 = 0xC9#8 ∨ w.extractLsb' 120 8 = 0xFF#8

/-- Return from a handler (R67, R229, R436): to the trapping word, with `FN` 1 after it, with `FN` 2 to the displaced word in its place. After a terminal trap the team ends. -/
def trapReturn (x : Exec) (fn : Nat) (s : State) : Except Stop State :=
  match x.u with
  | .gang t g =>
    match s.gang? t g with
    | none => .ok s
    | some v =>
      match v.handler with
      | none => .error (.trap (illegalState x 5#8))
      | some code =>
        if terminal code then .ok (s.endTeam t (code = 0x2B#8))
        else
          let tp := v.regs.trappc.extractLsb' 0 56
          if tp.extractLsb' 0 4 ≠ 0#4 then .error (.trap (misalignedPc tp))
          else if fn = 2 ∧ displacedBad v.displaced then .error (.trap (illegalState x 7#8))
          else .ok (s.setGang t g (v.leave (if fn = 1 then tp + 16#56 else tp) (fn = 2)))
  | .seq n =>
    let q := s.seq n
    match q.handler with
    | none => .error (.trap (illegalState x 5#8))
    | some code =>
      if terminal code then .ok (s.stopSeq n)
      else
        let tp := q.regs.trappc.extractLsb' 0 56
        if tp.extractLsb' 0 4 ≠ 0#4 then .error (.trap (misalignedPc tp))
        else if fn = 2 ∧ displacedBad q.displaced then .error (.trap (illegalState x 7#8))
        else .ok (s.setSeq { q with handler := none, emul := fn = 2, pc := if fn = 1 then tp + 16#56 else tp })

end Sys2Proof.Machine
end

