-- ==== Sys2Proof/Machine/Integer.lean ====
section
/-! DEFINITION. The integer and bit operations that the scalar and the vector instructions share, on bit patterns as numbers (R167, R171 to R184). -/

namespace Sys2Proof.Machine

/-- Source A of R171: negated exactly under `NA`. -/
def argA (t : Ty) (md : BitVec 11) (a : Nat) : Int := if mdNA md then -intVal t a else intVal t a
/-- Source B of R171: negated exactly under `NB`. -/
def argB (t : Ty) (md : BitVec 11) (b : Nat) : Int := if mdNB md then -intVal t b else intVal t b

/-- `add` (R171). -/
def intAdd (t : Ty) (md : BitVec 11) (a b : Nat) : Nat := fin t (argA t md a + argB t md b) (mdSAT md)
/-- `sub` (R171). -/
def intSub (t : Ty) (md : BitVec 11) (a b : Nat) : Nat := fin t (argA t md a - argB t md b) (mdSAT md)
/-- `mul` (R171). -/
def intMul (t : Ty) (md : BitVec 11) (a b : Nat) : Nat := fin t (argA t md a * argB t md b) (mdSAT md)
/-- `mad` (R171): one saturation of the exact value. -/
def intMad (t : Ty) (md : BitVec 11) (a b c : Nat) : Nat := fin t (argA t md a * argB t md b + intVal t c) (mdSAT md)
/-- `mulh` (R171). -/
def intMulh (t : Ty) (a b : Nat) : Nat := fin t (Int.fdiv (intVal t a * intVal t b) (2 ^ t.width)) false
/-- `min` (R171). -/
def intMin (t : Ty) (a b : Nat) : Nat := if intVal t a ≤ intVal t b then a else b
/-- `max` (R171). -/
def intMax (t : Ty) (a b : Nat) : Nat := if intVal t a ≥ intVal t b then a else b
/-- `abs` (R171). -/
def intAbs (t : Ty) (md : BitVec 11) (a : Nat) : Nat := fin t (intVal t a).natAbs (mdSAT md)

/-- `sdiv` (R172). -/
def intDiv (t : Ty) (a b : Nat) : Nat :=
  if intVal t b = 0 then 2 ^ t.width - 1
  else if t.isSigned ∧ intVal t a = loOf t ∧ intVal t b = -1 then a
  else fin t (Int.tdiv (intVal t a) (intVal t b)) false
/-- `srem` (R172). -/
def intRem (t : Ty) (a b : Nat) : Nat :=
  if intVal t b = 0 then a
  else if t.isSigned ∧ intVal t a = loOf t ∧ intVal t b = -1 then 0
  else fin t (Int.tmod (intVal t a) (intVal t b)) false

/-- `shl` (R173). -/
def bitShl (w a c : Nat) : Nat := if c ≥ w then 0 else a * 2 ^ c % 2 ^ w
/-- `shr` (R173). -/
def bitShr (w a c : Nat) : Nat := if c ≥ w then 0 else a / 2 ^ c
/-- `sar` (R173). -/
def bitSar (w a c : Nat) : Nat :=
  let neg := a ≥ 2 ^ (w - 1)
  if c ≥ w then (if neg then 2 ^ w - 1 else 0)
  else if neg then a / 2 ^ c + (2 ^ w - 2 ^ (w - c)) else a / 2 ^ c
/-- `rot` (R173). -/
def bitRot (w a c : Nat) : Nat :=
  let k := c % w
  a * 2 ^ k % 2 ^ w + a / 2 ^ (w - k)
/-- `vfunnel` (R173). -/
def bitFunnel (w a b c : Nat) : Nat := (a * 2 ^ w + b) / 2 ^ (c % w) % 2 ^ w
/-- `vandn` (R173). -/
def bitAndn (w a b : Nat) : Nat := a &&& (2 ^ w - 1 - b)

/-- The conditions of R174. -/
def intTest (t : Ty) (sub a b : Nat) : Bool :=
  match sub with
  | 0 => a = b
  | 1 => a ≠ b
  | 2 => intVal t a < intVal t b
  | 3 => intVal t a ≤ intVal t b
  | 4 => intVal t a > intVal t b
  | 5 => intVal t a ≥ intVal t b
  | 6 => a &&& b ≠ 0
  | _ => a &&& b = 0

/-- The bits of a test as a number: bit `i` for each `i` below `n`. -/
def natBits (n : Nat) (f : Nat → Bool) : Nat := (bitsOf f n).toNat
/-- Bit `i` of a number. -/
def bitAt (a i : Nat) : Bool := a.testBit i

/-- `clz` (R178). -/
def bitClz (w a : Nat) : Nat := w - bitLen a
/-- `vctz` (R178). -/
def bitCtz (w a : Nat) : Nat := lowest (BitVec.ofNat w a)
/-- `popc` (R178). -/
def bitPopc (w a : Nat) : Nat := popcount (BitVec.ofNat w a)
/-- `vbrev` (R178). -/
def bitBrev (w a : Nat) : Nat := natBits w fun i => bitAt a (w - 1 - i)
/-- `vbswap` (R178). -/
def bitBswap (w a : Nat) : Nat := natBits w fun i => bitAt a (w - 8 - i / 8 * 8 + i % 8)

/-- `bit` of R179. -/
def fieldBit (t : Ty) (a i : Nat) : Bool :=
  if i < t.width then bitAt a i else t.isSigned && bitAt a (t.width - 1)
/-- `bfx` (R179): position in bits [7:0] of the descriptor, length in [15:8]. -/
def bitBfx (t : Ty) (a d : Nat) : Nat :=
  let p := d % 256
  let n := min (d / 256 % 256) t.width
  natBits t.width fun i =>
    if i < n then fieldBit t a (p + i) else t.isSigned && n > 0 && fieldBit t a (p + (n - 1))
/-- `bfi` (R179). -/
def bitBfi (t : Ty) (a d c : Nat) : Nat :=
  let p := d % 256
  let n := min (d / 256 % 256) t.width
  natBits t.width fun i => if p ≤ i ∧ i < p + n then bitAt c (i - p) else bitAt a i

/-- `vbitil` with stride 2 or 3 (R180). -/
def bitInterleave (w k a b c : Nat) : Nat :=
  natBits w fun i => bitAt (if i % k = 0 then a else if i % k = 1 then b else c) (i / k)
/-- `vbitdl`: stride and field of an `FN` value (R180). -/
def bitGather (w fn a : Nat) : Nat :=
  let k := if fn < 2 then 2 else 3
  let j := if fn < 2 then fn else fn - 2
  natBits w fun i => decide (k * i + j < w) && bitAt a (k * i + j)

/-- The 128-bit carry-less product (R181); the bits of B below `n` are done. -/
def clmulUpTo (a b : Nat) : Nat → Nat
  | 0 => 0
  | n + 1 => if bitAt b n then clmulUpTo a b n ^^^ (a * 2 ^ n) else clmulUpTo a b n
/-- `vclmul`: the low half, or with `FN` 1 the high half (R181). -/
def bitClmul (fn a b : Nat) : Nat := if fn = 1 then clmulUpTo a b 64 / 2 ^ 64 else clmulUpTo a b 64 % 2 ^ 64

/-- Byte `k` of a number. -/
def byteAt (a k : Nat) : Nat := a / 2 ^ (8 * k) % 256
/-- `vperm` of an index word and a 16-byte table (R182). -/
def bytePerm (z : Bool) (a table : Nat) : Nat :=
  let one := fun k => if z ∧ byteAt a k ≥ 128 then 0 else byteAt table (byteAt a k % 16)
  one 0 + 256 * one 1 + 65536 * one 2 + 16777216 * one 3

/-- `vdot4` (R183). -/
def intDot4 (t : Ty) (md : BitVec 11) (a b c : Nat) : Nat :=
  let t32 := if t = .i8 then Ty.i32 else .n32
  let p := fun k => intVal t (byteAt a k) * intVal t (byteAt b k)
  fin t32 (intVal t32 c + p 0 + p 1 + p 2 + p 3) (mdSAT md)

/-- `vaddc`: sum or, with `FN` 1, difference with a carry in, and the carry out (R184). -/
def intAddc (w fn a b : Nat) (cin : Bool) : Nat × Bool :=
  if fn = 1 then
    ((a + 2 * 2 ^ w - b - cin.toNat) % 2 ^ w, a < b + cin.toNat)
  else ((a + b + cin.toNat) % 2 ^ w, a + b + cin.toNat ≥ 2 ^ w)

end Sys2Proof.Machine
end

