-- ==== Sys2Proof/Machine/Memory.lean ====
section
/-! DEFINITION. Byte memories in their canonical form, the die caches and L1s in front of global memory, and the actions of acquires and releases on them. -/

namespace Sys2Proof.Machine

/-! ## Byte memories

A byte memory lists strictly rising addresses with the bytes that are not zero. A byte that it does not list reads as zero (R241, log 9). -/

/-- Every listed address is above `a`, rising, and no listed byte is zero. -/
def Memory.above : Nat → List Host.Cell → Bool
  | _, [] => true
  | a, c :: cs => decide (a ≤ c.1) && decide (c.2 ≠ 0#8) && Memory.above (c.1 + 1) cs

/-- The canonical form of a byte memory. -/
def Memory.wf (m : List Host.Cell) : Bool := Memory.above 0 m

/-- The byte at an address. [log 9: DESIGN CHOICE, unsafe] -/
def memGet : List Host.Cell → Nat → Byte
  | [], _ => 0#8
  | c :: cs, a => if a < c.1 then 0#8 else if a = c.1 then c.2 else memGet cs a

/-- The memory with one byte written. -/
def memPut : List Host.Cell → Nat → Byte → List Host.Cell
  | [], a, b => if b = 0#8 then [] else [(a, b)]
  | c :: cs, a, b =>
    if a < c.1 then (if b = 0#8 then c :: cs else (a, b) :: c :: cs)
    else if a = c.1 then (if b = 0#8 then cs else (a, b) :: cs)
    else c :: memPut cs a b

/-- The number that `n` bytes from address `a` hold, lowest byte first (R5). -/
def memNat (m : List Host.Cell) (a : Nat) : Nat → Nat
  | 0 => 0
  | n + 1 => (memGet m a).toNat + 256 * memNat m (a + 1) n

/-- The bytes from address `a`. -/
def memBytes (m : List Host.Cell) (a n : Nat) : List Byte := (List.range n).map fun i => memGet m (a + i)

/-- The memory with a list of bytes written from address `a`. -/
def memPutBytes (m : List Host.Cell) (a : Nat) : List Byte → List Host.Cell
  | [] => m
  | b :: bs => memPutBytes (memPut m a b) (a + 1) bs

/-- The bytes of a number, lowest first. -/
def bytesOf (v : Nat) : Nat → List Byte
  | 0 => []
  | n + 1 => BitVec.ofNat 8 v :: bytesOf (v / 256) n

/-- The number of a list of bytes, lowest first. -/
def natOf : List Byte → Nat
  | [] => 0
  | b :: bs => b.toNat + 256 * natOf bs

/-! ## Sectors -/

/-- The 128 bytes of sector `k` of a memory. -/
def sectorOf (m : List Host.Cell) (k : Nat) : BitVec 1024 := BitVec.ofNat 1024 (memNat m (128 * k) 128)

/-- Byte `i` of a sector. -/
def byteOf (d : BitVec 1024) (i : Nat) : Byte := d.extractLsb' (8 * i) 8

/-- The lowest `n` bytes of a byte mask as bits, as a number. -/
def spreadBytes (mask : BitVec 128) : Nat → Nat
  | 0 => 0
  | n + 1 => spreadBytes mask n + if mask.getLsbD n then 255 * 256 ^ n else 0

/-- A byte mask as a bit mask. -/
def spread (mask : BitVec 128) : BitVec 1024 := BitVec.ofNat 1024 (spreadBytes mask 128)

/-- A sector with the bytes of a mask replaced. -/
def mergeSector (old new : BitVec 1024) (mask : BitVec 128) : BitVec 1024 :=
  (old &&& ~~~ spread mask) ||| (new &&& spread mask)

/-- The memory with the masked bytes of a sector written; the first `n` bytes are done. -/
def memPutMasked (m : List Host.Cell) (base : Nat) (mask : BitVec 128) (d : BitVec 1024) : Nat → List Host.Cell
  | 0 => m
  | n + 1 =>
    let m' := memPutMasked m base mask d n
    if mask.getLsbD n then memPut m' (base + n) (byteOf d n) else m'

/-- The mask of `n` bytes from byte `i` of a sector. -/
def byteRun (i n : Nat) : BitVec 128 := BitVec.ofNat 128 ((2 ^ n - 1) * 2 ^ i)

/-- Remove a number from a rising list. -/
def dropNat (n : Nat) (l : List Nat) : List Nat := l.filter fun x => x ≠ n

/-- Poison of a sector after a write of some of its bytes (R260): set when the write brings poison, cleared when it covers the sector. [log 10: DESIGN CHOICE, unsafe] -/
def poisonAfter (l : List Nat) (k : Nat) (mask : BitVec 128) (brings : Bool) : List Nat :=
  if brings then insertNat k l else if mask = BitVec.allOnes 128 then dropNat k l else l

/-- Merge a write at the memory side (R242, R260). [log 10: DESIGN CHOICE, unsafe] -/
def State.sideMerge (s : State) (k : Nat) (mask : BitVec 128) (d : BitVec 1024) (brings : Bool) : State :=
  { s with
    mem := memPutMasked s.mem (128 * k) mask d 128
    memPoison := poisonAfter s.memPoison k mask brings }

/-- Write clean bytes at the memory side from place `a`: the sectors that they cover lose their poison (R260). -/
def State.sideBytes (s : State) (a : Nat) (bs : List Byte) : State :=
  { s with
    mem := memPutBytes s.mem a bs
    memPoison := s.memPoison.filter fun k => ¬ (a ≤ 128 * k ∧ 128 * k + 128 ≤ a + bs.length) }

/-! ## The die cache (R243 to R245) -/

/-- A sector of a die's cache. -/
def Die.sector? (d : Die) (k : Nat) : Option Sector := d.cache.find? fun x => x.key = k

/-- Stale: of a shared page, and filled under another generation (R244). -/
def Die.stale (d : Die) (x : Sector) : Bool := x.shared && (x.wrapped || x.gen != d.gen)

/-- Replace a sector. -/
def Die.setSector (d : Die) (x : Sector) : Die := { d with cache := upsert (fun y => y.key = x.key) x d.cache }

/-- Write back the dirty bytes of a sector of a die, which stays valid and clean (R245). [log 49: DEDUCED, unsafe] -/
def State.writeBack (s : State) (die k : Nat) : State :=
  match (s.die die).sector? k with
  | none => s
  | some x =>
    if x.dirty = 0#128 then s
    else
      (s.sideMerge k x.dirty x.data x.carried).modDie die fun d =>
        d.setSector { x with dirty := 0#128, poison := x.poison || x.carried, carried := false }

/-- Write back every dirty sector of a die (R245; log 5). [log 5: DESIGN CHOICE, unsafe] -/
def State.writeBackAll (s : State) (die : Nat) : State :=
  ((s.die die).cache.map (·.key)).foldl (fun s k => s.writeBack die k) s

/-- Discard a die's copy of a sector, its dirty bytes written back. -/
def State.evict (s : State) (die k : Nat) : State :=
  (s.writeBack die k).modDie die fun d => { d with cache := d.cache.filter fun x => x.key ≠ k }

/-- Write back and discard every sector of a die's cache. -/
def State.evictAll (s : State) (die : Nat) : State :=
  (s.writeBackAll die).modDie die fun d => { d with cache := [] }

/-- A sector filled from the memory side; an old copy keeps the bytes of a mask (R243, R244). -/
def filled (s : State) (gen : BitVec 16) (k : Nat) (shared : Bool) (old : Option Sector) (keep : BitVec 128) : Sector :=
  let p := s.memPoison.contains k
  match old with
  | none =>
    { key := k, data := sectorOf s.mem k, dirty := 0#128, have_ := BitVec.allOnes 128, gen, wrapped := false
      poison := p, carried := false, shared }
  | some x =>
    { x with
      data := mergeSector (sectorOf s.mem k) x.data keep
      have_ := BitVec.allOnes 128, gen, wrapped := false
      poison := p && keep != BitVec.allOnes 128, shared }

/-- The bytes of a copy that a read may take and that a fill keeps: of a stale copy those that are still to be written back, else all that it holds (R243, R244). [log 49: DEDUCED, unsafe] -/
def Die.holds (d : Die) (x : Sector) : BitVec 128 := x.dirty ||| (if d.stale x then 0#128 else x.have_)

/-- Read bytes of a sector through a die's cache: the state with its fill, the sector's data and its poison bit (R243, R244). [log 49: DEDUCED, unsafe] -/
def State.dieRead (s : State) (die k : Nat) (shared : Bool) (need : BitVec 128) : State × BitVec 1024 × Bool :=
  let d := s.die die
  let fill := fun old keep =>
    let x := filled s d.gen k shared old keep
    (s.modDie die fun d => d.setSector x, x.data, x.poison || x.carried)
  match d.sector? k with
  | none => fill none 0#128
  | some x =>
    let x := { x with shared := shared }
    if need &&& ~~~d.holds x = 0#128 then (s, x.data, x.poison || x.carried) else fill (some x) (d.holds x)

/-- Write bytes of a sector into a die's cache, without a fill (R243). -/
def State.dieWrite (s : State) (die k : Nat) (shared : Bool) (mask : BitVec 128) (v : BitVec 1024) (brings : Bool) :
    State :=
  s.modDie die fun d =>
    match d.sector? k with
    | none =>
      d.setSector
        { key := k, data := mergeSector 0#1024 v mask, dirty := mask, have_ := mask, gen := d.gen, wrapped := false
          poison := false, carried := brings, shared }
    | some x =>
      let dirty := x.dirty ||| mask
      let all := mask = BitVec.allOnes 128
      d.setSector
        { x with
          data := mergeSector x.data v mask, dirty, have_ := x.have_ ||| mask, shared
          poison := x.poison && dirty != BitVec.allOnes 128
          carried := brings || (x.carried && !all) }

/-- Advance a die's acquire generation (R244). -/
def Die.advance (d : Die) : Die :=
  let g := d.gen + 1#16
  { d with gen := g
           cache := if g = 0#16 then d.cache.map fun x => if x.shared then { x with wrapped := true } else x else d.cache }

/-- A byte as a die's accesses below device scope see it: the copy's where the copy may serve it, the memory side's otherwise. -/
def State.dieByte (s : State) (die a : Nat) : Byte :=
  let d := s.die die
  match d.sector? (a / 128) with
  | none => memGet s.mem a
  | some x =>
    if (d.holds x).getLsbD (a % 128) then byteOf x.data (a % 128)
    else memGet s.mem a

/-! ## L1 (R249) -/

/-- An entry whose fill serves no further load. -/
def Miss.close (m : Miss) : Miss := { m with open_ := false, loads := [] }

/-- No later load joins a fill of a line of a core. -/
def State.l1Close (s : State) (core k : Nat) : State :=
  if (s.core core).misses.any fun m => m.key = k then
    s.modCore core fun c => { c with misses := replaceIf (fun m => m.key = k) Miss.close c.misses }
  else s

/-- Update the L1 line of a core that holds written bytes; no later load joins an earlier fill of the line. -/
def State.l1Update (s : State) (core k : Nat) (mask : BitVec 128) (v : BitVec 1024) : State :=
  let s := s.l1Close core k
  if (s.core core).l1.any fun x => x.key = k then
    s.modCore core fun c =>
      { c with l1 := replaceIf (fun x => x.key = k) (fun x => { x with data := mergeSector x.data v mask }) c.l1 }
  else s

/-- Discard the L1 line of a core. -/
def State.l1Drop (s : State) (core k : Nat) : State :=
  if (s.core core).l1.any fun x => x.key = k then
    s.modCore core fun c => { c with l1 := c.l1.filter fun x => x.key ≠ k }
  else s

/-- Invalidate every line of a core's L1; no later load joins a fill that began before (R305). -/
def State.l1Clear (s : State) (core : Nat) : State :=
  s.modCore core fun c => { c with l1 := [], misses := c.misses.map Miss.close }

/-- Miss-status entries of a core (R381). -/
def missEntries : Nat := 256

/-- A load of a unit shares the fill of a miss-status entry: it is one of the entry's loads, or the entry is open, not 32 clocks old, and was opened by a load of another unit (R250, R390). -/
def Miss.shares (m : Miss) (k : Nat) (who : Option Issuer) (tick step : Nat) : Bool :=
  m.key == k && (m.loads.contains (who, step) ||
    (m.open_ && !clocksPassed m.opened tick 32 && (m.loads.head?).any fun p => p.1 != who))

/-- A load joins the fill of an entry of its line, which counts once for the load (R250, R431). -/
def State.l1Join (s : State) (core : Nat) (m : Miss) (who : Option Issuer) : State :=
  if m.loads.contains (who, s.free) then s
  else
    (countPerf core 0x05 1 (countPerf core 0x04 1 s)).modCore core fun c =>
      { c with misses := replaceIf (fun x => x = m) (fun x => { x with loads := x.loads ++ [(who, s.free)] }) c.misses }

/-- A load that no entry serves opens one with the line that its fill brings; where the entries are full the request has waited for one (R304, R390, R431). -/
def State.l1Miss (s : State) (core k : Nat) (who : Option Issuer) (data : BitVec 1024) (poison : Bool) : State :=
  (countPerf core 0x04 1 s).modCore core fun c =>
    let ms := c.misses.filter fun m => m.key ≠ k
    { c with misses := if ms.length < missEntries then ms ++ [⟨k, s.tick, true, [(who, s.free)], data, poison⟩] else ms }

/-! ## Global accesses -/

/-- What a physical address names (R239). -/
inductive Region where
  | global
  | scratch
  | host
  | unpopulated
  deriving DecidableEq, Repr, Inhabited

/-- First address of the die-scratch range. -/
def scratchBase : Nat := 0x10000000000

/-- The range of a physical address (R239). -/
def regionOf (pa : Nat) : Region :=
  if pa < 0xC000000000 then .global
  else if scratchBase ≤ pa ∧ pa < scratchBase + 0xF000000 then .scratch
  else if 2 ^ 51 ≤ pa ∧ pa < 2 ^ 52 then .host
  else .unpopulated

/-- Memory chiplet of a global address (R240). -/
def chipOf (pa : Nat) : Nat :=
  let g := BitVec.ofNat 43 (pa / 512)
  let fold := g.extractLsb' 8 2 ^^^ g.extractLsb' 16 2 ^^^ g.extractLsb' 24 2
  4 * ((pa / 2048) % 3) + (g.extractLsb' 0 2 ^^^ fold).toNat

/-- Byte address of a global address within its chiplet (R240). -/
def chipLocal (pa : Nat) : Nat := pa / 2048 / 3 * 512 + pa % 512

/-- Bytes of die scratch that a way mask gives (R246). -/
def scratchSize (way : BitVec 16) : Nat := popcount way * 0x1000000

/-- A byte of global, host or remote memory by its place: the physical address, above it the module that holds the frame (0 this module, peer + 1 another). [log 9: DESIGN CHOICE, unsafe; 22: DESIGN CHOICE, unsafe] -/
def keyOf (peer : Option Nat) (pa : Nat) : Nat :=
  match peer with
  | none => pa
  | some p => pa + 2 ^ 52 * (p + 1)

/-- Where an access lands and how it is made (R263, R265, R384). -/
structure Access where
  /-- unit whose instruction makes it, none for an agent of the device -/
  who : Option Issuer
  die : Nat
  /-- core whose L1 the access may use -/
  core : Option Nat
  /-- peer of the page's class -/
  peer : Option Nat
  pa : Nat
  size : Nat
  shared : Bool
  cp : BitVec 2
  strong : Bool
  /-- device scope or wider -/
  wide : Bool
  hint : BitVec 2
  deriving DecidableEq, Repr, Inhabited

/-- The place of the access's first byte. -/
def Access.key (a : Access) : Nat := keyOf a.peer a.pa
/-- The access's bytes within its sector. -/
def Access.mask (a : Access) : BitVec 128 := byteRun (a.pa % 128) a.size
/-- The number that the access's bytes hold in a sector. -/
def Access.take (a : Access) (d : BitVec 1024) : Nat := (d.toNat / 2 ^ (8 * (a.pa % 128))) % 2 ^ (8 * a.size)
/-- A number laid at the access's bytes of a sector. -/
def Access.lay (a : Access) (v : Nat) : BitVec 1024 := BitVec.ofNat 1024 (v * 2 ^ (8 * (a.pa % 128)))
/-- Resolves at the memory side and at no cache: strong at device scope or wider, strong at any scope to host memory, or of a page of memory-side policy (R267, R294, R384). -/
def Access.aside (a : Access) : Bool :=
  (a.strong && (a.wide || (a.peer.isNone && decide (regionOf a.pa = .host)))) || a.cp == 2#2

/-- Read the bytes of an access, which lie in one sector: the state with its fills, the number read and the sector's poison bit (R249, R306). A read that resolves at the memory side leaves no older copy in the die (R277). The fill of an L1 line reads all 128 bytes through the die's cache, so that it may fill the sector there and bring its poison (log 59). Accesses to another module are not cached here (log 16). [log 4: DESIGN CHOICE, unsafe; 16: DEDUCED, unsafe; 59: DEDUCED, unsafe] -/
def State.read (s : State) (a : Access) : State × Nat × Bool :=
  if a.peer.isSome then
    (s, a.take (sectorOf s.mem (a.key / 128)), s.memPoison.contains (a.key / 128))
  else
    match regionOf a.pa with
    | .scratch =>
      let o := a.pa - scratchBase
      (s, memNat (s.die a.die).scratch o a.size, (s.die a.die).scratchPoison.contains (o / 128))
    | _ =>
      let k := a.key / 128
      if a.aside then
        let s := s.evict a.die k
        (s, a.take (sectorOf s.mem k), s.memPoison.contains k)
      else
        match (if a.strong || a.cp != 0#2 || a.hint == 2#2 then none else a.core) with
        | none =>
          let (s, d, p) := s.dieRead a.die k a.shared a.mask
          (s, a.take d, p)
        | some c =>
          match (s.core c).l1.find? fun x => x.key = k with
          | some x => (s, a.take x.data, false)
          | none =>
            match (s.core c).misses.find? fun m => m.shares k a.who s.tick s.free with
            | some m => (s.l1Join c m a.who, a.take m.data, m.poison)
            | none =>
              let (s, d, p) := s.dieRead a.die k a.shared (BitVec.allOnes 128)
              let s := s.l1Miss c k a.who d p
              (if p then s else s.modCore c fun u => { u with l1 := ⟨k, d⟩ :: u.l1 }, a.take d, p)

/-- Write bytes of one sector of this module: `a` names the sector and the kind, `mask` and `v` the bytes, `brings` whether they bring poison (R249, R260, R307). [log 4: DESIGN CHOICE, unsafe; 16: DEDUCED, unsafe] -/
def State.write (s : State) (a : Access) (mask : BitVec 128) (v : BitVec 1024) (brings : Bool) : State :=
  match regionOf a.pa with
  | .scratch =>
    let k := (a.pa - scratchBase) / 128
    s.modDie a.die fun d =>
      { d with scratch := memPutMasked d.scratch (128 * k) mask v 128
               scratchPoison := poisonAfter d.scratchPoison k mask brings }
  | _ =>
    let k := a.key / 128
    if a.cp = 2#2 then
      let s := (s.evict a.die k).sideMerge k mask v brings
      match a.core with
      | some c => (s.l1Close c k).l1Drop c k
      | none => s
    else
      let s := s.dieWrite a.die k a.shared mask v brings
      let s := if a.aside then s.writeBack a.die k else s
      match a.core with
      | some c => if brings then (s.l1Close c k).l1Drop c k else s.l1Update c k mask v
      | none => s

/-- Make the memory side current in a sector for an operation performed there, and drop the copies of the unit's own die and core (R242, R269, R310). -/
def State.expose (s : State) (a : Access) : State :=
  if a.peer.isSome ∨ regionOf a.pa = .scratch then s
  else
    let k := a.key / 128
    let s := s.evict a.die k
    match a.core with
    | some c => (s.l1Close c k).l1Drop c k
    | none => s

/-! ## Acquire and release (R270, R271) -/

/-- Ensemble scope or wider. -/
def scopeEns (sc : BitVec 3) : Bool := 1#3 ≤ sc
/-- Device scope or wider. -/
def scopeDev (sc : BitVec 3) : Bool := 3#3 ≤ sc
/-- Domain or system scope. -/
def scopeDom (sc : BitVec 3) : Bool := 4#3 ≤ sc

/-- Mark the stash for refill: no sector counts as filled, and the written bytes stay (R253). -/
def Team.unfill (x : Team) : Team := { x with sectors := x.sectors.map fun y => { y with filled := false } }

/-- The cache actions of an acquire at a scope by a unit of a core and die (R270). -/
def State.acquire (s : State) (team core : Option Nat) (die : Nat) (sc : BitVec 3) : State :=
  let s := if scopeEns sc then
      let s := match core with
        | some c => s.l1Clear c
        | none => s
      match team with
      | some t => s.modTeam t Team.unfill
      | none => s
    else s
  if scopeDev sc then s.modDie die Die.advance else s

end Sys2Proof.Machine
end

