-- ==== Sys2Proof/Machine/Traffic.lean ====
section
/-! DEFINITION. The packets of the machine's traffic: their queues, their stamps, and the routes of the colour router that carry them (R18 to R23, R91, R92, R410 to R412, R506). -/

namespace Sys2Proof.Machine

/-! ## Request packets (R18, R21, R91, R92, R410, R412)

A request is performed at its issue (log 4); its packet shows the time that it and its reply spend in queues. A queue is numbered by its router port and unit as R506 numbers them, and below a router by its kind and the other end. -/

/-- The queue of a unit of a router port (R506). -/
def unitQueue (port u : Nat) : Nat := 64 * port + u
/-- The transmit queue of endpoint `i` toward `j`, which is also the forwarding queue of a relay `i` for the pairs that it carries toward `j`: one arbiter serves both (R18, R21). [log 18: DESIGN CHOICE, unsafe] -/
def transmitQueue (i j : Nat) : Nat := unitQueue i 0 + 2048 * (1 + j)
/-- The ingress queue of a pair, at its receiver. [log 18: DESIGN CHOICE, unsafe] -/
def ingressQueue (i j : Nat) : Nat := unitQueue j 0 + 2048 * (32 + i)
/-- The die-cache slice of a line (log 18). [log 18: DESIGN CHOICE, unsafe] -/
def sliceQueue (die key : Nat) : Nat := unitQueue die (8 + key / 4 % 32)

/-- The queues of a request to another endpoint and of its reply. -/
def roundTrip (i j : Nat) (at_ : List Nat) : List Nat :=
  if i = j then at_ else transmitQueue i j :: ingressQueue i j :: at_ ++ [transmitQueue j i, ingressQueue j i]

/-- The endpoint of a memory chiplet. -/
def chipPort (chip : Nat) : Nat := 9 + chip
/-- The endpoint of the I/O die through which other modules and the host are reached (log 18). [log 18: DESIGN CHOICE, unsafe] -/
def ioPort : Nat := 21

/-- The queue of an L3 TLB bank. -/
def tlbQueue (n : Nat) : Nat := unitQueue (chipPort n) 2
/-- The queue of a chiplet's memory-side controller. -/
def sideQueue (n : Nat) : Nat := unitQueue (chipPort n) 1
/-- The queue of a die's distributor. -/
def distributorQueue (die : Nat) : Nat := unitQueue die 1
/-- The queue of a sequencer, which holds the steal requests that it answers. -/
def seqQueue (n : Nat) : Nat := unitQueue (n / 6) (2 + n % 6)

/-- Number of a router port's distributor, chiplet or I/O die as a unit with a tick of its own (R409). -/
def unitOfPort (port : Nat) : Nat := 2646 + port

/-- The unit of R413 that holds a queue, as R506 numbers it. -/
def unitOfQueue (q : Nat) : Nat := q % 2048

/-- The unit whose tick a queue goes by (R409, R410): a sequencer, or the port's own. -/
def tickUnitOf (q : Nat) : Nat :=
  let port := unitOfQueue q / 64
  let u := unitOfQueue q % 64
  if port ≤ 8 ∧ 2 ≤ u ∧ u ≤ 7 then unitOfSeq (6 * port + (u - 2)) else unitOfPort port

/-- The tick of the unit that holds a queue. -/
def State.queueTick (s : State) (q : Nat) : Nat := (s.tickOf (tickUnitOf q)).toNat

/-- A packet, whose reply a result may wait for, and which may go to another module, enters the first queue of its path. -/
def State.sendFor (s : State) (st : Stamp) (reply : Option (Issuer × Nat)) (away : Option Nat) (path : List Nat) : State :=
  match path with
  | [] => s
  | q :: qs =>
    let p : Packet := ⟨s.ids, q, st.slack, s.queueTick q, false, st, qs, none, reply, none, away⟩
    { s.bump with packets := s.packets ++ [p] }

/-- A packet that no result waits for enters the first queue of its path. -/
def State.send (s : State) (st : Stamp) (path : List Nat) : State := s.sendFor st none none path

/-- Slack of a code other than 0 (R91). -/
def slackOfCode (c : BitVec 6) : Nat := min ((4 + c.toNat % 4) * 2 ^ (c.toNat / 4)) 4095

/-- The stamp of an instruction's requests (R92). -/
def State.stampOf (s : State) (x : Exec) : Stamp :=
  let default_ := match x.u with
    | .gang t _ => ((s.team? t).map (·.slack.toNat)).getD 4095
    | .seq n => (s.seq n).slack.toNat
  { slack := if x.w.sc.slk = 0#6 then default_ else slackOfCode x.w.sc.slk
    xs := x.w.sc.xs, cluster := x.cluster, core := if x.seq then none else some x.core, pc := x.pc, port := x.die }

/-- The master's port, from the term word (R450). -/
def State.masterPort (s : State) : Nat := (s.termWord.extractLsb' 0 8).toNat

/-- The stamp of packets that a unit of the device creates on its own behalf (R412). -/
def ownStamp (port : Nat) : Stamp := ⟨4095, false, 0, none, 0#56, port⟩

/-- The queues of what one endpoint sends to another without a reply. -/
def oneWay (i j : Nat) (at_ : List Nat) : List Nat := if i = j then at_ else transmitQueue i j :: ingressQueue i j :: at_

/-! ## Held pairs (R20 to R23) -/

/-- The route of a pair carries nothing: neither rail is up and no relay is named, or a leg to the relay is down (R20, R21, R23). -/
def State.routeDown (s : State) (i j : Nat) : Bool :=
  let up := fun (a b : Nat) => (s.pair a b).rail0 || (s.pair a b).rail1
  let p := s.pair i j
  if p.rlyen then !(up i p.relay.toNat && up p.relay.toNat j) else !up i j

/-- The sender holds the traffic of a pair: a route change waits, or the route carries nothing (R22, R23). What stays on one endpoint passes no pair. -/
def State.pairHeld (s : State) (i j : Nat) : Bool := i != j && ((s.pair i j).next.isSome || s.routeDown i j)

end Sys2Proof.Machine
end

