-- ==== Sys2Proof/Machine/Translate.lean ====
section
/-! DEFINITION. Address translation through the TLBs and the page tables, and the fetch of an instruction word. -/

namespace Sys2Proof.Machine

/-- The outcome of a lookup before the checks of an access (R385). -/
inductive Look where
  /-- a leaf translation -/
  | leaf (l : Leaf)
  /-- no valid translation -/
  | absent
  /-- a page-table entry in a poisoned sector -/
  | poisoned
  /-- a malformed entry -/
  | malformed
  deriving DecidableEq, Repr, Inhabited

/-- Whether a leaf translates a virtual address. -/
def Leaf.covers (l : Leaf) (va : Nat) : Bool := l.base ≤ va ∧ va < l.base + 2 ^ l.bits

/-- Physical address of a virtual address under a leaf. -/
def Leaf.pa (l : Leaf) (va : Nat) : Nat := l.frame + (va - l.base)

/-- The entry of a TLB for an address of a context (R386). -/
def tlbFind (tlb : List TlbEntry) (ctx va : Nat) : Option Leaf :=
  (tlb.find? fun e => e.ctx = ctx ∧ e.leaf.covers va).map (·.leaf)

/-- Bits of the page that a leaf at a level maps (R383). -/
def pageBits (level : Nat) : Nat := 16 + 10 * (level - 1)

/-- What an entry at a level gives (R384, R385): an outcome, or the next table. [log 21: DEDUCED, unsafe] -/
def readEntry (level va : Nat) (e : W64) (poisoned : Bool) : Look ⊕ Nat :=
  let bits := pageBits level
  let leaf := e.getLsbD 1
  let frame := (e.extractLsb' 13 39).toNat * 8192
  if ¬ e.getLsbD 0 then .inl .absent
  else if poisoned then .inl .poisoned
  else if e.extractLsb' 52 12 ≠ 0#12 ∨ e.getLsbD 12 ∨ e.extractLsb' 10 2 = 3#2 ∨ (leaf ∧ level = 4) ∨
      (¬ leaf ∧ level = 1) ∨ (leaf ∧ frame % 2 ^ bits ≠ 0) then .inl .malformed
  else if leaf then
    .inl (.leaf { bits, base := va / 2 ^ bits * 2 ^ bits, frame, cp := e.extractLsb' 10 2, cc := e.extractLsb' 6 4
                  vis := e.getLsbD 5, xwr := e.extractLsb' 2 3 })
  else .inr frame

/-- The walk from a table of a level (R385). Entries are read at the memory side. -/
def walkFrom (s : State) (va : Nat) : (level table : Nat) → Look
  | 0, _ => .malformed
  | l + 1, table =>
    let pa := table + 8 * (va / 2 ^ pageBits (l + 1) % 1024)
    match readEntry (l + 1) va (BitVec.ofNat 64 (memNat s.mem pa 8)) (s.memPoison.contains (pa / 128)) with
    | .inl r => r
    | .inr next => walkFrom s va l next

/-- The walk of a context's page tables (R382, R385). [log 21: DEDUCED, unsafe] -/
def walk (s : State) (ctx va : Nat) : Look :=
  match s.ctx? ctx with
  | none => .absent
  | some c =>
    if c.root.getLsbD 0 then walkFrom s va 4 ((c.root.extractLsb' 13 39).toNat * 8192) else .absent

/-- A lookup at the L3 bank of the address, then the walk (R385, R386). -/
def State.lookChip (s : State) (ctx va : Nat) : State × Look :=
  let n := va / 65536 % 12
  match tlbFind (s.chip n).tlb ctx va with
  | some l => (s, .leaf l)
  | none =>
    match walk s ctx va with
    | .leaf l => (s.modChip n fun c => { c with tlb := ⟨ctx, l⟩ :: c.tlb }, .leaf l)
    | r => (s, r)

/-- A lookup at the L2 of a cluster (R386). -/
def State.lookCluster (s : State) (cluster ctx va : Nat) : State × Look :=
  match tlbFind (s.seq cluster).tlb ctx va with
  | some l => (s, .leaf l)
  | none =>
    match s.lookChip ctx va with
    | (s, .leaf l) => (s.modSeq cluster fun q => { q with tlb := ⟨ctx, l⟩ :: q.tlb }, .leaf l)
    | r => r

/-- A lookup at the L1 of a core (R386). -/
def State.lookCore (s : State) (core ctx va : Nat) : State × Look :=
  match tlbFind (s.core core).tlb ctx va with
  | some l => (s, .leaf l)
  | none =>
    match s.lookCluster (clusterOf core) ctx va with
    | (s, .leaf l) => (s.modCore core fun c => { c with tlb := ⟨ctx, l⟩ :: c.tlb }, .leaf l)
    | r => r

/-- Addresses of the entries that a walk reads from the table of a level on (R385). -/
def walkReadsFrom (s : State) (va : Nat) : (level table : Nat) → List Nat
  | 0, _ => []
  | l + 1, table =>
    let pa := table + 8 * (va / 2 ^ pageBits (l + 1) % 1024)
    match readEntry (l + 1) va (BitVec.ofNat 64 (memNat s.mem pa 8)) (s.memPoison.contains (pa / 128)) with
    | .inl _ => [pa]
    | .inr next => pa :: walkReadsFrom s va l next

/-- Addresses of the entries that the walk of a context's page tables reads. -/
def walkReads (s : State) (ctx va : Nat) : List Nat :=
  ((s.ctx? ctx).map fun c => if c.root.getLsbD 0 then walkReadsFrom s va 4 ((c.root.extractLsb' 13 39).toNat * 8192) else []).getD []

/-- The packets of a lookup that the unit's own levels miss: the request to the L3 bank of the address, and where the bank misses too the walk's reads at the memory side, all with the slack of the request (R385, R386, R410, R412). [log 18: DESIGN CHOICE, unsafe] -/
def State.sendWalk (s : State) (x : Exec) (va : Nat) : State :=
  if (!x.seq && (tlbFind (s.core x.core).tlb x.ctx va).isSome) || (tlbFind (s.seq x.cluster).tlb x.ctx va).isSome then s
  else
    let n := va / 65536 % 12
    let st := s.stampOf x
    let reads := if (tlbFind (s.chip n).tlb x.ctx va).isSome then [] else walkReads s x.ctx va
    reads.foldl (fun (s : State) pa => s.send st (roundTrip (chipPort n) (chipPort (chipOf pa)) [sideQueue (chipOf pa)]))
      (s.send st (roundTrip x.die (chipPort n) [tlbQueue n]))

/-- The lookup of an issuing unit. -/
def State.look (s : State) (x : Exec) (va : Nat) : State × Look :=
  let s := s.sendWalk x va
  if x.seq then s.lookCluster x.cluster x.ctx va else s.lookCore x.core x.ctx va

/-- The class has a lit circuit; class 0 is this module (R388). -/
def State.lit (s : State) (cc : BitVec 4) : Bool := cc = 0#4 ∨ (s.circuit cc.toNat).lit

/-- Whether a team raises a circuit-unlit fault as a protection fault (R489). [log 42: DESIGN CHOICE, unsafe] -/
def State.circuitFails (s : State) (u : Issuer) : Bool :=
  match u with
  | .gang t _ => (s.team? t).any (·.circuitFailed)
  | .seq _ => false

/-- The peer module of a class, none for this module. -/
def State.peerOf (s : State) (cc : BitVec 4) : Option Nat :=
  if cc = 0#4 then none else some (s.circuit cc.toNat).peer.toNat

/-- The access that a leaf gives at a virtual address: weak, of device scope or narrower, until changed. [log 16: DEDUCED, unsafe] -/
def State.place (s : State) (x : Exec) (l : Leaf) (va size : Nat) : Access where
  who := some x.u
  die := x.die
  core := if x.seq then none else some x.core
  peer := s.peerOf l.cc
  pa := l.pa va
  size := size
  shared := !l.vis
  cp := l.cp
  strong := false
  wide := false
  hint := 0#2

/-- The detail of a poison-consumed fault (R433). [log 21: DEDUCED, unsafe] -/
def detailPoison (lane : Nat) (src : BitVec 2) (va : Nat) : W64 := detailLane lane src (BitVec.ofNat 56 va)

/-- Codes of `ACC` of R433. [log 51: DEDUCED, unsafe] -/
def accRead : BitVec 2 := 0#2
/-- `ACC` of a write. -/
def accWrite : BitVec 2 := 1#2
/-- `ACC` of a fetch. -/
def accExec : BitVec 2 := 2#2
/-- `ACC` of a read and write. -/
def accBoth : BitVec 2 := 3#2

/-- A protection fault at an address (R433). -/
def protectionAt (lane : Nat) (acc : BitVec 2) (va : Nat) : Trap := .coded 0x25#8 (detailLane lane acc (BitVec.ofNat 56 va))
/-- A misaligned fault at an address (R433). -/
def misalignedAt (lane : Nat) (acc : BitVec 2) (va : Nat) : Trap := .coded 0x29#8 (detailLane lane acc (BitVec.ofNat 56 va))
/-- A scratch-bound fault of kind 00 (R433). -/
def scratchAt (lane : Nat) (off : Nat) : Trap := .coded 0x26#8 (detailLane lane 0#2 (BitVec.ofNat 56 off))

/-- The word that an issuing unit reads as an instruction at an address, through its core's instruction cache (R67, R255); `src` is the `SRC` of a poison-consumed fault. -/
def State.word (s : State) (x : Exec) (va : Nat) (src : BitVec 2) : State × Except Trap W128 :=
  match s.look x va with
  | (s, .absent) => (s, .error (.page (BitVec.ofNat 56 va) 4#3))
  | (s, .poisoned) => (s, .error (.coded 0x2A#8 (detailPoison laneNone 2#2 va)))
  | (s, .malformed) => (s, .error (protectionAt laneNone accExec va))
  | (s, .leaf l) =>
    let a := s.place x l va 16
    if ¬ s.lit l.cc then
      (s, .error (if s.circuitFails x.u then protectionAt laneNone accExec va else .circuit (BitVec.ofNat 56 va) 4#3))
    else if ¬ l.xwr.getLsbD 2 ∨ regionOf a.pa = .unpopulated then (s, .error (protectionAt laneNone accExec va))
    else if regionOf a.pa = .scratch ∧ a.pa - scratchBase + 16 > scratchSize (s.die x.die).way then
      (s, .error (scratchAt laneNone (a.pa - scratchBase)))
    else
      match (if x.seq ∨ regionOf a.pa = .scratch then none
             else ((s.core x.core).icache.find? fun p => p.1 = a.key).map (·.2)) with
      | some w => (s, .ok w)
      | none =>
        match s.read { a with core := none } with
        | (s, v, true) =>
          let _ := v
          (s, .error (.coded 0x2A#8 (detailPoison laneNone src va)))
        | (s, v, false) =>
          let w := BitVec.ofNat 128 v
          (if x.seq ∨ regionOf a.pa = .scratch then s
           else s.modCore x.core fun c => { c with icache := (a.key, w) :: c.icache }, .ok w)

/-- The displaced word in the place of a fetched one; `trapret` and `brk` may not stand there, also after a `GO` of the debugger (R229, R445). [log 41: DEDUCED, unsafe] -/
def displacedWord (x : Exec) (w : W128) : Except Trap W128 :=
  if displacedBad w then .error (illegalState { x with op := w.extractLsb' 120 8 } 7#8) else .ok w

/-- The fetch of the word at the unit's program counter (R67), or the displaced word (R229). [log 52: DESIGN CHOICE, unsafe] -/
def State.fetch (s : State) (x : Exec) : State × Except Trap W128 :=
  match x.u with
  | .gang t g =>
    match s.gang? t g with
    | none => (s, .ok 0#128)
    | some v => if v.emul &&& x.quads ≠ 0#8 then (s, displacedWord x v.displaced) else s.word x x.pc.toNat 1#2
  | .seq n =>
    let q := s.seq n
    if q.emul then (s, displacedWord x q.displaced) else s.word x x.pc.toNat 1#2

end Sys2Proof.Machine
end

