-- ==== Sys2Proof/Machine/Watches.lean ====
section
/-! DEFINITION. The acquires of a unit, the lost writes that they learn of, and the waits that watch words of memory: parking semaphores and mover sequence numbers (R270, R293, R420, R426). -/

namespace Sys2Proof.Machine

/-! ## Acquires of a unit (R264, R270, R271, R293) -/

/-- A release of this scope by the unit of a lost write, and an acquire at a scope by a unit of a team, ensemble and die, are scoped together: each includes the other's party (R263, R264). -/
def LostWrite.reaches (l : LostWrite) (sc : BitVec 3) (team ensemble : Option Nat) (die : Nat) : Bool :=
  let both := if l.sc ≤ sc then l.sc else sc
  if both = 0#3 then l.team.isSome && l.team == team
  else if both = 1#3 then l.ensemble.isSome && l.ensemble == ensemble
  else if both = 2#3 then l.die == die
  else true

/-- The first lost write that an acquire may learn of. [log 25: DEDUCED, unsafe] -/
def State.lostFor (s : State) (sc : BitVec 3) (team ensemble : Option Nat) (die : Nat) : Option (Nat × Nat) :=
  (s.lostWrites.find? fun l => l.reaches sc team ensemble die).map fun l => (l.peer, l.addr)

/-- An acquire of a gang or of a sequencer at a scope: the cache actions (R270), and a lost write that happens before it now happens before its unit's later releases (R293). [log 25: DEDUCED, unsafe] -/
def State.acquireBy (s : State) (u : Issuer) (sc : BitVec 3) : State :=
  match u with
  | .gang t _ =>
    match s.team? t with
    | some tm =>
      let lost := s.lostFor sc (some t) (some tm.ensemble) (dieOf tm.core)
      (s.modTeam t fun x => { x with lost := x.lost.or lost }).acquire (some t) (some tm.core) (dieOf tm.core) sc
    | none => s
  | .seq n =>
    let lost := s.lostFor sc none none (n / 6)
    (s.modSeq n fun q => { q with lost := q.lost.or lost }).acquire none none (n / 6) sc

/-- Wake a unit from a wait that acts as an acquire at a scope (R421, R426). -/
def State.wakeAcquire (s : State) (u : Issuer) (sc : BitVec 3) : State := (s.acquireBy u sc).wake u

/-- Wake units in order, each with its acquire. -/
def State.wakeAll (s : State) (us : List (Issuer × BitVec 3)) : State := us.foldl (fun s u => s.wakeAcquire u.1 u.2) s

/-! ## Parking semaphores (R420) -/

/-- Largest value of a parking semaphore. -/
def parkMax : Nat := 2 ^ 64 - 1

/-- First name of a word of die scratch as the word of a parking semaphore. [log 34: DEDUCED, unsafe] -/
def parkScratch : Nat := 2 ^ 64

/-- Name of the word of an access: its place in memory, or in the scratch of a die. -/
def Access.parkKey (a : Access) : Nat :=
  if a.peer.isNone ∧ regionOf a.pa = .scratch then parkScratch + 2 ^ 40 * a.die + (a.pa - scratchBase) else a.key

/-- The bytes of memory that hold a named word, with its place there and the poison of its sector. [log 34: DEDUCED, unsafe] -/
def State.parkPlace (s : State) (k : Nat) : List Host.Cell × Nat × Bool :=
  if k < parkScratch then (s.mem, k, s.memPoison.contains (k / 128))
  else
    let d := s.die ((k - parkScratch) / 2 ^ 40)
    let o := (k - parkScratch) % 2 ^ 40
    (d.scratch, o, d.scratchPoison.contains (o / 128))

/-- Write the word of a parking semaphore at its point. -/
def State.parkPut (s : State) (k v : Nat) : State :=
  let bytes := bytesOf v 8
  if k < parkScratch then { s with mem := memPutBytes s.mem k bytes }
  else s.modDie ((k - parkScratch) / 2 ^ 40) fun d =>
    { d with scratch := memPutBytes d.scratch ((k - parkScratch) % 2 ^ 40) bytes }

/-- Notify the sequencer of a saved ensemble that its wait is satisfied (R423). -/
def State.notifyParked (s : State) (u : Issuer) : State :=
  match u with
  | .gang t _ =>
    match s.team? t with
    | some tm => s.modEnsemble tm.ensemble fun e => { e with parkedReady := e.parkedReady || e.parkedSaved }
    | none => s
  | .seq _ => s

/-- Test the waiters of parking semaphores in order of arrival (R420, R423). `held` names the words whose first waiter still waits. The word of a poisoned sector satisfies no waiter. -/
def State.testPark (s : State) (held : List Nat) : List ParkWaiter → State
  | [] => s
  | w :: ws =>
    let p := s.parkPlace w.key
    let v := memNat p.1 p.2.1 8
    if held.contains w.key || p.2.2 || decide (v < w.n) then s.testPark (w.key :: held) ws
    else if w.saved then (s.notifyParked w.who).testPark (w.key :: held) ws
    else
      let s := (s.parkPut w.key (v - w.n)).wakeAcquire w.who w.sc
      { s with parkWaiters := s.parkWaiters.filter fun q => !decide (q.key = w.key ∧ q.who = w.who) }.testPark held ws

/-- Test every waiter of a parking semaphore. [log 34: DEDUCED, unsafe] -/
def State.servePark (s : State) : State := s.testPark [] s.parkWaiters

/-! ## Waits for a mover's sequence number (R426) -/

/-- The test of `seqwait` on the `DONE` and `ERR` fields of the control block at a place. -/
def State.seqOver (s : State) (key : Nat) (n : W32) : Bool :=
  let done := BitVec.ofNat 32 (memNat s.mem (key + 0x18) 4)
  (done - n).toNat < 2 ^ 31 || memNat s.mem (key + 0x1C) 4 != 0

/-- A unit whose wait is over: a `seqwait` whose test holds. -/
def State.seqWake (s : State) (u : Issuer) : Status → State
  | .blocked (.seqwait key n sc) _ => if s.seqOver key n then s.wakeAcquire u sc else s
  | _ => s

/-- Test every `seqwait`. -/
def State.serveSeqwaits (s : State) : State :=
  let s := s.teams.foldl (fun s tm =>
    if tm.residence = .resident then
      tm.gangs.zipIdx.foldl (fun s p => s.seqWake (.gang tm.tid p.2) p.1.status) s
    else s) s
  s.seqs.foldl (fun s q => s.seqWake (.seq q.idx) q.status) s

/-- Test the waits that watch memory: after every change of the words they name (R420, R426). -/
def State.serveWatches (s : State) : State := s.servePark.serveSeqwaits

end Sys2Proof.Machine
end

