-- ==== Sys2Proof/Machine/Turns.lean ====
section
/-! DEFINITION. Which unit or event moves next, and what its turn does before the meaning of an instruction: readiness, the scheduler's choice, the first acquire of a team, fetch and decode. -/

namespace Sys2Proof.Machine

/-- A team whose gangs may issue: resident, with no save of it begun, and not held for the debugger (R440, R445). -/
def Team.running (x : Team) : Bool := x.residence = .resident && x.gangs.all fun v => v.status != .debug

/-- A gang that may be picked (R49, R50, R90, R96). -/
def Gang.ready (x : Gang) : Bool :=
  x.status = .ready ∧ x.live ≠ 0#32 ∧ x.delay.isNone ∧ x.heldTrap.isNone ∧ x.issuing ≠ 0#8

/-- A sequencer that may issue: its program runs, and nothing holds it (R143, R506). -/
def Seq.ready (x : Seq) : Bool := x.run ∧ x.status = .ready ∧ x.heldTrap.isNone

/-- A ready gang as the scheduler weighs it (R49). -/
structure Candidate where
  team : Nat
  gang : Nat
  deadline : Nat
  aged : Bool
  /-- place of the last issue; a gang that yielded counts as the most recently issued -/
  last : Nat
  yielded : Bool
  deriving DecidableEq, Repr, Inhabited

/-- Issued less recently (R49, R94). -/
def Candidate.older (a b : Candidate) : Bool :=
  if a.yielded = b.yielded then a.last < b.last else b.yielded

/-- Goes ahead in the choice of R49: aged gangs first, in least recently issued order, then the earliest deadline. [log 17: DEDUCED, unsafe] -/
def Candidate.before (a b : Candidate) : Bool :=
  if a.aged ∧ b.aged then a.older b
  else if a.aged ≠ b.aged then a.aged
  else if a.deadline = b.deadline then a.older b
  else a.deadline < b.deadline

/-- The ready gangs of a core's scheduler. -/
def State.contenders (s : State) (core : Nat) (sched : BitVec 2) : List Candidate :=
  s.teams.flatMap fun t =>
    if t.core = core ∧ t.running then
      (t.gangs.zipIdx.filter fun p => p.1.sched = sched ∧ p.1.ready).map fun p =>
        ⟨t.tid, p.2, t.deadline.toNat, p.1.aged || clocksPassed p.1.readySince s.tick 64, p.1.lastIssue, p.1.yielded⟩
    else []

/-- The gang that a scheduler picks (R49). [log 17: DEDUCED, unsafe] -/
def State.picked (s : State) (core : Nat) (sched : BitVec 2) : Option Candidate :=
  match s.contenders core sched with
  | [] => none
  | c :: cs => some (cs.foldl (fun (best c : Candidate) => if c.before best then c else best) c)

/-- Whether a unit may issue now. [log 17: DEDUCED, unsafe] -/
def State.mayIssue (s : State) (u : Issuer) : Bool :=
  match u with
  | .gang t g =>
    match s.team? t, s.gang? t g with
    | some tm, some x =>
      !s.stopped && tm.running && x.ready && (s.picked tm.core x.sched).any fun c => c.team = t ∧ c.gang = g
    | _, _ => false
  | .seq n => !s.stopped && (s.seq n).ready

/-- The acquire of a team's first instruction (R288). -/
def State.firstAcquire (s : State) (u : Issuer) : State :=
  match u with
  | .gang t _ =>
    match s.team? t with
    | some tm =>
      if tm.fresh then
        (s.acquireBy u 3#3).modTeam t fun x => { x with fresh := false }
      else s
    | none => s
  | .seq _ => s

/-- What a turn comes to before a meaning runs: an instruction or step to execute, or a turn that is over. -/
inductive Prepared where
  | run (i : Instr) (s : State)
  | done (s : State)
  deriving Repr

/-- An issue: the fetch of the unit's word and its decode (R67, R68). -/
def State.issueTurn (s : State) (u : Issuer) : Prepared :=
  if s.mayIssue u then
    let s := { s.firstAcquire u with cur := some u }
    match execOf s u 0#8 default with
    | none => .done s
    | some x =>
      match s.fetch x with
      | (s, .error t) => .done (raiseTrap x t false s)
      | (s, .ok w) =>
        match decode x.seq w with
        | .error t => .done (raiseTrap { x with op := w.extractLsb' 120 8 } (trapOfDecode t) false s)
        | .ok i => .run i s
  else .done s

/-- The turn of a unit, of an event, or of a replacement that has no visible effect (R241, R386; log 11). An instruction form runs by the issue of a unit alone: as an event it has no effect (log 1). [log 1: DESIGN CHOICE, safe; 11: DESIGN CHOICE, unsafe] -/
def State.prepare (s : State) : Turn → Prepared
  | .issue u => s.issueTurn u
  | .event i => if i.parts.isNone then .run i { s with cur := none } else .done s
  | .dropLine core key => .done (s.l1Drop core key)
  | .dropWord core key =>
    .done (s.modCore core fun c => { c with icache := c.icache.filter fun p => p.1 ≠ key })
  | .dropTlb core n => .done (s.modCore core fun c => { c with tlb := c.tlb.eraseIdx n })
  | .dropSeqTlb seq n => .done (s.modSeq seq fun q => { q with tlb := q.tlb.eraseIdx n })
  | .dropChipTlb chip n => .done (s.modChip chip fun c => { c with tlb := c.tlb.eraseIdx n })

/-! ## Placing an instruction (log 7) -/

/-- Virtual and physical base of the page that `placed` uses. -/
def placeBase : Nat := 0x10000

/-- A quad at gang start, converged, at an address (R141, R220). -/
def Quad.start (pc : BitVec 56) : Quad := ⟨pc, 0#64, 0#3, false, 0#32, false, 0⟩

/-- A gang at its start: allocation, first instruction, scheduler, tick and place in the order of issues (R141, R147). [log 8: DESIGN CHOICE, unsafe] -/
def Gang.start (alloc : Nat) (pc : BitVec 56) (sched : BitVec 2) (tick order : Nat) : Gang where
  alloc := alloc
  vregs := List.replicate alloc { VReg.reset with used := tick }
  preds := Vector.ofFn fun _ => 0#32
  trans := Vector.ofFn fun _ => Trans.reset
  quads := Vector.ofFn fun _ => Quad.start pc
  live := BitVec.allOnes 32
  srctr := Vector.ofFn fun _ => 0#32
  regs := Regs.reset
  releasing := []
  displaced := 0#128
  emul := 0#8
  status := .ready
  blockPc := 0#56
  blockQuads := 0#8
  handler := none
  heldTrap := none
  sched := sched
  aged := false
  readySince := tick
  lastIssue := order
  otherWait := 0
  otherSince := none
  delay := none
  yielded := false
  swLater := false

/-- A handle that is not allocated (R392). -/
def Handle.reset : Handle := ⟨.unallocated, 0#5, 0#5, .none, 0, none⟩

/-- A team of one gang, at address `pc` with 8 registers, on core 0 for context 0, whose first acquire is done. [log 7: DESIGN CHOICE, safe] -/
def Team.placed (tid : Nat) (pc : BitVec 56) (tick : Nat) : Team where
  tid := tid
  launch := 0
  ensemble := 0
  rank := 0
  x := 0#32
  y := 0#32
  z := 0#32
  stage := 0#32
  ctx := 0
  core := 0
  slot := 0
  deadline := 0#64
  slack := 4095#12
  srseed := 0#64
  trapvec := 0#64
  winSize := 0
  window := []
  winPoison := []
  stash := Vector.ofFn fun _ => none
  sectors := []
  reserve := 0
  handles := Vector.ofFn fun _ => Handle.reset
  tiles := []
  barriers := Vector.ofFn fun _ => ⟨0, 0, false, false⟩
  gangs := [Gang.start 8 pc 0#2 tick 0]
  residence := .resident
  records := []
  circuitFailed := false
  lost := none
  endedLost := false
  fresh := false
  claimed := 0
  resume := none

/-- The page that `placed` maps: readable, writable, executable, of this module. [log 7: DESIGN CHOICE, safe] -/
def placeLeaf : Leaf := ⟨16, placeBase, placeBase, 0#2, 0#4, false, 7#3⟩

/-- An instruction word placed at the program counter of a unit that runs next: a sequencer's where only sequencers execute its opcode, else a gang's of a new team. [log 7: DESIGN CHOICE, safe] -/
def State.placed (s : State) (w : W128) : State :=
  let s := { s with mem := memPutBytes s.mem placeBase (bytesOf w.toNat 16), stopped := false }
  let pc := BitVec.ofNat 56 placeBase
  let op := (w.extractLsb' 120 8).toNat
  if opAssigned op ∧ ¬ opRuns false op then
    let s := s.setSeq { Seq.reset 0 with run := true, pc := pc, tlb := [⟨0, placeLeaf⟩] }
    { s with agenda := [.issue (.seq 0)] }
  else
    let t := s.ids
    let s := { s.bump with teams := [Team.placed t pc s.tick] }
    let s := s.setCore { Core.reset 0 with tlb := [⟨0, placeLeaf⟩] }
    { s with agenda := [.issue (.gang t 0)] }

end Sys2Proof.Machine
end

