-- ==== Sys2Proof/Machine/Operands.lean ====
section
/-! DEFINITION. Every operand form of an instruction: reading sources, the poison that they bring, shape tags, and writing destinations. -/

namespace Sys2Proof.Machine

/-! ## Special registers (R156, R143) -/

/-- A special register that holds one value for the unit, by its index (R156). On a sequencer those that R143 does not list read as 0. -/
def State.special (s : State) (x : Exec) (i : Nat) : W64 :=
  let r := s.regsOf x.u
  match x.u with
  | .seq n =>
    let q := s.seq n
    match i with
    | 0x10 => s.tickOf (unitOfSeq n)
    | 0x11 => r.fpflags.zeroExtend 64
    | 0x12 => r.fpctl.zeroExtend 64
    | 0x15 => q.slack.zeroExtend 64
    | 0x17 => q.trapvec
    | 0x18 => r.trapcause.zeroExtend 64
    | 0x19 => r.trapdetail
    | 0x1A => r.trappc
    | 0x20 => q.csp
    | _ => 0#64
  | .gang t g =>
    match s.team? t, s.gang? t g with
    | some tm, some v =>
      let p := (s.launch? tm.launch).map (·.p)
      match i with
      | 0x02 => BitVec.ofNat 64 g
      | 0x03 => BitVec.ofNat 64 tm.gangs.length
      | 0x04 => tm.x.zeroExtend 64
      | 0x05 => tm.y.zeroExtend 64
      | 0x06 => tm.z.zeroExtend 64
      | 0x07 => tm.stage.zeroExtend 64
      | 0x08 => (p.map fun p => p.s.zeroExtend 64).getD 0#64
      | 0x09 => BitVec.ofNat 64 tm.rank
      | 0x0A => (p.map fun p => p.gx.zeroExtend 64).getD 0#64
      | 0x0B => (p.map fun p => p.gy.zeroExtend 64).getD 0#64
      | 0x0C => (p.map fun p => p.gz.zeroExtend 64).getD 0#64
      | 0x0D => v.live.zeroExtend 64
      | 0x0E => x.quads.zeroExtend 64
      | 0x0F => BitVec.ofNat 64 v.alloc
      | 0x10 => s.tickOf (unitOfCore tm.core)
      | 0x11 => r.fpflags.zeroExtend 64
      | 0x12 => r.fpctl.zeroExtend 64
      | 0x13 => tm.srseed
      | 0x15 => tm.slack.zeroExtend 64
      | 0x16 => tm.deadline
      | 0x17 => tm.trapvec
      | 0x18 => r.trapcause.zeroExtend 64
      | 0x19 => r.trapdetail
      | 0x1A => r.trappc
      | 0x20 => (vget v.quads (lowest x.quads) default).csp
      | _ => 0#64
    | _, _ => 0#64

/-- Team number of the hash: coordinate number × S + stage (R128). -/
def State.teamNo (s : State) (tm : Team) : W64 :=
  match s.launch? tm.launch with
  | none => 0#64
  | some l =>
    let n := tm.x.toNat + l.p.gx.toNat * (tm.y.toNat + l.p.gy.toNat * tm.z.toNat)
    BitVec.ofNat 64 (n * l.p.s.toNat + tm.stage.toNat)

/-- What an instruction of a gang reads beside its word: the gang as it is after the move to the next word, the special registers, and the inputs of the hash. -/
structure Env where
  x : Exec
  v : Gang
  special : Nat → W64
  seed : W64
  teamNo : W64
  /-- name of a result that the instruction leaves outstanding -/
  id : Nat

/-- The environment of the issuing gang. -/
def State.env (s : State) (x : Exec) (v : Gang) : Env where
  x := x
  v := v
  special := s.special x
  seed := (s.team? x.t).map (·.srseed) |>.getD 0#64
  teamNo := (s.team? x.t).map s.teamNo |>.getD 0#64
  id := s.ids

/-- A body that reads the environment and changes only the issuing gang. -/
def envBody (f : Env → Except Stop Gang) (x : Exec) (s : State) : Except Stop State :=
  match s.gang? x.t x.g with
  | none => .ok s
  | some v =>
    match f (s.env x v) with
    | .ok v' => .ok (s.setGang x.t x.g v')
    | .error e => .error e

/-! ## Sources -/

/-- Sign-extend `n` bits of a number to `m` bits. -/
def sext (n m x : Nat) : Nat := (BitVec.ofNat n x).signExtend m |>.toNat

/-- Widths by which an operand is read and written: 64 bits, or 32 for everything narrower (R76, R189). [log 15: DEDUCED, unsafe] -/
def opWidth (t : Ty) : Nat := if t.width ≥ 64 then 64 else 32

/-- The half or the whole of a scalar register (R74); a half widens by the operand's type. -/
def scalarValue (t : Ty) (sel : Sel) (v : W64) : Nat :=
  match sel with
  | .full => v.toNat
  | .lo => if opWidth t = 64 ∧ t = .i64 then sext 32 64 (v.toNat % 2 ^ 32) else v.toNat % 2 ^ 32
  | .hi => if opWidth t = 64 ∧ t = .i64 then sext 32 64 (v.toNat / 2 ^ 32) else v.toNat / 2 ^ 32

/-- Halves that a select names: bit 0 low, bit 1 high. -/
def halvesOf : Sel → BitVec 2
  | .full => 3#2
  | .lo => 1#2
  | .hi => 2#2

/-- Poison of the halves of a scalar register that a select names (R155). -/
def Regs.poison (r : Regs) (sel : Sel) (i : BitVec 6) : Bool :=
  ((halvesOf sel).getLsbD 0 && r.poisonLo.getLsbD i.toNat) || ((halvesOf sel).getLsbD 1 && r.poisonHi.getLsbD i.toNat)

/-- The value of an immediate operand (R75), not yet cut to the operand's width. -/
def immValue (t : Ty) (o : Operand) (imm : W32) : Nat :=
  match o with
  | .immS => (imm.signExtend 64).toNat
  | .immF => if t = .f64 then (roundVal (formatOf .f64) .rne false 0 (readAs .f32 imm.toNat)).1 else imm.toNat
  | _ => imm.toNat

/-- A source as a vector instruction reads it: its value in each lane, the lanes whose value is poisoned, and its shape. -/
structure Src where
  val : Fin 32 → Nat
  poison : Mask
  tag : Tag

/-- One value in every lane. -/
def Src.uniform (v : Nat) (poison : Bool) : Src := ⟨fun _ => v, if poison then BitVec.allOnes 32 else 0#32, .uniform⟩

/-- A register's tag as an instruction reads it: general while a lane is pending (R88). -/
def VReg.shape (v : VReg) : Tag := if v.pend = 0#32 then v.tag else .general

/-- The lanes of a register as numbers. -/
def VReg.at (v : VReg) (l : Fin 32) : Nat := v.lanes[l].toNat

/-- A vector register, or a pair, as a source (R76, R146). A pair whose registers are not both uniform counts as general, also for the lane that a 64-bit `smov` reads, since R176 gives a single register's tag. [log 57: DEDUCED, unsafe] -/
def Env.vecSrc (e : Env) (r w : Nat) : Src :=
  let a := e.v.vreg r
  if w = 64 then
    let b := e.v.vreg (r + 1)
    ⟨fun l => a.at l + 2 ^ 32 * b.at l, a.poison ||| b.poison,
      if a.shape = .uniform ∧ b.shape = .uniform then .uniform else .general⟩
  else ⟨a.at, a.poison, a.shape⟩

/-- A predicate or condition operand in each lane; none is false (R175, R185). -/
def Env.predSrc (e : Env) (o : Operand) : Mask :=
  match o with
  | .pred i => e.v.pred i
  | .cond i => if e.v.regs.cond i then BitVec.allOnes 32 else 0#32
  | _ => 0#32

/-- An operand of a vector instruction read with a type (R165). -/
def Env.src (e : Env) (o : Operand) (t : Ty) : Src :=
  let w := opWidth t
  match o with
  | .vec r => e.vecSrc r.toNat w
  | .sca sel i => .uniform (scalarValue t sel (e.v.regs.get i) % 2 ^ w) (e.v.regs.poison sel i)
  | .immZ | .immS | .immF => .uniform (immValue t o e.x.w.imm % 2 ^ w) false
  | .spec i =>
    match i.toNat with
    | 0x00 => ⟨fun l => l.val, 0#32, if w = 32 then .affine else .general⟩
    | 0x01 => ⟨fun l => l.val / 4, 0#32, .general⟩
    | 0x14 => ⟨fun l => e.v.srctr[l].toNat, 0#32, .general⟩
    | n => .uniform ((e.special n).toNat % 2 ^ w) false
  | .pred _ => ⟨fun l => (e.predSrc o).getLsbD l |>.toNat, 0#32, .general⟩
  | .cond _ => .uniform ((e.predSrc o).getLsbD 0).toNat false
  | _ => .uniform 0 false

/-- The poison-consumed fault of a per-lane instruction: the lowest lane that takes part and reads poison, and the first operand poisoned there (R155, R433). [log 15: DEDUCED, unsafe] -/
def consumeLanes (part : Mask) (srcs : List (Operand × Mask)) : Option Trap :=
  let bad := (srcs.foldl (fun m p => m ||| p.2) 0#32) &&& part
  if bad = 0#32 then none
  else
    let lane := lowest bad
    let o := ((srcs.find? fun p => p.2.getLsbD lane).map (·.1)).getD .none
    some (.coded 0x2A#8 (detailLane lane 0#2 (o.bits.zeroExtend 56)))

/-- The poison-consumed fault of an instruction that acts once: the first operand poisoned. -/
def consumeOnce (srcs : List (Operand × Bool)) : Option Trap :=
  (srcs.find? (·.2)).map fun p => .coded 0x2A#8 (detailLane laneNone 0#2 (p.1.bits.zeroExtend 56))

/-! ## Shapes (R145, R146, R187) -/

/-- The affine row of R145 that an instruction may take. -/
inductive Affine where
  | none | mov | add | sub | mul | shl | mad
  deriving DecidableEq, Repr, Inhabited

/-- The rounding mode code that an instruction resolves to: under DYN that of `%fpctl` (R126). -/
def resolveMode (fpctl : BitVec 3) (md : BitVec 11) : Mode :=
  if mdRM md = 6#3 then modeOf fpctl else modeOf (mdRM md)

/-- Affine or uniform. -/
def Tag.linear (t : Tag) : Bool := t = .uniform ∨ t = .affine

/-- One affine and one uniform. -/
def mixed (a b : Tag) : Bool := (a = .affine ∧ b = .uniform) ∨ (a = .uniform ∧ b = .affine)

/-- A conversion of an integer of at most 32 bits into `f64`, which never rounds whatever the mode (R191, R205). -/
def Env.neverRounds (e : Env) : Bool :=
  e.x.op = 0x79#8 ∧ e.x.w.ty = .f64 ∧ (tyOfCode (mdSUB e.x.w.md)).all fun t => decide (t.width ≤ 32)

/-- The tag of a fixed-latency result from its sources A, B, C (R145, R146, R191). -/
def Env.shape (e : Env) (k : Affine) (a b c : Src) : Tag :=
  if e.x.part ≠ BitVec.allOnes 32 then .general
  else if resolveMode e.v.regs.fpctl e.x.w.md = .sr ∧ ¬ e.neverRounds then .general
  else if a.tag = .uniform ∧ b.tag = .uniform ∧ c.tag = .uniform then .uniform
  else if ¬ [Ty.i32, .n32, .b32].contains e.x.w.ty ∨ mdSAT e.x.w.md ∨ mdNA e.x.w.md ∨ mdNB e.x.w.md then .general
  else
    let affine : Bool :=
      match k with
      | .none => false
      | .mov => a.tag = .affine
      | .add | .sub => a.tag.linear ∧ b.tag.linear
      | .mul => mixed a.tag b.tag
      | .shl => a.tag = .affine ∧ b.tag = .uniform ∧ b.val 0 ≤ 31
      | .mad => mixed a.tag b.tag ∧ c.tag.linear
    if affine then .affine else .general

/-! ## Destinations -/

/-- Numbers as the lanes of a register: bits [31:0] from bit `sh` on. -/
def lanesOf (f : Fin 32 → Nat) (sh : Nat) : Lanes := Vector.ofFn fun l => BitVec.ofNat 32 (f l / 2 ^ sh)

/-- Write a fixed-latency vector result in the lanes that take part; a pair is never affine (R146, R166). -/
def Env.write (e : Env) (r : BitVec 8) (w : Nat) (f : Fin 32 → Nat) (tag : Tag) : Gang :=
  if w = 64 then
    let tag := if tag = .uniform then tag else .general
    (e.v.writeVec r.toNat e.x.part (lanesOf f 0) tag).writeVec (r.toNat + 1) e.x.part (lanesOf f 32) tag
  else e.v.writeVec r.toNat e.x.part (lanesOf f 0) tag

/-- The vector register of a destination operand. -/
def regOf : Operand → BitVec 8
  | .vec r => r
  | _ => 0#8

/-- Register writes of a variable-latency vector result (R146). -/
def vecWrites (r : BitVec 8) (w : Nat) (mask : Mask) (f : Fin 32 → Nat) (poison : Mask) : List VecWrite :=
  if w = 64 then [⟨r.toNat, mask, lanesOf f 0, poison⟩, ⟨r.toNat + 1, mask, lanesOf f 32, poison⟩]
  else [⟨r.toNat, mask, lanesOf f 0, poison⟩]

/-- The halves written and the 64-bit pattern of a scalar result of a type (R164, R190): 32 bits are extended under the full select, and stand in the named half otherwise. -/
def scalarResult (t : Ty) (sel : Sel) (v : Nat) : BitVec 2 × W64 :=
  let w := if t.width = 0 then 64 else t.width
  let v := v % 2 ^ w
  match sel with
  | .full => (3#2, BitVec.ofNat 64 (if w < 64 ∧ t.isSigned then sext w 64 v else v))
  | .lo => (1#2, BitVec.ofNat 64 (if w < 32 ∧ t.isSigned then sext w 32 v else v))
  | .hi => (2#2, BitVec.ofNat 64 ((if w < 32 ∧ t.isSigned then sext w 32 v else v) * 2 ^ 32))

/-- Write a clean scalar result of a type to a scalar operand (R164). -/
def Regs.writeTo (r : Regs) (d : Operand) (t : Ty) (v : Nat) : Regs :=
  match d with
  | .sca sel i =>
    let p := scalarResult t sel v
    r.writeSca i p.1 p.2 0#2
  | .cond i => r.writeCond i (v % 2 = 1)
  | _ => r

/-! ## Scalar sources -/

/-- An operand of the scalar class read with a type: value and poison (R164). A vector operand is that of `smov` (R176). -/
def State.scalarSrc (s : State) (x : Exec) (o : Operand) (t : Ty) : Nat × Bool :=
  let w := opWidth t
  let r := s.regsOf x.u
  match o with
  | .sca sel i => (scalarValue t sel (r.get i) % 2 ^ w, r.poison sel i)
  | .immZ | .immS | .immF => (immValue t o x.w.imm % 2 ^ w, false)
  | .spec i => ((s.special x i.toNat).toNat % 2 ^ w, false)
  | .cond i => ((r.cond i).toNat, false)
  | .vec v =>
    match s.gang? x.t x.g with
    | none => (0, false)
    | some g =>
      let a := (s.env x g).vecSrc v.toNat w
      let l : Fin 32 := if a.tag = .general then Fin.ofNat 32 (lowest x.sub) else 0
      (a.val l, a.poison.getLsbD l)
  | _ => (0, false)

/-- A 32-bit or 64-bit scalar that an instruction reads as bits: the register whole under select 00, else the half (R296, R374). -/
def Regs.bits (r : Regs) (o : Operand) : W64 :=
  match o with
  | .sca .full i => r.get i
  | .sca .lo i => (r.get i).extractLsb' 0 32 |>.zeroExtend 64
  | .sca .hi i => (r.get i).extractLsb' 32 32 |>.zeroExtend 64
  | _ => 0#64

/-- The poison of a scalar operand. -/
def Regs.taint (r : Regs) (o : Operand) : Bool :=
  match o with
  | .sca sel i => r.poison sel i
  | _ => false

/-! ## Shared forms of instructions -/

/-- A vector instruction of fixed latency with up to three sources, read with types of their own, and one vector result (R165 to R167). -/
def vectorOp (op : BitVec 8) (w : Fields) (ta tb tc : Ty) (wd : Nat) (k : Affine)
    (f : Nat → Nat → Nat → Nat) (s : State) : Host.Outcome State Fault Refusal :=
  issue kindPlain op w 16 (envBody fun e =>
    let a := e.src w.a ta
    let b := e.src w.b tb
    let c := e.src w.c tc
    match consumeLanes e.x.part [(w.a, a.poison), (w.b, b.poison), (w.c, c.poison)] with
    | some t => .error (.trap t)
    | none => .ok (e.write (regOf w.d) wd (fun l => f (a.val l) (b.val l) (c.val l)) (e.shape k a b c))) s

/-- A vector instruction whose result is a predicate (R174, R186, R198). -/
def vectorTest (op : BitVec 8) (w : Fields) (ta tb tc : Ty) (f : Fin 32 → Nat → Nat → Nat → Bool) (s : State) :
    Host.Outcome State Fault Refusal :=
  issue kindPlain op w 16 (envBody fun e =>
    let a := e.src w.a ta
    let b := e.src w.b tb
    let c := e.src w.c tc
    match consumeLanes e.x.part [(w.a, a.poison), (w.b, b.poison), (w.c, c.poison)] with
    | some t => .error (.trap t)
    | none =>
      match w.d with
      | .pred i => .ok (e.v.writePred i e.x.part (maskOf fun l => f l (a.val l) (b.val l) (c.val l)))
      | _ => .ok e.v) s

/-- A scalar instruction with up to three sources, read with types of their own (R163, R164, R167); the result goes to a scalar register of type `td` or to a scalar condition. -/
def scalarOp (op : BitVec 8) (w : Fields) (ta tb tc td : Ty) (f : Nat → Nat → Nat → Nat) (s : State) :
    Host.Outcome State Fault Refusal :=
  issue kindPlain op w 16 (fun x s =>
    let a := s.scalarSrc x w.a ta
    let b := s.scalarSrc x w.b tb
    let c := s.scalarSrc x w.c tc
    match consumeOnce [(w.a, a.2), (w.b, b.2), (w.c, c.2)] with
    | some t => .error (.trap t)
    | none => .ok (s.modRegs x.u fun r => r.writeTo w.d td (f a.1 b.1 c.1))) s

end Sys2Proof.Machine
end

