-- ==== Sys2Proof/Machine/Flags.lean ====
section
/-! DEFINITION. The rounding state of an instruction at issue, the floating flags, and the floating operations on one element (R126 to R133, R189 to R212). -/

namespace Sys2Proof.Machine

/-! ## Rounding state (R127, R128, R212) -/

/-- The mode that a vector instruction rounds under. -/
def Env.mode (e : Env) : Mode := resolveMode e.v.regs.fpctl e.x.w.md

/-- The hash of element `i` of a lane (R127, R128). -/
def Env.hash (e : Env) (l : Fin 32) (i : Nat) : Nat :=
  (srhash e.seed e.teamNo (BitVec.ofNat 5 e.x.g) (BitVec.ofNat 5 l.val) (e.v.srctr[l] + BitVec.ofNat 32 i)).toNat

/-- Advance the counters of the lanes of a mask by `n` when the mode is SR (R127). -/
def advanceSr (v : Gang) (mode : Mode) (mask : Mask) (n : Nat) : Gang :=
  if mode = .sr then
    { v with srctr := Vector.ofFn fun l => if mask.getLsbD l then v.srctr[l] + BitVec.ofNat 32 n else v.srctr[l] }
  else v

/-- OR of the flags of the lanes of a mask (R130). -/
def flagsOf (mask : Mask) (f : Fin 32 → BitVec 5) : BitVec 5 :=
  (List.finRange 32).foldl (fun (m : BitVec 5) (l : Fin 32) => if mask.getLsbD l then m ||| f l else m) 0#5

/-- The mode of a scalar instruction: DYN that selects SR gives RNE (R194). -/
def scalarMode (fpctl : BitVec 3) (md : BitVec 11) : Mode :=
  match resolveMode fpctl md with
  | .sr => .rne
  | m => m

/-! ## Shared forms -/

/-- A floating vector instruction (R188, R191, R212): `n` elements of each lane consume counter values under SR, `late` for a variable-latency result. `f` takes the mode, the hashes by element and the three sources. -/
def floatOp (op : BitVec 8) (w : Fields) (late : Bool) (ta tb tc : Ty) (wd n : Nat)
    (f : Mode → (Nat → Nat) → Nat → Nat → Nat → Nat × BitVec 5) (s : State) : Host.Outcome State Fault Refusal :=
  issue (if late then kindVariable else kindPlain) op w 16 (envBody fun e =>
    let a := e.src w.a ta
    let b := e.src w.b tb
    let c := e.src w.c tc
    match consumeLanes e.x.part [(w.a, a.poison), (w.b, b.poison), (w.c, c.poison)] with
    | some t => .error (.trap t)
    | none =>
      let r := fun l => f e.mode (e.hash l) (a.val l) (b.val l) (c.val l)
      let flags := flagsOf e.x.part fun l => (r l).2
      let tag := e.shape .none a b c
      if late then
        let v := e.v.addResult
          ⟨e.id, vecWrites (regOf w.d) wd e.x.part (fun l => (r l).1) 0#32, [], [], [], flags, .none⟩ .general
        .ok (advanceSr v e.mode e.x.part n)
      else
        let v := e.write (regOf w.d) wd (fun l => (r l).1) tag
        .ok (advanceSr { v with regs := v.regs.orFlags flags } e.mode e.x.part n)) s

/-- A floating scalar instruction (R163, R188, R194). -/
def floatScalar (op : BitVec 8) (w : Fields) (ta tb tc td : Ty)
    (f : Mode → Nat → Nat → Nat → Nat × BitVec 5) (s : State) : Host.Outcome State Fault Refusal :=
  issue kindPlain op w 16 (fun x s =>
    let a := s.scalarSrc x w.a ta
    let b := s.scalarSrc x w.b tb
    let c := s.scalarSrc x w.c tc
    match consumeOnce [(w.a, a.2), (w.b, b.2), (w.c, c.2)] with
    | some t => .error (.trap t)
    | none =>
      .ok (s.modRegs x.u fun r =>
        let v := f (scalarMode r.fpctl w.md) a.1 b.1 c.1
        (r.writeTo w.d td v.1).orFlags v.2)) s

/-! ## Operations on one element -/

/-- Apply an operation to the one element of a type, or to both of a packed one, element 0 first (R191). The operation takes the element's index. -/
def elements (t : Ty) (f : Nat → Nat → Nat → Nat → Nat × BitVec 5) (a b c : Nat) : Nat × BitVec 5 :=
  if t = .f16x2 ∨ t = .bf16x2 then
    let x := f 0 (a % 65536) (b % 65536) (c % 65536)
    let y := f 1 (a / 65536) (b / 65536) (c / 65536)
    (x.1 + 65536 * y.1, x.2 ||| y.2)
  else f 0 a b c

/-- Elements of a type. -/
def elementCount (t : Ty) : Nat := if t = .f16x2 ∨ t = .bf16x2 then 2 else 1

/-- A source value under a negation bit (R191, R195). -/
def signIf (neg : Bool) (v : Val) : Val := if neg then v.negate else v

/-- Round a value with earlier flags into a type under `SAT` of the modifiers. -/
def settleVal (t : Ty) (rm : Mode) (sat : Bool) (h : Nat) (v : Val × BitVec 5) : Nat × BitVec 5 :=
  let r := roundVal (formatOf t) rm sat h v.1
  (r.1, r.2 ||| v.2)

/-- `fadd` (R195). -/
def fpAdd (t : Ty) (md : BitVec 11) (rm : Mode) (h a b : Nat) : Nat × BitVec 5 :=
  settleVal t rm (mdSAT md) h
    (Val.add (rm = .rdn) (signIf (mdNA md) (readAs t a)) (signIf (mdNB md) (readAs t b)))
/-- `fsub` (R195). -/
def fpSub (t : Ty) (md : BitVec 11) (rm : Mode) (h a b : Nat) : Nat × BitVec 5 :=
  settleVal t rm (mdSAT md) h
    (Val.add (rm = .rdn) (signIf (mdNA md) (readAs t a)) (signIf (!mdNB md) (readAs t b)))
/-- `fmul` (R195). -/
def fpMul (t : Ty) (md : BitVec 11) (rm : Mode) (h a b : Nat) : Nat × BitVec 5 :=
  settleVal t rm (mdSAT md) h
    (Val.mul (signIf (mdNA md) (readAs t a)) (signIf (mdNB md) (readAs t b)))
/-- `ffma` (R195): one rounding of the exact value. -/
def fpFma (t : Ty) (md : BitVec 11) (rm : Mode) (h a b c : Nat) : Nat × BitVec 5 :=
  let p := Val.mul (signIf (mdNA md) (readAs t a)) (signIf (mdNB md) (readAs t b))
  let q := Val.add (rm = .rdn) p.1 (signIf (mdSUB md = 1#5) (readAs t c))
  settleVal t rm (mdSAT md) h (q.1, p.2 ||| q.2)

/-- `vfdot2` (R196): one rounding of the exact sum. R196 gives the sum no order; the model adds the two products and then C, so whether a NaN beside infinities of both signs sets invalid depends on their places. [log 56: DEDUCED, unsafe] -/
def fpDot2 (t : Ty) (md : BitVec 11) (rm : Mode) (h a b c : Nat) : Nat × BitVec 5 :=
  let p := Val.mul (readAs t (a % 65536)) (readAs t (b % 65536))
  let q := Val.mul (readAs t (a / 65536)) (readAs t (b / 65536))
  let r := Val.add (rm = .rdn) p.1 q.1
  let u := Val.add (rm = .rdn) r.1 (readAs .f32 c)
  settleVal .f32 rm (mdSAT md) h (u.1, p.2 ||| q.2 ||| r.2 ||| u.2)

/-- `vfmin`, or with `greater` `vfmax` (R197): the chosen operand's bits, the rest of the lane zero (R189). -/
def fpMinMax (t : Ty) (greater nan : Bool) (a b : Nat) : Nat :=
  let a := a % 2 ^ t.width
  let b := b % 2 ^ t.width
  let x := readAs t a
  let y := readAs t b
  let c := (formatOf t).nan
  if x = .nan ∧ y = .nan then c
  else if x = .nan then (if nan then c else b)
  else if y = .nan then (if nan then c else a)
  else if greater then (if x.lt true y then b else a)
  else if y.lt true x then b else a

/-- The conditions of R198. -/
def fpTest (t : Ty) (sub a b : Nat) : Bool :=
  let x := readAs t a
  let y := readAs t b
  let ordered : Bool := x ≠ .nan ∧ y ≠ .nan
  let lt := x.lt false y
  let gt := y.lt false x
  match sub with
  | 0 => ordered && !lt && !gt
  | 1 => !ordered || lt || gt
  | 2 => ordered && lt
  | 3 => ordered && !gt
  | 4 => ordered && gt
  | 5 => ordered && !lt
  | 6 => ordered
  | _ => !ordered

/-- Class bit of a value (R199). -/
def fpClass (t : Ty) (a : Nat) : Nat :=
  match readAs t a with
  | .nan => 8
  | .inf s => if s then 0 else 7
  | .fin s m _ =>
    let k := if m = 0 then 0 else if m < 2 ^ (formatOf t).tbits then 1 else 2
    if s then 3 - k else 4 + k

/-- A conversion between floating types (R202). -/
def cvtFloat (src dst : Ty) (rm : Mode) (sat : Bool) (h a : Nat) : Nat × BitVec 5 :=
  roundVal (formatOf dst) rm sat h (readAs src a)

/-- A conversion from a floating type to an integer: the bits of the integer type (R204). -/
def cvtToInt (src dst : Ty) (rm : Mode) (sat : Bool) (h a : Nat) : Nat × BitVec 5 :=
  let bad := if sat then flagNone else flagNV
  match readAs src a with
  | .nan => (0, bad)
  | .inf s => (fin dst (if s then loOf dst else hiOf dst) false, bad)
  | .fin s m e =>
    let r := roundInt rm h s m e
    if r.1 < loOf dst ∨ r.1 > hiOf dst then (fin dst (clamp dst r.1) false, bad)
    else (fin dst r.1 false, if r.2 then flagNX else flagNone)

/-- A conversion from an integer type (R205). -/
def cvtFromInt (src dst : Ty) (rm : Mode) (sat : Bool) (h a : Nat) : Nat × BitVec 5 :=
  roundVal (formatOf dst) rm sat h (Val.ofInt (intVal src a))

/-- `vfrnd` (R206): inexact only with `.x`. -/
def fpRnd (t : Ty) (x : Bool) (rm : Mode) (h a : Nat) : Nat × BitVec 5 :=
  match readAs t a with
  | .nan => ((formatOf t).nan, flagNone)
  | .inf s => ((roundVal (formatOf t) .rne false 0 (.inf s)).1, flagNone)
  | .fin s m e =>
    let r := roundInt rm h s m e
    ((roundVal (formatOf t) .rne false 0 (.fin s r.1.natAbs 0)).1, if x ∧ r.2 then flagNX else flagNone)

/-- `vfscale` (R207). Beyond 6,000 in magnitude every scale overflows or underflows alike. -/
def fpScale (t : Ty) (md : BitVec 11) (rm : Mode) (h a b : Nat) : Nat × BitVec 5 :=
  if mdSUB md = 0x1B#5 ∧ b % 256 = 255 then ((formatOf t).nan, flagNone)
  else
    let n : Int := if mdSUB md = 0x1B#5 then (b % 256 : Nat) - 127 else intVal .i32 b
    let n := min (max n (-6000)) 6000
    match readAs t a with
    | .fin s m e => roundVal (formatOf t) rm (mdSAT md) h (.fin s m (e + n))
    -- an infinity is returned unchanged for any scale, saturation included
    | .inf s => ((roundVal (formatOf t) .rne false 0 (.inf s)).1, flagNone)
    | .nan => ((formatOf t).nan, flagNone)

/-- `vfgetexp` (R208). -/
def fpGetExp (src dst : Ty) (a : Nat) : Nat :=
  match readAs src a with
  | .fin _ m e =>
    if m = 0 then (if dst = .i32 then 0x80000000 else 0)
    else
      let k := e + (bitLen m : Int) - 1
      if dst = .i32 then fin .i32 k false else (min (max (k + 127) 0) 254).toNat
  | _ => if dst = .i32 then 0x7FFFFFFF else 0xFF

/-- `vfpack` (R209): element 0 from A, element 1 from B, placed by `FN`. -/
def fpPack (t : Ty) (fn : Nat) (rm : Mode) (sat : Bool) (h : Nat → Nat) (a b c : Nat) : Nat × BitVec 5 :=
  let f := formatOf t
  let x := roundVal f rm sat (h 0) (readAs .f32 a)
  let y := roundVal f rm sat (h 1) (readAs .f32 b)
  let p := x.1 + 2 ^ f.bits * y.1
  let v :=
    match t with
    | .f16x2 | .bf16x2 => p
    | .e2m1 => c - byteAt c fn * 2 ^ (8 * fn) + p * 2 ^ (8 * fn)
    | _ => if fn = 1 then c % 65536 + 65536 * p else c / 65536 * 65536 + p
  (v, x.2 ||| y.2)

/-- Round a real result with earlier flags into a type (R200, R201). [log 14: DESIGN CHOICE, safe] -/
def settleReal (t : Ty) (rm : Mode) (h free : Nat) (r : RealVal × BitVec 5) : Nat × BitVec 5 :=
  let v := roundReal (formatOf t) rm h free r.1
  (v.1, v.2 ||| r.2)

end Sys2Proof.Machine
end

