-- ==== Sys2Proof/Machine/Access.lean ====
section
/-! DEFINITION. The memory accesses that instructions share: the checks of R302, loads and stores of global memory and of windows, the stash, remote operations, atomics, releases and promotions. -/

namespace Sys2Proof.Machine

/-! ## Checks of a global access (R299, R300, R302) -/

/-- A global address that an instruction accesses: its lane, the exact address, and the translation of the limit path where the address takes it (R300). -/
structure Point where
  lane : Nat
  va : Int
  leaf : Option Leaf
  deriving DecidableEq, Repr, Inhabited

/-- The read and write bits of R367 and R384 that an `ACC` code stands for. -/
def pageAcc (acc : BitVec 2) : BitVec 3 :=
  if acc = accRead then 1#3 else if acc = accWrite then 2#3 else if acc = accExec then 4#3 else 3#3

/-- A leaf gives every permission that an access needs. -/
def Leaf.allows (l : Leaf) (acc : BitVec 2) : Bool := pageAcc acc &&& ~~~ l.xwr = 0#3

/-- The translation of an address and its checks, with the step of R302 at which a failing one fails: 5 page, 6 circuit, 7 permission and population, 8 die-scratch capacity. [log 21: DEDUCED, unsafe] -/
def State.probe (s : State) (x : Exec) (acc : BitVec 2) (size : Nat) (p : Point) : State × Except (Nat × Trap) Access :=
  let va := p.va.toNat
  let r := match p.leaf with
    | some l => (s, Look.leaf l)
    | none => s.look x va
  (r.1,
    match r.2 with
    | .absent => .error (5, .page (BitVec.ofNat 56 va) (pageAcc acc))
    | .poisoned => .error (5, .coded 0x2A#8 (detailPoison p.lane 2#2 va))
    | .malformed => .error (7, protectionAt p.lane acc va)
    | .leaf l =>
      let a := r.1.place x l va size
      if ¬ r.1.lit l.cc then
        .error (6, if r.1.circuitFails x.u then protectionAt p.lane acc va
                   else .circuit (BitVec.ofNat 56 va) (pageAcc acc))
      else if ¬ l.allows acc ∨ regionOf a.pa = .unpopulated then .error (7, protectionAt p.lane acc va)
      else if a.peer.isNone ∧ regionOf a.pa = .scratch ∧ a.pa - scratchBase + size > scratchSize (r.1.die x.die).way then
        .error (8, scratchAt p.lane (a.pa - scratchBase))
      else .ok a)

/-- The failure of the earliest step, and of the first of a step's. -/
def worst (a : Option (Nat × Trap)) (b : Nat × Trap) : Option (Nat × Trap) :=
  match a with
  | none => some b
  | some c => if b.1 < c.1 then some b else some c

/-! ## Requests of accesses (R91, R92, R410, R412) -/

/-- A read that the core's L1 or the die's cache serves. -/
def State.cached (s : State) (a : Access) : Bool :=
  !a.aside && ((s.die a.die).sector? (a.key / 128)).any fun x =>
    a.mask &&& ~~~(s.die a.die).holds x == 0#128

/-- The core's L1 serves a weak read (R249). -/
def State.nearHit (s : State) (a : Access) : Bool :=
  !a.strong && a.cp == 0#2 && a.hint != 2#2 && a.core.any fun c => (s.core c).l1.any fun l => l.key = a.key / 128

/-- The queues that the request of an access passes. [log 4: DESIGN CHOICE, unsafe; 18: DESIGN CHOICE, unsafe] -/
def State.pathOf (s : State) (a : Access) (acc : BitVec 2) : List Nat :=
  if a.peer.isSome then roundTrip a.die ioPort []
  else
    match regionOf a.pa with
    | .scratch => [sliceQueue a.die (a.key / 128)]
    | .host => roundTrip a.die ioPort []
    | _ =>
      if acc = accRead && s.nearHit a then []
      else if (acc = accRead && s.cached a) || (acc = accWrite && !a.aside) then [sliceQueue a.die (a.key / 128)]
      else roundTrip a.die (chipPort (chipOf a.pa)) [unitQueue (chipPort (chipOf a.pa)) 1]

/-- Requests for the sectors of accesses, one for each; the result that `reply` names waits for their replies (R303). -/
def State.sendRequests (s : State) (st : Stamp) (reply : Option (Issuer × Nat)) (md : BitVec 11) (acc : BitVec 2) :
    List Access → List Nat → State
  | [], _ => s
  | a :: as, seen =>
    let k := a.key / 128
    if seen.contains k then s.sendRequests st reply md acc as seen
    else
      let a := { a with strong := mdOrder md ≠ 0#2, wide := scopeDev (mdScope md), hint := mdHint md }
      (s.sendFor st reply a.peer (s.pathOf a acc)).sendRequests st reply md acc as (k :: seen)

/-- Write-backs of a die's dirty sectors, under a stamp (R412). -/
def State.sendWriteBacks (s : State) (st : Stamp) (die : Nat) : State :=
  ((s.die die).cache.filter fun x => x.dirty ≠ 0#128).foldl (fun (s : State) x =>
    let chip := chipPort (chipOf (128 * x.key))
    s.send st (roundTrip die chip [unitQueue chip 1])) s

/-- Probe a list of addresses: the accesses, or the fault of the earliest step (R302). -/
def State.probeAll (s : State) (x : Exec) (acc : BitVec 2) (size : Nat) :
    List Point → Option (Nat × Trap) → List (Point × Access) → State × Except Trap (List (Point × Access))
  | [], none, as => (s, .ok as.reverse)
  | [], some e, _ => (s, .error e.2)
  | p :: ps, e, as =>
    match s.probe x acc size p with
    | (s, .error f) => s.probeAll x acc size ps (worst e f) as
    | (s, .ok a) => s.probeAll x acc size ps e ((p, a) :: as)

/-- An entry of a core's range-lock table stops an access to a global range of a context (R285, R391). -/
def State.lockedGlobal (s : State) (core ctx va size : Nat) (write : Bool) : Bool :=
  (s.core core).locks.any fun l =>
    !l.sp && decide (l.ctx = ctx ∧ va < l.base + l.len ∧ l.base < va + size) && (write || !l.wo)

/-- An entry of a core's table stops an access to a range of a team's window. -/
def State.lockedWindow (s : State) (core team o size : Nat) (write : Bool) : Bool :=
  (s.core core).locks.any fun l =>
    l.sp && decide (l.team = team ∧ o < l.base + l.len ∧ l.base < o + size) && (write || !l.wo)

/-- A range-lock trap at an address or offset (R433). -/
def lockAt (lane : Nat) (acc : BitVec 2) (va : Nat) : Trap :=
  .coded codeLock (detailLane lane acc (BitVec.ofNat 56 va))

/-- Steps 2 and 4 to 9 of R302 for global addresses of `size` bytes at a multiple of `align`, and the requests of the accesses that pass them. A result that the instruction leaves has the next name of the state that is checked, and waits for their replies. -/
def State.checkGlobal (s : State) (x : Exec) (acc : BitVec 2) (size align : Nat) (ps : List Point) :
    State × Except Trap (List (Point × Access)) :=
  let reply := some (x.u, s.ids)
  match ps.find? fun p => p.va % (align : Int) ≠ 0 with
  | some p => (s, .error (misalignedAt p.lane acc (p.va % 2 ^ 64).toNat))
  | none =>
    match ps.find? fun p => p.va < 0 ∨ p.va ≥ 2 ^ 56 with
    | some p => (s, .error (protectionAt p.lane acc (p.va % 2 ^ 64).toNat))
    | none =>
      match s.probeAll x acc size ps none [] with
      | (s, .error t) => (s, .error t)
      | (s, .ok as) =>
        match as.find? fun p => !x.seq && s.lockedGlobal x.core x.ctx p.1.va.toNat size (acc != accRead) with
        | some p => (s, .error (lockAt p.1.lane acc p.1.va.toNat))
        | none => (s.sendRequests (s.stampOf x) reply x.w.md acc (as.map (·.2)) [], .ok as)

/-! ## Remote operations (R291 to R293) -/

/-- An outstanding remote operation of a unit touches bytes of a sector. -/
def RemoteOp.touches (r : RemoteOp) (u : Issuer) (sector : Nat) (mask : BitVec 128) : Bool :=
  decide (r.who = u ∧ r.sector = sector) && r.mask &&& mask != 0#128

/-- Queue a remote operation, to be performed at its peer. -/
def State.sendRemote (s : State) (r : RemoteOp) : State :=
  let s := s.bump
  { s with remote := s.remote ++ [{ r with id := s.ids }] }

/-- The unit awaits a remote write or atomic of its own on these bytes: a read is performed after it (R269, R291). -/
def State.awaitsOwn (s : State) (x : Exec) (a : Access) : Bool :=
  a.peer.isSome && s.remote.any fun r => r.touches x.u (a.key / 128) a.mask

/-! ## Stores (R268, R303, R307) -/

/-- The bytes that one request stores in one sector. -/
structure Request where
  a : Access
  va : Nat
  mask : BitVec 128
  data : BitVec 1024
  deriving DecidableEq, Repr, Inhabited

/-- Add a lane's bytes to the request of their sector: a later lane prevails (R268, R303). -/
def addLane (rs : List Request) (a : Access) (va v : Nat) : List Request :=
  match rs with
  | [] => [⟨a, va, a.mask, a.lay v⟩]
  | r :: rs =>
    if r.a.key / 128 = a.key / 128 then { r with mask := r.mask ||| a.mask, data := mergeSector r.data (a.lay v) a.mask } :: rs
    else r :: addLane rs a va v

/-- An access of this module that resolves at the point where watched words are tested: the memory side, or die scratch (R420, R426). -/
def Access.watched (a : Access) : Bool := a.aside || regionOf a.pa == .scratch

/-- Store a request: here, where waiters of the word are tested at once when it reaches their point (R420, R426), or queued for its peer, `acq` being the scope of an acquire that its performance makes (R291, R307). [log 4: DESIGN CHOICE, unsafe] -/
def State.store (s : State) (x : Exec) (r : Request) (brings holds : Bool) (acq : Option (BitVec 3)) : State :=
  match r.a.peer with
  | none =>
    let s := s.write r.a r.mask r.data brings
    if r.a.watched then s.serveWatches else s
  | some p =>
    s.sendRemote
      { id := 0, who := x.u, peer := p, sector := r.a.key / 128, mask := r.mask, data := r.data, brings,
        atomic := none, dest := none, va := r.va, holds, acq }

/-! ## Windows and the stash (R251 to R253, R316) -/

/-- The stash slot whose window range holds an offset. -/
def Team.slotOf (x : Team) (o : Nat) : Option StashSlot :=
  x.stash.toList.findSome? fun p =>
    match p with
    | some q => if q.w ≤ o ∧ o < q.w + q.n then some q else none
    | none => none

/-- State of a stash sector; one not listed is unfilled. -/
def Team.sectorAt (x : Team) (k : Nat) : StashSector := (x.sectors.find? fun y => y.sector = k).getD ⟨k, false, 0#128, false⟩

/-- Replace the state of a stash sector. -/
def Team.setSector (x : Team) (y : StashSector) : Team := { x with sectors := upsert (fun z => z.sector = y.sector) y x.sectors }

/-- Write bytes of a sector of a window, poison included (R251, R260). -/
def Team.putWindow (x : Team) (k : Nat) (mask : BitVec 128) (d : BitVec 1024) (brings : Bool) : Team :=
  { x with window := memPutMasked x.window (128 * k) mask d 128, winPoison := poisonAfter x.winPoison k mask brings }

/-- An unfilled or partly refillable sector is filled before this access: a read of bytes that it lacks, or a partial write of an unfilled one (R253). -/
def StashSector.lacks (y : StashSector) (mask : BitVec 128) (write : Bool) : Bool :=
  !y.filled && (if write then y.mask == 0#128 && mask != BitVec.allOnes 128 else mask &&& ~~~ y.mask != 0#128)

/-- The address that a window offset of a stash slot stands for. -/
def StashSlot.address (p : StashSlot) (o : Nat) : Nat := p.va.toNat + (o - p.w)

/-- A fault of a stash fill or write-back, which a scratchpad form reports with the window offset (R433). -/
def atOffset (lane : Nat) (acc : BitVec 2) (o : Nat) (t : Trap) : Trap :=
  match t with
  | .coded 0x25#8 _ => protectionAt lane acc o
  | t => t

/-- Sector-sized access of the sector that holds an access. -/
def Access.sector (a : Access) : Access := { a with pa := a.pa - a.pa % 128, size := 128 }

/-- The address of a window offset in the stash, as a lane accesses it. [log 26: DEDUCED, unsafe] -/
def stashPoint (p : StashSlot) (lane o : Nat) : Point := ⟨lane, (p.address o : Nat), none⟩

/-- Fill a stash sector of a team from global memory through the die cache, by a request with a stamp (R92, R253). The bytes written since keep their values, with the poison that they brought; the rest have that of the fill. [log 26: DEDUCED, unsafe] -/
def State.stashFill (s : State) (st : Stamp) (t k : Nat) (a : Access) : State :=
  match s.team? t with
  | none => s
  | some tm =>
    let y := tm.sectorAt k
    let a := { a.sector with core := none }
    let r := (s.send st (s.pathOf a accRead)).read a
    r.1.modTeam t fun tm =>
      let tm := tm.setSector { y with filled := true }
      { tm with
        window := memPutMasked tm.window (128 * k) (~~~ y.mask) (BitVec.ofNat 1024 r.2.1) 128
        winPoison := if r.2.2 || y.carried then insertNat k tm.winPoison else dropNat k tm.winPoison }

/-- Write back the bytes written in a stash sector of a team, as weak writes, to the resolution point of a scope (R253, R317), with the poison that they brought. With `locks` the access is one of a gang, which range locks stop. A page that is no longer of class 0 is a protection fault, as for `stmap`. [log 26: DEDUCED, unsafe] -/
def State.stashBack (s : State) (x : Exec) (locks : Bool) (sc : BitVec 3) (t k : Nat) : Except Trap State :=
  match s.team? t with
  | none => .ok s
  | some tm =>
    let y := tm.sectorAt k
    match tm.slotOf (128 * k) with
    | none => .ok s
    | some p =>
      if y.mask = 0#128 then .ok s
      else
        let va := p.address (128 * k)
        if va + 128 > 2 ^ 56 then .error (protectionAt laneNone accWrite va)
        else
          match s.probe x accWrite 128 (stashPoint p laneNone (128 * k)) with
          | (_, .error f) => .error f.2
          | (s, .ok a) =>
            if a.peer.isSome then .error (protectionAt laneNone accWrite va)
            else if locks && s.lockedGlobal x.core x.ctx va 128 true then .error (lockAt laneNone accWrite va)
            else
              let a := { a with core := none, strong := true, wide := scopeDev sc }
              let s := (s.send (s.stampOf x) (s.pathOf a accWrite)).store x ⟨a, va, y.mask, sectorOf tm.window k⟩ y.carried false none
              .ok (s.modTeam t fun tm => tm.setSector { y with mask := 0#128, carried := false })

/-- Write back stash sectors one after another. -/
def State.stashBackAll (s : State) (x : Exec) (locks : Bool) (sc : BitVec 3) (t : Nat) : List Nat → Except Trap State
  | [] => .ok s
  | k :: ks =>
    match s.stashBack x locks sc t k with
    | .ok s => s.stashBackAll x locks sc t ks
    | .error e => .error e

/-- The dirty stash sectors of a team that a test on slots chooses. -/
def Team.dirtySectors (x : Team) (p : StashSlot → Bool) : List Nat :=
  (x.sectors.filter fun y => y.mask != 0#128 && (x.slotOf (128 * y.sector)).any p).map (·.sector)

/-! ## Releases (R245, R253, R271, R293) -/

/-- The domain-write-lost fault (R433). [log 25: DEDUCED, unsafe] -/
def writeLost (l : Nat × Nat) : Trap := .coded 0x2B#8 (BitVec.ofNat 9 l.1 ++ 0#3 ++ BitVec.ofNat 52 l.2)

/-- A remote write of the unit, or of its team, that was lost (R293). [log 25: DEDUCED, unsafe] -/
def State.lostOf (s : State) (x : Exec) : Option (Nat × Nat) :=
  match x.u with
  | .gang t _ => (s.team? t).bind (·.lost)
  | .seq n => (s.seq n).lost

/-- A die's dirty sectors are written back for a release or a promotion, under a stamp, and the waiters of their words are tested (R245, R282, R412, R420). -/
def State.settleDie (s : State) (st : Stamp) (die : Nat) : State :=
  ((s.sendWriteBacks st die).writeBackAll die).serveWatches

/-- A lost write that happens before a release narrower than domain scope happens before what the release's readers release later (R271, R293). [log 25: DEDUCED, unsafe] -/
def State.passLost (s : State) (x : Exec) (sc : BitVec 3) (l : Nat × Nat) : State :=
  let team := if x.seq then none else some x.t
  let w : LostWrite := ⟨l.1, l.2, sc, team, team.bind fun t => (s.team? t).map (·.ensemble), x.die⟩
  if s.lostWrites.contains w then s else { s with lostWrites := s.lostWrites ++ [w] }

/-- The stash write-backs of a release: at ensemble scope or wider those of the gang's team (R253). A `fence` reaches no range lock (R314). -/
def stashRelease (x : Exec) (sc : BitVec 3) (s : State) : Except Trap State :=
  if ¬ x.seq ∧ scopeEns sc then
    match s.team? x.t with
    | some tm => s.stashBackAll x (x.op != 0x8B#8) sc x.t (tm.dirtySectors fun _ => true)
    | none => .ok s
  else .ok s

/-- The effect of a release at a scope by the issuing unit: its own remote operations are performed first, the team's stash is written back, and at device scope or wider the die's dirty sectors are too. At domain or system scope every remote write is acknowledged first, and a lost one is a fault (R271, R293). [log 5: DESIGN CHOICE, unsafe; 25: DEDUCED, unsafe] -/
def releaseAt (x : Exec) (sc : BitVec 3) (s : State) : Except Stop State :=
  match stashRelease x sc s with
  | .error t => .error (.trap t)
  | .ok s' =>
    let back := fun s : State => if scopeDev sc then s.settleDie (s.stampOf x) x.die else s
    match s'.lostOf x with
    | some l =>
      if scopeDom sc then .error (.trap (writeLost l))
      else if s'.remote.any fun r => decide (r.who = x.u) then .error (.wait .remote)
      else .ok (back (s'.passLost x sc l))
    | none =>
      if s'.remote.any fun r => scopeDom sc || decide (r.who = x.u) then .error (.wait .remote) else .ok (back s')

/-- The ordering effects of an instruction (R265). -/
structure Effects where
  rel : Bool
  acq : Bool
  sc : BitVec 3
  deriving DecidableEq, Repr, Inhabited

/-- Effects of a load or of a store by its ordering field. -/
def effectsOf (load : Bool) (md : BitVec 11) : Effects where
  rel := mdOrder md = 3#2 ∨ (mdOrder md = 2#2 ∧ ¬ load)
  acq := mdOrder md = 3#2 ∨ (mdOrder md = 2#2 ∧ load)
  sc := mdScope md

/-- The release effect of an instruction, before its writes (R268). -/
def Effects.before (f : Effects) (x : Exec) (s : State) : Except Stop State :=
  if f.rel then releaseAt x f.sc s else .ok s

/-- The acquire effect of an instruction, after its reads (R268). -/
def Effects.after (f : Effects) (x : Exec) (s : State) : State := if f.acq then s.acquireBy x.u f.sc else s

/-- The scope of the acquire effect of an instruction, some of whose accesses are remote (R268). -/
def Effects.late (f : Effects) : Option (BitVec 3) := if f.acq then some f.sc else none

/-- The acquire effect of an instruction that writes: it follows the last lane's access, and so comes with the performance of those that are remote (R268, R270). -/
def Effects.settle (f : Effects) (x : Exec) (as : List Access) (s : State) : State :=
  if as.any fun a => a.peer.isSome then s else f.after x s

/-- A release of domain or system scope. -/
def Effects.holds (f : Effects) : Bool := f.rel && scopeDom f.sc

/-- An access with the kind, scope and hint of an instruction (R263, R265). -/
def Access.withMd (a : Access) (md : BitVec 11) : Access :=
  { a with strong := mdOrder md ≠ 0#2, wide := scopeDev (mdScope md), hint := mdHint md }

/-- Promotion of every die at once, its write-backs under the instruction's stamp (R282, R283, R412). -/
def State.promoteAll (s : State) (x : Exec) : State := (List.range 9).foldl (fun s d => s.settleDie (s.stampOf x) d) s

/-- Suspend a unit whose release of domain or system scope is itself a remote operation (R302). -/
def holdRemote (x : Exec) (holds : Bool) (s : State) : State :=
  if holds && s.remote.any fun r => decide (r.who = x.u) && r.holds then blockUnit x .remoteRelease s else s

/-! ## Results of loads -/

/-- Add an outstanding result of the issuing unit; a sequencer's is written at once. [log 4: DESIGN CHOICE, unsafe] -/
def State.deliver (s : State) (x : Exec) (r : Result) : State :=
  match x.u with
  | .gang t g => s.modGang t g fun v => v.addResult r .general
  | .seq n =>
    s.modSeq n fun q =>
      let regs := r.sca.foldl (fun (u : Regs) w => u.putSca w.reg w.halves w.value w.poison) q.regs
      { q with regs := (r.cond.foldl (fun (u : Regs) w => u.putCond w.1 w.2) regs).orFlags r.flags }

/-- The vector writes of a load of `size` bytes from the numbers read by lane (R297, R306). -/
def loadWrites (r : BitVec 8) (size : Nat) (t : Ty) (mask : Mask) (f : Nat → Nat) (poison : Mask) : List VecWrite :=
  if size ≤ 4 then
    [⟨r.toNat, mask, lanesOf (fun l => if size < 4 ∧ t.isSigned then sext (8 * size) 32 (f l) else f l) 0, poison⟩]
  else (List.range (size / 4)).map fun j => ⟨r.toNat + j, mask, lanesOf (fun l => f l) (32 * j), poison⟩

/-- The value read by a lane, from a list of lanes with values and poison. -/
def laneValue (rs : List (Nat × Nat × Bool)) (l : Nat) : Nat := ((rs.find? fun r => r.1 = l).map (·.2.1)).getD 0
/-- The lanes whose value is poisoned. -/
def lanePoison (rs : List (Nat × Nat × Bool)) : Mask := maskOf fun l => rs.any fun r => r.1 = l.val && r.2.2

/-- Read the accesses of lanes in ascending order. [log 4: DESIGN CHOICE, unsafe] -/
def State.readLanes (s : State) : List (Point × Access) → List (Nat × Nat × Bool) → State × List (Nat × Nat × Bool)
  | [], rs => (s, rs.reverse)
  | p :: ps, rs =>
    let r := s.read p.2
    r.1.readLanes ps ((p.1.lane, r.2.1, r.2.2) :: rs)

/-! ## Atomics (R309 to R311) -/

/-- `addx` of R124 on an object as a number. -/
def addX (obj : Nat) (x : Val) : Nat :=
  match x with
  | .nan | .inf _ => obj ||| 2 ^ 255
  | .fin s m e =>
    let e' := e + 160
    -- magnitude below 2^93: m × 2^e < 2^93
    if (if e ≥ 0 then m * 2 ^ e.toNat ≥ 2 ^ 93 else m ≥ 2 ^ (93 + (-e).toNat)) then obj ||| 2 ^ 255
    else
      let q := if e' ≥ 0 then m * 2 ^ e'.toNat else m / 2 ^ (-e').toNat
      let lost : Bool := e' < 0 ∧ m % 2 ^ (-e').toNat ≠ 0
      let v := ((obj % 2 ^ 254 : Nat) + (if s then -(q : Int) else (q : Int))) % 2 ^ 254
      (obj / 2 ^ 254 * 2 ^ 254 ||| (if lost then 2 ^ 254 else 0)) + v.toNat

/-- `readx` of R124. -/
def readX (obj : Nat) (rm : Mode) : Nat × BitVec 5 :=
  if obj / 2 ^ 255 = 1 then ((formatOf .f64).nan, flagNV)
  else
    let v := (BitVec.ofNat 254 obj).toInt
    roundVal (formatOf .f64) rm false 0 (.fin (v < 0) v.natAbs (-160))

/-- The mode of `readx`: SR is taken as RNE (R311). -/
def readMode (c : BitVec 3) : Mode :=
  match modeOf c with
  | .sr => .rne
  | m => m

/-- The bytes of an atomic's object. -/
def AtomicOp.size (o : AtomicOp) : Nat := if o.ty = .rx256 then 32 else o.ty.width / 8

/-- An atomic on the number that its object holds: the new number, what D receives, and the flags (R310). Code 11 is `semup.park` (R420). -/
def AtomicOp.apply (o : AtomicOp) (old : Nat) : Nat × Nat × BitVec 5 :=
  let t := o.ty
  let c := o.c.toNat % 2 ^ (if t = .rx256 then 64 else t.width)
  let float : Bool := t = .f32 ∨ t = .f64
  match o.fn with
  | 0 =>
    if float then
      let r := settleVal t .rne false 0 (Val.add false (readAs t old) (readAs t c))
      (r.1, old, r.2)
    else ((old + c) % 2 ^ t.width, old, 0#5)
  | 1 => (if float then fpMinMax t false false old c else intMin t old c, old, 0#5)
  | 2 => (if float then fpMinMax t true false old c else intMax t old c, old, 0#5)
  | 3 => (old &&& c, old, 0#5)
  | 4 => (old ||| c, old, 0#5)
  | 5 => (old ^^^ c, old, 0#5)
  | 6 => (c, old, 0#5)
  | 7 => (if old = c then o.new.toNat % 2 ^ t.width else old, old, 0#5)
  | 8 => (addX old (readAs .f64 c), 0, 0#5)
  | 9 => (old, (readX old (readMode o.rm)).1, (readX old (readMode o.rm)).2)
  | 11 => (min (old + c) (2 ^ 64 - 1), old, 0#5)
  | _ => (0, (readX old (readMode o.rm)).1, (readX old (readMode o.rm)).2)

/-- An atomic at a place of a byte memory (R310): the memory, what D receives, and the flags. Of a poisoned sector the memory is unchanged and nothing is flagged. -/
def atomicAt (o : AtomicOp) (m : List Host.Cell) (a : Nat) (poisoned : Bool) : List Host.Cell × Nat × BitVec 5 :=
  let r := o.apply (memNat m a o.size)
  if poisoned then (m, r.2.1, 0#5) else (memPutBytes m a (bytesOf r.1 o.size), r.2.1, r.2.2)

/-- An atomic performed at the memory side, or at the die-cache slice for die scratch (R310): the state, what D receives, whether the sector is poisoned, and the flags. The waiters of the word are tested at once (R420, R426). [log 27: DEDUCED, unsafe] -/
def State.atomic (s : State) (a : Access) (o : AtomicOp) : State × Nat × Bool × BitVec 5 :=
  if regionOf a.pa = .scratch then
    let d := s.die a.die
    let p := d.scratchPoison.contains ((a.pa - scratchBase) / 128)
    let r := atomicAt o d.scratch (a.pa - scratchBase) p
    ((s.modDie a.die fun d => { d with scratch := r.1 }).serveWatches, r.2.1, p, r.2.2)
  else
    let s := (s.expose a).serveWatches
    let p := s.memPoison.contains (a.key / 128)
    let r := atomicAt o s.mem a.key p
    ({ s with mem := r.1 }.serveWatches, r.2.1, p, r.2.2)

/-! ## Event records (R365, R366) -/

/-- Post an event record toward a cluster's queue; it arrives at a step of its own. -/
def State.post (s : State) (cluster producer : Nat) (kind sub : BitVec 8) (detail : W64) (unit : Nat) : State :=
  let s := s.bump
  let r : W128 := detail ++ (s.tickOf unit).extractLsb' 0 32 ++ 1#16 ++ sub ++ kind
  { s with posts := s.posts ++ [⟨s.ids, cluster, producer, r⟩] }

/-- The poison event of a `red` or an `atom` without destination (R260). -/
def State.postPoison (s : State) (core va : Nat) : State :=
  s.post (clusterOf core) (unitOfCore core) 2#8 0#8 (BitVec.ofNat 64 va) (unitOfCore core)

end Sys2Proof.Machine
end

