-- ==== Sys2Proof/Machine/Mem.lean ====
section
/-! DEFINITION. The memory-access and atomic instructions (R295 to R318), one meaning for each. -/

namespace Sys2Proof.Machine

open Host (Outcome)

/-! ## Shared forms -/

/-- Issue of a memory instruction: once for the sub-gang or per lane, with or without a result. -/
def kindMem (once late : Bool) : IssueKind := ⟨false, false, once, late, true⟩

/-- A body of a gang that reads the environment and changes the state. -/
def memBody (f : Env → State → Except Stop State) (x : Exec) (s : State) : Except Stop State :=
  match s.gang? x.t x.g with
  | none => .ok s
  | some v => f (s.env x v) s

/-- The lanes of a mask, ascending. -/
def lanesIn (m : Mask) : List (Fin 32) := (List.finRange 32).filter fun l => m.getLsbD l

/-- The displacement of an address (R299). -/
def displacement (w : Fields) : Int := w.imm.toInt

/-- The leaf that a translation register stands for on the limit path (R300). -/
def Trans.leaf (t : Trans) : Leaf := ⟨0, t.va.toNat, t.pa.toNat, t.cp, t.cc, t.vis, t.xwr⟩

/-- The address of a lane from a translation register: through the limit path where it may take it (R299, R300). -/
def limitPoint (t : Trans) (lane : Nat) (o : Int) (size : Nat) : Point :=
  ⟨lane, t.va.toNat + o, if t.v ∧ 0 ≤ o ∧ o + size ≤ t.lim.toNat then some t.leaf else none⟩

/-- The addresses of the lanes that take part (R299). -/
def Env.points (e : Env) (size : Nat) : List Point :=
  let d := displacement e.x.w
  match e.x.w.a with
  | .trans i =>
    let off := e.src e.x.w.b .b32
    (lanesIn e.x.part).map fun (l : Fin 32) => limitPoint (e.v.trans[i.toNat]'i.isLt) l.val (off.val l + d) size
  | _ =>
    let a := e.vecSrc (regOf e.x.w.a).toNat 64
    (lanesIn e.x.part).map fun (l : Fin 32) => ⟨l.val, ((a.val l : Int) + d) % 2 ^ 64, none⟩

/-- The sources that an address consumes. -/
def Env.pointSources (e : Env) : List (Operand × Mask) :=
  match e.x.w.a with
  | .vec r => [(e.x.w.a, (e.vecSrc r.toNat 64).poison)]
  | _ => [(e.x.w.b, (e.src e.x.w.b .b32).poison)]

/-- Store data of `size` bytes (R297). -/
def Env.data (e : Env) (o : Operand) (size : Nat) : Src :=
  match o with
  | .vec r =>
    let n := max 1 (size / 4)
    ⟨fun l => (List.range n).foldl (fun (v : Nat) (j : Nat) => v + 2 ^ (32 * j) * (e.v.vreg (r.toNat + j)).at l) 0,
      (List.range n).foldl (fun (m : Mask) (j : Nat) => m ||| (e.v.vreg (r.toNat + j)).poison) 0#32, .general⟩
  | _ => .uniform (e.v.regs.bits o).toNat (e.v.regs.taint o)

/-- Global accesses of an instruction's lanes after the checks of R302. -/
def Env.accesses (e : Env) (s : State) (acc : BitVec 2) (size align : Nat) (more : List (Operand × Mask)) :
    State × Except Trap (List (Point × Access)) :=
  match consumeLanes e.x.part (e.pointSources ++ more) with
  | some t => (s, .error t)
  | none =>
    match s.checkGlobal e.x acc size align (e.points size) with
    | (s, .ok as) => (s, .ok (as.map fun p => (p.1, p.2.withMd e.x.w.md)))
    | r => r

/-- `ld` and `ldg` (R306). -/
def loadGlobal (op : BitVec 8) (w : Fields) (s : State) : Outcome State Fault Refusal :=
  issue (kindMem false true) op w 16 (memBody fun e s =>
    let size := mdBytes w.md
    match e.accesses s accRead size size [] with
    | (_, .error t) => .error (.trap t)
    | (s, .ok as) =>
      if as.any fun p => s.awaitsOwn e.x p.2 then .error (.wait .remote)
      else
        let f := effectsOf true w.md
        match f.before e.x s with
        | .error t => .error t
        | .ok s =>
          let r := (if w.fn = 1#4 then s.promoteAll e.x else s).readLanes as []
          let vec := loadWrites (regOf w.d) size w.ty e.x.part (laneValue r.2) (lanePoison r.2)
          .ok (f.after e.x (r.1.deliver e.x ⟨e.id, vec, [], [], [], 0#5, .none⟩))) s

/-- Store the requests of an instruction with its ordering effects: those for a peer bring the acquire when they are performed. -/
def storeAll (x : Exec) (f : Effects) (rs : List Request) (s : State) : State :=
  rs.foldl (fun s r => s.store x r false f.holds f.late) s

/-- `st` and `stg` (R307). -/
def storeGlobal (op : BitVec 8) (w : Fields) (s : State) : Outcome State Fault Refusal :=
  issue (kindMem false false) op w 16 (memBody fun e s =>
    let size := mdBytes w.md
    let d := e.data w.c size
    match e.accesses s accWrite size size [(w.c, d.poison)] with
    | (_, .error t) => .error (.trap t)
    | (s, .ok as) =>
      let f := effectsOf false w.md
      match f.before e.x s with
      | .error t => .error t
      | .ok s =>
        let rs := as.foldl (fun rs p => addLane rs p.2 p.1.va.toNat (d.val (Fin.ofNat 32 p.1.lane))) []
        .ok (holdRemote e.x f.holds (f.settle e.x (as.map (·.2)) (storeAll e.x f rs s)))) s

/-! ## Windows -/

/-- The team whose window a scratchpad form names: the issuer's, or that of a rank of its ensemble that has not exited (R252). -/
def State.windowTeam (s : State) (e : Env) : Option Team :=
  match s.team? e.x.t with
  | none => none
  | some tm =>
    match e.x.w.a with
    | .sca _ _ =>
      let r := (e.v.regs.bits e.x.w.a).toNat % 2 ^ 32
      s.teams.find? fun y => y.ensemble = tm.ensemble ∧ y.rank = r ∧ y.residence ≠ .done
    | _ => some tm

/-- Lanes with their window offsets (R299). -/
def Env.offsets (e : Env) : List (Nat × Int) :=
  let off := e.src e.x.w.b .b32
  (lanesIn e.x.part).map fun (l : Fin 32) => (l.val, (off.val l : Int) + displacement e.x.w)

/-- The bytes that an access of `size` bytes touches in the sectors of a window. -/
def windowMasks (size : Nat) (ps : List (Nat × Nat)) : List (Nat × BitVec 128) :=
  ps.foldl (fun ms p =>
    let k := p.2 / 128
    let old := ((ms.find? fun m => m.1 = k).map (·.2)).getD 0#128
    upsert (fun m => m.1 = k) (k, old ||| byteRun (p.2 % 128) size) ms) []

/-- The fault of a fill under a scratchpad form: a protection fault names the lane's window offset (R433). [log 26: DEDUCED, unsafe] -/
def fillFault (acc : BitVec 2) (ps : List (Nat × Nat)) (t : Trap) : Trap :=
  match t with
  | .coded 0x25#8 d =>
    let lane := (d.extractLsb' 58 6).toNat
    atOffset lane acc (((ps.find? fun p => p.1 = lane).map (·.2)).getD 0) t
  | t => t

/-- A held entry over the part of global memory from which a lane's stash sector fills (R285). -/
def State.fillLocked (s : State) (x : Exec) (points : List Point) (lane : Nat) : Bool :=
  points.any fun p => decide (p.lane = lane) && s.lockedGlobal x.core x.ctx (p.va.toNat / 128 * 128) 128 false

/-- Steps 4 to 8 of R302 for the addresses from which stash sectors fill; their pages must be of class 0 as for `stmap`. [log 26: DEDUCED, unsafe] -/
def State.probeStash (s : State) (x : Exec) (acc : BitVec 2) (size : Nat) (points : List Point) :
    State × Except Trap (List (Point × Access)) :=
  match points.find? fun p => decide (p.va ≥ 2 ^ 56) with
  | some p => (s, .error (protectionAt p.lane acc 0))
  | none =>
    match s.probeAll x acc size points none [] with
    | (s, .error t) => (s, .error t)
    | (s, .ok fills) =>
      match fills.find? fun p => p.2.peer.isSome with
      | some p => (s, .error (protectionAt p.1.lane acc 0))
      | none => (s, .ok fills)

/-- Steps 2 to 9 of R302 for offsets in a window: the offsets, and the fills that stash sectors need. A fill under a store needs write permission. -/
def State.checkWindow (s : State) (x : Exec) (write : Bool) (size : Nat) (tgt : Option Team) (ps : List (Nat × Int)) :
    State × Except Trap (List (Nat × Nat) × List (Point × Access)) :=
  let acc := if write then accWrite else accRead
  match ps.find? fun p => p.2 % (size : Int) ≠ 0 with
  | some p => (s, .error (misalignedAt p.1 acc (p.2 % 2 ^ 64).toNat))
  | none =>
    match ps.find? fun p => tgt.all fun tm => decide (p.2 < 0 ∨ p.2 + (size : Int) > (tm.winSize : Int)), tgt with
    | some p, _ => (s, .error (scratchAt p.1 (p.2 % 2 ^ 64).toNat))
    | none, none => (s, .ok ([], []))
    | none, some tm =>
      let os := ps.map fun p => (p.1, p.2.toNat)
      let lacking := (windowMasks size os).filter fun m => (tm.slotOf (128 * m.1)).isSome && (tm.sectorAt m.1).lacks m.2 write
      let points := os.filterMap fun p =>
        if lacking.any fun m => m.1 = p.2 / 128 then (tm.slotOf p.2).map fun q => stashPoint q p.1 p.2 else none
      match s.probeStash x acc size points with
      | (s, .error t) => (s, .error (fillFault acc os t))
      | (s, .ok fills) =>
        let saved : Bool := match tm.residence with
          | .saved _ _ _ => true
          | _ => false
        match os.find? fun p => saved || s.lockedWindow x.core tm.tid p.2 size write || s.lockedWindow tm.core tm.tid p.2 size write ||
            s.fillLocked x points p.1 with
        | some p => (s, .error (lockAt p.1 acc p.2))
        | none => (s, .ok (os, fills))

/-- Fill the stash sectors that an access needs, each once. -/
def State.fillAll (s : State) (st : Stamp) (t : Nat) (ps : List (Nat × Nat)) : List (Point × Access) → State
  | [] => s
  | f :: fs =>
    let k := (((ps.find? fun p => p.1 = f.1.lane).map (·.2)).getD 0) / 128
    let s := if ((s.team? t).map fun tm => (tm.sectorAt k).filled).getD true then s else s.stashFill st t k f.2
    s.fillAll st t ps fs

/-- Store bytes in a window, and mark stash sectors dirty (R253, R260): clean stores whose masks together cover a stash sector clear its poison (R308). -/
def Team.storeWindow (x : Team) (k : Nat) (mask : BitVec 128) (d : BitVec 1024) (brings : Bool) : Team :=
  let y := x.sectorAt k
  let x := x.putWindow k mask d brings
  if (x.slotOf (128 * k)).isSome then
    let all := (y.mask ||| mask) == BitVec.allOnes 128
    let carried := brings || (y.carried && mask != BitVec.allOnes 128)
    { x with winPoison := if all && !carried then dropNat k x.winPoison else x.winPoison }.setSector
      { y with filled := y.filled || all, mask := y.mask ||| mask, carried := carried }
  else x

/-- A window access after its checks, with the effects of its ordering: the release comes first, and fills follow it. -/
def windowAccess (e : Env) (write : Bool) (size : Nat) (s : State)
    (f : Effects) (k : Nat → List (Nat × Nat) → State → State) : Except Stop State :=
  let check := fun s : State => s.checkWindow e.x write size (s.windowTeam e) e.offsets
  match check s with
  | (_, .error t) => .error (.trap t)
  | (s, .ok _) =>
    match f.before e.x s with
    | .error t => .error t
    | .ok s =>
      match check s, s.windowTeam e with
      | (_, .error t), _ => .error (.trap t)
      | (s, .ok _), none => .ok s
      | (s, .ok r), some tm => .ok (f.after e.x (k tm.tid r.1 (s.fillAll (s.stampOf e.x) tm.tid r.1 r.2)))

/-- The sources of a scratchpad form's address. -/
def Env.windowSources (e : Env) : List (Operand × Mask) :=
  [(e.x.w.a, if e.v.regs.taint e.x.w.a then BitVec.allOnes 32 else 0#32), (e.x.w.b, (e.src e.x.w.b .b32).poison)]

/-! ## The instructions -/

/-- `ld` (R306). -/
def execLd (w : Fields) (s : State) : Outcome State Fault Refusal := loadGlobal 0x80#8 w s

/-- `st` (R307). -/
def execSt (w : Fields) (s : State) : Outcome State Fault Refusal := storeGlobal 0x81#8 w s

/-- `ldsp` (R306, R251 to R253). -/
def execLdsp (w : Fields) (s : State) : Outcome State Fault Refusal :=
  issue (kindMem false true) 0x82#8 w 16 (memBody fun e s =>
    match consumeLanes e.x.part e.windowSources with
    | some t => .error (.trap t)
    | none =>
      let size := mdBytes w.md
      windowAccess e false size s (effectsOf true w.md) fun t ps s =>
        let rs := (s.team? t).map fun tm => ps.map fun p => (p.1, memNat tm.window p.2 size, tm.winPoison.contains (p.2 / 128))
        let rs := rs.getD []
        s.deliver e.x
          ⟨e.id, loadWrites (regOf w.d) size w.ty e.x.part (laneValue rs) (lanePoison rs), [], [], [], 0#5, .none⟩) s

/-- `stsp` (R307, R251 to R253). -/
def execStsp (w : Fields) (s : State) : Outcome State Fault Refusal :=
  issue (kindMem false false) 0x83#8 w 16 (memBody fun e s =>
    let size := mdBytes w.md
    let d := e.data w.c size
    match consumeLanes e.x.part (e.windowSources ++ [(w.c, d.poison)]) with
    | some t => .error (.trap t)
    | none =>
      windowAccess e true size s (effectsOf false w.md) fun t ps s =>
        (windowMasks size ps).foldl (fun s m =>
          let data := ps.foldl (fun (v : BitVec 1024) p =>
            if p.2 / 128 = m.1 then
              mergeSector v (BitVec.ofNat 1024 (d.val (Fin.ofNat 32 p.1) * 2 ^ (8 * (p.2 % 128)))) (byteRun (p.2 % 128) size)
            else v) 0#1024
          s.modTeam t fun tm => tm.storeWindow m.1 m.2 data false) s) s

/-- The address of a scalar form (R299). -/
def scalarPoint (x : Exec) (r : Regs) : Point :=
  ⟨laneNone, (((r.bits x.w.a).toNat : Int) + displacement x.w) % 2 ^ 64, none⟩

/-- `sld` (R306), of a gang or of a sequencer. -/
def execSld (w : Fields) (s : State) : Outcome State Fault Refusal :=
  issue (kindMem true true) 0x84#8 w 16 (fun x s =>
    let r := s.regsOf x.u
    let id := s.ids
    match consumeOnce [(w.a, r.taint w.a)] with
    | some t => .error (.trap t)
    | none =>
      let size := mdBytes w.md
      match s.checkGlobal x accRead size size [scalarPoint x r] with
      | (_, .error t) => .error (.trap t)
      | (s, .ok as) =>
        let as := as.map fun p => (p.1, p.2.withMd w.md)
        if as.any fun p => s.awaitsOwn x p.2 then .error (.wait .remote)
        else
          let f := effectsOf true w.md
          match f.before x s with
          | .error t => .error t
          | .ok s =>
            let r := (if w.fn = 1#4 then s.promoteAll x else s).readLanes as []
            let v := laneValue r.2 laneNone
            let p := if r.2.any (·.2.2) then 3#2 else 0#2
            let sca := match w.d with
              | .sca sel i =>
                let q := scalarResult w.ty sel v
                [⟨i, q.1, q.2, p⟩]
              | _ => []
            .ok (f.after x (r.1.deliver x ⟨id, [], sca, [], [], 0#5, .none⟩))) s

/-- `sst` (R307), of a gang or of a sequencer. -/
def execSst (w : Fields) (s : State) : Outcome State Fault Refusal :=
  issue (kindMem true false) 0x85#8 w 16 (fun x s =>
    let r := s.regsOf x.u
    match consumeOnce [(w.a, r.taint w.a), (w.c, r.taint w.c)] with
    | some t => .error (.trap t)
    | none =>
      let size := mdBytes w.md
      match s.checkGlobal x accWrite size size [scalarPoint x r] with
      | (_, .error t) => .error (.trap t)
      | (s, .ok as) =>
        let f := effectsOf false w.md
        match f.before x s with
        | .error t => .error t
        | .ok s =>
          let rs := as.foldl (fun rs p => addLane rs (p.2.withMd w.md) p.1.va.toNat ((r.bits w.c).toNat % 2 ^ (8 * size))) []
          .ok (holdRemote x f.holds (f.settle x (as.map (·.2)) (storeAll x f rs s)))) s

/-- `xlate` (R301). [log 51: DEDUCED, unsafe] -/
def execXlate (w : Fields) (s : State) : Outcome State Fault Refusal :=
  issue (kindMem true true) 0x86#8 w 16 (fun x s =>
    let r := s.regsOf x.u
    match consumeOnce [(w.a, r.taint w.a)] with
    | some t => .error (.trap t)
    | none =>
      let va := (scalarPoint x r).va.toNat
      if va ≥ 2 ^ 56 then .error (.trap (protectionAt laneNone accRead va))
      else
        match s.look x va with
        | (_, .absent) => .error (.trap (.page (BitVec.ofNat 56 va) (pageAcc accRead)))
        | (_, .poisoned) => .error (.trap (.coded 0x2A#8 (detailPoison laneNone 2#2 va)))
        | (_, .malformed) => .error (.trap (protectionAt laneNone accRead va))
        | (s, .leaf l) =>
          if ¬ s.lit l.cc then
            .error (.trap (if s.circuitFails x.u then protectionAt laneNone accRead va
                           else .circuit (BitVec.ofNat 56 va) (pageAcc accRead)))
          else
            let t : Trans :=
              { lim := BitVec.ofNat 32 (min (l.base + 2 ^ l.bits - va) 0xFFFFFFFF), cp := l.cp, cc := l.cc, vis := l.vis
                xwr := l.xwr, v := true, pa := BitVec.ofNat 52 (l.pa va), va := BitVec.ofNat 56 va }
            let d := match w.d with
              | .trans i => [(i, t)]
              | _ => []
            .ok (s.deliver x ⟨s.ids, [], [], [], d, 0#5, .none⟩)) s

/-- Starts of the parts of [va, va + n) that lie in one 64 KiB page each, with their sizes. -/
def pagesOf (va n : Nat) : List (Nat × Nat) :=
  let first := va / 65536
  let last := (va + n + 65535) / 65536
  (List.range (last - first)).map fun i =>
    let lo := max va ((first + i) * 65536)
    (lo, min (va + n) ((first + i + 1) * 65536) - lo)

/-- Probe the pages of a range for reading and writing, each of class 0 (R316). [log 27: DEDUCED, unsafe] -/
def State.probePages (s : State) (x : Exec) : List (Nat × Nat) → Option (Nat × Trap) → State × Option (Nat × Trap)
  | [], e => (s, e)
  | p :: ps, e =>
    match s.probe x accBoth p.2 ⟨laneNone, p.1, none⟩ with
    | (s, .error f) => s.probePages x ps (worst e f)
    | (s, .ok a) =>
      s.probePages x ps (if a.peer.isSome then worst e (7, protectionAt laneNone accBoth p.1) else e)

/-- Ranges [a, a + m) and [b, b + n) overlap. -/
def overlap (a m b n : Nat) : Bool := a < b + n && b < a + m

/-- Unmap a slot whose sectors are clean: those not filled read as zero (R316). [log 26: DEDUCED, unsafe] -/
def Team.unmap (x : Team) (slot : Nat) : Team :=
  match vget x.stash slot none with
  | none => x
  | some p =>
    let inside := fun o => p.w ≤ o ∧ o < p.w + p.n
    let keep := fun k => !inside (128 * k) || (x.sectorAt k).filled
    { x with
      window := x.window.filter fun c => keep (c.1 / 128)
      winPoison := x.winPoison.filter keep
      sectors := x.sectors.filter fun y => !inside (128 * y.sector)
      stash := vset x.stash slot none }

/-- Map a slot: every sector of its range is unfilled, and the bytes there are discarded (R316). -/
def Team.mapSlot (x : Team) (slot : Nat) (p : StashSlot) : Team :=
  let inside := fun o => p.w ≤ o ∧ o < p.w + p.n
  { x with
    window := x.window.filter fun c => ¬ inside c.1
    winPoison := x.winPoison.filter fun k => ¬ inside (128 * k)
    sectors := x.sectors.filter fun y => !inside (128 * y.sector)
    stash := vset x.stash slot (some p) }

/-- `stmap` (R316). [log 27: DEDUCED, unsafe] -/
def execStmap (w : Fields) (s : State) : Outcome State Fault Refusal :=
  issue (kindMem true false) 0x87#8 w 16 (fun x s =>
    let r := s.regsOf x.u
    match consumeOnce [(w.a, r.taint w.a), (w.b, r.taint w.b), (w.c, r.taint w.c)], s.team? x.t with
    | some t, _ => .error (.trap t)
    | none, none => .ok s
    | none, some tm =>
      let slot := w.fn.toNat
      let o := (r.bits w.a).toNat
      let va := (r.bits w.b).toNat
      let n := (r.bits w.c).toNat
      let old := vget tm.stash slot none
      let clash := (List.range 4).any fun j =>
        j ≠ slot && (vget tm.stash j none).any fun p => overlap o n p.w p.n
      match [o, va, n].find? fun v => v % 128 ≠ 0 with
      | some v => .error (.trap (misalignedAt laneNone accBoth v))
      | none =>
        if n > 0 ∧ (o + n > tm.winSize ∨ clash) then .error (.trap (scratchAt laneNone o))
        else if n > 0 ∧ va + n > 2 ^ 56 then .error (.trap (protectionAt laneNone accBoth va))
        else
          match s.probePages x (if n > 0 then pagesOf va n else []) none with
          | (_, some f) => .error (.trap f.2)
          | (s, none) =>
            let held := (n != 0 && s.lockedWindow x.core x.t o n true) || (old.any fun p => s.lockedWindow x.core x.t p.w p.n true)
            if held then .error (.trap (lockAt laneNone accBoth o))
            else
              match s.stashBackAll x true 0#3 x.t (tm.dirtySectors fun p => some p = old) with
              | .error t => .error (.trap t)
              | .ok s =>
                .ok (s.modTeam x.t fun tm =>
                  let tm := tm.unmap slot
                  if n > 0 then tm.mapSlot slot ⟨o, BitVec.ofNat 64 va, n⟩ else tm)) s

/-- `stflush` (R317). -/
def execStflush (w : Fields) (s : State) : Outcome State Fault Refusal :=
  issue (kindMem true false) 0x88#8 w 16 (fun x s =>
    match s.team? x.t with
    | none => .ok s
    | some tm =>
      let chosen := fun p : StashSlot => w.fn = 4#4 || vget tm.stash w.fn.toNat none == some p
      match s.stashBackAll x true (mdScope w.md) x.t (tm.dirtySectors chosen) with
      | .error t => .error (.trap t)
      | .ok s => if mdOrder w.md = 2#2 then releaseAt x (mdScope w.md) s else .ok s) s

/-- The operation of an `atom` or `red` in a lane (R309). -/
def Env.atomicOp (e : Env) (l : Fin 32) : AtomicOp :=
  let w := e.x.w
  let t := if w.ty = .rx256 then .f64 else w.ty
  let width := opWidth t
  let cn : Nat × Nat :=
    if w.fn = 7#4 then
      ((e.vecSrc (regOf w.c).toNat width).val l, (e.vecSrc ((regOf w.c).toNat + width / 32) width).val l)
    else ((e.src w.c t).val l, 0)
  ⟨w.fn.toNat, w.ty, BitVec.ofNat 64 cn.1, BitVec.ofNat 64 cn.2, e.v.regs.fpctl⟩

/-- The poison of an atomic's operand. -/
def Env.atomicPoison (e : Env) : Mask :=
  let w := e.x.w
  let width := opWidth w.ty
  if w.fn = 7#4 then
    (e.vecSrc (regOf w.c).toNat width).poison ||| (e.vecSrc ((regOf w.c).toNat + width / 32) width).poison
  else (e.src w.c (if w.ty = .rx256 then .f64 else w.ty)).poison

/-- Perform or send the atomics of lanes in ascending order (R268, R310): lanes with what D receives, and the flags. -/
def State.atomicLanes (s : State) (e : Env) (dest : Bool) (ord : Effects) :
    List (Point × Access) → List (Nat × Nat × Bool) → BitVec 5 → State × List (Nat × Nat × Bool) × BitVec 5
  | [], rs, f => (s, rs.reverse, f)
  | p :: ps, rs, f =>
    let o := e.atomicOp (Fin.ofNat 32 p.1.lane)
    match p.2.peer with
    | some peer =>
      let s := s.sendRemote
        { id := 0, who := e.x.u, peer, sector := p.2.key / 128, mask := p.2.mask, data := 0#1024, brings := false,
          atomic := some o, dest := if dest then some (e.id, p.1.lane) else none, va := p.1.va.toNat, holds := ord.holds, acq := ord.late }
      s.atomicLanes e dest ord ps rs f
    | none =>
      let r := s.atomic p.2 o
      let s := if r.2.2.1 && !dest then r.1.postPoison e.x.core p.1.va.toNat else r.1
      s.atomicLanes e dest ord ps ((p.1.lane, r.2.1, r.2.2.1) :: rs) (f ||| r.2.2.2)

/-- `atom` and `red` (R309 to R312). -/
def atomicForm (op : BitVec 8) (w : Fields) (dest : Bool) (s : State) : Outcome State Fault Refusal :=
  issue (kindMem false dest) op w 16 (memBody fun e s =>
    let size := if w.ty = .rx256 then 32 else mdBytes w.md
    match e.accesses s accBoth size size [(w.c, e.atomicPoison)] with
    | (_, .error t) => .error (.trap t)
    | (s, .ok as) =>
      let f : Effects := ⟨mdOrder w.md = 3#2, mdOrder w.md = 3#2, mdScope w.md⟩
      match f.before e.x s with
      | .error t => .error t
      | .ok s =>
        let r := s.atomicLanes e dest f as [] 0#5
        let s :=
          if dest then
            let vec := vecWrites (regOf w.d) (opWidth w.ty) e.x.part (fun l => laneValue r.2.1 l) (lanePoison r.2.1)
            r.1.deliver e.x
              ⟨e.id, vec, [], [], [], r.2.2, if as.any fun p => p.2.peer.isSome then .remote else .none⟩
          else r.1
        .ok (holdRemote e.x f.holds (f.settle e.x (as.map (·.2)) s))) s

/-- `atom` (R310); with D none it acts as `red` (R312). -/
def execAtom (w : Fields) (s : State) : Outcome State Fault Refusal := atomicForm 0x89#8 w (w.d != .none) s

/-- `red` (R312). -/
def execRed (w : Fields) (s : State) : Outcome State Fault Refusal := atomicForm 0x8A#8 w false s

/-- `fence` (R272, R314), of a gang or of a sequencer. -/
def execFence (w : Fields) (s : State) : Outcome State Fault Refusal :=
  issue (kindMem true false) 0x8B#8 w 16 (fun x s =>
    let f : Effects := ⟨true, true, mdScope w.md⟩
    match f.before x (if w.fn = 1#4 then s.promoteAll x else s) with
    | .error t => .error t
    | .ok s => .ok (f.after x s)) s

/-- A die holds no team (R315). -/
def State.dieIdle (s : State) (d : Nat) : Bool :=
  (s.die d).fenced || !(s.teams.any fun t => decide (dieOf t.core = d ∧ t.residence ≠ .done))

/-- `fpromote` (R282, R315). -/
def execFpromote (w : Fields) (s : State) : Outcome State Fault Refusal :=
  issue (kindMem true false) 0x8C#8 w 16 (fun x s =>
    let r := s.regsOf x.u
    match consumeOnce [(w.a, r.taint w.a)] with
    | some t => .error (.trap t)
    | none =>
      let p := (r.bits w.a).toNat % 2 ^ 32
      if w.fn = 0#4 ∧ p ≥ 9 then .error (.trap (protectionOnce (BitVec.ofNat 56 p)))
      else
        let dies := (if w.fn = 0#4 then [p] else List.range 9).filter fun d => !s.dieIdle d
        if dies = [] then .ok s
        else
          let s := s.bump
          .ok { s with promotions := s.promotions ++ [⟨s.ids, x.u, s.stampOf x, dies⟩] }) s

/-- Bring the line of an address toward the core, unless its translation would fault or its sector is poisoned (R318). -/
def State.prefetchLane (s : State) (x : Exec) (hint : BitVec 2) (p : Point) : State :=
  if p.va < 0 ∨ p.va ≥ 2 ^ 56 then s
  else
    match s.probe x accRead 1 p with
    | (s, .error _) => s
    | (s, .ok a) =>
      if a.peer.isSome ∨ regionOf a.pa = .scratch ∨ a.cp = 2#2 ∨ s.memPoison.contains (a.key / 128) then s
      else (s.read { a with hint := if hint = 0#2 then 0#2 else 2#2 }).1

/-- `prefetch` (R318). -/
def execPrefetch (w : Fields) (s : State) : Outcome State Fault Refusal :=
  issue (kindMem false false) 0x8D#8 w 16 (memBody fun e s =>
    let bad := e.pointSources.foldl (fun (m : Mask) p => m ||| p.2) 0#32
    .ok ((e.points 1).foldl (fun s p =>
      if bad.getLsbD p.lane then s else s.prefetchLane e.x (mdHint w.md) p) s)) s

/-- `ldg` (R306). -/
def execLdg (w : Fields) (s : State) : Outcome State Fault Refusal := loadGlobal 0x8E#8 w s

/-- `stg` (R307). -/
def execStg (w : Fields) (s : State) : Outcome State Fault Refusal := storeGlobal 0x8F#8 w s

end Sys2Proof.Machine
end

