-- ==== Sys2Proof/Machine/Tiles.lean ====
section
/-! DEFINITION. Tensor memory: the words of a tile, the palette's checks, grants and releases of granules with the arbiter, and the acceptance of commands into the two units. -/

namespace Sys2Proof.Machine

/-! ## Granules and tiles (R254, R319, R321) -/

/-- Word columns of an element (R319). -/
def wordsPer : Ty → Nat
  | .f64 => 2
  | .x96 => 3
  | _ => 1

/-- The number of `n` 32-bit words, word 0 lowest. -/
def packWords (f : Nat → Nat) (n : Nat) : Nat := (List.range n).foldr (fun (i : Nat) (v : Nat) => f i % 2 ^ 32 + 2 ^ 32 * v) 0

/-- Word of row `r` and column `c` (R254). -/
def Granule.word (g : Granule) (r c : Nat) : Nat := (g.data.extractLsb' (32 * (8 * r + c)) 32).toNat

/-- A granule that reads zero (R254). -/
def Granule.zero : Granule := ⟨0#16384, false⟩

/-- Word of row `r` and word column `j` of a tile (R319). -/
def Tile.word (x : Tile) (r j : Nat) : Nat := ((x.granules[j / 8]?).map fun g => g.word r (j % 8)).getD 0

/-- The granule of a word column is poisoned. -/
def Tile.tainted (x : Tile) (j : Nat) : Bool := ((x.granules[j / 8]?).map (·.poison)).getD false

/-- Bits of element (r, c) (R319). -/
def Tile.element (x : Tile) (r c : Nat) : Nat :=
  let u := wordsPer x.ty
  packWords (fun i => x.word r (u * c + i)) u

/-- The value that an `x96` pattern holds (R123). -/
def x96Value (v : Nat) : Val :=
  let i := (BitVec.ofNat 96 v).toInt
  .fin (i < 0) i.natAbs (-32)

/-- The value of an element in a type of a handle. -/
def elementValue (t : Ty) (v : Nat) : Val := if t = .x96 then x96Value v else readAs t v

/-- The value of element (r, c). -/
def Tile.value (x : Tile) (r c : Nat) : Val := elementValue x.ty (x.element r c)

/-- A granule of a column run is poisoned (R321). -/
def Tile.runTainted (x : Tile) (c0 n : Nat) : Bool :=
  let u := wordsPer x.ty
  (List.range (u * n)).any fun j => x.tainted (u * c0 + j)

/-- Write word columns `lo` to `hi` - 1 of every row, with the poison of R321: `bad` when an input is poisoned. -/
def Tile.put (x : Tile) (lo hi : Nat) (f : Nat → Nat → Nat) (bad : Bool) : Tile :=
  { x with
    granules := x.granules.mapIdx fun k g =>
      if 8 * k < hi ∧ lo < 8 * k + 8 then
        { data := BitVec.ofNat 16384 (packWords (fun i =>
            let j := 8 * k + i % 8
            if lo ≤ j ∧ j < hi then f (i / 8) j else g.word (i / 8) (i % 8)) 512)
          poison := bad || (g.poison && !(decide (lo ≤ 8 * k) && decide (8 * k + 8 ≤ hi))) }
      else g }

/-- A tile of a team. -/
def Team.tile? (x : Team) (id : Nat) : Option Tile := x.tiles.find? fun y => y.id = id

/-- Apply a change to a tile of a team. -/
def State.modTile (s : State) (t id : Nat) (f : Tile → Tile) : State :=
  s.modTeam t fun x => { x with tiles := updateFirst (fun y => y.id = id) f x.tiles }

/-! ## Handles (R392, R394) -/

/-- A palette entry by its number. -/
def Team.handle (x : Team) (h : BitVec 5) : Handle := x.handles[h.toNat]'h.isLt

/-- Replace a palette entry. -/
def Team.setHandle (x : Team) (h : BitVec 5) (v : Handle) : Team := { x with handles := x.handles.set h.toNat v h.isLt }

/-- The commands of a core that are accepted and not completed. -/
def Core.commands (c : Core) : List Command := c.array ++ c.copy

/-- A command names a tile. -/
def Command.names (c : Command) (tile : Nat) : Bool := c.dTile == some tile || c.aTile == some tile

/-- A tile has an accepted command that names it (R323). -/
def State.tileBusy (s : State) (core tile : Nat) : Bool := (s.core core).commands.any fun c => c.names tile

/-- A handle-released fault (R394, R433). -/
def handleFault (op : BitVec 8) (h : BitVec 5) (why : BitVec 8) : Trap := .coded 0x27#8 (detailOp op (0#11 ++ h ++ why))

/-- Step 2 of R328: the handle is held by the issuing gang (R394). -/
def heldFault (x : Exec) (tm : Team) (h : BitVec 5) : Option Trap :=
  let v := tm.handle h
  match v.st with
  | .unallocated => some (handleFault x.op h 1#8)
  | .released => some (handleFault x.op h 2#8)
  | .given => some (handleFault x.op h 3#8)
  | .owned => if v.own.toNat = x.g then none else some (handleFault x.op h 3#8)

/-- The tile that a handle names. -/
def Team.tileOf (x : Team) (h : BitVec 5) : Option Tile := (x.handle h).tile.bind x.tile?

/-- A scratch-bound fault that names a handle (R320, R433): kind 1 column run, kind 2 type. -/
def runFault (kind : BitVec 2) (h : BitVec 5) : Trap := .coded 0x26#8 (detailLane laneNone kind (h.zeroExtend 56))

/-- The column run [c0, c0 + n) of a handle (R320). -/
def columnFault (tm : Team) (h : BitVec 5) (c0 n : Nat) : Option Trap :=
  if c0 + n > 8 * (tm.handle h).nc then some (runFault 1#2 h) else none

/-- The type of a handle (R320). -/
def typeFault (tm : Team) (h : BitVec 5) (t : Ty) : Option Trap :=
  if (tm.handle h).ty = t then none else some (runFault 2#2 h)

/-- The first failing check. -/
def firstFault (l : List (Option Trap)) : Option Trap := l.findSome? id

/-- The handle of an operand. -/
def handleOf : Operand → BitVec 5
  | .tile h => h
  | _ => 0#5

/-- The palette entry as R392 lays it out. [log 31: DEDUCED, unsafe] -/
def State.paletteEntry (s : State) (tm : Team) (h : BitVec 5) : W64 :=
  let v := tm.handle h
  let tile := tm.tileOf h
  let st : BitVec 4 :=
    match v.st with
    | .unallocated => 0#4
    | .owned => if (v.tile.any fun t => s.tileBusy tm.core t) then 3#4 else 1#4
    | .given => 2#4
    | .released => 4#4
  let typ : BitVec 2 :=
    match v.ty with
    | .f64 => 1#2
    | .x96 => 2#2
    | _ => 0#2
  let ng := BitVec.ofNat 8 ((tile.map (·.granules.length)).getD 0)
  0#32 ++ ng ++ BitVec.ofBool (tile.any fun t => t.granules.any (·.poison)) ++ BitVec.ofNat 7 v.nc ++ typ ++ v.dest ++ v.own ++ st

/-! ## Granules of a core (R393, R399, R400) -/

/-- Granules that a team holds; those of a freed tile whose commands run count until they enter clearing. -/
def Team.held (x : Team) : Nat := (x.tiles.map (·.granules.length)).sum

/-- A team keeps its reserve on its core: it is resident, or its save or exit is under way. -/
def Team.placedOn (x : Team) (core : Nat) : Bool :=
  decide (x.core = core) && (match x.residence with
    | .resident | .saving _ _ | .exited => true
    | _ => false)

/-- Granules being cleared on a core. -/
def Core.clearingCount (c : Core) : Nat := (c.clearing.map (·.2)).sum

/-- The pool of a core (R393). -/
def State.pool (s : State) (core : Nat) : Nat :=
  256 - (((s.teams.filter fun x => x.placedOn core).map fun x => max x.reserve x.held).sum + (s.core core).clearingCount)

/-- Granules of a core that nothing holds. -/
def State.vacant (s : State) (core : Nat) : Nat :=
  256 - (((s.teams.filter fun x => x.core = core).map (·.held)).sum + (s.core core).clearingCount)

/-- What is left of a team's reserve (R399). -/
def Team.reserveLeft (x : Team) : Nat := x.reserve - x.held

/-- A request within reserve that can be met (R399, R400). -/
def State.withinReserve (s : State) (x : Team) (n : Nat) : Bool := n ≤ x.reserveLeft ∧ n ≤ s.vacant x.core

/-- `fits` of R399. -/
def State.fitsTile (s : State) (x : Team) (n : Nat) : Bool :=
  n - min n x.reserveLeft ≤ s.pool x.core ∧ n ≤ s.vacant x.core

/-- Granules of a tile of a type and a column count (R319). -/
def granuleCount (ty : Ty) (cols : Nat) : Nat := cols * wordsPer ty / 8

/-- `grant` of R399: the handle owns a tile of zero granules. -/
def State.grantTile (s : State) (t g : Nat) (h : BitVec 5) (ty : Ty) (cols : Nat) : State :=
  s.bump.modTeam t fun x =>
    { x.setHandle h ⟨.owned, BitVec.ofNat 5 g, 0#5, ty, cols / 8, some s.ids⟩ with
      tiles := x.tiles ++ [⟨s.ids, ty, cols, List.replicate (granuleCount ty cols) Granule.zero, false⟩] }

/-- A gang blocked for granules or for registers of its core (R150, R400). -/
structure Waiter where
  team : Nat
  gang : Nat
  why : Block
  deadline : Nat
  order : Nat
  deriving DecidableEq, Repr, Inhabited

/-- The gangs of a core whose block a test names. -/
def State.waitersOf (s : State) (core : Nat) (p : Block → Bool) : List Waiter :=
  (s.teams.filter fun x => decide (x.core = core ∧ x.residence = .resident)).flatMap fun x =>
    x.gangs.zipIdx.filterMap fun q =>
      match q.1.status with
      | .blocked why order => if p why then some ⟨x.tid, q.2, why, x.deadline.toNat, order⟩ else none
      | _ => none

/-- Ahead in an arbiter's order: the earlier deadline, then the earlier issue (R150, R400). -/
def Waiter.ahead (a b : Waiter) : Bool := a.deadline < b.deadline ∨ (a.deadline = b.deadline ∧ a.order ≤ b.order)

/-- Insert in an arbiter's order. -/
def insertWaiter (w : Waiter) : List Waiter → List Waiter
  | [] => [w]
  | x :: xs => if w.ahead x then w :: x :: xs else x :: insertWaiter w xs

/-- Blocked in `talloc.wait`. -/
def Block.isTalloc : Block → Bool
  | .talloc _ _ _ _ => true
  | _ => false

/-- Blocked in `rgrow.wait`. -/
def Block.isRgrow : Block → Bool
  | .rgrow _ => true
  | _ => false

/-- The waiters of a core's allocation arbiter, in its order (R400). -/
def State.tileWaiters (s : State) (core : Nat) : List Waiter := (s.waitersOf core Block.isTalloc).foldr insertWaiter []

/-- The count that a waiter requests, in granules or registers. -/
def Waiter.need (w : Waiter) : Nat :=
  match w.why with
  | .talloc _ ty cols _ => granuleCount ty cols
  | .rgrow n => n
  | _ => 0

/-- Grant a waiter and make its gang ready (R400). -/
def State.grantWaiter (s : State) (w : Waiter) : State :=
  match w.why with
  | .talloc h ty cols _ => (s.grantTile w.team w.gang h ty cols).wake (.gang w.team w.gang)
  | _ => s

/-- Grant the waiters that are within reserve, in order. -/
def State.grantReserved (s : State) : List Waiter → State
  | [] => s
  | w :: ws => ((if (s.team? w.team).any fun x => s.withinReserve x w.need then s.grantWaiter w else s)).grantReserved ws

/-- Grant the waiters that need the pool, in order, until one does not fit. -/
def State.grantPooled (s : State) : List Waiter → State
  | [] => s
  | w :: ws =>
    match s.team? w.team with
    | none => s.grantPooled ws
    | some x =>
      if w.need ≤ x.reserveLeft then s.grantPooled ws
      else if s.fitsTile x w.need then (s.grantWaiter w).grantPooled ws
      else s

/-- The allocation arbiter of a core (R400). -/
def State.arbitrate (s : State) (core : Nat) : State :=
  let s := s.grantReserved (s.tileWaiters core)
  s.grantPooled (s.tileWaiters core)

/-- Granules of a tile enter clearing (R254, R393). -/
def State.clearTile (s : State) (t id : Nat) : State :=
  match (s.team? t).bind fun x => (x.tile? id).map fun y => (x.core, y.granules.length) with
  | none => s
  | some (core, n) =>
    (s.bump.modTeam t fun x => { x with tiles := x.tiles.filter fun y => y.id ≠ id }).modCore core fun c =>
      { c with clearing := c.clearing ++ [(s.ids, n)] }

/-- Release a tile: at once, or when its commands have completed (R404). -/
def State.freeTile (s : State) (t id : Nat) : State :=
  if (s.team? t).any fun x => s.tileBusy x.core id then s.modTile t id fun y => { y with freed := true }
  else s.clearTile t id

/-- Release a handle with its tile (R394, R404). [log 31: DEDUCED, unsafe] -/
def State.releaseHandle (s : State) (t : Nat) (h : BitVec 5) : State :=
  match s.team? t with
  | none => s
  | some x =>
    let v := x.handle h
    let s := s.modTeam t fun x => x.setHandle h { v with st := .released, tile := none }
    match v.tile with
    | some id => s.freeTile t id
    | none => s

/-- The handles that go with a gang that retires (R394). -/
def State.retireHandles (s : State) (t g : Nat) : State :=
  match s.team? t with
  | none => s
  | some x =>
    let lost := (List.range 32).filter fun i =>
      let v := x.handle (BitVec.ofNat 5 i)
      (v.st = .owned ∧ v.own.toNat = g) ∨ (v.st = .given ∧ v.dest.toNat = g)
    lost.foldl (fun s i => s.releaseHandle t (BitVec.ofNat 5 i)) s

/-- Every handle of a team becomes unallocated (R394). -/
def State.exitHandles (s : State) (t : Nat) : State :=
  match s.team? t with
  | none => s
  | some x =>
    let s := s.modTeam t fun x => { x with handles := Vector.ofFn fun _ => Handle.reset }
    (x.tiles.map (·.id)).foldl (fun s id => s.freeTile t id) s

/-! ## Acceptance of commands (R322 to R324) -/

/-- The copy engine performs a command; the array performs the others (R322). -/
def CmdKind.onCopy : CmdKind → Bool
  | .tldSp | .tldGl | .tldV | .tstSp | .tstGl | .tstV | .mcopy => true
  | _ => false

/-- Two ranges share a byte and one of the two commands writes it. -/
def CmdRange.clashes (ca cb : Nat) (a b : CmdRange) : Bool :=
  a.win == b.win && (a.win.isSome || ca == cb) && overlap a.base a.len b.base b.len && (a.writes || b.writes)

/-- Context of a command's team. -/
def State.ctxOf (s : State) (t : Nat) : Nat := ((s.team? t).map (·.ctx)).getD 0

/-- Two commands have ranges that clash. -/
def State.rangesClash (s : State) (a b : Command) : Bool :=
  a.ranges.any fun r => b.ranges.any fun q => r.clashes (s.ctxOf a.team) (s.ctxOf b.team) q

/-- Two commands name a common tile. -/
def Command.shares (a b : Command) : Bool := (a.dTile.any b.names) || a.aTile.any b.names

/-- The handle that a command shares with another, the lower number where it shares both. -/
def Command.commonHandle (a b : Command) : BitVec 5 :=
  let hs := (if a.dTile.any b.names then a.dHandle.toList else []) ++ (if a.aTile.any b.names then a.aHandle.toList else [])
  hs.foldl (fun (m h : BitVec 5) => if h < m then h else m) 31#5

/-- The lowest free entry of a range-lock table, 32 when it is full (R391). -/
def freeLock (ls : List Lock) : Nat := ((List.range 32).find? fun n => ls.all fun l => l.entry ≠ n).getD 32

/-- Why commands wait at their issue checks (R285, R322, R323). -/
def State.commandWait (s : State) (x : Exec) (cs : List Command) : Option Wait :=
  let u := s.core x.core
  let pairs := cs.flatMap fun c => (if c.kind.onCopy then u.array else u.copy).map fun o => (c, o)
  match pairs.find? fun p => p.1.shares p.2 with
  | some p => some (.handle x.op (p.1.commonHandle p.2))
  | none =>
    if pairs.any fun p => s.rangesClash p.1 p.2 then some (.range x.op)
    else if u.copy.length + (cs.filter (·.kind.onCopy)).length > 16 ∧ cs.any (·.kind.onCopy) then some .queue
    else if u.array.length + (cs.filter (!·.kind.onCopy)).length > 16 ∧ cs.any (!·.kind.onCopy) then some .queue
    else if u.locks.length + (cs.map (·.ranges.length)).sum > 32 then some .locks
    else none

/-- The range-lock entries of a command (R324, R391). -/
def addLocks (c : Command) (ctx : Nat) (ls : List Lock) : List Lock :=
  c.ranges.foldl (fun ls r =>
    ls ++ [⟨freeLock ls, some c.id, false, r.win.isSome, r.base, r.len, c.gang, r.win.getD c.team, ctx⟩]) ls

/-- Accept a command into its unit's queue, under the state's next name. -/
def State.accept (s : State) (x : Exec) (c : Command) : State :=
  let c := { c with id := s.ids, stamp := s.stampOf x }
  s.bump.modCore x.core fun u =>
    let u := { u with locks := addLocks c x.ctx u.locks }
    if c.kind.onCopy then { u with copy := u.copy ++ [c] } else { u with array := u.array ++ [c] }

/-- Step 7 of R328 and the acceptance of commands. -/
def State.submit (s : State) (x : Exec) (cs : List Command) : Except Stop State :=
  match s.commandWait x cs with
  | some w => .error (.wait w)
  | none => .ok (cs.foldl (fun s c => s.accept x c) s)

/-- A command of the issuing instruction, with what it reads at issue (R324, R332). -/
def Env.command (e : Env) (kind : CmdKind) : Command where
  id := 0
  kind := kind
  team := e.x.t
  gang := e.x.g
  w := e.x.w
  dTile := none
  aTile := none
  dHandle := none
  aHandle := none
  aOff := 0
  bOff := 0
  peer := e.x.t
  addr := 0
  pitch := 0
  block := []
  rm := if e.x.w.imm.extractLsb' 28 3 = 6#3 then e.v.regs.fpctl else e.x.w.imm.extractLsb' 28 3
  seed := e.seed
  teamNo := e.teamNo
  result := none
  ranges := []
  leaves := []
  after := none
  stamp := default
  begun := false
  beginTick := 0

/-- A command with its handles. -/
def Command.withHandles (c : Command) (tm : Team) (d a : Operand) : Command :=
  let name := fun o : Operand => match o with
    | .tile h => some h
    | _ => none
  { c with
    dHandle := name d, aHandle := name a
    dTile := (name d).bind fun h => (tm.handle h).tile
    aTile := (name a).bind fun h => (tm.handle h).tile }

/-! ## Ranges of commands (R324, R328) -/

/-- Steps 4 and 5 of R328 for ranges of the own window: offsets that are multiples of 128, then bounds. -/
def windowFault (tm : Team) (acc : BitVec 2) (rs : List (Nat × Nat)) : Option Trap :=
  firstFault
    (rs.map (fun r => if r.1 % 128 ≠ 0 then some (misalignedAt laneNone acc r.1) else none) ++
     rs.map (fun r => if r.1 + r.2 > tm.winSize then some (scratchAt laneNone r.1) else none))

/-- Stash sectors of a window range that a read of it must first fill (R253). -/
def Team.unfilledIn (x : Team) (o n : Nat) : List (Nat × StashSlot) :=
  (List.range ((o + n + 127) / 128 - o / 128)).filterMap fun i =>
    let k := o / 128 + i
    let lo := max o (128 * k)
    match x.slotOf (128 * k) with
    | some p =>
      if (x.sectorAt k).lacks (byteRun (lo - 128 * k) (min (o + n) (128 * k + 128) - lo)) false then some (k, p) else none
    | none => none

/-- The translations that the fills of window ranges need, with the fault of the earliest step (R302, R328). -/
def State.probeFills (s : State) (x : Exec) (tm : Team) (rs : List (Nat × Nat)) : State × Option Trap :=
  let ps := rs.flatMap fun r => (tm.unfilledIn r.1 r.2).map fun p => stashPoint p.2 laneNone (128 * p.1)
  match ps.find? fun p => p.va + 128 > (2 : Int) ^ 56 with
  | some p => (s, some (protectionAt laneNone accRead p.va.toNat))
  | none =>
    match s.probeAll x accRead 128 ps none [] with
    | (s, .error t) => (s, some t)
    | (s, .ok _) => (s, none)

/-- Step 6 of R328 for pieces of pages: the leaves of class 0 that translate them, or the fault of the earliest step. [log 31: DEDUCED, unsafe] -/
def State.probePieces (s : State) (x : Exec) (acc : BitVec 2) :
    List (Nat × Nat) → Option (Nat × Trap) → List Leaf → State × Except Trap (List Leaf)
  | [], none, ls => (s, .ok ls)
  | [], some e, _ => (s, .error e.2)
  | p :: ps, e, ls =>
    match s.probe x acc p.2 ⟨laneNone, p.1, none⟩ with
    | (s, .error f) => s.probePieces x acc ps (worst e f) ls
    | (s, .ok a) =>
      if a.peer.isSome then s.probePieces x acc ps (worst e (7, protectionAt laneNone acc p.1)) ls
      else if ls.any fun l => l.covers p.1 then s.probePieces x acc ps e ls
      else
        match s.look x p.1 with
        | (s, .leaf l) => s.probePieces x acc ps e (ls ++ [l])
        | (s, _) => s.probePieces x acc ps e ls

/-- Step 6 of R328 for global ranges. [log 28: DEDUCED, unsafe] -/
def State.probeRanges (s : State) (x : Exec) (acc : BitVec 2) (rs : List (Nat × Nat)) : State × Except Trap (List Leaf) :=
  match rs.find? fun r => r.1 + r.2 > 2 ^ 56 with
  | some r => (s, .error (protectionAt laneNone acc (max r.1 (2 ^ 56))))
  | none => s.probePieces x acc (rs.flatMap fun r => pagesOf r.1 r.2) none []

end Sys2Proof.Machine
end

