-- ==== Sys2Proof/Machine/Matrix.lean ====
section
/-! DEFINITION. The matrix array and the copy engine: sums of products, what a command does when its unit performs it, and the instructions at 0x90 to 0x99 (R319 to R343). -/

namespace Sys2Proof.Machine

open Host (Outcome)

/-! ## Elements (R117, R122, R331) -/

/-- Bits of an element of an input type. -/
def elemBits : Ty → Nat
  | .e2m1 | .mx4 => 4
  | .i8 | .mx8 | .mx8e5 | .mxi8 | .e4m3 | .e5m2 => 8
  | .bf16 | .f16 => 16
  | .f64 => 64
  | _ => 32

/-- Depth of a K-vector (R330). -/
def depthOf (t : Ty) : Nat := 512 / elemBits t

/-- Microscaled types (R122). -/
def isScaled (t : Ty) : Bool := [Ty.mx8, .mx8e5, .mx4, .mxi8].contains t

/-- The value of an element (R117, R122). -/
def elemValue (t : Ty) (x : Nat) : Val :=
  match t with
  | .i8 => Val.ofInt (BitVec.ofNat 8 x).toInt
  | .mxi8 => let q := (BitVec.ofNat 8 x).toInt; .fin (q < 0) q.natAbs (-6)
  | .mx8 => readAs .e4m3 x
  | .mx8e5 => readAs .e5m2 x
  | .mx4 => readAs .e2m1 x
  | t => readAs t x

/-- Element `i` of packed bytes, as their number (R331). -/
def elemAt (t : Ty) (bytes i : Nat) : Val :=
  elemValue t ((bytes >>> (i * elemBits t)) % 2 ^ elemBits t)

/-! ## Sums (R134 to R138, R333) -/

/-- A value in a sum with the flags raised so far. -/
abbrev Term := Val × BitVec 5

/-- The structural zero of R333. [log 24: DEDUCED, unsafe] -/
def structuralZero : Term := (.fin true 0 0, flagNone)

/-- The value 1. -/
def one : Val := .fin false 1 0

/-- A finite value. -/
def Val.finite : Val → Bool
  | .fin _ _ _ => true
  | _ => false

/-- A product for an accumulator type: into `x96` one with a non-finite operand contributes zero and is invalid (R123). [log 24: DEDUCED, unsafe] -/
def product (acc : Ty) (a b : Val) : Term :=
  if acc = .x96 ∧ ¬ (a.finite ∧ b.finite) then (.fin false 0 0, flagNV) else Val.mul a b

/-- `round48` of R135, which raises only inexact. -/
def round48 (v : Term) : Term :=
  match v.1 with
  | .fin s m e =>
    if m = 0 then v
    else
      let q := quantise 48 none .rne 0 s m e false
      (.fin s q.1 q.2.1, if q.2.2 then v.2 ||| flagNX else v.2)
  | _ => v

/-- Exact sum of two terms. -/
def addTerms (u v : Term) : Term :=
  let r := Val.add false u.1 v.1
  (r.1, u.2 ||| v.2 ||| r.2)

/-- A node of the `f32` tree (R135). -/
def node48 (u v : Term) : Term := round48 (addTerms u v)

/-- A node of the `f64` tree (R138). -/
def node64 (u v : Term) : Term :=
  let r := addTerms u v
  let q := roundVal (formatOf .f64) .rne false 0 r.1
  (readAs .f64 q.1, r.2 ||| q.2)

/-- The last rounding of a sum into `f32` or `f64` (R135, R136, R138). -/
def finishSum (acc : Ty) (c : Nat) (r : Term) : Nat × BitVec 5 :=
  let v := addTerms (readAs acc c, flagNone) r
  let q := roundVal (formatOf acc) .rne false 0 v.1
  (q.1, v.2 ||| q.2)

/-- Clamp an integer multiple of 2^-32 into `x96` (R123, R132). -/
def clampX96 (v : Int) : Nat × BitVec 5 :=
  let top : Int := 2 ^ 95 - 1
  let low : Int := -(2 ^ 95)
  if v > top then ((BitVec.ofInt 96 top).toNat, flagOF ||| flagNX)
  else if v < low then ((BitVec.ofInt 96 low).toNat, flagOF ||| flagNX)
  else ((BitVec.ofInt 96 v).toNat, flagNone)

/-- A finite product as a multiple of 2^-32 (R123). -/
def inUnits : Val → Int
  | .fin s m e =>
    let z := e + 32
    sint s (if z ≥ 0 then m * 2 ^ z.toNat else m / 2 ^ (-z).toNat)
  | _ => 0

/-- The sum of an accumulator element and products that are not scaled: `f32`, `f64` and `x96` (R135, R137, R138). -/
def accumulate (acc : Ty) (c : Nat) (ps : List Term) : Nat × BitVec 5 :=
  match acc with
  | .x96 =>
    let total := ps.foldl (fun (v : Int) p => v + inUnits p.1) (BitVec.ofNat 96 c).toInt
    let r := clampX96 total
    (r.1, ps.foldl (fun (f : BitVec 5) p => f ||| p.2) r.2)
  | .f64 => finishSum .f64 c ((pairTree node64 7 ps).headD structuralZero)
  | _ => finishSum .f32 c ((pairTree node48 7 ps).headD structuralZero)

/-- A scaled block sum (R136): the exact sum of its products times the two scales; a scale of 0xFF gives NaN and no flag. R136 gives the exact sum no order; the model adds from the first product on, so whether a block with a NaN and infinities of both signs sets invalid depends on their places. [log 56: DEDUCED, unsafe] -/
def scaledBlock (xa xb : Nat) (ps : List Term) : Term :=
  if xa = 255 ∨ xb = 255 then (.nan, flagNone)
  else
    let r := match ps with
      | [] => structuralZero
      | p :: ps => ps.foldl addTerms p
    (match r.1 with
      | .fin s m e => .fin s m (e + xa + xb - 254)
      | v => v, r.2)

/-- The sum of an accumulator element and scaled block sums (R136). -/
def accumulateScaled (c : Nat) (zs : List Term) : Nat × BitVec 5 :=
  match zs with
  | [] => finishSum .f32 c structuralZero
  | z :: zs => finishSum .f32 c (zs.foldl node48 z)

/-! ## What a command reads -/

/-- The unit that stands for a command's gang in accesses made after its issue (R284). -/
def State.agentOf (s : State) (c : Command) : Exec :=
  let tm := s.team? c.team
  let core := (tm.map (·.core)).getD 0
  { (default : Exec) with
    u := .gang c.team c.gang, t := c.team, g := c.gang, ctx := (tm.map (·.ctx)).getD 0
    core, cluster := clusterOf core, die := dieOf core }

/-- Fill the stash sectors of a window range that a command reads; a sector whose address no longer translates is read as it stands (R253). [log 28: DEDUCED, unsafe] -/
def State.fillRange (s : State) (x : Exec) (st : Stamp) (t o n : Nat) : State :=
  match s.team? t with
  | none => s
  | some tm =>
    (tm.unfilledIn o n).foldl (fun s p =>
      match s.probe x accRead 128 (stashPoint p.2 laneNone (128 * p.1)) with
      | (s, .ok a) => s.stashFill st t p.1 a
      | (s, .error _) => s) s

/-- The number of `n` bytes of a team's window, and whether a sector of them is poisoned. -/
def State.windowBytes (s : State) (t o n : Nat) : Nat × Bool :=
  match s.team? t with
  | none => (0, false)
  | some tm =>
    (memNat tm.window o n, (List.range ((o + n + 127) / 128 - o / 128)).any fun i => tm.winPoison.contains (o / 128 + i))

/-- The leaf of a command that translates an address. -/
def Command.leafAt (c : Command) (va : Nat) : Leaf := (c.leaves.find? fun l => l.covers va).getD default

/-- The parts of [va, va + n) that lie in one sector each. -/
def sectorsOf (va n : Nat) : List (Nat × Nat) :=
  (List.range ((va + n + 127) / 128 - va / 128)).map fun i =>
    let lo := max va (128 * (va / 128 + i))
    (lo, min (va + n) (128 * (va / 128 + i) + 128) - lo)

/-- Read global bytes for a command, past the core's L1: their number, and whether a sector is poisoned (R284). -/
def State.readPieces (s : State) (x : Exec) (c : Command) (va : Nat) :
    List (Nat × Nat) → Nat → Bool → State × Nat × Bool
  | [], v, p => (s, v, p)
  | q :: qs, v, p =>
    let a := { s.place x (c.leafAt q.1) q.1 q.2 with core := none }
    let r := (s.sendRequests c.stamp none 0#11 accRead [a] []).read a
    r.1.readPieces x c va qs (v + r.2.1 * 2 ^ (8 * (q.1 - va))) (p || r.2.2)

/-- Write global bytes for a command; `bad` gives the poison that a piece brings (R261, R284). -/
def State.writePieces (s : State) (x : Exec) (c : Command) (va v : Nat) (bad : Nat → Nat → Bool) :
    List (Nat × Nat) → State
  | [] => s
  | q :: qs =>
    let a := s.place x (c.leafAt q.1) q.1 q.2
    let s := (s.sendRequests c.stamp none 0#11 accWrite [a] []).write a a.mask (a.lay (v / 2 ^ (8 * (q.1 - va)) % 2 ^ (8 * q.2))) (bad (q.1 - va) q.2)
    (if a.watched then s.serveWatches else s).writePieces x c va v bad qs

/-- Write whole sectors of a window for a command. -/
def State.writeWindow (s : State) (t o n v : Nat) (bad : Nat → Bool) : State :=
  (List.range (n / 128)).foldl (fun s i =>
    s.modTeam t fun tm =>
      tm.storeWindow (o / 128 + i) (BitVec.allOnes 128) (BitVec.ofNat 1024 (v / 2 ^ (1024 * i))) (bad i)) s

/-! ## The matrix family (R329 to R335) -/

/-- The accumulator that `FN` names (R329). -/
def accOf (fn : BitVec 4) : Ty :=
  match fn.toNat with
  | 0 => .f32
  | 1 => .x96
  | _ => .f64

/-- Bytes of the scales of `n` K-vectors of a type (R331). [log 24: DEDUCED, unsafe] -/
def scaleBytes (t : Ty) (n : Nat) : Nat := if isScaled t then n * (depthOf t / 32) else 0

/-- The hash of element `i` of row `r` for a command (R332, R339). -/
def Command.hash (c : Command) (r i : Nat) : Nat :=
  (srhash c.seed c.teamNo (BitVec.ofNat 5 c.gang) (BitVec.ofNat 5 r) (BitVec.ofNat 32 (65536 * (r / 32) + i))).toNat

/-- The mode of a command. -/
def Command.mode (c : Command) : Mode := modeOf c.rm

/-- Element (r, k) of A from the down-converter (R332): its value, and the flags of its rounding. -/
def Command.downElem (c : Command) (t : Tile) (r k : Nat) : Val × BitVec 5 :=
  let c0 := (c.w.imm.extractLsb' 0 9).toNat
  let q := roundVal (formatOf c.w.ty) c.mode (c.w.imm.getLsbD 31) (c.hash r (c0 + k)) (t.value r (c0 + k))
  (readAs c.w.ty q.1, q.2)

/-- The 64 bytes of row `r` of A in the register block (R331). -/
def Command.blockRow (c : Command) (r : Nat) : Nat :=
  packWords (fun j => (((c.block[16 * (r / 32) + j]?).map fun v => (vget v (r % 32) 0#32).toNat)).getD 0) 16

/-- What the matrix array has read of a command. -/
structure Inputs where
  /-- bytes at the offset of A, with the scales of a microscaled type, or the index vector -/
  a : Nat
  /-- bytes at the offset of B, with its scales -/
  b : Nat
  aTile : Option Tile
  /-- D as it was, where C names it -/
  acc : Option Tile
  deriving DecidableEq, Repr, Inhabited

/-- Element (r, k) of A with the flags of the down-converter. -/
def Command.aElem (c : Command) (i : Inputs) (r k : Nat) : Val × BitVec 5 :=
  match c.w.a with
  | .tile _ =>
    match i.aTile with
    | some t => c.downElem t r k
    | none => (.fin true 0 0, flagNone)
  | .vec _ => (elemAt c.w.ty (c.blockRow r) k, flagNone)
  | _ => (elemAt c.w.ty (i.a >>> (512 * r)) k, flagNone)

/-- B is read through the transposing port (R331). -/
def Command.transposes (c : Command) : Bool := c.kind = .mmat ∨ (c.kind = .mperm ∧ c.w.imm.getLsbD 0)

/-- Element (k, n) of B (R331). -/
def Command.bElem (c : Command) (i : Inputs) (k n : Nat) : Val :=
  if c.transposes then elemAt c.w.ty i.b (k * mdCols c.w.md + n) else elemAt c.w.ty (i.b >>> (512 * n)) k

/-- Scale (r, j) of A (R331). -/
def Command.aScale (c : Command) (i : Inputs) (r j : Nat) : Nat :=
  i.a >>> (8 * (4096 + r * (depthOf c.w.ty / 32) + j)) % 256

/-- Scale (n, j) of B (R331); the generated matrix of `mrsum` has scale 1. -/
def Command.bScale (c : Command) (i : Inputs) (n j : Nat) : Nat :=
  if c.kind = .mrsum then 127
  else i.b >>> (8 * (64 * mdCols c.w.md + n * (depthOf c.w.ty / 32) + j)) % 256

/-- The products of D[r][n] (R333 to R335): those that a generated matrix selects, or one structural zero. -/
def Command.terms (c : Command) (i : Inputs) (r n : Nat) : List Term :=
  let acc := accOf c.w.fn
  let depth := depthOf c.w.ty
  match c.kind with
  | .mperm =>
    let p := match c.w.a with
      | .none => r
      | _ => i.a >>> (8 * r) % 256
    if p < depth then [product acc (c.bElem i p n) one] else [structuralZero]
  | .mrsum =>
    if n = 0 then (List.range depth).map fun k => product acc (c.aElem i r k).1 one else [structuralZero]
  | _ => (List.range depth).map fun k => product acc (c.aElem i r k).1 (c.bElem i k n)

/-- D[r][n] as bits, with flags (R333). -/
def Command.sum (c : Command) (i : Inputs) (r n : Nat) : Nat × BitVec 5 :=
  let acc := accOf c.w.fn
  let old := match i.acc with
    | some t => t.element r n
    | none => if acc = .f32 then 2 ^ 31 else if acc = .f64 then 2 ^ 63 else 0
  let ts := c.terms i r n
  if isScaled c.w.ty ∧ ¬ (c.kind = .mrsum ∧ n ≠ 0) then
    accumulateScaled old ((List.range (depthOf c.w.ty / 32)).map fun j =>
      scaledBlock (c.aScale i r j) (c.bScale i n j) ((ts.drop (32 * j)).take 32))
  else accumulate acc old ts

/-- OR of flags over `n` places. -/
def orFlagsOver (n : Nat) (f : Nat → BitVec 5) : BitVec 5 := (List.range n).foldl (fun (v : BitVec 5) i => v ||| f i) 0#5

/-- Flags of a matrix command: of its sums, and of the down-converter's elements (R130, R332). [log 24: DEDUCED, unsafe] -/
def Command.sumFlags (c : Command) (i : Inputs) : BitVec 5 :=
  let down := match c.w.a with
    | .tile _ => orFlagsOver 64 fun r => orFlagsOver (depthOf c.w.ty) fun k => (c.aElem i r k).2
    | _ => 0#5
  down ||| orFlagsOver 64 fun r => orFlagsOver (mdCols c.w.md) fun n => (c.sum i r n).2

/-- Word `i` of a number. -/
def wordOf (v i : Nat) : Nat := v / 2 ^ (32 * i) % 2 ^ 32

/-- Perform a command of the matrix family: the state, and the flags raised. -/
def State.performMatrix (s : State) (c : Command) : State × BitVec 5 :=
  let x := s.agentOf c
  let cols := mdCols c.w.md
  let isWin := fun o : Operand => match o with
    | .sca _ _ => true
    | _ => false
  let na := if isWin c.w.a then (if c.kind = .mperm then 64 else 4096 + scaleBytes c.w.ty 64) else 0
  let nb := if isWin c.w.b then 64 * cols + scaleBytes c.w.ty cols else 0
  let s := (s.fillRange x c.stamp c.team c.aOff na).fillRange x c.stamp c.team c.bOff nb
  let a := s.windowBytes c.team c.aOff na
  let b := s.windowBytes c.team c.bOff nb
  match s.team? c.team with
  | none => (s, 0#5)
  | some tm =>
    match c.dTile.bind tm.tile? with
    | none => (s, 0#5)
    | some d =>
      let at_ := c.aTile.bind tm.tile?
      let named := c.w.c != .none
      let i : Inputs := ⟨a.1, b.1, at_, if named then some d else none⟩
      let bad := a.2 || b.2 || (at_.any fun t => t.runTainted (c.w.imm.extractLsb' 0 9).toNat (depthOf c.w.ty)) ||
        (named && d.runTainted 0 cols)
      let u := wordsPer d.ty
      (s.modTile c.team d.id fun t => t.put 0 (u * cols) (fun r j => wordOf (c.sum i r (j / u)).1 (j % u)) bad, c.sumFlags i)

/-- The first column of a command. -/
def Command.col (c : Command) : Nat := (c.w.imm.extractLsb' 0 9).toNat

/-- A conversion into the type of a handle (R339). -/
def convertTo (t : Ty) (rm : Mode) (sat : Bool) (h : Nat) (v : Val) : Nat × BitVec 5 :=
  if t = .x96 then
    match v with
    | .fin s m e =>
      let q := roundInt rm h s m (e + 32)
      let r := clampX96 q.1
      (r.1, if q.2 then r.2 ||| flagNX else r.2)
    | _ => (0, flagNV)
  else roundVal (formatOf t) rm sat h v

/-- Perform `tcvt` (R339) or `tzero` (R340). -/
def State.performConvert (s : State) (c : Command) : State × BitVec 5 :=
  match s.team? c.team with
  | none => (s, 0#5)
  | some tm =>
    match c.dTile.bind tm.tile? with
    | none => (s, 0#5)
    | some d =>
      let cols := mdCols c.w.md
      let u := wordsPer d.ty
      let lo := u * c.col
      match c.aTile.bind tm.tile? with
      | none => (s.modTile c.team d.id fun t => t.put lo (lo + u * cols) (fun _ _ => 0) false, 0#5)
      | some a =>
        let ca := (c.w.imm.extractLsb' 9 9).toNat
        let f := fun r n => convertTo d.ty c.mode (c.w.imm.getLsbD 31) (c.hash r (ca + n)) (a.value r (ca + n))
        (s.modTile c.team d.id fun t =>
            t.put lo (lo + u * cols) (fun r j => wordOf (f r ((j - lo) / u)).1 ((j - lo) % u)) (a.runTainted ca cols),
          orFlagsOver 64 fun r => orFlagsOver cols fun n => (f r n).2)

/-! ## Tile loads, tile stores and copies (R336 to R341) -/

/-- Read rows of the global side of a tile load, in row order. -/
def State.readRows (s : State) (x : Exec) (c : Command) (len : Nat) : (rows : List Nat) → List Nat → Bool → State × List Nat × Bool
  | [], vs, p => (s, vs.reverse, p)
  | r :: rs, vs, p =>
    let va := c.addr + r * c.pitch
    let q := s.readPieces x c va (sectorsOf va len) 0 false
    q.1.readRows x c len rs (q.2.1 :: vs) (p || q.2.2)

/-- Word `j` of row `r` in the register block of a run of `wide` word columns (R337). -/
def Command.blockWord (c : Command) (wide r j : Nat) : Nat :=
  (((c.block[(if r < 32 then 0 else wide) + j]?).map fun v => (vget v (r % 32) 0#32).toNat)).getD 0

/-- Perform `tld` (R338). -/
def State.performLoad (s : State) (c : Command) : State :=
  let x := s.agentOf c
  match (s.team? c.team).bind fun tm => c.dTile.bind tm.tile? with
  | none => s
  | some d =>
    let u := wordsPer d.ty
    let wide := u * mdCols c.w.md
    let lo := u * c.col
    let put := fun (s : State) (f : Nat → Nat → Nat) (bad : Bool) =>
      s.modTile c.team d.id fun t => t.put lo (lo + wide) (fun r j => f r (j - lo)) bad
    match c.kind with
    | .tldV => put s (c.blockWord wide) false
    | .tldSp =>
      let s := s.fillRange x c.stamp c.peer c.bOff (256 * wide)
      let v := s.windowBytes c.peer c.bOff (256 * wide)
      put s (fun r j => wordOf (v.1 >>> (32 * wide * r)) j) v.2
    | _ =>
      let q := s.readRows x c (4 * wide) (List.range 64) [] false
      put q.1 (fun r j => wordOf (q.2.1.getD r 0) j) q.2.2

/-- Row `r` of a column run as a number. -/
def Tile.rowBits (x : Tile) (lo wide r : Nat) : Nat := packWords (fun j => x.word r (lo + j)) wide

/-- Bytes [o, o + n) of a row of a column run hold a word of a poisoned granule. -/
def Tile.rowTainted (x : Tile) (lo o n : Nat) : Bool :=
  (List.range ((o + n + 3) / 4 - o / 4)).any fun i => x.tainted (lo + o / 4 + i)

/-- Give a pending result its data (R338): register `i` of the run takes `f i`, tagged where `bad i`. -/
def Result.fillRun (r : Result) (base : Nat) (f : Nat → Lanes) (bad : Nat → Bool) : Result :=
  { r with
    waits := .none
    vec := r.vec.map fun v =>
      { v with data := f (v.reg - base), poison := if bad (v.reg - base) then BitVec.allOnes 32 else 0#32 } }

/-- Perform `tst` (R338). -/
def State.performStore (s : State) (c : Command) : State :=
  let x := s.agentOf c
  match (s.team? c.team).bind fun tm => c.aTile.bind tm.tile? with
  | none => s
  | some a =>
    let u := wordsPer a.ty
    let wide := u * mdCols c.w.md
    let lo := u * c.col
    match c.kind with
    | .tstV =>
      let base := (regOf c.w.d).toNat
      let col := fun i => lo + i % wide
      let data := fun i => Vector.ofFn fun l : Fin 32 => BitVec.ofNat 32 (a.word (l.val + if i < wide then 0 else 32) (col i))
      s.modGang c.team c.gang fun v =>
        { v with regs := { v.regs with pending := v.regs.pending.map fun r =>
            if r.waits = ResultWait.command c.id then r.fillRun base data (fun i => a.tainted (col i)) else r } }
    | .tstSp =>
      let v := packWords (fun i => a.word (i / wide) (lo + i % wide)) (64 * wide)
      s.writeWindow c.peer c.bOff (256 * wide) v fun i =>
        (List.range 32).any fun j => a.tainted (lo + (32 * i + j) % wide)
    | _ =>
      (List.range 64).foldl (fun s r =>
        let va := c.addr + r * c.pitch
        s.writePieces x c va (a.rowBits lo wide r) (a.rowTainted lo) (sectorsOf va (4 * wide))) s

/-- Perform the copy of `mcopy`, sector by sector (R341). -/
def State.performCopy (s : State) (c : Command) : State :=
  let x := s.agentOf c
  (List.range (c.w.imm.toNat / 128)).foldl (fun s i =>
    let va := c.addr + 128 * i
    let r := s.readPieces x c va [(va, 128)] 0 false
    r.1.modTeam c.team fun tm =>
      tm.storeWindow (c.bOff / 128 + i) (BitVec.allOnes 128) (BitVec.ofNat 1024 r.2.1) r.2.2) s

/-- Perform a command: every read, then every write (R324). [log 28: DEDUCED, unsafe] -/
def State.perform (s : State) (c : Command) : State × BitVec 5 :=
  match c.kind with
  | .mma | .mmat | .mperm | .mrsum => s.performMatrix c
  | .tcvt | .tzero => s.performConvert c
  | .tldSp | .tldGl | .tldV => (s.performLoad c, 0#5)
  | .tstSp | .tstGl | .tstV => (s.performStore c, 0#5)
  | .mcopy => (s.performCopy c, 0#5)

/-! ## Completion (R322, R325) -/

/-- The condition of a gang blocked at `mwait` holds (R343). -/
def State.mwaitOver (s : State) (core t g : Nat) (v : Gang) : Bool :=
  match v.status with
  | .blocked (.mwait h) _ =>
    !((s.team? t).bind fun tm => (tm.handle h).tile).any fun id => s.tileBusy core id
  | .blocked .mwaitAll _ => !(s.core core).commands.any fun c => decide (c.team = t ∧ c.gang = g)
  | _ => false

/-- Wake the gangs of a core whose `mwait` is over. -/
def State.wakeMwaits (s : State) (core : Nat) : State :=
  (s.teams.filter fun tm => tm.core = core).foldl (fun s tm =>
    tm.gangs.zipIdx.foldl (fun s p => if s.mwaitOver core tm.tid p.2 p.1 then s.wake (.gang tm.tid p.2) else s) s) s

/-- Remove a command from its unit and free its range locks. -/
def Core.retire (u : Core) (id : Nat) : Core :=
  { u with
    array := u.array.filter fun c => c.id ≠ id
    copy := u.copy.filter fun c => c.id ≠ id
    locks := u.locks.filter fun l => l.cmd ≠ some id }

/-- Complete a command: its effect, its flags, its handles and the waits that it ends (R323 to R325, R404). [log 28: DEDUCED, unsafe] -/
def State.completeCommand (s : State) (core : Nat) (c : Command) : State :=
  let r := s.perform c
  let s := r.1.modGang c.team c.gang fun v => if v.status = .retired then v else { v with regs := v.regs.orFlags r.2 }
  let s := s.modCore core fun u => u.retire c.id
  let freed := ((s.team? c.team).map (·.tiles)).getD [] |>.filter fun t => t.freed && !s.tileBusy core t.id
  (freed.foldl (fun s t => s.clearTile c.team t.id) s).wakeMwaits core

/-! ## The instructions -/

/-- Issue of an instruction of the matrix class (R327). -/
def kindTile (late : Bool) : IssueKind := ⟨false, true, true, late, true⟩

/-- A scalar operand with its poison tag. -/
def Env.tag (e : Env) (o : Operand) : Operand × Bool := (o, e.v.regs.taint o)

/-- The poison of a block of registers in any lane (R331, R338). -/
def Env.blockPoison (e : Env) (r n : Nat) : Bool := (List.range n).any fun i => (e.v.vreg (r + i)).poison ≠ 0#32

/-- The command of a word of the matrix family after the checks of R328 up to step 6. -/
def Env.matrixCommand (e : Env) (s : State) (kind : CmdKind) : State × Except Trap Command :=
  let w := e.x.w
  match s.team? e.x.t with
  | none => (s, .error (illegalState e.x 1#8))
  | some tm =>
    let cols := mdCols w.md
    let ca := (w.imm.extractLsb' 0 9).toNat
    let off := fun o => (e.v.regs.bits o).toNat
    let block := match w.a with
      | .vec r => some r.toNat
      | _ => none
    let aRange := match w.a with
      | .sca _ _ => [(off w.a, if kind = .mperm then 64 else 4096 + scaleBytes w.ty 64)]
      | _ => []
    let bRange := match w.b with
      | .sca _ _ => [(off w.b, 64 * cols + scaleBytes w.ty cols)]
      | _ => []
    let ranges := aRange ++ bRange
    let d := handleOf w.d
    let held := match w.a with
      | .tile h => [heldFault e.x tm d, heldFault e.x tm h]
      | _ => [heldFault e.x tm d]
    let run := match w.a with
      | .tile h => [columnFault tm h ca (depthOf w.ty)]
      | _ => []
    let fault := firstFault
      ([consumeOnce [(w.a, (e.tag w.a).2 || block.any fun r => e.blockPoison r 32), e.tag w.b]] ++ held ++
       [columnFault tm d 0 cols, typeFault tm d (accOf w.fn)] ++ run ++ [windowFault tm accRead ranges])
    match fault with
    | some t => (s, .error t)
    | none =>
      match s.probeFills e.x tm ranges with
      | (s, some t) => (s, .error t)
      | (s, none) =>
        (s, .ok
          { (e.command kind).withHandles tm w.d w.a with
            aOff := (aRange.head?.map (·.1)).getD 0
            bOff := (bRange.head?.map (·.1)).getD 0
            block := match block with
              | some r => (List.range 32).map fun i => (e.v.vreg (r + i)).lanes
              | none => []
            ranges := ranges.map fun r => ⟨some tm.tid, r.1, r.2, false⟩ })

/-- An instruction of the matrix family (R329 to R335). -/
def matrixForm (op : BitVec 8) (kind : CmdKind) (w : Fields) (s : State) : Outcome State Fault Refusal :=
  issue (kindTile false) op w 16 (memBody fun e s =>
    match e.matrixCommand s kind with
    | (_, .error t) => .error (.trap t)
    | (s, .ok c) => s.submit e.x [c]) s

/-- `mma` (R329 to R333). -/
def execMma (w : Fields) (s : State) : Outcome State Fault Refusal := matrixForm 0x90#8 .mma w s
/-- `mmat` (R333). -/
def execMmat (w : Fields) (s : State) : Outcome State Fault Refusal := matrixForm 0x91#8 .mmat w s
/-- `mperm` (R334). -/
def execMperm (w : Fields) (s : State) : Outcome State Fault Refusal := matrixForm 0x92#8 .mperm w s
/-- `mrsum` (R335). -/
def execMrsum (w : Fields) (s : State) : Outcome State Fault Refusal := matrixForm 0x93#8 .mrsum w s

/-- The full run of a `.v` form (R336, R337): the lowest register of it that is gated. -/
def runGated (op : BitVec 8) (alloc base u : Nat) : Option Trap :=
  if base + 16 * u > alloc then some (.coded 0x22#8 (detailOp op (BitVec.ofNat 24 (max base alloc)))) else none

/-- The global side of a tile load or store: address, pitch, and its checks of step 4 (R328, R337). -/
def pitchFault (acc : BitVec 2) (va q len : Nat) : Option Trap :=
  if va % 16 ≠ 0 ∨ q % 16 ≠ 0 then some (misalignedAt laneNone acc va)
  else if q < len then some (protectionOnce (BitVec.ofNat 56 q))
  else none

/-- The team whose window a tile load or store names, with the faults of steps 4 and 5 (R252, R328, R441). [log 28: DEDUCED, unsafe] -/
def Env.tileWindow (e : Env) (s : State) (tm : Team) (acc : BitVec 2) (o n : Nat) : Except Trap Team :=
  match (if o % 128 ≠ 0 then some (misalignedAt laneNone acc o) else none),
    (match e.x.w.c with
     | .sca _ _ =>
       s.teams.find? fun (y : Team) => y.ensemble = tm.ensemble ∧ y.rank = (e.v.regs.bits e.x.w.c).toNat ∧ y.residence ≠ Residence.done
     | _ => some tm) with
  | some t, _ => .error t
  | none, none => .error (scratchAt laneNone o)
  | none, some p =>
    match p.residence with
    | .saved _ _ _ => .error (lockAt laneNone acc o)
    | _ => match windowFault p acc [(o, n)] with
      | some t => .error t
      | none => .ok p

/-- Mark a run of registers as used (R154). -/
def Gang.touchRun (v : Gang) (tick base n : Nat) : Gang := { v with vregs := touchRegs tick [(base, n)] v.vregs }

/-- The result of a `tst.v` (R338): its registers, pending until the command completes. -/
def runResult (id cmd base n : Nat) (mask : Mask) : Result :=
  ⟨id, (List.range n).map fun i => ⟨base + i, mask, Vector.ofFn fun _ => 0#32, 0#32⟩, [], [], [], 0#5, ResultWait.command cmd⟩

/-- `tld` (R336 to R338). -/
def execTld (w : Fields) (s : State) : Outcome State Fault Refusal :=
  issue (kindTile false) 0x94#8 w 16 (memBody fun e s =>
    match s.team? e.x.t with
    | none => .ok s
    | some tm =>
      let h := handleOf w.d
      let u := wordsPer (tm.handle h).ty
      let cols := mdCols w.md
      let len := 4 * u * cols
      let col := (w.imm.extractLsb' 0 9).toNat
      let base := (regOf w.a).toNat
      let block : Bool := w.fn = 2#4 ∧ e.blockPoison base (16 * u)
      let va := (e.v.regs.bits w.a).toNat
      let pitch := if w.c = .none then len else (e.v.regs.bits w.c).toNat
      let off := (e.v.regs.bits w.b).toNat
      match firstFault
        [consumeOnce [(w.a, (e.tag w.a).2 || block), e.tag w.b, e.tag w.c], heldFault e.x tm h, columnFault tm h col cols,
          if w.fn = 2#4 then runGated 0x94#8 e.v.alloc base u else none,
          if w.fn = 1#4 then pitchFault accRead va pitch len else none] with
      | some t => .error (.trap t)
      | none =>
        let c := fun kind => (e.command kind).withHandles tm w.d .none
        if w.fn = 2#4 then
          (s.setGang e.x.t e.x.g (e.v.touchRun s.tick base (16 * u))).submit e.x
            [{ c .tldV with block := (List.range (16 * u)).map fun i => (e.v.vreg (base + i)).lanes }]
        else if w.fn = 1#4 then
          match s.probeRanges e.x accRead ((List.range 64).map fun r => (va + r * pitch, len)) with
          | (_, .error t) => .error (.trap t)
          | (s, .ok ls) =>
            s.submit e.x
              [{ c .tldGl with addr := va, pitch, leaves := ls, ranges := [⟨none, va, 63 * pitch + len, false⟩] }]
        else
          match e.tileWindow s tm accRead off (64 * len) with
          | .error t => .error (.trap t)
          | .ok p =>
            match s.probeFills e.x p [(off, 64 * len)] with
            | (_, some t) => .error (.trap t)
            | (s, none) =>
              s.submit e.x [{ c .tldSp with bOff := off, peer := p.tid, ranges := [⟨some p.tid, off, 64 * len, false⟩] }]) s

/-- `tst` (R336 to R338). -/
def execTst (w : Fields) (s : State) : Outcome State Fault Refusal :=
  issue (kindTile (w.fn = 2#4)) 0x95#8 w 16 (memBody fun e s =>
    match s.team? e.x.t with
    | none => .ok s
    | some tm =>
      let h := handleOf w.a
      let u := wordsPer (tm.handle h).ty
      let cols := mdCols w.md
      let len := 4 * u * cols
      let col := (w.imm.extractLsb' 0 9).toNat
      let base := (regOf w.d).toNat
      let va := (e.v.regs.bits w.b).toNat
      let pitch := if w.c = .none then len else (e.v.regs.bits w.c).toNat
      let off := (e.v.regs.bits w.b).toNat
      match firstFault
        [consumeOnce [e.tag w.b, e.tag w.c], heldFault e.x tm h, columnFault tm h col cols,
          if w.fn = 2#4 then runGated 0x95#8 e.v.alloc base u else none,
          if w.fn = 1#4 then pitchFault accWrite va pitch len else none] with
      | some t => .error (.trap t)
      | none =>
        let c := fun kind => (e.command kind).withHandles tm .none w.a
        if w.fn = 2#4 then
          match s.submit e.x [c .tstV] with
          | .error t => .error t
          | .ok s' =>
            .ok (s'.bump.modGang e.x.t e.x.g fun v =>
              (v.touchRun s.tick base (16 * u)).addResult (runResult s'.ids s.ids base (16 * u) e.x.sub) .general)
        else if w.fn = 1#4 then
          match s.probeRanges e.x accWrite ((List.range 64).map fun r => (va + r * pitch, len)) with
          | (_, .error t) => .error (.trap t)
          | (s, .ok ls) =>
            s.submit e.x
              [{ c .tstGl with addr := va, pitch, leaves := ls, ranges := [⟨none, va, 63 * pitch + len, true⟩] }]
        else
          match e.tileWindow s tm accWrite off (64 * len) with
          | .error t => .error (.trap t)
          | .ok p =>
            s.submit e.x [{ c .tstSp with bOff := off, peer := p.tid, ranges := [⟨some p.tid, off, 64 * len, true⟩] }]) s

/-- Pairs of types that `tcvt` converts exactly (R339). -/
def exactPair (src dst : Ty) : Bool := src = dst ∨ (src = .f32 ∧ dst = .f64)

/-- `tcvt` (R339). -/
def execTcvt (w : Fields) (s : State) : Outcome State Fault Refusal :=
  issue (kindTile false) 0x96#8 w 16 (memBody fun e s =>
    match s.team? e.x.t with
    | none => .ok s
    | some tm =>
      let d := handleOf w.d
      let a := handleOf w.a
      let cols := mdCols w.md
      match firstFault
        [heldFault e.x tm d, heldFault e.x tm a, columnFault tm d (w.imm.extractLsb' 0 9).toNat cols,
          columnFault tm a (w.imm.extractLsb' 9 9).toNat cols,
          if exactPair (tm.handle a).ty (tm.handle d).ty ∧ w.imm.extractLsb' 28 4 ≠ 0#4 then some (runFault 2#2 d) else none] with
      | some t => .error (.trap t)
      | none => s.submit e.x [(e.command .tcvt).withHandles tm w.d w.a]) s

/-- `tzero` (R340). -/
def execTzero (w : Fields) (s : State) : Outcome State Fault Refusal :=
  issue (kindTile false) 0x97#8 w 16 (memBody fun e s =>
    match s.team? e.x.t with
    | none => .ok s
    | some tm =>
      let d := handleOf w.d
      match firstFault [heldFault e.x tm d, columnFault tm d (w.imm.extractLsb' 0 9).toNat (mdCols w.md)] with
      | some t => .error (.trap t)
      | none => s.submit e.x [(e.command .tzero).withHandles tm w.d .none]) s

/-- The copy of an `mcopy` after the checks of R328 up to step 6. -/
def Env.copyCommand (e : Env) (s : State) : State × Except Trap Command :=
  let w := e.x.w
  match s.team? e.x.t with
  | none => (s, .error (illegalState e.x 1#8))
  | some tm =>
    let va := (e.v.regs.bits w.a).toNat
    let o := (e.v.regs.bits w.b).toNat
    let n := w.imm.toNat
    match firstFault
      [consumeOnce [e.tag w.a, e.tag w.b],
        if va % 128 ≠ 0 then some (misalignedAt laneNone accRead va) else none, windowFault tm accWrite [(o, n)]] with
    | some t => (s, .error t)
    | none =>
      match s.probeRanges e.x accRead [(va, n)] with
      | (s, .error t) => (s, .error t)
      | (s, .ok ls) =>
        (s, .ok
          { e.command .mcopy with
            addr := va, bOff := o, leaves := ls
            ranges := [⟨some tm.tid, o, n, true⟩, ⟨none, va, n, false⟩] })

/-- The command kind of an opcode of the matrix family. -/
def matrixKind (op : BitVec 8) : CmdKind :=
  match op.toNat with
  | 0x90 => .mma
  | 0x91 => .mmat
  | 0x92 => .mperm
  | _ => .mrsum

/-- The follow-on word of an `mcopy.fo`, fetched, tested and decoded (R342 tests 2 to 4). [log 30: DEDUCED, unsafe] -/
def State.followOn (s : State) (x : Exec) : State × Except Trap (BitVec 8 × Fields) :=
  match s.word x (x.pc + 16#56).toNat 1#2 with
  | (s, .error t) => (s, .error t)
  | (s, .ok w) =>
    let r := rawOf w
    if ¬ (0x90 ≤ r.op.toNat ∧ r.op.toNat ≤ 0x93) ∨ r.g ≠ 7#4 ∨ r.sc ≠ 0#20 then
      (s, .error (trapOfDecode (.encoding 0x98#8 7#4 0#4 0#4)))
    else
      match decode false w with
      | .error t => (s, .error (trapOfDecode t))
      | .ok i =>
        match i.parts with
        | some p => (s, .ok p)
        | none => (s, .error (trapOfDecode (.opcode r.op false)))

/-- The issue of an `mcopy` with its follow-on command, where it has one (R341, R342). [log 30: DEDUCED, unsafe] -/
def copyForm (w : Fields) (follow : Option (BitVec 8 × Fields)) (s : State) : Outcome State Fault Refusal :=
  issue (kindTile false) 0x98#8 w (if follow.isSome then 32 else 16) (memBody fun e s =>
    match e.copyCommand s with
    | (_, .error t) => .error (.trap t)
    | (s, .ok c) =>
      match follow with
      | none => s.submit e.x [c]
      | some (op, fw) =>
        let e2 := { e with x := { e.x with op := op, w := fw } }
        match gatedReg op fw e.v.alloc with
        | some r => .error (.trap (.coded 0x22#8 (detailOp op (BitVec.ofNat 24 r))))
        | none =>
          match e2.matrixCommand s (matrixKind op) with
          | (_, .error t) => .error (.trap t)
          | (s, .ok f) => s.submit e.x [c, { f with after := some s.ids }]) s

/-- `mcopy` (R341, R342). [log 30: DEDUCED, unsafe] -/
def execMcopy (w : Fields) (s : State) : Outcome State Fault Refusal :=
  if w.fn = 1#4 then
    match s.cur.bind fun u => execOf s u 0x98#8 w with
    | none => .fault .noIssuer
    | some x =>
      match s.followOn x with
      | (s', .error t) => let _ := s'; .next (raiseTrap x t false s)
      | (s, .ok f) => copyForm w (some f) s
  else copyForm w none s

/-- `mwait` (R343). -/
def execMwait (w : Fields) (s : State) : Outcome State Fault Refusal :=
  issue (kindTile false) 0x99#8 w 16 (fun x s =>
    match s.team? x.t with
    | none => .ok s
    | some tm =>
      let h := handleOf w.a
      match (if w.fn = 0#4 then heldFault x tm h else none) with
      | some t => .error (.trap t)
      | none =>
        let waits := if w.fn = 0#4 then ((tm.handle h).tile.any fun id => s.tileBusy x.core id)
          else (s.core x.core).commands.any fun c => decide (c.team = x.t ∧ c.gang = x.g)
        .ok (if waits then blockUnit x (if w.fn = 0#4 then .mwait h else .mwaitAll) s else s)) s

end Sys2Proof.Machine
end

