-- ==== Sys2Proof/Machine/Table.lean ====
section
/-! DEFINITION. The instructions on the tables of a core, at 0xA0 to 0xA7: the palette, the range locks, translation and circuits (R397 to R407). -/

namespace Sys2Proof.Machine

open Host (Outcome)

/-- Issue of a table instruction (R397): whether it needs a converged gang, and whether its result is variable-latency. -/
def kindTable (conv late : Bool) : IssueKind := ⟨false, conv, true, late, true⟩

/-- A 32-bit operand that is a scalar half or the immediate (R398). -/
def Regs.halfOrImm (r : Regs) (w : Fields) (o : Operand) : Nat :=
  match o with
  | .immZ => w.imm.toNat
  | _ => (r.bits o).toNat

/-- Write `k` of a fixed-latency result. -/
def writeK (x : Exec) (b : Bool) (s : State) : State :=
  match x.w.d with
  | .cond i => s.modRegs x.u fun r => r.writeCond i b
  | _ => s

/-- A `talloc` finds its handle in use (R394). -/
def tallocFault (x : Exec) (tm : Team) (h : BitVec 5) : Option Trap :=
  match (tm.handle h).st with
  | .unallocated | .released => none
  | _ => some (handleFault x.op h 5#8)

/-- `talloc.wait` (R399, R400): the handle is held, and the gang is blocked until the grant. -/
def execTallocWait (w : Fields) (s : State) : Outcome State Fault Refusal :=
  issue (kindTable true false) 0xA0#8 w 16 (fun x s =>
    match s.team? x.t with
    | none => .ok s
    | some tm =>
      let h := handleOf w.a
      match tallocFault x tm h with
      | some t => .error (.trap t)
      | none =>
        let v := tm.handle h
        let s := s.modTeam x.t fun tm => tm.setHandle h { v with st := .owned, own := BitVec.ofNat 5 x.g, tile := none }
        .ok ((blockUnit x (.talloc h w.ty (mdCols w.md) v) s).arbitrate x.core)) s

/-- `talloc.try` (R399): no waiter of an earlier or equal deadline may need the pool when the request does. -/
def execTallocTry (w : Fields) (s : State) : Outcome State Fault Refusal :=
  issue (kindTable true false) 0xA0#8 w 16 (fun x s =>
    match s.team? x.t with
    | none => .ok s
    | some tm =>
      let h := handleOf w.a
      match tallocFault x tm h with
      | some t => .error (.trap t)
      | none =>
        let n := granuleCount w.ty (mdCols w.md)
        let behind := (s.tileWaiters x.core).any fun q =>
          decide (q.deadline ≤ tm.deadline.toNat) && (s.team? q.team).any fun y => q.need > y.reserveLeft
        let ok := s.withinReserve tm n || (s.fitsTile tm n && !behind)
        .ok (writeK x ok (if ok then s.grantTile x.t x.g h w.ty (mdCols w.md) else s))) s

/-- Gang `h` of a team may receive a handle (R402). -/
def Team.receives (x : Team) (h : Nat) : Bool :=
  match x.gangs[h]? with
  | some v => v.status ≠ .retired
  | none => false

/-- `tgive` (R402), with its release effect at team scope (R395). -/
def execTgive (w : Fields) (s : State) : Outcome State Fault Refusal :=
  issue (kindTable true false) 0xA1#8 w 16 (fun x s =>
    let r := s.regsOf x.u
    match s.team? x.t with
    | none => .ok s
    | some tm =>
      let h := handleOf w.a
      let g := r.halfOrImm w w.b
      match firstFault
        [consumeOnce [(w.b, r.taint w.b)], heldFault x tm h,
          if tm.receives g then none else some (handleFault x.op h 4#8)] with
      | some t => .error (.trap t)
      | none =>
        let v := tm.handle h
        if v.tile.any fun id => s.tileBusy x.core id then .error (.wait (.handle x.op h))
        else
          match releaseAt x 0#3 s with
          | .error e => .error e
          | .ok s => .ok (s.modTeam x.t fun tm => tm.setHandle h { v with st := .given, dest := BitVec.ofNat 5 g })) s

/-- `ttake` (R394, R403). Its acquire effect at team scope needs no action. -/
def execTtake (w : Fields) (s : State) : Outcome State Fault Refusal :=
  issue (kindTable true false) 0xA2#8 w 16 (fun x s =>
    match s.team? x.t with
    | none => .ok s
    | some tm =>
      let h := handleOf w.a
      let v := tm.handle h
      match v.st with
      | .unallocated => .error (.trap (handleFault x.op h 1#8))
      | .released => .error (.trap (handleFault x.op h 2#8))
      | .owned => .ok (writeK x (v.own.toNat = x.g) s)
      | .given =>
        if v.dest.toNat = x.g ∨ v.own.toNat = x.g then
          .ok (writeK x true (s.modTeam x.t fun tm =>
            tm.setHandle h { v with st := .owned, own := BitVec.ofNat 5 x.g, dest := 0#5 }))
        else .ok (writeK x false s)) s

/-- `tfree` (R404). -/
def execTfree (w : Fields) (s : State) : Outcome State Fault Refusal :=
  issue (kindTable true false) 0xA3#8 w 16 (fun x s =>
    match s.team? x.t with
    | none => .ok s
    | some tm =>
      match heldFault x tm (handleOf w.a) with
      | some t => .error (.trap t)
      | none => .ok (s.releaseHandle x.t (handleOf w.a))) s

/-- A write of a 64-bit scalar result of fixed latency. -/
def writeS (x : Exec) (v : W64) (s : State) : State :=
  match x.w.d with
  | .sca _ i => s.modRegs x.u fun r => r.writeSca i 3#2 v 0#2
  | _ => s

/-- `rlock` (R405). [log 29: DEDUCED, unsafe] -/
def execRlock (w : Fields) (s : State) : Outcome State Fault Refusal :=
  issue (kindTable false false) 0xA4#8 w 16 (fun x s =>
    let r := s.regsOf x.u
    match s.team? x.t with
    | none => .ok s
    | some tm =>
      let b := (r.bits w.a).toNat
      let n := r.halfOrImm w w.b
      let sp := w.fn.getLsbD 1
      match firstFault
        [consumeOnce [(w.a, r.taint w.a), (w.b, r.taint w.b)],
          if b % 16 ≠ 0 ∨ n % 16 ≠ 0 ∨ n = 0 then some (misalignedAt laneNone accRead b) else none,
          if sp ∧ b + n > tm.winSize then some (scratchAt laneNone b) else none,
          if ¬ sp ∧ b ≥ 2 ^ 56 then some (protectionAt laneNone accRead b) else none] with
      | some t => .error (.trap t)
      | none =>
        let ls := (s.core x.core).locks
        if ls.length ≥ 32 ∨ (ls.filter fun l => l.cmd.isNone).length ≥ 16 then .error (.wait .locks)
        else
          let e := freeLock ls
          .ok (writeS x (BitVec.ofNat 64 e) (s.modCore x.core fun c =>
            { c with locks := c.locks ++ [⟨e, none, w.fn.getLsbD 0, sp, b, n, x.g, x.t, x.ctx⟩] }))) s

/-- `runlock` (R405). -/
def execRunlock (w : Fields) (s : State) : Outcome State Fault Refusal :=
  issue (kindTable false false) 0xA5#8 w 16 (fun x s =>
    let r := s.regsOf x.u
    let e := r.halfOrImm w w.a
    match consumeOnce [(w.a, r.taint w.a)] with
    | some t => .error (.trap t)
    | none =>
      if (s.core x.core).locks.any fun l => decide (l.entry = e ∧ l.cmd = none ∧ l.team = x.t) then
        .ok (s.modCore x.core fun c => { c with locks := c.locks.filter fun l => l.entry ≠ e })
      else .error (.trap (protectionOnce (BitVec.ofNat 56 e)))) s

/-! ## Translation invalidation (R406) -/

/-- A leaf meets [lo, hi). -/
def Leaf.meets (l : Leaf) (lo hi : Nat) : Bool := l.base < hi ∧ lo < l.base + 2 ^ l.bits

/-- A TLB without the entries of a context that meet a range. -/
def purgeTlb (ctx lo hi : Nat) (tlb : List TlbEntry) : List TlbEntry :=
  tlb.filter fun e => !(decide (e.ctx = ctx) && e.leaf.meets lo hi)

/-- A translation register without its validity, where its address lies in a range. -/
def Trans.invalidate (lo hi : Nat) (t : Trans) : Trans := if lo ≤ t.va.toNat ∧ t.va.toNat < hi then { t with v := false } else t

/-- Step 2 for a gang: its translation registers and the outstanding results of `xlate`. -/
def Gang.invalidate (lo hi : Nat) (v : Gang) : Gang :=
  { v with
    trans := Vector.ofFn fun i => v.trans[i].invalidate lo hi
    regs := { v.regs with pending := v.regs.pending.map fun r =>
      { r with trans := r.trans.map fun p => (p.1, p.2.invalidate lo hi) } } }

/-- The physical addresses to which [va, va + n) goes from `pa` on, of those of it that lie in [lo, hi): first address and end. -/
def physicalPart (va pa n lo hi : Nat) : Nat × Nat :=
  let a := max va lo
  let b := min (va + n) hi
  if a < b then (pa + (a - va), pa + (b - va)) else (0, 0)

/-- The leaves of this module that a table of a level holds for addresses from `base` on, of those that meet [lo, hi). -/
def leavesFrom (s : State) (lo hi : Nat) : (level base table : Nat) → List Leaf
  | 0, _, _ => []
  | l + 1, base, table =>
    let size := 2 ^ pageBits (l + 1)
    (List.range 1024).flatMap fun i =>
      let va := base + i * size
      if va < hi ∧ lo < va + size then
        match readEntry (l + 1) va (BitVec.ofNat 64 (memNat s.mem (table + 8 * i) 8)) (s.memPoison.contains ((table + 8 * i) / 128)) with
        | .inl (.leaf f) => [f]
        | .inl _ => []
        | .inr next => leavesFrom s lo hi l va next
      else []

/-- The physical addresses of a context's pages in [lo, hi), as the device knows them: by the entries of its TLBs, by translation registers and by the page tables. [log 32: DEDUCED, unsafe] -/
def State.framesOf (s : State) (ctx lo hi : Nat) : List (Nat × Nat) :=
  let cached := (s.cores.flatMap fun c => c.tlb) ++ (s.seqs.flatMap fun q => q.tlb) ++ s.chips.toList.flatMap fun c => c.tlb
  let walked := ((s.ctx? ctx).filter fun c => c.root.getLsbD 0).map fun c => leavesFrom s lo hi 4 0 ((c.root.extractLsb' 13 39).toNat * 8192)
  let leaves := (cached.filter fun e => e.ctx = ctx).map (·.leaf) ++ walked.getD []
  let regs := (s.teams.filter fun t => t.ctx = ctx).flatMap fun t => t.gangs.flatMap fun v => v.trans.toList.filter (·.v)
  ((leaves.filter fun l => l.cc = 0#4).map fun l => physicalPart l.base l.frame (2 ^ l.bits) lo hi) ++
    (regs.filter fun r => r.cc = 0#4).map fun r => physicalPart r.va.toNat r.pa.toNat r.lim.toNat lo hi

/-- Write back and discard the sectors of a die's cache that meet ranges of physical addresses (R281). [log 32: DEDUCED, unsafe] -/
def State.evictFrames (s : State) (rs : List (Nat × Nat)) (die : Nat) : State :=
  let ks := ((s.die die).cache.map (·.key)).filter fun k => rs.any fun r => 128 * k < r.2 && r.1 < 128 * k + 128
  ks.foldl (fun s k => s.evict die k) s

/-- Discard the translations of a context in [lo, hi) at every level, clear translation registers, and write back and discard the die-cache sectors of the range on every die (R281, R406). [log 32: DEDUCED, unsafe] -/
def State.invalidate (s : State) (ctx lo hi : Nat) : State :=
  let frames := s.framesOf ctx lo hi
  let s : State := { s with
    cores := s.cores.map fun c => { c with tlb := purgeTlb ctx lo hi c.tlb }
    seqs := s.seqs.map fun q => { q with tlb := purgeTlb ctx lo hi q.tlb }
    chips := Vector.ofFn fun i => { s.chips[i] with tlb := purgeTlb ctx lo hi s.chips[i].tlb }
    teams := s.teams.map fun t => if t.ctx = ctx then { t with gangs := t.gangs.map (Gang.invalidate lo hi) } else t }
  ((List.range 9).foldl (fun (s : State) d => s.evictFrames frames d) s).serveWatches

/-- An accepted command of a context holds a translation that meets a range (R328). -/
def State.commandHolds (s : State) (ctx lo hi : Nat) : Bool :=
  s.cores.any fun c => c.commands.any fun m => decide (s.ctxOf m.team = ctx) && m.leaves.any fun l => l.meets lo hi

/-- A circuit-table entry as R388 lays it out. -/
def State.circuitEntry (s : State) (c : Nat) : W64 :=
  let word := fun (ports : Byte) (lit : Bool) (peer : BitVec 9) => (0#32 ++ ports ++ 0#7 ++ BitVec.ofBool lit ++ 0#7 ++ peer : W64)
  if c = 0 then
    match s.topology with
    | some t => word 0#8 true t.mn
    | none => 0#64
  else
    let e := s.circuit c
    word e.ports e.lit e.peer

/-- `cprobe` (R407). -/
def execCprobe (w : Fields) (s : State) : Outcome State Fault Refusal :=
  issue (kindTable false true) 0xA7#8 w 16 (fun x s =>
    let r := s.regsOf x.u
    let e := r.halfOrImm w w.a
    let answer := fun (v : W64) =>
      match w.d with
      | .sca _ i => s.deliver x ⟨s.ids, [], [⟨i, 3#2, v, 0#2⟩], [], [], 0#5, .none⟩
      | _ => s
    if w.fn = 0#4 then
      match s.team? x.t with
      | none => .ok s
      | some tm => .ok (answer (s.paletteEntry tm (handleOf w.a)))
    else
      match consumeOnce [(w.a, r.taint w.a)] with
      | some t => .error (.trap t)
      | none =>
        if e ≥ 16 then .error (.trap (protectionOnce (BitVec.ofNat 56 e)))
        else .ok (answer (s.circuitEntry e))) s

end Sys2Proof.Machine
end

