-- ==== Sys2Proof/Machine/Counters.lean ====
section
/-! DEFINITION. Semaphores, barriers, mover sequence numbers and default slack: the counters' operations and their instructions (R408, R416 to R427). -/

namespace Sys2Proof.Machine

open Host (Outcome)

/-! ## Checks that these instructions share (R302, R417) -/

/-- Steps 2 and 4 to 9 of R302 for objects of `size` bytes at multiples of `align`, with the requests of those that pass; with `home` their pages must be of class 0. -/
def State.checkObjects (s : State) (x : Exec) (acc : BitVec 2) (size align : Nat) (vas : List Nat) (home : Bool) :
    State × Except Trap (List (Point × Access)) :=
  let reply := some (x.u, s.ids)
  match vas.find? fun va => va % align ≠ 0, vas.find? fun va => va ≥ 2 ^ 56 with
  | some va, _ => (s, .error (misalignedAt laneNone acc va))
  | none, some va => (s, .error (protectionAt laneNone acc va))
  | none, none =>
    match s.probeAll x acc size (vas.map fun (va : Nat) => ⟨laneNone, (va : Int), none⟩) none [] with
    | (s, .error t) => (s, .error t)
    | (s, .ok as) =>
      match as.find? fun p => home && p.2.peer.isSome with
      | some p => (s, .error (protectionAt laneNone acc p.1.va.toNat))
      | none =>
        match as.find? fun p => !x.seq && s.lockedGlobal x.core x.ctx p.1.va.toNat size (acc != accRead) with
        | some p => (s, .error (lockAt laneNone acc p.1.va.toNat))
        | none => (s.sendRequests (s.stampOf x) reply 0#11 acc (as.map (·.2)) [], .ok as)

/-- The same for one object. -/
def State.checkObject (s : State) (x : Exec) (acc : BitVec 2) (size align va : Nat) (home : Bool) : State × Except Trap Access :=
  match s.checkObjects x acc size align [va] home with
  | (s, .error t) => (s, .error t)
  | (s, .ok as) => (s, .ok ((as.map (·.2)).headD default))

/-! ## Pair counters (R419, R420) -/

/-- Largest value of a pair counter. -/
def pairMax : Nat := 2 ^ 32 - 1

/-- A pair counter of an ensemble; one not listed holds 0 and has no waiter. -/
def Ensemble.counter (e : Ensemble) (i j : Nat) : PairCounter :=
  (e.counters.find? fun c => c.i = i ∧ c.j = j).getD ⟨i, j, 0, []⟩

/-- Replace a pair counter. -/
def Ensemble.setCounter (e : Ensemble) (c : PairCounter) : Ensemble :=
  { e with counters := upsert (fun d => d.i = c.i ∧ d.j = c.j) c e.counters }

/-- Take waiters in order of arrival while the first one's count is met (R420): the value left, those that still wait, and those to wake. -/
def takeWaiters : List SemWaiter → Nat → List (Issuer × BitVec 3) → Nat × List SemWaiter × List (Issuer × BitVec 3)
  | [], v, us => (v, [], us.reverse)
  | w :: ws, v, us => if w.n ≤ v then takeWaiters ws (v - w.n) ((w.who, w.sc) :: us) else (v, w :: ws, us.reverse)

/-- Store a pair counter after serving its waiters. -/
def State.servePair (s : State) (e : Ensemble) (c : PairCounter) : State :=
  let r := takeWaiters c.waiters c.value []
  (s.modEnsemble e.eid fun e => e.setCounter { c with value := r.1, waiters := r.2.1 }).wakeAll r.2.2

/-! ## Parking semaphores (R420, R423) -/

/-- Register a waiter of a parking semaphore; the entry of a saved ensemble keeps its place (R423). -/
def State.enqueuePark (s : State) (w : ParkWaiter) : State :=
  { s with parkWaiters := upsert (fun q => q.key = w.key ∧ q.who = w.who) w s.parkWaiters }

/-! ## Semaphore instructions (R418 to R421) -/

/-- Issue of a semaphore instruction (R270). -/
def kindSem (late : Bool) : IssueKind := ⟨false, false, false, late, true⟩

/-- The count *n* of `semup` and `semwait`. -/
def semCount (w : Fields) : Nat := (w.imm.extractLsb' 0 16).toNat

/-- The pair forms' checks (R417, R419): poison, then the issuer's and the operand's rank. [log 35: DEDUCED, unsafe] -/
def State.checkRank (s : State) (x : Exec) (w : Fields) : Except Stop (Team × Ensemble × Nat) :=
  let r := s.regsOf x.u
  let k := (r.bits w.a).toNat
  match consumeOnce [(w.a, r.taint w.a)] with
  | some t => .error (.trap t)
  | none =>
    match (if x.seq then none else s.team? x.t).bind fun tm => (s.ensemble? tm.ensemble).map fun e => (tm, e) with
    | none => .error (.trap (protectionOnce (BitVec.ofNat 56 k)))
    | some (tm, e) =>
      if k ≥ e.teams.length then .error (.trap (protectionOnce (BitVec.ofNat 56 k))) else .ok (tm, e, k)

/-- The parking forms' checks (R417, R418): poison, then R302 on the word. -/
def State.checkPark (s : State) (x : Exec) (w : Fields) : State × Except Stop Access :=
  let r := s.regsOf x.u
  match consumeOnce [(w.a, r.taint w.a)] with
  | some t => (s, .error (.trap t))
  | none =>
    match s.checkObject x accBoth 8 8 (r.bits w.a).toNat false with
    | (s, .error t) => (s, .error (.trap t))
    | (s, .ok a) => (s, .ok { a with strong := true, wide := true })

/-- `semup` on the word of an access (R420): performed at its point, or sent to the peer. [log 34: DEDUCED, unsafe] -/
def State.parkUp (s : State) (x : Exec) (a : Access) (va n : Nat) (holds : Bool) : State :=
  let o : AtomicOp := ⟨11, .n64, BitVec.ofNat 64 n, 0#64, 0#3⟩
  match a.peer with
  | some peer =>
    s.sendRemote
      { id := 0, who := x.u, peer, sector := a.key / 128, mask := a.mask, data := 0#1024, brings := false
        atomic := some o, dest := none, va, holds, acq := none }
  | none =>
    let r := s.atomic a o
    if r.2.2.1 then r.1.postPoison x.core va else r.1

/-- `semup` (R418 to R421). -/
def execSemup (w : Fields) (s : State) : Outcome State Fault Refusal :=
  issue (kindSem false) 0xE8#8 w 16 (fun x s =>
    let f : Effects := ⟨true, false, mdScope w.md⟩
    if w.fn = 0#4 then
      match s.checkRank x w with
      | .error t => .error t
      | .ok (tm, _, j) =>
        match f.before x s with
        | .error t => .error t
        | .ok s =>
          match s.ensemble? tm.ensemble with
          | none => .ok s
          | some e =>
            let c := e.counter tm.rank j
            .ok (s.servePair e { c with value := min (c.value + semCount w) pairMax })
    else
      match s.checkPark x w with
      | (_, .error t) => .error t
      | (s, .ok a) =>
        match f.before x s with
        | .error t => .error t
        | .ok s => .ok (holdRemote x f.holds (s.parkUp x a ((s.regsOf x.u).bits w.a).toNat (semCount w) f.holds))) s

/-- `semwait` (R418 to R422): the waiter joins its counter, and the gang is blocked until it is woken. -/
def execSemwait (w : Fields) (s : State) : Outcome State Fault Refusal :=
  issue (kindSem false) 0xE9#8 w 16 (fun x s =>
    if w.fn = 0#4 then
      match s.checkRank x w with
      | .error t => .error t
      | .ok (tm, e, i) =>
        let c := e.counter i tm.rank
        .ok ((blockUnit x (.semPair i tm.rank) s).servePair e
          { c with waiters := c.waiters ++ [⟨x.u, semCount w, mdScope w.md⟩] })
    else
      match s.checkPark x w with
      | (_, .error t) => .error t
      | (s, .ok a) =>
        if s.awaitsOwn x a then .error (.wait .remote)
        else
        let s := s.expose a
        .ok ((blockUnit x (.semPark a.parkKey) s).enqueuePark ⟨a.parkKey, x.u, semCount w, mdScope w.md, false⟩).servePark) s

/-- The outstanding result of `semread` and of other instructions with a scalar destination. -/
def scalarReply (x : Exec) (id : Nat) (t : Ty) (v : Nat) (poison : Bool) : Result :=
  let r : Result := ⟨id, [], [], [], [], 0#5, .none⟩
  match x.w.d with
  | .sca sel i =>
    let p := scalarResult t sel v
    { r with sca := [⟨i, p.1, p.2, if poison then p.1 else 0#2⟩] }
  | _ => r

/-- `semread` (R418 to R421). -/
def execSemread (w : Fields) (s : State) : Outcome State Fault Refusal :=
  issue (kindSem true) 0xEA#8 w 16 (fun x s =>
    let f : Effects := ⟨false, true, mdScope w.md⟩
    let id := s.ids
    if w.fn = 0#4 then
      match s.checkRank x w with
      | .error t => .error t
      | .ok (tm, e, i) => .ok (f.after x (s.bump.deliver x (scalarReply x id .b32 (e.counter i tm.rank).value false)))
    else
      match s.checkPark x w with
      | (_, .error t) => .error t
      | (s, .ok a) =>
        if s.awaitsOwn x a then .error (.wait .remote)
        else
          let r := s.read a
          .ok (f.after x (r.1.bump.deliver x (scalarReply x id .b64 r.2.1 r.2.2)))) s

/-! ## Barriers (R425) -/

/-- Gangs of a team that have not retired. -/
def Team.gangsLeft (x : Team) : Nat := (x.gangs.filter fun v => v.status ≠ .retired).length

/-- Complete the phase of barrier `b` when its arrivals reach its count: the phase flips and the gangs that wait are woken. -/
def State.serveBarrier (s : State) (t : Nat) (b : Nat) : State :=
  match s.team? t with
  | none => s
  | some tm =>
    let v := vget tm.barriers b ⟨0, 0, false, false⟩
    if v.count ≠ 0 ∧ v.arrivals ≥ v.count then
      let s := s.modTeam t fun x => { x with barriers := vset x.barriers b ⟨0, 0, false, !v.phase⟩ }
      tm.gangs.zipIdx.foldl (fun s p =>
        match p.1.status with
        | .blocked (.bar c) _ => if c = b then s.wake (.gang t p.2) else s
        | _ => s) s
    else s

/-- One arrival at a barrier; the first of a phase fixes its count. -/
def Barrier.arrive (v : Barrier) (m left : Nat) : Barrier :=
  if v.count = 0 then ⟨v.arrivals + 1, if m = 0 then left else m, m = 0, v.phase⟩ else { v with arrivals := v.arrivals + 1 }

/-- `bar` (R425): the arrival releases at team scope (R289). -/
def execBar (w : Fields) (s : State) : Outcome State Fault Refusal :=
  issue { kindPlain with conv := true } 0xD5#8 w 16 (fun x s =>
    let b := (w.imm.extractLsb' 0 4).toNat
    let m := (w.imm.extractLsb' 8 6).toNat
    match releaseAt x 0#3 s with
    | .error e => .error e
    | .ok s =>
      let s := s.modTeam x.t fun tm =>
        { tm with barriers := vset tm.barriers b ((vget tm.barriers b ⟨0, 0, false, false⟩).arrive m tm.gangsLeft) }
      let s := if w.fn = 1#4 then s else blockUnit x (.bar b) s
      .ok (s.serveBarrier x.t b)) s

/-- A gang of a team has retired: counts that came from the number of gangs fall to those that remain (R425). -/
def State.barriersRetire (s : State) (t : Nat) : State :=
  let s := s.modTeam t fun x =>
    { x with barriers := Vector.ofFn fun b : Fin 16 =>
        let v := x.barriers[b]
        if v.count ≠ 0 ∧ v.fromGangs then { v with count := max x.gangsLeft 1 } else v }
  (List.range 16).foldl (fun s b => s.serveBarrier t b) s

/-! ## Slack (R416, R427) -/

/-- The default slack of R416. [log 35: DEDUCED, unsafe] -/
def slackOf (deadline now : W64) : BitVec 12 :=
  BitVec.ofNat 12 (min (max ((deadline.toNat - now.toNat) / 1024) 16) 4095)

/-- `slkset` (R427), of a gang or of a sequencer. [log 35: DEDUCED, unsafe] -/
def execSlkset (w : Fields) (s : State) : Outcome State Fault Refusal :=
  issue kindPlain 0xEB#8 w 16 (fun x s =>
    let r := s.regsOf x.u
    let v := r.halfOrImm w w.a
    match consumeOnce [(w.a, r.taint w.a)] with
    | some t => .error (.trap t)
    | none =>
      let slack := if v = 0 then slackOf (s.special x 0x16) (s.special x 0x10) else BitVec.ofNat 12 (min v 4095)
      match x.u with
      | .gang t _ => .ok (s.modTeam t fun tm => { tm with slack := slack })
      | .seq n => .ok (s.modSeq n fun q => { q with slack := slack })) s

/-! ## Sequence numbers (R426) -/

/-- `seqwait` (R418, R426), of a gang or of a sequencer. -/
def execSeqwait (w : Fields) (s : State) : Outcome State Fault Refusal :=
  issue { kindPlain with memory := true } 0xEC#8 w 16 (fun x s =>
    let r := s.regsOf x.u
    match consumeOnce [(w.a, r.taint w.a), (w.b, r.taint w.b)] with
    | some t => .error (.trap t)
    | none =>
      match s.checkObject x accBoth 64 64 (r.bits w.a).toNat true with
      | (_, .error t) => .error (.trap t)
      | (s, .ok a) =>
        let n : W32 := (r.bits w.b).extractLsb' 0 32
        let s := s.writeBack a.die (a.key / 128)
        .ok ((blockUnit x (.seqwait a.key n (mdScope w.md)) s).serveSeqwaits)) s

end Sys2Proof.Machine
end

