-- ==== Sys2Proof/Machine/Master.lean ====
section
/-! DEFINITION. What the master distributor does with launch queues and launches: descriptors, packets, doorbells, stops, notices, completion records and the ends of launches (R344 to R364, R367, R485, R505). -/

namespace Sys2Proof.Machine

/-! ## Memory through a context's page tables -/

/-- Bytes [o, o + n) of a number of bytes. -/
def sliceNat (v o n : Nat) : Nat := v / 256 ^ o % 256 ^ n

/-- Physical address of a class-0 page of a context with the permissions needed, bit 0 read and bit 1 write, as a unit outside the compute dies finds it (R345, R350, R485). [log 37: DEDUCED, unsafe] -/
def State.masterPa (s : State) (ctx va : Nat) (need : BitVec 3) : Option Nat :=
  if va ≥ 2 ^ 56 then none
  else
    match (s.lookChip ctx va).2 with
    | .leaf l =>
      let pa := l.pa va
      if l.cc = 0#4 ∧ need &&& ~~~ l.xwr = 0#3 ∧ (regionOf pa = .global ∨ regionOf pa = .host) then some pa else none
    | _ => none

/-- Read `n` bytes at the memory side through a context's page tables. -/
def State.masterRead (s : State) (ctx va n : Nat) : Option Nat := (s.masterPa ctx va 1#3).map fun pa => memNat s.mem pa n

/-- Write bytes at the memory side through a context's page tables. -/
def State.masterWrite (s : State) (ctx va : Nat) (bs : List Byte) : Option State :=
  (s.masterPa ctx va 2#3).map fun pa => s.sideBytes pa bs

/-- Write bytes of a descriptor or a ring through a context's page tables, which need read and write permission (R505). -/
def State.masterPut (s : State) (ctx va : Nat) (bs : List Byte) : Option State :=
  (s.masterPa ctx va 3#3).map fun pa => s.sideBytes pa bs

/-! ## Fault queues (R367, R485) -/

/-- Bytes of a fault-queue record (R367). [log 13: DESIGN CHOICE, unsafe] -/
def recordBytes (kind what slot id detail va tick : Nat) : List Byte :=
  bytesOf (kind + 256 * what + 65536 * slot) 8 ++ bytesOf id 8 ++ bytesOf detail 8 ++ bytesOf va 8 ++ bytesOf tick 8 ++
    bytesOf 0 24

/-- The ring is enabled and has room (R485). -/
def Ctx.ringRoom (c : Ctx) : Bool :=
  decide (6 ≤ c.fqLen.toNat ∧ c.fqLen.toNat ≤ 16) && decide ((c.fqTail - c.fqHead).toNat < 2 ^ c.fqLen.toNat)

/-- Write a record to a context's ring and advance its tail (R485): the record's index, none when it cannot be written. -/
def State.writeRecord (s : State) (ctx : Nat) (bs : List Byte) : State × Option Nat :=
  match s.ctx? ctx with
  | none => (s, none)
  | some c =>
    if c.ringRoom then
      match s.masterWrite ctx (c.fqBase.toNat + 64 * (c.fqTail.toNat % 2 ^ c.fqLen.toNat)) bs with
      | some s => (s.modCtx ctx fun c => { c with fqTail := c.fqTail + 1#32 }, some c.fqTail.toNat)
      | none => (s, none)
    else (s, none)

/-- Post a notice, which a full ring drops and counts (R367). -/
def State.notice (s : State) (ctx : Nat) (bs : List Byte) : State :=
  match s.writeRecord ctx bs with
  | (s, some _) => s
  | (s, none) => s.modCtx ctx fun c => { c with dropped := c.dropped + 1 }

/-- A launch notice of kind `what` (R367). -/
def State.launchNotice (s : State) (ctx what id status : Nat) : State :=
  s.notice ctx (recordBytes 2 what 0 id status 0 s.tick)

/-- Register a written fault record with the team that it holds (R440, R442). -/
def State.registerRecord (s : State) (ctx : Nat) (w : WaitingRecord) (idx : Nat) : State :=
  let s := s.modCtx ctx fun c => { c with outstanding := c.outstanding ++ [⟨idx, w.team, w.gang, w.slot, w.epoch⟩] }
  if w.slot = 0xFFFF then s.modGang w.team w.gang fun v => { v with status := .held false idx }
  else s.modTeam w.team fun x => { x with records := x.records ++ [(false, idx)] }

/-- Write waiting records in order until one cannot be written (R367, R485). -/
def State.writeWaiting (s : State) (ctx : Nat) : List WaitingRecord → State
  | [] => s.modCtx ctx fun c => { c with waiting := [] }
  | w :: ws =>
    match s.writeRecord ctx w.bytes with
    | (s, some idx) => (s.registerRecord ctx w idx).writeWaiting ctx ws
    | (s, none) => s.modCtx ctx fun c => { c with waiting := w :: ws }

/-- Try the waiting records of a context again (R485). -/
def State.retryRecords (s : State) (ctx : Nat) : State :=
  match s.ctx? ctx with
  | some c => s.writeWaiting ctx c.waiting
  | none => s

/-- Write a fault record, or keep it until it can be written: no fault is lost (R367). -/
def State.faultRecord (s : State) (ctx : Nat) (w : WaitingRecord) : State :=
  (s.modCtx ctx fun c => { c with waiting := c.waiting ++ [w] }).retryRecords ctx

/-! ## Queues as the master holds them (R345, R346, R505) -/

/-- The fields of a descriptor's 64 bytes (R345). -/
def slotOfBytes (q v : Nat) : QueueSlot where
  q := q
  base := BitVec.ofNat 64 (sliceNat v 0 8)
  logn := sliceNat v 8 1
  cls := BitVec.ofNat 8 (sliceNat v 9 1)
  head := BitVec.ofNat 32 (sliceNat v 0x10 4)
  tail := BitVec.ofNat 32 (sliceNat v 0x14 4)
  latch := BitVec.ofNat 32 (sliceNat v 0x18 4)
  lv := sliceNat v 0x1C 4 % 2 = 1
  nextens := BitVec.ofNat 64 (sliceNat v 0x20 8)
  err := BitVec.ofNat 32 (sliceNat v 0x28 4)
  leaving := false

/-- A descriptor that breaks R505. -/
def descriptorBad (qctx v : Nat) : Bool :=
  sliceNat v 0 8 % 128 != 0 || sliceNat v 8 1 < 4 || sliceNat v 8 1 > 16 || sliceNat v 9 1 / 4 != 0 ||
    sliceNat v 0x0A 2 != qctx || sliceNat v 0x0C 4 != 0 || sliceNat v 0x1C 4 / 2 != 0 || sliceNat v 0x2C 20 != 0

/-- The slot of a mapped queue. -/
def State.slot? (s : State) (q : Nat) : Option QueueSlot := s.slots.find? fun x => x.q = q

/-- Apply a change to the slot of a mapped queue. -/
def State.modSlot (s : State) (q : Nat) (f : QueueSlot → QueueSlot) : State :=
  { s with slots := updateFirst (fun x => x.q = q) f s.slots }

/-- The fields of a queue's descriptor as memory holds them. -/
def State.descriptorFields (s : State) (q : Nat) : Option QueueSlot :=
  let r := s.queue q
  (s.masterRead r.qctx.toNat r.desc.toNat 64).map (slotOfBytes q)

/-- The descriptor of a queue, read from memory and checked: its fields, or the error code (R505). -/
def State.descriptor (s : State) (q : Nat) : Except Nat QueueSlot :=
  let r := s.queue q
  let c := r.qctx.toNat
  match s.masterRead c r.desc.toNat 64, s.masterPa c r.desc.toNat 3#3 with
  | some v, some _ => if descriptorBad c v then .error 2 else .ok (slotOfBytes q v)
  | _, _ => .error 3

/-- What the master holds of a queue: its slot, or else its descriptor. -/
def State.queueView (s : State) (q : Nat) : Except Nat QueueSlot :=
  match s.slot? q with
  | some x => .ok x
  | none => s.descriptor q

/-- A device-fed queue (R347). -/
def QueueSlot.deviceFed (x : QueueSlot) : Bool := x.cls.getLsbD 1
/-- A best-effort queue (R345). -/
def QueueSlot.bestEffort (x : QueueSlot) : Bool := x.cls.getLsbD 0
/-- Address of packet `i` (R345). -/
def QueueSlot.packetVa (x : QueueSlot) (i : Nat) : Nat := x.base.toNat + 128 * (i % 2 ^ x.logn)

/-- A queue has work (R345). One that has stopped has none until a doorbell finds `ERR` cleared (R352). -/
def State.hasWork (s : State) (x : QueueSlot) : Bool :=
  x.head != x.tail && x.err == 0#32 && (s.queue x.q).heldErr == 0#32 && !(s.queue x.q).stopped

/-- Write fields of a queue's descriptor. -/
def State.writeDescriptor (s : State) (q o : Nat) (bs : List Byte) : Option State :=
  let r := s.queue q
  s.masterPut r.qctx.toNat (r.desc.toNat + o) bs

/-- Post an event of the master distributor to a cluster's queue (R364, R365). -/
def State.masterPost (s : State) (cluster kind sub : Nat) (detail : W64) : State :=
  let r : W128 := detail ++ BitVec.ofNat 32 s.tick ++ 1#16 ++ BitVec.ofNat 8 sub ++ BitVec.ofNat 8 kind
  let s := s.bump
  { s with posts := s.posts ++ [⟨s.ids, cluster, 4096, r⟩] }

/-- The detail of a queue error: queue and packet index (R365). -/
def queueDetail (q : Nat) (i : W32) : W64 := BitVec.ofNat 32 q ++ i

/-- The cluster that issued a packet still in the ring (R364). -/
def QueueReg.issuerOf (r : QueueReg) (i : W32) : Option Nat := (r.issuers.find? fun p => p.1 = i).map (·.2)

/-- `HEAD` as a queue's descriptor holds it, 0 where it cannot be read. -/
def State.descriptorHead (s : State) (q : Nat) : W32 :=
  let r := s.queue q
  BitVec.ofNat 32 ((s.masterRead r.qctx.toNat (r.desc.toNat + 0x10) 4).getD 0)

/-- Stop a queue at a packet with a code (R352, R505): `HEAD` stays, and `ERR` is written, or held where it cannot be. A queue already stopped posts nothing again. -/
def State.stopQueue (s : State) (q : Nat) (head idx : W32) (code : Nat) (cluster : Option Nat) : State :=
  let r := s.queue q
  let already : Bool := r.stopped || r.heldErr != 0#32 ||
    (match s.slot? q with
     | some x => x.err != 0#32
     | none => (s.masterRead r.qctx.toNat (r.desc.toNat + 0x28) 4).any fun v => v != 0)
  let err : W32 := idx <<< 8 ||| BitVec.ofNat 32 code
  let s := (s.modSlot q fun x => { x with err := err }).modQueue q fun r => { r with stopped := true }
  let s := match (s.writeDescriptor q 0x10 (bytesOf head.toNat 4)).bind fun s => s.writeDescriptor q 0x28 (bytesOf err.toNat 4) with
    | some s => s
    | none => s.modQueue q fun r => { r with heldErr := err }
  if already then s
  else
    let s := s.launchNotice r.qctx.toNat 6 (queueDetail q idx).toNat 0
    match cluster.or (r.issuerOf idx) with
    | some c => s.masterPost c 6 0 (queueDetail q idx)
    | none => s

/-! ## Packets (R349 to R351) -/

/-- Offset of `DEADLINE` by the packet's type; none for an unknown type. -/
def deadlineOffset (ty : Nat) : Option Nat :=
  match ty with
  | 1 => some 0x08
  | 2 | 3 => some 0x18
  | _ => none

/-- The packet at an index of a queue. -/
def State.packetAt (s : State) (x : QueueSlot) (i : Nat) : Option Nat :=
  s.masterRead (s.queue x.q).qctx.toNat (x.packetVa i) 128

/-- Nanoseconds after which best-effort work is due (R354). -/
def bestEffortDelay : Nat := 10000000

/-- Stamp the packets of a best-effort queue that a doorbell makes visible (R354); the index of a packet whose ring entry cannot be written (R505). [log 37: DEDUCED, unsafe] -/
def State.stampPackets (s : State) (x : QueueSlot) : (n : Nat) → (i : W32) → Except W32 State
  | 0, _ => .ok s
  | n + 1, i =>
    match (s.packetAt x i.toNat).bind fun v => deadlineOffset (v % 256) with
    | some o =>
      match s.masterPut (s.queue x.q).qctx.toNat (x.packetVa i.toNat + o) (bytesOf (s.tick + bestEffortDelay) 8) with
      | some s => s.stampPackets x n (i + 1#32)
      | none => .error i
    | none => s.stampPackets x n (i + 1#32)

/-! ## Launches (R40 to R43, R62, R64, R349, R353, R364) -/

/-- The fields of a launch packet's 128 bytes (R349). -/
def packetFields (v : Nat) : PacketFields where
  flags := BitVec.ofNat 8 (sliceNat v 1 1)
  res := BitVec.ofNat 16 (sliceNat v 2 2)
  grace := BitVec.ofNat 32 (sliceNat v 4 4)
  deadline := BitVec.ofNat 64 (sliceNat v 8 8)
  kernel := BitVec.ofNat 64 (sliceNat v 0x10 8)
  record := BitVec.ofNat 64 (sliceNat v 0x18 8)
  gx := BitVec.ofNat 32 (sliceNat v 0x20 4)
  gy := BitVec.ofNat 32 (sliceNat v 0x24 4)
  gz := BitVec.ofNat 32 (sliceNat v 0x28 4)
  s := BitVec.ofNat 8 (sliceNat v 0x2C 1)
  w := BitVec.ofNat 8 (sliceNat v 0x2D 1)
  g := BitVec.ofNat 8 (sliceNat v 0x2E 1)
  regs := BitVec.ofNat 8 (sliceNat v 0x2F 1)
  scr := BitVec.ofNat 16 (sliceNat v 0x30 2)
  ten := BitVec.ofNat 16 (sliceNat v 0x32 2)
  zero := sliceNat v 0x34 0x4C = 0

/-- Coresident (R349). -/
def PacketFields.coresident (p : PacketFields) : Bool := p.flags.getLsbD 0
/-- Reissuable. -/
def PacketFields.reissuable (p : PacketFields) : Bool := p.flags.getLsbD 1
/-- Pre-emptible. -/
def PacketFields.preemptible (p : PacketFields) : Bool := p.flags.getLsbD 2
/-- Late-drop. -/
def PacketFields.lateDrop (p : PacketFields) : Bool := p.flags.getLsbD 3
/-- `AFTER`. -/
def PacketFields.after (p : PacketFields) : Bool := p.flags.getLsbD 4
/-- Posts events. -/
def PacketFields.events (p : PacketFields) : Bool := p.flags.getLsbD 5

/-- Coordinates of a launch. -/
def PacketFields.coordinates (p : PacketFields) : Nat := p.gx.toNat * p.gy.toNat * p.gz.toNat

/-- Ensembles of a launch (R42). -/
def PacketFields.ensembles (p : PacketFields) : Nat := (p.coordinates + p.w.toNat - 1) / p.w.toNat

/-- Teams of ensemble `k` (R42). -/
def PacketFields.teamsOf (p : PacketFields) (k : Nat) : Nat :=
  (min (p.coordinates - k * p.w.toNat) p.w.toNat) * p.s.toNat

/-- A launch packet that breaks R40, R349 or R350. -/
def PacketFields.malformed (p : PacketFields) : Bool :=
  let extent := fun v : W32 => decide (v.toNat < 1 ∨ v.toNat > 2 ^ 20)
  !p.zero || p.flags.extractLsb' 6 2 != 0#2 || extent p.gx || extent p.gy || extent p.gz ||
    decide (p.s.toNat < 1 ∨ p.s.toNat > 16) || decide (p.g.toNat < 1 ∨ p.g.toNat > 32) ||
    decide (p.w.toNat < 1 ∨ p.w.toNat * p.s.toNat > 48) || decide (p.kernel.toNat % 16 ≠ 0 ∨ p.kernel.toNat ≥ 2 ^ 56) ||
    decide (p.record.toNat % 32 ≠ 0) || decide (p.regs.toNat < 1 ∨ p.regs.toNat > 32) ||
    decide (p.scr.toNat > 256 ∨ p.ten.toNat > 256 ∨ p.res.toNat > 63)

/-- What a core has free, or what a team takes of it (R43, R147). -/
structure Room where
  places : Nat
  gangs : Nat
  slots : Nat
  scratch : Nat
  tensor : Nat
  deriving DecidableEq, Repr, Inhabited

/-- An empty core (R29). -/
def Room.full : Room := ⟨4, 64, 8192, 256, 256⟩

/-- What one team of a launch takes, windows and granules in units of 2 KiB. -/
def PacketFields.need (p : PacketFields) : Room :=
  ⟨1, p.g.toNat, p.g.toNat * (8 * p.regs.toNat), p.scr.toNat, p.ten.toNat⟩

/-- Teams of a kind that fit in a room. -/
def Room.holds (r need : Room) : Nat :=
  let by_ := fun a n => if n = 0 then 4 else a / n
  min (by_ r.places need.places) (min (by_ r.gangs need.gangs) (min (by_ r.slots need.slots)
    (min (by_ r.scratch need.scratch) (by_ r.tensor need.tensor))))

/-- What is left after `k` teams of a kind. -/
def Room.minus (r need : Room) (k : Nat) : Room :=
  ⟨r.places - k * need.places, r.gangs - k * need.gangs, r.slots - k * need.slots, r.scratch - k * need.scratch,
    r.tensor - k * need.tensor⟩

/-- Counters of a cluster's semaphore store (R408). -/
def pairStore : Nat := 16384

/-- Placeable: one full ensemble fits an empty cluster (R43, R147). -/
def PacketFields.placeable (p : PacketFields) : Bool :=
  let k := Room.full.holds p.need
  decide (k ≥ 1 ∧ p.w.toNat * p.s.toNat ≤ 48 * k)

/-- The reservation of a launch. [log 42: DESIGN CHOICE, unsafe] -/
def State.reservationOf (s : State) (ctx : Nat) (p : PacketFields) : Option Reservation :=
  s.reservations.find? fun r => decide (r.r = p.res.toNat ∧ r.ctx = ctx)

/-- A cluster has no resident team. -/
def State.clusterEmpty (s : State) (c : Nat) : Bool :=
  s.teams.all fun x => !decide (clusterOf x.core = c) || !x.placedOn x.core

/-- A cluster may run a launch (R14, R44, R361). -/
def State.eligible (s : State) (ctx : Nat) (p : PacketFields) (c : Nat) : Bool :=
  let d := s.die (c / 6)
  let owner := s.reservations.find? fun r => r.clusters.contains c
  decide (c < 54) && !d.fenced && (d.inService || (d.spare && p.preemptible)) &&
    (if p.res = 0#16 then owner.isNone || (p.preemptible && s.clusterEmpty c)
     else owner.any fun r => decide (r.r = p.res.toNat ∧ r.ctx = ctx))

/-- Clusters that count as the capacity of a coresident launch: those of its reservation, or of the dies in service (R64). -/
def State.capacityClusters (s : State) (ctx : Nat) (p : PacketFields) : Nat :=
  match (if p.res = 0#16 then none else s.reservationOf ctx p) with
  | some r => r.clusters.length
  | none => ((List.range 54).filter fun c => (s.die (c / 6)).inService && !(s.die (c / 6)).fenced).length

/-- A coresident launch fits the empty clusters of its capacity at once (R64, R408): `c` whole ensembles to a cluster, and the last one, which may be smaller, in what they leave. -/
def State.coresidentFits (s : State) (ctx : Nat) (p : PacketFields) : Bool :=
  let k := Room.full.holds p.need
  let n := p.w.toNat * p.s.toNat
  let m := p.teamsOf (p.ensembles - 1)
  let c := min (48 * k / n) (pairStore / (n * n))
  let cl := s.capacityClusters ctx p
  let spare : Bool := decide (cl > 0 ∧ c * n + m ≤ 48 * k ∧ c * n * n + m * m ≤ pairStore)
  decide (p.ensembles ≤ c * cl + (if spare then 1 else 0))

/-- Status of a launch whose first check fails (R350, R361): 3 malformed, 4 unplaceable. -/
def State.launchFault (s : State) (ctx : Nat) (p : PacketFields) : Option Nat :=
  if p.malformed then some 3
  else if (p.res ≠ 0#16 ∧ (s.reservationOf ctx p).isNone) ∨ ¬ p.placeable ∨ (p.coresident ∧ ¬ s.coresidentFits ctx p)
  then some 4
  else none

/-- The bytes of a completion record (R353). -/
def completionBytes (status id first now : Nat) : List Byte :=
  bytesOf status 8 ++ bytesOf id 8 ++ bytesOf first 8 ++ bytesOf now 8

/-- Write a completion record; where its page does not take it, post the notice of R350. -/
def State.writeCompletion (s : State) (ctx va status id first : Nat) : State :=
  match s.masterWrite ctx va (completionBytes status id first s.tick) with
  | some s => s
  | none => s.launchNotice ctx 4 id status

/-- An event about a launch, to the cluster that issued it or as a notice (R364). -/
def State.launchEvent (s : State) (l : Launch) (kind sub : Nat) : State :=
  if l.p.events then
    match l.issuer with
    | some c => s.masterPost c kind sub l.lid
    | none => s.launchNotice l.ctx kind l.lid.toNat 0
  else s

/-- A launch leaves every die range and sequencer: no further ensemble of it starts. -/
def State.purgeLaunch (s : State) (k : Nat) : State :=
  { s with
    dies := Vector.ofFn fun d => { s.dies[d] with ranges := s.dies[d].ranges.filter fun r => r.launch ≠ k }
    seqs := s.seqs.map fun q => { q with holding := q.holding.filter fun h => h.launch ≠ k } }

/-- Complete a launch with a status (R62, R350, R353, R364). [log 51: DEDUCED, unsafe] -/
def State.completeLaunch (s : State) (k status : Nat) : State :=
  match s.launch? k with
  | none => s
  | some l =>
    let s := s.writeCompletion l.ctx l.p.record.toNat status l.lid.toNat (l.firstStart.getD 0)
    let s := (s.launchEvent l 4 status).purgeLaunch k
    { s with launches := s.launches.filter fun x => x.key ≠ k }

/-- Ensembles of a launch that have started and are not all done. -/
def State.running (s : State) (k : Nat) : Bool := s.ensembles.any fun e => e.launch = k

/-- Complete a launch whose ensembles are all done, or which was dropped and has drained (R62, R363). -/
def State.settleLaunch (s : State) (k : Nat) : State :=
  match s.launch? k with
  | none => s
  | some l =>
    if l.dropped then (if s.running k then s else s.completeLaunch k 2)
    else if l.doneEns.length = l.p.ensembles then s.completeLaunch k (if l.lostWrite then 5 else 1)
    else s

/-- The first index from one on whose packet is not passed over. -/
def pastSkipped (skip : List W32) : (n : Nat) → W32 → W32
  | 0, h => h
  | n + 1, h => if skip.contains h then pastSkipped skip n (h + 1#32) else h

/-- Set `HEAD` of a queue, with no ensemble of the packet there dealt: in its slot, or in the descriptor of a queue that is not mapped (R345). -/
def State.setHead (s : State) (q : Nat) (old h : W32) : State :=
  match s.slot? q with
  | some _ => s.modSlot q fun x => { x with head := h, nextens := 0#64 }
  | none =>
    match (s.writeDescriptor q 0x10 (bytesOf h.toNat 4)).bind fun s => s.writeDescriptor q 0x20 (bytesOf 0 8) with
    | some s => s
    | none => s.stopQueue q old old 3 none

/-- The queue's packet at its head has been consumed (R348), with those after it whose launches are over. -/
def State.consume (s : State) (q : Nat) : State :=
  match s.queueView q with
  | .error _ => s
  | .ok x =>
    let skip := (s.queue q).skipped
    let h := pastSkipped skip skip.length (x.head + 1#32)
    (s.setHead q x.head h).modQueue q fun r =>
      { r with
        issuers := r.issuers.filter fun p => p.1 ≠ x.head
        skipped := r.skipped.filter fun i => (h - x.head).toNat ≤ (i - x.head).toNat }

/-- The packet of a launch that is over without having been dealt whole leaves its queue: at the head it is consumed, behind the head it is passed over when the head reaches it (R362, R363). -/
def State.passOver (s : State) (l : Launch) : State :=
  if l.dealt then s
  else
    match s.queueView l.queue with
    | .ok x =>
      if x.head = l.index then s.consume l.queue else s.modQueue l.queue fun r => { r with skipped := l.index :: r.skipped }
    | .error _ => s.modQueue l.queue fun r => { r with skipped := l.index :: r.skipped }

/-- The packet of a launch still stands in its ring entry (R345). -/
def State.packetStands (s : State) (l : Launch) : Bool :=
  !l.dealt ||
    (match s.queueView l.queue with
     | .ok x => decide ((x.tail - l.index).toNat ≤ 2 ^ x.logn)
     | .error _ => false)

/-- The new deadline is written into the packet of a launch while it stands in the ring; a ring entry that cannot be written stops the queue (R363, R505). -/
def State.restampPacket (s : State) (l : Launch) (d : Nat) : State :=
  if s.packetStands l then
    match s.masterPut l.ctx (l.va + 8) (bytesOf d 8) with
    | some s => s
    | none =>
      match s.queueView l.queue with
      | .ok x => if l.dealt then s else s.stopQueue l.queue x.head l.index 3 none
      | .error _ => s
  else s

/-- The deadline of a launch passes, be it taken up yet or not (R363). [log 37: DEDUCED, unsafe] -/
def State.missDeadline (s : State) (k : Nat) : State :=
  match s.launch? k with
  | none => s
  | some l =>
    if l.restamped ∨ l.dropped ∨ l.deadline.toNat ≥ s.tick then s
    else if l.p.lateDrop then
      let s := s.passOver l
      let s := (s.modLaunch k fun l => { l with dropped := true, dealt := true }).purgeLaunch k
      (s.launchEvent l 3 1).settleLaunch k
    else
      let d := BitVec.ofNat 64 (s.tick + l.p.grace.toNat)
      let s := s.modLaunch k fun l => { l with deadline := d, restamped := true }
      (s.restampPacket l d.toNat).launchEvent l 3 0

/-- A queue accepts a launch packet (R349): its launch is not yet come to the head of the queue. -/
def State.acceptLaunch (s : State) (x : QueueSlot) (i : W32) (v : Nat) : State :=
  let r := s.queue x.q
  let p := packetFields v
  let l : Launch :=
    { key := s.ids, lid := BitVec.ofNat 16 x.q ++ BitVec.ofNat 48 r.accepted, ctx := r.qctx.toNat, queue := x.q, index := i
      va := x.packetVa i.toNat, p, deadline := p.deadline, nextEns := 0, doneEns := [], firstStart := none
      restamped := false, dropped := false, lostWrite := false, issuer := r.issuerOf i, dealt := false, early := true
      lost := [] }
  { s.bump with launches := s.launches ++ [l] }.modQueue x.q fun r => { r with accepted := r.accepted + 1 }

/-- A queue accepts the launch packets among `n` that become visible from an index on (R346, R349). -/
def State.acceptPackets (s : State) (x : QueueSlot) : (n : Nat) → (i : W32) → State
  | 0, _ => s
  | n + 1, i =>
    let s := match s.packetAt x i.toNat with
      | some v => if v % 256 = 1 then s.acceptLaunch x i v else s
      | none => s
    s.acceptPackets x n (i + 1#32)

/-! ## Doorbells (R345, R346, R352, R354, R358, R505) -/

/-- Count a discarded doorbell (R346). -/
def State.dropBell (s : State) (q : Nat) : State :=
  s.modQueue q fun r => { r with drop := if r.drop = BitVec.allOnes 16 then r.drop else r.drop + 1#16 }

/-- A doorbell value that a queue accepts (R346). -/
def QueueSlot.accepts (x : QueueSlot) (bell : W32) : Bool :=
  decide ((bell - x.head).toNat ≤ 2 ^ x.logn) && decide ((bell - x.tail).toNat ≤ 2 ^ x.logn)

/-- A doorbell or a `launch` makes the master read `ERR` of a stopped queue again; where it reads zero the queue resumes (R352). -/
def State.rereadErr (s : State) (q : Nat) : State :=
  let r := s.queue q
  let err := ((s.slot? q).map (·.err)).getD 0#32
  if ¬ r.stopped ∧ r.heldErr = 0#32 ∧ err = 0#32 then s
  else if s.masterRead r.qctx.toNat (r.desc.toNat + 0x28) 4 = some 0 then
    (s.modQueue q fun r => { r with heldErr := 0#32, stopped := false }).modSlot q fun x => { x with err := 0#32 }
  else s

/-- A queue has stopped (R352). -/
def State.isStopped (s : State) (x : QueueSlot) : Bool := (s.queue x.q).stopped || (s.queue x.q).heldErr != 0#32 || x.err != 0#32

/-- `TAIL` of a queue becomes a value, and the packets before it are visible (R345, R346). -/
def State.setTail (s : State) (q : Nat) (x : QueueSlot) (tail : W32) : State :=
  let s := s.acceptPackets x (tail - x.tail).toNat x.tail
  match s.slot? q with
  | some _ => s.modSlot q fun x => { x with tail := tail }
  | none =>
    match s.writeDescriptor q 0x14 (bytesOf tail.toNat 4) with
    | some s => s
    | none => s.stopQueue q x.head x.head 3 none

/-- Apply a doorbell value to a queue (R345, R346, R352, R354): `stamp` where its packets are not stamped yet. One that reaches a stopped queue is not applied. -/
def State.applyBell (s : State) (q : Nat) (x : QueueSlot) (bell : W32) (stamp : Bool) : State :=
  if ¬ x.accepts bell then s.dropBell q
  else if s.isStopped x then s
  else
    match (if stamp && x.bestEffort then s.stampPackets x (bell - x.tail).toNat x.tail else .ok s) with
    | .error i => s.stopQueue q x.head i 3 none
    | .ok s => s.setTail q x bell

/-- A doorbell of the host reaches a queue (R346, R347, R358, R505). Every doorbell to a stopped queue makes the master read `ERR` again, one that is discarded too (R352). [log 36: DEDUCED, unsafe] -/
def State.ringBell (s : State) (q : Nat) (bell : W32) : State :=
  let r := s.queue q
  if ¬ r.en then s.dropBell q
  else
    let s := s.rereadErr q
    match s.queueView q with
    | .error code =>
      (s.stopQueue q (s.descriptorHead q) (s.descriptorHead q) code none).dropBell q
    | .ok x =>
      if x.deviceFed then s.dropBell q
      else if x.leaving then
        let latch := fun (s : State) => s.modSlot q fun x => { x with latch := bell, lv := true }
        match (if x.bestEffort && x.accepts bell then s.stampPackets x (bell - x.tail).toNat x.tail else .ok s) with
        | .error i => s.stopQueue q x.head i 3 none
        | .ok s => latch s
      else s.applyBell q x bell true

end Sys2Proof.Machine
end

