-- ==== Sys2Proof/Machine/Queues.lean ====
section
/-! DEFINITION. The queue instructions: device-side launches, mover chains, event queues and memory-semaphore reads (R365, R366, R374 to R380). -/

namespace Sys2Proof.Machine

open Host (Outcome)

/-- Issue of a queue instruction that accesses memory, with a variable-latency result or none. -/
def kindQueue (late : Bool) : IssueKind := ⟨false, false, false, late, true⟩

/-! ## Device-side launches (R375) -/

/-- Queue `q` takes launches of a context (R346, R347, R375). A descriptor that cannot be read stops the queue at the submission. -/
def State.launchable (s : State) (q ctx : Nat) : Bool :=
  let r := s.queue q
  decide (q < 4096) && r.en && decide (r.qctx.toNat = ctx) &&
    (match s.queueView q with
     | .ok x => x.deviceFed
     | .error _ => true)

/-- `TAIL` with the submissions that a switch-out latched (R358). -/
def QueueSlot.nextTail (x : QueueSlot) : W32 := if x.leaving && x.lv then x.latch else x.tail

/-- A packet that no queue accepted (R353, R375). -/
def State.refusePacket (s : State) (ctx q : Nat) (tail : W32) (pk status cluster : Nat) : State :=
  if pk % 256 = 1 then s.writeCompletion ctx (sliceNat pk 0x18 8) status 0 0
  else if status = 6 then s.masterPost cluster 6 0 (queueDetail q tail)
  else s

/-- Advance the tail of a queue past a submitted packet (R345, R346, R352, R358). -/
def State.advanceTail (s : State) (q : Nat) (x : QueueSlot) (tail : W32) : State :=
  if x.leaving then s.modSlot q fun x => { x with latch := tail, lv := true }
  else (s.rereadErr q).setTail q x tail

/-- The submission of a packet at the master (R375). [log 36: DEDUCED, unsafe] -/
def State.submitPacket (s : State) (q pk cluster : Nat) : State :=
  let c := (s.queue q).qctx.toNat
  match s.queueView q with
  | .error code =>
    let h := s.descriptorHead q
    (s.stopQueue q h h code (some cluster)).refusePacket c q h pk 8 cluster
  | .ok x =>
    let tail := x.nextTail
    if (tail - x.head).toNat ≥ 2 ^ x.logn then s.refusePacket c q tail pk 6 cluster
    else
      let put := fun (s : State) => s.masterPut c (x.packetVa tail.toNat) (bytesOf pk 128)
      match put s with
      | none => (s.stopQueue q x.head tail 3 (some cluster)).refusePacket c q tail pk 8 cluster
      | some s =>
        let s := match (if x.bestEffort then deadlineOffset (pk % 256) else none) with
          | some o => (s.masterPut c (x.packetVa tail.toNat + o) (bytesOf (s.tick + bestEffortDelay) 8)).getD s
          | none => s
        (s.modQueue q fun r => { r with issuers := r.issuers ++ [(tail, cluster)] }).advanceTail q x (tail + 1#32)

/-- `launch` (R375), of a gang or of a sequencer: the packet goes to the master distributor with the instruction's slack (R92). -/
def execLaunch (w : Fields) (s : State) : Outcome State Fault Refusal :=
  issue (kindQueue false) 0xE0#8 w 16 (fun x s =>
    let r := s.regsOf x.u
    let a := (r.bits w.a).toNat
    let q := (r.bits w.b).toNat
    match firstFault
      [consumeOnce [(w.a, r.taint w.a), (w.b, r.taint w.b)],
        if a % 128 ≠ 0 then some (misalignedAt laneNone accRead a) else none,
        if s.launchable q x.ctx then none else some (protectionOnce (BitVec.ofNat 56 q))] with
    | some t => .error (.trap t)
    | none =>
      match s.checkObject x accRead 128 128 a true with
      | (_, .error t) => .error (.trap t)
      | (s, .ok o) =>
        let v := s.read { o with strong := true, wide := true }
        if v.2.2 then .error (.trap (.coded 0x2A#8 (detailPoison laneNone 1#2 a)))
        else
          match releaseAt x 3#3 v.1 with
          | .error e => .error e
          | .ok s => .ok ((s.send (s.stampOf x) (roundTrip x.die ioPort [])).submitPacket q v.2.1 x.cluster)) s

/-! ## Mover chains (R370, R376, R377) -/

/-- Write a number at the memory side at the place of an access, `o` bytes from it. -/
def State.putAt (s : State) (a : Access) (o v n : Nat) : State := s.sideBytes (a.key + o) (bytesOf v n)

/-- `qappend` (R376), of a gang or of a sequencer. The descriptor that was last before takes part in the checks, since its `NEXT` is written. [log 36: DEDUCED, unsafe] -/
def execQappend (w : Fields) (s : State) : Outcome State Fault Refusal :=
  issue (kindQueue false) 0xE1#8 w 16 (fun x s =>
    let r := s.regsOf x.u
    let a := (r.bits w.a).toNat
    let b := (r.bits w.b).toNat
    match consumeOnce [(w.a, r.taint w.a), (w.b, r.taint w.b)] with
    | some t => .error (.trap t)
    | none =>
      match s.checkObjects x accBoth 64 64 [a, b] true with
      | (_, .error t) => .error (.trap t)
      | (s, .ok as) =>
        let blk := (as.map (·.2)).headD default
        let dsc := ((as.map (·.2)).drop 1).headD default
        match releaseAt x 3#3 ((s.expose blk).expose dsc) with
        | .error e => .error e
        | .ok s =>
          let p := memNat s.mem (blk.key + 8) 8
          match (if p = 0 then (s, Except.ok none) else
              match s.checkObject x accBoth 64 64 p true with
              | (s, .error t) => (s, .error t)
              | (s, .ok o) => (s, .ok (some o))) with
          | (_, .error t) => .error (.trap t)
          | (s, .ok last) =>
            let i := memNat s.mem (blk.key + 0x10) 4
            let s := (s.putAt blk 0x10 (i + 1) 4).putAt blk 8 b 8
            let s := if p = 0 then s.putAt blk 0 b 8 else s
            let s := (s.putAt dsc 8 i 4).putAt dsc 0 0 8
            .ok (match last with
              | some o => (s.expose o).putAt o 0 b 8
              | none => s)) s

/-- The registration of a control block in a context (R377, R506). -/
def State.registered (s : State) (ctx va mover slot : Nat) : Bool :=
  s.registrations.any fun r => r.rv && decide (r.mover = mover ∧ r.slot = slot ∧ r.rctx.toNat = ctx ∧ r.cba.toNat = va)

/-- `qtail` (R377), of a gang or of a sequencer. [log 36: DEDUCED, unsafe] -/
def execQtail (w : Fields) (s : State) : Outcome State Fault Refusal :=
  issue (kindQueue false) 0xE2#8 w 16 (fun x s =>
    let r := s.regsOf x.u
    let a := (r.bits w.a).toNat
    let n : W32 := (r.bits w.b).extractLsb' 0 32
    match consumeOnce [(w.a, r.taint w.a), (w.b, r.taint w.b)] with
    | some t => .error (.trap t)
    | none =>
      match s.checkObject x accBoth 64 1 a true with
      | (_, .error t) => .error (.trap t)
      | (s, .ok blk) =>
        let s := s.expose blk
        let mover := memNat s.mem (blk.key + 0x20) 1
        let slot := memNat s.mem (blk.key + 0x21) 1
        if a % 64 ≠ 0 ∨ ¬ s.registered x.ctx a mover slot then .error (.trap (protectionAt laneNone accBoth a))
        else
          match releaseAt x (if w.fn = 1#4 then 4#3 else if w.fn = 2#4 then 5#3 else 3#3) s with
          | .error e => .error e
          | .ok s =>
            let count := BitVec.ofNat 32 (memNat s.mem (blk.key + 0x10) 4)
            let tail := BitVec.ofNat 32 (memNat s.mem (blk.key + 0x14) 4)
            let s := if 0 < (n - tail).toNat ∧ (n - tail).toNat ≤ (count - tail).toNat then s.putAt blk 0x14 n.toNat 4 else s
            .ok { s with registrations := updateFirst (fun g => g.mover = mover ∧ g.slot = slot) (fun g => { g with rung := true }) s.registrations }) s

/-! ## Event queues (R365, R366, R378, R379) -/

/-- Capacity of a cluster's event queue (R344). -/
def eventCapacity : Nat := 256

/-- The overflow record of R366. -/
def overflowRecord (drops : Nat) (tick : W64) : W128 :=
  0#64 ++ tick.extractLsb' 0 32 ++ BitVec.ofNat 16 (min drops 0xFFFF) ++ 0#8 ++ 5#8

/-- Remove the oldest record; an overflow record follows where records were dropped (R366). -/
def Seq.takeEvent (q : Seq) (tick : W64) : Seq × W128 :=
  match q.events with
  | [] => (q, 0#128)
  | e :: es =>
    if q.drops = 0 then ({ q with events := es }, e)
    else ({ q with events := es ++ [overflowRecord q.drops tick], drops := 0 }, e)

/-- `evget` (R378). -/
def execEvget (w : Fields) (s : State) : Outcome State Fault Refusal :=
  issue (kindQueue true) 0xE3#8 w 16 (fun x s =>
    let r := (s.seq x.cluster).takeEvent (s.tickOf (unitOfSeq x.cluster))
    let s := s.setSeq r.1
    let id := s.ids
    match w.d with
    | .sca _ i =>
      .ok (s.bump.deliver x
        ⟨id, [], [⟨i, 3#2, r.2.extractLsb' 0 64, 0#2⟩, ⟨i + 1#6, 3#2, r.2.extractLsb' 64 64, 0#2⟩], [], [], 0#5, .none⟩)
    | _ => .ok s) s

/-- `evwait` (R379). -/
def execEvwait (w : Fields) (s : State) : Outcome State Fault Refusal :=
  issue (kindQueue false) 0xE4#8 w 16 (fun x s =>
    if (s.seq x.cluster).events ≠ [] then .ok s
    else
      let limit := if w.imm = 0#32 then none else some ((s.tickOf (unitOfSeq x.cluster)).toNat + 1000 * w.imm.toNat)
      .ok (blockUnit x (.evwait limit) s)) s

/-! ## Memory-semaphore reads (R351, R380) -/

/-- The conditions of R351 on a word and a value. -/
def waitCond (cond x v : Nat) : Bool :=
  match cond with
  | 0 => x == v
  | 1 => x != v
  | 2 => decide (x ≥ v)
  | 3 => decide (x < v)
  | 4 => x &&& v != 0
  | _ => x &&& v == v

/-- `msem` (R380). -/
def execMsem (w : Fields) (s : State) : Outcome State Fault Refusal :=
  issue (kindQueue true) 0xE5#8 w 16 (fun x s =>
    let r := s.regsOf x.u
    let a := (r.bits w.a).toNat
    let f : Effects := ⟨false, true, mdScope w.md⟩
    let id := s.ids
    match consumeOnce [(w.a, r.taint w.a), (w.b, r.taint w.b)] with
    | some t => .error (.trap t)
    | none =>
      match s.checkObject x accRead 8 8 a false with
      | (_, .error t) => .error (.trap t)
      | (s, .ok o) =>
        let o := { o with strong := true, wide := true }
        if s.awaitsOwn x o then .error (.wait .remote)
        else
          let v := s.read o
          if v.2.2 then .error (.trap (.coded 0x2A#8 (detailPoison laneNone 1#2 a)))
          else
            let b := waitCond w.fn.toNat v.2.1 (r.bits w.b).toNat
            match w.d with
            | .cond i => .ok (f.after x (v.1.bump.deliver x ⟨id, [], [], [(i, b)], [], 0#5, .none⟩))
            | _ => .ok (f.after x v.1)) s

end Sys2Proof.Machine
end

