-- ==== Sys2Proof/Machine/Registers.lean ====
section
/-! DEFINITION. Register allocation with its arbiter, and register shapes (R147 to R153). -/

namespace Sys2Proof.Machine

open Host (Outcome)

/-! ## Slots of a core (R147, R150, R151) -/

/-- General slots that a gang holds, with those of releases that wait for replies. -/
def Gang.slots (v : Gang) : Nat := if v.status = .retired then 0 else v.alloc + (v.releasing.map (·.1)).sum

/-- General slots that the gangs of a core hold. -/
def State.slotsHeld (s : State) (core : Nat) : Nat :=
  ((s.teams.filter fun x => x.placedOn core).map fun x => (x.gangs.map Gang.slots).sum).sum

/-- `free_slots` of R150. -/
def State.freeSlots (s : State) (core : Nat) : Nat := 8192 - s.slotsHeld core

/-- The waiters of a core's register arbiter, in its order (R150). -/
def State.regWaiters (s : State) (core : Nat) : List Waiter := (s.waitersOf core Block.isRgrow).foldr insertWaiter []

/-- `grant` of R150. -/
def Gang.grow (v : Gang) (n tick : Nat) : Gang :=
  { v with alloc := v.alloc + n, vregs := v.vregs ++ List.replicate n { VReg.reset with used := tick } }

/-- Grant waiting requests, the first first, until one does not fit (R150). -/
def State.grantSlots (s : State) (core : Nat) : List Waiter → State
  | [] => s
  | w :: ws =>
    if s.freeSlots core ≥ w.need then
      ((s.modGang w.team w.gang fun v => v.grow w.need s.tick).wake (.gang w.team w.gang)).grantSlots core ws
    else s

/-- The register arbiter of a core (R150). -/
def State.arbitrateSlots (s : State) (core : Nat) : State := s.grantSlots core (s.regWaiters core)

/-- A result has returned: releases of slots no longer wait for it (R151). -/
def Gang.returned (v : Gang) (id : Nat) : Gang :=
  { v with releasing := (v.releasing.map fun p => (p.1, p.2.filter fun i => i ≠ id)).filter fun p => p.2 ≠ [] }

/-! ## The instructions -/

/-- The count that `rgrow` and `rshrink` take (R149). -/
def countOf (w : Fields) : Nat := w.imm.toNat

/-- An illegal-register trap of `rgrow` or `rshrink` (R150, R151). -/
def countFault (op : BitVec 8) (n : Nat) : Trap := .coded 0x22#8 (detailOp op (BitVec.ofNat 24 n))

/-- `rgrow.wait` (R150). -/
def execRgrowWait (w : Fields) (s : State) : Outcome State Fault Refusal :=
  issue kindPlain 0xCD#8 w 16 (fun x s =>
    let a := s.allocOf x.u
    if a + countOf w > 256 then .error (.trap (countFault 0xCD#8 (a + countOf w)))
    else .ok ((blockUnit x (.rgrow (countOf w)) s).arbitrateSlots x.core)) s

/-- `rgrow.try` (R150). -/
def execRgrowTry (w : Fields) (s : State) : Outcome State Fault Refusal :=
  issue kindPlain 0xCD#8 w 16 (fun x s =>
    let a := s.allocOf x.u
    if a + countOf w > 256 then .error (.trap (countFault 0xCD#8 (a + countOf w)))
    else
      let ok : Bool := s.freeSlots x.core ≥ countOf w ∧ s.regWaiters x.core = []
      .ok (writeK x ok (if ok then s.modGang x.t x.g fun v => v.grow (countOf w) s.tick else s))) s

/-- `rshrink` of a gang (R151): replies to the registers now gated are discarded when they return. -/
def Gang.shrink (v : Gang) (n : Nat) : Gang :=
  let a := v.alloc - n
  let due := (v.regs.pending.filter fun r => r.vec.any fun p => decide (p.reg ≥ a ∧ p.mask ≠ 0#32)).map (·.id)
  { v with
    alloc := a
    vregs := v.vregs.take a
    releasing := if due = [] then v.releasing else v.releasing ++ [(n, due)]
    regs := { v.regs with pending := v.regs.pending.map fun r =>
      { r with vec := r.vec.map fun p => if p.reg ≥ a then { p with mask := 0#32 } else p } } }

/-- Discard the values that a core's schedulers hold for reuse from registers of a gang (R95, R151). -/
def Core.dropHold (c : Core) (t g a : Nat) : Core := c.unhold t g [(a, 256)]

/-- `rshrink` (R151). -/
def execRshrink (w : Fields) (s : State) : Outcome State Fault Refusal :=
  issue kindPlain 0xCE#8 w 16 (fun x s =>
    let a := s.allocOf x.u
    if a < countOf w + 8 then .error (.trap (countFault 0xCE#8 (a + countOf w)))
    else
      let s := s.modGang x.t x.g fun v => v.shrink (countOf w)
      .ok ((s.modCore x.core fun c => c.dropHold x.t x.g (a - countOf w)).arbitrateSlots x.core)) s

/-- Tag codes of R144. -/
def Tag.code : Tag → Nat
  | .uniform => 0
  | .affine => 1
  | .general => 2

/-- `rshape.get` (R153). -/
def execRshapeGet (w : Fields) (s : State) : Outcome State Fault Refusal :=
  issue kindPlain 0xCF#8 w 16 (gangBody fun _ v =>
    .ok { v with regs := v.regs.writeTo w.d .b32 (v.vreg (regOf w.a).toNat).shape.code }) s

/-- The tag that `rshape.set` asks for (R153). -/
def tagOf (fn : BitVec 4) : Tag :=
  match fn.toNat with
  | 1 => .uniform
  | 2 => .affine
  | _ => .general

/-- The lane values fit a tag (R153). -/
def fitsTag (v : VReg) (t : Tag) : Bool :=
  let x0 := v.lanes[0]
  match t with
  | .uniform => (List.finRange 32).all fun (l : Fin 32) => v.lanes[l] = x0
  | .affine => (List.finRange 32).all fun (l : Fin 32) => v.lanes[l] = x0 + (v.lanes[1] - x0) * BitVec.ofNat 32 l.val
  | .general => true

/-- `rshape.set` (R153). -/
def execRshapeSet (w : Fields) (s : State) : Outcome State Fault Refusal :=
  issue kindPlain 0xCF#8 w 16 (fun x s =>
    match s.gang? x.t x.g with
    | none => .ok s
    | some v =>
      let r := (regOf w.a).toNat
      let a := v.vreg r
      let ok : Bool := a.pend = 0#32 ∧ a.poison = 0#32 ∧ v.live = BitVec.allOnes 32 ∧ fitsTag a (tagOf w.fn)
      .ok (writeK x ok
        (if ok then s.setGang x.t x.g { v with vregs := setNth { a with tag := tagOf w.fn } v.vregs r } else s))) s

end Sys2Proof.Machine
end

