-- ==== Sys2Proof/Machine/Distribute.lean ====
section
/-! DEFINITION. The steps of the distributors and sequencers: doorbells, slot switches, dealing, placement, starts and steals (R44 to R48, R57 to R64, R346 to R363, R369). -/

namespace Sys2Proof.Machine

open Host (Outcome)

/-- A unit of the host reaches the registers (R481, R482). -/
def State.barOpen (s : State) : Bool := s.start.ready && (s.link0 || s.link1) && s.powered

/-- The units of the package run: the start has completed, and no uncontained error has stopped them (R452, R496). -/
def State.awake (s : State) : Bool := s.start.ready && !s.stopped && s.powered

/-! ## Doorbells (R346, R482) -/

/-- `QUEUE_DOORBELL`: the host writes the doorbell of a queue (R346, R358). -/
def execQueueDoorbell (q : Nat) (bell : W32) (s : State) : Outcome State Fault Refusal :=
  .next (if s.barOpen ∧ q < 4096 then s.ringBell q bell else s)

/-- `DOORBELL_DROP_CLEAR`: the host clears the count of dropped doorbells (R346). -/
def execDoorbellDropClear (q : Nat) (s : State) : Outcome State Fault Refusal :=
  .next (if s.barOpen ∧ q < 4096 then s.modQueue q fun r => { r with drop := 0#16 } else s)

/-! ## Head packets and ranks (R351, R352, R354) -/

/-- The first of a list by an order. -/
def firstBy {α : Type} (lt : α → α → Bool) : List α → Option α
  | [] => none
  | x :: xs => some (xs.foldl (fun b y => if lt y b then y else b) x)

/-- What stands at the head of a queue with work. -/
inductive HeadPacket where
  /-- a packet or ring entry that stops the queue, with its code -/
  | bad (code : Nat)
  | launch (v : Nat)
  /-- a wait packet, and whether its condition holds -/
  | wait (holds : Bool)
  /-- a signal packet: the physical address and the word to write -/
  | signal (pa v : Nat)
  deriving DecidableEq, Repr, Inhabited

/-- A wait packet's fields hold R351. -/
def waitWf (v : Nat) : Bool :=
  sliceNat v 1 1 ≤ 5 && sliceNat v 2 6 == 0 && sliceNat v 0x20 0x60 == 0 && sliceNat v 8 8 % 8 == 0

/-- A signal packet's fields hold R351. -/
def signalWf (v : Nat) : Bool :=
  sliceNat v 1 1 ≤ 1 && (sliceNat v 2 1 == 3 || sliceNat v 2 1 == 5) && sliceNat v 3 5 == 0 && sliceNat v 0x20 0x60 == 0 &&
    sliceNat v 8 8 % 8 == 0

/-- The head packet of a queue, with the word that a wait or signal packet names. -/
def State.headPacket (s : State) (x : QueueSlot) : HeadPacket :=
  let ctx := (s.queue x.q).qctx.toNat
  match s.packetAt x x.head.toNat with
  | none => .bad 3
  | some v =>
    let val := sliceNat v 0x10 8
    match v % 256 with
    | 1 => .launch v
    | 2 =>
      if waitWf v then
        match s.masterPa ctx (sliceNat v 8 8) 1#3 with
        | some pa => .wait (waitCond (sliceNat v 1 1) (memNat s.mem pa 8) val)
        | none => .bad 3
      else .bad 1
    | 3 =>
      if signalWf v then
        match s.masterPa ctx (sliceNat v 8 8) 3#3 with
        | some pa => .signal pa (if sliceNat v 1 1 = 1 then (memNat s.mem pa 8 + val) % 2 ^ 64 else val)
        | none => .bad 3
      else .bad 1
    | _ => .bad 1

/-- The launch that the master has taken up from the head of a queue. -/
def State.headLaunch (s : State) (x : QueueSlot) : Option Launch :=
  s.launches.find? fun l => decide (l.queue = x.q ∧ l.index = x.head) && !l.dealt

/-- `DEADLINE` of the packet at the head of a queue; 0 where the packet cannot be read or its type has none. [log 37: DEDUCED, unsafe] -/
def State.headDeadline (s : State) (x : QueueSlot) : Nat :=
  ((s.packetAt x x.head.toNat).bind fun v => (deadlineOffset (v % 256)).map fun o => sliceNat v o 8).getD 0

/-- Rank of a queue: the deadline of its head packet; none for a queue that ranks after every queue with work (R354). -/
def State.rankOf (s : State) (x : QueueSlot) : Option Nat :=
  if ¬ s.hasWork x then none
  else
    match s.headPacket x, s.headLaunch x with
    | .wait false, _ => none
    | .launch _, some l => some l.deadline.toNat
    | _, _ => some (s.headDeadline x)

/-- Ranks ahead: the earlier deadline, then the lower queue number. -/
def rankAhead (a b : Option Nat × Nat) : Bool :=
  match a.1, b.1 with
  | some x, some y => x < y || (x == y && a.2 < b.2)
  | some _, none => true
  | none, some _ => false
  | none, none => a.2 < b.2

/-- Insert in rank order. -/
def insertRank (a : Option Nat × Nat) : List (Option Nat × Nat) → List (Option Nat × Nat)
  | [] => [a]
  | b :: bs => if rankAhead a b then a :: b :: bs else b :: insertRank a bs

/-- Queues in rank order. [log 37: DEDUCED, unsafe] -/
def State.ranked (s : State) (xs : List QueueSlot) : List (Option Nat × Nat) :=
  (xs.map fun x => (s.rankOf x, x.q)).foldr insertRank []

/-- A queue's launches have unstarted ensembles, held or lost, that wait for its mapping (R57). -/
def State.holdsWork (s : State) (q : Nat) : Bool :=
  s.launches.any fun l => decide (l.queue = q) &&
    (!l.lost.isEmpty || (s.dies.toList.any fun d => d.ranges.any fun r => decide (r.launch = l.key)) ||
      s.seqs.any fun n => n.holding.any fun h => decide (h.launch = l.key))

/-- Enabled queues that are not mapped and have work or held ensembles, as their descriptors stand. -/
def State.unmapped (s : State) : List QueueSlot :=
  s.queues.filterMap fun r =>
    if r.en && (s.slot? r.q).isNone then
      match s.descriptor r.q with
      | .ok x => if s.hasWork x || s.holdsWork r.q then some x else none
      | .error _ => none
    else none

/-- An enabled queue with work that cannot be mapped, for its descriptor fails its check: the code (R505). [log 37: DEDUCED, unsafe] -/
def State.brokenQueue (s : State) : Option (Nat × Nat) :=
  s.queues.findSome? fun r =>
    if r.en && (s.slot? r.q).isNone then
      match s.descriptor r.q, s.descriptorFields r.q with
      | .error code, some x => if s.hasWork x then some (r.q, code) else none
      | _, _ => none
    else none

/-! ## Slot switches (R355 to R358) -/

/-- Hold or release the unstarted ensembles of a queue's launches (R357); those that run begin to drain, or drain no longer (R57, R59). -/
def State.holdQueue (s : State) (q : Nat) (hold : Bool) : State :=
  let mine := fun k : Nat => (s.launch? k).any fun l => l.queue = q
  { s with
    dies := Vector.ofFn fun d =>
      { s.dies[d] with ranges := s.dies[d].ranges.map fun r => if mine r.launch then { r with hold := hold } else r }
    seqs := s.seqs.map fun n =>
      { n with holding := n.holding.map fun h => if mine h.launch then { h with hold := hold } else h }
    ensembles := s.ensembles.map fun e => if mine e.launch then { e with drain := if hold then e.drain.or (some s.tick) else none } else e }

/-- The six fields that a slot writes back to its descriptor (R345, R357). -/
def QueueSlot.fields (x : QueueSlot) : List Byte :=
  bytesOf x.head.toNat 4 ++ bytesOf x.tail.toNat 4 ++ bytesOf x.latch.toNat 4 ++ bytesOf x.lv.toNat 4 ++
    bytesOf x.nextens.toNat 8 ++ bytesOf x.err.toNat 4

/-- A read of `HEAD` of a queue is answered (R358). -/
def State.answerHead (s : State) (head : W32) : State := { s with hostReply := some (bytesOf head.toNat 4, [false]) }

/-- Steps 3 and 4 of R357: the descriptor is written and the slot released. A read of `HEAD` held since the switch-out began returns the written value (R358). -/
def State.releaseSlot (s : State) (x : QueueSlot) : State :=
  let s' := match s.writeDescriptor x.q 0x10 x.fields with
    | some s => s
    | none => s.stopQueue x.q x.head x.head 3 none
  let s' := if (s'.queue x.q).headRead then (s'.modQueue x.q fun r => { r with headRead := false }).answerHead x.head else s'
  { s' with slots := s'.slots.filter fun y => y.q ≠ x.q }

/-- Map a queue: its descriptor is read, a latched doorbell applied, and its holds released (R345, R357, R358). -/
def State.mapQueue (s : State) (q : Nat) : State :=
  match s.descriptor q with
  | .error code => s.stopQueue q (s.descriptorHead q) (s.descriptorHead q) code none
  | .ok x =>
    let s := { s with slots := s.slots ++ [{ x with lv := false }] }
    let s := s.holdQueue q false
    if x.lv then s.applyBell q { x with lv := false } x.latch false else s

/-- `QUEUE_SWITCH`: the stop of a queue whose descriptor fails, the end of a switch-out with the mapping that follows it, the mapping of a queue to a free slot, or the begin of a switch-out for a queue with work that ranks ahead (R355, R357, R505). -/
def execQueueSwitch (s : State) : Outcome State Fault Refusal :=
  .next <|
    if ¬ s.awake then s
    else
      let free := fun (s : State) =>
        match s.ranked s.unmapped with
        | best :: _ => if s.slots.length < 128 then s.mapQueue best.2 else s
        | [] => s
      match s.brokenQueue, s.slots.find? fun (x : QueueSlot) => x.leaving with
      | some (q, code), _ => s.stopQueue q (s.descriptorHead q) (s.descriptorHead q) code none
      | none, some x => free (s.releaseSlot x)
      | none, none =>
        if s.slots.length < 128 then free s
        else
          match s.ranked s.unmapped, (s.ranked s.slots).getLast? with
          | best :: _, some worst =>
            if best.1.isSome && rankAhead best worst then (s.modSlot worst.2 fun x => { x with leaving := true }).holdQueue worst.2 true else s
          | _, _ => s

/-! ## Rooms and placement (R43, R45, R46) -/

/-- What a core has free, counting the teams that a test names. -/
def State.roomOf (s : State) (core : Nat) (counts : Team → Bool) : Room :=
  let ts := s.teams.filter fun x => x.placedOn core && counts x
  let live := ts.filter fun x => x.residence ≠ .exited
  ⟨4 - ts.length, 64 - (live.map (·.gangs.length)).sum, 8192 - (ts.map fun x => (x.gangs.map Gang.slots).sum).sum,
    256 - (ts.map (·.winSize / 2048)).sum,
    256 - ((ts.map fun x => max x.reserve x.held).sum + (s.core core).clearingCount)⟩

/-- A team saved for faults whose records are all served claims its core (R442). -/
def Team.claims (x : Team) (core : Nat) : Bool :=
  decide (x.core = core) && x.records.isEmpty &&
    (match x.residence with
     | .saved _ false false => true
     | _ => false)

/-- Rooms of a cluster's cores for new teams. A core that a restore claims has none. -/
def State.rooms (s : State) (c : Nat) (counts : Team → Bool) : List Room :=
  (List.range 48).map fun i =>
    let core := 48 * c + i
    if s.teams.any fun x => x.claims core then ⟨0, 0, 0, 0, 0⟩ else s.roomOf core counts

/-- Pair counters that a cluster's store has free (R408). -/
def State.pairsFree (s : State) (c : Nat) : Nat :=
  pairStore - ((s.ensembles.filter fun e => e.cluster = c).map fun e => e.teams.length * e.teams.length).sum

/-- Places for one team after another, each on the first core with room. -/
def assignCores (need : Room) : (n : Nat) → List Room → Nat → List Nat
  | 0, _, _ => []
  | _, [], _ => []
  | n + 1, r :: rs, i =>
    let k := min (r.holds need) (n + 1)
    List.replicate k i ++ assignCores need (n + 1 - k) rs (i + 1)

/-- `n` teams of a kind fit a cluster now. -/
def State.fitsCluster (s : State) (c : Nat) (need : Room) (n : Nat) (counts : Team → Bool) : Bool :=
  decide (((s.rooms c counts).map fun r => r.holds need).sum ≥ n) && decide (n * n ≤ s.pairsFree c)

/-- Cores, one for each team in rank order, hold the teams together. -/
def coresHold (rooms : List Room) (need : Room) (cores : List Nat) : Bool :=
  cores.all fun i => decide (i < 48) &&
    decide ((cores.filter fun j => j = i).length ≤ ((rooms[i]?).map fun r => r.holds need).getD 0)

/-! ## Starting an ensemble (R41, R42, R45, R141, R147, R157, R416) -/

/-- Gangs that a scheduler of a core holds. -/
def State.schedLoad (s : State) (core : Nat) (sched : BitVec 2) : Nat :=
  ((s.teams.filter fun x => x.placedOn core).map fun x =>
    (x.gangs.filter fun v => v.sched = sched ∧ v.status ≠ .retired).length).sum

/-- The scheduler of the least load, the lower number first. -/
def leastLoaded (loads : List Nat) : Nat :=
  (loads.zipIdx.foldl (fun (b : Nat × Nat) p => if p.1 < b.1 then p else b) (loads.headD 0, 0)).2

/-- Schedulers for `n` gangs, one after another on the scheduler of the least load (log 8). [log 8: DESIGN CHOICE, unsafe] -/
def spreadGangs : (n : Nat) → List Nat → List Nat
  | 0, _ => []
  | n + 1, loads =>
    let k := leastLoaded loads
    k :: spreadGangs n (setNth ((loads[k]?).getD 0 + 1) loads k)

/-- Gangs of a team on their schedulers. -/
def startGangs (s : State) (core n alloc : Nat) (pc : BitVec 56) : List Gang :=
  (spreadGangs n ((List.range 4).map fun i => s.schedLoad core (BitVec.ofNat 2 i))).zipIdx.map fun p =>
    Gang.start alloc pc (BitVec.ofNat 2 p.1) s.tick (s.ids + p.2)

/-- The lowest free core-local slot (R391). -/
def State.teamSlot (s : State) (core : Nat) : Nat :=
  ((List.range 4).find? fun i => s.teams.all fun x => !(x.placedOn core && decide (x.slot = i))).getD 3

/-- Team of rank `r` of ensemble `k` of a launch (R41, R42), as it is at its start. -/
def State.newTeam (s : State) (l : Launch) (eid k r core : Nat) : Team :=
  let p := l.p
  let n := k * p.w.toNat + r / p.s.toNat
  { Team.placed s.ids 0#56 s.tick with
    launch := l.key
    ensemble := eid
    rank := r
    x := BitVec.ofNat 32 (n % p.gx.toNat)
    y := BitVec.ofNat 32 (n / p.gx.toNat % p.gy.toNat)
    z := BitVec.ofNat 32 (n / (p.gx.toNat * p.gy.toNat))
    stage := BitVec.ofNat 32 (r % p.s.toNat)
    ctx := l.ctx
    core := core
    slot := s.teamSlot core
    deadline := l.deadline
    slack := slackOf l.deadline (s.tickOf (unitOfCore core))
    trapvec := ((s.ctx? l.ctx).map fun c => c.tvec.zeroExtend 64).getD 0#64 &&& ~~~15#64
    winSize := 2048 * p.scr.toNat
    reserve := p.ten.toNat
    gangs := startGangs s core p.g.toNat (8 * p.regs.toNat) (p.kernel.extractLsb' 0 56)
    fresh := true }

/-- Make the teams of an ensemble resident, one core for each rank. -/
def State.addTeams (s : State) (l : Launch) (eid k : Nat) : List Nat → Nat → State
  | [], _ => s
  | core :: cores, r =>
    let t := s.newTeam l eid k r core
    { s with
      ids := s.ids + 1 + t.gangs.length
      teams := s.teams ++ [t]
      ensembles := updateFirst (fun e => e.eid = eid) (fun e => { e with teams := e.teams ++ [t.tid] }) s.ensembles }.addTeams l eid k cores (r + 1)

/-- Start an ensemble of a launch on cores of a cluster (R45). -/
def State.startEnsemble (s : State) (c : Nat) (l : Launch) (k : Nat) (cores : List Nat) : State :=
  let eid := s.ids
  let e : Ensemble := ⟨eid, l.key, k, c, [], [], false, false, none⟩
  let s := { s.bump with ensembles := s.ensembles ++ [e] }
  let s := s.addTeams l eid k (cores.map fun i => 48 * c + i) 0
  s.modLaunch l.key fun l => { l with firstStart := l.firstStart.or (some s.tick) }

/-! ## Dealing (R44, R348, R350, R359 to R361) -/

/-- Work of a launch gives way to work of an earlier deadline: the launch is pre-emptible (R46, R58). -/
def Launch.yieldsTo (l : Launch) (deadline : Nat) : Bool := l.p.preemptible && decide (deadline < l.deadline.toNat)

/-- A team gives way to work of an earlier deadline. -/
def State.teamYields (s : State) (deadline : Nat) (x : Team) : Bool := (s.launch? x.launch).any fun l => l.yieldsTo deadline

/-- Coresident launches that wait at the heads of mapped queues (R360). -/
def State.waitingCoresident (s : State) : List Launch :=
  s.slots.filterMap fun x => if s.hasWork x then (s.headLaunch x).filter fun l => l.p.coresident && !l.early else none

/-- A cluster that is free but for work that gives way is kept for a coresident launch of an earlier deadline that waits at the head of its queue (R360). -/
def State.keptFree (s : State) (c deadline : Nat) : Bool :=
  s.waitingCoresident.any fun l => decide (l.deadline.toNat < deadline) && s.eligible l.ctx l.p c &&
    s.teams.all fun x => !(decide (clusterOf x.core = c) && x.placedOn x.core) || s.teamYields l.deadline.toNat x

/-- Start ensembles of a coresident launch one after another on the first cluster that holds them and is not kept for another; none when one finds no place (R360). The teams that a test names count. [log 38: DEDUCED, unsafe] -/
def State.startAll (s : State) (l : Launch) (counts : Team → Bool) : List Nat → Option State
  | [] => some s
  | k :: ks =>
    let n := l.p.teamsOf k
    let order := (List.range 54).map fun i => (i + Config.pick s.free) % 54
    let free := fun c : Nat => l.p.preemptible || !s.keptFree c l.deadline.toNat
    match order.find? fun c => s.eligible l.ctx l.p c && !(s.seq c).halted && free c && s.fitsCluster c l.p.need n counts with
    | none => none
    | some c => (s.startEnsemble c l k (assignCores l.p.need n (s.rooms c counts) 0)).startAll l counts ks

/-- The undealt ensembles of a launch. -/
def Launch.undealt (l : Launch) : List Nat := (List.range l.p.ensembles).drop l.nextEns

/-- A coresident launch would be placed at once were the work gone that gives way to it (R58, R360). -/
def State.wouldFit (s : State) (l : Launch) : Bool := (s.startAll l (fun x => !s.teamYields l.deadline.toNat x) l.undealt).isSome

/-- Pre-emption by work of an earlier deadline: the started ensembles that give way to it on the clusters that a test names begin to drain (R58, R59). [log 38: DEDUCED, unsafe] -/
def State.preempt (s : State) (on : Nat → Bool) (deadline : Nat) : State :=
  { s with
    ensembles := s.ensembles.map fun e =>
      if on e.cluster && (s.launch? e.launch).any fun l => l.yieldsTo deadline then { e with drain := e.drain.or (some s.tick) } else e }

/-- A pre-emption would let an ensemble begin to drain. -/
def State.canPreempt (s : State) (on : Nat → Bool) (deadline : Nat) : Bool :=
  s.ensembles.any fun e => on e.cluster && e.drain.isNone && (s.launch? e.launch).any fun l => l.yieldsTo deadline

/-- Take up the launch packet at the head of a queue (R348 to R350, R363), from the ensemble that `NEXTENS` names on (R345): one that fails its checks completes, and the queue goes on. [log 37: DEDUCED, unsafe] -/
def State.takeUp (s : State) (x : QueueSlot) (v : Nat) : State :=
  let s := if (s.headLaunch x).isSome then s else s.acceptLaunch x x.head v
  match s.headLaunch x with
  | none => s
  | some l =>
    let p := packetFields v
    let n := min x.nextens.toNat p.ensembles
    let s := s.modLaunch l.key fun l => { l with p, early := false, nextEns := n, doneEns := List.range n }
    match s.launchFault l.ctx p with
    | some status => (s.completeLaunch l.key status).consume x.q
    | none => s.missDeadline l.key

/-- A launch has been dealt whole: its packet is consumed (R348). -/
def State.dealtWhole (s : State) (l : Launch) : State :=
  (s.modLaunch l.key fun l => { l with nextEns := l.p.ensembles, dealt := true }).consume l.queue

/-- A range enters a die's queue: it lengthens one that it continues, or takes an entry of the 64 (R344). -/
def Die.addRange (d : Die) (r : DieRange) : Die :=
  let joins := fun (y : DieRange) => decide (y.launch = r.launch ∧ y.stop = r.next ∧ y.hold = r.hold ∧ y.reissued = r.reissued)
  if d.ranges.any joins then { d with ranges := updateFirst joins (fun y => { y with stop := r.stop }) d.ranges }
  else { d with ranges := d.ranges ++ [r] }

/-- The master's packet to a die's distributor (R410, R412). -/
def State.sendDeal (s : State) (die : Nat) : State :=
  s.send (ownStamp s.masterPort) (oneWay s.masterPort die [distributorQueue die])

/-- A die's queue has room for a range. -/
def State.rangeRoom (s : State) (die : Nat) : Bool := decide ((s.die die).ranges.length < 64) && !s.pairHeld s.masterPort die

/-- Deal a range of at most `count` ensembles of a launch to a die (R44, R344, R359). -/
def State.dealRange (s : State) (l : Launch) (die count : Nat) : State :=
  let total := l.p.ensembles
  let stop := min total (l.nextEns + max count 1)
  if l.nextEns ≥ total then (s.dealtWhole l).settleLaunch l.key
  else if s.rangeRoom die ∧ ((List.range 6).any fun c => s.eligible l.ctx l.p (6 * die + c)) then
    let s := (s.modDie die fun d => d.addRange ⟨l.key, l.nextEns, stop, false, false⟩).sendDeal die
    if stop = total then s.dealtWhole l
    else (s.modLaunch l.key fun l => { l with nextEns := stop }).modSlot l.queue fun x => { x with nextens := BitVec.ofNat 64 stop }
  else s

/-- The launch packet at the head of a queue may be dealt: `AFTER` waits for the queue's earlier launches (R348). -/
def State.mayDeal (s : State) (x : QueueSlot) (v : Nat) : Bool :=
  !(packetFields v).after || s.launches.all fun l => !(decide (l.queue = x.q)) || decide (l.index = x.head) || l.early

/-- Deal from a queue: a bad head stops it, a new launch is taken up, and a launch deals a range or, where it is coresident, starts whole; where only work that gives way stands against that, its pre-emption begins (R58, R360). [log 38: DEDUCED, unsafe] -/
def State.dealFrom (s : State) (x : QueueSlot) (die count : Nat) : State :=
  match s.headPacket x with
  | .bad code => s.stopQueue x.q x.head x.head code none
  | .launch v =>
    let s := if (s.headLaunch x).any fun l => !l.early then s else s.takeUp x v
    match s.headLaunch x with
    | none => s
    | some l =>
      if l.p.coresident then
        match s.startAll l (fun _ => true) l.undealt with
        | some s => s.dealtWhole l
        | none => if s.wouldFit l then s.preempt (s.eligible l.ctx l.p) l.deadline.toNat else s
      else s.dealRange l die count
  | _ => s

/-- Whether a queue has something to deal to a die now (R359, R360). -/
def State.dealable (s : State) (x : QueueSlot) (die : Nat) : Bool :=
  (s.queue x.q).en && !x.leaving && s.hasWork x &&
    (match s.headPacket x with
     | .bad _ => true
     | .launch v =>
       s.mayDeal x v &&
         (match s.headLaunch x with
          | none => true
          | some l =>
            if l.early then true
            else if l.p.coresident then
              (s.startAll l (fun _ => true) l.undealt).isSome ||
                (s.canPreempt (s.eligible l.ctx l.p) l.deadline.toNat && s.wouldFit l)
            else decide (l.p.ensembles ≤ l.nextEns) ||
              (s.rangeRoom die && (List.range 6).any fun c => s.eligible l.ctx l.p (6 * die + c)))
     | _ => false)

/-- A die may take the first lost ensemble of a launch whose queue is mapped: the die that was the spare, or any that the launch may run on (R44, R357, R451). -/
def State.takesLost (s : State) (l : Launch) (die : Nat) : Bool :=
  match l.lost with
  | [] => false
  | (_, target) :: _ =>
    !l.dropped && ((s.slot? l.queue).any fun x => !x.leaving) && s.rangeRoom die && !(s.die die).fenced &&
      (match target with
       | some d => decide (d = die)
       | none => (List.range 6).any fun c => s.eligible l.ctx l.p (6 * die + c))

/-- The length of the run of lost ensembles at the head of a list: consecutive indices with one destination. -/
def lostRun (target : Option Nat) : (k : Nat) → List (Nat × Option Nat) → Nat
  | _, [] => 0
  | k, p :: ps => if p = (k, target) then 1 + lostRun target (k + 1) ps else 0

/-- Deal lost ensembles of a launch to a die again, a run of at most `count` (R359, R451). Those that go to the former spare count as held because of reissue (R47). -/
def State.redeal (s : State) (l : Launch) (die count : Nat) : State :=
  match l.lost with
  | [] => s
  | (k, target) :: _ =>
    let n := min (lostRun target k l.lost) (max count 1)
    ((s.modDie die fun d => d.addRange ⟨l.key, k, k + n, false, target.isSome⟩).modLaunch l.key fun l => { l with lost := l.lost.drop n }).sendDeal die

/-- What the master may deal to some die that a test names: the rank, the queue, and the launch whose lost ensembles it is, none for the head packet of the queue. -/
def State.dealJobs (s : State) (p : Nat → Bool) : List ((Option Nat × Nat) × Option Nat) :=
  let dies := (List.range 9).filter p
  ((s.launches.filter fun l => dies.any (s.takesLost l)).map fun l => ((some l.deadline.toNat, l.queue), some l.key)) ++
    ((s.slots.filter fun x => dies.any (s.dealable x)).map fun x => ((s.rankOf x, x.q), none))

/-- `LAUNCH_DEAL`: the master deals from the mapped queue whose launch has the earliest deadline among those that have something to deal to some die (R359); ensembles that a fenced die lost are dealt again so (R451). [log 38: DEDUCED, unsafe] -/
def execLaunchDeal (die count : Nat) (s : State) : Outcome State Fault Refusal :=
  .next <|
    match (if s.awake ∧ die < 9 then firstBy (fun a b => rankAhead a.1 b.1) (s.dealJobs fun _ => true) else none) with
    | none => s
    | some j =>
      if ¬ (s.dealJobs fun d => d = die).contains j then s
      else
        match j.2 with
        | some k =>
          match s.launch? k with
          | some l => s.redeal l die count
          | none => s
        | none =>
          match s.slot? j.1.2 with
          | some x => s.dealFrom x die count
          | none => s

/-- `WAIT_PACKET_POLL`: the master reads the word of the wait packet at the head of a queue, mapped or not; one that holds is consumed (R351). -/
def execWaitPacketPoll (q : Nat) (s : State) : Outcome State Fault Refusal :=
  .next <|
    match (if s.awake ∧ (s.queue q).en then s.queueView q else .error 0) with
    | .error _ => s
    | .ok x =>
      if ¬ s.hasWork x ∨ x.leaving then s
      else
        match s.headPacket x, (s.packetAt x x.head.toNat).map fun v => v % 256 with
        | .wait true, _ => s.consume q
        | .bad code, some 2 => s.stopQueue q x.head x.head code none
        | _, _ => s

/-- `SIGNAL_PACKET`: the signal packet at the head of a mapped queue is performed once every earlier launch of the queue has completed (R348, R351). -/
def execSignalPacket (q : Nat) (s : State) : Outcome State Fault Refusal :=
  .next <|
    match (if s.awake then s.slot? q else none) with
    | none => s
    | some x =>
      if ¬ s.hasWork x ∨ x.leaving ∨ (s.launches.any fun l => decide (l.queue = q) && !l.early) then s
      else
        match s.headPacket x, (s.packetAt x x.head.toNat).map fun v => v % 256 with
        | .signal pa v, _ => (s.sideBytes pa (bytesOf v 8)).consume q
        | .bad code, some 3 => s.stopQueue q x.head x.head code none
        | _, _ => s

/-- Ranges of a die in the order in which its distributor deals them: the earlier deadline, then the lower index. -/
def State.rangeOrder (s : State) (a b : DieRange) : Bool :=
  let d := fun r : DieRange => ((s.launch? r.launch).map (·.deadline.toNat)).getD 0
  d a < d b || (d a == d b && (a.launch < b.launch || (a.launch == b.launch && a.next < b.next)))

/-- `DIE_DISTRIBUTOR_DEAL`: a die distributor deals the next ensemble of its ranges to a sequencer of the die (R44). -/
def execDieDistributorDeal (die cluster : Nat) (s : State) : Outcome State Fault Refusal :=
  .next <|
    let d := s.die die
    let q := s.seq cluster
    let fits := fun r : DieRange => (s.launch? r.launch).any fun l => r.reissued || s.eligible l.ctx l.p cluster
    if s.awake ∧ ¬ d.fenced ∧ cluster / 6 = die ∧ cluster < 54 ∧ q.holding.length < 64 then
      match firstBy s.rangeOrder (d.ranges.filter fits) with
      | none => s
      | some r =>
        let rest := if r.next + 1 < r.stop then [{ r with next := r.next + 1 }] else []
        let s := s.modDie die fun d => { d with ranges := (d.ranges.filter fun y => y ≠ r) ++ rest }
        (s.modSeq cluster fun q => { q with holding := q.holding ++ [⟨r.launch, r.next, r.hold, r.reissued⟩] }).send (ownStamp die) [seqQueue cluster]
    else s

/-! ## Starts (R45, R46, R58, R360, R442) -/

/-- An unstarted ensemble with its launch. -/
structure Startable where
  held : HeldEnsemble
  l : Launch
  deriving DecidableEq, Repr, Inhabited

/-- Ahead in a sequencer's order: the earlier deadline, then the launch taken up earlier, then the lower index (R46). -/
def Startable.ahead (a b : Startable) : Bool :=
  let x := a.l.deadline.toNat
  let y := b.l.deadline.toNat
  x < y || (x == y && (a.l.key < b.l.key || (a.l.key == b.l.key && a.held.index < b.held.index)))

/-- Insert in a sequencer's order. -/
def insertStartable (a : Startable) : List Startable → List Startable
  | [] => [a]
  | b :: bs => if a.ahead b then a :: b :: bs else b :: insertStartable a bs

/-- The ensembles that a sequencer holds and may start, in its order: none while a trap that nothing served has stopped it (R454). [log 38: DEDUCED, unsafe] -/
def State.startables (s : State) (n : Nat) : List Startable :=
  if (s.seq n).halted then [] else
  ((s.seq n).holding.filterMap fun h =>
    if h.hold then none else (s.launch? h.launch).bind fun l => if l.dropped then none else some ⟨h, l⟩).foldr insertStartable []

/-- A parked ensemble of a cluster that waits to be restored, ahead of work of a later deadline (R423, R46). -/
def State.parkedAhead (s : State) (c deadline : Nat) : Bool :=
  s.ensembles.any fun e => decide (e.cluster = c) && e.parkedSaved && e.parkedReady &&
    (s.launch? e.launch).any fun l => l.deadline.toNat ≤ deadline

/-- An ensemble of a sequencer's order fits its cluster, beside the teams that a test names. -/
def State.startFits (s : State) (n : Nat) (a : Startable) (counts : Team → Bool) : Bool :=
  s.fitsCluster n a.l.p.need (a.l.p.teamsOf a.held.index) counts

/-- Nothing but its room stands against the start of an ensemble: no coresident launch for which the cluster is kept, and no parked ensemble ahead of it; a pre-emptible one may use a kept cluster until its own pre-emption (R360, R423). -/
def State.startFree (s : State) (n : Nat) (a : Startable) : Bool :=
  let d := a.l.deadline.toNat
  if a.l.p.preemptible then
    !s.waitingCoresident.any fun l => decide (l.deadline.toNat < d) && s.eligible l.ctx l.p n && s.wouldFit l
  else !s.keptFree n d && !s.parkedAhead n d

/-- The first ensemble of a sequencer's order would fit were the work gone that gives way to it: that work is pre-empted, and nothing starts ahead of it (R46, R58). -/
def State.startPreempts (s : State) (n : Nat) : Option Startable :=
  (s.startables n).head?.filter fun a =>
    !s.startFits n a (fun _ => true) && s.startFits n a fun x => !s.teamYields a.l.deadline.toNat x

/-- Pre-emptible ensembles that may fill what the first of the order cannot use: each the lowest unstarted index of its launch (R46). -/
def fillers (first : Startable) (rest : List Startable) : List Startable :=
  rest.filter fun b => b.l.p.preemptible && b.l.key != first.l.key &&
    rest.all fun c => c.l.key != b.l.key || decide (b.held.index ≤ c.held.index)

/-- The ensemble that a sequencer starts next (R46): the first in its order when it fits; else the first pre-emptible one that may fill the room, unless the first would fit were the work gone that gives way to it (R58). -/
def State.nextStart (s : State) (n : Nat) : Option Startable :=
  match s.startables n with
  | [] => none
  | a :: rest =>
    if s.startFits n a (fun _ => true) && s.startFree n a then some a
    else if (s.startPreempts n).isSome then none
    else (fillers a rest).find? fun b => s.startFits n b (fun _ => true) && s.startFree n b

/-- `ENSEMBLE_START`: a sequencer starts the next ensemble of its order on cores of its cluster, one for each rank, where they hold it; or the pre-emption of the work that gives way to the first of its order begins (R45, R46, R58). -/
def execEnsembleStart (seq : Nat) (cores : List Nat) (s : State) : Outcome State Fault Refusal :=
  .next <|
    let d := s.die (seq / 6)
    if s.awake ∧ seq < 54 ∧ ¬ d.fenced ∧ (d.inService ∨ d.spare) then
      match s.nextStart seq, s.startPreempts seq with
      | some a, _ =>
        if cores.length = a.l.p.teamsOf a.held.index ∧ coresHold (s.rooms seq fun _ => true) a.l.p.need cores then
          (s.modSeq seq fun q => { q with holding := q.holding.filter fun h => h ≠ a.held }).startEnsemble seq a.l a.held.index cores
        else s
      | none, some a => s.preempt (fun c => c = seq) a.l.deadline.toNat
      | none, none => s
    else s

/-! ## Steals (R47, R48, R369) -/

/-- Free resources of each core of a cluster, as a steal request carries them. -/
def State.freeOf (s : State) (c : Nat) : List (Nat × Nat × Nat × Nat × Nat) :=
  (s.rooms c fun _ => true).map fun r => (r.places, r.gangs, r.slots, r.scratch, r.tensor)

/-- `STEAL_REQUEST`: an idle sequencer asks another for work (R47). [log 38: DEDUCED, unsafe] -/
def execStealRequest (thief victim : Nat) (s : State) : Outcome State Fault Refusal :=
  .next <|
    let q := s.seq thief
    let usable := fun n : Nat => n < 54 ∧ (s.die (n / 6)).fenced = false ∧ ((s.die (n / 6)).inService ∨ (s.die (n / 6)).spare)
    if s.awake ∧ usable thief ∧ usable victim ∧ thief ≠ victim ∧ ¬ q.halted ∧ ¬ q.asked ∧ q.holding = [] ∧ ¬ s.pairHeld (thief / 6) (victim / 6) ∧
        (s.seq victim).steals.length < 8 ∧ ((s.rooms thief fun _ => true).any fun r => r.places > 0) then
      ((s.modSeq victim fun v => { v with steals := v.steals ++ [⟨thief, s.freeOf thief⟩] }).modSeq thief fun q =>
        { q with asked := true }).send (ownStamp (thief / 6)) (oneWay (thief / 6) (victim / 6) [seqQueue victim])
    else s

/-- Teams that a free core of a request can take. -/
def roomOfFree (f : Nat × Nat × Nat × Nat × Nat) : Room := ⟨f.1, f.2.1, f.2.2.1, f.2.2.2.1, f.2.2.2.2⟩

/-- Rooms after `n` teams of a kind have been placed, each on the first core with room; none when they do not fit. -/
def placeIn (need : Room) : (n : Nat) → List Room → Option (List Room)
  | 0, rs => some rs
  | _ + 1, [] => none
  | n + 1, r :: rs =>
    let k := min (r.holds need) (n + 1)
    (placeIn need (n + 1 - k) rs).map fun rs => r.minus need k :: rs

/-- The ensembles that a victim ships, earliest first: at most `n`, whole, not coresident, not held by reissue, and such as the thief may run and has room for (R47, R369). [log 38: DEDUCED, unsafe] -/
def State.shipped (s : State) (thief : Nat) : (n : Nat) → List Startable → List Room → List HeldEnsemble
  | 0, _, _ => []
  | _, [], _ => []
  | n + 1, a :: as, rooms =>
    let ok := !a.l.p.coresident && !a.held.reissued && s.eligible a.l.ctx a.l.p thief
    match (if ok then placeIn a.l.p.need (a.l.p.teamsOf a.held.index) rooms else none) with
    | some rooms => a.held :: s.shipped thief n as rooms
    | none => s.shipped thief (n + 1) as rooms

/-- The unstarted ensembles of a sequencer, the held ones too, in its order. -/
def State.unstarted (s : State) (n : Nat) : List Startable :=
  ((s.seq n).holding.filterMap fun h =>
    (s.launch? h.launch).bind fun l => if l.dropped then none else some ⟨h, l⟩).foldr insertStartable []

/-- `STEAL_REPLY`: a victim answers its oldest steal request with up to four ensembles or with none, as one does whose ensembles stay unstarted (R47, R48, R369, R454). [log 38: DEDUCED, unsafe] -/
def execStealReply (victim : Nat) (s : State) : Outcome State Fault Refusal :=
  .next <|
    match (if s.awake ∧ ¬ (s.die (victim / 6)).fenced then (s.seq victim).steals else []) with
    | [] => s
    | r :: rs =>
      if s.pairHeld (victim / 6) (r.thief / 6) then s
      else
      let rooms := r.free.map roomOfFree
      let n := min 4 (64 - (s.seq r.thief).holding.length)
      let out := if (s.seq victim).halted then [] else s.shipped r.thief n (s.unstarted victim) rooms
      let s := s.modSeq victim fun v => { v with steals := rs, holding := v.holding.filter fun h => !out.contains h }
      (s.modSeq r.thief fun q => { q with asked := false, holding := q.holding ++ out }).send (ownStamp (victim / 6)) (oneWay (victim / 6) (r.thief / 6) [])

/-- `DEADLINE_MISS`: a launch's deadline has passed (R363). -/
def execDeadlineMiss (launch : Nat) (s : State) : Outcome State Fault Refusal :=
  .next (if s.awake then s.missDeadline launch else s)

end Sys2Proof.Machine
end

