-- ==== Sys2Proof/Machine/Flow.lean ====
section
/-! DEFINITION. Control-flow and system instructions (R213 to R232), one meaning for each. -/

namespace Sys2Proof.Machine

open Host (Outcome)

/-! ## Moving program counters (R214, R215) -/

/-- Issue of a control-flow instruction that accesses the stack. -/
def kindStack : IssueKind := ⟨false, false, false, false, true⟩

/-- The pc-relative target (R214). [log 51: DEDUCED, unsafe] -/
def targetOf (x : Exec) : BitVec 56 := x.pc + BitVec.ofInt 56 (16 * x.w.imm.toInt)

/-- Move each quad of the issuing sub-gang to a program counter of its own; the sub-gang splits where they differ (R215). A sequencer is quad 0. -/
def jump (x : Exec) (f : Fin 8 → BitVec 56) (s : State) : State :=
  match x.u with
  | .gang t g => s.modGang t g fun v =>
      { v with quads := mapQuads v.quads fun q u => if x.quads.getLsbD q then { u with pc := f q } else u }.regroup x.quads
  | .seq n => s.modSeq n fun q => { q with pc := f 0 }

/-- The four bits of a quad. -/
def quadBits (m : Mask) (q : Fin 8) : BitVec 4 := m.extractLsb' (4 * q.val) 4

/-- The quads that act: those of the issuing sub-gang, or quad 0 of a sequencer. -/
def actingQuads (x : Exec) : List (Fin 8) := (List.finRange 8).filter fun q => x.quads.getLsbD q

/-- A condition in each lane of the issuing unit; none is true (R215, R218). -/
def State.condition (s : State) (x : Exec) (o : Operand) : Mask :=
  match o with
  | .pred i => ((s.gang? x.t x.g).map fun v => v.pred i).getD 0#32
  | .cond i => if (s.regsOf x.u).cond i then BitVec.allOnes 32 else 0#32
  | _ => BitVec.allOnes 32

/-- A quad whose live lanes hold different values exists (R215). -/
def splitQuad (x : Exec) (m : Mask) : Bool :=
  (actingQuads x).any fun q => let b := quadBits (m &&& x.sub) q; b ≠ 0#4 ∧ b ≠ quadBits x.sub q

/-- `bra` (R218), of a gang or of a sequencer. -/
def execBra (w : Fields) (s : State) : Outcome State Fault Refusal :=
  issue kindPlain 0xC0#8 w 16 (fun x s =>
    let m := s.condition x w.a
    if splitQuad x m then .error (.trap (illegalState x 2#8))
    else
      let taken := fun q => (quadBits (m &&& x.sub) q ≠ 0#4) ^^ (w.fn = 1#4)
      .ok (jump x (fun q => if taken q then targetOf x else x.pc + 16#56) s)) s

/-- `brq` (R219). -/
def execBrq (w : Fields) (s : State) : Outcome State Fault Refusal :=
  issue kindPlain 0xC1#8 w 16 (fun x s =>
    let m := s.condition x w.a &&& x.sub
    let taken := fun q =>
      let b := quadBits m q
      let all : Bool := b = quadBits x.sub q
      match w.fn.toNat with
      | 0 => b != 0#4
      | 1 => all
      | 2 => b == 0#4
      | _ => !all
    .ok (jump x (fun q => if taken q then targetOf x else x.pc + 16#56) s)) s

/-! ## The call stack (R220 to R222) -/

/-- Call stack pointer of a quad. -/
def State.cspOf (s : State) (x : Exec) (q : Fin 8) : W64 :=
  match x.u with
  | .gang t g => ((s.gang? t g).map fun v => v.quads[q].csp).getD 0#64
  | .seq n => (s.seq n).csp

/-- Set the call stack pointer of each acting quad. -/
def setCsp (x : Exec) (f : Fin 8 → W64) (s : State) : State :=
  match x.u with
  | .gang t g => s.modGang t g fun v =>
      { v with quads := mapQuads v.quads fun q u => if x.quads.getLsbD q then { u with csp := f q } else u }
  | .seq n => s.modSeq n fun q => { q with csp := f 0 }

/-- The first checks of R221 and R222: a null stack pointer, then a misaligned one. -/
def State.stackFault (s : State) (x : Exec) (acc : BitVec 2) : Option Trap :=
  let qs := actingQuads x
  if qs.any fun q => s.cspOf x q = 0#64 then some (illegalState x 6#8)
  else (qs.find? fun q => (s.cspOf x q).extractLsb' 0 3 ≠ 0#3).map fun q => misalignedAt laneNone acc (s.cspOf x q).toNat

/-- The accesses of the stack, each with its quad as lane, with page faults ahead of protection faults (R221). [log 33: DEDUCED, unsafe] -/
def State.checkStack (s : State) (x : Exec) (acc : BitVec 2) (vas : List (Fin 8 × Nat)) :
    State × Except Trap (List (Point × Access)) :=
  let ps := (vas.filter fun p => p.2 < 2 ^ 56).map fun p => (⟨laneNone, (p.2 : Int), none⟩ : Point)
  match s.checkGlobal x acc 8 8 ps, vas.find? fun p => p.2 ≥ 2 ^ 56 with
  | (s, .error (.page a b)), _ => (s, .error (.page a b))
  | (s, .error (.circuit a b)), _ => (s, .error (.circuit a b))
  | (s, _), some p => (s, .error (protectionAt laneNone acc p.2))
  | r, none => r

/-- Push a return address for each acting quad, then move each to its target (R221). -/
def pushJump (x : Exec) (ra : BitVec 56) (f : Fin 8 → BitVec 56) (s : State) : Except Stop State :=
  match s.stackFault x accWrite with
  | some t => .error (.trap t)
  | none =>
    let top := fun q => s.cspOf x q - 8#64
    match s.checkStack x accWrite ((actingQuads x).map fun q => (q, (top q).toNat)) with
    | (_, .error t) => .error (.trap t)
    | (s, .ok as) =>
      let s := as.foldl (fun s p => s.store x ⟨p.2, p.1.va.toNat, p.2.mask, p.2.lay ra.toNat⟩ false false none) s
      .ok (jump x f (setCsp x top s))

/-- `call` (R221), of a gang or of a sequencer. -/
def execCall (w : Fields) (s : State) : Outcome State Fault Refusal :=
  issue kindStack 0xC2#8 w 16 (fun x s => pushJump x (x.pc + 16#56) (fun _ => targetOf x) s) s

/-- The value that a quad popped. -/
def popped (qs : List (Fin 8)) (rs : List (Nat × Nat × Bool)) (q : Fin 8) : Nat :=
  (((qs.zip rs).find? fun p => p.1 = q).map (·.2.2.1)).getD 0

/-- `ret` (R222), of a gang or of a sequencer. -/
def execRet (w : Fields) (s : State) : Outcome State Fault Refusal :=
  issue kindStack 0xC3#8 w 16 (fun x s =>
    match s.stackFault x accRead with
    | some t => .error (.trap t)
    | none =>
      let qs := actingQuads x
      match s.checkStack x accRead (qs.map fun q => (q, (s.cspOf x q).toNat)) with
      | (_, .error t) => .error (.trap t)
      | (s, .ok as) =>
        if as.any fun p => s.awaitsOwn x p.2 then .error (.wait .remote)
        else
          let r := s.readLanes as []
          match (as.zip r.2).find? fun p => p.2.2.2 with
          | some p => .error (.trap (.coded 0x2A#8 (detailPoison laneNone 1#2 p.1.1.va.toNat)))
          | none =>
            match r.2.find? fun p => p.2.1 % 16 ≠ 0 with
            | some p => .error (.trap (misalignedAt laneNone accExec p.2.1))
            | none =>
              let s := setCsp x (fun q => s.cspOf x q + 8#64) r.1
              .ok (jump x (fun q => BitVec.ofNat 56 (popped qs r.2 q)) s)) s

/-! ## Table branches (R223) -/

/-- Read the words of a `btab` list through instruction fetch, in ascending address. -/
def State.listWords (s : State) (x : Exec) : (k i : Nat) → List W128 → State × Except Trap (List W128)
  | 0, _, ws => (s, .ok ws.reverse)
  | k + 1, i, ws =>
    match s.word x (x.pc + BitVec.ofNat 56 (16 * (i + 1))).toNat 3#2 with
    | (s, .error t) => (s, .error t)
    | (s, .ok w) => s.listWords x k (i + 1) (w :: ws)

/-- The first `n` entries of a list. -/
def listEntries (n : Nat) (ws : List W128) : List (BitVec 56) :=
  (ws.flatMap fun w => [w.extractLsb' 0 56, w.extractLsb' 64 56]).take n

/-- Entries of a `btab` list. -/
def btabCount (w : Fields) : Nat := (w.imm.extractLsb' 0 9).toNat

/-- Bytes of a `btab` with its list. -/
def btabLength (w : Fields) : Nat := 16 * (1 + (btabCount w + 1) / 2)

/-- `btab` and `btab.call` (R223). R223 does not place the poison of A in its order of faults: the model tests it first. [log 58: DEDUCED, unsafe] -/
def execBtab (w : Fields) (s : State) : Outcome State Fault Refusal :=
  issue (if w.fn = 1#4 then kindStack else kindPlain) 0xC4#8 w (btabLength w) (fun x s =>
    match s.gang? x.t x.g with
    | none => .ok s
    | some v =>
      let e := s.env x v
      let a := e.src w.a .b64
      let first := fun q : Fin 8 => Fin.ofNat 32 (lowest (x.sub &&& quadLanes (1#8 <<< q.val)))
      let target := fun q : Fin 8 => BitVec.ofNat 56 (a.val (first q))
      match consumeLanes x.sub [(w.a, a.poison)] with
      | some t => .error (.trap t)
      | none =>
        if (List.finRange 32).any fun l => x.sub.getLsbD l && a.val l != a.val (first (Fin.ofNat 8 (l.val / 4))) then
          .error (.trap (illegalState x 2#8))
        else
          match s.listWords x ((btabCount w + 1) / 2) 0 [] with
          | (_, .error t) => .error (.trap t)
          | (s, .ok ws) =>
            let es := listEntries (btabCount w) ws
            let qs := actingQuads x
            match qs.find? fun q => !es.contains (target q) with
            | some q => .error (.trap (.coded 0x24#8 (BitVec.ofNat 3 q.val ++ 0#5 ++ target q)))
            | none =>
              match qs.find? fun q => (target q).extractLsb' 0 4 ≠ 0#4 with
              | some q => .error (.trap (misalignedAt laneNone accExec (target q).toNat))
              | none =>
                if w.fn = 1#4 then pushJump x (x.pc + BitVec.ofNat 56 (btabLength w)) target s
                else .ok (jump x target s)) s

/-! ## Rejoin and exit (R224, R225) -/

/-- The quads of a mask wait at the `regang` at `pc`. -/
def Gang.waitAt (v : Gang) (quads : QuadMask) (pc : BitVec 56) (id : W32) : Gang :=
  { v with quads := mapQuads v.quads fun q u =>
      if quads.getLsbD q then { u with pc := pc, wait := true, rejoin := id } else u }

/-- `regang` (R53, R224). -/
def execRegang (w : Fields) (s : State) : Outcome State Fault Refusal :=
  issue kindPlain 0xC5#8 w 16 (gangBody fun x v =>
    let v := v.waitAt x.quads x.pc w.imm
    if v.rejoinClash then .error (.trap (illegalState x 3#8)) else .ok v.rejoinIfAll) s

/-- Lanes leave the live mask (R56): a quad without live lanes goes, and a gang without live lanes leaves its handler. [log 33: DEDUCED, unsafe] -/
def Gang.dropLanes (v : Gang) (lanes : Mask) : Gang :=
  let v := { v with live := v.live &&& ~~~lanes }.rename
  if v.live = 0#32 then { v with handler := none, heldTrap := none } else v.rejoinIfAll

/-- The trap of R53 where the live quads of a gang all wait with different identifiers and none of them issues a `regang`: that it is taken by the sub-gang of the lowest live quad, which is its `ACT`, with `OPC` of `regang`, is the model's choice (log 33). [log 33: DEDUCED, unsafe] -/
def State.clashTrap (s : State) (x : Exec) : State :=
  match s.gang? x.t x.g with
  | none => s
  | some v =>
    if v.rejoinClash then
      let quads := v.groupOf (vget v.quads (lowest v.liveQuads) default).sub.toNat
      let y := { x with op := 0xC5#8, quads, liveQuads := v.liveQuads, pc := v.pcOf quads }
      trapFrom y (illegalState y 3#8) false s
    else s

/-- Lanes of a gang exit or are killed (R53, R56, R225, R436): the end of the team where they were the last in the handler of a terminal trap, and the trap of R53 where the quads that remain wait with different identifiers. [log 33: DEDUCED, unsafe] -/
def State.dropLanes (s : State) (x : Exec) (lanes : Mask) : State :=
  match s.gang? x.t x.g with
  | none => s
  | some v =>
    let v' := v.dropLanes lanes
    let s := s.setGang x.t x.g v'
    if v'.live = 0#32 ∧ v.handler.any terminal then s.endTeam x.t (v.handler = some 0x2B#8)
    else s.clashTrap x

/-- `exit` (R225), of a gang or of a sequencer. [log 33: DEDUCED, unsafe] -/
def execExit (w : Fields) (s : State) : Outcome State Fault Refusal :=
  issue kindPlain 0xC6#8 w 16 (fun x s =>
    match x.u with
    | .gang _ _ => .ok (s.dropLanes x (x.sub &&& s.condition x w.a))
    | .seq n => .ok (s.modSeq n fun q => { q with run := false })) s

/-- `nop` (R226). -/
def execNop (w : Fields) (s : State) : Outcome State Fault Refusal := issue kindPlain 0xC7#8 w 16 (fun _ s => .ok s) s

/-! ## Traps (R227 to R229) -/

/-- A software trap or breakpoint of a unit has no effect: no handler takes it (R437, R438, R445, R454). -/
def State.trapIgnored (s : State) (x : Exec) (brk : Bool) : Bool :=
  match x.u with
  | .gang t g => (s.gang? t g).any fun v => s.noHandler t v x.quads && !(brk && s.debugged t v)
  | .seq n => let q := s.seq n; q.handler.isSome || q.trapvec == 0#64 || q.emul

/-- `trap` (R227) and `brk` (R228). [log 50: DEDUCED, unsafe] -/
def trapForm (op code : BitVec 8) (w : Fields) (s : State) : Outcome State Fault Refusal :=
  issue kindPlain op w 16 (fun x moved =>
    if s.trapIgnored x (op = 0xFF#8) then .ok moved
    else .error (.trap (.coded code (0#48 ++ w.imm.extractLsb' 0 16)))) s

/-- `trap` (R227). -/
def execTrap (w : Fields) (s : State) : Outcome State Fault Refusal := trapForm 0xC8#8 1#8 w s

/-- `trapret` (R229, R436). -/
def execTrapret (w : Fields) (s : State) : Outcome State Fault Refusal :=
  issue kindPlain 0xC9#8 w 16 (fun x s => trapReturn x w.fn.toNat s) s

/-- `brk` (R228, R445). [log 41: DEDUCED, unsafe] -/
def execBrk (w : Fields) (s : State) : Outcome State Fault Refusal := trapForm 0xFF#8 2#8 w s

/-! ## Special registers (R230, R231) -/

/-- The value that `mfsr` reads (R231). -/
def State.readSpecial (s : State) (x : Exec) (i : Nat) : W64 :=
  let l := lowest x.sub
  if x.seq then s.special x i
  else
    match i with
    | 0x00 => BitVec.ofNat 64 l
    | 0x01 => BitVec.ofNat 64 (l / 4)
    | 0x14 => ((s.gang? x.t x.g).map fun v => (vget v.srctr l 0#32).zeroExtend 64).getD 0#64
    | i => s.special x i

/-- The type by which `mfsr` and `mtsr` move a special register. -/
def specialTy (i : Nat) : Ty := if specIs64 i then .b64 else .b32

/-- `mfsr` (R230, R231), of a gang or of a sequencer. -/
def execMfsr (w : Fields) (s : State) : Outcome State Fault Refusal :=
  issue kindPlain 0xCA#8 w 16 (fun x s =>
    let i := (w.imm.extractLsb' 0 8).toNat
    let v := (s.readSpecial x i).toNat
    .ok (s.modRegs x.u fun r => r.writeTo w.d (specialTy i) v)) s

/-- The effect of a write of a special register (R156, R158, R159, R231); a register that is read-only keeps its value. -/
def State.writeSpecial (s : State) (x : Exec) (i : Nat) (v : W64) : State :=
  let mode : BitVec 3 := v.extractLsb' 0 3
  match i with
  | 0x11 => s.modRegs x.u fun r => { r with fpflags := v.extractLsb' 0 5 }
  | 0x12 => if mode.toNat ≤ 5 then s.modRegs x.u fun r => { r with fpctl := mode } else s
  | 0x13 => if x.seq then s else s.modTeam x.t fun tm => { tm with srseed := v }
  | 0x14 =>
    if x.seq then s
    else s.modGang x.t x.g fun g =>
      { g with srctr := Vector.ofFn fun l => if x.sub.getLsbD l then v.extractLsb' 0 32 else g.srctr[l] }
  | 0x17 =>
    let v := v &&& ~~~15#64
    match x.u with
    | .gang t _ => s.modTeam t fun tm => { tm with trapvec := v }
    | .seq n => s.modSeq n fun q => { q with trapvec := v }
  | 0x20 => setCsp x (fun _ => v) s
  | _ => s

/-- `mtsr` (R230, R231), of a gang or of a sequencer. [log 50: DEDUCED, unsafe] -/
def execMtsr (w : Fields) (s : State) : Outcome State Fault Refusal :=
  issue kindPlain 0xCB#8 w 16 (fun x s =>
    let i := (w.imm.extractLsb' 0 8).toNat
    if i = 0x17 ∧ ¬ x.priv then .error (.trap (protectionOnce 0#56))
    else
      let a := s.scalarSrc x w.a (specialTy i)
      match consumeOnce [(w.a, a.2)] with
      | some t => .error (.trap t)
      | none => .ok (s.writeSpecial x i (BitVec.ofNat 64 a.1))) s

/-! ## Instruction caches (R232) -/

/-- An invalidation reaches a core: its cached words go, and its fetch acquires at device scope (R232). [log 52: DESIGN CHOICE, unsafe] -/
def State.icacheReach (s : State) (core : Nat) : State :=
  (s.modCore core fun c => { c with icache := [] }).modDie (dieOf core) Die.advance

/-- `icinv`, and with `FN` 1 `icinv.dev`, which is privileged (R232). The gang is held until the invalidation has reached every core in its range. [log 52: DESIGN CHOICE, unsafe] -/
def execIcinv (w : Fields) (s : State) : Outcome State Fault Refusal :=
  issue ⟨w.fn = 1#4, false, false, false, false⟩ 0xCC#8 w 16 (fun x s =>
    if w.fn = 1#4 then
      let id := s.ids
      .ok (blockUnit x (.icinv id) { s.bump with invals := s.invals ++ [⟨id, some x.u, (List.range 2592).filter fun c => !(s.die (dieOf c)).fenced⟩] })
    else .ok (s.icacheReach x.core)) s

end Sys2Proof.Machine
end

