-- ==== Sys2Proof/Machine/Events.lean ====
section
/-! DEFINITION. The steps of gangs, cores and their memory that no word encodes: replies, waits that end, commands, deadlocks, retirement, promotions, remote acknowledgements, sector errors and event records. A step whose condition does not hold leaves the state as it is. -/

namespace Sys2Proof.Machine

open Host (Outcome)

/-! ## Replies (R50, R51, R60, R88, R303) -/

/-- The results before one, without the destinations that it writes (R88 (4)). -/
def Result.supersede (r x : Result) : Result :=
  let x := r.vec.foldl (fun (x : Result) w => x.dropVec w.reg w.mask) x
  let x := r.sca.foldl (fun (x : Result) w => x.dropSca w.reg w.halves) x
  let x := r.cond.foldl (fun (x : Result) w => x.dropCond w.1) x
  r.trans.foldl (fun (x : Result) w => x.dropTrans w.1) x

/-- Outstanding results after one has returned. -/
def returnResult (r : Result) : List Result → List Result
  | [] => []
  | x :: xs => if x.id = r.id then xs else r.supersede x :: returnResult r xs

/-- A vector register after a reply's write of it: lanes that have exited receive nothing (R60), a register that lost lanes so is general (R145, R146), and a write wakes a drowsy register (R154). -/
def VReg.receive (u : VReg) (w : VecWrite) (live : Mask) (tick : Nat) : VReg :=
  let m := w.mask &&& live
  { u.put m w.data w.poison with
    tag := if m = w.mask then u.tag else .general
    used := if m = 0#32 then u.used else tick
    drowsy := u.drowsy && m == 0#32 }

/-- The writes of a reply at a tick. -/
def Gang.applyResult (v : Gang) (r : Result) (tick : Nat) : Gang :=
  let vregs := r.vec.foldl (fun (vs : List VReg) w =>
    match vs[w.reg]? with
    | some u => setNth (u.receive w v.live tick) vs w.reg
    | none => vs) v.vregs
  let regs := r.sca.foldl (fun (u : Regs) w => u.putSca w.reg w.halves w.value w.poison) v.regs
  let regs := r.cond.foldl (fun (u : Regs) w => u.putCond w.1 w.2) regs
  let trans := r.trans.foldl (fun (ts : Vector Trans 8) w => ts.set w.1.toNat w.2 w.1.isLt) v.trans
  { v with vregs, trans, regs := { regs.orFlags r.flags with pending := returnResult r regs.pending } }

/-- A gang after a reply: the 65th result may now issue, and a parked gang whose last result this was is ready (R50, R304). -/
def Gang.afterReply (v : Gang) (tick : Nat) : Gang :=
  match v.status with
  | .waiting .results => { v with status := .ready, readySince := tick }
  | .parked => if v.regs.pending = [] then { v.settle with status := .ready, readySince := tick } else v
  | _ => v

/-- `RESULT_REPLY`: an outstanding result whose value is known, and for which no packet is under way, returns and is written (R23, R51, R88, R303), and the hold store loses its registers (R95). All destinations and lanes of one result return together: that is the model's choice (log 6). [log 6: DESIGN CHOICE, unsafe] -/
def execResultReply (u : Issuer) (id : Nat) (s : State) : Outcome State Fault Refusal :=
  .next <|
    match u with
    | .gang t g =>
      match s.team? t, s.gang? t g with
      | some tm, some v =>
        match v.regs.pending.find? fun r => r.id = id ∧ r.waits = .none with
        | some r =>
          if s.packets.any fun p => p.reply = some (u, id) then s
          else ((s.setGang t g (((v.applyResult r s.tick).returned id).afterReply s.tick)).modCore tm.core fun c =>
            c.unhold t g (r.vec.map fun w => (w.reg, 1))).arbitrateSlots tm.core
        | none => s
      | _, _ => s
    | .seq _ => s

/-! ## Delays, age and drowsiness (R49, R96, R154) -/

/-- `DLY_EXPIRY`: a delay has passed. -/
def execDlyExpiry (team gang : Nat) (s : State) : Outcome State Fault Refusal :=
  .next <|
    s.modGang team gang fun v =>
      if v.delay.any fun d => d ≤ s.tick then { v with delay := none, readySince := s.tick } else v

/-- `GANG_AGED`: a gang has been ready for 64 clocks without issuing. [log 17: DEDUCED, unsafe] -/
def execGangAged (team gang : Nat) (s : State) : Outcome State Fault Refusal :=
  .next <|
    match s.team? team with
    | some tm =>
      if tm.running then
        s.modGang team gang fun v => if v.ready ∧ clocksPassed v.readySince s.tick 64 then { v with aged := true } else v
      else s
    | none => s

/-- `SLOT_DROWSY`: no instruction has read or written a register for 4,096 clocks. -/
def execSlotDrowsy (team gang reg : Nat) (s : State) : Outcome State Fault Refusal :=
  .next <|
    s.modGang team gang fun v =>
      match v.vregs[reg]? with
      | some r => if clocksPassed r.used s.tick 4096 then { v with vregs := setNth { r with drowsy := true } v.vregs reg } else v
      | none => v

/-! ## Traps and waits that end (R285, R322, R323, R434, R437) -/

/-- `TRAP_ENTRY`: the earlier results have returned, and the held trap is taken (R90, R434). -/
def execTrapEntry (u : Issuer) (s : State) : Outcome State Fault Refusal :=
  .next <|
    match u with
    | .gang t g =>
      match s.gang? t g with
      | some v =>
        match v.heldTrap with
        | some ⟨.coded code detail, quads, pc, brk⟩ => if v.regs.pending = [] then s.takeGang t g code detail quads pc brk else s
        | _ => s
      | none => s
    | .seq _ => s

/-- A gang whose wait at its issue checks a test names issues again; the clocks of a wait for the other unit are kept (R323). -/
def Gang.retry (v : Gang) (tick : Nat) (p : Wait → Bool) : Gang :=
  match v.status with
  | .waiting w =>
    if p w then
      { v with status := .ready, readySince := tick, otherWait := v.otherWait + (v.otherSince.map fun a => tick - a).getD 0, otherSince := none }
    else v
  | _ => v

/-- Ticks that the current issue has waited for a handle or a range of the other unit (R323). -/
def Gang.otherTicks (v : Gang) (tick : Nat) : Nat := v.otherWait + (v.otherSince.map fun a => tick - a).getD 0

/-- The gangs of a core whose wait a test names issue again. -/
def State.retryCore (s : State) (core : Nat) (p : Wait → Bool) : State :=
  { s with teams := replaceIf (fun t => t.core = core) (fun t => { t with gangs := t.gangs.map fun v => v.retry s.tick p }) s.teams }

/-- Every unit whose wait a test names issues again. [log 23: DEDUCED, unsafe] -/
def State.retryAll (s : State) (p : Wait → Bool) : State :=
  { s with
    teams := s.teams.map fun t => { t with gangs := t.gangs.map fun v => v.retry s.tick p }
    seqs := s.seqs.map fun q =>
      match q.status with
      | .waiting w => if p w then { q with status := .ready } else q
      | _ => q }

/-- `RANGE_LOCK_RETRY`: an access that a range lock stopped in a team without a handler is issued again (R437). [log 23: DEDUCED, unsafe] -/
def execRangeLockRetry (team gang : Nat) (s : State) : Outcome State Fault Refusal :=
  .next (s.modGang team gang fun v => v.retry s.tick fun w => w = .lockRetry)

/-- `HANDLE_BUSY_TIMEOUT`: a command has waited 2^20 clocks for the other unit (R323, R402, R433). [log 29: DEDUCED, unsafe] -/
def execHandleBusyTimeout (team gang : Nat) (s : State) : Outcome State Fault Refusal :=
  .next <|
    match s.gang? team gang with
    | none => s
    | some v =>
      let fire := fun (op : BitVec 8) (low : BitVec 24) =>
        if clocksPassed 0 (v.otherTicks s.tick) (2 ^ 20) then
          match execOf s (.gang team gang) op default with
          | some x => raiseTrap x (.coded codeBusy (detailOp op low)) false (s.setGang team gang { v with status := .ready })
          | none => s
        else s
      match v.status with
      | .waiting (.handle op h) => fire op (h.zeroExtend 24)
      | .waiting (.range op) => fire op 0x20#24
      | _ => s

/-- `COMMAND_QUEUE_ACCEPT`: an entry of a unit's queue or of the range-lock table is free for a command that waits for one (R285, R322, R405). [log 23: DEDUCED, unsafe] -/
def execCommandQueueAccept (team gang : Nat) (s : State) : Outcome State Fault Refusal :=
  .next <|
    match s.team? team with
    | none => s
    | some tm =>
      let u := s.core tm.core
      s.modGang team gang fun v => v.retry s.tick fun w =>
        match w with
        | .queue => decide (u.copy.length < 16 ∨ u.array.length < 16)
        | .locks => decide (u.locks.length < 32)
        | _ => false

/-! ## Commands (R322 to R326, R342) -/

/-- Clocks for which an array command occupies the array (R326). -/
def Command.occupancy (c : Command) (ty : Ty) : Nat :=
  let n := mdCols c.w.md
  match c.kind with
  | .tzero => (n * wordsPer ty + 15) / 16
  | .tcvt => n / 2
  | _ => if ty = .f64 then n else n / 2

/-- Type of the destination of a command. -/
def State.commandTy (s : State) (c : Command) : Ty :=
  (((s.team? c.team).bind fun tm => c.dTile.bind tm.tile?).map (·.ty)).getD .none

/-- The tiles that an array command reads: its source handle, and its destination where it accumulates. -/
def Command.readsTile (c : Command) (id : Nat) : Bool := c.aTile == some id || (c.dTile == some id && c.w.c != .none)

/-- The commands before one in a queue, none when it is not there. -/
def earlier (l : List Command) (id : Nat) : List Command := l.takeWhile fun c => c.id ≠ id

/-- A later command of a unit follows an earlier one: they name a common handle or a common byte (R322). -/
def State.follows (s : State) (b c : Command) : Bool := b.shares c || s.rangesClash b c

/-- The conditions of R326 for an array command to begin: the array is free, the earlier commands that it follows have begun, those whose destination it reads have completed, and the copy of a follow-on has landed. -/
def State.mayBegin (s : State) (core : Nat) (c : Command) : Bool :=
  let u := s.core core
  !c.begun &&
    (u.array.all fun b => !b.begun || clocksPassed b.beginTick s.tick (b.occupancy (s.commandTy b))) &&
    ((earlier u.array c.id).all fun b => (b.begun || !s.follows b c) && b.dTile.all fun id => !c.readsTile id) &&
    c.after.all fun a => u.copy.all fun b => decide (b.id ≠ a)

/-- `COMMAND_BEGIN`: an array command begins (R326). -/
def execCommandBegin (core cmd : Nat) (s : State) : Outcome State Fault Refusal :=
  .next <|
    match (s.core core).array.find? fun c => c.id = cmd with
    | none => s
    | some c =>
      if s.mayBegin core c then
        s.modCore core fun u =>
          { u with array := replaceIf (fun b => b.id = cmd) (fun b => { b with begun := true, beginTick := s.tick }) u.array }
      else s

/-- The conditions for a command to complete: an array command has run its time, and those that began before it have completed (R326); a copy follows the earlier copies that share a tile or bytes with it (R322). -/
def State.mayComplete (s : State) (core : Nat) (c : Command) : Bool :=
  let u := s.core core
  if c.kind.onCopy then (earlier u.copy c.id).all fun b => !s.follows b c
  else c.begun && (u.array.all fun b => !b.begun || decide (c.beginTick ≤ b.beginTick)) &&
    ((earlier u.array c.id).all fun b => !s.follows b c) && clocksPassed c.beginTick s.tick (c.occupancy (s.commandTy c) + 20)

/-- `COMMAND_COMPLETE`: a unit has performed a command (R324, R325), and what waited for it goes on (R323, R343, R406). [log 6: DESIGN CHOICE, unsafe] -/
def execCommandComplete (core cmd : Nat) (s : State) : Outcome State Fault Refusal :=
  .next <|
    match (s.core core).commands.find? fun c => c.id = cmd with
    | none => s
    | some c =>
      if s.mayComplete core c then
        (s.completeCommand core c).retryAll fun w =>
          match w with
          | .handle _ _ | .range _ | .commands => true
          | _ => false
      else s

/-! ## Granules and registers (R152, R254, R400, R401) -/

/-- `GRANULE_CLEAR_DONE`: the clearing of released granules ends (R254). -/
def execGranuleClearDone (core release : Nat) (s : State) : Outcome State Fault Refusal :=
  .next <|
    if (s.core core).clearing.any fun p => p.1 = release then
      (s.modCore core fun c => { c with clearing := c.clearing.filter fun p => p.1 ≠ release }).arbitrate core
    else s

/-- A gang that is failed at the instruction in which it is blocked: the instruction has had no effect, and the trap is taken there. -/
def State.failBlocked (s : State) (w : Waiter) (op : BitVec 8) (t : Trap) : State :=
  match s.gang? w.team w.gang with
  | none => s
  | some v =>
    let v := { v.setPc v.blockQuads v.blockPc with status := .ready, swLater := false }
    let s := s.setGang w.team w.gang v
    match execOf s (.gang w.team w.gang) op default with
    | some x => trapFrom { x with quads := v.blockQuads, pc := v.blockPc } t false s
    | none => s

/-- Gang `g` of a team holds granules (R401). -/
def Team.holdsGranules (x : Team) (g : Nat) : Bool :=
  x.handles.toList.any fun h =>
    ((h.st == .owned && decide (h.own.toNat = g)) || (h.st == .given && decide (h.own.toNat = g ∨ h.dest.toNat = g))) &&
      (h.tile.bind x.tile?).any fun y => !y.granules.isEmpty

/-- Blocked in a request that a test names. -/
def Gang.blockedIn (v : Gang) (p : Block → Bool) : Bool :=
  match v.status with
  | .blocked why _ => p why
  | _ => false

/-- The gangs of the teams on a core, with their team and number. -/
def State.coreGangs (s : State) (core : Nat) : List (Team × Nat × Gang) :=
  (s.teams.filter fun x => x.placedOn core).flatMap fun x => x.gangs.zipIdx.map fun p => (x, p.2, p.1)

/-- Allocation deadlock of a core (R401). -/
def State.tileDeadlock (s : State) (core : Nat) : Bool :=
  let holders := (s.coreGangs core).filter fun p => p.2.2.status != .retired && p.1.holdsGranules p.2.1
  (s.core core).clearing.isEmpty && !((s.teams.filter fun x => x.placedOn core).any fun x => x.tiles.any (·.freed)) &&
    !holders.isEmpty && holders.all fun p => p.1.running && p.2.2.blockedIn Block.isTalloc

/-- `ALLOCATION_DEADLOCK`: the arbiter fails the request of the latest launch deadline, the most recently issued one among equals (R401). -/
def execAllocationDeadlock (core : Nat) (s : State) : Outcome State Fault Refusal :=
  .next <|
    match (if s.tileDeadlock core then (s.tileWaiters core).getLast? else none) with
    | some w =>
      match w.why with
      | .talloc h _ _ before =>
        let s := s.modTeam w.team fun x => x.setHandle h before
        s.failBlocked w 0xA0#8 (.coded 0x28#8 (detailOp 0xA0#8 (0#11 ++ h ++ BitVec.ofNat 8 w.need)))
      | _ => s
    | none => s

/-- Register deadlock of a core (R152). -/
def State.slotDeadlock (s : State) (core : Nat) : Bool :=
  let gs := (s.coreGangs core).filter fun p => p.2.2.slots != 0
  gs.all fun p => p.1.running && p.2.2.blockedIn Block.isRgrow && p.2.2.releasing.isEmpty

/-- `REGISTER_DEADLOCK`: the arbiter fails the request of the latest launch deadline, the most recently issued one among equals (R152). -/
def execRegisterDeadlock (core : Nat) (s : State) : Outcome State Fault Refusal :=
  .next <|
    match (if s.slotDeadlock core then (s.regWaiters core).getLast? else none) with
    | some w => s.failBlocked w 0xCD#8 (.coded 0x28#8 (detailOp 0xCD#8 (BitVec.ofNat 24 w.need)))
    | none => s

/-! ## Retirement (R60, R61, R394, R425) -/

/-- A gang's live bits are clear and nothing of it is outstanding. [log 33: DEDUCED, unsafe] -/
def Gang.spent (v : Gang) : Bool := v.live == 0#32 && v.regs.pending.isEmpty && v.status != .retired

/-- A retired gang: its registers are freed. -/
def Gang.retire (v : Gang) : Gang :=
  { v with status := .retired, vregs := [], alloc := 0, releasing := [], handler := none, heldTrap := none, emul := 0#8 }

/-- A team whose gangs have all retired exits: its handles become unallocated and its reserve leaves the core (R60, R394, R401). -/
def State.exitTeam (s : State) (t core : Nat) : State :=
  let s := s.modTeam t fun x => { x with residence := .exited, reserve := 0 }
  (s.exitHandles t).arbitrate core

/-- `GANG_RETIRE`: a gang without a live lane or an outstanding result retires, and its team exits with the last one (R60). -/
def execGangRetire (team gang : Nat) (s : State) : Outcome State Fault Refusal :=
  .next <|
    match s.team? team, s.gang? team gang with
    | some tm, some v =>
      if v.spent ∧ tm.placedOn tm.core then
        let s := s.modGang team gang Gang.retire
        let s := ((s.retireHandles team gang).barriersRetire team).arbitrateSlots tm.core
        if (s.team? team).any fun x => x.gangsLeft = 0 then s.exitTeam team tm.core else s.arbitrate tm.core
      else s
    | _, _ => s

/-- A unit is a gang of a team. -/
def issuerOfTeam (u : Issuer) (t : Nat) : Bool :=
  match u with
  | .gang t' _ => decide (t' = t)
  | .seq _ => false

/-- The team's commands and the copies into its window have completed (R61). -/
def State.copiesDone (s : State) (tm : Team) : Bool :=
  (s.core tm.core).commands.all (fun c => decide (c.team ≠ tm.tid)) &&
    s.cores.all fun u => u.commands.all fun c => c.ranges.all fun r => decide (r.win ≠ some tm.tid)

/-- The exec record of a team that acts of itself. -/
def Team.agent (tm : Team) : Exec :=
  { (default : Exec) with
    u := .gang tm.tid 0, t := tm.tid, g := 0, ctx := tm.ctx, core := tm.core, cluster := clusterOf tm.core, die := dieOf tm.core }

/-- The ensemble's teams are all done. -/
def State.ensembleOver (s : State) (e : Ensemble) : Bool :=
  e.teams.all fun t => (s.team? t).all fun x => decide (x.residence = .done)

/-- An ensemble whose teams are all done leaves the machine, with the lost writes that only its own teams could learn of, and its launch may complete (R62). [log 25: DEDUCED, unsafe] -/
def State.retireEnsemble (s : State) (eid : Nat) : State :=
  match s.ensemble? eid with
  | none => s
  | some e =>
    if s.ensembleOver e then
      let s := { s with lostWrites := s.lostWrites.filter fun l => !decide (l.sc = 0#3 ∧ l.team.any e.teams.contains) && !decide (l.sc = 1#3 ∧ l.ensemble = some eid) }
      let lost := s.teams.any fun x => x.ensemble = eid && (x.lost.isSome || x.endedLost)
      let s := { s with ensembles := s.ensembles.filter fun y => y.eid ≠ eid
                        teams := s.teams.filter fun x => x.ensemble ≠ eid }
      let s := s.modLaunch e.launch fun l => { l with doneEns := l.doneEns ++ [e.index], lostWrite := l.lostWrite || lost }
      s.settleLaunch e.launch
    else s

/-- `TEAM_DONE`: the completion release of an exited team, at device scope, reaches the memory side; with its remote writes acknowledged and the copies into its window landed, the team is done (R60, R61, R293). [log 26: DEDUCED, unsafe] -/
def execTeamDone (team : Nat) (s : State) : Outcome State Fault Refusal :=
  .next <|
    match s.team? team with
    | none => s
    | some tm =>
      if tm.residence = .exited ∧ s.copiesDone tm then
        match s.stashBackAll tm.agent false 3#3 team (tm.dirtySectors fun _ => true) with
        | .error _ => s
        | .ok s =>
          let s := s.writeBackAll (dieOf tm.core)
          if s.remote.any fun r => issuerOfTeam r.who team then s
          else
            let s := s.modTeam team fun x => { x with residence := .done }
            let s := s.modCore tm.core fun u => { u with locks := u.locks.filter fun l => l.team ≠ team }
            (s.arbitrate tm.core).retireEnsemble tm.ensemble
      else s

/-- A gang leaves the semaphores on which it waits. -/
def State.leaveWaits (s : State) (u : Issuer) : State :=
  { s with
    parkWaiters := s.parkWaiters.filter fun w => w.who ≠ u
    ensembles := s.ensembles.map fun e =>
      { e with counters := e.counters.map fun c => { c with waiters := c.waiters.filter fun w => w.who ≠ u } } }

/-! ## Lines, promotions and invalidations (R232, R250, R282, R283, R390) -/

/-- `COALESCE_WINDOW_CLOSE`: 32 clocks after its allocation a miss-status entry closes to joining; its fill has served the loads that joined it, and the entry is free (R390). -/
def execCoalesceWindowClose (core line : Nat) (s : State) : Outcome State Fault Refusal :=
  .next <|
    let late := fun m : Miss => decide (m.key = line) && clocksPassed m.opened s.tick 32
    if (s.core core).misses.any late then s.modCore core fun c => { c with misses := c.misses.filter fun m => !late m } else s

/-- A die evicts a sector of its own accord: dirty bytes go to the memory side in a packet of the device's own (R243, R283, R412). -/
def State.evictSent (s : State) (die k : Nat) : State :=
  let chip := chipOf (128 * k)
  (if ((s.die die).sector? k).any fun x => x.dirty ≠ 0#128 then s.send (ownStamp die) (roundTrip die (chipPort chip) [sideQueue chip])
    else s).evict die k

/-- `CACHE_EVICTION`: a die evicts a line of its cache, its dirty bytes written back (R243, R283). [log 11: DESIGN CHOICE, unsafe] -/
def execCacheEviction (die line : Nat) (s : State) : Outcome State Fault Refusal :=
  .next (if die < 9 ∧ ((s.die die).sector? line).isSome then s.evictSent die line else s)

/-- Units that waited for a promotion of their own issue again when they have none left. -/
def State.wakePromoted (s : State) (u : Issuer) : State :=
  if s.promoting u then s
  else
    match u with
    | .gang t g => s.modGang t g fun v => v.retry s.tick fun w => w = .promotion
    | .seq n => s.modSeq n fun q => if q.status = .waiting .promotion then { q with status := .ready } else q

/-- `PROMOTION_ARRIVAL`: a promotion reaches a die, which writes back every dirty sector that it holds, with the slack of the instruction (R282, R412); while the pair is held it waits (R23). [log 6: DESIGN CHOICE, unsafe] -/
def execPromotionArrival (promotion die : Nat) (s : State) : Outcome State Fault Refusal :=
  .next <|
    match s.promotions.find? fun p => p.id = promotion with
    | none => s
    | some p =>
      if p.dies.contains die && !s.pairHeld p.stamp.port die then
        let s := s.settleDie p.stamp die
        let rest := p.dies.filter fun d => d ≠ die
        if rest = [] then
          { s with promotions := s.promotions.filter fun q => q.id ≠ promotion }.wakePromoted p.who
        else { s with promotions := replaceIf (fun q => q.id = promotion) (fun q => { q with dies := rest }) s.promotions }
      else s

/-- `BUSY` of R485 holds while an invalidation that the host began is on its way. -/
def State.clearBusy (s : State) : State := { s with icBusy := s.invals.any fun v => v.who.isNone }

/-- The die of a unit. -/
def State.dieOfUnit (s : State) (u : Issuer) : Nat :=
  match u with
  | .gang t _ => ((s.team? t).map fun x => dieOf x.core).getD 0
  | .seq n => n / 6

/-- `INVALIDATION_REACHES_CORE`: an instruction-cache invalidation reaches a core; when it has reached every core of its range, the unit that waits goes on, or `BUSY` of R485 clears (R232). [log 6: DESIGN CHOICE, unsafe] -/
def execInvalidationReachesCore (inval core : Nat) (s : State) : Outcome State Fault Refusal :=
  .next <|
    match s.invals.find? fun v => v.id = inval with
    | none => s
    | some v =>
      let from_ := (v.who.map s.dieOfUnit).getD ioPort
      if v.cores.contains core && !s.pairHeld from_ (dieOf core) then
        let s := s.icacheReach core
        let rest := v.cores.filter fun c => c ≠ core
        if rest = [] then
          let s := { s with invals := s.invals.filter fun w => w.id ≠ inval }
          match v.who with
          | some u => s.wake u
          | none => s.clearBusy
        else { s with invals := replaceIf (fun w => w.id = inval) (fun w => { w with cores := rest }) s.invals }
      else s

/-! ## Remote operations (R291 to R293, R302, R313) -/

/-- A lane of the result that awaits an atomic receives its old value. -/
def Result.receive (r : Result) (lane value : Nat) (poison : Bool) (flags : BitVec 5) : Result :=
  { r with
    flags := r.flags ||| flags
    vec := r.vec.mapIdx fun j w =>
      { w with
        data := Vector.ofFn fun l => if l.val = lane then BitVec.ofNat 32 (value / 2 ^ (32 * j)) else w.data[l]
        poison := if poison then w.poison ||| (1#32 <<< lane) else w.poison } }

/-- Deliver the old value of a remote atomic to the result that awaits it; a result whose operations are all performed may return. -/
def State.deliverRemote (s : State) (u : Issuer) (dest : Option (Nat × Nat)) (value : Nat) (poison : Bool) (flags : BitVec 5) : State :=
  match u, dest with
  | .gang t g, some (id, lane) =>
    let more := s.remote.any fun r => r.dest.any fun d => d.1 = id
    s.modGang t g fun v =>
      let take := fun (r : Result) => { r.receive lane value poison flags with waits := if more then r.waits else .none }
      { v with regs := { v.regs with pending := replaceIf (fun (r : Result) => decide (r.id = id)) take v.regs.pending } }
  | _, _ => s

/-- What waited for acknowledgements goes on: releases issue again, and a held unit whose own operations are performed is ready (R293, R302). -/
def State.wakeRemote (s : State) (u : Issuer) : State :=
  let s := s.retryAll fun w => w = .remote
  if s.remote.any fun r => decide (r.who = u) && r.holds then s
  else
    let held : Bool :=
      match u with
      | .gang t g => (s.gang? t g).any fun v => v.blockedIn fun b => b = .remoteRelease
      | .seq n =>
        match (s.seq n).status with
        | .blocked .remoteRelease _ => true
        | _ => false
    if held then s.wake u else s

/-- The acquire effect that comes with the performance of a unit's remote operations, once the last of those that bring it is performed or lost (R268, R270). -/
def State.acquirePerformed (s : State) (r : RemoteOp) : State :=
  match r.acq with
  | some sc => if s.remote.any fun q => decide (q.who = r.who) && q.acq.isSome then s else s.acquireBy r.who sc
  | none => s

/-- The remote operation leaves the list. -/
def State.dropRemote (s : State) (id : Nat) : State := { s with remote := s.remote.filter fun r => r.id ≠ id }

/-- A remote operation performed at its peer's memory side; the waiters of its words are tested (R420, R426). -/
def State.performRemote (s : State) (r : RemoteOp) : State :=
  match r.atomic with
  | none => (s.sideMerge r.sector r.mask r.data r.brings).serveWatches
  | some o =>
    let p := s.memPoison.contains r.sector
    let q := atomicAt o s.mem (128 * r.sector + lowest r.mask) p
    let s := ({ s with mem := q.1 }.deliverRemote r.who r.dest q.2.1 p q.2.2).serveWatches
    match r.who with
    | .gang t _ => if p && r.dest.isNone then s.postPoison (((s.team? t).map (·.core)).getD 0) r.va else s
    | .seq _ => s

/-- A remote operation is performed, and what waited for it goes on. -/
def State.completeRemote (s : State) (r : RemoteOp) : State :=
  (((s.dropRemote r.id).performRemote r).acquirePerformed r).wakeRemote r.who

/-- The fibre pair that an assignment gives a port, none for dark. -/
def fibreOf (asg : BitVec 384) (port : Nat) : Option Nat :=
  let b := (asg.extractLsb' (8 * port) 8).toNat
  if b = 255 then none else some b

/-- The module that an assignment connects a port to. -/
def Topology.reached (t : Topology) (asg : BitVec 384) (port : Nat) : Option Nat :=
  (fibreOf asg port).bind fun f => (t.far[f]?).join

/-- A Utium port carries nothing: a lane of it retrains, or it is reported dead (R491). -/
def State.portOut (s : State) (port : Nat) : Bool :=
  s.deadPorts.contains port || s.retrains.any fun r =>
    match r.lane with
    | .utium p _ => decide (p = port)
    | .router _ _ _ => false

/-- The traffic to a module is held: its circuit has ports, and none of them carries anything (R491). -/
def State.peerHeld (s : State) (peer : Nat) : Bool :=
  match s.topology with
  | none => false
  | some t =>
    let ps := (List.range 48).filter fun p => decide (t.reached s.assignment p = some peer)
    !ps.isEmpty && ps.all fun p => s.portOut p

/-- `REMOTE_WRITE_ACK`: a remote operation is performed at its peer and acknowledged (R291); those of one unit on common bytes in the order of issue (R269). While no port of the circuit carries anything, or the pair to the I/O die is held, it waits (R23, R491). [log 6: DESIGN CHOICE, unsafe] -/
def execRemoteWriteAck (op : Nat) (s : State) : Outcome State Fault Refusal :=
  .next <|
    match s.remote.find? fun r => r.id = op with
    | none => s
    | some r =>
      if s.peerHeld r.peer || s.pairHeld (s.dieOfUnit r.who) ioPort then s
      else if (s.remote.takeWhile fun q => q.id ≠ op).any fun q => q.touches r.who r.sector r.mask then s
      else s.completeRemote r

/-! ## Errors of sectors (R242, R260) -/

/-- `CORRECTABLE_ERROR`: an error of a chiplet is corrected and counted (R242). -/
def execCorrectableError (chip : Nat) (s : State) : Outcome State Fault Refusal :=
  .next (s.modChip chip fun c => { c with cecnt := if c.cecnt = BitVec.allOnes 32 then c.cecnt else c.cecnt + 1#32 })

/-- `SECTOR_POISON`: a varnish mismatch or an uncorrectable error in a data sector. At the memory side the sector is poisoned and the studio firmware is told; in a die's cache an uncorrectable error discards a clean sector and is a contained error in a dirty one, and a mismatch at its fill poisons the copy; a sector of a die's scratch or of a window is poisoned (R254, R259, R260, R448). [log 10: DESIGN CHOICE, unsafe] -/
def execSectorPoison (place : SectorPlace) (s : State) : Outcome State Fault Refusal :=
  .next <|
    match place with
    | .memory k => { s with memPoison := insertNat k s.memPoison, studioNotices := s.studioNotices + 1 }
    | .dieCopy d k =>
      match (s.die d).sector? k with
      | none => s
      | some x =>
        if x.dirty = 0#128 then s.modDie d fun e => { e with cache := e.cache.filter fun y => y.key ≠ k }
        else s.modDie d fun e => { e with error := e.error.or (some (2#8, BitVec.ofNat 16 (k / 4 % 32))) }
    | .dieFill d k =>
      match (s.die d).sector? k with
      | none => s
      | some x =>
        { s.modDie d fun e => e.setSector { x with poison := true } with studioNotices := s.studioNotices + 1 }
    | .dieScratch d k =>
      if 128 * k < scratchSize (s.die d).way then
        { s.modDie d fun e => { e with scratchPoison := insertNat k e.scratchPoison } with studioNotices := s.studioNotices + 1 }
      else s
    | .window t k =>
      if (s.team? t).any fun x => decide (128 * k < x.winSize) && x.residence == .resident then
        { s.modTeam t fun x => { x with winPoison := insertNat k x.winPoison } with studioNotices := s.studioNotices + 1 }
      else s

/-! ## Event queues (R366, R379) -/

/-- Wake the units of a cluster that wait for an event or whose time has passed. -/
def State.wakeEvwaits (s : State) (cluster : Nat) (p : Option Nat → Bool) : State :=
  match (s.seq cluster).status with
  | .blocked (.evwait u) _ => if p u then s.wake (.seq cluster) else s
  | _ => s

/-- The router port of the producer of event records: a core or sequencer, the master distributor, or the unit that holds a queue. -/
def State.producerPort (s : State) (n : Nat) : Nat :=
  if n < 2592 then dieOf n else if n < 4096 then (n - 2592) / 6 else if n < 8192 then s.masterPort else (n - 8192) / 64

/-- `EVENT_POST`: a record arrives at its cluster's queue, unless the pair that carries it is held (R23); the records of one producer in the order of their posting (R366). [log 6: DESIGN CHOICE, unsafe] -/
def execEventPost (post : Nat) (s : State) : Outcome State Fault Refusal :=
  .next <|
    match s.posts.find? fun p => p.id = post with
    | none => s
    | some p =>
      if s.pairHeld (s.producerPort p.producer) (p.cluster / 6) then s
      else if (s.posts.takeWhile fun q => q.id ≠ post).any fun q => decide (q.cluster = p.cluster ∧ q.producer = p.producer) then s
      else
        let s := { s with posts := s.posts.filter fun q => q.id ≠ post }
        let s := s.modSeq p.cluster fun q =>
          if q.events.length ≥ eventCapacity then { q with drops := q.drops + 1 } else { q with events := q.events ++ [p.record] }
        s.wakeEvwaits p.cluster fun _ => true

/-- `EVWAIT_TIMEOUT`: the limit of an `evwait` has passed (R379). -/
def execEvwaitTimeout (seq : Nat) (s : State) : Outcome State Fault Refusal :=
  .next (s.wakeEvwaits seq fun u => u.any fun n => n ≤ (s.tickOf (unitOfSeq seq)).toNat)

end Sys2Proof.Machine
end

