-- ==== Sys2Proof/Machine/Frames.lean ====
section
/-! DEFINITION. Context save and restore: the gang and team frames, the saves for faults, for the debugger and of parked ensembles, and the restores (R161, R162, R257, R258, R423, R440 to R445). -/

namespace Sys2Proof.Machine

open Host (Outcome)

/-! ## Frames in memory (R256, R258) -/

/-- Bytes of a frame slot (R256). -/
def slotBytes : Nat := 0x213000

/-- Frame slots of a context (R256). -/
def Ctx.nslot (c : Ctx) : Nat := (c.frame.extractLsb' 56 8).toNat

/-- Address of a frame slot (R256). -/
def Ctx.slotVa (c : Ctx) (k : Nat) : Nat := (c.frame.extractLsb' 12 44).toNat * 4096 + slotBytes * k

/-- The lowest frame slot that is free (R440). -/
def Ctx.freeSlot (c : Ctx) : Option Nat := (List.range c.nslot).find? fun k => !c.slots.contains k

/-- Write bytes of a frame sector by sector; none where a sector's page does not take it. [log 39: DEDUCED, unsafe] -/
def State.putFrame (s : State) (ctx va : Nat) : (n : Nat) → List Byte → Option State
  | 0, _ => some s
  | n + 1, bs =>
    match bs with
    | [] => some s
    | _ => (s.masterWrite ctx va (bs.take 128)).bind fun s => s.putFrame ctx (va + 128) n (bs.drop 128)

/-- Read `n` sectors of a frame; none where a page does not give it or a sector is poisoned. [log 39: DEDUCED, unsafe] -/
def State.getFrame (s : State) (ctx va : Nat) : (n : Nat) → Option (List Byte)
  | 0 => some []
  | n + 1 =>
    match s.masterPa ctx va 1#3 with
    | none => none
    | some pa =>
      if s.memPoison.contains (pa / 128) then none
      else (s.getFrame ctx (va + 128) n).map fun bs => memBytes s.mem pa 128 ++ bs

/-- Round up to a multiple of 128. -/
def up128 (n : Nat) : Nat := (n + 127) / 128 * 128

/-- A list of bytes, padded with zeros to `n`. -/
def padTo (n : Nat) (bs : List Byte) : List Byte := bs ++ List.replicate (n - bs.length) 0#8

/-! ## The gang frame (R161, R162) -/

/-- State of a saved gang and its pending count: 1 in its handler, 2 blocked in `rgrow.wait`. -/
def Gang.savedState (v : Gang) : Nat × Nat :=
  match v.handler, v.status with
  | some _, _ => (1, 0)
  | none, .blocked (.rgrow n) _ => (2, n)
  | none, _ => (0, 0)

/-- The tag under which a register is saved; a register with poison needs its mask. -/
def VReg.savedTag (r : VReg) : Tag := if r.poison = 0#32 then r.shape else .general

/-- Code of a tag in a frame (R144). -/
def Tag.bits : Tag → Nat
  | .uniform => 0
  | .affine => 1
  | .general => 2

/-- Bytes of a register's record (R162). -/
def recordSize (code : Nat) : Nat :=
  match code with
  | 0 => 4
  | 1 => 8
  | _ => 132

/-- A register's record. -/
def VReg.record (r : VReg) : List Byte :=
  match r.savedTag with
  | .uniform => bytesOf r.lanes[0].toNat 4
  | .affine => bytesOf r.lanes[0].toNat 4 ++ bytesOf (r.lanes[1] - r.lanes[0]).toNat 4
  | .general => (r.lanes.toList.flatMap fun v => bytesOf v.toNat 4) ++ bytesOf r.poison.toNat 4

/-- The 256 bits of R160 that a frame stores for a translation register. -/
def Trans.bits (t : Trans) : BitVec 256 :=
  0#96 ++ t.lim ++ 0#1 ++ t.cp ++ t.cc ++ BitVec.ofBool t.vis ++ t.xwr ++ BitVec.ofBool t.v ++ t.pa ++ 0#8 ++ t.va

/-- The quad byte at offset 0x090. -/
def Quad.saved (q : Quad) (state : Nat) : Nat :=
  q.sub.toNat + (if q.wait then 8 else 0) + (if q.trapped ∧ state = 1 then 16 else 0)

/-- A gang's frame (R161). [log 39: DEDUCED, unsafe] -/
def Gang.frame (v : Gang) : List Byte :=
  let st := v.savedState
  let live := v.liveQuads
  let quads := fun (f : Fin 8 → Nat) (n : Nat) => (List.finRange 8).flatMap fun (q : Fin 8) => bytesOf (if live.getLsbD q then f q else 0) n
  let records := v.vregs.flatMap VReg.record
  let size := up128 (0x500 + records.length)
  let tags := (v.vregs.map fun r => r.savedTag.bits).foldr (fun c n => c + 4 * n) 0
  padTo size <|
    bytesOf size 8 ++ bytesOf v.alloc 4 ++ bytesOf v.live.toNat 4 ++
    quads (fun q => v.quads[q].pc.toNat) 8 ++ quads (fun q => v.quads[q].csp.toNat) 8 ++
    ((List.finRange 8).flatMap fun (q : Fin 8) => bytesOf (if live.getLsbD q then v.quads[q].saved st.1 else q.val) 1) ++
    quads (fun q => v.quads[q].rejoin.toNat) 4 ++
    bytesOf v.regs.fpflags.toNat 4 ++ bytesOf v.regs.fpctl.toNat 4 ++ bytesOf (v.regs.k.toNat % 128) 1 ++ bytesOf st.1 1 ++
    bytesOf st.2 2 ++ bytesOf v.regs.trapcause.toNat 4 ++ bytesOf v.regs.trapdetail.toNat 8 ++ bytesOf v.regs.trappc.toNat 8 ++
    bytesOf 0 8 ++ bytesOf v.displaced.toNat 16 ++ bytesOf 0 16 ++
    (v.regs.s.toList.flatMap fun x => bytesOf x.toNat 8) ++ bytesOf v.regs.poisonLo.toNat 8 ++ bytesOf v.regs.poisonHi.toNat 8 ++
    ((List.range 7).flatMap fun i => bytesOf (v.pred (BitVec.ofNat 3 i)).toNat 4) ++ bytesOf 0 4 ++
    (v.trans.toList.flatMap fun t => bytesOf t.bits.toNat 32) ++
    (v.srctr.toList.flatMap fun x => bytesOf x.toNat 4) ++ bytesOf tags 64 ++ bytesOf 0 16 ++ records

/-- Tag code of register `r` in a frame. -/
def frameTag (v r : Nat) : Nat := sliceNat v 0x4B0 64 / 4 ^ r % 4

/-- Offset of the record of register `r` from the frame. -/
def recordAt (v : Nat) : Nat → Nat
  | 0 => 0x500
  | r + 1 => recordAt v r + recordSize (frameTag v r)

/-- The quads of a frame with a live lane. -/
def frameLive (v : Nat) : QuadMask := laneQuads (BitVec.ofNat 32 (sliceNat v 0x0C 4))

/-- The quad byte of quad `q`. -/
def frameQuad (v q : Nat) : Nat := sliceNat v (0x90 + q) 1

/-- The fields that the quads of one sub-gang have in common. -/
def frameGroup (v q : Nat) : Nat × Nat × Nat := (sliceNat v (0x10 + 8 * q) 8, frameQuad v q / 8, sliceNat v (0x98 + 4 * q) 4)

/-- The live quads of a frame describe sub-gangs (R162), at program counters that a quad may have (R67); that a frame with another fails to be restored is the model's choice (log 39). [log 39: DEDUCED, unsafe] -/
def quadsOk (v : Nat) : Bool :=
  let live := (List.range 8).filter fun q => (frameLive v).getLsbD q
  let low := fun q => frameQuad v q % 8
  let state := sliceNat v 0xC1 1
  let trapped := live.filter fun q => frameQuad v q / 16 % 2 = 1
  (live.all fun q =>
    live.contains (low q) && decide (low q ≤ q ∧ low (low q) = low q) && frameGroup v q == frameGroup v (low q) &&
      decide (frameQuad v q < 32) && decide (sliceNat v (0x10 + 8 * q) 8 < 2 ^ 56 ∧ sliceNat v (0x10 + 8 * q) 8 % 16 = 0)) &&
    (if state = 1 then
      match trapped with
      | [] => false
      | q :: _ => trapped.all fun r => low r = low q
     else trapped.isEmpty)

/-- The reserved fields of a gang frame are zero (R161, R162); that a value which no gang can have, in `%fpctl` and the state byte, fails the restore too is the model's choice (log 39). [log 39: DEDUCED, unsafe] -/
def reservedOk (v : Nat) : Bool :=
  let a := sliceNat v 8 4
  sliceNat v 0xB8 4 < 32 && sliceNat v 0xBC 4 < 6 && sliceNat v 0xC0 1 < 128 && sliceNat v 0xC1 1 < 3 && sliceNat v 0xD8 8 == 0 &&
    sliceNat v 0xF0 16 == 0 && sliceNat v 0x32C 4 == 0 && sliceNat v 0x4F0 16 == 0 && sliceNat v 0x4B0 64 / 4 ^ a == 0 &&
    (List.range 8).all fun i =>
      sliceNat v (0x330 + 32 * i + 20) 12 == 0 && sliceNat v (0x330 + 32 * i + 15) 1 < 128 && sliceNat v (0x330 + 32 * i + 7) 1 == 0

/-- A gang frame that a restore accepts (R162); that an allocation outside 8 to 256 fails it is the model's choice (log 39). [log 39: DEDUCED, unsafe] -/
def frameOk (v : Nat) : Bool :=
  let a := sliceNat v 8 4
  decide (8 ≤ a ∧ a ≤ 256) && reservedOk v && ((List.range a).all fun r => frameTag v r < 3) &&
    decide (sliceNat v 0 8 = up128 (recordAt v a)) && quadsOk v

/-- A register from its record. -/
def vregOfFrame (v tick r : Nat) : VReg :=
  let o := recordAt v r
  let word := fun i => sliceNat v (o + 4 * i) 4
  { VReg.reset with
    used := tick
    tag := match frameTag v r with
      | 0 => .uniform
      | 1 => .affine
      | _ => .general
    lanes := Vector.ofFn fun l =>
      BitVec.ofNat 32 (match frameTag v r with
        | 0 => word 0
        | 1 => word 0 + word 1 * l.val
        | _ => word l.val)
    poison := if frameTag v r = 2 then BitVec.ofNat 32 (word 32) else 0#32 }

/-- A translation register from its bits. While the team is saved, `V` of the register that the model keeps says that no invalidation and no change of epoch has met it since the save (R160, R406). [log 39: DEDUCED, unsafe] -/
def transOfBits (b : BitVec 256) (old : Trans) : Trans :=
  ⟨b.extractLsb' 128 32, b.extractLsb' 125 2, b.extractLsb' 121 4, b.getLsbD 120, b.extractLsb' 117 3, b.getLsbD 116 && old.v,
    b.extractLsb' 64 52, b.extractLsb' 0 56⟩

/-- A gang as its frame gives it; what no frame holds is as it was at the save, but for its scheduler's marks, which begin anew. [log 39: DEDUCED, unsafe] -/
def gangOfFrame (v tick order : Nat) (old : Gang) : Gang :=
  let a := sliceNat v 8 4
  let live := frameLive v
  let state := sliceNat v 0xC1 1
  { old with
    alloc := a
    vregs := (List.range a).map fun r => vregOfFrame v tick r
    preds := Vector.ofFn fun i => if i.val < 7 then BitVec.ofNat 32 (sliceNat v (0x310 + 4 * i.val) 4) else old.preds[i]
    trans := Vector.ofFn fun i => transOfBits (BitVec.ofNat 256 (sliceNat v (0x330 + 32 * i.val) 32)) old.trans[i]
    quads := Vector.ofFn fun q =>
      let u := old.quads[q]
      if live.getLsbD q then
        let b := frameQuad v q.val
        { pc := BitVec.ofNat 56 (sliceNat v (0x10 + 8 * q.val) 8), csp := BitVec.ofNat 64 (sliceNat v (0x50 + 8 * q.val) 8)
          sub := BitVec.ofNat 3 b, wait := b / 8 % 2 = 1, rejoin := BitVec.ofNat 32 (sliceNat v (0x98 + 4 * q.val) 4)
          trapped := b / 16 % 2 = 1, skipped := u.skipped }
      else u
    live := BitVec.ofNat 32 (sliceNat v 0x0C 4)
    srctr := Vector.ofFn fun l => BitVec.ofNat 32 (sliceNat v (0x430 + 4 * l.val) 4)
    regs :=
      { s := Vector.ofFn fun i => BitVec.ofNat 64 (sliceNat v (0x100 + 8 * i.val) 8)
        poisonLo := BitVec.ofNat 64 (sliceNat v 0x300 8), poisonHi := BitVec.ofNat 64 (sliceNat v 0x308 8)
        k := BitVec.ofNat 8 (sliceNat v 0xC0 1), fpflags := BitVec.ofNat 5 (sliceNat v 0xB8 4)
        fpctl := BitVec.ofNat 3 (sliceNat v 0xBC 4), trapcause := BitVec.ofNat 32 (sliceNat v 0xC4 4)
        trapdetail := BitVec.ofNat 64 (sliceNat v 0xC8 8), trappc := BitVec.ofNat 64 (sliceNat v 0xD0 8), pending := [] }
    displaced := BitVec.ofNat 128 (sliceNat v 0xE0 16)
    handler := if state = 1 then some (BitVec.ofNat 8 (sliceNat v 0xC4 4)) else none
    status := if state = 2 then .blocked (.rgrow (sliceNat v 0xC2 2)) order else .ready
    readySince := tick
    aged := false
    delay := none
    yielded := false
    otherWait := 0
    otherSince := none }

/-- A `GO` cannot let a gang go on at a `%trappc` that no quad can have (R67): its frame then fails to be restored (log 41). [log 41: DEDUCED, unsafe] -/
def Gang.resumeBad (v : Gang) : Bool := v.handler.isSome && v.regs.trapcause == 2#32 && v.regs.trappc.extractLsb' 0 4 != 0#4

/-- A gang that a `brk` stopped for the debugger goes on as `MODE` says (R444, R445). -/
def Gang.resumeAs (v : Gang) (mode : BitVec 2) : Gang :=
  if v.handler.isSome ∧ v.regs.trapcause = 2#32 then
    let tp := v.regs.trappc.extractLsb' 0 56
    v.leave (if mode = 1#2 then tp + 16#56 else tp) (mode = 2#2)
  else v

/-! ## The team frame (R257) -/

/-- Offsets of the gangs' frames, 0 for a gang that has retired, and the frames. -/
def gangFrames : List Gang → Nat → List Nat × List Byte
  | [], _ => ([], [])
  | v :: vs, o =>
    if v.status = .retired then
      let r := gangFrames vs o
      (0 :: r.1, r.2)
    else
      let f := v.frame
      let r := gangFrames vs (o + f.length)
      (o :: r.1, f ++ r.2)

/-- The header of a team frame. -/
def State.teamHeader (s : State) (tm : Team) (offsets : List Nat) : List Byte :=
  let granules := ((List.range 32).map fun i => ((tm.tileOf (BitVec.ofNat 5 i)).map (·.granules.length)).getD 0).sum
  let lid := ((s.launch? tm.launch).map (·.lid.toNat)).getD 0
  bytesOf lid 8 ++ bytesOf tm.x.toNat 4 ++ bytesOf tm.y.toNat 4 ++ bytesOf tm.z.toNat 4 ++ bytesOf tm.stage.toNat 4 ++
    bytesOf tm.deadline.toNat 8 ++ bytesOf tm.srseed.toNat 8 ++ bytesOf tm.slack.toNat 4 ++ bytesOf tm.gangs.length 4 ++
    bytesOf tm.winSize 4 ++ bytesOf granules 4 ++ bytesOf tm.trapvec.toNat 8 ++
    (tm.stash.toList.flatMap fun p =>
      match p with
      | some q => bytesOf q.w 4 ++ bytesOf q.n 4 ++ bytesOf q.va.toNat 8
      | none => bytesOf 0 16) ++
    bytesOf 0 128 ++ ((List.range 32).flatMap fun i => bytesOf (s.paletteEntry tm (BitVec.ofNat 5 i)).toNat 8) ++
    padTo 256 (offsets.flatMap fun o => bytesOf o 8) ++ bytesOf ((tm.winPoison.map fun k => 2 ^ k).sum) 512

/-- Granules of a team in ascending handle order (R257). -/
def Team.savedGranules (tm : Team) : List Granule :=
  (List.range 32).flatMap fun i => ((tm.tileOf (BitVec.ofNat 5 i)).map (·.granules)).getD []

/-- Write a team's frame to a slot of its context; none where the frame area does not take it (R257, R258). [log 39: DEDUCED, unsafe] -/
def State.writeFrame (s : State) (tm : Team) (va : Nat) : Option State :=
  let f := gangFrames tm.gangs 0x500
  let head := s.teamHeader tm f.1 ++ f.2
  let window := memBytes tm.window 0 tm.winSize
  let tensor := tm.savedGranules.flatMap fun g => bytesOf g.data.toNat 2048
  (s.putFrame tm.ctx va (head.length / 128 + 1) head).bind fun s =>
    (s.putFrame tm.ctx (va + 0x113000) (window.length / 128 + 1) window).bind fun s =>
      s.putFrame tm.ctx (va + 0x193000) (tensor.length / 128 + 1) tensor

/-! ## Saves (R258, R396, R422, R426, R440, R443, R445) -/

/-- Back out a gang at a save: one blocked in an instruction stands before it again, and only a request of registers is kept (R440). [log 39: DEDUCED, unsafe] -/
def State.backOut (s : State) (t g : Nat) : State :=
  match s.gang? t g with
  | none => s
  | some v =>
    let u : Issuer := .gang t g
    let back := { (v.setPc v.blockQuads v.blockPc).settle with status := .ready, swLater := false }
    match v.status with
    | .retired => s
    | .blocked (.rgrow _) _ => if v.handler.isSome then s.setGang t g back else s.setGang t g v.settle
    | .blocked (.talloc h _ _ before) _ => (s.setGang t g back).modTeam t fun x => x.setHandle h before
    | .blocked (.semPair _ _) _ | .blocked (.semPark _) _ => (s.setGang t g back).leaveWaits u
    | .blocked (.bar b) _ =>
      (s.setGang t g back).modTeam t fun x =>
        let v := vget x.barriers b ⟨0, 0, false, false⟩
        { x with barriers := vset x.barriers b { v with arrivals := v.arrivals - 1 } }
    | .blocked _ _ => s.setGang t g back
    | _ => s.setGang t g { v.settle with status := .ready }

/-- Back out every gang of a team. -/
def State.backOutAll (s : State) (t n : Nat) : State := (List.range n).foldl (fun s g => s.backOut t g) s

/-- What a save of a team still waits for: results, held traps, operations that are under way, commands, and records that no ring has taken (R325, R367, R440). -/
def State.saveWaits (s : State) (tm : Team) : Bool :=
  (tm.gangs.any fun v => v.status != .retired &&
    (!v.regs.pending.isEmpty || v.heldTrap.isSome || v.blockedIn fun b =>
      match b with
      | .remoteRelease | .icinv _ => true
      | _ => false)) ||
  ((s.core tm.core).commands.any fun c => decide (c.team = tm.tid)) ||
  (s.fabricWaiting.any fun w => decide (w.team = tm.tid) && decide (w.slot < 0x10000)) ||
  (s.ctx? tm.ctx).any fun c => c.waiting.any fun w => decide (w.team = tm.tid)

/-- The translation registers of a saved gang begin to watch for invalidations (R160, R406). -/
def Gang.watchTrans (v : Gang) : Gang := { v with trans := Vector.ofFn fun i => { v.trans[i] with v := true } }

/-- A saved team's core is free of it. What its frame holds is restored from there. -/
def State.vacate (s : State) (t slot : Nat) (debug parked : Bool) : State :=
  match s.team? t with
  | none => s
  | some tm =>
    let s := s.modTeam t fun x =>
      { x with
        gangs := x.gangs.map Gang.watchTrans
        residence := .saved slot debug parked, window := [], winPoison := [], stash := Vector.ofFn fun _ => none, sectors := []
        tiles := [], handles := Vector.ofFn fun _ => Handle.reset }
    (s.arbitrate tm.core).arbitrateSlots tm.core

/-- Steps 5 and 6 of R440 for a team whose gangs are backed out: the stash is written back and the frame is written. -/
def State.saveTeam (s : State) (t slot : Nat) : Option State :=
  match s.team? t with
  | none => none
  | some tm =>
    match s.stashBackAll tm.agent false 0#3 t (tm.dirtySectors fun _ => true) with
    | .error _ => none
    | .ok s =>
      match s.team? t, s.ctx? tm.ctx with
      | some tm, some c => s.writeFrame tm (c.slotVa slot)
      | _, _ => none

/-- A frame slot is taken. -/
def State.takeSlot (s : State) (ctx k : Nat) : State := s.modCtx ctx fun c => { c with slots := insertNat k c.slots }

/-- A frame slot is free again. -/
def State.freeSlot (s : State) (ctx k : Nat) : State :=
  s.modCtx ctx fun c => { c with slots := dropNat k c.slots, held := c.held &&& ~~~(1#256 <<< k) }

/-- The end of a save: the team leaves its core, or a fault of the frame ends its context (R258). A team saved for the debugger shows in the held-slot register, and the host is interrupted (R445). -/
def State.finishSave (s : State) (tm : Team) (slot : Nat) (debug : Bool) : State :=
  match (s.backOutAll tm.tid tm.gangs.length).saveTeam tm.tid slot with
  | none => s.endContext tm.ctx
  | some s =>
    let s := s.vacate tm.tid slot debug false
    if debug then s.modCtx tm.ctx fun c => { c with held := c.held ||| (1#256 <<< slot), interrupt := true }
    else s

/-- The record of a faulting gang (R367). -/
def State.faultBytes (s : State) (tm : Team) (va : BitVec 56) (acc : BitVec 3) (slot : Nat) : List Byte :=
  recordBytes 1 acc.toNat slot (((s.launch? tm.launch).map (·.lid.toNat)).getD 0) (s.teamNo tm).toNat va.toNat s.tick

/-- Records of the fabric fault queue's ring (R344). [log 42: DESIGN CHOICE, unsafe] -/
def fabricSize : Nat := 64 * 2 ^ Config.fabricLog.val

/-- Write a record to the ring of the fabric fault queue (R344, R367). A record of a mover's chain has a slot of its own kind. [log 42: DESIGN CHOICE, unsafe] -/
def State.writeFabric (s : State) (w : WaitingRecord) : State :=
  let idx := s.fabricNext
  let r : FaultRecord := ⟨idx, w.team, w.gang, w.slot, w.epoch⟩
  let ring := s.fabricRing ++ [w.bytes]
  let s := { s with
    fabricRing := ring.drop (ring.length - fabricSize), fabricNext := (idx + 1) % 2 ^ 32, fabricOut := s.fabricOut ++ [r] }
  if w.slot = 0xFFFF then s.modGang w.team w.gang fun v => { v with status := .held true idx }
  else if w.slot < 0x10000 then s.modTeam w.team fun x => { x with records := x.records ++ [(true, idx)] }
  else
    let mine := fun (c : Registration) => decide (c.mover = (w.slot - 0x10000) / 16 ∧ c.slot = (w.slot - 0x10000) % 16)
    { s with registrations := replaceIf mine (fun c => { c with unlit := some idx }) s.registrations }

/-- Room in the fabric fault queue: fewer records than its size are not yet served. [log 42: DESIGN CHOICE, unsafe] -/
def State.fabricRoom (s : State) : Bool := decide (s.fabricOut.length < 64) || decide (s.fabricOut.length < fabricSize)

/-- Write waiting records to the fabric fault queue in order until it has no room (R367). [log 42: DESIGN CHOICE, unsafe] -/
def State.drainFabric (s : State) : List WaitingRecord → State
  | [] => { s with fabricWaiting := [] }
  | w :: ws => if s.fabricRoom then (s.writeFabric w).drainFabric ws else { s with fabricWaiting := w :: ws }

/-- Write a record to the fabric fault queue, or keep it until there is room: no fault is lost (R367). [log 42: DESIGN CHOICE, unsafe] -/
def State.fabricRecord (s : State) (w : WaitingRecord) : State := s.drainFabric (s.fabricWaiting ++ [w])

/-- An index that no record has: the gang's record waits for the ring. -/
def noRecord : Nat := 2 ^ 32

/-- The epoch in which the fault that stops a gang was raised (R430). -/
def Gang.faultEpoch (v : Gang) : W64 :=
  match v.status with
  | .faulted _ e => e
  | _ => 0#64

/-- Post the record of a gang stopped by a fault, under the slot of its team's save; with no slot the gang is held (R258, R440). -/
def State.postFault (s : State) (tm : Team) (g : Nat) (t : Trap) (slot : Nat) : State :=
  let epoch := ((s.gang? tm.tid g).map Gang.faultEpoch).getD 0#64
  let s := s.modGang tm.tid g fun v => { v with status := if slot = 0xFFFF then .held false noRecord else .ready }
  match t with
  | .page va acc => s.faultRecord tm.ctx ⟨s.faultBytes tm va acc slot, tm.tid, g, slot, epoch⟩
  | .circuit va acc => s.fabricRecord ⟨s.faultBytes tm va acc slot, tm.tid, g, slot, epoch⟩
  | .coded _ _ => s

/-- The first gang of a team that a fault has stopped, with its earlier results returned. -/
def Team.faultedGang (x : Team) : Option (Nat × Trap) :=
  x.gangs.zipIdx.findSome? fun p =>
    match p.1.status with
    | .faulted t _ => if p.1.regs.pending = [] then some (p.2, t) else none
    | _ => none

/-- `CONTEXT_SAVE`: the next part of a team's save. The slot is taken and the record written for the gang that faults first; the records of further gangs follow; and once the team is quiet its frame is written (R440, R443, R445). -/
def execContextSave (team : Nat) (s : State) : Outcome State Fault Refusal :=
  .next <|
    match s.team? team with
    | none => s
    | some tm =>
      match s.ctx? tm.ctx with
      | none => s
      | some c =>
        if c.ending then s
        else
          match tm.residence, tm.faultedGang with
          | .resident, some (g, t) =>
            match c.freeSlot with
            | some k => ((s.takeSlot tm.ctx k).modTeam team fun x => { x with residence := .saving k false }).postFault tm g t k
            | none => s.postFault tm g t 0xFFFF
          | .resident, none =>
            if tm.gangs.any fun v => v.status = .debug then
              match c.freeSlot with
              | some k => (s.takeSlot tm.ctx k).modTeam team fun x => { x with residence := .saving k true }
              | none => s
            else s
          | .saving k _, some (g, t) => s.postFault tm g t k
          | .saving k debug, none => if s.saveWaits tm then s else s.finishSave tm k debug
          | _, _ => s

/-! ## Restores (R162, R257, R442) -/

/-- Type of a palette entry's `TYP`. -/
def typOf (n : Nat) : Ty :=
  match n with
  | 1 => .f64
  | 2 => .x96
  | _ => .f32

/-- Palette entry of handle `i` in a frame. -/
def framePalette (v i : Nat) : Nat := sliceNat v (0x100 + 8 * i) 8

/-- State code of a palette entry. -/
def entrySt (e : Nat) : Nat := e % 16
/-- A palette entry holds a tile. -/
def entryHolds (e : Nat) : Bool := entrySt e = 1 || entrySt e = 2
/-- Word columns of a palette entry's tile, in its type. -/
def entryCols (e : Nat) : Nat := 8 * (e / 2 ^ 16 % 128)
/-- Type of a palette entry. -/
def entryTy (e : Nat) : Ty := typOf (e / 2 ^ 14 % 4)
/-- Granules of a palette entry. -/
def entryGranules (e : Nat) : Nat := if entryHolds e then granuleCount (entryTy e) (entryCols e) else 0

/-- A palette entry that a save can have written (R392, R396). -/
def entryOk (e : Nat) : Bool :=
  (entrySt e == 0 || entrySt e == 1 || entrySt e == 2 || entrySt e == 4) && e / 2 ^ 32 == 0 && e / 2 ^ 14 % 4 != 3 &&
    e / 2 ^ 24 % 256 == entryGranules e

/-- The header of a frame is one of this team (R257). [log 39: DEDUCED, unsafe] -/
def State.headerOk (s : State) (tm : Team) (v : Nat) : Bool :=
  sliceNat v 0 8 == ((s.launch? tm.launch).map (·.lid.toNat)).getD 0 && sliceNat v 0x28 4 < 4096 &&
    sliceNat v 0x2C 4 == tm.gangs.length && sliceNat v 0x30 4 == tm.winSize &&
    sliceNat v 0x34 4 == ((List.range 32).map fun i => entryGranules (framePalette v i)).sum && sliceNat v 0x80 128 == 0 &&
    ((List.range 32).all fun i => entryOk (framePalette v i)) &&
    (List.range 32).all fun i =>
      let o := sliceNat v (0x200 + 8 * i) 8
      o == 0 || (decide (i < tm.gangs.length) && o % 128 == 0 && decide (0x500 ≤ o ∧ o < 0x113000))

/-- The handle of a palette entry, its tile under a name. -/
def handleOfEntry (e id : Nat) : Handle where
  st :=
    match entrySt e with
    | 1 => .owned
    | 2 => .given
    | 4 => .released
    | _ => .unallocated
  own := BitVec.ofNat 5 (e / 16)
  dest := BitVec.ofNat 5 (e / 512)
  ty := if entrySt e = 0 then .none else entryTy e
  nc := e / 2 ^ 16 % 128
  tile := if entryHolds e then some id else none

/-- The tiles of a palette image, in handle order, from the bytes of the tensor image. [log 39: DEDUCED, unsafe] -/
def tilesOfFrame (v base : Nat) (img : List Byte) : List Tile :=
  ((List.range 32).foldl (fun (r : List Tile × List Byte) i =>
    let e := framePalette v i
    let n := entryGranules e
    if entryHolds e then
      let gs := (List.range n).map fun k =>
        (⟨BitVec.ofNat 16384 (natOf ((r.2.drop (2048 * k)).take 2048)), e / 2 ^ 23 % 2 = 1⟩ : Granule)
      (r.1 ++ [⟨base + i, entryTy e, entryCols e, gs, false⟩], r.2.drop (2048 * n))
    else r) ([], img)).1

/-- The gang frame at an address, which a restore accepts (R162). -/
def State.frameAt (s : State) (ctx va : Nat) : Option Nat :=
  match s.getFrame ctx va 10 with
  | none => none
  | some fixed =>
    let n := sliceNat (natOf fixed) 0 8 / 128
    if n > 274 then none
    else
      match s.getFrame ctx va n with
      | none => none
      | some bytes => if frameOk (natOf bytes) then some (natOf bytes) else none

/-- The gangs of a frame, whose own frames lie in gang order from offset `low` on (R257); none where one breaks R162. -/
def State.gangsOfFrame (s : State) (ctx va v order low : Nat) : List Gang → Nat → Option (List Gang)
  | [], _ => some []
  | g :: gs, i =>
    let o := sliceNat v (0x200 + 8 * i) 8
    if o = 0 then (s.gangsOfFrame ctx va v order low gs (i + 1)).map fun rest => g.retire :: rest
    else if o < low then none
    else
      match s.frameAt ctx (va + o) with
      | none => none
      | some f =>
        let next := o + sliceNat f 0 8
        if next > 0x113000 then none
        else (s.gangsOfFrame ctx va v order next gs (i + 1)).map fun rest => gangOfFrame f s.tick (order + i) g :: rest

/-- Schedulers for the gangs of a team that returns to a core, one gang after another on the scheduler of the least load, as at a start (R46; log 39). [log 39: DEDUCED, unsafe] -/
def State.spread (s : State) (core : Nat) (gangs : List Gang) : List Gang :=
  let place := fun (r : List Gang × List Nat) (v : Gang) =>
    if v.status = .retired then (r.1 ++ [v], r.2)
    else
      let k := leastLoaded r.2
      (r.1 ++ [{ v with sched := BitVec.ofNat 2 k }], setNth ((r.2[k]?).getD 0 + 1) r.2 k)
  (gangs.foldl place ([], (List.range 4).map fun i => s.schedLoad core (BitVec.ofNat 2 i))).1

/-- The cells of an image of bytes. -/
def cellsOf (bs : List Byte) : List Host.Cell := memPutBytes [] 0 bs

/-- A saved team as its frame gives it; none where the frame cannot be read or breaks its layout (R162, R258). -/
def State.teamOfFrame (s : State) (tm : Team) (va : Nat) : Option Team :=
  match s.getFrame tm.ctx va 10 with
  | none => none
  | some hb =>
    let v := natOf hb
    if s.headerOk tm v then
      match s.gangsOfFrame tm.ctx va v s.ids 0x500 tm.gangs 0, s.getFrame tm.ctx (va + 0x113000) (tm.winSize / 128),
          s.getFrame tm.ctx (va + 0x193000) (16 * sliceNat v 0x34 4) with
      | some gangs, some window, some tensor =>
        if tm.resume.isSome && gangs.any Gang.resumeBad then none
        else some
          { tm with
            x := BitVec.ofNat 32 (sliceNat v 8 4), y := BitVec.ofNat 32 (sliceNat v 0xC 4), z := BitVec.ofNat 32 (sliceNat v 0x10 4)
            stage := BitVec.ofNat 32 (sliceNat v 0x14 4), deadline := BitVec.ofNat 64 (sliceNat v 0x18 8)
            srseed := BitVec.ofNat 64 (sliceNat v 0x20 8), slack := BitVec.ofNat 12 (sliceNat v 0x28 4)
            trapvec := BitVec.ofNat 64 (sliceNat v 0x38 8)
            stash := Vector.ofFn fun i =>
              let o := 0x40 + 16 * i.val
              if sliceNat v (o + 4) 4 = 0 then none
              else some ⟨sliceNat v o 4, BitVec.ofNat 64 (sliceNat v (o + 8) 8), sliceNat v (o + 4) 4⟩
            sectors := []
            window := cellsOf window
            winPoison := (List.range (tm.winSize / 128)).filter fun k => sliceNat v 0x300 512 / 2 ^ k % 2 = 1
            handles := Vector.ofFn fun i => handleOfEntry (framePalette v i.val) (s.ids + 32 + i.val)
            tiles := tilesOfFrame v (s.ids + 32) tensor
            gangs := gangs.map fun g =>
              match tm.resume with
              | some mode => g.resumeAs mode
              | none => g
            resume := none
            residence := .resident }
      | _, _, _ => none
    else none

/-- What a restored team takes of its core (R147, R442). -/
def Team.room (x : Team) : Room :=
  ⟨1, (x.gangs.filter fun v => v.status ≠ .retired).length, (x.gangs.map Gang.slots).sum, x.winSize / 2048, max x.reserve x.held⟩

/-- A room holds one team. -/
def Room.takes (r need : Room) : Bool :=
  decide (need.places ≤ r.places ∧ need.gangs ≤ r.gangs ∧ need.slots ≤ r.slots ∧ need.scratch ≤ r.scratch ∧ need.tensor ≤ r.tensor)

/-- Make a restored team resident on its core. -/
def State.placeTeam (s : State) (x : Team) (slot : Nat) : State :=
  let k := s.teamSlot x.core
  let s := { s with ids := s.ids + 64 }.modTeam x.tid fun _ => { x with slot := k, gangs := s.spread x.core x.gangs }
  (s.freeSlot x.ctx slot).arbitrateSlots x.core

/-- The team is the first on its core whose last record has been served (R442). [log 40: DEDUCED, unsafe] -/
def State.firstClaim (s : State) (tm : Team) : Bool :=
  tm.claims tm.core && s.teams.all fun x => !(x.claims tm.core && decide (x.claimed < tm.claimed))

/-- `TEAM_RESTORE`: a saved team whose records are all served returns to the core that it left, once that core holds it (R442). A frame that cannot be restored ends the context (R162, R258). -/
def execTeamRestore (team : Nat) (s : State) : Outcome State Fault Refusal :=
  .next <|
    match s.team? team with
    | none => s
    | some tm =>
      match tm.residence, s.ctx? tm.ctx with
      | .saved slot false false, some c =>
        if s.awake ∧ ¬ c.ending ∧ s.firstClaim tm then
          match s.teamOfFrame tm (c.slotVa slot) with
          | none => s.endContext tm.ctx
          | some x =>
            if (s.roomOf tm.core fun _ => true).takes x.room then
              (List.range x.gangs.length).foldl (fun (s : State) g =>
                match execOf s (.gang team g) 0#8 default with
                | some y => s.clashTrap y
                | none => s) (s.placeTeam x slot)
            else s
        else s
      | _, _ => s

/-! ## Parked ensembles (R423) -/

/-- An ensemble is parked. -/
def State.parked (s : State) (e : Ensemble) : Bool :=
  let ts := s.teams.filter fun x => x.ensemble = e.eid
  (ts.any fun x => x.residence = .resident) &&
  ts.all fun x =>
    match x.residence with
    | .resident =>
      !s.saveWaits x && x.gangs.all fun v => v.status == .retired || v.blockedIn fun b =>
        match b with
        | .semPark _ => true
        | _ => false
    | .exited | .done => true
    | _ => false

/-- The parked ensembles of a cluster. -/
def State.parkedOn (s : State) (c : Nat) : List Nat :=
  (s.ensembles.filter fun e => decide (e.cluster = c) && !e.parkedSaved && s.parked e).map (·.eid)

/-- An unstarted ensemble of the cluster needs what the ensemble holds: the first of the sequencer's order does not fit, and would were all the parked ensembles of the cluster gone. [log 40: DEDUCED, unsafe] -/
def State.parkedNeeded (s : State) (e : Ensemble) : Bool :=
  match s.startables e.cluster with
  | [] => false
  | a :: _ =>
    let n := a.l.p.teamsOf a.held.index
    let ps := s.parkedOn e.cluster
    !s.fitsCluster e.cluster a.l.p.need n (fun _ => true) && s.fitsCluster e.cluster a.l.p.need n fun x => !ps.contains x.ensemble

/-- Save the teams of a parked ensemble one after another; none where a frame is not written. -/
def State.saveParked (s : State) : List Nat → Option State
  | [] => some s
  | t :: ts =>
    match s.team? t with
    | none => none
    | some tm =>
      match (s.ctx? tm.ctx).bind Ctx.freeSlot with
      | none => none
      | some k =>
        let back := fun (s : State) (g : Nat) => s.modGang t g fun v =>
          if v.status = .retired then v else { (v.setPc v.blockQuads v.blockPc).settle with status := .ready, swLater := false }
        let s := (List.range tm.gangs.length).foldl back (s.takeSlot tm.ctx k)
        ((s.saveTeam t k).map fun s => s.vacate t k false true).bind fun s => s.saveParked ts

/-- `PARKED_ENSEMBLE_SAVE`: the teams of a parked ensemble are saved to free frame slots, all or none; their waiters stay, marked saved (R423). -/
def execParkedEnsembleSave (ensemble : Nat) (s : State) : Outcome State Fault Refusal :=
  .next <|
    match s.ensemble? ensemble with
    | none => s
    | some e =>
      let ts := s.teams.filter fun x => x.ensemble = ensemble && x.residence = .resident
      match ts.head?.bind fun x => s.ctx? x.ctx with
      | none => s
      | some c =>
        if s.awake ∧ ¬ c.ending ∧ ¬ e.parkedSaved ∧ s.parked e ∧ s.parkedNeeded e ∧ ts.length + c.slots.length ≤ c.nslot then
          match s.saveParked (ts.map (·.tid)) with
          | none => s.endContext c.id
          | some s =>
            { s with
              parkWaiters := s.parkWaiters.map fun (w : ParkWaiter) => if ts.any fun x => issuerOfTeam w.who x.tid then { w with saved := true } else w
              ensembles := replaceIf (fun x => x.eid = ensemble) (fun x => { x with parkedSaved := true, parkedReady := false }) s.ensembles }.servePark
        else s

/-- The core of its cluster that a team of a parked ensemble returns to: the one that it left where that has room, else the first that has; a team that holds entries of its core's range-lock table returns to that core (R391, R423). [log 40: DEDUCED, unsafe] -/
def State.parkedCore (s : State) (c : Nat) (x : Team) : Option Nat :=
  let takes := fun core : Nat => (((s.rooms c fun _ => true)[core % 48]?).map fun r => r.takes x.room).getD false
  if takes x.core then some x.core
  else if (s.core x.core).locks.any fun l => decide (l.team = x.tid) then none
  else ((List.range 48).map fun i => 48 * c + i).find? takes

/-- Restore the teams of a saved ensemble one after another: none where a frame is bad, and the state unchanged where no core has room. [log 34: DEDUCED, unsafe; 40: DEDUCED, unsafe] -/
def State.restoreParked (s : State) : List Nat → Option (Option State)
  | [] => some (some s)
  | t :: ts =>
    match s.team? t with
    | none => s.restoreParked ts
    | some tm =>
      match tm.residence, s.ctx? tm.ctx with
      | .saved slot _ true, some c =>
        match s.teamOfFrame tm (c.slotVa slot) with
        | none => none
        | some x =>
          match s.parkedCore (clusterOf tm.core) x with
          | some core => (s.placeTeam { x with core := core } slot).restoreParked ts
          | none => some none
      | _, _ => s.restoreParked ts

/-- Nothing of the cluster stands ahead of the restore of a saved ensemble: no unstarted ensemble of an earlier deadline, unless its own launch is pre-emptible, and no other restore of an earlier deadline (R46, R423). -/
def State.parkedFirst (s : State) (e : Ensemble) : Bool :=
  match s.launch? e.launch with
  | none => true
  | some l =>
    (l.p.preemptible || (s.startables e.cluster).all fun a => decide (l.deadline.toNat ≤ a.l.deadline.toNat)) &&
      s.ensembles.all fun f => !(decide (f.cluster = e.cluster) && f.parkedSaved && f.parkedReady) ||
        (s.launch? f.launch).all fun m => decide (l.deadline.toNat ≤ m.deadline.toNat)

/-- `PARKED_ENSEMBLE_RESTORE`: a saved ensemble whose wait is satisfied is restored whole, ahead of unstarted work of a later deadline; each gang issues its `semwait` again (R423). -/
def execParkedEnsembleRestore (ensemble : Nat) (s : State) : Outcome State Fault Refusal :=
  .next <|
    match s.ensemble? ensemble with
    | none => s
    | some e =>
      if s.awake ∧ e.parkedSaved ∧ e.parkedReady ∧ s.parkedFirst e then
        match s.restoreParked e.teams with
        | none =>
          match s.launch? e.launch with
          | some l => s.endContext l.ctx
          | none => s
        | some none => s
        | some (some s) => s.modEnsemble ensemble fun x => { x with parkedSaved := false, parkedReady := false }
      else s

/-! ## Served records and the debugger (R442 to R445, R489) -/

/-- A record has been served: its gang issues again, or its team counts one record less. -/
def State.serveRecord (s : State) (fabric : Bool) (r : FaultRecord) (fail : Bool) : State :=
  let s := s.modTeam r.team fun x => { x with circuitFailed := x.circuitFailed || fail }
  if r.slot = 0xFFFF then
    s.modGang r.team r.gang fun v => if v.status = .held fabric r.idx then { v with status := .ready, readySince := s.tick } else v
  else
    let order := s.ids
    s.bump.modTeam r.team fun x =>
      let rest := x.records.filter fun p => p ≠ (fabric, r.idx)
      { x with records := rest, claimed := if rest = [] then order else x.claimed }

/-- A context runs a team. -/
def State.runsTeam (s : State) (ctx : Nat) : Bool := s.teams.any fun x => decide (x.ctx = ctx ∧ x.residence ≠ .done)

/-- Write a context's debug-control register; `GO` restores the team held in `SLOT`, to resume under `MODE` (R444, R445). -/
def State.writeDebug (s : State) (ctx : Nat) (value : W64) : State :=
  let slot := (value.extractLsb' 8 8).toNat
  let mode := value.extractLsb' 4 2
  let busy := s.runsTeam ctx
  let s := s.modCtx ctx fun c =>
    { c with dbgSlot := value.extractLsb' 8 8, dbgMode := mode, dbg := if busy then c.dbg else value.getLsbD 0 }
  if value.getLsbD 3 ∧ (s.ctx? ctx).any fun c => c.held.getLsbD slot then
    let order := s.ids
    let hit := fun x : Team => decide (x.ctx = ctx) && x.residence == .saved slot true false
    { s.bump with
      teams := replaceIf hit (fun x => { x with residence := .saved slot false false, resume := some mode, claimed := order }) s.teams
      ctxs := replaceIf (fun c => c.id = ctx) (fun c => { c with held := c.held &&& ~~~(1#256 <<< slot) }) s.ctxs }
  else s

/-- A team's frame stands in a slot of its context. -/
def Team.savedIn (x : Team) (slot : Nat) : Bool :=
  match x.residence with
  | .saved k _ _ => k == slot
  | _ => false

/-- The gang frame of a gang of the team that a slot holds: its address and its contents (R257, R445). -/
def State.heldFrame (s : State) (ctx slot gang : Nat) : Option (Nat × Nat) :=
  match s.ctx? ctx, s.teams.find? fun x => decide (x.ctx = ctx) && x.savedIn slot with
  | some c, some _ =>
    let va := c.slotVa slot
    (s.getFrame ctx va 10).bind fun hb =>
      let o := sliceNat (natOf hb) (0x200 + 8 * gang) 8
      if o = 0 ∨ 32 ≤ gang then none else (s.frameAt ctx (va + o)).map fun f => (va + o, f)
  | _, _ => none

/-- The debugger reads a vector register of a gang of a saved team: its record, and the gated flag with 0 for a register that is gated (R148). [log 41: DEDUCED, unsafe] -/
def State.debugRead (s : State) (ctx slot gang reg : Nat) : State :=
  match s.heldFrame ctx slot gang with
  | none => s
  | some (_, f) =>
    if reg < sliceNat f 8 4 then
      { s with hostReply := some (0#8 :: bytesOf (sliceNat f (recordAt f reg) (recordSize (frameTag f reg))) (recordSize (frameTag f reg)), [false]) }
    else { s with hostReply := some (1#8 :: bytesOf 0 4, [false]) }

/-- The debugger writes a word of the record of a vector register of a gang of a saved team; the write of a gated register is rejected (R148). [log 41: DEDUCED, unsafe] -/
def State.debugWrite (s : State) (ctx slot gang reg word : Nat) (value : W32) : State :=
  match s.heldFrame ctx slot gang with
  | none => s
  | some (va, f) =>
    if reg < sliceNat f 8 4 ∧ 4 * word < recordSize (frameTag f reg) then
      (s.masterWrite ctx (va + recordAt f reg + 4 * word) (bytesOf value.toNat 4)).getD s
    else s

/-! ## The debugger's kill (R56) -/

/-- The lanes of a gang of a saved team are killed in its frame, from which the gang will be restored (R56, R445). [log 41: DEDUCED, unsafe] -/
def State.killHeld (s : State) (ctx slot gang : Nat) (old : Gang) (lanes : Mask) : State :=
  match s.heldFrame ctx slot gang with
  | none => s
  | some (va, f) =>
    let out := ((gangOfFrame f s.tick 0 old).dropLanes lanes).frame
    (s.putFrame ctx va (out.length / 128 + 1) out).getD s

/-- `DEBUGGER_KILL`: the debugger kills the lanes that it names, of a gang on its core or of a saved team (R56). -/
def execDebuggerKill (team gang : Nat) (lanes : Mask) (s : State) : Outcome State Fault Refusal :=
  .next <|
    match execOf s (.gang team gang) 0#8 default, (s.team? team).map (·.residence), s.gang? team gang with
    | some x, some r, some v =>
      if (s.ctx? x.ctx).any (·.dbg) then
        match r with
        | .saved slot _ _ => s.killHeld x.ctx slot gang v lanes
        | _ =>
          let s := s.dropLanes x lanes
          if (s.gang? team gang).any fun v => v.live = 0#32 then s.leaveWaits (.gang team gang) else s
      else s
    | _, _, _ => s

/-- `DEBUG_GO`: a write of a context's debug-control register (R445). [log 41: DEDUCED, unsafe] -/
def execDebugGo (ctx : Nat) (value : W64) (s : State) : Outcome State Fault Refusal :=
  .next (if s.barOpen then s.writeDebug ctx value else s)

end Sys2Proof.Machine
end

