-- ==== Sys2Proof/Machine/Packets.lean ====
section
/-! DEFINITION. Packets in queues: slack, the two classes of service, exhaustion and its counts (R93, R410 to R413). -/

namespace Sys2Proof.Machine

open Host (Outcome)

/-- Slack of a waiting packet at a tick (R410). -/
def Packet.current (p : Packet) (now : Nat) : Nat := p.slack - (now - p.entry) / 4

/-- The tick at which a waiting packet reaches slack 0 (R410). -/
def Packet.zeroAt (p : Packet) : Nat := p.entry + 4 * p.slack

/-- A count of exhaustions of a unit (R413); one not listed is 0. -/
def State.zscOf (s : State) (unit : Nat) : W32 := ((s.zsc.find? fun p => p.1 = unit).map (·.2)).getD 0#32

/-- Set a count of exhaustions. -/
def State.setZsc (s : State) (unit : Nat) (v : W32) : State := { s with zsc := upsert (fun p => p.1 = unit) (unit, v) s.zsc }

/-- The exhausted-slack event of a packet, with the tick of the unit that holds it (R93, R365). -/
def State.postExhausted (s : State) (p : Packet) : State :=
  let r : W128 := p.stamp.pc.zeroExtend 64 ++ BitVec.ofNat 32 (s.queueTick p.queue) ++ 1#16 ++ 0#8 ++ 1#8
  let post : Post := ⟨s.ids, p.stamp.cluster, 8192 + unitOfQueue p.queue, r⟩
  { s.bump with posts := s.posts ++ [post] }

/-- A packet joins the zero class (R411, R413): its unit counts it, and with `XS` an event is posted, once for the request and its reply. -/
def State.exhaust (s : State) (p : Packet) : State :=
  let join := fun (q : Packet) => { q with counted := true, zeroSince := some p.zeroAt }
  let s := { s with packets := updateFirst (fun (q : Packet) => decide (q.id = p.id)) join s.packets }
  if p.counted then s
  else
    let u := unitOfQueue p.queue
    let v := s.zscOf u
    let s := s.setZsc u (if v = BitVec.allOnes 32 then v else v + 1#32)
    let s := match p.stamp.core with
      | some c => countPerf c 6 1 s
      | none => s
    if p.stamp.xs then s.postExhausted p else s

/-- Goes ahead in a queue (R411). -/
def Packet.before (now : Nat) (p q : Packet) : Bool :=
  let z := fun r : Packet => decide (r.current now = 0)
  if z p && z q then decide (p.zeroAt < q.zeroAt) || (decide (p.zeroAt = q.zeroAt) && decide (p.id < q.id))
  else if z p != z q then z p
  else
    let a := p.current now
    let b := q.current now
    decide (a < b) || (decide (a = b) && (decide (p.entry < q.entry) || (decide (p.entry = q.entry) &&
      (decide (p.stamp.port < q.stamp.port) || (decide (p.stamp.port = q.stamp.port) && decide (p.id < q.id))))))

/-- The ordered pair whose transmit queue a queue is. -/
def pairOfQueue (q : Nat) : Option (Nat × Nat) :=
  if q % 64 = 0 ∧ 1 ≤ q / 2048 ∧ q / 2048 < 24 then some (q % 2048 / 64, q / 2048 - 1) else none

/-- A packet at the I/O die is on its way to a module whose traffic is held (R491). -/
def State.awayHeld (s : State) (p : Packet) : Bool := decide (unitOfQueue p.queue / 64 = ioPort) && (pairOfQueue p.queue).isNone && p.away.any s.peerHeld

/-- A packet is held: its request goes to a module that no port reaches now (R491); or the route of its pair carries nothing or is about to change, or, of one that a relay carries, no rail of the leg is up (R21 to R23). -/
def State.packetHeld (s : State) (p : Packet) : Bool :=
  s.awayHeld p || match pairOfQueue p.queue with
  | some (i, j) =>
    if p.relayed.isSome then !((s.pair i j).rail0 || (s.pair i j).rail1) else (s.pair i j).next.isSome || s.routeDown i j
  | none => false

/-- A packet that a relay carries goes after the earlier ones of its pair (R19). -/
def Packet.follows (p q : Packet) : Bool :=
  match p.relayed, q.relayed with
  | some a, some b => p.queue == q.queue && a.1 == b.1 && a.2.1 == b.2.1 && decide (b.2.2 < a.2.2)
  | _, _ => false

/-- The packet that a queue serves next: the first in order among those that neither a held route nor their pair's order keeps back (R19, R411). -/
def State.nextPacket (s : State) (queue : Nat) : Option Packet :=
  firstBy (fun p q => p.before (s.queueTick queue) q)
    (s.packets.filter fun p => decide (p.queue = queue) && !s.packetHeld p && !s.packets.any p.follows)

/-- `SLACK_EXHAUSTED`: a waiting packet's slack reaches zero (R411, R413). -/
def execSlackExhausted (packet : Nat) (s : State) : Outcome State Fault Refusal :=
  .next <|
    match s.packets.find? fun p => p.id = packet with
    | some p => if p.zeroSince.isNone ∧ p.current (s.queueTick p.queue) = 0 then s.exhaust p else s
    | none => s

/-- What a packet has still to pass when it leaves a queue, and the pair that a relay carries it for. Where its pair has a relay it passes the transmit queues of the two legs, among their own traffic (R21). [log 18: DESIGN CHOICE, unsafe] -/
def State.pathAfter (s : State) (p : Packet) : List Nat × Option (Nat × Nat × Nat) :=
  match pairOfQueue p.queue with
  | none => (p.path, p.relayed)
  | some (i, j) =>
    match p.relayed with
    | some r => (p.path, if r.2.1 = j then none else some r)
    | none =>
      let r := (s.pair i j).relay.toNat
      if (s.pair i j).rlyen then (transmitQueue i r :: transmitQueue r j :: p.path, some (i, j, s.ids)) else (p.path, none)

/-- `PACKET_SERVICE`: a queue's arbiter serves its next packet, which enters the next queue of its path with the slack that it has (R411, R412). -/
def execPacketService (queue : Nat) (s : State) : Outcome State Fault Refusal :=
  .next <|
    match s.nextPacket queue with
    | none => s
    | some p =>
      let now := s.queueTick queue
      let zero : Bool := p.zeroSince.isNone ∧ p.current now = 0
      let s := if zero then s.exhaust p else s
      match s.pathAfter p with
      | ([], _) => { s with packets := s.packets.filter fun q => q.id ≠ p.id }
      | (q :: qs, relayed) =>
        let on := fun (r : Packet) =>
          { r with queue := q, path := qs, slack := p.current now, entry := s.queueTick q, zeroSince := none, relayed := relayed }
        { s.bump with packets := updateFirst (fun (r : Packet) => decide (r.id = p.id)) on s.packets }

end Sys2Proof.Machine
end

