-- ==== Sys2Proof/Machine/Ends.lean ====
section
/-! DEFINITION. Ends of contexts, errors and the fencing of dies (R23, R361, R362, R429, R447 to R453). -/

namespace Sys2Proof.Machine

open Host (Outcome)

/-! ## Context end (R429, R447) -/

/-- Microseconds of a limit of R428, 0 acting as 1, in nanoseconds. -/
def limitOf (v : BitVec 32) : Nat := 1000 * max v.toNat 1

/-- A limit of the deadline timer has passed: a launch's deadline with `OVR`, or the drain of a started ensemble with `DRN` (R59, R429). -/
def State.limitPassed (s : State) (c : Ctx) : Bool :=
  let mine := fun l : Launch => decide (l.ctx = c.id)
  (s.launches.any fun l => mine l && decide (l.deadline.toNat + limitOf (c.timer.extractLsb' 0 32) < s.tick)) ||
    s.ensembles.any fun e => (s.launch? e.launch).any mine && e.drain.any fun d => decide (d + limitOf (c.timer.extractLsb' 32 32) < s.tick)

/-- `FORCED_RESET`: the master resets a context whose drain or whose overrun has passed its limit (R429). -/
def execForcedReset (ctx : Nat) (s : State) : Outcome State Fault Refusal :=
  .next (if s.awake ∧ (s.ctx? ctx).any s.limitPassed then s.endContext ctx else s)

/-- A unit is a gang of a team that a test names. -/
def issuerIn (p : Nat → Bool) (u : Issuer) : Bool :=
  match u with
  | .gang t _ => p t
  | .seq _ => false

/-- Teams that a test names stop where they stand and leave the machine: their commands are abandoned, their granules enter clearing, and their range locks and waits go (R447, R449). -/
def State.removeTeams (s : State) (p : Team → Bool) : State :=
  let ts := s.teams.filter p
  let mine := fun t => ts.any fun x => decide (x.tid = t)
  let cores := (ts.map (·.core)).eraseDups
  let s := ts.foldl (fun (s : State) x => x.tiles.foldl (fun (s : State) y => s.clearTile x.tid y.id) s) s
  let s := { s with
    teams := s.teams.filter fun x => !p x
    cores := s.cores.map fun u =>
      { u with
        array := u.array.filter fun c => !mine c.team
        copy := u.copy.filter fun c => !mine c.team
        locks := u.locks.filter fun l => !mine l.team && l.cmd.all fun c => u.commands.all fun d => d.id ≠ c || !mine d.team }
    parkWaiters := s.parkWaiters.filter fun w => !issuerIn mine w.who
    promotions := s.promotions.filter fun w => !issuerIn mine w.who
    fabricOut := s.fabricOut.filter fun r => !mine r.team
    fabricWaiting := s.fabricWaiting.filter fun r => !mine r.team
    ctxs := s.ctxs.map fun c =>
      { c with outstanding := c.outstanding.filter fun r => !mine r.team
               waiting := c.waiting.filter fun r => !mine r.team } }
  (cores.foldl (fun (s : State) c => (s.arbitrate c).arbitrateSlots c) s).retryAll fun w =>
    match w with
    | .handle _ _ | .range _ | .commands | .lockRetry => true
    | _ => false

/-- The queues of a context have `EN` cleared; a mapped one is written back and its slot released (R447). -/
def State.disableQueues (s : State) (ctx : Nat) : State :=
  let qs := (s.queues.filter fun r => decide (r.qctx.toNat = ctx) && r.en).map (·.q)
  qs.foldl (fun (s : State) q =>
    let s := match s.slot? q with
      | some x => s.releaseSlot x
      | none => s
    s.modQueue q fun r => { r with en := false, skipped := [] }) s

/-- The end of a context (R447): its teams stop, its frames and range locks are freed, its queues are disabled, its mover chains stop, and its launches complete with status ended. [log 37: DEDUCED, unsafe] -/
def State.finishContext (s : State) (ctx : Nat) : State :=
  let s := s.removeTeams fun x => x.ctx = ctx
  let ls := (s.launches.filter fun l => l.ctx = ctx).map (·.key)
  let s := { s with
    ensembles := s.ensembles.filter fun e => !ls.contains e.launch
    cores := s.cores.map fun (u : Core) => { u with locks := u.locks.filter fun l => l.ctx ≠ ctx }
    registrations := s.registrations.map fun (r : Registration) => if r.rctx.toNat = ctx then { r with rung := false } else r }
  let s := s.disableQueues ctx
  let s := ls.foldl (fun (s : State) k => s.completeLaunch k 7) s
  s.modCtx ctx fun c => { c with slots := [], held := 0#256, outstanding := [], waiting := [], ending := false }

/-- `CONTEXT_END`: a context ends, for a cause of R447 or at the request of the host driver. -/
def execContextEnd (ctx : Nat) (s : State) : Outcome State Fault Refusal :=
  .next (if s.start.ready ∧ s.powered ∧ (s.ctx? ctx).isSome then s.finishContext ctx else s)

/-- Every context ends. -/
def State.endAll (s : State) : State := (s.ctxs.map (·.id)).foldl (fun s c => s.finishContext c) s

/-! ## Syndromes (R453) -/

/-- Latch an error at a router port: the first one's class and unit, and the count. [log 46: DEDUCED, unsafe] -/
def Syndrome.latch (v : Syndrome) (fatal : Bool) (cls : Byte) (unit : BitVec 16) : Syndrome :=
  { v with
    v := true, fatal := v.fatal || fatal, cls := if v.v then v.cls else cls, unit := if v.v then v.unit else unit
    count := if v.count = BitVec.allOnes 16 then v.count else v.count + 1#16 }

/-- Latch an error in the register of a port. -/
def State.latchError (s : State) (port : Nat) (fatal : Bool) (cls : Byte) (unit : BitVec 16) : State :=
  { s with syndromes := vset s.syndromes port ((vget s.syndromes port ⟨false, false, 0#8, 0#16, 0#16⟩).latch fatal cls unit) }

/-- `SYNDROME_CLEAR`: 1 is written to `V` of a syndrome register. -/
def execSyndromeClear (port : Nat) (s : State) : Outcome State Fault Refusal :=
  .next (if s.barOpen then { s with syndromes := vset s.syndromes port ⟨false, false, 0#8, 0#16, 0#16⟩ } else s)

/-! ## Fencing (R14, R15, R361, R362, R448 to R451) -/

/-- A die that takes part in the package's work. -/
def Die.alive (d : Die) : Bool := (d.inService || d.spare) && !d.fenced

/-- `CONTAINED_ERROR`: a contained error on a compute die, which is to be fenced (R448). -/
def execContainedError (die : Nat) (cls : Byte) (unit : BitVec 16) (s : State) : Outcome State Fault Refusal :=
  .next (if (s.die die).alive then s.modDie die fun d => { d with error := d.error.or (some (cls, unit)) } else s)

/-- The ensembles dealt to a die and not all done, by launch and index: those started on it, those that its sequencers hold, and those of its ranges (R451). [log 43: DEDUCED, unsafe] -/
def State.dealtTo (s : State) (die : Nat) : List (Nat × Nat) :=
  ((s.ensembles.filter fun e => e.cluster / 6 = die).map fun e => (e.launch, e.index)) ++
    ((s.seqs.filter fun q => q.idx / 6 = die).flatMap fun q => q.holding.map fun h => (h.launch, h.index)) ++
    (s.die die).ranges.flatMap fun r => (List.range (r.stop - r.next)).map fun i => (r.launch, r.next + i)

/-- What a die holds is lost, and its units are gone until whole-package reset (R449). [log 43: DEDUCED, unsafe] -/
def State.loseDie (s : State) (die : Nat) : State :=
  let gone := fun u : Issuer =>
    match u with
    | .gang _ _ => false
    | .seq n => decide (n / 6 = die)
  let frames := (s.teams.filter fun x => dieOf x.core = die).filterMap fun x =>
    match x.residence with
    | .saving k _ | .saved k _ _ => some (x.ctx, k)
    | _ => none
  let s := frames.foldl (fun (s : State) p => s.freeSlot p.1 p.2) (s.removeTeams fun x => dieOf x.core = die)
  let lostAsks := (s.seqs.filter fun q => q.idx / 6 = die).flatMap fun q => q.steals.map (·.thief)
  { s with
    ensembles := s.ensembles.filter fun e => e.cluster / 6 ≠ die
    cores := s.cores.filter fun u => dieOf u.idx ≠ die
    seqs := (s.seqs.filter fun q => q.idx / 6 ≠ die).map fun q =>
      { q with asked := q.asked && !lostAsks.contains q.idx, steals := q.steals.filter fun r => r.thief / 6 ≠ die }
    dies := vset s.dies die { Die.reset with fenced := true }
    parkWaiters := s.parkWaiters.filter fun w => !gone w.who
    promotions := (s.promotions.filter fun p => !gone p.who).map fun p => { p with dies := p.dies.filter fun d => d ≠ die }
    invals := s.invals.map fun v => { v with cores := v.cores.filter fun c => dieOf c ≠ die }
    posts := s.posts.filter fun p => p.cluster / 6 ≠ die
    packets := s.packets.filter fun p => p.queue % 2048 / 64 ≠ die }

/-- Promotions and invalidations that waited for nothing but the die are over. -/
def State.settleLost (s : State) : State :=
  let ps := s.promotions.filter fun p => p.dies.isEmpty
  let vs := s.invals.filter fun v => v.cores.isEmpty
  let s := { s with promotions := s.promotions.filter fun p => !p.dies.isEmpty, invals := s.invals.filter fun v => !v.cores.isEmpty }
  let s := ps.foldl (fun (s : State) p => s.wakePromoted p.who) s
  vs.foldl (fun (s : State) v =>
    match v.who with
    | some u => s.wake u
    | none => s.clearBusy) s

/-- The dies that take part. -/
def State.aliveDies (s : State) : List Nat := (List.range 9).filter fun d => (s.die d).alive

/-- A free choice among numbers. [log 1: DESIGN CHOICE, safe] -/
def State.choose (s : State) (l : List Nat) : State × Option Nat :=
  match l with
  | [] => (s, none)
  | _ => ({ s with free := s.free + 1 }, l[Config.pick s.free % l.length]?)

/-- The survivors elect a master where the fenced die's distributor was it (R450). -/
def State.elect (s : State) (die : Nat) : State :=
  if s.masterPort = die then
    match s.choose s.aliveDies with
    | (s, some p) => { s with termWord := (s.termWord.extractLsb' 8 56 + 1#56) ++ BitVec.ofNat 8 p }
    | (s, none) => s
  else s

/-- Contexts that the loss of work ends: those of launches that are not reissuable (R447, R451). -/
def State.endedBy (s : State) (work : List (Nat × Nat)) : List Nat :=
  work.filterMap fun e => ((s.launch? e.1).filter fun l => !l.dropped && !l.p.reissuable).map (·.ctx)

/-- Launches with lost ensembles that are to run again: of those of a fenced die, the reissuable ones that go on, and those whose lost ensembles were to go to that die (R451). -/
def State.rerun (s : State) (die : Nat) (work : List (Nat × Nat)) : List Launch :=
  s.launches.filter fun l => !l.dropped && !(s.endedBy work).contains l.ctx &&
    ((l.p.reissuable && work.any fun e => decide (e.1 = l.key)) || l.lost.any fun p => decide (p.2 = some die))

/-- An ensemble lost with a die waits to be dealt again, to the die that was the spare where one is named (R451). One of a dropped launch is not run, and that of a launch that is not reissuable ends its context. [log 43: DEDUCED, unsafe] -/
def State.lose (s : State) (target : Option Nat) (e : Nat × Nat) : State :=
  match s.launch? e.1 with
  | none => s
  | some l =>
    if l.dropped then s.settleLaunch e.1
    else if l.p.reissuable then s.modLaunch e.1 fun l => { l with lost := l.lost ++ [(e.2, target)] }
    else s.endContext l.ctx

/-- The spare takes over: it is in service, and the started ensembles of pre-emptible launches that it holds begin to drain (R14, R15). -/
def State.takeOver (s : State) (die : Nat) : State :=
  let s := s.modDie die fun x => { x with spare := false, inService := true }
  { s with
    ensembles := s.ensembles.map fun e =>
      if e.cluster / 6 = die ∧ (s.launch? e.launch).any fun l => l.p.preemptible then { e with drain := e.drain.or (some s.tick) } else e }

/-- The work lost with a fenced die: it goes to the spare while one remains, which then is in service, else to the survivors (R14, R451). Where no work moves the spare stays as it is. [log 43: DEDUCED, unsafe] -/
def State.loseWork (s : State) (die : Nat) (work : List (Nat × Nat)) : State :=
  let target := if s.rerun die work = [] then none else s.aliveDies.find? fun d => (s.die d).spare
  let s := match target with
    | some d => s.takeOver d
    | none => s
  let s := { s with launches := s.launches.map fun l => { l with lost := l.lost.map fun p => if p.2 = some die then (p.1, target) else p } }
  work.foldl (fun (s : State) e => s.lose target e) s

/-- Reservations lose the clusters of a die; every context with a launch that names one left short is told (R362, R364). -/
def State.shrinkReservations (s : State) (die : Nat) : State :=
  let short := (s.reservations.filter fun r => r.clusters.any fun c => c / 6 = die).map fun r =>
    { r with clusters := r.clusters.filter fun c => c / 6 ≠ die }
  let s := { s with reservations := s.reservations.map fun r => { r with clusters := r.clusters.filter fun c => c / 6 ≠ die } }
  (short.filter fun r => r.clusters.length < r.count).foldl (fun (s : State) r =>
    let ls := s.launches.filter fun l => decide (l.p.res.toNat = r.r ∧ l.ctx = r.ctx)
    let s := match ls with
      | [] => s
      | l :: _ => s.notice l.ctx (recordBytes 4 0 0 l.lid.toNat 0 0 s.tick)
    let s := ls.foldl (fun (s : State) l =>
      match l.issuer with
      | some c => s.masterPost c 7 0 (BitVec.ofNat 64 r.r)
      | none => s) s
    (ls.filter fun l => l.p.coresident && !l.early && !l.dealt && !s.coresidentFits l.ctx l.p).foldl
      (fun (s : State) l => (s.passOver l).completeLaunch l.key 4) s) s

/-- Fence a die with its error's class and unit (R449 to R451). [log 43: DEDUCED, unsafe] -/
def State.fence (s : State) (die : Nat) (cls : Byte) (unit : BitVec 16) : State :=
  let work := s.dealtTo die
  let s := (s.loseDie die).settleLost
  let s := (s.latchError die false cls unit).elect die
  let s := { s with studioNotices := s.studioNotices + 1, reports := s.reports + 1 }
  (s.shrinkReservations die).loseWork die work

/-- `DIE_FENCE`: a die with a contained error is fenced (R449). -/
def execDieFence (die : Nat) (s : State) : Outcome State Fault Refusal :=
  .next <|
    match (s.die die).error with
    | some e => if (s.die die).alive then s.fence die e.1 e.2 else s
    | none => s

/-! ## Fatal errors (R23, R452, R477) -/

/-- An uncontained error: every context ends, every unit stops issuing, and the host is told (R452). [log 46: DEDUCED, unsafe] -/
def State.fatal (s : State) (port : Nat) (cls : Byte) (unit : BitVec 16) : State :=
  let s := s.endAll.latchError port true cls unit
  { s with stopped := true, reports := s.reports + 1, seqs := s.seqs.map fun q => { q with run := false } }

/-- `UNCONTAINED_ERROR`: a failure of a chiplet, a stack, the colour router or an I/O die (R452). -/
def execUncontainedError (port : Nat) (cls : Byte) (unit : BitVec 16) (s : State) : Outcome State Fault Refusal :=
  .next (if s.powered ∧ port < 23 then s.fatal port cls unit else s)

/-- `LINK0_DOWN`: link 0 goes down. While link 1 is up every context ends, and link 1 reports the error; the package keeps running (R477). -/
def execLink0Down (s : State) : Outcome State Fault Refusal :=
  .next (if s.link0 ∧ s.link1 then { s.endAll with link0 := false, reports := s.reports + 1 } else { s with link0 := false })

end Sys2Proof.Machine
end

