-- ==== Sys2Proof/Machine/Movers.lean ====
section
/-! DEFINITION. Mover chains with their copies, collectives and Ethernet frames, and what arrives at the Ethernet and Utium ports (R140, R370 to R373, R467, R486, R493). -/

namespace Sys2Proof.Machine

open Host (Outcome)

/-! ## Addresses (R367, R373, R467) -/

/-- Why a descriptor is not performed now: it fails with a code, and with the address that did not translate where that is why; its page has no lit circuit; or it waits. -/
inductive MoverStop where
  | code (n va : Nat)
  | unlit (va : Nat)
  | wait
  deriving DecidableEq, Repr, Inhabited

/-- The place of an address of a context as a mover finds it, with the permissions needed. -/
def State.moverKey (s : State) (ctx va : Nat) (need : BitVec 3) : Except MoverStop (Option Nat × Nat) :=
  if va ≥ 2 ^ 56 then .error (.code 3 va)
  else
    match (s.lookChip ctx va).2 with
    | .leaf l =>
      let pa := l.pa va
      if ¬ s.lit l.cc then .error (.unlit va)
      else if need &&& ~~~ l.xwr ≠ 0#3 ∨ (regionOf pa ≠ .global ∧ regionOf pa ≠ .host) then .error (.code 3 va)
      else .ok (s.peerOf l.cc, keyOf (s.peerOf l.cc) pa)
    | _ => .error (.code 3 va)

/-- Bytes in pieces that lie in one sector each: offset, place and length. -/
abbrev Run := List (Nat × Nat × Nat)

/-- The pieces of a range of a context. -/
def State.pieces (s : State) (ctx va0 : Nat) (need : BitVec 3) : List (Nat × Nat) → Except MoverStop Run
  | [] => .ok []
  | p :: ps =>
    match s.moverKey ctx p.1 need, s.pieces ctx va0 need ps with
    | .error e, _ => .error e
    | .ok _, .error e => .error e
    | .ok k, .ok r => .ok ((p.1 - va0, k.2, p.2) :: r)

/-- A range of a context as pieces. -/
def State.runOf (s : State) (ctx va n : Nat) (need : BitVec 3) : Except MoverStop Run :=
  if n = 0 then .ok [] else s.pieces ctx va need (sectorsOf va n)

/-- The bytes of a range. -/
def State.runBytes (s : State) (r : Run) : List Byte := r.flatMap fun p => memBytes s.mem p.2.1 p.2.2

/-- A byte of a range lies in a poisoned sector. -/
def State.runTaint (s : State) (r : Run) (i : Nat) : Bool :=
  r.any fun p => decide (p.1 ≤ i ∧ i < p.1 + p.2.2) && s.memPoison.contains (p.2.1 / 128)

/-- Write a range, with the poison that its bytes bring (R261). -/
def State.runWrite (s : State) (bytes : List Byte) (taint : Nat → Bool) : Run → State
  | [] => s
  | p :: ps =>
    let d := natOf ((bytes.drop p.1).take p.2.2) * 2 ^ (8 * (p.2.1 % 128))
    let brings := (List.range p.2.2).any fun i => taint (p.1 + i)
    (s.sideMerge (p.2.1 / 128) (byteRun (p.2.1 % 128) p.2.2) (BitVec.ofNat 1024 d) brings).runWrite bytes taint ps

/-- The module whose memory holds a place, none for this one. -/
def moduleOf (key : Nat) : Option Nat := if key < 2 ^ 52 then none else some (key / 2 ^ 52 - 1)

/-- The traffic of a mover with the place of a range is held: no port carries anything to its module, or a pair between the mover's I/O die and the chiplet carries nothing (R23, R491). -/
def State.placeHeld (s : State) (io key : Nat) : Bool :=
  match moduleOf key with
  | some m => s.peerHeld m
  | none => regionOf key == .global && (s.pairHeld io (chipPort (chipOf key)) || s.pairHeld (chipPort (chipOf key)) io)

/-! ## Chains (R370 to R373) -/

/-- Registration of a mover's slot. -/
def State.chain? (s : State) (mover slot : Nat) : Option Registration :=
  s.registrations.find? fun r => decide (r.mover = mover ∧ r.slot = slot) && r.rv

/-- Apply a change to a registration. -/
def State.modChain (s : State) (mover slot : Nat) (f : Registration → Registration) : State :=
  { s with registrations := updateFirst (fun r => r.mover = mover ∧ r.slot = slot) f s.registrations }

/-- A descriptor that a mover takes: its chain, its index, address and 64 bytes, and the place of the control block. -/
structure Taken where
  r : Registration
  block : Nat
  idx : Nat
  va : Nat
  v : Nat
  deriving Repr, Inhabited

/-- A field of the descriptor (R371). -/
def Taken.field (d : Taken) (o n : Nat) : Nat := sliceNat d.v o n
/-- `OP`. -/
def Taken.op (d : Taken) : Nat := d.field 0x0C 1
/-- `TAG`. -/
def Taken.tag (d : Taken) : Nat := d.field 0x34 4
/-- Context of the chain. -/
def Taken.ctx (d : Taken) : Nat := d.r.rctx.toNat

/-- A range of a descriptor's context as pieces; the mover waits while the traffic of one is held (R23, R491). -/
def State.rangeOf (s : State) (d : Taken) (ctx va n : Nat) (need : BitVec 3) : Except MoverStop Run :=
  match s.runOf ctx va n need with
  | .error e => .error e
  | .ok r => if r.any fun p => s.placeHeld (ioPort + d.r.mover / 32) p.2.1 then .error .wait else .ok r

/-- The descriptor after `n` more links of a chain, or the address of the first that cannot be read. [log 22: DESIGN CHOICE, unsafe; 44: DEDUCED, unsafe] -/
def State.follow (s : State) (ctx : Nat) : (n : Nat) → Nat → Except Nat Nat
  | 0, a => .ok a
  | n + 1, a =>
    if a = 0 then .ok 0
    else
      match s.masterRead ctx a 8 with
      | some b => s.follow ctx n b
      | none => .error a

/-- Address of the chain's next descriptor: by `NEXT` of the last one done, or from `FIRST` (R372). -/
def State.nextDescriptor (s : State) (r : Registration) (first done : Nat) : Except Nat Nat :=
  if r.last ≠ 0 then s.follow r.rctx.toNat 1 r.last else s.follow r.rctx.toNat done first

/-- What stands next in a chain: nothing to do, a descriptor that cannot be read, with its code and the address that did not translate, or one to perform. -/
inductive ChainHead where
  | idle
  | bad (block idx code va : Nat)
  | take (d : Taken)
  deriving Repr, Inhabited

/-- The head of a chain: it has been rung, has no error and has an eligible descriptor that is not done (R372, R373). -/
def State.chainHead (s : State) (r : Registration) : ChainHead :=
  let ctx := r.rctx.toNat
  match (if r.rung && r.rv then s.masterPa ctx r.cba.toNat 3#3 else none) with
  | none => .idle
  | some b =>
    let done := memNat s.mem (b + 0x18) 4
    if memNat s.mem (b + 0x1C) 4 ≠ 0 ∨ memNat s.mem (b + 0x14) 4 = done then .idle
    else
      match s.nextDescriptor r (memNat s.mem b 8) done with
      | .error a => .bad b done 3 a
      | .ok 0 => .idle
      | .ok va =>
        if va % 64 ≠ 0 then .bad b done 2 0
        else
          match s.masterRead ctx va 64 with
          | some v => .take ⟨r, b, done, va, v⟩
          | none => .bad b done 3 va

/-- A chain halts at a descriptor with a code; the notice carries the address that did not translate, 0 for another code (R367, R373). `ERR` is tested by waits as it is written (R426). -/
def State.halt (s : State) (r : Registration) (block idx code va : Nat) : State :=
  let s := (s.sideBytes (block + 0x1C) (bytesOf (code + 256 * (idx % 2 ^ 24)) 4)).serveWatches
  let s := s.modChain r.mover r.slot fun r => { r with rung := false, unlit := none, failed := false }
  s.notice r.rctx.toNat (recordBytes 3 0 0 r.cba.toNat code va s.tick)

/-- A descriptor is done: what it wrote wakes its waiters, `DONE` is written as a release, which wakes others, and the chain goes on or is idle (R372, R420, R426). -/
def State.done (s : State) (d : Taken) : State :=
  let n := (d.idx + 1) % 2 ^ 32
  let s := (s.serveWatches.sideBytes (d.block + 0x18) (bytesOf n 4)).serveWatches
  let more := memNat s.mem (d.block + 0x14) 4 ≠ n
  s.modChain d.r.mover d.r.slot fun r => { r with last := d.va, rung := more, unlit := none, failed := false }

/-- Record slot under which a mover waits for its circuit. -/
def moverSlot (r : Registration) : Nat := 0x10000 + 16 * r.mover + r.slot

/-- What a stop of a descriptor does (R373, R467): a failure halts the chain, and an unlit page posts one fabric record and waits until it is served. -/
def State.stopChain (s : State) (d : Taken) : MoverStop → State
  | .wait => s
  | .code n va => s.halt d.r d.block d.idx n va
  | .unlit va =>
    if d.r.failed then s.halt d.r d.block d.idx 5 0
    else if d.r.unlit.isSome || s.fabricWaiting.any fun w => w.slot = moverSlot d.r then s
    else s.fabricRecord ⟨recordBytes 1 3 0xFFFF d.r.cba.toNat 0 va s.tick, 0, 0, moverSlot d.r, s.epoch⟩

/-- The reserved bytes of a descriptor are zero, and its `OP` is one of R371. -/
def Taken.wellFormed (d : Taken) : Bool :=
  [0x01, 0x10, 0x11, 0x20, 0x21].contains d.op && d.field 0x39 7 == 0 && decide (d.field 0x0E 1 < 64 ∧ d.field 0x0F 1 < 6)

/-- The stamp of a mover's requests (R371, R412). -/
def Taken.stamp (d : Taken) : Stamp :=
  let slk := BitVec.ofNat 6 (d.field 0x0E 1)
  { ownStamp (ioPort + d.r.mover / 32) with slack := if slk = 0#6 then 4095 else slackOfCode slk }

/-- The requests of a mover for the pieces of a range. -/
def State.sendRun (s : State) (d : Taken) (r : Run) : State :=
  let io := ioPort + d.r.mover / 32
  r.foldl (fun (s : State) p =>
    let chip := chipPort (chipOf p.2.1)
    s.send d.stamp (unitQueue io (1 + d.r.mover % 32) :: roundTrip io chip [sideQueue (chipOf p.2.1)])) s

/-- The step of a mover on a chain: a descriptor that cannot be read or is malformed halts it, and one of another operation is left to its own step. -/
def moverStep (mover slot : Nat) (ops : List Nat) (f : Taken → State → State) (s : State) : State :=
  match (if s.awake then s.chain? mover slot else none) with
  | none => s
  | some r =>
    match s.chainHead r with
    | .idle => s
    | .bad b idx code va => s.halt r b idx code va
    | .take d =>
      if ¬ d.wellFormed then s.halt r d.block d.idx 1 0
      else if ops.contains d.op then f d s
      else s

/-! ## Copies -/

/-- Two ranges overlap. -/
def rangesMeet (a b n : Nat) : Bool := decide (a < b + n ∧ b < a + n)

/-- `MOVER_COPY`: a copy descriptor (R372). Where its ranges overlap, the bytes of the destination are free. [log 19: DESIGN CHOICE, safe; 44: DEDUCED, unsafe] -/
def execMoverCopy (mover slot : Nat) (s : State) : Outcome State Fault Refusal :=
  .next <| moverStep mover slot [0x01] (fun d s =>
    let src := d.field 0x10 8
    let dst := d.field 0x18 8
    let n := d.field 0x20 8
    if n % 16 ≠ 0 then s.stopChain d (.code 2 0)
    else
      match s.rangeOf d d.ctx src n 1#3, s.rangeOf d d.ctx dst n 2#3 with
      | .error e, _ => s.stopChain d e
      | .ok _, .error e => s.stopChain d e
      | .ok a, .ok b =>
        let open_ := rangesMeet src dst n
        let bytes := if open_ then (List.range n).map fun i => Config.freeByte (s.free + i) else s.runBytes a
        let s' := ((s.sendRun d a).sendRun d b).runWrite bytes (s.runTaint a) b
        (if open_ then { s' with free := s'.free + n } else s').done d) s

/-! ## Collectives (R140, R372, R467) -/

/-- Element type of a reduction. -/
def Taken.ty (d : Taken) : Option Ty :=
  match tyOfCode (BitVec.ofNat 5 (d.field 0x0D 1)) with
  | some t => if d.field 0x0D 1 < 32 ∧ (t = .f32 ∨ t = .bf16 ∨ t = .f64) then some t else none
  | none => none

/-- Exact accumulation is selected. -/
def Taken.exact (d : Taken) (t : Ty) : Bool := d.field 0x0F 1 % 2 = 1 ∧ t = .f64

/-- Type in which partial values are formed. -/
def partialTy (t : Ty) : Ty := if t = .f64 then .f64 else .f32

/-- An element as a partial value: `bf16` is widened exactly. -/
def widen (t : Ty) (x : Nat) : Nat := if t = .bf16 then x * 2 ^ 16 else x

/-- A partial value as an element: `bf16` is rounded once. -/
def narrow (t : Ty) (x : Nat) : Nat := if t = .bf16 then (settleVal .bf16 .rne false 0 (readAs .f32 x, 0#5)).1 else x

/-- One rounded addition of R140. -/
def addPartial (t : Ty) (a b : Nat) : Nat :=
  let p := partialTy t
  (settleVal p .rne false 0 (Val.add false (readAs p a) (readAs p b))).1

/-- The sum of elements by `addx`, read by `readx` (R124, R372). -/
def exactSum (xs : List Nat) : Nat := (readX (xs.foldl (fun o x => addX o (readAs .f64 x)) 0) .rne).1

/-- The fold of R140 over elements in the order given. -/
def foldPartial (t : Ty) : List Nat → Nat
  | [] => 0
  | x :: xs => narrow t (xs.foldl (fun v y => addPartial t v (widen t y)) (widen t x))

/-- Element `i` of a buffer. -/
def elementOf (t : Ty) (bytes : List Byte) (i : Nat) : Nat :=
  let w := t.width / 8
  natOf ((bytes.drop (w * i)).take w)

/-- The eligible descriptors of collectives with a tag, each the head of its chain. -/
def State.sharers (s : State) (tag : Nat) : List Taken :=
  s.registrations.filterMap fun r =>
    match s.chainHead r with
    | .take d => if (d.op = 0x10 ∨ d.op = 0x11) ∧ d.tag = tag then some d else none
    | _ => none

/-- Descriptors of one collective agree (R372). -/
def Taken.agrees (a b : Taken) : Bool :=
  a.op == b.op && a.field 0x0D 1 == b.field 0x0D 1 && a.field 0x0F 1 == b.field 0x0F 1 && a.field 0x20 8 == b.field 0x20 8 &&
    a.field 0x30 2 == b.field 0x30 2

/-- The first `n` entries of a peer table, or the address of the first that cannot be read. -/
def State.peerTable (s : State) (d : Taken) : (n : Nat) → Except Nat (List Nat)
  | 0 => .ok []
  | n + 1 =>
    match s.peerTable d n with
    | .error a => .error a
    | .ok l =>
      match s.masterRead d.ctx (d.field 0x28 8 + 8 * n) 8 with
      | some v => .ok (l ++ [v])
      | none => .error (d.field 0x28 8 + 8 * n)

/-- The place of a buffer in this module's memory. -/
def State.placeOf (s : State) (ctx va : Nat) : Option Nat :=
  match s.moverKey ctx va 0#3 with
  | .ok (none, k) => some k
  | _ => none

/-- The places of the buffers of this module that a member's peer table names. -/
def State.namedBy (s : State) (d : Taken) : List Nat :=
  match s.peerTable d (if d.op = 0x10 then d.field 0x30 2 else 3) with
  | .error _ => []
  | .ok l => (l.filter fun va => d.op = 0x10 || va ≠ 0).filterMap (s.placeOf d.ctx)

/-- The members of this module that peer tables join to a list of members, one link after another. [log 22: DESIGN CHOICE, unsafe] -/
def State.fellows (s : State) (all : List Taken) : (n : Nat) → List Taken → List Taken
  | 0, ds => ds
  | n + 1, ds =>
    let ks := ds.flatMap s.namedBy
    s.fellows all n (all.filter fun m =>
      (ds.any fun d => decide (d.r.mover = m.r.mover ∧ d.r.slot = m.r.slot)) || (s.placeOf m.ctx (m.field 0x18 8)).any ks.contains)

/-- A mismatch halts the chain of every member of the collective (R373, R467). -/
def State.mismatch (s : State) (d : Taken) : State :=
  let all := s.sharers d.tag
  (s.fellows all all.length [d]).foldl (fun (s : State) d => s.halt d.r d.block d.idx 4 0) s

/-- Which member of a collective an entry of a peer table stands for: a chain of this module, or a buffer of another module. -/
inductive Member where
  | here (d : Taken)
  | away (va : Nat)
  deriving Repr, Inhabited

/-- The member at an entry: one of this module is found by the place of its buffer, and waits for its descriptor to be eligible. -/
def State.memberAt (s : State) (d : Taken) (all : List Taken) (va : Nat) : Except MoverStop Member :=
  match s.moverKey d.ctx va 0#3 with
  | .error e => .error e
  | .ok (some m, _) => if s.peerHeld m then .error .wait else .ok (.away va)
  | .ok (none, k) =>
    match all.find? fun m => s.placeOf m.ctx (m.field 0x18 8) = some k with
    | some m => .ok (.here m)
    | none => .error .wait

/-- The members of a peer table. [log 22: DESIGN CHOICE, unsafe] -/
def State.membersOf (s : State) (d : Taken) (all : List Taken) : List Nat → Except MoverStop (List Member)
  | [] => .ok []
  | va :: vas =>
    match s.memberAt d all va, s.membersOf d all vas with
    | .error e, _ => .error e
    | .ok _, .error e => .error e
    | .ok m, .ok ms => .ok (m :: ms)

/-- Bytes of a member's buffer. -/
def Taken.bufferBytes (d : Taken) (t : Ty) : Nat := d.field 0x20 8 * (t.width / 8)

/-- The buffers of members as pieces; a failure stops the chain that it concerns. [log 22: DESIGN CHOICE, unsafe] -/
def State.buffers (s : State) (d : Taken) (n : Nat) : List Member → Except (Taken × MoverStop) (List Run)
  | [] => .ok []
  | m :: ms =>
    let r := match m with
      | .here e => (s.rangeOf e e.ctx (e.field 0x18 8) n 3#3).mapError fun x => (e, x)
      | .away va => (s.rangeOf d d.ctx va n 0#3).mapError fun x => (d, x)
    match r, s.buffers d n ms with
    | .error e, _ => .error e
    | .ok _, .error e => .error e
    | .ok a, .ok as => .ok (a :: as)

/-- The chains of this module among members. -/
def membersHere (ms : List Member) : List Taken :=
  ms.filterMap fun m =>
    match m with
    | .here d => some d
    | .away _ => none

/-- The result of a ring all-reduce in the buffers' order of bytes (R140). -/
def ringBytes (t : Ty) (exact : Bool) (count : Nat) (bufs : List (List Byte)) : List Byte :=
  let p := bufs.length
  (List.range count).flatMap fun i =>
    let q := i / (count / p)
    let xs := (List.range p).map fun j => elementOf t ((bufs[(q + 1 + j) % p]?).getD []) i
    bytesOf (if exact then exactSum xs else foldPartial t xs) (t.width / 8)

/-- Write the result of a collective to buffers, poisoned where any member's bytes were. -/
def State.writeAll (s : State) (bytes : List Byte) (runs : List Run) : State :=
  let s0 := s
  runs.foldl (fun (s : State) r => (s.runWrite bytes (fun i => runs.any fun q => s0.runTaint q i) r).serveWatches) s

/-- The requests of a member of this module: those of its mover for its buffer, and where a member is of another module what the mover exchanges with it, all under the member's own `SLK` (R412, R467). -/
def State.sendMember (s : State) (away : Bool) (m : Taken) (r : Run) : State :=
  let s := s.sendRun m r
  if away then s.send m.stamp [unitQueue (ioPort + m.r.mover / 32) (1 + m.r.mover % 32)] else s

/-- A member is of another module. -/
def Member.isAway : Member → Bool
  | .away _ => true
  | .here _ => false

/-- The requests of the members of this module. -/
def State.sendMembers (s : State) (away : Bool) (ms : List (Member × Run)) : State :=
  ms.foldl (fun (s : State) p =>
    match p.1 with
    | .here m => s.sendMember away m p.2
    | .away _ => s) s

/-- `MOVER_RING_ALLREDUCE`: once every member of this module has its descriptor eligible, a ring all-reduce is performed for all of them (R140, R372, R467). [log 22: DESIGN CHOICE, unsafe] -/
def execMoverRingAllreduce (mover slot : Nat) (s : State) : Outcome State Fault Refusal :=
  .next <| moverStep mover slot [0x10] (fun d s =>
    let p := d.field 0x30 2
    match d.ty, s.peerTable d p with
    | none, _ => s.stopChain d (.code 1 0)
    | some _, .error a => s.stopChain d (.code 3 a)
    | some t, .ok table =>
      if p < 2 ∨ p > 512 ∨ d.field 0x32 2 ≥ p ∨ d.field 0x20 8 % p ≠ 0 then s.stopChain d (.code 2 0)
      else if table[d.field 0x32 2]? ≠ some (d.field 0x18 8) then s.mismatch d
      else
        match s.membersOf d (s.sharers d.tag) table with
        | .error e => s.stopChain d e
        | .ok ms =>
          if (membersHere ms).any fun m => !d.agrees m then s.mismatch d
          else
            match s.buffers d (d.bufferBytes t) ms with
            | .error e => s.stopChain e.1 e.2
            | .ok runs =>
              let bytes := ringBytes t (d.exact t) (d.field 0x20 8) (runs.map s.runBytes)
              let s := s.sendMembers (ms.any Member.isAway) (ms.zip runs)
              (membersHere ms).foldl (fun (s : State) m => s.done m) (s.writeAll bytes runs)) s

/-- The part of a tree below a member: its value, the elements below it, and its chains of this module. A member of another module contributes a free partial value. -/
structure Subtree where
  /-- partial values by element -/
  sum : List Nat
  /-- elements of each member below -/
  leaves : List (List Nat)
  /-- the members of this module with their buffers -/
  here : List (Taken × Run)
  /-- a member below is of another module -/
  away : Bool
  /-- the next free value -/
  next : Nat
  deriving Repr, Inhabited

/-- A child of another module: free values of its own, from `next` on. [log 19: DESIGN CHOICE, safe] -/
def awaySubtree (t : Ty) (count next : Nat) : Subtree :=
  let xs := (List.range count).map fun i => (Config.partialSum (next + i)).toNat % 2 ^ (partialTy t).width
  ⟨xs, [xs], [], true, next + count⟩

/-- Join a node with a child, formed after it (R140). -/
def Subtree.join (t : Ty) (a b : Subtree) : Subtree :=
  ⟨List.zipWith (addPartial t) a.sum b.sum, a.leaves ++ b.leaves, a.here ++ b.here, a.away || b.away, b.next⟩

/-- The subtree of a member of this module; `next` is the next free value. -/
def State.subtree (s : State) (t : Ty) (all : List Taken) : (fuel : Nat) → (next : Nat) → Taken → Except (Taken × MoverStop) Subtree
  | 0, _, d => .error (d, .code 4 0)
  | n + 1, next, d =>
    let count := d.field 0x20 8
    match s.peerTable d 3, s.rangeOf d d.ctx (d.field 0x18 8) (d.bufferBytes t) 3#3 with
    | .error a, _ => .error (d, .code 3 a)
    | .ok _, .error e => .error (d, e)
    | .ok table, .ok run =>
      let bytes := s.runBytes run
      let own := (List.range count).map fun i => elementOf t bytes i
      let me : Subtree := ⟨own.map (widen t), [own], [(d, run)], false, next⟩
      let child : Nat → Subtree → Except (Taken × MoverStop) Subtree := fun va x =>
        if va = 0 then .ok x
        else
          match s.memberAt d all va with
          | .error e => .error (d, e)
          | .ok (.away _) => .ok (x.join t (awaySubtree t count x.next))
          | .ok (.here m) => if d.agrees m then (s.subtree t all n x.next m).map fun y => x.join t y else .error (d, .code 4 0)
      match child (table.getD 1 0) me with
      | .error e => .error e
      | .ok x => child (table.getD 2 0) x

/-- The topmost member of this module above a member, and whether its parent is of another module. -/
def State.rootOf (s : State) (all : List Taken) : (fuel : Nat) → Taken → Except (Taken × MoverStop) (Taken × Bool)
  | 0, d => .error (d, .code 4 0)
  | n + 1, d =>
    match s.peerTable d 1 with
    | .error a => .error (d, .code 3 a)
    | .ok table =>
      if table.getD 0 0 = 0 then .ok (d, false)
      else
        match s.memberAt d all (table.getD 0 0) with
        | .error e => .error (d, e)
        | .ok (.away _) => .ok (d, true)
        | .ok (.here m) => s.rootOf all n m

/-- `MOVER_TREE_ALLREDUCE`: once every member of this module in the tree has its descriptor eligible, a tree all-reduce is performed for all of them (R140, R372, R467). -/
def execMoverTreeAllreduce (mover slot : Nat) (s : State) : Outcome State Fault Refusal :=
  .next <| moverStep mover slot [0x11] (fun d s =>
    let p := d.field 0x30 2
    let all := s.sharers d.tag
    match d.ty with
    | none => s.stopChain d (.code 1 0)
    | some t =>
      if p < 2 ∨ p > 512 ∨ d.field 0x32 2 ≥ p then s.stopChain d (.code 2 0)
      else
        match (s.rootOf all p d).bind fun r => (s.subtree t all p s.free r.1).map fun x => (x, r.2) with
        | .error (m, .code 4 _) => s.mismatch m
        | .error (m, e) => s.stopChain m e
        | .ok (x, above) =>
          let count := d.field 0x20 8
          let values :=
            if above ∨ x.away && d.exact t then (awaySubtree t count x.next).sum.map (narrow t)
            else if d.exact t then (List.range count).map fun i => exactSum (x.leaves.map fun l => l.getD i 0)
            else x.sum.map (narrow t)
          let bytes := values.flatMap fun v => bytesOf v (t.width / 8)
          let s := x.here.foldl (fun (s : State) p => s.sendMember (x.away || above) p.1 p.2) s
          let s := { s with free := x.next + count }.writeAll bytes (x.here.map fun (p : Taken × Run) => p.2)
          x.here.foldl (fun (s : State) p => s.done p.1) s) s

/-! ## Ethernet (R372, R493) -/

/-- One step of the IEEE 802.3 frame check sequence on a bit of a byte. [log 20: PRESUMED, unsafe] -/
def crcStep (c : BitVec 32) : BitVec 32 := if c.getLsbD 0 then (c >>> 1) ^^^ 0xEDB88320#32 else c >>> 1

/-- The frame check sequence of IEEE 802.3. [log 20: PRESUMED, unsafe] -/
def fcs (bs : List Byte) : BitVec 32 :=
  ~~~ (bs.foldl (fun c b => (List.range 8).foldl (fun c _ => crcStep c) (c ^^^ b.zeroExtend 32)) (BitVec.allOnes 32))

/-- An Ethernet port. -/
def State.ethPort (s : State) (p : Nat) : EthPort := vget s.eth p ⟨[], [], 0⟩

/-- Apply a change to an Ethernet port. -/
def State.modEth (s : State) (p : Nat) (f : EthPort → EthPort) : State := { s with eth := vset s.eth p (f (s.ethPort p)) }

/-- `ETHERNET_SEND`: a mover sends a frame, the FCS appended (R372, R493). -/
def execEthernetSend (mover slot : Nat) (s : State) : Outcome State Fault Refusal :=
  .next <| moverStep mover slot [0x20] (fun d s =>
    let n := d.field 0x20 8
    let port := d.field 0x38 1
    if n < 64 ∨ n > 9216 then s.stopChain d (.code 2 0)
    else if port > 3 then s.stopChain d (.code 1 0)
    else
      match s.rangeOf d d.ctx (d.field 0x10 8) n 1#3 with
      | .error e => s.stopChain d e
      | .ok r =>
        let frame := s.runBytes r
        ((s.sendRun d r).modEth port fun e => { e with sent := e.sent ++ [frame ++ bytesOf (fcs frame).toNat 4] }).done d) s

/-- `ETHERNET_RECEIVE`: a mover writes the next received frame: its length in the first 8 bytes, and up to `LEN` bytes of it after them (R372, R493). [log 44: DEDUCED, unsafe] -/
def execEthernetReceive (mover slot : Nat) (s : State) : Outcome State Fault Refusal :=
  .next <| moverStep mover slot [0x21] (fun d s =>
    let port := d.field 0x38 1
    if port > 3 then s.stopChain d (.code 1 0)
    else
      match (s.ethPort port).received with
      | [] => s
      | f :: fs =>
        let bytes := bytesOf f.length 8 ++ f.take (d.field 0x20 8)
        match s.rangeOf d d.ctx (d.field 0x18 8) bytes.length 2#3 with
        | .error e => s.stopChain d e
        | .ok r =>
          (((s.sendRun d r).runWrite bytes (fun _ => false) r).modEth port fun e => { e with received := fs }).done d) s

/-- The eligible receive descriptors of a port in a chain, from a descriptor on. -/
def State.receivers (s : State) (ctx port : Nat) : (n : Nat) → Nat → Nat
  | 0, _ => 0
  | n + 1, va =>
    if va = 0 then 0
    else
      match s.masterRead ctx va 64 with
      | some v =>
        (if sliceNat v 0x0C 1 = 0x21 ∧ sliceNat v 0x38 1 = port then 1 else 0) + s.receivers ctx port n (sliceNat v 0 8)
      | none => 0

/-- The eligible receive descriptors of a port. -/
def State.portReceivers (s : State) (port : Nat) : Nat :=
  (s.registrations.map fun r =>
    match s.chainHead r with
    | .take d => s.receivers d.ctx port (memNat s.mem (d.block + 0x14) 4 - d.idx) d.va
    | _ => 0).sum

/-- `ETHERNET_FRAME_ARRIVAL`: a frame reaches a port. One with a bad FCS, of a length that the port does not support, or without an eligible receive descriptor is dropped and counted; flow control holds a frame at its sender (R493). -/
def execEthernetFrameArrival (port : Nat) (frame : List Byte) (fcsGood paused : Bool) (s : State) : Outcome State Fault Refusal :=
  .next <|
    if ¬ s.awake ∨ paused then s
    else if fcsGood ∧ 64 ≤ frame.length ∧ frame.length ≤ 9216 ∧ (s.ethPort port).received.length < s.portReceivers port then
      s.modEth port fun e => { e with received := e.received ++ [frame] }
    else s.modEth port fun e => { e with dropped := e.dropped + 1 }

/-! ## Utium and the host link (R259, R261, R479, R480, R486) -/

/-- Write bytes that arrive over a link at the memory side, within one sector, with its poison bit; waits that watch them are tested (R420, R426). -/
def State.linkWrite (s : State) (pa : Nat) (bytes : List Byte) (poisoned : Bool) : State :=
  if regionOf pa = .global ∧ bytes ≠ [] ∧ pa % 128 + bytes.length ≤ 128 then
    (s.sideMerge (pa / 128) (byteRun (pa % 128) bytes.length) (BitVec.ofNat 1024 (natOf bytes * 2 ^ (8 * (pa % 128)))) poisoned).serveWatches
  else s

/-- Bytes split where sectors end: place and bytes. -/
def splitSectors (pa : Nat) (bytes : List Byte) : List (Nat × List Byte) :=
  if bytes = [] then [] else (sectorsOf pa bytes.length).map fun p => (p.1, (bytes.drop (p.1 - pa)).take p.2)

/-- `UTIUM_FLIT_RECEIVE`: a flit arrives at a port; one whose CRC fails is sent again, and a good one's writes are performed with their poison (R486). [log 22: DESIGN CHOICE, unsafe] -/
def execUtiumFlitReceive (port : Nat) (crcGood : Bool) (flit : Flit) (s : State) : Outcome State Fault Refusal :=
  .next <|
    if s.awake ∧ port < 48 ∧ crcGood then flit.writes.foldl (fun (s : State) w => s.linkWrite w.1 w.2.1 w.2.2) s else s

end Sys2Proof.Machine
end

