-- ==== Sys2Proof/Machine/Start.lean ====
section
/-! DEFINITION. Whole-package reset, the start and its nine steps, firmware images, measurements, attestation, power and the host links (R477, R478, R482, R494 to R503). -/

namespace Sys2Proof.Machine

open Host (Outcome)

/-! ## SHAKE256, which R499 and R500 name (log 20) -/

/-- Rotations of the lanes, lane x + 5y. -/
def keccakRot : List Nat := [0, 1, 62, 28, 27, 36, 44, 6, 55, 20, 3, 10, 43, 25, 39, 41, 45, 15, 21, 8, 18, 2, 61, 56, 14]

/-- Constants of the rounds. -/
def keccakRounds : List W64 :=
  [0x0000000000000001#64, 0x0000000000008082#64, 0x800000000000808A#64, 0x8000000080008000#64, 0x000000000000808B#64,
    0x0000000080000001#64, 0x8000000080008081#64, 0x8000000000008009#64, 0x000000000000008A#64, 0x0000000000000088#64,
    0x0000000080008009#64, 0x000000008000000A#64] ++
  [0x000000008000808B#64, 0x800000000000008B#64, 0x8000000000008089#64, 0x8000000000008003#64, 0x8000000000008002#64,
    0x8000000000000080#64, 0x000000000000800A#64, 0x800000008000000A#64, 0x8000000080008081#64, 0x8000000000008080#64,
    0x0000000080000001#64, 0x8000000080008008#64]

/-- Lane (x, y) of a state, both taken modulo 5. -/
def laneAt (a : Vector W64 25) (x y : Nat) : W64 := vget a (x % 5 + 5 * (y % 5)) 0#64

/-- One round of the permutation. -/
def keccakRound (a : Vector W64 25) (rc : W64) : Vector W64 25 :=
  let c : Vector W64 5 := Vector.ofFn fun x =>
    laneAt a x.val 0 ^^^ laneAt a x.val 1 ^^^ laneAt a x.val 2 ^^^ laneAt a x.val 3 ^^^ laneAt a x.val 4
  let col := fun (x : Nat) => vget c (x % 5) 0#64
  let t : Vector W64 25 := Vector.ofFn fun i => a[i] ^^^ col (i.val % 5 + 4) ^^^ (col (i.val % 5 + 1)).rotateLeft 1
  let b : Vector W64 25 := Vector.ofFn fun i =>
    let x := i.val % 5
    let y := i.val / 5
    let from_ := (x + 3 * y) % 5 + 5 * x
    (vget t from_ 0#64).rotateLeft (keccakRot.getD from_ 0)
  Vector.ofFn fun i =>
    let x := i.val % 5
    let y := i.val / 5
    let v := laneAt b x y ^^^ (~~~ laneAt b (x + 1) y &&& laneAt b (x + 2) y)
    if i.val = 0 then v ^^^ rc else v

/-- The permutation. [log 20: PRESUMED, unsafe] -/
def keccak (a : Vector W64 25) : Vector W64 25 := keccakRounds.foldl keccakRound a

/-- Absorb blocks of 136 bytes; `n` bounds their number. -/
def absorb : (n : Nat) → List Byte → Vector W64 25 → Vector W64 25
  | 0, _, a => a
  | n + 1, bs, a =>
    if bs = [] then a
    else
      absorb n (bs.drop 136)
        (keccak (Vector.ofFn fun i =>
          if i.val < 17 then a[i] ^^^ BitVec.ofNat 64 (natOf ((bs.drop (8 * i.val)).take 8)) else a[i]))

/-- Padded input: the domain bits of SHAKE and the final bit. [log 20: PRESUMED, unsafe] -/
def shakePad (bs : List Byte) : List Byte :=
  let k := 136 - bs.length % 136
  if k = 1 then bs ++ [0x9F#8] else bs ++ [0x1F#8] ++ List.replicate (k - 2) 0#8 ++ [0x80#8]

/-- SHAKE256 with an output of 512 bits; byte `i` is bits 8i + 7 to 8i. [log 20: PRESUMED, unsafe] -/
def shake256 (bs : List Byte) : BitVec 512 :=
  let p := shakePad bs
  let a := absorb (p.length / 136) p (Vector.ofFn fun _ => 0#64)
  laneAt a 2 1 ++ laneAt a 1 1 ++ laneAt a 0 1 ++ laneAt a 4 0 ++ laneAt a 3 0 ++ laneAt a 2 0 ++ laneAt a 1 0 ++ laneAt a 0 0

/-! ## Firmware images (R499) -/

/-- Bytes [o, o + n) of an image as a number. -/
def imageField (img : List Byte) (o n : Nat) : Nat := natOf ((img.drop o).take n)

/-- The digest that an image's header gives. -/
def imageDigest (img : List Byte) : BitVec 512 := BitVec.ofNat 512 (imageField img 0x10 64)

/-- An image that verification takes (R499). [log 12: DESIGN CHOICE, safe] -/
def imageGood (f : Flash) (kind : Nat) (img : List Byte) : Bool :=
  decide (imageField img 0 4 = 0x4E444D57 ∧ imageField img 4 2 = kind ∧ img.length = 0x560 + imageField img 0x0C 4) &&
    decide (imageField img 0x50 2 ≤ 1280 ∧ imageField img 0x52 14 = 0 ∧ f.minSvn.getD (kind - 1) 0 ≤ imageField img 8 4) &&
    shake256 (img.drop 0x560) == imageDigest img && Config.signatureHolds img

/-- Extend a measurement register (R500). -/
def State.measure (s : State) (i : Nat) (d : List Byte) : State :=
  let m := vget s.measures i 0#512
  { s with measures := vset s.measures i (shake256 (bytesOf m.toNat 64 ++ d)) }

/-- Extend a measurement register with an image's digest. -/
def State.measureImage (s : State) (i : Nat) (img : List Byte) : State := s.measure i (bytesOf (imageDigest img).toNat 64)

/-! ## Whole-package reset (R494) -/

/-- Bytes that are not this module's global memory: they stay when its memory is zeroed. -/
def elsewhere (a : Nat) : Bool := decide (2 ^ 52 ≤ a) || regionOf a != .global

/-- Global memory zeroed, with valid varnish (R241). -/
def State.zeroMemory (s : State) : State :=
  { s with mem := s.mem.filter fun c => elsewhere c.1, memPoison := s.memPoison.filter fun k => elsewhere (128 * k) }

/-- Whole-package reset: every register at its reset value, but for the syndrome registers, `MODE`, the saved set and the failure counts; the firmware flash is no register. What the module has sent stays with its receiver. [log 45: DEDUCED, unsafe] -/
def State.wholeReset (s : State) : State :=
  { State.reset with
    mem := s.mem
    memPoison := s.memPoison
    syndromes := s.syndromes
    start := { State.reset.start with mode := s.start.mode, gf := s.start.gf, rf := s.start.rf, saved := s.start.saved, lastGood := s.start.lastGood }
    flash := s.flash
    eth := Vector.ofFn fun i => { s.eth[i] with received := [], dropped := 0 }
    hostReply := s.hostReply
    attestation := s.attestation
    reports := s.reports
    studioNotices := s.studioNotices
    agenda := s.agenda
    free := s.free
    ids := s.ids }

/-- The state that the loss of power leaves: the memory goes with the registers, the syndromes and `MODE` (R453, R478, R495). -/
def State.unpowered (s : State) : State :=
  let s := s.wholeReset.zeroMemory
  { s with syndromes := State.reset.syndromes, start := { s.start with mode := 0#2 }, powered := false }

/-- `POWER_ON`: power-on enters whole-package reset (R494). [log 45: DEDUCED, unsafe] -/
def execPowerOn (s : State) : Outcome State Fault Refusal := .next { s.unpowered with powered := true }

/-- `POWER_REMOVAL`: the host removes power, and what the module holds is lost (R478). -/
def execPowerRemoval (s : State) : Outcome State Fault Refusal := .next s.unpowered

/-- `FUNDAMENTAL_RESET`: PERST# on link 0 (R494). -/
def execFundamentalReset (s : State) : Outcome State Fault Refusal := .next (if s.powered then s.wholeReset else s)

/-- `GROUND_WATCHDOG_RESET`: the ground firmware's own watchdog (R494). -/
def execGroundWatchdogReset (s : State) : Outcome State Fault Refusal := .next (if s.powered then s.wholeReset else s)

/-- A link of a powered module is up, so that the start registers and the mailbox answer (R482, R498). -/
def State.linked (s : State) : Bool := s.powered && (s.link0 || s.link1)

/-- `RST`: a write of `RST` = 1 (R494, R495). -/
def execRst (s : State) : Outcome State Fault Refusal := .next (if s.linked then s.wholeReset else s)

/-! ## The start (R496 to R498) -/

/-- The saved set is valid for a retouch (R497). -/
def State.savedValid (s : State) : Bool := s.start.saved = some (imageDigest s.flash.ground) && s.start.lastGood

/-- The start to run is a retouch (R495, R497, R498). -/
def State.retouches (s : State) : Bool := s.start.mode = 0#2 && s.savedValid && s.start.rf ≠ 3#4

/-- A count of failures raised, to 3 at most. -/
def raise3 (n : BitVec 4) : BitVec 4 := if n.toNat < 3 then n + 1#4 else 3#4

/-- A start fails at the step that runs (R498): in the safe state link 0 is trained, and no reset follows. -/
def State.failStart (s : State) : State :=
  let t := s.start
  let gf := if t.kind then t.gf else raise3 t.gf
  let safe : Bool := !t.kind && gf = 3#4
  { s with
    start := { t with
      step := BitVec.ofNat 8 t.phase, phase := 0, gf, rf := if t.kind then raise3 t.rf else t.rf, safe, failed := !safe
      lastGood := decide (6 ≤ t.phase) }
    link0 := s.link0 || safe }

/-- The start status register (R495). -/
def Start.status (t : Start) : W32 :=
  t.step ++ t.gf ++ t.rf ++ 0#8 ++ BitVec.ofBool t.safe ++ BitVec.ofBool t.ready ++ BitVec.ofBool t.kind ++ BitVec.ofNat 5 t.phase

/-- Clusters that the ground firmware gives to reservations, in the order of a free rotation (R361). [log 45: DEDUCED, unsafe] -/
def giveClusters : List Reservation → List Nat → List Reservation
  | [], _ => []
  | r :: rs, cs => { r with clusters := cs.take r.count } :: giveClusters rs (cs.drop r.count)

/-- Step 8 (R14, R361, R388, R450, R494, R496). [log 45: DEDUCED, unsafe] -/
def State.furnish (s : State) (spare : Nat) : State :=
  let sp := spare % 9
  let cs := (List.range 54).filter fun c => c / 6 ≠ sp
  let k := Config.pick s.free % 48
  { s with
    free := s.free + 1
    dies := Vector.ofFn fun d => { Die.reset with inService := decide (d.val ≠ sp), spare := decide (d.val = sp) }
    termWord := if sp = 0 then 1#64 else 0#64
    epoch := 0#64
    circuits := Vector.ofFn fun c => ⟨0#8, false, ((s.flash.provision.peers.find? fun p => p.1 = c.val).map (·.2)).getD 0#9⟩
    ctxs := s.flash.provision.contexts.map Ctx.reset
    reservations := giveClusters s.flash.provision.reservations (cs.drop k ++ cs.take k) }

/-- The start completes: `READY` is set and measured, the failure counts are cleared, and a gesso start saves its set (R496, R498, R500). -/
def State.ready (s : State) : State :=
  let t := s.start
  let t := { t with
    phase := 0, ready := true, gf := 0#4, rf := 0#4, lastGood := true
    saved := if t.kind then t.saved else some (imageDigest s.flash.ground) }
  { s with start := t }.measure 4 (bytesOf t.status.toNat 4)

/-- The action of a step of R496 and the next step; `none` where verification rejects an image. [log 45: DEDUCED, unsafe] -/
def State.startStep (s : State) (spare : Nat) : Option State :=
  let f := s.flash
  let next := fun (s : State) => { s with start := { s.start with phase := s.start.phase + 1 } }
  match s.start.phase with
  | 1 => if imageGood f 1 f.ground then some (next (s.measureImage 0 f.ground)) else none
  | 3 =>
    if imageGood f 2 f.studio && imageGood f 3 f.topology && imageGood f 4 f.provisioning then
      let s := ((s.measureImage 1 f.studio).measureImage 2 f.topology).measureImage 3 f.provisioning
      some (next { s with topology := some f.table })
    else none
  | 7 => some (next s.zeroMemory)
  | 8 => some (next (s.furnish spare))
  | 9 => some s.ready
  | _ => some (next s)

/-- `START`: a start begins, or the step that runs ends. It succeeds when `good` and its images verify; step 8 designates die `spare` (R496). [log 45: DEDUCED, unsafe] -/
def execStart (good : Bool) (spare : Nat) (s : State) : Outcome State Fault Refusal :=
  .next <|
    let t := s.start
    if ¬ s.powered ∨ t.ready ∨ t.safe ∨ t.failed then s
    else if t.phase = 0 then { s with start := { t with phase := 1, kind := s.retouches } }
    else
      match (if good then s.startStep spare else none) with
      | some s => s
      | none => s.failStart

/-- `START_STEP_TIMEOUT`: the step that runs outlasts its limit; step 9 has none (R496). -/
def execStartStepTimeout (s : State) : Outcome State Fault Refusal :=
  .next (if s.powered ∧ 1 ≤ s.start.phase ∧ s.start.phase ≤ 8 then s.failStart else s)

/-- `START_FAILURE_RESET`: after a failed start the package resets itself (R498). -/
def execStartFailureReset (s : State) : Outcome State Fault Refusal :=
  .next (if s.powered ∧ s.start.failed then s.wholeReset else s)

/-! ## Firmware at work (R501, R503) -/

/-- The ground firmware runs: step 1 has verified it. -/
def State.groundRuns (s : State) : Bool := s.powered && (s.start.ready || s.start.safe || decide (2 ≤ s.start.phase))

/-- `STUDIO_RESTART`: the ground firmware restarts the studio firmware, extending register 1 again (R503). -/
def execStudioRestart (s : State) : Outcome State Fault Refusal :=
  .next (if s.powered ∧ (s.start.ready ∨ 4 ≤ s.start.phase) then s.measureImage 1 s.flash.studio else s)

/-- The bytes of an attestation report that its signature covers (R501). [log 12: DESIGN CHOICE, safe] -/
def State.reportBody (s : State) (nonce : BitVec 256) : List Byte :=
  let svn := fun (img : List Byte) => bytesOf (imageField img 8 4) 4
  bytesOf nonce.toNat 32 ++ bytesOf ((s.topology.map fun t => t.mn.toNat).getD 0) 2 ++ bytesOf 0 14 ++
    svn s.flash.ground ++ svn s.flash.studio ++ svn s.flash.topology ++ svn s.flash.provisioning ++
    s.measures.toList.flatMap fun m => bytesOf m.toNat 64

/-- `ATTESTATION_REQUEST`: the ground firmware answers a nonce with a signed report (R501). -/
def execAttestationRequest (nonce : BitVec 256) (s : State) : Outcome State Fault Refusal :=
  .next <|
    if s.groundRuns ∧ s.link0 then
      let body := s.reportBody nonce
      { s with attestation := body ++ (List.range 1280).map fun i => Config.signature body i }
    else s

/-- `HOST_LINK_TRAINED`: a host link trains and comes up (R477). -/
def execHostLinkTrained (link : Nat) (s : State) : Outcome State Fault Refusal :=
  .next <|
    if ¬ s.powered then s
    else if link = 0 then { s with link0 := true }
    else if link = 1 then { s with link1 := true }
    else s

end Sys2Proof.Machine
end

