-- ==== Sys2Proof/Machine/Host.lean ====
section
/-! DEFINITION. What the host and the fabric manager do through the management space, the switch matrix with its epochs, invalidations, router pairs and lanes (R7, R20 to R23, R246, R247, R292, R346, R368, R387 to R389, R406, R430, R431, R444, R477 to R492, R506). -/

namespace Sys2Proof.Machine

open Host (Outcome)

/-! ## Served records and fault queues (R367, R442, R485, R489) -/

/-- The fabric manager serves a record: a held team or gang goes on, a mover's chain tries its descriptor again, and records that wait for room are written (R367, R467). -/
def State.serveFabric (s : State) (idx : Nat) (fail : Bool) : State :=
  match s.fabricOut.find? fun r => r.idx = idx with
  | none => s
  | some r =>
    let s := { s with fabricOut := s.fabricOut.filter fun x => x.idx ≠ idx }
    let s := if r.slot < 0x10000 then s.serveRecord true r fail
      else s.modChain ((r.slot - 0x10000) / 16) ((r.slot - 0x10000) % 16) fun c =>
        if c.unlit = some idx then { c with unlit := none, failed := c.failed || fail } else c
    s.drainFabric s.fabricWaiting

/-- The studio firmware and the ground firmware work, whatever links are up (R489, R496). -/
def State.firmwareOpen (s : State) : Bool := s.start.ready && s.powered

/-- `FABRIC_FAULT_SERVED`: the studio fabric manager writes the fabric fault-served register (R489). [log 42: DESIGN CHOICE, unsafe] -/
def execFabricFaultServed (idx : W32) (fail : Bool) (s : State) : Outcome State Fault Refusal :=
  .next (if s.firmwareOpen then s.serveFabric idx.toNat fail else s)

/-- The host driver serves a page-fault record; an index that no outstanding record has is ignored. -/
def State.serveFault (s : State) (ctx idx : Nat) : State :=
  match (s.ctx? ctx).bind fun c => c.outstanding.find? fun r => r.idx = idx with
  | none => s
  | some r => (s.modCtx ctx fun c => { c with outstanding := c.outstanding.filter fun x => x.idx ≠ idx }).serveRecord false r false

/-- `FAULT_SERVED`: a write of a context's fault-served register (R485). -/
def execFaultServed (ctx : Nat) (idx : W32) (s : State) : Outcome State Fault Refusal :=
  .next (if s.barOpen then s.serveFault ctx idx.toNat else s)

/-- `FQH` is written, and waiting records are tried again. -/
def State.setFaultHead (s : State) (ctx : Nat) (head : W32) : State :=
  (s.modCtx ctx fun c => { c with fqHead := head }).retryRecords ctx

/-- `FAULT_QUEUE_HEAD_WRITE`: a write of `FQH` (R485). -/
def execFaultQueueHeadWrite (ctx : Nat) (head : W32) (s : State) : Outcome State Fault Refusal :=
  .next (if s.barOpen then s.setFaultHead ctx head else s)

/-! ## Invalidations (R232, R385, R387, R406, R485) -/

/-- Every translation of a context in [lo, hi) is gone, and its waiting records are tried again. [log 32: DEDUCED, unsafe] -/
def State.invalidated (s : State) (ctx lo hi : Nat) : State :=
  (if lo = hi then s else s.invalidate ctx lo hi).retryRecords ctx

/-- `tlbinv` (R406, R485). -/
def execTlbinv (w : Fields) (s : State) : Outcome State Fault Refusal :=
  issue { kindTable false false with priv := true } 0xA6#8 w 16 (fun x s =>
    let r := s.regsOf x.u
    let va := (r.bits w.a).toNat
    let n := r.halfOrImm w w.b
    let all : Bool := w.fn = 1#4
    match firstFault
      [consumeOnce [(w.a, r.taint w.a), (w.b, r.taint w.b)],
        if ¬ all ∧ va % 65536 ≠ 0 then some (misalignedAt laneNone accRead va) else none] with
    | some t => .error (.trap t)
    | none =>
      let lo := if all then 0 else va
      let hi := if all then 2 ^ 56 else va + 65536 * n
      if lo ≠ hi ∧ s.commandHolds x.ctx lo hi then .error (.wait .commands)
      else .ok (s.invalidated x.ctx lo hi)) s

/-- An invalidation starts with a value of the control register: `NPG` pages from `IVA`, or with `ALL` the whole context. [log 48: DEDUCED, unsafe] -/
def State.startInv (s : State) (ctx : Nat) (value : W64) : State :=
  s.modCtx ctx fun c =>
    let va := c.invAddr.toNat
    let range := if value.getLsbD 62 then (0, 2 ^ 56) else (va, va + 65536 * (value.extractLsb' 0 32).toNat)
    { c with inv := some range }

/-- A write of the invalidation control: held while `BUSY`. [log 48: DEDUCED, unsafe] -/
def State.writeInv (s : State) (ctx : Nat) (value : W64) : State :=
  match s.ctx? ctx with
  | none => s
  | some c => if c.inv.isSome then s.modCtx ctx fun c => { c with invs := c.invs ++ [value] } else s.startInv ctx value

/-- A running invalidation goes on: it completes once no command holds a translation of its range, and a held one then starts. -/
def State.advanceInv (s : State) (ctx : Nat) : State :=
  match s.ctx? ctx with
  | none => s
  | some c =>
    match c.inv with
    | none => s
    | some r =>
      if r.1 ≠ r.2 ∧ s.commandHolds ctx r.1 r.2 then s
      else
        let s := (s.modCtx ctx fun c => { c with inv := none }).invalidated ctx r.1 r.2
        match c.invs with
        | [] => s
        | v :: vs => (s.modCtx ctx fun c => { c with invs := vs }).startInv ctx v

/-- `TLB_INVALIDATE_CONTROL`: a write of a context's invalidation control (R485). -/
def execTlbInvalidateControl (ctx : Nat) (value : W64) (s : State) : Outcome State Fault Refusal :=
  .next (if s.barOpen then s.writeInv ctx value else s)

/-- An invalidation of every core's instruction cache sets out, for the host. -/
def State.invalidateAll (s : State) : State :=
  let cores := (List.range 2592).filter fun c => !(s.die (dieOf c)).fenced
  { s.bump with invals := s.invals ++ [⟨s.ids, none, cores⟩], icBusy := true }

/-- `ICACHE_INVALIDATE_GO`: a write of `GO` (R485). [log 48: DEDUCED, unsafe] -/
def execIcacheInvalidateGo (s : State) : Outcome State Fault Refusal := .next (if s.barOpen then s.invalidateAll else s)

/-! ## Way masks (R246, R247) -/

/-- Write `WAY` of a die: all 16 bits are rejected, and a change empties the ways that pass to die scratch and zeroes all of it. -/
def State.writeWay (s : State) (die : Nat) (way : BitVec 16) : State :=
  let d := s.die die
  if way = BitVec.allOnes 16 ∨ way = d.way ∨ d.fenced then s
  else
    (if way &&& ~~~ d.way = 0#16 then s else s.evictAll die).modDie die fun d =>
      { d with way := way, scratch := [], scratchPoison := [] }

/-- `WAY_MASK_WRITE`: a write of a die's way-mask register by the host, the ground firmware or a privileged handler of the die; it needs no host link (R246, R247). -/
def execWayMaskWrite (die : Nat) (way : W32) (s : State) : Outcome State Fault Refusal :=
  .next (if s.groundRuns then s.writeWay die (way.extractLsb' 0 16) else s)

/-! ## Router pairs (R20 to R23, R389) -/

/-- A pair that has a register. -/
def pairExists (i j : Nat) : Bool := decide (i ≤ 22 ∧ j ≤ 22 ∧ i ≠ j)

/-- A rail of a pair is up. -/
def Pair.up (p : Pair) : Bool := p.rail0 || p.rail1

/-- A relay that R21 takes. -/
def State.relayTaken (s : State) (i j r : Nat) : Bool :=
  decide (r ≤ 22 ∧ r ≠ i ∧ r ≠ j) && (s.pair i r).up && (s.pair r j).up

/-- Write a pair register: `CLR` clears the fault count, and a relay that is not rejected is named or cleared, to take effect under R22. -/
def State.writePair (s : State) (i j : Nat) (v : W32) : State :=
  if ¬ pairExists i j then s
  else
    let s := if v.getLsbD 23 then s.modPair i j fun p => { p with fcnt := 0#8 } else s
    let en := v.getLsbD 5
    let relay := v.extractLsb' 0 5
    if en ∧ ¬ s.relayTaken i j relay.toNat then s else s.modPair i j fun p => { p with next := some (en, relay) }

/-- `ROUTING_REGISTER_WRITE`: a write of a pair register (R21, R389). -/
def execRoutingRegisterWrite (i j : Nat) (value : W32) (s : State) : Outcome State Fault Refusal :=
  .next (if s.barOpen then s.writePair i j value else s)

/-- A packet of the pair is on its former route: sent to a relay and not yet delivered (R22). -/
def State.onRoute (s : State) (i j : Nat) : Bool := s.packets.any fun q => q.relayed.any fun r => decide (r.1 = i ∧ r.2.1 = j)

/-- `ROUTE_CHANGE_EFFECT`: every packet sent on the former route has been delivered, and the new route takes effect (R22). -/
def execRouteChangeEffect (i j : Nat) (s : State) : Outcome State Fault Refusal :=
  .next <|
    if s.onRoute i j then s
    else
      match (s.pair i j).next with
      | none => s
      | some (en, relay) => s.modPair i j fun p => { p with rlyen := en, relay := relay, next := none }

/-- `PAIR_FAULT_COUNT_CLEAR`: 1 is written to `CLR` of a pair register (R389). -/
def execPairFaultCountClear (i j : Nat) (s : State) : Outcome State Fault Refusal :=
  .next (if s.barOpen ∧ pairExists i j then s.modPair i j fun p => { p with fcnt := 0#8 } else s)

/-- A rail of a pair is up. -/
def Pair.railUp (p : Pair) (rail : Nat) : Bool := if rail = 0 then p.rail0 else p.rail1

/-- A pair with a rail set. -/
def Pair.setRail (p : Pair) (rail : Nat) (b : Bool) : Pair := if rail = 0 then { p with rail0 := b } else { p with rail1 := b }

/-- A colour of a pair is lost on a plane: its rail goes down for that pair, counted and posted to the studio firmware (R20). -/
def State.loseRail (s : State) (i j plane : Nat) : State :=
  if pairExists i j ∧ plane < 12 ∧ (s.pair i j).railUp (plane / 6) then
    { s.modPair i j fun p =>
        let p := p.setRail (plane / 6) false
        { p with fcnt := if p.fcnt = 255#8 then p.fcnt else p.fcnt + 1#8, lostAt := if p.up then p.lostAt else some s.tick } with
      studioNotices := s.studioNotices + 1 }
  else s

/-- `RAIL_LOSS`: a colour of a pair is lost on a plane (R20). -/
def execRailLoss (i j plane : Nat) (s : State) : Outcome State Fault Refusal :=
  .next (if s.powered then s.loseRail i j plane else s)

/-- A lane of the pair's rail is retraining, or has failed three times. -/
def State.railOut (s : State) (i j rail : Nat) : Bool :=
  s.retrains.any fun r =>
    match r.lane with
    | .router a b plane => decide (a = i ∧ b = j ∧ plane / 6 = rail)
    | .utium _ _ => false

/-- `RAIL_RELOCK`: every colour of a rail has relocked, and the pair returns to it (R491). -/
def execRailRelock (i j rail : Nat) (s : State) : Outcome State Fault Refusal :=
  .next <|
    if s.powered ∧ pairExists i j ∧ rail < 2 ∧ ¬ s.railOut i j rail then
      s.modPair i j fun p => { p.setRail rail true with lostAt := none }
    else s

/-- `PAIR_LOSS_TIMEOUT`: 100 µs after a pair lost its second rail with no relay named, an end that is a compute die is fenced, the higher port of two; between other ends it is an uncontained error (R23). [log 46: DEDUCED, unsafe] -/
def execPairLossTimeout (i j : Nat) (s : State) : Outcome State Fault Refusal :=
  .next <|
    let p := s.pair i j
    let named : Bool := p.rlyen || p.next.any fun n => n.1
    if (p.lostAt.any fun t => decide (t + 100000 ≤ s.tick)) && !named && s.awake && pairExists i j then
      match [max i j, min i j].find? fun e => decide (e ≤ 8) with
      | some e => if (s.die e).alive then s.fence e 5#8 0#16 else s
      | none => s.fatal i 5#8 0#16
    else s

/-! ## Lanes (R490 to R492) -/

/-- `LANE_LOSS_OF_LOCK`: a lane loses lock and retrains; the rail of a router lane goes down meanwhile (R491). -/
def execLaneLossOfLock (lane : LaneName) (s : State) : Outcome State Fault Refusal :=
  .next <|
    if ¬ s.powered ∨ (s.retrains.any fun r => decide (r.lane = lane)) then s
    else
      match lane with
      | .router i j plane =>
        if pairExists i j ∧ plane < 12 then { s.loseRail i j plane with retrains := s.retrains ++ [⟨lane, 0⟩] } else s
      | .utium port _ => if port < 48 then { s with retrains := s.retrains ++ [⟨lane, 0⟩] } else s

/-- `RETRAIN_ATTEMPT_END`: a retraining attempt ends. After three failures in a row a rail stays down, and a Utium port is reported dead (R491). -/
def execRetrainAttemptEnd (lane : LaneName) (locked : Bool) (s : State) : Outcome State Fault Refusal :=
  .next <|
    match s.retrains.find? fun r => r.lane = lane with
    | none => s
    | some r =>
      if r.failures ≥ 3 then s
      else if locked then { s with retrains := s.retrains.filter fun r => r.lane ≠ lane }
      else
        let s := { s with retrains := replaceIf (fun (r : Retrain) => decide (r.lane = lane)) (fun (r : Retrain) => { r with failures := r.failures + 1 }) s.retrains }
        match lane with
        | .utium port _ =>
          if r.failures + 1 = 3 then { s with deadPorts := insertNat port s.deadPorts, studioNotices := s.studioNotices + 1 } else s
        | .router _ _ _ => s

/-- `HEATER_ROLLOVER`: a lane rolls to its next resonance during an idle flit, which changes only timing and retry counts (R492). -/
def execHeaterRollover (_lane : LaneName) (s : State) : Outcome State Fault Refusal := .next s

/-! ## The switch matrix (R292, R368, R388, R430, R487, R488) -/

/-- The ports of the circuit to a module. -/
def Topology.portsTo (t : Topology) (asg : BitVec 384) (peer : Nat) : Nat :=
  ((List.range 48).filter fun p => decide (t.reached asg p = some peer)).length

/-- No fibre pair is given to two ports. -/
def fibresApart (asg : BitVec 384) : Bool :=
  let fs := (List.range 48).filterMap (fibreOf asg)
  decide (fs.eraseDups.length = fs.length)

/-- Every class that an assignment lights names a module that the table reaches. -/
def State.peersReached (s : State) (t : Topology) (asg : BitVec 384) : Bool :=
  (List.range 15).all fun c =>
    let peer := (s.circuit (c + 1)).peer.toNat
    decide (t.portsTo asg peer = 0) || t.far.any fun f => decide (f = some peer)

/-- Why a command is rejected (R487, R488): 1 not allowed, 2 a fibre pair twice, 3 a peer not reached. [log 47: DEDUCED, unsafe] -/
def State.rejection (s : State) (t : Topology) (asg : BitVec 384) : Option Byte :=
  if ¬ t.allowed.contains asg then some 1#8
  else if ¬ fibresApart asg then some 2#8
  else if ¬ s.peersReached t asg then some 3#8
  else none

/-- `SWITCH_MATRIX_COMMAND`: a command is written into the next free entry of the queue's 16: the `n`-th command, from 0, into entry `n` mod 16 (R368, R488). [log 47: DEDUCED, unsafe] -/
def execSwitchMatrixCommand (asg : BitVec 384) (s : State) : Outcome State Fault Refusal :=
  .next <|
    if s.firmwareOpen ∧ (s.switchCmds.filter fun c => c.st = 0#2).length < 16 then
      { s with switchCmds := s.switchCmds ++ [⟨asg, 0#8, 0#2⟩] }
    else s

/-- The circuits that an assignment makes: `PORTS` and `LIT` of each class from 1 (R488). -/
def State.light (s : State) (t : Topology) (asg : BitVec 384) : State :=
  { s with
    assignment := asg
    circuits := Vector.ofFn fun c =>
      let e := s.circuits[c]
      if c.val = 0 then e
      else
        let n := t.portsTo asg e.peer.toNat
        { e with ports := BitVec.ofNat 8 n, lit := decide (1 ≤ n) } }

/-- A circuit leads to a module. -/
def State.litTo (s : State) (peer : Nat) : Bool :=
  (List.range 15).any fun c => (s.circuit (c + 1)).lit && decide ((s.circuit (c + 1)).peer.toNat = peer)

/-- A remote operation is lost (R292, R293, R313): it is never performed, its unit's next release learns of it, and a lane that awaited an atomic receives 0 and poison. [log 25: DEDUCED, unsafe] -/
def State.loseRemote (s : State) (r : RemoteOp) : State :=
  let at_ := (r.peer, (128 * r.sector + lowest r.mask) % 2 ^ 52)
  let s := s.dropRemote r.id
  let s := match r.who with
    | .gang t _ => s.modTeam t fun x => { x with lost := x.lost.or (some at_) }
    | .seq n => s.modSeq n fun q => { q with lost := q.lost.or (some at_) }
  ((if r.atomic.isSome then s.deliverRemote r.who r.dest 0 true 0#5 else s).acquirePerformed r).wakeRemote r.who

/-- Step 1 of R292: each remote operation of the old epoch is performed while a circuit still leads to its module, or is lost. [log 25: DEDUCED, unsafe] -/
def State.settleRemotes (s : State) : List RemoteOp → State
  | [] => s
  | r :: rs =>
    let s := if s.litTo r.peer then s.completeRemote r else s.loseRemote r
    s.settleRemotes rs

/-- A translation register of a class other than 0 loses its validity (R160). -/
def Trans.forget (t : Trans) : Trans := if t.cc = 0#4 then t else { t with v := false }

/-- The translation registers of a gang, and those that its outstanding results will write, after a change of epoch. -/
def Gang.forgetCircuits (v : Gang) : Gang :=
  { v with
    trans := Vector.ofFn fun i => v.trans[i].forget
    regs := { v.regs with pending := v.regs.pending.map fun (r : Result) => { r with trans := r.trans.map fun p => (p.1, p.2.forget) } } }

/-- Translations of classes other than 0 are gone from every TLB and translation register (R160, R386). -/
def State.forgetCircuits (s : State) : State :=
  let keep := fun (l : List TlbEntry) => l.filter fun e => decide (e.leaf.cc = 0#4)
  { s with
    cores := s.cores.map fun (c : Core) => { c with tlb := keep c.tlb }
    seqs := s.seqs.map fun (q : Seq) => { q with tlb := keep q.tlb }
    chips := Vector.ofFn fun i => { s.chips[i] with tlb := keep s.chips[i].tlb }
    teams := s.teams.map fun (t : Team) => { t with gangs := t.gangs.map Gang.forgetCircuits } }

/-- The status of the first pending command. -/
def settleCmd (why : Byte) (st : BitVec 2) : List SwitchCmd → List SwitchCmd
  | [] => []
  | c :: cs => if c.st = 0#2 then { c with why := why, st := st } :: cs else c :: settleCmd why st cs

/-- `SWITCH_COMMAND_APPLIED`: the ground firmware validates the first pending command, and rejects it or applies it: the circuits change, the remote operations of the old epoch end, and the epoch advances by one (R292, R368, R430). -/
def execSwitchCommandApplied (s : State) : Outcome State Fault Refusal :=
  .next <|
    match (if s.awake then s.switchCmds.find? fun c => c.st = 0#2 else none), s.topology with
    | some c, some t =>
      match s.rejection t c.asg with
      | some why => { s with switchCmds := settleCmd why 2#2 s.switchCmds }
      | none =>
        let s := { s.light t c.asg with switchCmds := settleCmd 0#8 1#2 s.switchCmds }
        let s := (s.settleRemotes s.remote).forgetCircuits
        { s with epoch := s.epoch + 1#64 }
    | _, _ => s

/-! ## Sequencers (R157, R506) -/

/-- Start a sequencer's program at `SPC`; every register but the program counter and `%csp` stays. [log 35: DEDUCED, unsafe] -/
def State.startSeq (s : State) (n : Nat) : State :=
  let q := s.seq n
  if n < 54 ∧ ¬ q.run ∧ ¬ (s.die (n / 6)).fenced ∧ ¬ s.stopped then
    s.setSeq { q with pc := q.spc, csp := 0#64, run := true, halted := false, status := .ready, handler := none, heldTrap := none, emul := false }
  else s

/-- `SEQUENCER_START`: 1 is written to `START` of a sequencer block (R506). -/
def execSequencerStart (seq : Nat) (s : State) : Outcome State Fault Refusal := .next (if s.barOpen then s.startSeq seq else s)

/-! ## The management space (R7, R481 to R485, R506) -/

/-- The field bits of a register that a write sets: those in `field` that the write's part covers. -/
def blend (field mask old new : W64) : W64 := (old &&& ~~~ (field &&& mask)) ||| (new &&& field &&& mask)

/-- Bits [hi:lo] of a register. -/
def fieldBits (lo n : Nat) : W64 := BitVec.ofNat 64 ((2 ^ n - 1) * 2 ^ lo)

/-- A write covers a bit. -/
def covers (mask : W64) (i : Nat) : Bool := mask.getLsbD i

/-- The low half of a queue control register: `EN`, `QCTX`, `DCLR` and `BELL` (R346). A mapped queue that is disabled gives back its slot, and the packets that had not come to its head are launches no longer. [log 36: DEDUCED, unsafe] -/
def State.writeQueue (s : State) (q : Nat) (mask v : W64) : State :=
  let r := s.queue q
  let s :=
    if covers mask 0 then
      let en := v.getLsbD 0
      let s := match s.slot? q with
        | some x => if r.en ∧ ¬ en then s.releaseSlot x else s
        | none => s
      let s := if en then s else { s with launches := s.launches.filter fun l => !(l.early && decide (l.queue = q)) }
      s.modQueue q fun r =>
        { r with skipped := if en then r.skipped else [], en := en, qctx := if r.en then r.qctx else v.extractLsb' 2 10, drop := if v.getLsbD 15 then 0#16 else r.drop }
    else s
  if covers mask 32 then s.ringBell q (v.extractLsb' 32 32) else s

/-- The high half of a queue control register: `DESC`, which takes writes while the queue is disabled (R346). -/
def State.writeDesc (s : State) (q : Nat) (mask v : W64) : State :=
  s.modQueue q fun r => if r.en then r else { r with desc := blend (BitVec.allOnes 64) mask r.desc v }

/-- The registration entry of a mover slot (R506); one not listed is at reset. -/
def State.registration (s : State) (mover slot : Nat) : Registration :=
  (s.registrations.find? fun r => r.mover = mover ∧ r.slot = slot).getD ⟨mover, slot, false, 0#10, 0#56, false, 0, none, false⟩

/-- Change a registration entry: its chain begins anew. [log 48: DEDUCED, unsafe] -/
def State.writeRegistration (s : State) (mover slot : Nat) (f : Registration → Registration) : State :=
  let r := { f (s.registration mover slot) with rung := false, last := 0, unlit := none, failed := false }
  { s with registrations := upsert (fun (x : Registration) => decide (x.mover = mover ∧ x.slot = slot)) r s.registrations }

/-- A write in a context's block (R484, R485). [log 48: DEDUCED, unsafe] -/
def State.writeContext (s : State) (ctx off : Nat) (mask v : W64) : State :=
  match s.ctx? ctx with
  | none => s
  | some _ =>
    match off with
    | 0x000 => (s.modCtx ctx fun c => { c with root := blend (fieldBits 13 39 ||| 1#64) mask c.root v }).retryRecords ctx
    | 0x008 => s.modCtx ctx fun c => { c with frame := blend (fieldBits 12 52) mask c.frame v }
    | 0x010 => s.modCtx ctx fun c => { c with timer := blend (BitVec.allOnes 64) mask c.timer v }
    | 0x018 =>
      if covers mask 0 then s.writeDebug ctx v else s
    | 0x040 =>
      s.modCtx ctx fun c => { c with tvec := (blend (fieldBits 4 52) mask (c.tvec.zeroExtend 64) v).extractLsb' 0 56 }
    | 0x048 => if covers mask 0 then s.serveFault ctx (v.extractLsb' 0 32).toNat else s
    | 0x050 => s.modCtx ctx fun c => { c with invAddr := blend (fieldBits 16 40) mask c.invAddr v }
    | 0x058 => s.writeInv ctx (v &&& mask)
    | 0x060 => s.modCtx ctx fun c => { c with fqBase := blend (fieldBits 6 50) mask c.fqBase v }
    | 0x068 =>
      let s := if covers mask 0 then s.modCtx ctx fun c => { c with fqLen := v.extractLsb' 0 5 } else s
      if covers mask 32 then s.setFaultHead ctx (v.extractLsb' 32 32) else s
    | _ => s

/-- A write in a sequencer's block (R506). [log 48: DEDUCED, unsafe] -/
def State.writeSeq (s : State) (n off : Nat) (mask v : W64) : State :=
  if (s.die (n / 6)).fenced then s
  else
    match off with
    | 0x00 =>
      if covers mask 0 then
        let s := s.modSeq n fun q => if q.run then q else { q with sctx := (v.extractLsb' 16 10).toNat }
        if v.getLsbD 1 then s.startSeq n else s
      else s
    | 0x08 => s.modSeq n fun q => { q with spc := (blend (fieldBits 4 52) mask (q.spc.zeroExtend 64) v).extractLsb' 0 56 }
    | 0x10 => s.modSeq n fun q => { q with trapvec := blend (fieldBits 4 52) mask q.trapvec v }
    | _ => s

/-- A write in a core's block (R431, R506). A core of a fenced die ignores it. [log 48: DEDUCED, unsafe] -/
def State.writeCore (s : State) (core off : Nat) (mask v : W64) : State :=
  if (s.die (dieOf core)).fenced then s
  else if off = 0 then
    if covers mask 0 then s.modCore core fun c => { c with perfSel := v.extractLsb' 0 32 &&& 0x1F1F1F1F#32 } else s
  else if off ≤ 0x20 then
    let k := off / 8 - 1
    s.modCore core fun c => { c with perf := vset c.perf k (blend (BitVec.allOnes 64) mask (vget c.perf k 0#64) v) }
  else s

/-- Unit `u` of a router port is populated (R506). -/
def unitExists (port u : Nat) : Bool :=
  decide (u ≤ (if port ≤ 8 then 39 else if port ≤ 20 then 2 else 32))

/-- A write of the part `mask` of the 64-bit register at an offset of the package block (R483). [log 47: DEDUCED, unsafe] -/
def State.writePackage (s : State) (off : Nat) (mask v : W64) : State :=
  if off = 0 then
    if covers mask 0 then
      let s := { s with start := { s.start with mode := v.extractLsb' 1 2 } }
      if v.getLsbD 0 then s.wholeReset else s
    else s
  else if 0x100 ≤ off ∧ off < 0x100 + 8 * 9 then
    if covers mask 0 then s.writeWay ((off - 0x100) / 8) (v.extractLsb' 0 16) else s
  else if 0x200 ≤ off ∧ off < 0x200 + 8 * 23 then
    if covers mask 63 ∧ v.getLsbD 63 then { s with syndromes := vset s.syndromes ((off - 0x200) / 8) ⟨false, false, 0#8, 0#16, 0#16⟩ } else s
  else if 0x300 ≤ off ∧ off < 0x300 + 8 * 12 then
    if covers mask 0 then s.modChip ((off - 0x300) / 8) fun c => { c with cecnt := v.extractLsb' 0 32 } else s
  else if off = 0x408 then
    if covers mask 0 ∧ v.getLsbD 0 then s.invalidateAll else s
  else if off = 0x1100 then
    if covers mask 0 then s.serveFabric (v.extractLsb' 0 32).toNat ((v &&& mask).getLsbD 32) else s
  else if 0x3000 ≤ off ∧ off < 0x3000 + 64 * 54 then s.writeSeq ((off - 0x3000) / 64) (off % 64) mask v
  else if 0x4000 ≤ off ∧ off < 0x4000 + 512 * 23 then
    let p := (off - 0x4000) / 512
    let u := (off - 0x4000) % 512 / 8
    if covers mask 0 ∧ unitExists p u then s.setZsc (unitQueue p u) (v.extractLsb' 0 32) else s
  else if 0x8000 ≤ off ∧ off < 0x8000 + 4 * 576 then
    let k := (off - 0x8000) / 4
    let s := if covers mask 0 then s.writePair (k / 24) (k % 24) (v.extractLsb' 0 32) else s
    if covers mask 32 then s.writePair ((k + 1) / 24) ((k + 1) % 24) (v.extractLsb' 32 32) else s
  else s

/-- A write of the part `mask` of the 64-bit register at an offset of the management space (R483). -/
def State.writeSpace (s : State) (off : Nat) (mask v : W64) : State :=
  if off < 0x100000 then s.writePackage off mask v
  else if off < 0x110000 then
    let q := (off - 0x100000) / 16
    if off % 16 = 0 then s.writeQueue q mask v else s.writeDesc q mask v
  else if off < 0x114000 then
    let k := (off - 0x110000) / 16
    if off % 16 = 0 then
      s.writeRegistration (k / 16) (k % 16) fun r =>
        { r with cba := (blend (fieldBits 6 50) mask (r.cba.zeroExtend 64) v).extractLsb' 0 56 }
    else
      s.writeRegistration (k / 16) (k % 16) fun r =>
        { r with
          rv := if covers mask 63 then v.getLsbD 63 else r.rv
          rctx := if covers mask 0 then v.extractLsb' 0 10 else r.rctx }
  else if 0x200000 ≤ off ∧ off < 0x600000 then s.writeContext ((off - 0x200000) / 4096) (off % 4096) mask v
  else if 0x600000 ≤ off ∧ off < 0x628800 then s.writeCore ((off - 0x600000) / 64) (off % 64) mask v
  else s

/-- `REGISTER_WRITE`: a 32- or 64-bit write at an aligned offset of the management space; another is ignored (R481). Before `READY` the start control register alone takes writes (R482). -/
def execRegisterWrite (offset width : Nat) (value : W64) (s : State) : Outcome State Fault Refusal :=
  .next <|
    let open_ : Bool := s.barOpen || (s.linked && decide (offset = 0))
    if ¬ open_ then s
    else if width = 64 ∧ offset % 8 = 0 then s.writeSpace offset (BitVec.allOnes 64) value
    else if width = 32 ∧ offset % 8 = 0 then s.writeSpace offset 0xFFFFFFFF#64 (value &&& 0xFFFFFFFF#64)
    else if width = 32 ∧ offset % 8 = 4 then s.writeSpace (offset - 4) 0xFFFFFFFF00000000#64 (value <<< 32)
    else s

/-! ## Reads of the management space (R7, R8, R358, R481 to R485, R506) -/

/-- A register's word from its fields, each with the place of its lowest bit; what no field holds reads as zero (R8). -/
def fieldWord (fields : List (Nat × Nat)) : W64 := BitVec.ofNat 64 ((fields.map fun p => p.1 * 2 ^ p.2).sum)

/-- A one-bit field. -/
def bitOf (b : Bool) : Nat := if b then 1 else 0

/-- A syndrome register (R453). -/
def Syndrome.word (v : Syndrome) : W64 :=
  fieldWord [(bitOf v.v, 63), (bitOf v.fatal, 62), (v.cls.toNat, 48), (v.unit.toNat, 32), (v.count.toNat, 16)]

/-- A circuit-table entry (R388). -/
def Circuit.word (c : Circuit) : W64 := fieldWord [(c.ports.toNat, 24), (bitOf c.lit, 16), (c.peer.toNat, 0)]

/-- Entry `k` of the circuit table: entry 0 names the module itself once the topology table is loaded (R388). -/
def State.circuitWord (s : State) (k : Nat) : W64 :=
  if k = 0 then (s.topology.map fun t => fieldWord [(1, 16), (t.mn.toNat, 0)]).getD 0#64 else (s.circuit k).word

/-- A pair register: a route that is written and awaits its effect reads as written (R22, R389). [log 48: DEDUCED, unsafe] -/
def Pair.word (p : Pair) : W64 :=
  let r := p.next.getD (p.rlyen, p.relay)
  fieldWord [(p.fcnt.toNat, 24), (bitOf p.rail1, 17), (bitOf p.rail0, 16), (bitOf r.1, 5), (r.2.toNat, 0)]

/-- The pair register at an index, zero where none is (R389). [log 48: DEDUCED, unsafe] -/
def State.pairWord (s : State) (k : Nat) : W64 := if pairExists (k / 24) (k % 24) then (s.pair (k / 24) (k % 24)).word else 0#64

/-- Part `i` of the 512 bits of a command entry: the last command written there, or the entry at reset (R488). [log 47: DEDUCED, unsafe] -/
def State.commandPart (s : State) (k i : Nat) : W64 :=
  let c := (((s.switchCmds.zipIdx.filter fun p => p.2 % 16 = k).getLast?).map (·.1)).getD ⟨BitVec.allOnes 384, 0#8, 0#2⟩
  BitVec.ofNat 64 ((c.st.toNat + c.why.toNat * 2 ^ 24 + c.asg.toNat * 2 ^ 32) / 2 ^ (64 * i))

/-- A read in a sequencer's block (R506). [log 48: DEDUCED, unsafe] -/
def State.readSeq (s : State) (n off : Nat) : W64 :=
  let q := s.seq n
  if (s.die (n / 6)).fenced then 0#64
  else
    match off with
    | 0x00 => fieldWord [(q.sctx, 16), (bitOf q.run, 0)]
    | 0x08 => q.spc.zeroExtend 64
    | 0x10 => q.trapvec &&& fieldBits 4 52
    | _ => 0#64

/-- A read in a core's block; a core of a fenced die reads zero (R431, R506). [log 48: DEDUCED, unsafe] -/
def State.readCore (s : State) (core off : Nat) : W64 :=
  if (s.die (dieOf core)).fenced then 0#64
  else if off = 0 then (s.core core).perfSel.zeroExtend 64
  else if off ≤ 0x20 then vget (s.core core).perf (off / 8 - 1) 0#64
  else 0#64

/-- The 64-bit register at an offset of a context's block; one that was not created reads zero (R483 to R485). -/
def State.readContext (s : State) (ctx off : Nat) : W64 :=
  match s.ctx? ctx with
  | none => 0#64
  | some c =>
    match off with
    | 0x000 => c.root
    | 0x008 => c.frame
    | 0x010 => c.timer
    | 0x018 => fieldWord [(c.dbgSlot.toNat, 8), (c.dbgMode.toNat, 4), (bitOf (c.held != 0#256), 1), (bitOf c.dbg, 0)]
    | 0x020 | 0x028 | 0x030 | 0x038 => c.held.extractLsb' (8 * (off - 0x020)) 64
    | 0x040 => c.tvec.zeroExtend 64
    | 0x050 => c.invAddr
    | 0x058 => fieldWord [(bitOf c.inv.isSome, 63)]
    | 0x060 => c.fqBase
    | 0x068 => fieldWord [(c.fqHead.toNat, 32), (c.fqLen.toNat, 0)]
    | 0x070 => c.fqTail.zeroExtend 64
    | _ => 0#64

/-- The low half of a queue control register (R346). -/
def State.queueWord (s : State) (q : Nat) : W64 :=
  let r := s.queue q
  fieldWord [(r.drop.toNat, 16), (r.qctx.toNat, 2), (bitOf (s.slot? q).isSome, 1), (bitOf r.en, 0)]

/-- The 64-bit register at an offset of the package block (R483). -/
def State.readPackage (s : State) (off : Nat) : W64 :=
  if off = 0 then fieldWord [(s.start.mode.toNat, 1), (s.start.status.toNat, 32)]
  else if 0x100 ≤ off ∧ off < 0x100 + 8 * 9 then (s.die ((off - 0x100) / 8)).way.zeroExtend 64
  else if 0x200 ≤ off ∧ off < 0x200 + 8 * 23 then (vget s.syndromes ((off - 0x200) / 8) ⟨false, false, 0#8, 0#16, 0#16⟩).word
  else if 0x300 ≤ off ∧ off < 0x300 + 8 * 12 then (s.chip ((off - 0x300) / 8)).cecnt.zeroExtend 64
  else if off = 0x400 then s.epoch
  else if off = 0x408 then fieldWord [(bitOf s.icBusy, 1)]
  else if 0x800 ≤ off ∧ off < 0x800 + 64 * 16 then s.commandPart ((off - 0x800) / 64) (off % 64 / 8)
  else if 0x1000 ≤ off ∧ off < 0x1000 + 8 * 16 then s.circuitWord ((off - 0x1000) / 8)
  else if 0x3000 ≤ off ∧ off < 0x3000 + 64 * 54 then s.readSeq ((off - 0x3000) / 64) (off % 64)
  else if 0x4000 ≤ off ∧ off < 0x4000 + 512 * 23 then
    let p := (off - 0x4000) / 512
    let u := (off - 0x4000) % 512 / 8
    if unitExists p u then (s.zscOf (unitQueue p u)).zeroExtend 64 else 0#64
  else if 0x8000 ≤ off ∧ off < 0x8000 + 4 * 576 then
    let k := (off - 0x8000) / 4
    s.pairWord k ||| s.pairWord (k + 1) <<< 32
  else 0#64

/-- The 64-bit register at an offset of the management space, zero where none is (R481, R483). -/
def State.readSpace (s : State) (off : Nat) : W64 :=
  if off < 0x100000 then s.readPackage off
  else if off < 0x110000 then
    let q := (off - 0x100000) / 16
    if off % 16 = 0 then s.queueWord q else (s.queue q).desc
  else if off < 0x114000 then
    let k := (off - 0x110000) / 16
    let r := s.registration (k / 16) (k % 16)
    if off % 16 = 0 then r.cba.zeroExtend 64 else fieldWord [(bitOf r.rv, 63), (r.rctx.toNat, 0)]
  else if 0x200000 ≤ off ∧ off < 0x600000 then s.readContext ((off - 0x200000) / 4096) (off % 4096)
  else if 0x600000 ≤ off ∧ off < 0x628800 then s.readCore ((off - 0x600000) / 64) (off % 64)
  else 0#64

/-- What a read of a width in bits at an offset of the management space returns: zero for one that is not aligned or of another width, and, until `READY`, for any but the two start registers (R481, R482). -/
def State.readRegister (s : State) (off width : Nat) : W64 :=
  let v := if s.start.ready ∨ off < 8 then s.readSpace (off / 8 * 8) else 0#64
  if width = 64 ∧ off % 8 = 0 then v
  else if width = 32 ∧ off % 8 = 0 then v &&& 0xFFFFFFFF#64
  else if width = 32 ∧ off % 8 = 4 then v >>> 32
  else 0#64

/-- A host link is up. -/
def State.linkUp (s : State) (link : Nat) : Bool := s.powered && (if link = 0 then s.link0 else decide (link = 1) && s.link1)

/-- Poison indications of the 64-byte lines of a read (R480). -/
def State.linePoison (s : State) (pa len : Nat) : List Bool :=
  if len = 0 then [] else (List.range ((pa + len - 1) / 64 - pa / 64 + 1)).map fun i => s.memPoison.contains ((pa / 64 + i) / 2)

/-- A read of a queue's `HEAD`: the slot's value or the descriptor's; during a switch-out it is held until the value is written (R358). -/
def State.readHead (s : State) (q : Nat) : State :=
  match s.slot? q with
  | some x => if x.leaving then s.modQueue q fun r => { r with headRead := true } else s.answerHead x.head
  | none => s.answerHead (s.descriptorHead q)

/-- `HOST_LINK_ACCESS`: over link 0 the host reads or writes device memory: a poisoned write poisons the sectors that it writes, and each 64-byte line of a read carries its sector's poison. Over either link it reads the management space, and the debugger reads and writes the registers of held gangs (R148, R358, R477, R479 to R483). [log 44: DEDUCED, unsafe] -/
def execHostLinkAccess (link : Nat) (access : HostAccess) (s : State) : Outcome State Fault Refusal :=
  .next <|
    if ¬ s.linkUp link then s
    else
      match access with
      | .read pa len =>
        if s.start.ready ∧ link = 0 ∧ pa + len ≤ 0xC000000000 then { s with hostReply := some (memBytes s.mem pa len, s.linePoison pa len) } else s
      | .write pa bytes poisoned =>
        if s.start.ready ∧ link = 0 then (splitSectors pa bytes).foldl (fun (s : State) p => s.linkWrite p.1 p.2 poisoned) s else s
      | .register off width => { s with hostReply := some (bytesOf (s.readRegister off width).toNat (width / 8), [false]) }
      | .head q => if s.start.ready ∧ q < 4096 then s.readHead q else s
      | .debugRead ctx slot gang reg => if s.start.ready then s.debugRead ctx slot gang reg else s
      | .debugWrite ctx slot gang reg word value => if s.start.ready then s.debugWrite ctx slot gang reg word value else s

end Sys2Proof.Machine
end

