-- ==== Sys2Proof/Machine/Clock.lean ====
section
/-! DEFINITION. The turns that the machine may take of itself, the choice of the next one, and what the passing of time does: watches, invalidations and the performance counters of clocks. -/

namespace Sys2Proof.Machine

/-! ## The machine's own turns (log 1) -/

/-- Turns of a gang: its issue, its replies, and the ends of its waits. -/
def gangTurns (t g : Nat) (v : Gang) : List Turn :=
  List.flatten
    [[.issue (.gang t g), .event (.dlyExpiry t g), .event (.trapEntry (.gang t g)), .event (.rangeLockRetry t g),
        .event (.handleBusyTimeout t g), .event (.commandQueueAccept t g), .event (.gangRetire t g), .event (.gangAged t g)],
      v.regs.pending.map fun r => .event (.resultReply (.gang t g) r.id),
      (List.range v.vregs.length).map fun r => .event (.slotDrowsy t g r)]

/-- Turns of a team. -/
def Team.turns (x : Team) : List Turn :=
  [.event (.teamDone x.tid), .event (.contextSave x.tid), .event (.teamRestore x.tid)] ++
    x.gangs.zipIdx.flatMap fun p => gangTurns x.tid p.2 p.1

/-- Turns of a core: its commands, granules, deadlocks, miss entries, and the replacement of its copies (log 11). [log 11: DESIGN CHOICE, unsafe] -/
def Core.turns (c : Core) : List Turn :=
  List.flatten
    [[.event (.allocationDeadlock c.idx), .event (.registerDeadlock c.idx)],
      c.array.map fun m => .event (.commandBegin c.idx m.id),
      c.commands.map fun m => .event (.commandComplete c.idx m.id),
      c.clearing.map fun p => .event (.granuleClearDone c.idx p.1),
      c.misses.map fun m => .event (.coalesceWindowClose c.idx m.key),
      c.l1.map fun l => .dropLine c.idx l.key, c.icache.map fun p => .dropWord c.idx p.1,
      (List.range c.tlb.length).map fun n => .dropTlb c.idx n]

/-- Cores of a cluster, numbered from its first, that hold an ensemble's teams. -/
def State.placement (s : State) (n : Nat) : List Nat :=
  match s.nextStart n with
  | some a => assignCores a.l.p.need (a.l.p.teamsOf a.held.index) (s.rooms n fun _ => true) 0
  | none => []

/-- Turns of a sequencer. -/
def State.seqTurns (s : State) (n : Nat) : List Turn :=
  [.issue (.seq n), .event (.evwaitTimeout n), .event (.dieDistributorDeal (n / 6) n), .event (.ensembleStart n (s.placement n)),
    .event (.stealReply n)] ++
    ((List.range (s.seq n).tlb.length).map fun i => .dropSeqTlb n i) ++ (List.range 54).map fun v => .event (.stealRequest n v)

/-- Turns of a compute die. -/
def State.dieTurns (s : State) (d : Nat) : List Turn :=
  .event (.dieFence d) :: (List.range 64).map (fun n => .event (.launchDeal d (n + 1))) ++
    (s.die d).cache.map fun x => .event (.cacheEviction d x.key)

/-- Turns of traffic: packets, promotions, remote operations, invalidations and event records. -/
def State.trafficTurns (s : State) : List Turn :=
  List.flatten
    [s.packets.flatMap fun p => [.event (.packetService p.queue), .event (.slackExhausted p.id)],
      s.promotions.flatMap fun p => p.dies.map fun d => .event (.promotionArrival p.id d),
      s.remote.map fun r => .event (.remoteWriteAck r.id),
      s.invals.flatMap fun v => v.cores.map fun c => .event (.invalidationReachesCore v.id c),
      s.posts.map fun p => .event (.eventPost p.id)]

/-- Turns of the master distributor and of the movers. -/
def State.workTurns (s : State) : List Turn :=
  List.flatten
    [[.event .queueSwitch], s.slots.map fun x => .event (.signalPacket x.q),
      (s.queues.filter fun r => r.en).map fun r => .event (.waitPacketPoll r.q),
      s.launches.map fun l => .event (.deadlineMiss l.key),
      s.ensembles.flatMap fun e => [.event (.parkedEnsembleSave e.eid), .event (.parkedEnsembleRestore e.eid)],
      s.ctxs.flatMap fun c => .event (.forcedReset c.id) :: if c.ending then [.event (.contextEnd c.id)] else [],
      s.registrations.flatMap fun r =>
        [.event (.moverCopy r.mover r.slot), .event (.moverRingAllreduce r.mover r.slot), .event (.moverTreeAllreduce r.mover r.slot),
          .event (.ethernetSend r.mover r.slot), .event (.ethernetReceive r.mover r.slot)]]

/-- Turns of the router, the lanes, the switch matrix, the start, and the chiplets' translations. -/
def State.packageTurns (s : State) : List Turn :=
  ((List.range 12).flatMap fun c => (List.range (s.chip c).tlb.length).map fun i => .dropChipTlb c i) ++ [.event .switchCommandApplied, .event .startFailureReset] ++ ((List.range 9).map fun d => .event (.start true d)) ++
    s.pairs.flatMap fun p => [.event (.routeChangeEffect p.i p.j), .event (.pairLossTimeout p.i p.j)]

/-- The turns that the machine may take of itself; one that its conditions forbid leaves the state as it is. What the host, the debugger, other modules and physical errors do comes by the agenda alone. [log 1: DESIGN CHOICE, safe] -/
def State.ownTurns (s : State) : List Turn :=
  s.teams.flatMap Team.turns ++ s.cores.flatMap Core.turns ++ (List.range 54).flatMap s.seqTurns ++
    (List.range 9).flatMap s.dieTurns ++ s.trafficTurns ++ s.workTurns ++ s.packageTurns

/-- The turn that moves next: the first of the agenda, else a free choice among the machine's own (log 1). [log 1: DESIGN CHOICE, safe] -/
def State.nextTurn (s : State) : Option Turn × State :=
  match s.agenda with
  | t :: ts => (some t, { s with agenda := ts })
  | [] =>
    let ts := s.ownTurns
    (ts[Config.pick s.free % ts.length]?, { s with free := s.free + 1 })

/-! ## Time (R29, R408, R431; log 2) -/

/-- Clocks of a core at 1.2 GHz up to a tick (R29). [log 2: DESIGN CHOICE, safe] -/
def clocksAt (tick : Nat) : Nat := 6 * tick / 5

/-- Clocks of [a, b) in which a command that began occupies the array (R326). -/
def Command.occupied (c : Command) (ty : Ty) (a b : Nat) : Nat :=
  let from_ := clocksAt c.beginTick
  if c.begun then min b (from_ + c.occupancy ty) - max a from_ else 0

/-- Gangs of a core that are parked. -/
def State.parkedGangs (s : State) (core : Nat) : Nat :=
  ((s.teams.filter fun x => x.placedOn core).map fun x => (x.gangs.filter fun v => v.status = .parked).length).sum

/-- Count the events of a core's clocks from one tick to another: clocks, parked gang-clocks, and clocks of the occupied array (R431). -/
def State.countClocks (s : State) (first last : Nat) (c : Core) : State :=
  let a := clocksAt first
  let b := clocksAt last
  let busy := (c.array.map fun m => m.occupied (s.commandTy m) a b).sum
  countPerf c.idx 8 busy (countPerf c.idx 3 ((b - a) * s.parkedGangs c.idx) (countPerf c.idx 1 (b - a) s))

/-! ## Capacities (R28, R29, R246, and the tables of 15_tables.md) -/

/-- A core keeps the newest of what its caches fill: 2,048 lines of L1, 65,536 instructions, 128 translations. -/
def Core.trim (c : Core) : Core := { c with l1 := c.l1.take 2048, icache := c.icache.take 65536, tlb := c.tlb.take 128 }

/-- Lines of 512 bytes that a die's cache holds, in the ways that are not scratch (R28, R246). -/
def Die.cacheLines (d : Die) : Nat := (2 ^ 28 - scratchSize d.way) / 512

/-- A die whose cache holds more lines than it has evicts the oldest. [log 11: DESIGN CHOICE, unsafe] -/
def State.trimDie (s : State) (die : Nat) : State :=
  let d := s.die die
  if d.cache.length ≤ d.cacheLines then s
  else
    let lines := (d.cache.map fun x => x.key / 4).eraseDups
    let out := lines.take (lines.length - d.cacheLines)
    ((d.cache.map (·.key)).filter fun k => out.contains (k / 4)).foldl (fun (s : State) k => s.evictSent die k) s

/-- Caches and TLBs hold no more than their sizes. [log 11: DESIGN CHOICE, unsafe] -/
def State.trim (s : State) : State :=
  let s := { s with
    cores := s.cores.map Core.trim
    seqs := s.seqs.map fun (q : Seq) => { q with tlb := q.tlb.take 4096 }
    chips := Vector.ofFn fun i => { s.chips[i] with tlb := s.chips[i].tlb.take 32768 } }
  (List.range 9).foldl State.trimDie s

/-- Time passes: a free number of ticks (log 2). Parking words and sequence numbers that changed wake their waiters, caches keep to their sizes, and running invalidations go on. [log 2: DESIGN CHOICE, safe] -/
def State.pass (s : State) : State :=
  let s := { s.serveWatches.trim with cur := none }
  let s := s.ctxs.foldl (fun (s : State) c => s.advanceInv c.id) s
  let now := s.tick + Config.elapsed s.free
  let s := s.cores.foldl (fun (s : State) c => s.countClocks s.tick now c) s
  { s with tick := now, free := s.free + 1 }

end Sys2Proof.Machine
end

