-- ==== Sys2Proof/Machine/Float.lean ====
section
/-! DEFINITION. The floating-point and conversion instructions, opcodes 0x18 to 0x1B and 0x68 to 0x7F (R188 to R212). -/

namespace Sys2Proof.Machine

/-- The type that `SUB` names (R80). -/
def subTy (w : Fields) : Ty := (tyOfCode (mdSUB w.md)).getD .none

/-! ## Scalar -/

/-- `sfadd` (R193, R195). -/
def execSfadd (w : Fields) (s : State) : Host.Outcome State Fault Refusal :=
  floatScalar 0x18#8 w w.ty w.ty .none w.ty (fun rm a b _ => fpAdd w.ty w.md rm 0 a b) s

/-- `sfmul` (R193, R195). -/
def execSfmul (w : Fields) (s : State) : Host.Outcome State Fault Refusal :=
  floatScalar 0x19#8 w w.ty w.ty .none w.ty (fun rm a b _ => fpMul w.ty w.md rm 0 a b) s

/-- `sffma` (R193, R195). -/
def execSffma (w : Fields) (s : State) : Host.Outcome State Fault Refusal :=
  floatScalar 0x1A#8 w w.ty w.ty w.ty w.ty (fun rm a b c => fpFma w.ty w.md rm 0 a b c) s

/-- `sfcvt` (R210): between floats, to an integer, or from one. -/
def execSfcvt (w : Fields) (s : State) : Host.Outcome State Fault Refusal :=
  floatScalar 0x1B#8 w (subTy w) .none .none w.ty (fun rm a _ _ =>
    if ¬ (subTy w).isFloat then cvtFromInt (subTy w) w.ty rm (mdSAT w.md) 0 a
    else if w.ty.isFloat then cvtFloat (subTy w) w.ty rm (mdSAT w.md) 0 a
    else cvtToInt (subTy w) w.ty rm (mdSAT w.md) 0 a) s

/-! ## Arithmetic -/

/-- `vfadd` (R195). -/
def execVfadd (w : Fields) (s : State) : Host.Outcome State Fault Refusal :=
  floatOp 0x68#8 w false w.ty w.ty .none (opWidth w.ty) (elementCount w.ty)
    (fun rm h => elements w.ty fun i a b _ => fpAdd w.ty w.md rm (h i) a b) s

/-- `vfsub` (R195). -/
def execVfsub (w : Fields) (s : State) : Host.Outcome State Fault Refusal :=
  floatOp 0x69#8 w false w.ty w.ty .none (opWidth w.ty) (elementCount w.ty)
    (fun rm h => elements w.ty fun i a b _ => fpSub w.ty w.md rm (h i) a b) s

/-- `vfmul` (R195). -/
def execVfmul (w : Fields) (s : State) : Host.Outcome State Fault Refusal :=
  floatOp 0x6A#8 w false w.ty w.ty .none (opWidth w.ty) (elementCount w.ty)
    (fun rm h => elements w.ty fun i a b _ => fpMul w.ty w.md rm (h i) a b) s

/-- `vffma` (R195). -/
def execVffma (w : Fields) (s : State) : Host.Outcome State Fault Refusal :=
  floatOp 0x6B#8 w false w.ty w.ty w.ty (opWidth w.ty) (elementCount w.ty)
    (fun rm h => elements w.ty fun i a b c => fpFma w.ty w.md rm (h i) a b c) s

/-- `vfmin` (R197). -/
def execVfmin (w : Fields) (s : State) : Host.Outcome State Fault Refusal :=
  floatOp 0x6C#8 w false w.ty w.ty .none (opWidth w.ty) 0
    (fun _ _ => elements w.ty fun _ a b _ => (fpMinMax w.ty false (w.fn = 1#4) a b, flagNone)) s

/-- `vfmax` (R197). -/
def execVfmax (w : Fields) (s : State) : Host.Outcome State Fault Refusal :=
  floatOp 0x6D#8 w false w.ty w.ty .none (opWidth w.ty) 0
    (fun _ _ => elements w.ty fun _ a b _ => (fpMinMax w.ty true (w.fn = 1#4) a b, flagNone)) s

/-- `vfcmp` (R198). -/
def execVfcmp (w : Fields) (s : State) : Host.Outcome State Fault Refusal :=
  vectorTest 0x6E#8 w w.ty w.ty .none (fun _ a b _ => fpTest w.ty (mdSUB w.md).toNat a b) s

/-! ## Division, roots and functions -/

/-- `vfdiv` (R200). -/
def execVfdiv (w : Fields) (s : State) : Host.Outcome State Fault Refusal :=
  floatOp 0x6F#8 w true w.ty w.ty .none (opWidth w.ty) 1
    (fun rm h a b _ =>
      settleReal w.ty rm (h 0) 0 (divide (signIf (mdNA w.md) (readAs w.ty a)) (signIf (mdNB w.md) (readAs w.ty b)))) s

/-- `vfsqrt` (R200). -/
def execVfsqrt (w : Fields) (s : State) : Host.Outcome State Fault Refusal :=
  floatOp 0x70#8 w true w.ty .none .none (opWidth w.ty) 1
    (fun rm h a _ _ => settleReal w.ty rm (h 0) 0 (squareRoot (readAs w.ty a))) s

/-- `vfrcp` (R201). -/
def execVfrcp (w : Fields) (s : State) : Host.Outcome State Fault Refusal :=
  floatOp 0x71#8 w true .f32 .none .none 32 1
    (fun rm h a _ _ => settleReal .f32 rm (h 0) 0 (divide (.fin false 1 0) (readAs .f32 a))) s

/-- `vfrsq` (R201). -/
def execVfrsq (w : Fields) (s : State) : Host.Outcome State Fault Refusal :=
  floatOp 0x72#8 w true .f32 .none .none 32 1
    (fun rm h a _ _ => settleReal .f32 rm (h 0) 0 (inverseRoot (readAs .f32 a))) s

/-- `vfexp2` (R201). -/
def execVfexp2 (w : Fields) (s : State) : Host.Outcome State Fault Refusal :=
  floatOp 0x73#8 w true .f32 .none .none 32 1
    (fun rm h a _ _ =>
      settleReal .f32 rm (h 0) (Config.undecided 0x73 (BitVec.ofNat 32 a)).toNat (expTwo (readAs .f32 a))) s

/-- `vflog2` (R201). -/
def execVflog2 (w : Fields) (s : State) : Host.Outcome State Fault Refusal :=
  floatOp 0x74#8 w true .f32 .none .none 32 1
    (fun rm h a _ _ =>
      settleReal .f32 rm (h 0) (Config.undecided 0x74 (BitVec.ofNat 32 a)).toNat (logTwo (readAs .f32 a))) s

/-- `vfsinpi` (R201). -/
def execVfsinpi (w : Fields) (s : State) : Host.Outcome State Fault Refusal :=
  floatOp 0x75#8 w true .f32 .none .none 32 1
    (fun rm h a _ _ =>
      settleReal .f32 rm (h 0) (Config.undecided 0x75 (BitVec.ofNat 32 a)).toNat (sinPi (readAs .f32 a))) s

/-- `vfcospi` (R201). -/
def execVfcospi (w : Fields) (s : State) : Host.Outcome State Fault Refusal :=
  floatOp 0x76#8 w true .f32 .none .none 32 1
    (fun rm h a _ _ =>
      settleReal .f32 rm (h 0) (Config.undecided 0x76 (BitVec.ofNat 32 a)).toNat (cosPi (readAs .f32 a))) s

/-! ## Conversions -/

/-- `vfcvt` (R202, R203): element `FN` of the source. -/
def execVfcvt (w : Fields) (s : State) : Host.Outcome State Fault Refusal :=
  floatOp 0x77#8 w false (subTy w) .none .none (opWidth w.ty) 1
    (fun rm h a _ _ =>
      cvtFloat (subTy w) w.ty rm (mdSAT w.md) (h 0) (a / 2 ^ ((subTy w).width * w.fn.toNat))) s

/-- `vfcvti` (R204): a narrow result is extended to its lane. -/
def execVfcvti (w : Fields) (s : State) : Host.Outcome State Fault Refusal :=
  floatOp 0x78#8 w false (subTy w) .none .none (opWidth w.ty) 1
    (fun rm h a _ _ =>
      let r := cvtToInt (subTy w) w.ty rm (mdSAT w.md) (h 0) a
      (if w.ty.isSigned ∧ w.ty.width < 32 then sext w.ty.width 32 r.1 else r.1, r.2)) s

/-- `vicvtf` (R205). -/
def execVicvtf (w : Fields) (s : State) : Host.Outcome State Fault Refusal :=
  floatOp 0x79#8 w false (subTy w) .none .none (opWidth w.ty) 1
    (fun rm h a _ _ => cvtFromInt (subTy w) w.ty rm (mdSAT w.md) (h 0) a) s

/-- `vfrnd` (R206). -/
def execVfrnd (w : Fields) (s : State) : Host.Outcome State Fault Refusal :=
  floatOp 0x7A#8 w false w.ty .none .none (opWidth w.ty) (elementCount w.ty)
    (fun rm h => elements w.ty fun i a _ _ => fpRnd w.ty (w.fn = 1#4) rm (h i) a) s

/-- `vfclass` (R199): the class bit, or with `.p` whether it lies in the mask in `IMM`. -/
def execVfclass (w : Fields) (s : State) : Host.Outcome State Fault Refusal :=
  if w.fn = 1#4 then vectorTest 0x7B#8 w w.ty .none .none (fun _ a _ _ => w.imm.getLsbD (fpClass w.ty a)) s
  else vectorOp 0x7B#8 w w.ty .none .none 32 .none (fun a _ _ => 2 ^ fpClass w.ty a) s

/-- `vfscale` (R207). [log 24: DEDUCED, unsafe] -/
def execVfscale (w : Fields) (s : State) : Host.Outcome State Fault Refusal :=
  floatOp 0x7C#8 w false w.ty .n32 .none (opWidth w.ty) 1
    (fun rm h a b _ => fpScale w.ty w.md rm (h 0) a b) s

/-- `vfgetexp` (R208). -/
def execVfgetexp (w : Fields) (s : State) : Host.Outcome State Fault Refusal :=
  vectorOp 0x7D#8 w (subTy w) .none .none 32 .none (fun a _ _ => fpGetExp (subTy w) w.ty a) s

/-- `vfpack` (R209). -/
def execVfpack (w : Fields) (s : State) : Host.Outcome State Fault Refusal :=
  floatOp 0x7E#8 w false .f32 .f32 .b32 32 2
    (fun rm h a b c => fpPack w.ty w.fn.toNat rm (mdSAT w.md) h a b c) s

/-- `vfdot2` (R196). -/
def execVfdot2 (w : Fields) (s : State) : Host.Outcome State Fault Refusal :=
  floatOp 0x7F#8 w false .b32 .b32 .f32 32 1
    (fun rm h a b c => fpDot2 w.ty w.md rm (h 0) a b c) s

end Sys2Proof.Machine
end

