-- ==== Sys2Proof/Machine/GangOps.lean ====
section
/-! DEFINITION. The gang instructions: votes, shuffles, scans, reductions and broadcasts (R233 to R238, R139). -/

namespace Sys2Proof.Machine

open Host (Outcome)

/-- Issue of a gang instruction (R233). -/
def kindGang : IssueKind := ⟨false, true, false, true, false⟩

/-- The lanes that take part (R233). -/
def Env.takers (e : Env) : Mask :=
  match e.x.w.c with
  | .pred i => e.v.live &&& e.v.pred i
  | _ => e.v.live

/-- The poison that a gang instruction consumes of a source: of a scalar half, whatever the lanes; else of the lanes that it reads (R155, R233). -/
def gangTaint (o : Operand) (a : Src) (reads : Mask) : Mask :=
  match o with
  | .sca _ _ => a.poison
  | _ => a.poison &&& reads

/-- The outstanding result of a gang instruction: a vector, a scalar or a condition (R233, R234). -/
def Env.gangResult (e : Env) (f : Fin 32 → Nat) (flags : BitVec 5) : Result :=
  let w := e.x.w
  let r : Result := ⟨e.id, [], [], [], [], flags, .none⟩
  match w.d with
  | .vec v => { r with vec := vecWrites v (opWidth w.ty) e.takers f 0#32 }
  | .sca sel i =>
    let p := scalarResult (if w.ty = .none then .b32 else w.ty) sel (f 0)
    { r with sca := [⟨i, p.1, p.2, 0#2⟩] }
  | .cond i => { r with cond := [(i, f 0 % 2 = 1)] }
  | _ => r

/-- `gvote` (R235). -/
def execGvote (w : Fields) (s : State) : Outcome State Fault Refusal :=
  issue kindGang 0xD0#8 w 16 (envBody fun e =>
    let m := e.predSrc w.a &&& e.takers
    let v := if w.fn = 0#4 then (m != 0#32).toNat else if w.fn = 1#4 then (m == e.takers).toNat else m.toNat
    .ok (e.v.addResult (e.gangResult (fun _ => v) 0#5) .general)) s

/-- The source lane of `gshfl`, none when it is outside the gang (R236). -/
def shuffleLane (fn l d : Nat) : Option (Fin 32) :=
  let s : Int := match fn with
    | 0 => (d % 32 : Nat)
    | 1 => (l : Int) - d
    | 2 => (l : Int) + d
    | _ => (l ^^^ (d % 32) : Nat)
  if 0 ≤ s ∧ s < 32 then some (Fin.ofNat 32 s.toNat) else none

/-- `gshfl` (R236). -/
def execGshfl (w : Fields) (s : State) : Outcome State Fault Refusal :=
  issue kindGang 0xD1#8 w 16 (envBody fun e =>
    let a := e.src w.a w.ty
    let b := e.src w.b .n32
    let from_ := fun l : Fin 32 => (shuffleLane w.fn.toNat l.val (b.val l)).getD l
    let reads := maskOf fun q =>
      e.v.live.getLsbD q && (List.finRange 32).any fun l => e.takers.getLsbD l && from_ l == q
    match consumeLanes (BitVec.allOnes 32) [(w.a, gangTaint w.a a reads), (w.b, gangTaint w.b b e.takers)] with
    | some t => .error (.trap t)
    | none =>
      let f := fun l => if e.v.live.getLsbD (from_ l) then a.val (from_ l) else 0
      .ok (e.v.addResult (e.gangResult f 0#5) .general)) s

/-- A node of a gang reduction with its flags (R237). -/
def gangNode (t : Ty) (code : Nat) (rm : Mode) (u v : Nat × BitVec 5) : Nat × BitVec 5 :=
  let float : Bool := t = .f32 ∨ t = .f64
  let r : Nat × BitVec 5 :=
    match code with
    | 0 =>
      if float then settleVal t rm false 0 (Val.add (rm = .rdn) (readAs t u.1) (readAs t v.1))
      else ((u.1 + v.1) % 2 ^ t.width, 0#5)
    | 1 => (if float then fpMinMax t false false u.1 v.1 else intMin t u.1 v.1, 0#5)
    | 2 => (if float then fpMinMax t true false u.1 v.1 else intMax t u.1 v.1, 0#5)
    | 3 => (u.1 &&& v.1, 0#5)
    | 4 => (u.1 ||| v.1, 0#5)
    | 5 => (u.1 ^^^ v.1, 0#5)
    | _ => (fpMinMax t true false u.1 v.1, 0#5)
  (r.1, u.2 ||| v.2 ||| r.2)

/-- The identity of an operation (R237). -/
def gangIdentity (t : Ty) (code : Nat) : Nat :=
  let float : Bool := t = .f32 ∨ t = .f64
  let f := formatOf t
  let top := (2 ^ f.ebits - 1) * 2 ^ f.tbits
  match code with
  | 0 => if float then f.signed true 0 else 0
  | 1 => if float then top else fin t (hiOf t) false
  | 2 => if float then f.signed true top else fin t (loOf t) false
  | 3 => 2 ^ t.width - 1
  | _ => 0

/-- A result of a gang scan: every NaN is the canonical one, also where a lane's value comes through no node (R120). -/
def canonicalNan (t : Ty) (v : Nat) : Nat :=
  if (t = .f32 ∨ t = .f64) ∧ readAs t v = .nan then (formatOf t).nan else v

/-- Inclusive scan at a lane: the fold of the aligned blocks that make up lanes 0 to `l` (R139). -/
def scanAt {α : Type} (f : α → α → α) (d : α) (leaves : List α) (l : Nat) : α :=
  ([5, 4, 3, 2, 1, 0].foldl (fun (acc : Option α × Nat) (j : Nat) =>
    if (l + 1).testBit j then
      let v := (pairTree f j leaves).getD (acc.2 / 2 ^ j) d
      (some (match acc.1 with
        | none => v
        | some u => f u v), acc.2 + 2 ^ j)
    else acc) (none, 0)).1.getD d

/-- The leaves of a reduction: the identity where a lane does not take part, magnitudes under `.amax` (R237). -/
def Env.leaves (e : Env) (a : Src) : List (Nat × BitVec 5) :=
  let t := e.x.w.ty
  let code := (mdSUB e.x.w.md).toNat
  (List.finRange 32).map fun (l : Fin 32) =>
    (if e.takers.getLsbD l then (if code = 6 then a.val l % 2 ^ (t.width - 1) else a.val l) else gangIdentity t code, 0#5)

/-- `gscan` (R139, R237). -/
def execGscan (w : Fields) (s : State) : Outcome State Fault Refusal :=
  issue kindGang 0xD2#8 w 16 (envBody fun e =>
    let a := e.src w.a w.ty
    match consumeLanes (BitVec.allOnes 32) [(w.a, gangTaint w.a a e.takers)] with
    | some t => .error (.trap t)
    | none =>
      let code := (mdSUB w.md).toNat
      let node := gangNode w.ty code (scalarMode e.v.regs.fpctl w.md)
      let id := (gangIdentity w.ty code, 0#5)
      let leaves := e.leaves a
      let at_ := fun l : Fin 32 =>
        if w.fn = 1#4 then (if l.val = 0 then id else scanAt node id leaves (l.val - 1)) else scanAt node id leaves l.val
      .ok (e.v.addResult (e.gangResult (fun l => canonicalNan w.ty (at_ l).1) (flagsOf e.takers fun l => (at_ l).2)) .general)) s

/-- `greduce` (R139, R237). -/
def execGreduce (w : Fields) (s : State) : Outcome State Fault Refusal :=
  issue kindGang 0xD3#8 w 16 (envBody fun e =>
    let a := e.src w.a w.ty
    match consumeLanes (BitVec.allOnes 32) [(w.a, gangTaint w.a a e.takers)] with
    | some t => .error (.trap t)
    | none =>
      let code := (mdSUB w.md).toNat
      let id := (gangIdentity w.ty code, 0#5)
      let root := (pairTree (gangNode w.ty code (scalarMode e.v.regs.fpctl w.md)) 5 (e.leaves a)).headD id
      .ok (e.v.addResult (e.gangResult (fun _ => root.1) root.2) .general)) s

/-- `gbcast` (R238). -/
def execGbcast (w : Fields) (s : State) : Outcome State Fault Refusal :=
  issue kindGang 0xD4#8 w 16 (envBody fun e =>
    let a := e.src w.a w.ty
    let b := e.src w.b .n32
    let q := Fin.ofNat 32 (b.val 0)
    let reads := if e.takers ≠ 0#32 ∧ e.v.live.getLsbD q then 1#32 <<< q.val else 0#32
    match consumeLanes (BitVec.allOnes 32) [(w.a, gangTaint w.a a reads), (w.b, gangTaint w.b b e.takers)] with
    | some t => .error (.trap t)
    | none =>
      let v := if e.v.live.getLsbD q then a.val q else 0
      .ok (e.v.addResult (e.gangResult (fun _ => v) 0#5)
        (if e.takers = BitVec.allOnes 32 then .uniform else .general))) s

end Sys2Proof.Machine
end

