-- ==== Sys2Proof/Machine/ScalarInt.lean ====
section
/-! DEFINITION. The scalar integer and bit instructions, opcodes 0x01 to 0x17 (R163 to R179). -/

namespace Sys2Proof.Machine

/-- `sadd` (R171). -/
def execSadd (w : Fields) (s : State) : Host.Outcome State Fault Refusal :=
  scalarOp 0x01#8 w w.ty w.ty w.ty w.ty (fun a b _ => intAdd w.ty w.md a b) s

/-- `ssub` (R171). -/
def execSsub (w : Fields) (s : State) : Host.Outcome State Fault Refusal :=
  scalarOp 0x02#8 w w.ty w.ty w.ty w.ty (fun a b _ => intSub w.ty w.md a b) s

/-- `smul` (R171). -/
def execSmul (w : Fields) (s : State) : Host.Outcome State Fault Refusal :=
  scalarOp 0x03#8 w w.ty w.ty w.ty w.ty (fun a b _ => intMul w.ty w.md a b) s

/-- `smulh` (R171). -/
def execSmulh (w : Fields) (s : State) : Host.Outcome State Fault Refusal :=
  scalarOp 0x04#8 w w.ty w.ty w.ty w.ty (fun a b _ => intMulh w.ty a b) s

/-- `sdiv` (R172). -/
def execSdiv (w : Fields) (s : State) : Host.Outcome State Fault Refusal :=
  scalarOp 0x05#8 w w.ty w.ty w.ty w.ty (fun a b _ => intDiv w.ty a b) s

/-- `srem` (R172). -/
def execSrem (w : Fields) (s : State) : Host.Outcome State Fault Refusal :=
  scalarOp 0x06#8 w w.ty w.ty w.ty w.ty (fun a b _ => intRem w.ty a b) s

/-- `sand` (R173). -/
def execSand (w : Fields) (s : State) : Host.Outcome State Fault Refusal :=
  scalarOp 0x07#8 w w.ty w.ty w.ty w.ty (fun a b _ => a &&& b) s

/-- `sor` (R173). -/
def execSor (w : Fields) (s : State) : Host.Outcome State Fault Refusal :=
  scalarOp 0x08#8 w w.ty w.ty w.ty w.ty (fun a b _ => a ||| b) s

/-- `sxor` (R173). -/
def execSxor (w : Fields) (s : State) : Host.Outcome State Fault Refusal :=
  scalarOp 0x09#8 w w.ty w.ty w.ty w.ty (fun a b _ => a ^^^ b) s

/-- `sshl` (R173). -/
def execSshl (w : Fields) (s : State) : Host.Outcome State Fault Refusal :=
  scalarOp 0x0A#8 w w.ty .n32 w.ty w.ty (fun a b _ => bitShl (opWidth w.ty) a b) s

/-- `sshr` (R173). -/
def execSshr (w : Fields) (s : State) : Host.Outcome State Fault Refusal :=
  scalarOp 0x0B#8 w w.ty .n32 w.ty w.ty (fun a b _ => bitShr (opWidth w.ty) a b) s

/-- `ssar` (R173). -/
def execSsar (w : Fields) (s : State) : Host.Outcome State Fault Refusal :=
  scalarOp 0x0C#8 w w.ty .n32 w.ty w.ty (fun a b _ => bitSar (opWidth w.ty) a b) s

/-- `srot` (R173). -/
def execSrot (w : Fields) (s : State) : Host.Outcome State Fault Refusal :=
  scalarOp 0x0D#8 w w.ty .n32 w.ty w.ty (fun a b _ => bitRot (opWidth w.ty) a b) s

/-- `smin` (R171). -/
def execSmin (w : Fields) (s : State) : Host.Outcome State Fault Refusal :=
  scalarOp 0x0E#8 w w.ty w.ty w.ty w.ty (fun a b _ => intMin w.ty a b) s

/-- `smax` (R171). -/
def execSmax (w : Fields) (s : State) : Host.Outcome State Fault Refusal :=
  scalarOp 0x0F#8 w w.ty w.ty w.ty w.ty (fun a b _ => intMax w.ty a b) s

/-- `scmp` (R174): the result goes to a scalar condition. -/
def execScmp (w : Fields) (s : State) : Host.Outcome State Fault Refusal :=
  scalarOp 0x10#8 w w.ty w.ty w.ty w.ty (fun a b _ => (intTest w.ty (mdSUB w.md).toNat a b).toNat) s

/-- `ssel` (R175). -/
def execSsel (w : Fields) (s : State) : Host.Outcome State Fault Refusal :=
  scalarOp 0x11#8 w .none w.ty w.ty w.ty (fun a b c => if a = 1 then b else c) s

/-- `smov` (R176). -/
def execSmov (w : Fields) (s : State) : Host.Outcome State Fault Refusal :=
  scalarOp 0x12#8 w w.ty w.ty w.ty w.ty (fun a _ _ => a) s

/-- `sli` (R177): `IMM` into the low half of D, or with `FN` 1 into the high half. -/
def execSli (w : Fields) (s : State) : Host.Outcome State Fault Refusal :=
  issue kindPlain 0x13#8 w 16 (regsBody fun _ r =>
    match w.d with
    | .sca _ i =>
      .ok (if w.fn = 1#4 then r.writeSca i 2#2 (w.imm ++ 0#32) 0#2 else r.writeSca i 1#2 (0#32 ++ w.imm) 0#2)
    | _ => .ok r) s

/-- `sclz` (R178). -/
def execSclz (w : Fields) (s : State) : Host.Outcome State Fault Refusal :=
  scalarOp 0x14#8 w w.ty w.ty w.ty w.ty (fun a _ _ => bitClz (opWidth w.ty) a) s

/-- `spopc` (R178). -/
def execSpopc (w : Fields) (s : State) : Host.Outcome State Fault Refusal :=
  scalarOp 0x15#8 w w.ty w.ty w.ty w.ty (fun a _ _ => bitPopc (opWidth w.ty) a) s

/-- `sbfx` (R179). -/
def execSbfx (w : Fields) (s : State) : Host.Outcome State Fault Refusal :=
  scalarOp 0x16#8 w w.ty .n32 w.ty w.ty (fun a b _ => bitBfx w.ty a b) s

/-- `sbfi` (R179). -/
def execSbfi (w : Fields) (s : State) : Host.Outcome State Fault Refusal :=
  scalarOp 0x17#8 w w.ty .n32 w.ty w.ty (fun a b c => bitBfi w.ty a b c) s

end Sys2Proof.Machine
end

