-- ==== Sys2Proof/Machine/VectorInt.lean ====
section
/-! DEFINITION. The vector integer, bit and predicate instructions, opcodes 0x40 to 0x63 (R165 to R187). -/

namespace Sys2Proof.Machine

/-- `vadd` (R171). -/
def execVadd (w : Fields) (s : State) : Host.Outcome State Fault Refusal :=
  vectorOp 0x40#8 w w.ty w.ty w.ty (opWidth w.ty) .add (fun a b _ => intAdd w.ty w.md a b) s

/-- `vsub` (R171). -/
def execVsub (w : Fields) (s : State) : Host.Outcome State Fault Refusal :=
  vectorOp 0x41#8 w w.ty w.ty w.ty (opWidth w.ty) .sub (fun a b _ => intSub w.ty w.md a b) s

/-- `vmul` (R171). -/
def execVmul (w : Fields) (s : State) : Host.Outcome State Fault Refusal :=
  vectorOp 0x42#8 w w.ty w.ty w.ty (opWidth w.ty) .mul (fun a b _ => intMul w.ty w.md a b) s

/-- `vmulh` (R171). -/
def execVmulh (w : Fields) (s : State) : Host.Outcome State Fault Refusal :=
  vectorOp 0x43#8 w w.ty w.ty w.ty (opWidth w.ty) .none (fun a b _ => intMulh w.ty a b) s

/-- `vmad` (R171). -/
def execVmad (w : Fields) (s : State) : Host.Outcome State Fault Refusal :=
  vectorOp 0x44#8 w w.ty w.ty w.ty (opWidth w.ty) .mad (fun a b c => intMad w.ty w.md a b c) s

/-- `vand` (R173). -/
def execVand (w : Fields) (s : State) : Host.Outcome State Fault Refusal :=
  vectorOp 0x45#8 w w.ty w.ty w.ty (opWidth w.ty) .none (fun a b _ => a &&& b) s

/-- `vor` (R173). -/
def execVor (w : Fields) (s : State) : Host.Outcome State Fault Refusal :=
  vectorOp 0x46#8 w w.ty w.ty w.ty (opWidth w.ty) .none (fun a b _ => a ||| b) s

/-- `vxor` (R173). -/
def execVxor (w : Fields) (s : State) : Host.Outcome State Fault Refusal :=
  vectorOp 0x47#8 w w.ty w.ty w.ty (opWidth w.ty) .none (fun a b _ => a ^^^ b) s

/-- `vandn` (R173). -/
def execVandn (w : Fields) (s : State) : Host.Outcome State Fault Refusal :=
  vectorOp 0x48#8 w w.ty w.ty w.ty (opWidth w.ty) .none (fun a b _ => bitAndn (opWidth w.ty) a b) s

/-- `vshl` (R173). -/
def execVshl (w : Fields) (s : State) : Host.Outcome State Fault Refusal :=
  vectorOp 0x49#8 w w.ty .n32 w.ty (opWidth w.ty) .shl (fun a b _ => bitShl (opWidth w.ty) a b) s

/-- `vshr` (R173). -/
def execVshr (w : Fields) (s : State) : Host.Outcome State Fault Refusal :=
  vectorOp 0x4A#8 w w.ty .n32 w.ty (opWidth w.ty) .none (fun a b _ => bitShr (opWidth w.ty) a b) s

/-- `vsar` (R173). -/
def execVsar (w : Fields) (s : State) : Host.Outcome State Fault Refusal :=
  vectorOp 0x4B#8 w w.ty .n32 w.ty (opWidth w.ty) .none (fun a b _ => bitSar (opWidth w.ty) a b) s

/-- `vrot` (R173). -/
def execVrot (w : Fields) (s : State) : Host.Outcome State Fault Refusal :=
  vectorOp 0x4C#8 w w.ty .n32 w.ty (opWidth w.ty) .none (fun a b _ => bitRot (opWidth w.ty) a b) s

/-- `vfunnel` (R173). -/
def execVfunnel (w : Fields) (s : State) : Host.Outcome State Fault Refusal :=
  vectorOp 0x4D#8 w w.ty w.ty .n32 (opWidth w.ty) .none (fun a b c => bitFunnel (opWidth w.ty) a b c) s

/-- `vmin` (R171). -/
def execVmin (w : Fields) (s : State) : Host.Outcome State Fault Refusal :=
  vectorOp 0x4E#8 w w.ty w.ty w.ty (opWidth w.ty) .none (fun a b _ => intMin w.ty a b) s

/-- `vmax` (R171). -/
def execVmax (w : Fields) (s : State) : Host.Outcome State Fault Refusal :=
  vectorOp 0x4F#8 w w.ty w.ty w.ty (opWidth w.ty) .none (fun a b _ => intMax w.ty a b) s

/-- `vabs` (R171). -/
def execVabs (w : Fields) (s : State) : Host.Outcome State Fault Refusal :=
  vectorOp 0x50#8 w w.ty w.ty w.ty (opWidth w.ty) .none (fun a _ _ => intAbs w.ty w.md a) s

/-- `vcmp` (R174). -/
def execVcmp (w : Fields) (s : State) : Host.Outcome State Fault Refusal :=
  vectorTest 0x51#8 w w.ty w.ty .n32 (fun _ a b _ => intTest w.ty (mdSUB w.md).toNat a b) s

/-- `vsel` (R175): A is a predicate, or a condition that is the same in every lane. -/
def execVsel (w : Fields) (s : State) : Host.Outcome State Fault Refusal :=
  vectorOp 0x52#8 w .none w.ty w.ty (opWidth w.ty) .none (fun a b c => if a = 1 then b else c) s

/-- `vmov` (R176). -/
def execVmov (w : Fields) (s : State) : Host.Outcome State Fault Refusal :=
  vectorOp 0x53#8 w w.ty w.ty w.ty (opWidth w.ty) .mov (fun a _ _ => a) s

/-- `vli` (R177). -/
def execVli (w : Fields) (s : State) : Host.Outcome State Fault Refusal :=
  vectorOp 0x54#8 w w.ty w.ty w.ty (opWidth w.ty) .none (fun a _ _ => a) s

/-- `vclz` (R178). -/
def execVclz (w : Fields) (s : State) : Host.Outcome State Fault Refusal :=
  vectorOp 0x55#8 w w.ty w.ty w.ty (opWidth w.ty) .none (fun a _ _ => bitClz (opWidth w.ty) a) s

/-- `vctz` (R178). -/
def execVctz (w : Fields) (s : State) : Host.Outcome State Fault Refusal :=
  vectorOp 0x56#8 w w.ty w.ty w.ty (opWidth w.ty) .none (fun a _ _ => bitCtz (opWidth w.ty) a) s

/-- `vpopc` (R178). -/
def execVpopc (w : Fields) (s : State) : Host.Outcome State Fault Refusal :=
  vectorOp 0x57#8 w w.ty w.ty w.ty (opWidth w.ty) .none (fun a _ _ => bitPopc (opWidth w.ty) a) s

/-- `vbrev` (R178). -/
def execVbrev (w : Fields) (s : State) : Host.Outcome State Fault Refusal :=
  vectorOp 0x58#8 w w.ty w.ty w.ty (opWidth w.ty) .none (fun a _ _ => bitBrev (opWidth w.ty) a) s

/-- `vbswap` (R178). -/
def execVbswap (w : Fields) (s : State) : Host.Outcome State Fault Refusal :=
  vectorOp 0x59#8 w w.ty w.ty w.ty (opWidth w.ty) .none (fun a _ _ => bitBswap (opWidth w.ty) a) s

/-- `vbfx` (R179). -/
def execVbfx (w : Fields) (s : State) : Host.Outcome State Fault Refusal :=
  vectorOp 0x5A#8 w w.ty .n32 w.ty (opWidth w.ty) .none (fun a b _ => bitBfx w.ty a b) s

/-- `vbfi` (R179). -/
def execVbfi (w : Fields) (s : State) : Host.Outcome State Fault Refusal :=
  vectorOp 0x5B#8 w w.ty .n32 w.ty (opWidth w.ty) .none (fun a b c => bitBfi w.ty a b c) s

/-- `vbitil` (R180). -/
def execVbitil (w : Fields) (s : State) : Host.Outcome State Fault Refusal :=
  vectorOp 0x5C#8 w w.ty w.ty w.ty (opWidth w.ty) .none (fun a b c => bitInterleave (opWidth w.ty) (if w.fn = 1#4 then 3 else 2) a b c) s

/-- `vbitdl` (R180). -/
def execVbitdl (w : Fields) (s : State) : Host.Outcome State Fault Refusal :=
  vectorOp 0x5D#8 w w.ty w.ty w.ty (opWidth w.ty) .none (fun a _ _ => bitGather (opWidth w.ty) w.fn.toNat a) s

/-- `vclmul` (R181). -/
def execVclmul (w : Fields) (s : State) : Host.Outcome State Fault Refusal :=
  vectorOp 0x5E#8 w w.ty w.ty w.ty (opWidth w.ty) .none (fun a b _ => bitClmul w.fn.toNat a b) s

/-- The table of `vperm`: four vector registers, or two scalar registers (R182). -/
def Env.table (e : Env) (o : Operand) : Src :=
  match o with
  | .vec r =>
    let a := e.vecSrc r.toNat 64
    let b := e.vecSrc (r.toNat + 2) 64
    ⟨fun l => a.val l + 2 ^ 64 * b.val l, a.poison ||| b.poison,
      if a.tag = .uniform ∧ b.tag = .uniform then .uniform else .general⟩
  | .sca _ i =>
    .uniform ((e.v.regs.get i).toNat + 2 ^ 64 * (e.v.regs.get (i + 1#6)).toNat)
      (e.v.regs.poison .full i || e.v.regs.poison .full (i + 1#6))
  | _ => .uniform 0 false

/-- `vperm` (R182). -/
def execVperm (w : Fields) (s : State) : Host.Outcome State Fault Refusal :=
  issue kindPlain 0x5F#8 w 16 (envBody fun e =>
    let a := e.src w.a .n32
    let b := e.table w.b
    match consumeLanes e.x.part [(w.a, a.poison), (w.b, b.poison)] with
    | some t => .error (.trap t)
    | none =>
      .ok (e.write (regOf w.d) 32 (fun l => bytePerm (w.fn = 1#4) (a.val l) (b.val l))
        (e.shape .none a b (.uniform 0 false)))) s

/-- `vdot4` (R183). -/
def execVdot4 (w : Fields) (s : State) : Host.Outcome State Fault Refusal :=
  vectorOp 0x60#8 w .n32 .n32 .n32 32 .none (fun a b c => intDot4 w.ty w.md a b c) s

/-- `vaddc` (R184): the carry of each lane is read from and written to the predicate that C names. The result is general (R187). -/
def execVaddc (w : Fields) (s : State) : Host.Outcome State Fault Refusal :=
  issue kindPlain 0x61#8 w 16 (envBody fun e =>
    let a := e.src w.a w.ty
    let b := e.src w.b w.ty
    let c := e.predSrc w.c
    match consumeLanes e.x.part [(w.a, a.poison), (w.b, b.poison)] with
    | some t => .error (.trap t)
    | none =>
      let r := fun l : Fin 32 => intAddc (opWidth w.ty) w.fn.toNat (a.val l) (b.val l) (c.getLsbD l)
      let v := e.write (regOf w.d) (opWidth w.ty) (fun l => (r l).1) .general
      match w.c with
      | .pred i => .ok (v.writePred i e.x.part (maskOf fun l => (r l).2))
      | _ => .ok v) s

/-- `plog` (R185): bit 4x + 2y + z of the table in `IMM`. -/
def execPlog (w : Fields) (s : State) : Host.Outcome State Fault Refusal :=
  issue kindPlain 0x62#8 w 16 (envBody fun e =>
    let a := e.predSrc w.a
    let b := e.predSrc w.b
    let c := e.predSrc w.c
    let f := fun l : Fin 32 =>
      w.imm.getLsbD (4 * (a.getLsbD l).toNat + 2 * (b.getLsbD l).toNat + (c.getLsbD l).toNat)
    match w.d with
    | .pred i => .ok (e.v.writePred i e.x.part (maskOf f))
    | _ => .ok e.v) s

/-- `pmov` (R186): to a predicate from lanes that are not zero, to a register from a predicate, or to a predicate from bit l of lane l. -/
def execPmov (w : Fields) (s : State) : Host.Outcome State Fault Refusal :=
  if w.fn = 1#4 then vectorOp 0x63#8 w .none .none .none 32 .none (fun a _ _ => a) s
  else if w.fn = 2#4 then vectorTest 0x63#8 w .b32 .none .none (fun l a _ _ => bitAt a l) s
  else vectorTest 0x63#8 w .b32 .none .none (fun _ a _ _ => a ≠ 0) s

end Sys2Proof.Machine
end

