-- ==== Sys2Proof/Machine/Dispatch.lean ====
section
/-! DEFINITION. One arm for each constructor of the syntax. -/

namespace Sys2Proof.Machine

/-- The effect of one instruction form or step on the state. An instruction form is executed by the unit that field `cur` names. -/
def exec (i : Instr) (s : State) : Host.Outcome State Fault Refusal :=
  match i with
  | .sadd w => Sys2Proof.Machine.execSadd w s
  | .ssub w => Sys2Proof.Machine.execSsub w s
  | .smul w => Sys2Proof.Machine.execSmul w s
  | .smulh w => Sys2Proof.Machine.execSmulh w s
  | .sdiv w => Sys2Proof.Machine.execSdiv w s
  | .srem w => Sys2Proof.Machine.execSrem w s
  | .sand w => Sys2Proof.Machine.execSand w s
  | .sor w => Sys2Proof.Machine.execSor w s
  | .sxor w => Sys2Proof.Machine.execSxor w s
  | .sshl w => Sys2Proof.Machine.execSshl w s
  | .sshr w => Sys2Proof.Machine.execSshr w s
  | .ssar w => Sys2Proof.Machine.execSsar w s
  | .srot w => Sys2Proof.Machine.execSrot w s
  | .smin w => Sys2Proof.Machine.execSmin w s
  | .smax w => Sys2Proof.Machine.execSmax w s
  | .scmp w => Sys2Proof.Machine.execScmp w s
  | .ssel w => Sys2Proof.Machine.execSsel w s
  | .smov w => Sys2Proof.Machine.execSmov w s
  | .sli w => Sys2Proof.Machine.execSli w s
  | .sclz w => Sys2Proof.Machine.execSclz w s
  | .spopc w => Sys2Proof.Machine.execSpopc w s
  | .sbfx w => Sys2Proof.Machine.execSbfx w s
  | .sbfi w => Sys2Proof.Machine.execSbfi w s
  | .sfadd w => Sys2Proof.Machine.execSfadd w s
  | .sfmul w => Sys2Proof.Machine.execSfmul w s
  | .sffma w => Sys2Proof.Machine.execSffma w s
  | .sfcvt w => Sys2Proof.Machine.execSfcvt w s
  | .vadd w => Sys2Proof.Machine.execVadd w s
  | .vsub w => Sys2Proof.Machine.execVsub w s
  | .vmul w => Sys2Proof.Machine.execVmul w s
  | .vmulh w => Sys2Proof.Machine.execVmulh w s
  | .vmad w => Sys2Proof.Machine.execVmad w s
  | .vand w => Sys2Proof.Machine.execVand w s
  | .vor w => Sys2Proof.Machine.execVor w s
  | .vxor w => Sys2Proof.Machine.execVxor w s
  | .vandn w => Sys2Proof.Machine.execVandn w s
  | .vshl w => Sys2Proof.Machine.execVshl w s
  | .vshr w => Sys2Proof.Machine.execVshr w s
  | .vsar w => Sys2Proof.Machine.execVsar w s
  | .vrot w => Sys2Proof.Machine.execVrot w s
  | .vfunnel w => Sys2Proof.Machine.execVfunnel w s
  | .vmin w => Sys2Proof.Machine.execVmin w s
  | .vmax w => Sys2Proof.Machine.execVmax w s
  | .vabs w => Sys2Proof.Machine.execVabs w s
  | .vcmp w => Sys2Proof.Machine.execVcmp w s
  | .vsel w => Sys2Proof.Machine.execVsel w s
  | .vmov w => Sys2Proof.Machine.execVmov w s
  | .vli w => Sys2Proof.Machine.execVli w s
  | .vclz w => Sys2Proof.Machine.execVclz w s
  | .vctz w => Sys2Proof.Machine.execVctz w s
  | .vpopc w => Sys2Proof.Machine.execVpopc w s
  | .vbrev w => Sys2Proof.Machine.execVbrev w s
  | .vbswap w => Sys2Proof.Machine.execVbswap w s
  | .vbfx w => Sys2Proof.Machine.execVbfx w s
  | .vbfi w => Sys2Proof.Machine.execVbfi w s
  | .vbitil w => Sys2Proof.Machine.execVbitil w s
  | .vbitdl w => Sys2Proof.Machine.execVbitdl w s
  | .vclmul w => Sys2Proof.Machine.execVclmul w s
  | .vperm w => Sys2Proof.Machine.execVperm w s
  | .vdot4 w => Sys2Proof.Machine.execVdot4 w s
  | .vaddc w => Sys2Proof.Machine.execVaddc w s
  | .plog w => Sys2Proof.Machine.execPlog w s
  | .pmov w => Sys2Proof.Machine.execPmov w s
  | .vfadd w => Sys2Proof.Machine.execVfadd w s
  | .vfsub w => Sys2Proof.Machine.execVfsub w s
  | .vfmul w => Sys2Proof.Machine.execVfmul w s
  | .vffma w => Sys2Proof.Machine.execVffma w s
  | .vfmin w => Sys2Proof.Machine.execVfmin w s
  | .vfmax w => Sys2Proof.Machine.execVfmax w s
  | .vfcmp w => Sys2Proof.Machine.execVfcmp w s
  | .vfdiv w => Sys2Proof.Machine.execVfdiv w s
  | .vfsqrt w => Sys2Proof.Machine.execVfsqrt w s
  | .vfrcp w => Sys2Proof.Machine.execVfrcp w s
  | .vfrsq w => Sys2Proof.Machine.execVfrsq w s
  | .vfexp2 w => Sys2Proof.Machine.execVfexp2 w s
  | .vflog2 w => Sys2Proof.Machine.execVflog2 w s
  | .vfsinpi w => Sys2Proof.Machine.execVfsinpi w s
  | .vfcospi w => Sys2Proof.Machine.execVfcospi w s
  | .vfcvt w => Sys2Proof.Machine.execVfcvt w s
  | .vfcvti w => Sys2Proof.Machine.execVfcvti w s
  | .vicvtf w => Sys2Proof.Machine.execVicvtf w s
  | .vfrnd w => Sys2Proof.Machine.execVfrnd w s
  | .vfclass w => Sys2Proof.Machine.execVfclass w s
  | .vfscale w => Sys2Proof.Machine.execVfscale w s
  | .vfgetexp w => Sys2Proof.Machine.execVfgetexp w s
  | .vfpack w => Sys2Proof.Machine.execVfpack w s
  | .vfdot2 w => Sys2Proof.Machine.execVfdot2 w s
  | .ld w => Sys2Proof.Machine.execLd w s
  | .st w => Sys2Proof.Machine.execSt w s
  | .ldsp w => Sys2Proof.Machine.execLdsp w s
  | .stsp w => Sys2Proof.Machine.execStsp w s
  | .sld w => Sys2Proof.Machine.execSld w s
  | .sst w => Sys2Proof.Machine.execSst w s
  | .xlate w => Sys2Proof.Machine.execXlate w s
  | .stmap w => Sys2Proof.Machine.execStmap w s
  | .stflush w => Sys2Proof.Machine.execStflush w s
  | .atom w => Sys2Proof.Machine.execAtom w s
  | .red w => Sys2Proof.Machine.execRed w s
  | .fence w => Sys2Proof.Machine.execFence w s
  | .fpromote w => Sys2Proof.Machine.execFpromote w s
  | .prefetch w => Sys2Proof.Machine.execPrefetch w s
  | .ldg w => Sys2Proof.Machine.execLdg w s
  | .stg w => Sys2Proof.Machine.execStg w s
  | .mma w => Sys2Proof.Machine.execMma w s
  | .mmat w => Sys2Proof.Machine.execMmat w s
  | .mperm w => Sys2Proof.Machine.execMperm w s
  | .mrsum w => Sys2Proof.Machine.execMrsum w s
  | .tld w => Sys2Proof.Machine.execTld w s
  | .tst w => Sys2Proof.Machine.execTst w s
  | .tcvt w => Sys2Proof.Machine.execTcvt w s
  | .tzero w => Sys2Proof.Machine.execTzero w s
  | .mcopy w => Sys2Proof.Machine.execMcopy w s
  | .mwait w => Sys2Proof.Machine.execMwait w s
  | .tallocWait w => Sys2Proof.Machine.execTallocWait w s
  | .tallocTry w => Sys2Proof.Machine.execTallocTry w s
  | .tgive w => Sys2Proof.Machine.execTgive w s
  | .ttake w => Sys2Proof.Machine.execTtake w s
  | .tfree w => Sys2Proof.Machine.execTfree w s
  | .rlock w => Sys2Proof.Machine.execRlock w s
  | .runlock w => Sys2Proof.Machine.execRunlock w s
  | .tlbinv w => Sys2Proof.Machine.execTlbinv w s
  | .cprobe w => Sys2Proof.Machine.execCprobe w s
  | .bra w => Sys2Proof.Machine.execBra w s
  | .brq w => Sys2Proof.Machine.execBrq w s
  | .call w => Sys2Proof.Machine.execCall w s
  | .ret w => Sys2Proof.Machine.execRet w s
  | .btab w => Sys2Proof.Machine.execBtab w s
  | .regang w => Sys2Proof.Machine.execRegang w s
  | .exit w => Sys2Proof.Machine.execExit w s
  | .nop w => Sys2Proof.Machine.execNop w s
  | .trap w => Sys2Proof.Machine.execTrap w s
  | .trapret w => Sys2Proof.Machine.execTrapret w s
  | .mfsr w => Sys2Proof.Machine.execMfsr w s
  | .mtsr w => Sys2Proof.Machine.execMtsr w s
  | .icinv w => Sys2Proof.Machine.execIcinv w s
  | .brk w => Sys2Proof.Machine.execBrk w s
  | .rgrowWait w => Sys2Proof.Machine.execRgrowWait w s
  | .rgrowTry w => Sys2Proof.Machine.execRgrowTry w s
  | .rshrink w => Sys2Proof.Machine.execRshrink w s
  | .rshapeGet w => Sys2Proof.Machine.execRshapeGet w s
  | .rshapeSet w => Sys2Proof.Machine.execRshapeSet w s
  | .gvote w => Sys2Proof.Machine.execGvote w s
  | .gshfl w => Sys2Proof.Machine.execGshfl w s
  | .gscan w => Sys2Proof.Machine.execGscan w s
  | .greduce w => Sys2Proof.Machine.execGreduce w s
  | .gbcast w => Sys2Proof.Machine.execGbcast w s
  | .bar w => Sys2Proof.Machine.execBar w s
  | .launch w => Sys2Proof.Machine.execLaunch w s
  | .qappend w => Sys2Proof.Machine.execQappend w s
  | .qtail w => Sys2Proof.Machine.execQtail w s
  | .evget w => Sys2Proof.Machine.execEvget w s
  | .evwait w => Sys2Proof.Machine.execEvwait w s
  | .msem w => Sys2Proof.Machine.execMsem w s
  | .semup w => Sys2Proof.Machine.execSemup w s
  | .semwait w => Sys2Proof.Machine.execSemwait w s
  | .semread w => Sys2Proof.Machine.execSemread w s
  | .slkset w => Sys2Proof.Machine.execSlkset w s
  | .seqwait w => Sys2Proof.Machine.execSeqwait w s
  | .resultReply u id => Sys2Proof.Machine.execResultReply u id s
  | .dlyExpiry team gang => Sys2Proof.Machine.execDlyExpiry team gang s
  | .slotDrowsy team gang reg => Sys2Proof.Machine.execSlotDrowsy team gang reg s
  | .trapEntry u => Sys2Proof.Machine.execTrapEntry u s
  | .rangeLockRetry team gang => Sys2Proof.Machine.execRangeLockRetry team gang s
  | .handleBusyTimeout team gang => Sys2Proof.Machine.execHandleBusyTimeout team gang s
  | .commandQueueAccept team gang => Sys2Proof.Machine.execCommandQueueAccept team gang s
  | .commandBegin core cmd => Sys2Proof.Machine.execCommandBegin core cmd s
  | .commandComplete core cmd => Sys2Proof.Machine.execCommandComplete core cmd s
  | .granuleClearDone core release => Sys2Proof.Machine.execGranuleClearDone core release s
  | .allocationDeadlock core => Sys2Proof.Machine.execAllocationDeadlock core s
  | .registerDeadlock core => Sys2Proof.Machine.execRegisterDeadlock core s
  | .evwaitTimeout seq => Sys2Proof.Machine.execEvwaitTimeout seq s
  | .gangRetire team gang => Sys2Proof.Machine.execGangRetire team gang s
  | .teamDone team => Sys2Proof.Machine.execTeamDone team s
  | .debuggerKill team gang lanes => Sys2Proof.Machine.execDebuggerKill team gang lanes s
  | .contextSave team => Sys2Proof.Machine.execContextSave team s
  | .teamRestore team => Sys2Proof.Machine.execTeamRestore team s
  | .parkedEnsembleSave ensemble => Sys2Proof.Machine.execParkedEnsembleSave ensemble s
  | .parkedEnsembleRestore ensemble => Sys2Proof.Machine.execParkedEnsembleRestore ensemble s
  | .debugGo ctx value => Sys2Proof.Machine.execDebugGo ctx value s
  | .slackExhausted packet => Sys2Proof.Machine.execSlackExhausted packet s
  | .packetService queue => Sys2Proof.Machine.execPacketService queue s
  | .coalesceWindowClose core line => Sys2Proof.Machine.execCoalesceWindowClose core line s
  | .promotionArrival promotion die => Sys2Proof.Machine.execPromotionArrival promotion die s
  | .remoteWriteAck op => Sys2Proof.Machine.execRemoteWriteAck op s
  | .sectorPoison place => Sys2Proof.Machine.execSectorPoison place s
  | .correctableError chip => Sys2Proof.Machine.execCorrectableError chip s
  | .eventPost post => Sys2Proof.Machine.execEventPost post s
  | .queueDoorbell q bell => Sys2Proof.Machine.execQueueDoorbell q bell s
  | .doorbellDropClear q => Sys2Proof.Machine.execDoorbellDropClear q s
  | .queueSwitch => Sys2Proof.Machine.execQueueSwitch s
  | .launchDeal die count => Sys2Proof.Machine.execLaunchDeal die count s
  | .waitPacketPoll q => Sys2Proof.Machine.execWaitPacketPoll q s
  | .signalPacket q => Sys2Proof.Machine.execSignalPacket q s
  | .dieDistributorDeal die cluster => Sys2Proof.Machine.execDieDistributorDeal die cluster s
  | .ensembleStart seq cores => Sys2Proof.Machine.execEnsembleStart seq cores s
  | .stealRequest thief victim => Sys2Proof.Machine.execStealRequest thief victim s
  | .stealReply victim => Sys2Proof.Machine.execStealReply victim s
  | .deadlineMiss launch => Sys2Proof.Machine.execDeadlineMiss launch s
  | .forcedReset ctx => Sys2Proof.Machine.execForcedReset ctx s
  | .contextEnd ctx => Sys2Proof.Machine.execContextEnd ctx s
  | .moverCopy mover slot => Sys2Proof.Machine.execMoverCopy mover slot s
  | .moverRingAllreduce mover slot => Sys2Proof.Machine.execMoverRingAllreduce mover slot s
  | .moverTreeAllreduce mover slot => Sys2Proof.Machine.execMoverTreeAllreduce mover slot s
  | .ethernetSend mover slot => Sys2Proof.Machine.execEthernetSend mover slot s
  | .ethernetReceive mover slot => Sys2Proof.Machine.execEthernetReceive mover slot s
  | .ethernetFrameArrival port frame fcsGood paused => Sys2Proof.Machine.execEthernetFrameArrival port frame fcsGood paused s
  | .utiumFlitReceive port crcGood flit => Sys2Proof.Machine.execUtiumFlitReceive port crcGood flit s
  | .hostLinkAccess link access => Sys2Proof.Machine.execHostLinkAccess link access s
  | .switchMatrixCommand asg => Sys2Proof.Machine.execSwitchMatrixCommand asg s
  | .switchCommandApplied => Sys2Proof.Machine.execSwitchCommandApplied s
  | .fabricFaultServed idx fail => Sys2Proof.Machine.execFabricFaultServed idx fail s
  | .faultServed ctx idx => Sys2Proof.Machine.execFaultServed ctx idx s
  | .faultQueueHeadWrite ctx head => Sys2Proof.Machine.execFaultQueueHeadWrite ctx head s
  | .tlbInvalidateControl ctx value => Sys2Proof.Machine.execTlbInvalidateControl ctx value s
  | .icacheInvalidateGo => Sys2Proof.Machine.execIcacheInvalidateGo s
  | .wayMaskWrite die way => Sys2Proof.Machine.execWayMaskWrite die way s
  | .routingRegisterWrite a b value => Sys2Proof.Machine.execRoutingRegisterWrite a b value s
  | .routeChangeEffect a b => Sys2Proof.Machine.execRouteChangeEffect a b s
  | .pairFaultCountClear a b => Sys2Proof.Machine.execPairFaultCountClear a b s
  | .syndromeClear port => Sys2Proof.Machine.execSyndromeClear port s
  | .sequencerStart seq => Sys2Proof.Machine.execSequencerStart seq s
  | .registerWrite offset width value => Sys2Proof.Machine.execRegisterWrite offset width value s
  | .railLoss a b plane => Sys2Proof.Machine.execRailLoss a b plane s
  | .railRelock a b rail => Sys2Proof.Machine.execRailRelock a b rail s
  | .pairLossTimeout a b => Sys2Proof.Machine.execPairLossTimeout a b s
  | .laneLossOfLock lane => Sys2Proof.Machine.execLaneLossOfLock lane s
  | .retrainAttemptEnd lane locked => Sys2Proof.Machine.execRetrainAttemptEnd lane locked s
  | .heaterRollover lane => Sys2Proof.Machine.execHeaterRollover lane s
  | .containedError die cls unit => Sys2Proof.Machine.execContainedError die cls unit s
  | .dieFence die => Sys2Proof.Machine.execDieFence die s
  | .uncontainedError port cls unit => Sys2Proof.Machine.execUncontainedError port cls unit s
  | .link0Down => Sys2Proof.Machine.execLink0Down s
  | .attestationRequest nonce => Sys2Proof.Machine.execAttestationRequest nonce s
  | .powerOn => Sys2Proof.Machine.execPowerOn s
  | .fundamentalReset => Sys2Proof.Machine.execFundamentalReset s
  | .rst => Sys2Proof.Machine.execRst s
  | .groundWatchdogReset => Sys2Proof.Machine.execGroundWatchdogReset s
  | .start good spare => Sys2Proof.Machine.execStart good spare s
  | .startStepTimeout => Sys2Proof.Machine.execStartStepTimeout s
  | .startFailureReset => Sys2Proof.Machine.execStartFailureReset s
  | .studioRestart => Sys2Proof.Machine.execStudioRestart s
  | .gangAged team gang => Sys2Proof.Machine.execGangAged team gang s
  | .cacheEviction die line => Sys2Proof.Machine.execCacheEviction die line s
  | .invalidationReachesCore inval core => Sys2Proof.Machine.execInvalidationReachesCore inval core s
  | .powerRemoval => Sys2Proof.Machine.execPowerRemoval s
  | .hostLinkTrained link => Sys2Proof.Machine.execHostLinkTrained link s

end Sys2Proof.Machine
end

