-- ==== Sys2Proof/Machine/Step.lean ====
section
/-! DEFINITION. One step of the machine, and the placing of one instruction for a unit to run next. -/

namespace Sys2Proof.Machine

/-- One step: a turn is chosen, its instruction or event is executed, and time passes. -/
def step (s : State) : Host.Outcome State Fault Refusal :=
  match s.nextTurn with
  | (none, s) => .next s.pass
  | (some t, s) =>
    match s.prepare t with
    | .done s => .next s.pass
    | .run i s =>
      match exec i s with
      | .next s => .next s.pass
      | .fault f => .fault f
      | .refused r => .refused r

/-- The state with an instruction placed where the next step fetches it (log 7). [log 7: DESIGN CHOICE, safe] -/
def State.withFetchWord (s : State) (nbits w : Nat) : State := s.placed (BitVec.ofNat 128 (w % 2 ^ nbits))

end Sys2Proof.Machine
end

