-- ==== Sys2Proof/Safety.lean ====
section
/-! DEFINITION. The terms that claims use: what counts as a safe run, when an instruction issues, what an issue may change beside the instruction's own effect, and which function each arithmetic form computes. -/

namespace Sys2Proof.Machine

/-! ## Safe runs -/

/-- A step of the machine that no word encodes. -/
def isEvent (i : Instr) : Bool := i.parts.isNone

/-- A state of the start that R495 to R498 allow: counts of failures up to 3, a step from 1 to 9 or none, and no step while `READY`, the safe state or a pending reset holds, of which at most one does. -/
def Start.legal (t : Start) : Bool :=
  decide (t.gf.toNat ≤ 3 ∧ t.rf.toNat ≤ 3 ∧ t.phase ≤ 9) && (decide (t.phase = 0) || !(t.ready || t.safe || t.failed)) &&
    !(t.ready && t.safe) && !(t.ready && t.failed) && !(t.safe && t.failed)

/-- Every byte memory of the module is in its canonical form: global, host and remote memory, the dies' scratch, and the windows of the teams. -/
def State.tidy (s : State) : Prop :=
  Memory.wf s.mem = true ∧ (∀ d : Fin 9, Memory.wf s.dies[d].scratch = true) ∧ ∀ x ∈ s.teams, Memory.wf x.window = true

/-- The invariant of the machine: its byte memories are canonical, and the start is in a state that its rules allow. -/
def State.Inv (s : State) : Prop := s.tidy ∧ s.start.legal = true

/-- A step completes: it ends in a next state. -/
def completes (s : State) : Prop := ∃ t, step s = .next t

/-! ## When an instruction issues -/

/-- Unit `x.u` issues an instruction of opcode `op` with fields `w`, and nothing that is checked at issue stops or holds it: the checks of R68 pass, the guard of R70 holds, a late result has room (R304), and an access has neither a promotion nor an acquire of the unit's own to wait for (R270, R315). -/
def Issues (s : State) (k : IssueKind) (op : BitVec 8) (w : Fields) (x : Exec) : Prop :=
  s.cur = some x.u ∧ execOf s x.u op w = some x ∧ issueCheck k x (s.allocOf x.u) = none ∧ x.guard = true ∧
    (k.late = true → x.seq = false → (s.regsOf x.u).pending.length < 64) ∧ (k.memory = true → s.memoryWait x.u = none)

/-- Privileged at issue: `tlbinv` and `icinv.dev` (R68, R99, R232). -/
def privileged (op : BitVec 8) (w : Fields) : Bool := op = 0xA6#8 ∨ (op = 0xCC#8 ∧ w.fn = 1#4)

/-- Requires a converged gang: the matrix and tile instructions, and votes, shuffles, scans, reductions, broadcasts and barriers (R55, R425). -/
def converges (op : BitVec 8) : Bool :=
  (0x90 ≤ op.toNat ∧ op.toNat ≤ 0x99) ∨ (0xA0 ≤ op.toNat ∧ op.toNat ≤ 0xA3) ∨ (0xD0 ≤ op.toNat ∧ op.toNat ≤ 0xD5)

/-- Acts once per gang under a predicate guard: the third group of R71. -/
def actsOnce (op : BitVec 8) : Bool :=
  (0x84 ≤ op.toNat ∧ op.toNat ≤ 0x88) ∨ op = 0x8B#8 ∨ op = 0x8C#8 ∨ (0x90 ≤ op.toNat ∧ op.toNat ≤ 0xA7)

/-! ## What an issue may change beside the instruction's own effect -/

/-- A gang without its scheduling state: the order and times of issues (R49, R54, R96), the clocks of waits for the other unit (R323), when registers were last used (R154), which lanes are still to be covered (R87), and the state of R50. -/
def Gang.bare (v : Gang) : Gang :=
  { v with
    vregs := v.vregs.map fun r => { r with used := 0, drowsy := false, pend := 0#32 }
    quads := mapQuads v.quads fun _ q => { q with skipped := 0 }
    status := .ready, aged := false, readySince := 0, lastIssue := 0, delay := none, yielded := false, swLater := false, otherWait := 0, otherSince := none }

/-- A core without its hold store (R95) and its performance counters (R431). -/
def Core.bare (c : Core) : Core := { c with hold := Vector.ofFn fun _ => none, perf := Vector.ofFn fun _ => 0#64 }

/-- A gang whose issuing quads have moved on by `len` bytes; the displaced word, where it was one, has issued. -/
def Gang.moved (v : Gang) (x : Exec) (len : Nat) : Gang :=
  { v.setPc x.quads (x.pc + BitVec.ofNat 56 len) with emul := v.emul &&& ~~~x.quads }

/-- `t` is `s` after the issuing gang has gone from `v` to `f v`, up to what every issue may change; nothing else differs. -/
def gangBecomes (x : Exec) (f : Gang → Gang) (s t : State) : Prop :=
  ∃ v v', s.gang? x.t x.g = some v ∧ v'.bare = (f v).bare ∧ (∀ c, (t.core c).bare = (s.core c).bare) ∧
    t = { s.setGang x.t x.g v' with cores := t.cores, ids := t.ids }

/-- `t` is `s` after the issuing sequencer has gone from `q` to `f q`; nothing else differs but the next free name. -/
def seqBecomes (x : Exec) (f : Seq → Seq) (s t : State) : Prop :=
  t = { s.setSeq (f (s.seq x.cluster)) with ids := t.ids }

/-- `t` is `s` after the issuing unit has moved on by one word and its registers have gone from `r` to `f r`; nothing else differs, up to what every issue may change. -/
def regsBecome (x : Exec) (f : Regs → Regs) (s t : State) : Prop :=
  match x.u with
  | .gang _ _ => gangBecomes x (fun v => { v.moved x 16 with regs := f v.regs }) s t
  | .seq _ => seqBecomes x (fun q => { q with pc := x.pc + 16#56, emul := false, regs := f q.regs }) s t

/-- `t` is `s` after each quad `q` of the issuing sub-gang has gone to `f q`, with the sub-gangs that follow from it (R215), or after the issuing sequencer has gone to `f 0`. -/
def jumps (x : Exec) (f : Fin 8 → BitVec 56) (s t : State) : Prop :=
  match x.u with
  | .gang _ _ =>
    gangBecomes x (fun v =>
      let u := v.moved x 16
      { u with quads := mapQuads u.quads fun q z => if x.quads.getLsbD q then { z with pc := f q } else z }.regroup x.quads) s t
  | .seq _ => seqBecomes x (fun q => { q with pc := f 0, emul := false }) s t

/-- `t` is `s` up to the contents of TLBs, the packets on their way and the next free name: all that the checks of an access change (R302, R386). -/
def looked (s t : State) : Prop := t = { s with cores := t.cores, seqs := t.seqs, chips := t.chips, packets := t.packets, ids := t.ids }

/-! ## The function that each arithmetic form computes -/

/-- A scalar form: its opcode, the types of its sources and of its result, and its function. -/
structure ScalarForm where
  op : BitVec 8
  w : Fields
  ta : Ty
  tb : Ty
  tc : Ty
  td : Ty
  f : Nat → Nat → Nat → Nat

/-- The scalar integer forms with three sources and one result (R171 to R179). -/
def scalarForm : Instr → Option ScalarForm
  | .sadd w => some ⟨0x01#8, w, w.ty, w.ty, w.ty, w.ty, fun a b _ => intAdd w.ty w.md a b⟩
  | .ssub w => some ⟨0x02#8, w, w.ty, w.ty, w.ty, w.ty, fun a b _ => intSub w.ty w.md a b⟩
  | .smul w => some ⟨0x03#8, w, w.ty, w.ty, w.ty, w.ty, fun a b _ => intMul w.ty w.md a b⟩
  | .smulh w => some ⟨0x04#8, w, w.ty, w.ty, w.ty, w.ty, fun a b _ => intMulh w.ty a b⟩
  | .sdiv w => some ⟨0x05#8, w, w.ty, w.ty, w.ty, w.ty, fun a b _ => intDiv w.ty a b⟩
  | .srem w => some ⟨0x06#8, w, w.ty, w.ty, w.ty, w.ty, fun a b _ => intRem w.ty a b⟩
  | .sand w => some ⟨0x07#8, w, w.ty, w.ty, w.ty, w.ty, fun a b _ => a &&& b⟩
  | .sor w => some ⟨0x08#8, w, w.ty, w.ty, w.ty, w.ty, fun a b _ => a ||| b⟩
  | .sxor w => some ⟨0x09#8, w, w.ty, w.ty, w.ty, w.ty, fun a b _ => a ^^^ b⟩
  | .sshl w => some ⟨0x0A#8, w, w.ty, .n32, w.ty, w.ty, fun a b _ => bitShl (opWidth w.ty) a b⟩
  | .sshr w => some ⟨0x0B#8, w, w.ty, .n32, w.ty, w.ty, fun a b _ => bitShr (opWidth w.ty) a b⟩
  | .ssar w => some ⟨0x0C#8, w, w.ty, .n32, w.ty, w.ty, fun a b _ => bitSar (opWidth w.ty) a b⟩
  | .srot w => some ⟨0x0D#8, w, w.ty, .n32, w.ty, w.ty, fun a b _ => bitRot (opWidth w.ty) a b⟩
  | .smin w => some ⟨0x0E#8, w, w.ty, w.ty, w.ty, w.ty, fun a b _ => intMin w.ty a b⟩
  | .smax w => some ⟨0x0F#8, w, w.ty, w.ty, w.ty, w.ty, fun a b _ => intMax w.ty a b⟩
  | .scmp w => some ⟨0x10#8, w, w.ty, w.ty, w.ty, w.ty, fun a b _ => (intTest w.ty (mdSUB w.md).toNat a b).toNat⟩
  | .ssel w => some ⟨0x11#8, w, .none, w.ty, w.ty, w.ty, fun a b c => if a = 1 then b else c⟩
  | .smov w => some ⟨0x12#8, w, w.ty, w.ty, w.ty, w.ty, fun a _ _ => a⟩
  | .sclz w => some ⟨0x14#8, w, w.ty, w.ty, w.ty, w.ty, fun a _ _ => bitClz (opWidth w.ty) a⟩
  | .spopc w => some ⟨0x15#8, w, w.ty, w.ty, w.ty, w.ty, fun a _ _ => bitPopc (opWidth w.ty) a⟩
  | .sbfx w => some ⟨0x16#8, w, w.ty, .n32, w.ty, w.ty, fun a b _ => bitBfx w.ty a b⟩
  | .sbfi w => some ⟨0x17#8, w, w.ty, .n32, w.ty, w.ty, fun a b c => bitBfi w.ty a b c⟩
  | _ => none

/-- A scalar floating form. -/
structure ScalarFloat where
  op : BitVec 8
  w : Fields
  ta : Ty
  tb : Ty
  tc : Ty
  td : Ty
  f : Mode → Nat → Nat → Nat → Nat × BitVec 5

/-- The scalar floating forms (R193, R194, R210). -/
def scalarFloat : Instr → Option ScalarFloat
  | .sfadd w => some ⟨0x18#8, w, w.ty, w.ty, .none, w.ty, fun rm a b _ => fpAdd w.ty w.md rm 0 a b⟩
  | .sfmul w => some ⟨0x19#8, w, w.ty, w.ty, .none, w.ty, fun rm a b _ => fpMul w.ty w.md rm 0 a b⟩
  | .sffma w => some ⟨0x1A#8, w, w.ty, w.ty, w.ty, w.ty, fun rm a b c => fpFma w.ty w.md rm 0 a b c⟩
  | .sfcvt w => some ⟨0x1B#8, w, subTy w, .none, .none, w.ty,
      fun rm a _ _ => if ¬ (subTy w).isFloat then cvtFromInt (subTy w) w.ty rm (mdSAT w.md) 0 a else if w.ty.isFloat then cvtFloat (subTy w) w.ty rm (mdSAT w.md) 0 a else cvtToInt (subTy w) w.ty rm (mdSAT w.md) 0 a⟩
  | _ => none

/-- A vector form with a register result: the types of its sources, the width of its result, the row of R145, and its function of one lane. -/
structure VectorForm where
  op : BitVec 8
  w : Fields
  ta : Ty
  tb : Ty
  tc : Ty
  wd : Nat
  k : Affine
  f : Nat → Nat → Nat → Nat

/-- The vector forms with a register result and no flags (R171 to R186, R199, R208). -/
def vectorForm : Instr → Option VectorForm
  | .vadd w => some ⟨0x40#8, w, w.ty, w.ty, w.ty, opWidth w.ty, .add, fun a b _ => intAdd w.ty w.md a b⟩
  | .vsub w => some ⟨0x41#8, w, w.ty, w.ty, w.ty, opWidth w.ty, .sub, fun a b _ => intSub w.ty w.md a b⟩
  | .vmul w => some ⟨0x42#8, w, w.ty, w.ty, w.ty, opWidth w.ty, .mul, fun a b _ => intMul w.ty w.md a b⟩
  | .vmulh w => some ⟨0x43#8, w, w.ty, w.ty, w.ty, opWidth w.ty, .none, fun a b _ => intMulh w.ty a b⟩
  | .vmad w => some ⟨0x44#8, w, w.ty, w.ty, w.ty, opWidth w.ty, .mad, fun a b c => intMad w.ty w.md a b c⟩
  | .vand w => some ⟨0x45#8, w, w.ty, w.ty, w.ty, opWidth w.ty, .none, fun a b _ => a &&& b⟩
  | .vor w => some ⟨0x46#8, w, w.ty, w.ty, w.ty, opWidth w.ty, .none, fun a b _ => a ||| b⟩
  | .vxor w => some ⟨0x47#8, w, w.ty, w.ty, w.ty, opWidth w.ty, .none, fun a b _ => a ^^^ b⟩
  | .vandn w => some ⟨0x48#8, w, w.ty, w.ty, w.ty, opWidth w.ty, .none, fun a b _ => bitAndn (opWidth w.ty) a b⟩
  | .vshl w => some ⟨0x49#8, w, w.ty, .n32, w.ty, opWidth w.ty, .shl, fun a b _ => bitShl (opWidth w.ty) a b⟩
  | .vshr w => some ⟨0x4A#8, w, w.ty, .n32, w.ty, opWidth w.ty, .none, fun a b _ => bitShr (opWidth w.ty) a b⟩
  | .vsar w => some ⟨0x4B#8, w, w.ty, .n32, w.ty, opWidth w.ty, .none, fun a b _ => bitSar (opWidth w.ty) a b⟩
  | .vrot w => some ⟨0x4C#8, w, w.ty, .n32, w.ty, opWidth w.ty, .none, fun a b _ => bitRot (opWidth w.ty) a b⟩
  | .vfunnel w => some ⟨0x4D#8, w, w.ty, w.ty, .n32, opWidth w.ty, .none, fun a b c => bitFunnel (opWidth w.ty) a b c⟩
  | .vmin w => some ⟨0x4E#8, w, w.ty, w.ty, w.ty, opWidth w.ty, .none, fun a b _ => intMin w.ty a b⟩
  | .vmax w => some ⟨0x4F#8, w, w.ty, w.ty, w.ty, opWidth w.ty, .none, fun a b _ => intMax w.ty a b⟩
  | .vabs w => some ⟨0x50#8, w, w.ty, w.ty, w.ty, opWidth w.ty, .none, fun a _ _ => intAbs w.ty w.md a⟩
  | .vsel w => some ⟨0x52#8, w, .none, w.ty, w.ty, opWidth w.ty, .none, fun a b c => if a = 1 then b else c⟩
  | .vmov w => some ⟨0x53#8, w, w.ty, w.ty, w.ty, opWidth w.ty, .mov, fun a _ _ => a⟩
  | .vli w => some ⟨0x54#8, w, w.ty, w.ty, w.ty, opWidth w.ty, .none, fun a _ _ => a⟩
  | .vclz w => some ⟨0x55#8, w, w.ty, w.ty, w.ty, opWidth w.ty, .none, fun a _ _ => bitClz (opWidth w.ty) a⟩
  | .vctz w => some ⟨0x56#8, w, w.ty, w.ty, w.ty, opWidth w.ty, .none, fun a _ _ => bitCtz (opWidth w.ty) a⟩
  | .vpopc w => some ⟨0x57#8, w, w.ty, w.ty, w.ty, opWidth w.ty, .none, fun a _ _ => bitPopc (opWidth w.ty) a⟩
  | .vbrev w => some ⟨0x58#8, w, w.ty, w.ty, w.ty, opWidth w.ty, .none, fun a _ _ => bitBrev (opWidth w.ty) a⟩
  | .vbswap w => some ⟨0x59#8, w, w.ty, w.ty, w.ty, opWidth w.ty, .none, fun a _ _ => bitBswap (opWidth w.ty) a⟩
  | .vbfx w => some ⟨0x5A#8, w, w.ty, .n32, w.ty, opWidth w.ty, .none, fun a b _ => bitBfx w.ty a b⟩
  | .vbfi w => some ⟨0x5B#8, w, w.ty, .n32, w.ty, opWidth w.ty, .none, fun a b c => bitBfi w.ty a b c⟩
  | .vbitil w => some ⟨0x5C#8, w, w.ty, w.ty, w.ty, opWidth w.ty, .none,
      fun a b c => bitInterleave (opWidth w.ty) (if w.fn = 1#4 then 3 else 2) a b c⟩
  | .vbitdl w => some ⟨0x5D#8, w, w.ty, w.ty, w.ty, opWidth w.ty, .none, fun a _ _ => bitGather (opWidth w.ty) w.fn.toNat a⟩
  | .vclmul w => some ⟨0x5E#8, w, w.ty, w.ty, w.ty, opWidth w.ty, .none, fun a b _ => bitClmul w.fn.toNat a b⟩
  | .vdot4 w => some ⟨0x60#8, w, .n32, .n32, .n32, 32, .none, fun a b c => intDot4 w.ty w.md a b c⟩
  | .vfgetexp w => some ⟨0x7D#8, w, subTy w, .none, .none, 32, .none, fun a _ _ => fpGetExp (subTy w) w.ty a⟩
  | .pmov w => if w.fn = 1#4 then some ⟨0x63#8, w, .none, .none, .none, 32, .none, fun a _ _ => a⟩ else none
  | .vfclass w => if w.fn = 1#4 then none else some ⟨0x7B#8, w, w.ty, .none, .none, 32, .none, fun a _ _ => 2 ^ fpClass w.ty a⟩
  | _ => none

/-- A vector form with a predicate result. -/
structure TestForm where
  op : BitVec 8
  w : Fields
  ta : Ty
  tb : Ty
  tc : Ty
  f : Fin 32 → Nat → Nat → Nat → Bool

/-- The vector forms with a predicate result (R174, R186, R198, R199). -/
def testForm : Instr → Option TestForm
  | .vcmp w => some ⟨0x51#8, w, w.ty, w.ty, .n32, fun _ a b _ => intTest w.ty (mdSUB w.md).toNat a b⟩
  | .vfcmp w => some ⟨0x6E#8, w, w.ty, w.ty, .none, fun _ a b _ => fpTest w.ty (mdSUB w.md).toNat a b⟩
  | .pmov w =>
    if w.fn = 1#4 then none
    else if w.fn = 2#4 then some ⟨0x63#8, w, .b32, .none, .none, fun l a _ _ => bitAt a l⟩
    else some ⟨0x63#8, w, .b32, .none, .none, fun _ a _ _ => a ≠ 0⟩
  | .vfclass w => if w.fn = 1#4 then some ⟨0x7B#8, w, w.ty, .none, .none, fun _ a _ _ => w.imm.getLsbD (fpClass w.ty a)⟩ else none
  | _ => none

/-- A vector floating form: whether its result is late, the types of its sources, the width of its result, the counter values that it takes under SR, and its function of one lane. -/
structure FloatForm where
  op : BitVec 8
  w : Fields
  late : Bool
  ta : Ty
  tb : Ty
  tc : Ty
  wd : Nat
  n : Nat
  f : Mode → (Nat → Nat) → Nat → Nat → Nat → Nat × BitVec 5

/-- The vector floating forms (R195 to R209). -/
def floatForm : Instr → Option FloatForm
  | .vfadd w => some ⟨0x68#8, w, false, w.ty, w.ty, .none, opWidth w.ty, elementCount w.ty,
      fun rm h => elements w.ty fun i a b _ => fpAdd w.ty w.md rm (h i) a b⟩
  | .vfsub w => some ⟨0x69#8, w, false, w.ty, w.ty, .none, opWidth w.ty, elementCount w.ty,
      fun rm h => elements w.ty fun i a b _ => fpSub w.ty w.md rm (h i) a b⟩
  | .vfmul w => some ⟨0x6A#8, w, false, w.ty, w.ty, .none, opWidth w.ty, elementCount w.ty,
      fun rm h => elements w.ty fun i a b _ => fpMul w.ty w.md rm (h i) a b⟩
  | .vffma w => some ⟨0x6B#8, w, false, w.ty, w.ty, w.ty, opWidth w.ty, elementCount w.ty,
      fun rm h => elements w.ty fun i a b c => fpFma w.ty w.md rm (h i) a b c⟩
  | .vfmin w => some ⟨0x6C#8, w, false, w.ty, w.ty, .none, opWidth w.ty, 0,
      fun _ _ => elements w.ty fun _ a b _ => (fpMinMax w.ty false (w.fn = 1#4) a b, flagNone)⟩
  | .vfmax w => some ⟨0x6D#8, w, false, w.ty, w.ty, .none, opWidth w.ty, 0,
      fun _ _ => elements w.ty fun _ a b _ => (fpMinMax w.ty true (w.fn = 1#4) a b, flagNone)⟩
  | .vfdiv w => some ⟨0x6F#8, w, true, w.ty, w.ty, .none, opWidth w.ty, 1,
      fun rm h a b _ => settleReal w.ty rm (h 0) 0 (divide (signIf (mdNA w.md) (readAs w.ty a)) (signIf (mdNB w.md) (readAs w.ty b)))⟩
  | .vfsqrt w => some ⟨0x70#8, w, true, w.ty, .none, .none, opWidth w.ty, 1,
      fun rm h a _ _ => settleReal w.ty rm (h 0) 0 (squareRoot (readAs w.ty a))⟩
  | .vfrcp w => some ⟨0x71#8, w, true, .f32, .none, .none, 32, 1,
      fun rm h a _ _ => settleReal .f32 rm (h 0) 0 (divide (.fin false 1 0) (readAs .f32 a))⟩
  | .vfrsq w => some ⟨0x72#8, w, true, .f32, .none, .none, 32, 1, fun rm h a _ _ => settleReal .f32 rm (h 0) 0 (inverseRoot (readAs .f32 a))⟩
  | .vfexp2 w => some ⟨0x73#8, w, true, .f32, .none, .none, 32, 1,
      fun rm h a _ _ => settleReal .f32 rm (h 0) (Config.undecided 0x73 (BitVec.ofNat 32 a)).toNat (expTwo (readAs .f32 a))⟩
  | .vflog2 w => some ⟨0x74#8, w, true, .f32, .none, .none, 32, 1,
      fun rm h a _ _ => settleReal .f32 rm (h 0) (Config.undecided 0x74 (BitVec.ofNat 32 a)).toNat (logTwo (readAs .f32 a))⟩
  | .vfsinpi w => some ⟨0x75#8, w, true, .f32, .none, .none, 32, 1,
      fun rm h a _ _ => settleReal .f32 rm (h 0) (Config.undecided 0x75 (BitVec.ofNat 32 a)).toNat (sinPi (readAs .f32 a))⟩
  | .vfcospi w => some ⟨0x76#8, w, true, .f32, .none, .none, 32, 1,
      fun rm h a _ _ => settleReal .f32 rm (h 0) (Config.undecided 0x76 (BitVec.ofNat 32 a)).toNat (cosPi (readAs .f32 a))⟩
  | .vfcvt w => some ⟨0x77#8, w, false, subTy w, .none, .none, opWidth w.ty, 1,
      fun rm h a _ _ => cvtFloat (subTy w) w.ty rm (mdSAT w.md) (h 0) (a / 2 ^ ((subTy w).width * w.fn.toNat))⟩
  | .vfcvti w => some ⟨0x78#8, w, false, subTy w, .none, .none, opWidth w.ty, 1,
      fun rm h a _ _ => let r := cvtToInt (subTy w) w.ty rm (mdSAT w.md) (h 0) a; (if w.ty.isSigned ∧ w.ty.width < 32 then sext w.ty.width 32 r.1 else r.1, r.2)⟩
  | .vicvtf w => some ⟨0x79#8, w, false, subTy w, .none, .none, opWidth w.ty, 1, fun rm h a _ _ => cvtFromInt (subTy w) w.ty rm (mdSAT w.md) (h 0) a⟩
  | .vfrnd w => some ⟨0x7A#8, w, false, w.ty, .none, .none, opWidth w.ty, elementCount w.ty,
      fun rm h => elements w.ty fun i a _ _ => fpRnd w.ty (w.fn = 1#4) rm (h i) a⟩
  | .vfscale w => some ⟨0x7C#8, w, false, w.ty, .n32, .none, opWidth w.ty, 1, fun rm h a b _ => fpScale w.ty w.md rm (h 0) a b⟩
  | .vfpack w => some ⟨0x7E#8, w, false, .f32, .f32, .b32, 32, 2, fun rm h a b c => fpPack w.ty w.fn.toNat rm (mdSAT w.md) h a b c⟩
  | .vfdot2 w => some ⟨0x7F#8, w, false, .b32, .b32, .f32, 32, 1, fun rm h a b c => fpDot2 w.ty w.md rm (h 0) a b c⟩
  | _ => none

/-- The sources of a vector form, each read with its type. -/
def VectorForm.sources (F : VectorForm) (e : Env) : Src × Src × Src := (e.src F.w.a F.ta, e.src F.w.b F.tb, e.src F.w.c F.tc)

/-- No lane that takes part reads poison in the given sources (R155). -/
def cleanLanes (e : Env) (l : List Src) : Prop := ∀ a ∈ l, a.poison &&& e.x.part = 0#32

end Sys2Proof.Machine
end

