-- ==== Sys2Proof/Certificates/Slice0/Obligations.lean ====
section
/-! DEFINITION. The statements about the machine that the provers prove, each citing the rules of spec/ that it formalises. -/

open Sys2Proof Sys2Proof.Machine

/-! ## Arithmetic: results and frames -/

/-- The 22 scalar integer and bit forms (R163, R164, R167, R171 to R179): when the unit issues one of them and no source is poisoned, the destination receives the function of the sources as they were before the issue, and nothing else of the machine changes but the program counter and what every issue may change (`regsBecome`). -/
def Obligations.ScalarFormsWriteTheirResult : Prop :=
  ∀ (i : Instr) (F : ScalarForm) (s : State) (x : Exec), scalarForm i = some F → Issues s kindPlain F.op F.w x →
    (s.scalarSrc x F.w.a F.ta).2 = false → (s.scalarSrc x F.w.b F.tb).2 = false → (s.scalarSrc x F.w.c F.tc).2 = false →
    ∃ t, exec i s = .next t ∧
      regsBecome x (fun r => r.writeTo F.w.d F.td (F.f (s.scalarSrc x F.w.a F.ta).1 (s.scalarSrc x F.w.b F.tb).1 (s.scalarSrc x F.w.c F.tc).1)) s t

/-- `sli` (R177): `IMM` goes to the low half of D, or with `FN` 1 to the high half; nothing else changes but the program counter and what every issue may change. -/
def Obligations.SliWritesOneHalf : Prop :=
  ∀ (w : Fields) (s : State) (x : Exec) (sel : Sel) (r : BitVec 6), Issues s kindPlain 0x13#8 w x → w.d = .sca sel r →
    ∃ t, exec (.sli w) s = .next t ∧
      regsBecome x (fun u => if w.fn = 1#4 then u.writeSca r 2#2 (w.imm ++ 0#32) 0#2 else u.writeSca r 1#2 (0#32 ++ w.imm) 0#2) s t

/-- The 4 scalar floating forms (R193, R194, R210): the destination receives the result under the resolved rounding mode, the flags are ORed into `%fpflags`, and nothing else changes. -/
def Obligations.ScalarFloatWritesResultAndFlags : Prop :=
  ∀ (i : Instr) (F : ScalarFloat) (s : State) (x : Exec), scalarFloat i = some F → Issues s kindPlain F.op F.w x →
    (s.scalarSrc x F.w.a F.ta).2 = false → (s.scalarSrc x F.w.b F.tb).2 = false → (s.scalarSrc x F.w.c F.tc).2 = false →
    ∃ t, exec i s = .next t ∧
      regsBecome x (fun r =>
        let v := F.f (scalarMode r.fpctl F.w.md) (s.scalarSrc x F.w.a F.ta).1 (s.scalarSrc x F.w.b F.tb).1 (s.scalarSrc x F.w.c F.tc).1
        (r.writeTo F.w.d F.td v.1).orFlags v.2) s t

/-- The vector forms of fixed latency with a register result and no flags (R165 to R167, R171 to R186, R199, R208): each lane that takes part receives the function of its sources, the register receives the tag of R145, other lanes and registers keep their values, and nothing else changes. -/
def Obligations.VectorFormsWriteTheirLanes : Prop :=
  ∀ (i : Instr) (F : VectorForm) (s : State) (x : Exec) (v : Gang), vectorForm i = some F → Issues s kindPlain F.op F.w x → x.seq = false →
    s.gang? x.t x.g = some v → cleanLanes (s.env x v) [(s.env x v).src F.w.a F.ta, (s.env x v).src F.w.b F.tb, (s.env x v).src F.w.c F.tc] →
    ∃ t, exec i s = .next t ∧
      gangBecomes x (fun u =>
        let e := s.env x u
        let a := e.src F.w.a F.ta
        let b := e.src F.w.b F.tb
        let c := e.src F.w.c F.tc
        ({ e with v := u.moved x 16 } : Env).write (regOf F.w.d) F.wd (fun l => F.f (a.val l) (b.val l) (c.val l)) (e.shape F.k a b c)) s t

/-- The vector forms with a predicate result (R174, R186, R198, R199): each lane that takes part receives its test in the predicate that D names, where P7 keeps its value; nothing else changes. -/
def Obligations.VectorTestsWritePredicates : Prop :=
  ∀ (i : Instr) (F : TestForm) (s : State) (x : Exec) (v : Gang) (p : BitVec 3), testForm i = some F → F.w.d = .pred p →
    Issues s kindPlain F.op F.w x → x.seq = false → s.gang? x.t x.g = some v →
    cleanLanes (s.env x v) [(s.env x v).src F.w.a F.ta, (s.env x v).src F.w.b F.tb, (s.env x v).src F.w.c F.tc] →
    ∃ t, exec i s = .next t ∧
      gangBecomes x (fun u =>
        let e := s.env x u
        (u.moved x 16).writePred p x.part
          (maskOf fun l => F.f l ((e.src F.w.a F.ta).val l) ((e.src F.w.b F.tb).val l) ((e.src F.w.c F.tc).val l))) s t

/-- `plog`, `vperm` and `vaddc` (R182, R184, R185): the table of `IMM` by the three predicates; the chosen bytes; the sum with the carry of C, whose carry out goes to C where C is a predicate. Nothing else changes. -/
def Obligations.PlogVpermVaddcResults : Prop :=
  ∀ (w : Fields) (s : State) (x : Exec) (v : Gang), x.seq = false → s.gang? x.t x.g = some v →
    (∀ p, w.d = .pred p → Issues s kindPlain 0x62#8 w x →
      ∃ t, exec (.plog w) s = .next t ∧
        gangBecomes x (fun u =>
          let e := s.env x u
          (u.moved x 16).writePred p x.part (maskOf fun l => w.imm.getLsbD
            (4 * ((e.predSrc w.a).getLsbD l).toNat + 2 * ((e.predSrc w.b).getLsbD l).toNat + ((e.predSrc w.c).getLsbD l).toNat))) s t) ∧
    (Issues s kindPlain 0x5F#8 w x → cleanLanes (s.env x v) [(s.env x v).src w.a .n32, (s.env x v).table w.b] →
      ∃ t, exec (.vperm w) s = .next t ∧
        gangBecomes x (fun u =>
          let e := s.env x u
          let a := e.src w.a .n32
          let b := e.table w.b
          ({ e with v := u.moved x 16 } : Env).write (regOf w.d) 32 (fun l => bytePerm (w.fn = 1#4) (a.val l) (b.val l))
            (e.shape .none a b (.uniform 0 false))) s t) ∧
    (Issues s kindPlain 0x61#8 w x → cleanLanes (s.env x v) [(s.env x v).src w.a w.ty, (s.env x v).src w.b w.ty] →
      ∃ t, exec (.vaddc w) s = .next t ∧
        gangBecomes x (fun u =>
          let e := s.env x u
          let r := fun l : Fin 32 =>
            intAddc (opWidth w.ty) w.fn.toNat ((e.src w.a w.ty).val l) ((e.src w.b w.ty).val l) ((e.predSrc w.c).getLsbD l)
          let g := ({ e with v := u.moved x 16 } : Env).write (regOf w.d) (opWidth w.ty) (fun l => (r l).1) .general
          match w.c with
          | .pred p => g.writePred p x.part (maskOf fun l => (r l).2)
          | _ => g) s t)

/-- The vector floating forms of fixed latency (R188, R191, R195 to R199, R202 to R209, R212): each lane that takes part receives its result, the flags of those lanes are ORed into `%fpflags`, and under SR their counters advance; nothing else changes. Rests on readings of the model: log 24. -/
def Obligations.FloatFormsWriteResultAndFlags : Prop :=
  ∀ (i : Instr) (F : FloatForm) (s : State) (x : Exec) (v : Gang), floatForm i = some F → F.late = false → Issues s kindPlain F.op F.w x →
    x.seq = false → s.gang? x.t x.g = some v →
    cleanLanes (s.env x v) [(s.env x v).src F.w.a F.ta, (s.env x v).src F.w.b F.tb, (s.env x v).src F.w.c F.tc] →
    ∃ t, exec i s = .next t ∧
      gangBecomes x (fun u =>
        let e := s.env x u
        let a := e.src F.w.a F.ta
        let b := e.src F.w.b F.tb
        let c := e.src F.w.c F.tc
        let r := fun l => F.f e.mode (e.hash l) (a.val l) (b.val l) (c.val l)
        let g := ({ e with v := u.moved x 16 } : Env).write (regOf F.w.d) F.wd (fun l => (r l).1) (e.shape .none a b c)
        advanceSr { g with regs := g.regs.orFlags (flagsOf x.part fun l => (r l).2) } e.mode x.part F.n) s t

/-- The vector floating forms of variable latency (R86, R87, R200, R201): the result and its flags stay outstanding under a name of their own, the destination is pending, and under SR the counters advance at issue; nothing else changes. Rests on readings of the model: log 6 and 14. -/
def Obligations.LateFloatFormsLeaveAResult : Prop :=
  ∀ (i : Instr) (F : FloatForm) (s : State) (x : Exec) (v : Gang), floatForm i = some F → F.late = true → Issues s kindVariable F.op F.w x →
    x.seq = false → s.gang? x.t x.g = some v →
    cleanLanes (s.env x v) [(s.env x v).src F.w.a F.ta, (s.env x v).src F.w.b F.tb, (s.env x v).src F.w.c F.tc] →
    ∃ t, exec i s = .next t ∧
      gangBecomes x (fun u =>
        let e := s.env x u
        let r := fun l => F.f e.mode (e.hash l) ((e.src F.w.a F.ta).val l) ((e.src F.w.b F.tb).val l) ((e.src F.w.c F.tc).val l)
        advanceSr
          ((u.moved x 16).addResult
            ⟨s.ids, vecWrites (regOf F.w.d) F.wd x.part (fun l => (r l).1) 0#32, [], [], [], flagsOf x.part fun l => (r l).2, .none⟩ .general)
          e.mode x.part F.n) s t

/-! ## Control flow -/

/-- `bra` and `brq` (R214, R215, R218, R219): each quad of the issuing sub-gang, or the sequencer, goes to the pc-relative target, modulo 2^56, where its condition selects it, and to the next word otherwise; no condition operand is true. `bra` asks that every live lane of a quad agree; where one does not, `bra` raises an illegal-state trap of cause 2 from the state before it. -/
def Obligations.BranchesMoveTheSelectedQuads : Prop :=
  (∀ (x : Exec), targetOf x = BitVec.ofInt 56 (x.pc.toNat + 16 * x.w.imm.toInt) ∧
    (x.pc.extractLsb' 0 4 = 0#4 → (targetOf x).extractLsb' 0 4 = 0#4)) ∧
  (∀ (s : State) (x : Exec), s.condition x .none = BitVec.allOnes 32) ∧
  (∀ (w : Fields) (s : State) (x : Exec), Issues s kindPlain 0xC0#8 w x → splitQuad x (s.condition x w.a) = false →
    ∃ t, exec (.bra w) s = .next t ∧
      jumps x (fun q => if (quadBits (s.condition x w.a &&& x.sub) q ≠ 0#4) ^^ (w.fn = 1#4) then targetOf x else x.pc + 16#56) s t) ∧
  (∀ (w : Fields) (s : State) (x : Exec), Issues s kindPlain 0xC0#8 w x → splitQuad x (s.condition x w.a) = true →
    exec (.bra w) s = .next (raiseTrap x (illegalState x 2#8) false s)) ∧
  (∀ (w : Fields) (s : State) (x : Exec), Issues s kindPlain 0xC1#8 w x →
    ∃ t, exec (.brq w) s = .next t ∧
      jumps x (fun q =>
        let b := quadBits (s.condition x w.a &&& x.sub) q
        let taken : Bool :=
          if w.fn = 0#4 then b ≠ 0#4 else if w.fn = 1#4 then b = quadBits x.sub q else if w.fn = 2#4 then b = 0#4 else b ≠ quadBits x.sub q
        if taken then targetOf x else x.pc + 16#56) s t)

/-- `regang`, `exit` and `nop` (R53, R56, R224 to R226): the sub-gang waits with its identifier, and all live quads rejoin once each waits; the chosen lanes leave the live mask, and a sequencer stops; nothing at all. In each case where no trap and no end of a team follows, nothing else changes. Rests on readings of the model: log 33. -/
def Obligations.RegangExitNopEffects : Prop :=
  (∀ (w : Fields) (s : State) (x : Exec) (v : Gang), Issues s kindPlain 0xC5#8 w x → x.seq = false → s.gang? x.t x.g = some v →
    ((v.moved x 16).waitAt x.quads x.pc w.imm).rejoinClash = false →
    ∃ t, exec (.regang w) s = .next t ∧ gangBecomes x (fun u => ((u.moved x 16).waitAt x.quads x.pc w.imm).rejoinIfAll) s t) ∧
  (∀ (w : Fields) (s : State) (x : Exec) (v : Gang), Issues s kindPlain 0xC6#8 w x → x.seq = false → s.gang? x.t x.g = some v →
    let u := (v.moved x 16).dropLanes (x.sub &&& s.condition x w.a)
    (u.live ≠ 0#32 ∨ v.handler.any terminal = false) → u.rejoinClash = false →
    ∃ t, exec (.exit w) s = .next t ∧ gangBecomes x (fun y => (y.moved x 16).dropLanes (x.sub &&& s.condition x w.a)) s t) ∧
  (∀ (w : Fields) (s : State) (x : Exec), Issues s kindPlain 0xC6#8 w x → x.seq = true →
    ∃ t, exec (.exit w) s = .next t ∧ seqBecomes x (fun q => { q with pc := x.pc + 16#56, emul := false, run := false }) s t) ∧
  (∀ (w : Fields) (s : State) (x : Exec), Issues s kindPlain 0xC7#8 w x → ∃ t, exec (.nop w) s = .next t ∧ regsBecome x id s t)

/-- `call`, `ret`, `btab` and `btab.call` (R220 to R223): with the stack accesses allowed, each acting quad pushes its return address and goes to its target, or pops and goes where the popped word says; a table branch goes to entries of its list. Rests on readings of the model: log 33 and 51. -/
def Obligations.CallsReturnsAndTableBranches : Prop :=
  (∀ (w : Fields) (s s1 : State) (x : Exec) (as : List (Point × Access)),
    let m := moveOn x 16 s
    let top := fun q => m.cspOf x q - 8#64
    Issues s kindStack 0xC2#8 w x → m.stackFault x accWrite = none →
    m.checkStack x accWrite ((actingQuads x).map fun q => (q, (top q).toNat)) = (s1, .ok as) →
    exec (.call w) s = .next (finish x (jump x (fun _ => targetOf x) (setCsp x top
      (as.foldl (fun s p => s.store x ⟨p.2, p.1.va.toNat, p.2.mask, p.2.lay (x.pc + 16#56).toNat⟩ false false none) s1))))) ∧
  (∀ (w : Fields) (s s1 : State) (x : Exec) (as : List (Point × Access)),
    let m := moveOn x 16 s
    let r := s1.readLanes as []
    Issues s kindStack 0xC3#8 w x → m.stackFault x accRead = none →
    m.checkStack x accRead ((actingQuads x).map fun q => (q, (m.cspOf x q).toNat)) = (s1, .ok as) →
    (∀ p ∈ as, s1.awaitsOwn x p.2 = false) → (∀ p ∈ as.zip r.2, p.2.2.2 = false) → (∀ p ∈ r.2, p.2.1 % 16 = 0) →
    exec (.ret w) s = .next (finish x (jump x (fun q => BitVec.ofNat 56 (popped (actingQuads x) r.2 q))
      (setCsp x (fun q => s1.cspOf x q + 8#64) r.1)))) ∧
  (∀ (w : Fields) (s s1 : State) (x : Exec) (v : Gang) (ws : List W128),
    let m := moveOn x (btabLength w) s
    let a := (s.env x v).src w.a .b64
    let first := fun q : Fin 8 => Fin.ofNat 32 (lowest (x.sub &&& quadLanes (1#8 <<< q.val)))
    let target := fun q : Fin 8 => BitVec.ofNat 56 (a.val (first q))
    Issues s (if w.fn = 1#4 then kindStack else kindPlain) 0xC4#8 w x → x.seq = false → s.gang? x.t x.g = some v → a.poison &&& x.sub = 0#32 →
    (∀ l : Fin 32, x.sub.getLsbD l = true → a.val l = a.val (first (Fin.ofNat 8 (l.val / 4)))) →
    m.listWords x ((btabCount w + 1) / 2) 0 [] = (s1, .ok ws) →
    (∀ q ∈ actingQuads x, (listEntries (btabCount w) ws).contains (target q) = true ∧ (target q).extractLsb' 0 4 = 0#4) →
    (w.fn ≠ 1#4 → exec (.btab w) s = .next (finish x (jump x target s1))) ∧
    (w.fn = 1#4 → ∀ s2, pushJump x (x.pc + BitVec.ofNat 56 (btabLength w)) target s1 = .ok s2 → exec (.btab w) s = .next (finish x s2)))

/-! ## Traps and special registers -/

/-- `trap` and `brk` of a gang with a handler that is free (R227, R228, R434): once the gang's earlier results have returned, the trap registers receive the code, the 16 bits of `IMM` and the program counter of the instruction, the issuing quads go to the vector as one sub-gang that is trapped, the issue takes its place in the order of issues and is counted (R49, R54, R431), and nothing else changes; with results outstanding the trap is held. Rests on readings of the model: log 6. -/
def Obligations.SoftwareTrapsEnterTheHandler : Prop :=
  ∀ (i : Instr) (w : Fields) (s : State) (x : Exec) (tm : Team) (v : Gang) (op code : BitVec 8),
    (i = .trap w ∧ op = 0xC8#8 ∧ code = 1#8) ∨ (i = .brk w ∧ op = 0xFF#8 ∧ code = 2#8 ∧ s.debugged x.t v = false) →
    Issues s kindPlain op w x → x.seq = false → s.team? x.t = some tm → s.gang? x.t x.g = some v →
    v.handler = none → tm.trapvec ≠ 0#64 → v.emul &&& x.quads = 0#8 →
    let detail : W64 := 0#48 ++ w.imm.extractLsb' 0 16
    (v.regs.pending = [] →
      exec i s = .next ((countPerf x.core 0x02 1 s.bump).setGang x.t x.g
        ((v.counted x s.tick s.ids).settle.enter code detail x.quads x.pc (tm.trapvec.extractLsb' 0 56)))) ∧
    (v.regs.pending ≠ [] →
      exec i s = .next ((countPerf x.core 0x02 1 s.bump).setGang x.t x.g { v.counted x s.tick s.ids with heldTrap := some ⟨.coded code detail, x.quads, x.pc, op = 0xFF#8⟩ }))

/-- `trap` and `brk` where no handler takes them (R437, R438, R445, R454): a gang without a trap vector, or already in its handler, or at a displaced word, and a sequencer likewise, only go on to the next word; a `brk` that the debugger takes stops the gang with its trap registers written. Rests on readings of the model: log 41 and 50. -/
def Obligations.SoftwareTrapsWithoutAHandler : Prop :=
  ∀ (i : Instr) (w : Fields) (s : State) (x : Exec) (op code : BitVec 8),
    (i = .trap w ∧ op = 0xC8#8 ∧ code = 1#8) ∨ (i = .brk w ∧ op = 0xFF#8 ∧ code = 2#8) →
    Issues s kindPlain op w x →
    (s.trapIgnored x (op = 0xFF#8) = true → ∃ t, exec i s = .next t ∧ regsBecome x id s t) ∧
    (∀ (n : Nat), x.u = .seq n → s.trapIgnored x (op = 0xFF#8) = false →
      exec i s = .next (s.setSeq { s.seq n with
        regs := { (s.seq n).regs with trapcause := code.zeroExtend 32, trapdetail := 0#48 ++ w.imm.extractLsb' 0 16, trappc := x.pc.zeroExtend 64 }
        pc := (s.seq n).trapvec.extractLsb' 0 56, handler := some code, heldTrap := none })) ∧
    (∀ (tm : Team) (v : Gang), i = .brk w → x.seq = false → s.team? x.t = some tm → s.gang? x.t x.g = some v → v.regs.pending = [] →
      s.debugged x.t v = true →
      exec i s = .next ((countPerf x.core 0x02 1 s.bump).setGang x.t x.g
        { (v.counted x s.tick s.ids).settle.enter code (0#48 ++ w.imm.extractLsb' 0 16) x.quads x.pc (tm.trapvec.extractLsb' 0 56) with status := .debug }))

/-- `trapret` (R229, R436): in the handler of a trap that is not terminal, the trapped quads go to the trapping word, with `FN` 1 to the word after it, with `FN` 2 to the displaced word in its place, and the handler is left; nothing else changes. A `%trappc` that is no multiple of 16 is a misaligned fault (R67), a displaced `trapret` or `brk` an illegal-state trap of cause 7, and outside a handler the trap has cause 5. Rests on readings of the model: log 41. -/
def Obligations.TrapretReturns : Prop :=
  (∀ (w : Fields) (s : State) (x : Exec) (v : Gang) (code : BitVec 8), Issues s kindPlain 0xC9#8 w x → x.seq = false →
    s.gang? x.t x.g = some v → v.handler = some code → terminal code = false →
    let tp := v.regs.trappc.extractLsb' 0 56
    (tp.extractLsb' 0 4 ≠ 0#4 → exec (.trapret w) s = .next (raiseTrap x (misalignedPc tp) false s)) ∧
    (tp.extractLsb' 0 4 = 0#4 → w.fn = 2#4 → displacedBad v.displaced = true →
      exec (.trapret w) s = .next (raiseTrap x (illegalState x 7#8) false s)) ∧
    (tp.extractLsb' 0 4 = 0#4 → (w.fn = 2#4 → displacedBad v.displaced = false) → ∃ t, exec (.trapret w) s = .next t ∧
      gangBecomes x (fun u => (u.moved x 16).leave (if w.fn = 1#4 then tp + 16#56 else tp) (w.fn = 2#4)) s t)) ∧
  (∀ (w : Fields) (s : State) (x : Exec) (code : BitVec 8), Issues s kindPlain 0xC9#8 w x → x.seq = true →
    (s.seq x.cluster).handler = some code → terminal code = false → (w.fn = 2#4 → displacedBad (s.seq x.cluster).displaced = false) →
    let tp := (s.seq x.cluster).regs.trappc.extractLsb' 0 56
    tp.extractLsb' 0 4 = 0#4 →
    ∃ t, exec (.trapret w) s = .next t ∧
      seqBecomes x (fun q => { q with handler := none, emul := w.fn = 2#4, pc := if w.fn = 1#4 then tp + 16#56 else tp }) s t) ∧
  (∀ (w : Fields) (s : State) (x : Exec), Issues s kindPlain 0xC9#8 w x → x.priv = false →
    exec (.trapret w) s = .next (raiseTrap x (illegalState x 5#8) false s))

/-- `mfsr` (R230, R231): D receives the special register that `IMM` names, of 64 or 32 bits; nothing else changes. -/
def Obligations.MfsrReadsSpecialRegisters : Prop :=
  ∀ (w : Fields) (s : State) (x : Exec), Issues s kindPlain 0xCA#8 w x →
    let i := (w.imm.extractLsb' 0 8).toNat
    ∃ t, exec (.mfsr w) s = .next t ∧ regsBecome x (fun r => r.writeTo w.d (specialTy i) (s.readSpecial x i).toNat) s t

/-- `mtsr` (R156, R158, R159, R230, R231): the register that `IMM` names receives A: the flags, the rounding mode where it is one of 0 to 5, the seed of the team, the counters of the issuing lanes, the trap vector with its low four bits cleared, or the call stack pointer of the issuing quads; a read-only register keeps its value; the seed, the counters and the call stack pointers are those of a gang's team and lanes, or a sequencer's own call stack pointer. With a clean source it completes for every index, but that only a privileged handler may write the trap vector. Rests on readings of the model: log 50. -/
def Obligations.MtsrWritesSpecialRegisters : Prop :=
  ∀ (w : Fields) (s : State) (x : Exec), Issues s kindPlain 0xCB#8 w x →
    let i := (w.imm.extractLsb' 0 8).toNat
    let a := s.scalarSrc x w.a (specialTy i)
    let v := BitVec.ofNat 64 a.1
    (i = 0x17 → x.priv = false → exec (.mtsr w) s = .next (raiseTrap x (protectionOnce 0#56) false s)) ∧
    ((i = 0x17 → x.priv = true) → a.2 = false → exec (.mtsr w) s = .next (finish x ((moveOn x 16 s).writeSpecial x i v))) ∧
    ((i ≠ 0x17 ∨ x.priv = true) → a.2 = false → ∃ t, exec (.mtsr w) s = .next t ∧
      (i = 0x13 → x.seq = false → t = finish x ((moveOn x 16 s).modTeam x.t fun tm => { tm with srseed := v })) ∧
      (i = 0x14 → x.seq = false → gangBecomes x (fun u =>
        { u.moved x 16 with srctr := Vector.ofFn fun l => if x.sub.getLsbD l then v.extractLsb' 0 32 else u.srctr[l] }) s t) ∧
      (i = 0x17 → x.seq = false → t = finish x ((moveOn x 16 s).modTeam x.t fun tm => { tm with trapvec := v &&& ~~~15#64 })) ∧
      (i = 0x17 → x.seq = true → seqBecomes x (fun q => { q with pc := x.pc + 16#56, emul := false, trapvec := v &&& ~~~15#64 }) s t) ∧
      (i = 0x20 → x.seq = false → gangBecomes x (fun u =>
        let z := u.moved x 16
        { z with quads := mapQuads z.quads fun q y => if x.quads.getLsbD q then { y with csp := v } else y }) s t) ∧
      (i = 0x20 → x.seq = true → seqBecomes x (fun q => { q with pc := x.pc + 16#56, emul := false, csp := v }) s t) ∧
      (i = 0x13 ∨ i = 0x14 → x.seq = true → regsBecome x id s t)) ∧
    (a.2 = false → i = 0x11 → ∃ t, exec (.mtsr w) s = .next t ∧ regsBecome x (fun r => { r with fpflags := v.extractLsb' 0 5 }) s t) ∧
    (a.2 = false → i = 0x12 → ∃ t, exec (.mtsr w) s = .next t ∧
      regsBecome x (fun r => if (v.extractLsb' 0 3).toNat ≤ 5 then { r with fpctl := v.extractLsb' 0 3 } else r) s t) ∧
    (a.2 = false → i ∉ [0x11, 0x12, 0x13, 0x14, 0x17, 0x20] → ∃ t, exec (.mtsr w) s = .next t ∧ regsBecome x id s t)

/-- `icinv` and `icinv.dev` (R232): the words that the core's instruction cache holds are discarded and its fetches acquire at device scope; with `FN` 1, which only a privileged handler may issue, an invalidation of every core of the dies that are not fenced begins and the unit is blocked until it is done. Rests on readings of the model: log 52. -/
def Obligations.IcinvInvalidates : Prop :=
  (∀ (w : Fields) (s : State) (x : Exec), w.fn ≠ 1#4 → Issues s kindPlain 0xCC#8 w x →
    exec (.icinv w) s = .next (finish x ((moveOn x 16 s).icacheReach x.core))) ∧
  (∀ (w : Fields) (s : State) (x : Exec), w.fn = 1#4 → Issues s ⟨true, false, false, false, false⟩ 0xCC#8 w x →
    let m := moveOn x 16 s
    exec (.icinv w) s = .next (finish x (blockUnit x (.icinv s.ids)
      { m.bump with invals := s.invals ++ [⟨s.ids, some x.u, (List.range 2592).filter fun c => !(s.die (dieOf c)).fenced⟩] }))) ∧
  (∀ (w : Fields) (s : State) (x : Exec), w.fn = 1#4 → s.cur = some x.u → execOf s x.u 0xCC#8 w = some x → x.priv = false →
    exec (.icinv w) s = .next (raiseTrap x (protectionOnce 0#56) false s))

/-! ## Register allocation, shapes and gang instructions -/

/-- `rgrow.wait`, `rgrow.try` and `rshrink` (R147, R149 to R151): a request past 256 registers, or a release below 8, raises an illegal-register trap that names the count; otherwise `.wait` blocks the gang and lets the arbiter of the core serve its waiters in order, `.try` grants the slots at once where enough are free and nobody waits and says so in its condition, and `rshrink` gives the highest registers back. -/
def Obligations.RegisterAllocationGrowsAndShrinks : Prop :=
  ∀ (w : Fields) (s : State) (x : Exec),
    let m := moveOn x 16 s
    let a := s.allocOf x.u
    let n := w.imm.toNat
    (Issues s kindPlain 0xCD#8 w x → a + n ≤ 256 →
      exec (.rgrowWait w) s = .next (finish x ((blockUnit x (.rgrow n) m).arbitrateSlots x.core)) ∧
      (let ok : Bool := m.freeSlots x.core ≥ n ∧ m.regWaiters x.core = []
       exec (.rgrowTry w) s = .next (finish x (writeK x ok (if ok then m.modGang x.t x.g fun v => v.grow n m.tick else m))))) ∧
    (Issues s kindPlain 0xCD#8 w x → 256 < a + n →
      exec (.rgrowWait w) s = .next (raiseTrap x (.coded 0x22#8 (detailOp 0xCD#8 (BitVec.ofNat 24 (a + n)))) false s) ∧
      exec (.rgrowTry w) s = .next (raiseTrap x (.coded 0x22#8 (detailOp 0xCD#8 (BitVec.ofNat 24 (a + n)))) false s)) ∧
    (Issues s kindPlain 0xCE#8 w x → n + 8 ≤ a →
      exec (.rshrink w) s = .next (finish x (((m.modGang x.t x.g fun v => v.shrink n).modCore x.core fun c =>
        c.dropHold x.t x.g (a - n)).arbitrateSlots x.core))) ∧
    (Issues s kindPlain 0xCE#8 w x → a < n + 8 →
      exec (.rshrink w) s = .next (raiseTrap x (.coded 0x22#8 (detailOp 0xCE#8 (BitVec.ofNat 24 (a + n)))) false s))

/-- `rshape.get` and `rshape.set` (R144, R153): the code of the register's tag goes to D; the tag that `FN` asks for is set where no lane is pending or poisoned, every lane of the gang is live and the lane values fit it, and D says whether it was. Lane values do not change, no poison is consumed, and a gated register raises its trap. -/
def Obligations.ShapesAreReadAndSet : Prop :=
  ∀ (w : Fields) (s : State) (x : Exec) (v : Gang), x.seq = false → s.gang? x.t x.g = some v →
    (∀ r, s.cur = some x.u → execOf s x.u 0xCF#8 w = some x → gatedReg 0xCF#8 w (s.allocOf x.u) = some r →
      exec (.rshapeGet w) s = .next (raiseTrap x (.coded 0x22#8 (detailOp 0xCF#8 (BitVec.ofNat 24 r))) false s) ∧
      exec (.rshapeSet w) s = .next (raiseTrap x (.coded 0x22#8 (detailOp 0xCF#8 (BitVec.ofNat 24 r))) false s)) ∧
    (Issues s kindPlain 0xCF#8 w x →
      (∃ t, exec (.rshapeGet w) s = .next t ∧
        regsBecome x (fun r => r.writeTo w.d .b32 (v.vreg (regOf w.a).toNat).shape.code) s t) ∧
      (∀ k, w.d = .cond k →
        let r := (regOf w.a).toNat
        let a := v.vreg r
        let x0 := a.lanes[0]
        let fits : Bool :=
          if w.fn = 1#4 then (List.finRange 32).all fun l => a.lanes[l] = x0
          else if w.fn = 2#4 then (List.finRange 32).all fun l => a.lanes[l] = x0 + (a.lanes[1] - x0) * BitVec.ofNat 32 l.val
          else true
        let ok : Bool := a.pend = 0#32 ∧ a.poison = 0#32 ∧ v.live = BitVec.allOnes 32 ∧ fits
        ∃ t, exec (.rshapeSet w) s = .next t ∧
          gangBecomes x (fun u =>
            let z := u.moved x 16
            let z := if ok then { z with vregs := setNth { a with tag := if w.fn = 1#4 then .uniform else if w.fn = 2#4 then .affine else .general } z.vregs r } else z
            { z with regs := z.regs.writeCond k ok }) s t))

/-- `gvote`, `gshfl`, `gscan`, `greduce` and `gbcast` (R233 to R239, R139): in a converged gang, with no poison that is read (of a scalar half, whatever the lanes), each leaves one outstanding result for the lanes that take part, a NaN of a scan as the canonical one (R120); the frame is that nothing else changes. Rests on readings of the model: log 6. -/
def Obligations.GangInstructionsLeaveAResult : Prop :=
  ∀ (w : Fields) (s : State) (x : Exec) (v : Gang), x.seq = false → s.gang? x.t x.g = some v →
    let e := s.env x v
    let a := e.src w.a w.ty
    let b := e.src w.b .n32
    let code := (mdSUB w.md).toNat
    let node := gangNode w.ty code (scalarMode v.regs.fpctl w.md)
    let leaves := e.leaves a
    let id := (gangIdentity w.ty code, (0#5 : BitVec 5))
    (Issues s kindGang 0xD0#8 w x →
      let m := e.predSrc w.a &&& e.takers
      let r := if w.fn = 0#4 then (m != 0#32).toNat else if w.fn = 1#4 then (m == e.takers).toNat else m.toNat
      ∃ t, exec (.gvote w) s = .next t ∧ gangBecomes x (fun u => (u.moved x 16).addResult (e.gangResult (fun _ => r) 0#5) .general) s t) ∧
    (Issues s kindGang 0xD1#8 w x →
      let at_ := fun l : Fin 32 => (shuffleLane w.fn.toNat l.val (b.val l)).getD l
      a.poison = 0#32 → b.poison = 0#32 →
      ∃ t, exec (.gshfl w) s = .next t ∧
        gangBecomes x (fun u => (u.moved x 16).addResult
          (e.gangResult (fun l => if v.live.getLsbD (at_ l) then a.val (at_ l) else 0) 0#5) .general) s t) ∧
    (Issues s kindGang 0xD2#8 w x → gangTaint w.a a e.takers = 0#32 →
      let at_ := fun l : Fin 32 =>
        if w.fn = 1#4 then (if l.val = 0 then id else scanAt node id leaves (l.val - 1)) else scanAt node id leaves l.val
      ∃ t, exec (.gscan w) s = .next t ∧
        gangBecomes x (fun u => (u.moved x 16).addResult
          (e.gangResult (fun l => canonicalNan w.ty (at_ l).1) (flagsOf e.takers fun l => (at_ l).2)) .general) s t) ∧
    (Issues s kindGang 0xD3#8 w x → gangTaint w.a a e.takers = 0#32 →
      let root := (pairTree node 5 leaves).headD id
      ∃ t, exec (.greduce w) s = .next t ∧
        gangBecomes x (fun u => (u.moved x 16).addResult (e.gangResult (fun _ => root.1) root.2) .general) s t) ∧
    (Issues s kindGang 0xD4#8 w x → a.poison = 0#32 → b.poison = 0#32 →
      let q := Fin.ofNat 32 (b.val 0)
      ∃ t, exec (.gbcast w) s = .next t ∧
        gangBecomes x (fun u => (u.moved x 16).addResult
          (e.gangResult (fun _ => if v.live.getLsbD q then a.val q else 0) 0#5)
          (if e.takers = BitVec.allOnes 32 then .uniform else .general)) s t)

/-- `bar` (R289, R425): once the release at team scope is done, the arrival is counted in the barrier, whose first arrival of a phase fixes the count; a waiting form blocks the gang; and when the arrivals reach the count the phase flips, the barrier starts again and the gangs that wait at it are woken. -/
def Obligations.BarCountsArrivals : Prop :=
  ∀ (w : Fields) (s : State) (x : Exec), Issues s { kindPlain with conv := true } 0xD5#8 w x →
    let b := (w.imm.extractLsb' 0 4).toNat
    ∀ s1, releaseAt x 0#3 (moveOn x 16 s) = .ok s1 →
    let m := s1.modTeam x.t fun tm =>
      { tm with barriers := vset tm.barriers b ((vget tm.barriers b ⟨0, 0, false, false⟩).arrive (w.imm.extractLsb' 8 6).toNat tm.gangsLeft) }
    exec (.bar w) s = .next (finish x ((if w.fn = 1#4 then m else blockUnit x (.bar b) m).serveBarrier x.t b))


/-! ## Memory -/

/-- `ld` and `ldg` (R268, R299, R302, R306): once every address has passed the checks, no remote write or atomic of the unit's own is outstanding on the bytes and the release part of the ordering is done, the lanes that take part are read in ascending order and leave one outstanding result; an address that fails a check raises its trap from the state before the issue, and no lane is read. Rests on readings of the model: log 4 and 6. -/
def Obligations.GlobalLoadsLeaveAResult : Prop :=
  ∀ (i : Instr) (w : Fields) (op : BitVec 8) (s : State) (x : Exec) (v : Gang),
    (i = .ld w ∧ op = 0x80#8) ∨ (i = .ldg w ∧ op = 0x8E#8) →
    Issues s (kindMem false true) op w x → x.seq = false → s.gang? x.t x.g = some v →
    let m := moveOn x 16 s
    let e := m.env x (v.moved x 16)
    let size := mdBytes w.md
    let f := effectsOf true w.md
    (∀ s1 s2 as, e.accesses m accRead size size [] = (s1, .ok as) → (∀ p ∈ as, s1.awaitsOwn x p.2 = false) → f.before x s1 = .ok s2 →
      let r := (if w.fn = 1#4 then s2.promoteAll x else s2).readLanes as []
      exec i s = .next (finish x (f.after x (r.1.deliver x
        ⟨e.id, loadWrites (regOf w.d) size w.ty x.part (laneValue r.2) (lanePoison r.2), [], [], [], 0#5, .none⟩)))) ∧
    (∀ s1 t, e.accesses m accRead size size [] = (s1, .error t) → exec i s = .next (raiseTrap x t false s))

/-- `st` and `stg` (R12, R268, R302, R303, R307): once every address and the data have passed the checks and the release part of the ordering is done, one request for each sector stores the bytes of its lanes, a later lane prevailing; a failing check raises its trap from the state before the issue, and nothing is stored. Rests on readings of the model: log 4. -/
def Obligations.GlobalStoresStoreTheirRequests : Prop :=
  ∀ (i : Instr) (w : Fields) (op : BitVec 8) (s : State) (x : Exec) (v : Gang),
    (i = .st w ∧ op = 0x81#8) ∨ (i = .stg w ∧ op = 0x8F#8) →
    Issues s (kindMem false false) op w x → x.seq = false → s.gang? x.t x.g = some v →
    let m := moveOn x 16 s
    let e := m.env x (v.moved x 16)
    let size := mdBytes w.md
    let d := e.data w.c size
    let f := effectsOf false w.md
    (∀ s1 s2 as, e.accesses m accWrite size size [(w.c, d.poison)] = (s1, .ok as) → f.before x s1 = .ok s2 →
      let rs := as.foldl (fun rs p => addLane rs p.2 p.1.va.toNat (d.val (Fin.ofNat 32 p.1.lane))) []
      exec i s = .next (finish x (holdRemote x f.holds (f.settle x (as.map (·.2)) (storeAll x f rs s2))))) ∧
    (∀ s1 t, e.accesses m accWrite size size [(w.c, d.poison)] = (s1, .error t) → exec i s = .next (raiseTrap x t false s))

/-- `sld` and `sst` of a gang or of a sequencer (R299, R306, R307): with clean sources and an address that passes the checks, one access is read into the scalar result, or stored; a failing check raises its trap from the state before the issue. Rests on readings of the model: log 4. -/
def Obligations.ScalarLoadsAndStores : Prop :=
  (∀ (w : Fields) (s : State) (x : Exec), Issues s (kindMem true true) 0x84#8 w x →
    let m := moveOn x 16 s
    let r := s.regsOf x.u
    let size := mdBytes w.md
    let f := effectsOf true w.md
    (r.taint w.a = false → ∀ s1 s2 as, m.checkGlobal x accRead size size [scalarPoint x r] = (s1, .ok as) →
      let bs := as.map fun p => (p.1, p.2.withMd w.md)
      (∀ p ∈ bs, s1.awaitsOwn x p.2 = false) → f.before x s1 = .ok s2 →
      let q := (if w.fn = 1#4 then s2.promoteAll x else s2).readLanes bs []
      ∀ sel n, w.d = .sca sel n →
        let h := scalarResult w.ty sel (laneValue q.2 laneNone)
        exec (.sld w) s = .next (finish x (f.after x (q.1.deliver x
          ⟨m.ids, [], [⟨n, h.1, h.2, if q.2.any (·.2.2) then 3#2 else 0#2⟩], [], [], 0#5, .none⟩)))) ∧
    (r.taint w.a = false → ∀ s1 t, m.checkGlobal x accRead size size [scalarPoint x r] = (s1, .error t) →
      exec (.sld w) s = .next (raiseTrap x t false s))) ∧
  (∀ (w : Fields) (s : State) (x : Exec), Issues s (kindMem true false) 0x85#8 w x →
    let m := moveOn x 16 s
    let r := s.regsOf x.u
    let size := mdBytes w.md
    let f := effectsOf false w.md
    (r.taint w.a = false → r.taint w.c = false →
      ∀ s1 s2 as, m.checkGlobal x accWrite size size [scalarPoint x r] = (s1, .ok as) → f.before x s1 = .ok s2 →
      let rs := as.foldl (fun rs p => addLane rs (p.2.withMd w.md) p.1.va.toNat ((r.bits w.c).toNat % 2 ^ (8 * size))) []
      exec (.sst w) s = .next (finish x (holdRemote x f.holds (f.settle x (as.map (·.2)) (storeAll x f rs s2))))) ∧
    (r.taint w.a = false → r.taint w.c = false → ∀ s1 t, m.checkGlobal x accWrite size size [scalarPoint x r] = (s1, .error t) →
      exec (.sst w) s = .next (raiseTrap x t false s)))

/-- `ldsp` and `stsp` (R251 to R253, R306, R307) that neither release nor acquire: with clean sources and offsets inside the window, the stash sectors that the access needs are filled, and the lanes' bytes of the window are read or written; an offset that fails a check raises its trap from the state before the issue. Rests on readings of the model: log 4 and 26. -/
def Obligations.WindowLoadsAndStores : Prop :=
  (∀ (w : Fields) (s : State) (x : Exec) (v : Gang), Issues s (kindMem false true) 0x82#8 w x → x.seq = false → s.gang? x.t x.g = some v →
    (effectsOf true w.md).rel = false → (effectsOf true w.md).acq = false →
    let m := moveOn x 16 s
    let e := m.env x (v.moved x 16)
    let size := mdBytes w.md
    (consumeLanes x.part e.windowSources = none →
      (∀ s1 s2 os fs os' fs' tm, m.checkWindow x false size (m.windowTeam e) e.offsets = (s1, .ok (os', fs')) →
        s1.checkWindow x false size (s1.windowTeam e) e.offsets = (s2, .ok (os, fs)) → s1.windowTeam e = some tm →
        let z := s2.fillAll (s2.stampOf x) tm.tid os fs
        ∀ tm', z.team? tm.tid = some tm' →
          let rs := os.map fun p => (p.1, memNat tm'.window p.2 size, tm'.winPoison.contains (p.2 / 128))
          exec (.ldsp w) s = .next (finish x (z.deliver x
            ⟨e.id, loadWrites (regOf w.d) size w.ty x.part (laneValue rs) (lanePoison rs), [], [], [], 0#5, .none⟩))) ∧
      (∀ s1 t, m.checkWindow x false size (m.windowTeam e) e.offsets = (s1, .error t) →
        exec (.ldsp w) s = .next (raiseTrap x t false s)))) ∧
  (∀ (w : Fields) (s : State) (x : Exec) (v : Gang), Issues s (kindMem false false) 0x83#8 w x → x.seq = false → s.gang? x.t x.g = some v →
    (effectsOf false w.md).rel = false → (effectsOf false w.md).acq = false →
    let m := moveOn x 16 s
    let e := m.env x (v.moved x 16)
    let size := mdBytes w.md
    let d := e.data w.c size
    (consumeLanes x.part (e.windowSources ++ [(w.c, d.poison)]) = none →
      (∀ s1 s2 os fs os' fs' tm, m.checkWindow x true size (m.windowTeam e) e.offsets = (s1, .ok (os', fs')) →
        s1.checkWindow x true size (s1.windowTeam e) e.offsets = (s2, .ok (os, fs)) → s1.windowTeam e = some tm →
        let bytes := fun k => os.foldl (fun (u : BitVec 1024) p =>
          if p.2 / 128 = k then
            mergeSector u (BitVec.ofNat 1024 (d.val (Fin.ofNat 32 p.1) * 2 ^ (8 * (p.2 % 128)))) (byteRun (p.2 % 128) size)
          else u) 0#1024
        exec (.stsp w) s = .next (finish x ((windowMasks size os).foldl
          (fun z q => z.modTeam tm.tid fun y => y.storeWindow q.1 q.2 (bytes q.1) false) (s2.fillAll (s2.stampOf x) tm.tid os fs)))) ∧
      (∀ s1 t, m.checkWindow x true size (m.windowTeam e) e.offsets = (s1, .error t) →
        exec (.stsp w) s = .next (raiseTrap x t false s))))

/-- `xlate`, `stmap` and `stflush` (R301, R316, R317): the translation goes outstanding to its register; a slot of the stash is written back and unmapped, and mapped to its new range where the count is not 0; the dirty sectors of the chosen slots are written back. A failing check raises its trap from the state before the issue. Rests on readings of the model: log 26, 27 and 51. -/
def Obligations.XlateStmapStflush : Prop :=
  (∀ (w : Fields) (s : State) (x : Exec) (n : BitVec 3), Issues s (kindMem true true) 0x86#8 w x → (s.regsOf x.u).taint w.a = false →
    w.d = .trans n →
    let m := moveOn x 16 s
    let va := (scalarPoint x (s.regsOf x.u)).va.toNat
    (va < 2 ^ 56 → ∀ s1 l, m.look x va = (s1, .leaf l) → s1.lit l.cc = true →
      let t : Trans :=
        { lim := BitVec.ofNat 32 (min (l.base + 2 ^ l.bits - va) 0xFFFFFFFF), cp := l.cp, cc := l.cc, vis := l.vis
          xwr := l.xwr, v := true, pa := BitVec.ofNat 52 (l.pa va), va := BitVec.ofNat 56 va }
      exec (.xlate w) s = .next (finish x (s1.deliver x ⟨s1.ids, [], [], [], [(n, t)], 0#5, .none⟩))) ∧
    (va < 2 ^ 56 → ∀ s1, m.look x va = (s1, .absent) →
      exec (.xlate w) s = .next (raiseTrap x (.page (BitVec.ofNat 56 va) 1#3) false s)) ∧
    (2 ^ 56 ≤ va → exec (.xlate w) s = .next (raiseTrap x (protectionAt laneNone accRead va) false s))) ∧
  (∀ (w : Fields) (s : State) (x : Exec) (tm : Team), Issues s (kindMem true false) 0x87#8 w x → s.team? x.t = some tm → x.seq = false →
    let m := moveOn x 16 s
    let r := s.regsOf x.u
    let o := (r.bits w.a).toNat
    let va := (r.bits w.b).toNat
    let n := (r.bits w.c).toNat
    let old := vget tm.stash w.fn.toNat none
    r.taint w.a = false → r.taint w.b = false → r.taint w.c = false → o % 128 = 0 → va % 128 = 0 → n % 128 = 0 →
    (n > 0 → o + n ≤ tm.winSize ∧ va + n ≤ 2 ^ 56 ∧
      ∀ j < 4, j ≠ w.fn.toNat → ∀ p, vget tm.stash j none = some p → overlap o n p.w p.n = false) →
    ∀ s1 s2, m.probePages x (if n > 0 then pagesOf va n else []) none = (s1, none) →
      (n ≠ 0 → s1.lockedWindow x.core x.t o n true = false) → (∀ p, old = some p → s1.lockedWindow x.core x.t p.w p.n true = false) →
      s1.stashBackAll x true 0#3 x.t (tm.dirtySectors fun p => some p = old) = .ok s2 →
      exec (.stmap w) s = .next (finish x (s2.modTeam x.t fun y =>
        if n > 0 then (y.unmap w.fn.toNat).mapSlot w.fn.toNat ⟨o, BitVec.ofNat 64 va, n⟩ else y.unmap w.fn.toNat))) ∧
  (∀ (w : Fields) (s : State) (x : Exec) (tm : Team), Issues s (kindMem true false) 0x88#8 w x → s.team? x.t = some tm → x.seq = false →
    let m := moveOn x 16 s
    let ks := tm.dirtySectors fun p => w.fn = 4#4 || vget tm.stash w.fn.toNat none == some p
    (∀ s1 s2, m.stashBackAll x true (mdScope w.md) x.t ks = .ok s1 →
      (if mdOrder w.md = 2#2 then releaseAt x (mdScope w.md) s1 else .ok s1) = .ok s2 → exec (.stflush w) s = .next (finish x s2)) ∧
    (∀ t, m.stashBackAll x true (mdScope w.md) x.t ks = .error t → exec (.stflush w) s = .next (raiseTrap x t false s)))

/-- `atom` and `red` (R268, R303, R309 to R312): once every address and the operands have passed the checks and the release part of the ordering is done, the lanes' operations are performed in ascending order, each on what the one before left; `atom` with a destination leaves one outstanding result that holds the old values, and nothing else of the unit changes. Rests on readings of the model: log 4 and 27. -/
def Obligations.AtomicsActLaneByLane : Prop :=
  ∀ (i : Instr) (w : Fields) (op : BitVec 8) (dest : Bool) (s : State) (x : Exec) (v : Gang),
    (i = .atom w ∧ op = 0x89#8 ∧ dest = (w.d != .none)) ∨ (i = .red w ∧ op = 0x8A#8 ∧ dest = false) →
    Issues s (kindMem false dest) op w x → x.seq = false → s.gang? x.t x.g = some v →
    let m := moveOn x 16 s
    let e := m.env x (v.moved x 16)
    let size := if w.ty = .rx256 then 32 else mdBytes w.md
    let f : Effects := ⟨mdOrder w.md = 3#2, mdOrder w.md = 3#2, mdScope w.md⟩
    (∀ s1 s2 as, e.accesses m accBoth size size [(w.c, e.atomicPoison)] = (s1, .ok as) → f.before x s1 = .ok s2 →
      let r := s2.atomicLanes e dest f as [] 0#5
      (dest = false → exec i s = .next (finish x (holdRemote x f.holds (f.settle x (as.map (·.2)) r.1)))) ∧
      (dest = true →
        let vec := vecWrites (regOf w.d) (opWidth w.ty) x.part (fun l => laneValue r.2.1 l) (lanePoison r.2.1)
        exec i s = .next (finish x (holdRemote x f.holds (f.settle x (as.map (·.2)) (r.1.deliver x
          ⟨e.id, vec, [], [], [], r.2.2, if as.any fun p => p.2.peer.isSome then .remote else .none⟩)))))) ∧
    (∀ s1 t, e.accesses m accBoth size size [(w.c, e.atomicPoison)] = (s1, .error t) → exec i s = .next (raiseTrap x t false s))

/-- `fence`, `fpromote` and `prefetch` (R272, R282, R314, R315, R318): a release and then an acquire, with `FN` 1 after a promotion of every die; a promotion that is outstanding at the chosen dies that hold a team, and at none where none does; each address that takes part is brought nearer, and nothing traps. Rests on readings of the model: log 5 and 6. -/
def Obligations.FencePromotePrefetch : Prop :=
  (∀ (w : Fields) (s s1 : State) (x : Exec), Issues s (kindMem true false) 0x8B#8 w x →
    let m := moveOn x 16 s
    releaseAt x (mdScope w.md) (if w.fn = 1#4 then m.promoteAll x else m) = .ok s1 →
    exec (.fence w) s = .next (finish x
      (s1.acquireBy x.u (mdScope w.md)))) ∧
  (∀ (w : Fields) (s : State) (x : Exec), Issues s (kindMem true false) 0x8C#8 w x → (s.regsOf x.u).taint w.a = false →
    let m := moveOn x 16 s
    let p := ((s.regsOf x.u).bits w.a).toNat % 2 ^ 32
    let ds := (if w.fn = 0#4 then [p] else List.range 9).filter fun d => !m.dieIdle d
    (w.fn = 0#4 → 9 ≤ p → exec (.fpromote w) s = .next (raiseTrap x (protectionOnce (BitVec.ofNat 56 p)) false s)) ∧
    ((w.fn = 0#4 → p < 9) → ds = [] → exec (.fpromote w) s = .next (finish x m)) ∧
    ((w.fn = 0#4 → p < 9) → ds ≠ [] →
      exec (.fpromote w) s = .next (finish x { m.bump with promotions := m.promotions ++ [⟨m.ids + 1, x.u, m.stampOf x, ds⟩] }))) ∧
  (∀ (w : Fields) (s : State) (x : Exec) (v : Gang), Issues s (kindMem false false) 0x8D#8 w x → x.seq = false → s.gang? x.t x.g = some v →
    let m := moveOn x 16 s
    let e := m.env x (v.moved x 16)
    let bad := e.pointSources.foldl (fun (b : Mask) p => b ||| p.2) 0#32
    exec (.prefetch w) s = .next (finish x ((e.points 1).foldl (fun z p =>
      if bad.getLsbD p.lane then z else z.prefetchLane x (mdHint w.md) p) m)))

/-! ## Tensor memory, palette and tables -/

/-- `mma`, `mmat`, `mperm`, `mrsum`, `tcvt` and `tzero` (R12, R322 to R324, R328 to R335, R339, R340): after the checks, one command with what it reads at issue joins its unit's queue with its range locks, where nothing makes it wait; a failing check raises its trap from the state before the issue, and no command is accepted. Rests on readings of the model: log 15 and 28. -/
def Obligations.MatrixCommandsAreAccepted : Prop :=
  (∀ (i : Instr) (w : Fields) (op : BitVec 8) (kind : CmdKind) (s : State) (x : Exec) (v : Gang),
    (i = .mma w ∧ op = 0x90#8 ∧ kind = .mma) ∨ (i = .mmat w ∧ op = 0x91#8 ∧ kind = .mmat) ∨
      (i = .mperm w ∧ op = 0x92#8 ∧ kind = .mperm) ∨ (i = .mrsum w ∧ op = 0x93#8 ∧ kind = .mrsum) →
    Issues s (kindTile false) op w x → x.seq = false → s.gang? x.t x.g = some v →
    let m := moveOn x 16 s
    let e := m.env x (v.moved x 16)
    (∀ s1 c, e.matrixCommand m kind = (s1, .ok c) → s1.commandWait x [c] = none → exec i s = .next (finish x (s1.accept x c))) ∧
    (∀ s1 c why, e.matrixCommand m kind = (s1, .ok c) → s1.commandWait x [c] = some why → exec i s = .next (waitUnit x why s)) ∧
    (∀ s1 t, e.matrixCommand m kind = (s1, .error t) → exec i s = .next (raiseTrap x t false s))) ∧
  (∀ (w : Fields) (s : State) (x : Exec) (v : Gang) (tm : Team), Issues s (kindTile false) 0x96#8 w x → x.seq = false →
    s.gang? x.t x.g = some v → s.team? x.t = some tm →
    let m := moveOn x 16 s
    let d := handleOf w.d
    let a := handleOf w.a
    let c := ((m.env x (v.moved x 16)).command .tcvt).withHandles tm w.d w.a
    (heldFault x tm d = none → heldFault x tm a = none → columnFault tm d (w.imm.extractLsb' 0 9).toNat (mdCols w.md) = none →
      columnFault tm a (w.imm.extractLsb' 9 9).toNat (mdCols w.md) = none →
      (exactPair (tm.handle a).ty (tm.handle d).ty = true → w.imm.extractLsb' 28 4 = 0#4) → m.commandWait x [c] = none →
      exec (.tcvt w) s = .next (finish x (m.accept x c))) ∧
    (∀ t, heldFault x tm d = some t → exec (.tcvt w) s = .next (raiseTrap x t false s))) ∧
  (∀ (w : Fields) (s : State) (x : Exec) (v : Gang) (tm : Team), Issues s (kindTile false) 0x97#8 w x → x.seq = false →
    s.gang? x.t x.g = some v → s.team? x.t = some tm →
    let m := moveOn x 16 s
    let d := handleOf w.d
    let c := ((m.env x (v.moved x 16)).command .tzero).withHandles tm w.d .none
    (heldFault x tm d = none → columnFault tm d (w.imm.extractLsb' 0 9).toNat (mdCols w.md) = none → m.commandWait x [c] = none →
      exec (.tzero w) s = .next (finish x (m.accept x c))) ∧
    (∀ t, heldFault x tm d = some t → exec (.tzero w) s = .next (raiseTrap x t false s)))

/-- `tld`, `tst`, `mcopy` and `mwait` (R322 to R324, R336 to R338, R341 to R343): with a handle that is held, a column run inside it, clean operands, addresses that pass the checks and nothing to wait for, one copy command is accepted; `tst` to registers leaves an outstanding result that the command completes; `mcopy` is accepted after its checks, with the command of its follow-on word where it has one; `mwait` blocks the gang while a command that it names is accepted and not complete. Rests on readings of the model: log 28 and 30. -/
def Obligations.TileCopiesAreAccepted : Prop :=
  (∀ (w : Fields) (s : State) (x : Exec) (v : Gang) (tm : Team), Issues s (kindTile false) 0x94#8 w x → x.seq = false →
    s.gang? x.t x.g = some v → s.team? x.t = some tm →
    let m := moveOn x 16 s
    let e := m.env x (v.moved x 16)
    let h := handleOf w.d
    let u := wordsPer (tm.handle h).ty
    let base := (regOf w.a).toNat
    let off := (v.regs.bits w.b).toNat
    let len := 4 * u * mdCols w.md
    let va := (v.regs.bits w.a).toNat
    let pitch := if w.c = .none then len else (v.regs.bits w.c).toNat
    let c := fun kind => (e.command kind).withHandles tm w.d .none
    heldFault x tm h = none → columnFault tm h (w.imm.extractLsb' 0 9).toNat (mdCols w.md) = none →
    v.regs.taint w.a = false → v.regs.taint w.b = false → v.regs.taint w.c = false →
    (w.fn = 2#4 → e.blockPoison base (16 * u) = false → base + 16 * u ≤ v.alloc →
      let z := m.setGang x.t x.g ((v.moved x 16).touchRun m.tick base (16 * u))
      let k := { c .tldV with block := (List.range (16 * u)).map fun n => ((v.moved x 16).vreg (base + n)).lanes }
      z.commandWait x [k] = none → exec (.tld w) s = .next (finish x (z.accept x k))) ∧
    (w.fn = 0#4 → ∀ p s1, e.tileWindow m (tm.setGang x.g (v.moved x 16)) accRead off (64 * len) = .ok p →
      m.probeFills x p [(off, 64 * len)] = (s1, none) →
      let k := { c .tldSp with bOff := off, peer := p.tid, ranges := [⟨some p.tid, off, 64 * len, false⟩] }
      s1.commandWait x [k] = none → exec (.tld w) s = .next (finish x (s1.accept x k))) ∧
    (w.fn = 1#4 → va % 16 = 0 → pitch % 16 = 0 → len ≤ pitch →
      ∀ s1 ls, m.probeRanges x accRead ((List.range 64).map fun r => (va + r * pitch, len)) = (s1, .ok ls) →
      let k := { c .tldGl with addr := va, pitch, leaves := ls, ranges := [⟨none, va, 63 * pitch + len, false⟩] }
      s1.commandWait x [k] = none → exec (.tld w) s = .next (finish x (s1.accept x k)))) ∧
  (∀ (w : Fields) (s : State) (x : Exec) (v : Gang) (tm : Team), Issues s (kindTile (w.fn = 2#4)) 0x95#8 w x → x.seq = false →
    s.gang? x.t x.g = some v → s.team? x.t = some tm →
    let m := moveOn x 16 s
    let e := m.env x (v.moved x 16)
    let h := handleOf w.a
    let u := wordsPer (tm.handle h).ty
    let base := (regOf w.d).toNat
    let off := (v.regs.bits w.b).toNat
    let len := 4 * u * mdCols w.md
    let va := (v.regs.bits w.b).toNat
    let pitch := if w.c = .none then len else (v.regs.bits w.c).toNat
    let c := fun kind => (e.command kind).withHandles tm .none w.a
    heldFault x tm h = none → columnFault tm h (w.imm.extractLsb' 0 9).toNat (mdCols w.md) = none →
    v.regs.taint w.b = false → v.regs.taint w.c = false →
    (w.fn = 2#4 → base + 16 * u ≤ v.alloc → m.commandWait x [c .tstV] = none →
      let z := m.accept x (c .tstV)
      exec (.tst w) s = .next (finish x (z.bump.modGang x.t x.g fun y =>
        (y.touchRun m.tick base (16 * u)).addResult (runResult z.ids m.ids base (16 * u) x.sub) .general))) ∧
    (w.fn = 0#4 → ∀ p, e.tileWindow m (tm.setGang x.g (v.moved x 16)) accWrite off (64 * len) = .ok p →
      let k := { c .tstSp with bOff := off, peer := p.tid, ranges := [⟨some p.tid, off, 64 * len, true⟩] }
      m.commandWait x [k] = none → exec (.tst w) s = .next (finish x (m.accept x k))) ∧
    (w.fn = 1#4 → va % 16 = 0 → pitch % 16 = 0 → len ≤ pitch →
      ∀ s1 ls, m.probeRanges x accWrite ((List.range 64).map fun r => (va + r * pitch, len)) = (s1, .ok ls) →
      let k := { c .tstGl with addr := va, pitch, leaves := ls, ranges := [⟨none, va, 63 * pitch + len, true⟩] }
      s1.commandWait x [k] = none → exec (.tst w) s = .next (finish x (s1.accept x k)))) ∧
  (∀ (w : Fields) (s : State) (x : Exec) (v : Gang), w.fn ≠ 1#4 → Issues s (kindTile false) 0x98#8 w x → x.seq = false →
    s.gang? x.t x.g = some v →
    let m := moveOn x 16 s
    let e := m.env x (v.moved x 16)
    (∀ s1 c, e.copyCommand m = (s1, .ok c) → s1.commandWait x [c] = none → exec (.mcopy w) s = .next (finish x (s1.accept x c))) ∧
    (∀ s1 t, e.copyCommand m = (s1, .error t) → exec (.mcopy w) s = .next (raiseTrap x t false s))) ∧
  (∀ (w fw : Fields) (op : BitVec 8) (s s0 : State) (x : Exec) (v : Gang), w.fn = 1#4 → s.cur = some x.u → execOf s x.u 0x98#8 w = some x →
    (∀ s1 t, s.followOn x = (s1, .error t) → exec (.mcopy w) s = .next (raiseTrap x t false s)) ∧
    (s.followOn x = (s0, .ok (op, fw)) → Issues s0 (kindTile false) 0x98#8 w x → x.seq = false → s0.gang? x.t x.g = some v →
      gatedReg op fw v.alloc = none →
      let m := moveOn x 32 s0
      let e := m.env x (v.moved x 32)
      ∀ s1 s2 c f, e.copyCommand m = (s1, .ok c) →
        ({ e with x := { x with op := op, w := fw } } : Env).matrixCommand s1 (matrixKind op) = (s2, .ok f) →
        s2.commandWait x [c, { f with after := some s2.ids }] = none →
        exec (.mcopy w) s = .next (finish x ((s2.accept x c).accept x { f with after := some s2.ids })))) ∧
  (∀ (w : Fields) (s : State) (x : Exec) (tm : Team), Issues s (kindTile false) 0x99#8 w x → x.seq = false →
    s.team? x.t = some tm →
    let m := moveOn x 16 s
    let h := handleOf w.a
    (w.fn = 0#4 → heldFault x tm h = none → exec (.mwait w) s = .next (finish x
      (if (tm.handle h).tile.any fun id => m.tileBusy x.core id then blockUnit x (.mwait h) m else m))) ∧
    (w.fn ≠ 0#4 → exec (.mwait w) s = .next (finish x
      (if (m.core x.core).commands.any fun c => decide (c.team = x.t ∧ c.gang = x.g) then blockUnit x .mwaitAll m else m))) ∧
    (w.fn = 0#4 → ∀ t, heldFault x tm h = some t → exec (.mwait w) s = .next (raiseTrap x t false s)))

/-- `talloc.wait`, `talloc.try`, `tgive`, `ttake` and `tfree` (R394, R399, R400, R402 to R404): a request for a free handle is served by the arbiter in its order, or at once with its condition; an owned handle is given to a gang that has not retired, is taken by the gang that it names or owns it, each gift after a release at team scope, and is released with its tile; a handle in the wrong state raises a handle-released fault of the state's cause. Rests on readings of the model: log 29 and 31. -/
def Obligations.HandlesAreGrantedGivenTakenFreed : Prop :=
  (∀ (w : Fields) (s : State) (x : Exec) (tm : Team), Issues s (kindTable true false) 0xA0#8 w x → x.seq = false → s.team? x.t = some tm →
    let m := moveOn x 16 s
    let h := handleOf w.a
    let v := tm.handle h
    let n := granuleCount w.ty (mdCols w.md)
    (v.st = .unallocated ∨ v.st = .released →
      exec (.tallocWait w) s = .next (finish x
        ((blockUnit x (.talloc h w.ty (mdCols w.md) v)
          (m.modTeam x.t fun y => y.setHandle h { v with st := .owned, own := BitVec.ofNat 5 x.g, tile := none })).arbitrate x.core)) ∧
      ∀ y, m.team? x.t = some y →
        let behind := (m.tileWaiters x.core).any fun q =>
          decide (q.deadline ≤ tm.deadline.toNat) && (m.team? q.team).any fun z => q.need > z.reserveLeft
        let ok := m.withinReserve y n || (m.fitsTile y n && !behind)
        exec (.tallocTry w) s = .next (finish x (writeK x ok (if ok then m.grantTile x.t x.g h w.ty (mdCols w.md) else m)))) ∧
    (v.st = .owned ∨ v.st = .given →
      exec (.tallocWait w) s = .next (raiseTrap x (handleFault 0xA0#8 h 5#8) false s) ∧
      exec (.tallocTry w) s = .next (raiseTrap x (handleFault 0xA0#8 h 5#8) false s))) ∧
  (∀ (w : Fields) (s : State) (x : Exec) (tm : Team), Issues s (kindTable true false) 0xA1#8 w x → x.seq = false → s.team? x.t = some tm →
    let m := moveOn x 16 s
    let h := handleOf w.a
    let g := (s.regsOf x.u).halfOrImm w w.b
    ((s.regsOf x.u).taint w.b = false → heldFault x tm h = none → tm.receives g = true →
      ((tm.handle h).tile.any fun id => m.tileBusy x.core id) = false →
      ∀ s1, releaseAt x 0#3 m = .ok s1 →
      exec (.tgive w) s = .next (finish x (s1.modTeam x.t fun y =>
        y.setHandle h { tm.handle h with st := .given, dest := BitVec.ofNat 5 g }))) ∧
    ((s.regsOf x.u).taint w.b = false → ∀ t, heldFault x tm h = some t → exec (.tgive w) s = .next (raiseTrap x t false s))) ∧
  (∀ (w : Fields) (s : State) (x : Exec) (tm : Team), Issues s (kindTable true false) 0xA2#8 w x → x.seq = false → s.team? x.t = some tm →
    let m := moveOn x 16 s
    let h := handleOf w.a
    let v := tm.handle h
    (v.st = .owned → exec (.ttake w) s = .next (finish x (writeK x (v.own.toNat = x.g) m))) ∧
    (v.st = .given → v.dest.toNat = x.g ∨ v.own.toNat = x.g →
      exec (.ttake w) s = .next (finish x (writeK x true (m.modTeam x.t fun y =>
        y.setHandle h { v with st := .owned, own := BitVec.ofNat 5 x.g, dest := 0#5 })))) ∧
    (v.st = .given → ¬ (v.dest.toNat = x.g ∨ v.own.toNat = x.g) → exec (.ttake w) s = .next (finish x (writeK x false m))) ∧
    (v.st = .unallocated → exec (.ttake w) s = .next (raiseTrap x (handleFault 0xA2#8 h 1#8) false s)) ∧
    (v.st = .released → exec (.ttake w) s = .next (raiseTrap x (handleFault 0xA2#8 h 2#8) false s))) ∧
  (∀ (w : Fields) (s : State) (x : Exec) (tm : Team), Issues s (kindTable true false) 0xA3#8 w x → x.seq = false → s.team? x.t = some tm →
    let h := handleOf w.a
    (heldFault x tm h = none → exec (.tfree w) s = .next (finish x ((moveOn x 16 s).releaseHandle x.t h))) ∧
    (∀ t, heldFault x tm h = some t → exec (.tfree w) s = .next (raiseTrap x t false s)))

/-- `rlock`, `runlock`, `tlbinv` and `cprobe` (R285, R391, R392, R405 to R407): a lock of an aligned range inside its space joins the core's table where an entry is free, and its number goes to D; the entry that its team holds leaves the table; the translations of a range go at every level once no accepted command holds one; and D receives a palette or circuit-table entry. Rests on readings of the model: log 29 and 32. -/
def Obligations.LocksTranslationsAndTables : Prop :=
  (∀ (w : Fields) (s : State) (x : Exec) (tm : Team), Issues s (kindTable false false) 0xA4#8 w x → x.seq = false → s.team? x.t = some tm →
    let m := moveOn x 16 s
    let r := s.regsOf x.u
    let b := (r.bits w.a).toNat
    let n := r.halfOrImm w w.b
    let ls := (s.core x.core).locks
    r.taint w.a = false → r.taint w.b = false →
    (b % 16 = 0 → n % 16 = 0 → n ≠ 0 → (if w.fn.getLsbD 1 then b + n ≤ tm.winSize else b < 2 ^ 56) →
      ls.length < 32 → (ls.filter fun l => l.cmd.isNone).length < 16 →
      exec (.rlock w) s = .next (finish x (writeS x (BitVec.ofNat 64 (freeLock ls)) (m.modCore x.core fun c =>
        { c with locks := c.locks ++ [⟨freeLock ls, none, w.fn.getLsbD 0, w.fn.getLsbD 1, b, n, x.g, x.t, x.ctx⟩] })))) ∧
    (b % 16 ≠ 0 ∨ n % 16 ≠ 0 ∨ n = 0 → exec (.rlock w) s = .next (raiseTrap x (misalignedAt laneNone accRead b) false s))) ∧
  (∀ (w : Fields) (s : State) (x : Exec), Issues s (kindTable false false) 0xA5#8 w x → (s.regsOf x.u).taint w.a = false →
    let m := moveOn x 16 s
    let e := (s.regsOf x.u).halfOrImm w w.a
    let mine := fun l : Lock => decide (l.entry = e ∧ l.cmd = none ∧ l.team = x.t)
    ((s.core x.core).locks.any mine = true →
      exec (.runlock w) s = .next (finish x (m.modCore x.core fun c => { c with locks := c.locks.filter fun l => l.entry ≠ e }))) ∧
    ((s.core x.core).locks.any mine = false →
      exec (.runlock w) s = .next (raiseTrap x (protectionOnce (BitVec.ofNat 56 e)) false s))) ∧
  (∀ (w : Fields) (s : State) (x : Exec), Issues s { kindTable false false with priv := true } 0xA6#8 w x →
    let m := moveOn x 16 s
    let r := s.regsOf x.u
    let lo := if w.fn = 1#4 then 0 else (r.bits w.a).toNat
    let hi := if w.fn = 1#4 then 2 ^ 56 else (r.bits w.a).toNat + 65536 * r.halfOrImm w w.b
    r.taint w.a = false → r.taint w.b = false →
    (w.fn = 1#4 ∨ (r.bits w.a).toNat % 65536 = 0 → (lo = hi ∨ m.commandHolds x.ctx lo hi = false) →
      exec (.tlbinv w) s = .next (finish x (m.invalidated x.ctx lo hi))) ∧
    (w.fn ≠ 1#4 → (r.bits w.a).toNat % 65536 ≠ 0 →
      exec (.tlbinv w) s = .next (raiseTrap x (misalignedAt laneNone accRead (r.bits w.a).toNat) false s))) ∧
  (∀ (w : Fields) (s : State) (x : Exec) (tm : Team) (sel : Sel) (n : BitVec 6), Issues s (kindTable false true) 0xA7#8 w x → w.d = .sca sel n →
    x.seq = false → (moveOn x 16 s).team? x.t = some tm →
    let m := moveOn x 16 s
    let e := (s.regsOf x.u).halfOrImm w w.a
    let reply := fun v : W64 => m.deliver x ⟨m.ids, [], [⟨n, 3#2, v, 0#2⟩], [], [], 0#5, .none⟩
    (w.fn = 0#4 → exec (.cprobe w) s = .next (finish x (reply (m.paletteEntry tm (handleOf w.a))))) ∧
    (w.fn ≠ 0#4 → (s.regsOf x.u).taint w.a = false → e < 16 → exec (.cprobe w) s = .next (finish x (reply (m.circuitEntry e)))) ∧
    (w.fn ≠ 0#4 → (s.regsOf x.u).taint w.a = false → 16 ≤ e →
      exec (.cprobe w) s = .next (raiseTrap x (protectionOnce (BitVec.ofNat 56 e)) false s)))

/-! ## Queues, semaphores and sequence numbers -/

/-- `launch`, `qappend` and `qtail` (R345, R370, R375 to R377): a packet that is clean and aligned, of a queue that takes launches of the context, is read, released at device scope and submitted; a descriptor is linked after the last one of a control block, whose count goes up by one; the tail of a registered control block moves to the given value where that lies ahead of it and not past its count, and its mover is told. An unlaunchable queue and an unregistered block raise protection faults. Rests on readings of the model: log 36. -/
def Obligations.LaunchesAndMoverQueues : Prop :=
  (∀ (w : Fields) (s : State) (x : Exec), Issues s (kindQueue false) 0xE0#8 w x →
    let m := moveOn x 16 s
    let r := s.regsOf x.u
    let a := (r.bits w.a).toNat
    let q := (r.bits w.b).toNat
    r.taint w.a = false → r.taint w.b = false →
    (a % 128 = 0 → m.launchable q x.ctx = true → ∀ s1 s2 o, m.checkObject x accRead 128 128 a true = (s1, .ok o) →
      let v := s1.read { o with strong := true, wide := true }
      v.2.2 = false → releaseAt x 3#3 v.1 = .ok s2 → exec (.launch w) s = .next (finish x
        ((s2.send (s2.stampOf x) (roundTrip x.die ioPort [])).submitPacket q v.2.1 x.cluster))) ∧
    (a % 128 ≠ 0 → exec (.launch w) s = .next (raiseTrap x (misalignedAt laneNone accRead a) false s)) ∧
    (a % 128 = 0 → m.launchable q x.ctx = false → exec (.launch w) s = .next (raiseTrap x (protectionOnce (BitVec.ofNat 56 q)) false s))) ∧
  (∀ (w : Fields) (s : State) (x : Exec), Issues s (kindQueue false) 0xE1#8 w x →
    let m := moveOn x 16 s
    let r := s.regsOf x.u
    let a := (r.bits w.a).toNat
    let b := (r.bits w.b).toNat
    r.taint w.a = false → r.taint w.b = false →
    ∀ s1 s2 p1 p2 blk dsc, m.checkObjects x accBoth 64 64 [a, b] true = (s1, .ok [(p1, blk), (p2, dsc)]) →
      releaseAt x 3#3 ((s1.expose blk).expose dsc) = .ok s2 →
      let last := memNat s2.mem (blk.key + 8) 8
      let n := memNat s2.mem (blk.key + 0x10) 4
      (last = 0 → exec (.qappend w) s = .next (finish x
        ((((((s2.putAt blk 0x10 (n + 1) 4).putAt blk 8 b 8).putAt blk 0 b 8).putAt dsc 8 n 4).putAt dsc 0 0 8)))) ∧
      (last ≠ 0 → ∀ s3 o, s2.checkObject x accBoth 64 64 last true = (s3, .ok o) →
        exec (.qappend w) s = .next (finish x
          (((((((s3.putAt blk 0x10 (memNat s3.mem (blk.key + 0x10) 4 + 1) 4).putAt blk 8 b 8)).putAt dsc 8 (memNat s3.mem (blk.key + 0x10) 4) 4).putAt dsc 0 0 8).expose o).putAt o 0 b 8)))) ∧
  (∀ (w : Fields) (s : State) (x : Exec), Issues s (kindQueue false) 0xE2#8 w x →
    let m := moveOn x 16 s
    let r := s.regsOf x.u
    let a := (r.bits w.a).toNat
    let n := (r.bits w.b).extractLsb' 0 32
    r.taint w.a = false → r.taint w.b = false →
    ∀ s1 blk, m.checkObject x accBoth 64 1 a true = (s1, .ok blk) →
      let s2 := s1.expose blk
      let mover := memNat s2.mem (blk.key + 0x20) 1
      let slot := memNat s2.mem (blk.key + 0x21) 1
      (a % 64 = 0 → s2.registered x.ctx a mover slot = true → ∀ s3, releaseAt x (if w.fn = 1#4 then 4#3 else if w.fn = 2#4 then 5#3 else 3#3) s2 = .ok s3 →
        let count := BitVec.ofNat 32 (memNat s3.mem (blk.key + 0x10) 4)
        let tail := BitVec.ofNat 32 (memNat s3.mem (blk.key + 0x14) 4)
        let z := if 0 < (n - tail).toNat ∧ (n - tail).toNat ≤ (count - tail).toNat then s3.putAt blk 0x14 n.toNat 4 else s3
        exec (.qtail w) s = .next (finish x
          { z with registrations := updateFirst (fun g => g.mover = mover ∧ g.slot = slot) (fun g => { g with rung := true }) z.registrations })) ∧
      (a % 64 ≠ 0 ∨ s2.registered x.ctx a mover slot = false →
        exec (.qtail w) s = .next (raiseTrap x (protectionAt laneNone accBoth a) false s)))

/-- `evget`, `evwait` and `msem` (R351, R366, R378 to R380): the oldest event record leaves the queue of the sequencer and goes to a register pair, all zero where the queue is empty; with an event waiting the sequencer goes on, and without one it is blocked, with a limit where `IMM` gives one; the condition of `FN` on a clean word goes to the scalar condition, with an acquire. Rests on readings of the model: log 6. -/
def Obligations.EventsAndMemorySemaphores : Prop :=
  (∀ (w : Fields) (s : State) (x : Exec) (sel : Sel) (i : BitVec 6), Issues s (kindQueue true) 0xE3#8 w x → w.d = .sca sel i →
    let m := moveOn x 16 s
    let r := (m.seq x.cluster).takeEvent (m.tickOf (unitOfSeq x.cluster))
    exec (.evget w) s = .next (finish x ((m.setSeq r.1).bump.deliver x
      ⟨m.ids, [], [⟨i, 3#2, r.2.extractLsb' 0 64, 0#2⟩, ⟨i + 1#6, 3#2, r.2.extractLsb' 64 64, 0#2⟩], [], [], 0#5, .none⟩))) ∧
  (∀ (w : Fields) (s : State) (x : Exec), Issues s (kindQueue false) 0xE4#8 w x →
    let m := moveOn x 16 s
    ((m.seq x.cluster).events ≠ [] → exec (.evwait w) s = .next (finish x m)) ∧
    ((m.seq x.cluster).events = [] →
      exec (.evwait w) s = .next (finish x (blockUnit x (.evwait
        (if w.imm = 0#32 then none else some ((m.tickOf (unitOfSeq x.cluster)).toNat + 1000 * w.imm.toNat))) m)))) ∧
  (∀ (w : Fields) (s : State) (x : Exec) (i : BitVec 3), Issues s (kindQueue true) 0xE5#8 w x → w.d = .cond i →
    let m := moveOn x 16 s
    let r := s.regsOf x.u
    let a := (r.bits w.a).toNat
    r.taint w.a = false → r.taint w.b = false →
    (∀ s1 o, m.checkObject x accRead 8 8 a false = (s1, .ok o) →
      let o' := { o with strong := true, wide := true }
      let v := s1.read o'
      s1.awaitsOwn x o' = false → v.2.2 = false →
      exec (.msem w) s = .next (finish x ((⟨false, true, mdScope w.md⟩ : Effects).after x (v.1.bump.deliver x
        ⟨m.ids, [], [], [(i, waitCond w.fn.toNat v.2.1 (r.bits w.b).toNat)], [], 0#5, .none⟩)))) ∧
    (∀ s1 t, m.checkObject x accRead 8 8 a false = (s1, .error t) → exec (.msem w) s = .next (raiseTrap x t false s)))

/-- `semup`, `semwait`, `semread`, `slkset` and `seqwait` (R416 to R422, R426, R427): a pair counter, or the word of a parking semaphore, goes up, no further than its largest value, and its waiters are served in the order of their arrival; a waiter joins its counter and the unit is blocked until it is served; the value goes outstanding to D; the default slack becomes the given one, or that of R416; and the unit waits until a mover's sequence number passes the given one. Rests on readings of the model: log 34, 35 and 51. -/
def Obligations.SemaphoresSlackAndSequence : Prop :=
  (∀ (w : Fields) (s s1 : State) (x : Exec) (tm : Team) (e e' : Ensemble) (j : Nat), Issues s (kindSem false) 0xE8#8 w x → w.fn = 0#4 →
    (moveOn x 16 s).checkRank x w = .ok (tm, e, j) → (⟨true, false, mdScope w.md⟩ : Effects).before x (moveOn x 16 s) = .ok s1 →
    s1.ensemble? tm.ensemble = some e' →
    let c := e'.counter tm.rank j
    exec (.semup w) s = .next (finish x (s1.servePair e' { c with value := min (c.value + semCount w) pairMax }))) ∧
  (∀ (w : Fields) (s s1 s2 : State) (x : Exec) (a : Access), Issues s (kindSem false) 0xE8#8 w x → w.fn ≠ 0#4 →
    (moveOn x 16 s).checkPark x w = (s1, .ok a) → (⟨true, false, mdScope w.md⟩ : Effects).before x s1 = .ok s2 →
    exec (.semup w) s = .next (finish x (holdRemote x (scopeDom (mdScope w.md))
      (s2.parkUp x a ((s2.regsOf x.u).bits w.a).toNat (semCount w) (scopeDom (mdScope w.md)))))) ∧
  (∀ (w : Fields) (s : State) (x : Exec) (tm : Team) (e : Ensemble) (i : Nat), Issues s (kindSem false) 0xE9#8 w x → w.fn = 0#4 →
    (moveOn x 16 s).checkRank x w = .ok (tm, e, i) →
    let c := e.counter i tm.rank
    exec (.semwait w) s = .next (finish x ((blockUnit x (.semPair i tm.rank) (moveOn x 16 s)).servePair e
      { c with waiters := c.waiters ++ [⟨x.u, semCount w, mdScope w.md⟩] }))) ∧
  (∀ (w : Fields) (s s1 : State) (x : Exec) (a : Access), Issues s (kindSem false) 0xE9#8 w x → w.fn ≠ 0#4 →
    (moveOn x 16 s).checkPark x w = (s1, .ok a) → s1.awaitsOwn x a = false →
    exec (.semwait w) s = .next (finish x ((blockUnit x (.semPark a.parkKey) (s1.expose a)).enqueuePark
      ⟨a.parkKey, x.u, semCount w, mdScope w.md, false⟩).servePark)) ∧
  (∀ (w : Fields) (s : State) (x : Exec) (tm : Team) (e : Ensemble) (i : Nat), Issues s (kindSem true) 0xEA#8 w x → w.fn = 0#4 →
    (moveOn x 16 s).checkRank x w = .ok (tm, e, i) →
    let m := moveOn x 16 s
    exec (.semread w) s = .next (finish x ((⟨false, true, mdScope w.md⟩ : Effects).after x
      (m.bump.deliver x (scalarReply x m.ids .b32 (e.counter i tm.rank).value false))))) ∧
  (∀ (w : Fields) (s s1 : State) (x : Exec) (a : Access), Issues s (kindSem true) 0xEA#8 w x → w.fn ≠ 0#4 →
    (moveOn x 16 s).checkPark x w = (s1, .ok a) → s1.awaitsOwn x a = false →
    let r := s1.read a
    exec (.semread w) s = .next (finish x ((⟨false, true, mdScope w.md⟩ : Effects).after x
      (r.1.bump.deliver x (scalarReply x (moveOn x 16 s).ids .b64 r.2.1 r.2.2))))) ∧
  (∀ (w : Fields) (s : State) (x : Exec), Issues s kindPlain 0xEB#8 w x → (s.regsOf x.u).taint w.a = false →
    let m := moveOn x 16 s
    let v := (s.regsOf x.u).halfOrImm w w.a
    let slack := if v = 0 then slackOf (m.special x 0x16) (m.special x 0x10) else BitVec.ofNat 12 (min v 4095)
    (∀ t g, x.u = .gang t g → exec (.slkset w) s = .next (finish x (m.modTeam t fun y => { y with slack := slack }))) ∧
    (∀ n, x.u = .seq n → exec (.slkset w) s = .next (finish x (m.modSeq n fun q => { q with slack := slack })))) ∧
  (∀ (w : Fields) (s s1 : State) (x : Exec) (a : Access), Issues s { kindPlain with memory := true } 0xEC#8 w x →
    (s.regsOf x.u).taint w.a = false → (s.regsOf x.u).taint w.b = false →
    (moveOn x 16 s).checkObject x accBoth 64 64 ((s.regsOf x.u).bits w.a).toNat true = (s1, .ok a) →
    exec (.seqwait w) s = .next (finish x ((blockUnit x
      (.seqwait a.key (((s.regsOf x.u).bits w.b).extractLsb' 0 32) (mdScope w.md)) (s1.writeBack a.die (a.key / 128))).serveSeqwaits)))

/-! ## Words, decode and the step -/

/-- The word of every well-formed instruction decodes to it, with every operand and field at every value that its encoding admits (R66, R68, R72 to R85). -/
def Obligations.EncodedWordsDecodeToTheirInstruction : Prop :=
  ∀ (seq : Bool) (i : Instr), i.wf seq = true → isEvent i = false → ∃ x, encode i = some x ∧ decode seq x = .ok i

/-- A word that decodes is the word of its instruction, which is well formed: decode drops no bit (R66, R68). -/
def Obligations.DecodedWordsAreTheirEncoding : Prop :=
  ∀ (seq : Bool) (i : Instr) (x : W128), decode seq x = .ok i → encode i = some x ∧ i.wf seq = true ∧ isEvent i = false

/-- Decode makes its checks in the order of R68 and answers the cause of R69 for the first that fails: the opcode and the unit, `FN`, the guard, the reserved bits, the operand fields in the order D, A, B, C, `TY`, `MD` with the tests of `FN` that depend on them, and the banks. A word that passes all is the instruction of its opcode, `FN`, guard, `TY`, `MD` and `IMM`. Rests on readings of the model: log 15. -/
def Obligations.DecodeChecksInOrder : Prop :=
  ∀ (seq : Bool) (x : W128),
    let op := x.extractLsb' 120 8
    let fn := (x.extractLsb' 116 4).toNat
    let md := x.extractLsb' 24 11
    let imm := x.extractLsb' 40 32
    let ty := tyOfCode (x.extractLsb' 35 5)
    let d := operandOf (x.extractLsb' 102 10)
    let a := operandOf (x.extractLsb' 92 10)
    let b := operandOf (x.extractLsb' 82 10)
    let c := operandOf (x.extractLsb' 72 10)
    let k : SlotCtx := { seq, ty, sub := tyOfCode (mdSUB md), md, imm, d, a }
    (opAssigned op.toNat = false → decode seq x = .error (.opcode op false)) ∧
    (opAssigned op.toNat = true → opRuns seq op.toNat = false → decode seq x = .error (.opcode op true)) ∧
    (opAssigned op.toNat = true → opRuns seq op.toNat = true →
      (formOf op.toNat fn = none → decode seq x = .error (.encoding op 1#4 0#4 0#4)) ∧
      ∀ f, formOf op.toNat fn = some f →
        (x.extractLsb' 112 4 = 0xF#4 → decode seq x = .error (.encoding op 2#4 0#4 0#4)) ∧
        (x.extractLsb' 112 4 ≠ 0xF#4 →
          (x.extractLsb' 20 4 ≠ 0#4 ∨ x.extractLsb' 0 4 ≠ 0#4 → decode seq x = .error (.encoding op 3#4 0#4 0#4)) ∧
          (x.extractLsb' 20 4 = 0#4 → x.extractLsb' 0 4 = 0#4 →
            (∀ r, posCause k f.d d 1#4 = some r → decode seq x = .error (.encoding op r.1 r.2 0#4)) ∧
            (posCause k f.d d 1#4 = none →
              (∀ r, posCause k f.a a 2#4 = some r → decode seq x = .error (.encoding op r.1 r.2 0#4)) ∧
              (posCause k f.a a 2#4 = none →
                (∀ r, posCause k f.b b 3#4 = some r → decode seq x = .error (.encoding op r.1 r.2 0#4)) ∧
                (posCause k f.b b 3#4 = none →
                  (∀ r, posCause k (slotC f ty) c 4#4 = some r → decode seq x = .error (.encoding op r.1 r.2 0#4)) ∧
                  (posCause k (slotC f ty) c 4#4 = none →
                    (ty = none → decode seq x = .error (.encoding op 6#4 0#4 0#4)) ∧
                    ∀ t, ty = some t →
                      (f.tys.contains t = false ∨ tyMdCause f t md = false → decode seq x = .error (.encoding op 6#4 0#4 0#4)) ∧
                      (f.tys.contains t = true → tyMdCause f t md = true →
                        (fnTyOk f t fn = false → decode seq x = .error (.encoding op 1#4 0#4 0#4)) ∧
                        (fnTyOk f t fn = true →
                          let uses := (a.any isImm) || (b.any isImm) || (c.any isImm)
                          (f.md.ok fn t md imm uses = false → decode seq x = .error (.encoding op 7#4 0#4 0#4)) ∧
                          (f.md.ok fn t md imm uses = true →
                            (fnMdOk f md fn = false → decode seq x = .error (.encoding op 1#4 0#4 0#4)) ∧
                            (fnMdOk f md fn = true →
                              (∀ p, bankCause k f a b c = some p → decode seq x = .error (.encoding op 8#4 p.1 p.2)) ∧
                              (bankCause k f a b c = none → ∃ i w, decode seq x = .ok i ∧ i.parts = some (op, w) ∧
                                w.fn = x.extractLsb' 116 4 ∧ w.g.neg = x.getLsbD 115 ∧ w.g.idx = x.extractLsb' 112 3 ∧
                                some w.d = d ∧ some w.a = a ∧ some w.b = b ∧ some w.c = c ∧ w.imm = imm ∧ w.ty = t ∧ w.md = md))))))))))))

/-- The words that the worked examples of the spec give decode to the instructions that they are worked out for. -/
def Obligations.WorkedWordsDecode : Prop :=
  (∃ w, decode false 0x400701404C03FF000000071800080000#128 = .ok (.vadd w) ∧ w.ty = .i32) ∧
  (∃ w, decode false 0x6B0B0280B5140C000000009200080820#128 = .ok (.vffma w) ∧ w.ty = .f32 ∧ w.g.neg = true) ∧
  (∃ w, decode false 0x80070124201BFF000000404B83018000#128 = .ok (.ld w) ∧ mdBytes w.md = 4) ∧
  (∃ w, decode false 0x9017989445166200000000A900000000#128 = .ok (.mma w) ∧ w.ty = .e4m3 ∧ mdCols w.md = 64) ∧
  (∃ w, decode true 0xE207FFD0651FFF000000000000048000#128 = .ok (.qtail w)) ∧
  (∃ w, decode false 0xFF07FFFFFFFFFF000000010000000000#128 = .ok (.brk w) ∧ w.imm = 1#32)

/-- The fetch of the word at the program counter (R67, R229): the displaced word where the quads' next issue takes it, and otherwise the word of 16 bytes that a weak read at the counter gives, or the first fault of the table of R67. Which bytes such a read takes is the statement `ReadsTakeTheBytesOfTheirPoint`. Rests on readings of the model: log 21, 51 and 52. -/
def Obligations.FetchTakesTheWordAtTheCounter : Prop :=
  ∀ (s : State) (x : Exec) (v : Gang), x.seq = false → x.u = .gang x.t x.g → s.gang? x.t x.g = some v →
    (v.emul &&& x.quads ≠ 0#8 → s.fetch x = (s, if displacedBad v.displaced
      then .error (illegalState { x with op := v.displaced.extractLsb' 120 8 } 7#8) else .ok v.displaced)) ∧
    (v.emul &&& x.quads = 0#8 →
      (∀ s1, s.look x x.pc.toNat = (s1, .absent) → s.fetch x = (s1, .error (.page x.pc 4#3))) ∧
      (∀ s1, s.look x x.pc.toNat = (s1, .malformed) → s.fetch x = (s1, .error (.coded 0x25#8 (detailLane laneNone accExec x.pc)))) ∧
      (∀ s1 l, s.look x x.pc.toNat = (s1, .leaf l) →
        (s1.lit l.cc = false → s1.circuitFails x.u = false → s.fetch x = (s1, .error (.circuit x.pc 4#3))) ∧
        (s1.lit l.cc = true →
          (l.xwr.getLsbD 2 = false ∨ regionOf (l.pa x.pc.toNat) = .unpopulated →
            s.fetch x = (s1, .error (.coded 0x25#8 (detailLane laneNone accExec x.pc)))) ∧
          (l.xwr.getLsbD 2 = true → regionOf (l.pa x.pc.toNat) = .global → s1.peerOf l.cc = none →
            let a := { s1.place x l x.pc.toNat 16 with core := none }
            (s1.core x.core).icache.find? (fun p => p.1 = a.key) = none →
            ((s1.read a).2.2 = true →
              s.fetch x = ((s1.read a).1, .error (.coded 0x2A#8 (detailLane laneNone 1#2 x.pc)))) ∧
            ((s1.read a).2.2 = false → ∃ s2, s.fetch x = (s2, .ok (BitVec.ofNat 128 (s1.read a).2.1)))))))

/-- A step runs the instruction that the unit's word decodes to, and then time passes: the turn of a unit that may issue performs the first acquire of its team, makes the unit the issuing one, fetches, decodes, and executes. A word that cannot be fetched or decoded raises its trap in place of an instruction, and an event of the agenda runs without an issuing unit. Rests on readings of the model: log 1 and 2. -/
def Obligations.StepRunsTheDecodedInstruction : Prop :=
  (∀ (s s0 s1 : State) (u : Issuer) (x : Exec), s.nextTurn = (some (.issue u), s0) → s0.mayIssue u = true →
    s1 = { s0.firstAcquire u with cur := some u } → execOf s1 u 0#8 default = some x →
    (∀ s2 t, s1.fetch x = (s2, .error t) → step s = .next (raiseTrap x t false s2).pass) ∧
    (∀ s2 w, s1.fetch x = (s2, .ok w) →
      (∀ e, decode x.seq w = .error e →
        step s = .next (raiseTrap { x with op := w.extractLsb' 120 8 } (trapOfDecode e) false s2).pass) ∧
      (∀ i t, decode x.seq w = .ok i → exec i s2 = .next t → step s = .next t.pass))) ∧
  (∀ (s s0 t : State) (i : Instr), s.nextTurn = (some (.event i), s0) → isEvent i = true → exec i { s0 with cur := none } = .next t →
    step s = .next t.pass)

/-- The machine never stops: every step of every state ends in a next state, whatever word is fetched and whatever event is due (R12, R68). Rests on readings of the model: log 1. -/
def Obligations.NeverStops : Prop := ∀ s : State, completes s

/-- The checks that are made at issue, in order and whatever the guard (R55, R68, R71, R148): a privileged instruction outside a privileged handler takes a protection fault; one that names a gated register takes an illegal-register trap that names it; one that requires a converged gang and is issued by a sub-gang that lacks a live quad takes an illegal-state trap; and one of the third group of R71 whose guard differs among the live lanes takes another. The checks of an `mcopy` with a follow-on word come after the fetch of that word (R342). Rests on readings of the model: log 15. -/
def Obligations.IssueChecksTrap : Prop :=
  ∀ (i : Instr) (op : BitVec 8) (w : Fields) (s : State) (x : Exec), i.parts = some (op, w) → s.cur = some x.u →
    execOf s x.u op w = some x → ¬ (op = 0x98#8 ∧ w.fn = 1#4) →
    (privileged op w = true → x.priv = false → exec i s = .next (raiseTrap x (protectionOnce 0#56) false s)) ∧
    ((privileged op w = true → x.priv = true) → x.seq = false →
      (∀ r, gatedReg op w (s.allocOf x.u) = some r →
        exec i s = .next (raiseTrap x (.coded 0x22#8 (detailOp op (BitVec.ofNat 24 r))) false s)) ∧
      (gatedReg op w (s.allocOf x.u) = none →
        (converges op = true → x.quads ≠ x.liveQuads → exec i s = .next (raiseTrap x (illegalState x 1#8) false s)) ∧
        ((converges op = true → x.quads = x.liveQuads) → actsOnce op = true → x.part ≠ 0#32 → x.part ≠ x.sub →
          exec i s = .next (raiseTrap x (illegalState x 4#8) false s))))

/-- An instruction whose guard is false still issues and has no other effect (R71): every one of the 158 forms only moves on to the next word, past its list or its follow-on word where it has one (R223, R342), and its scheduling control acts; a vector form of fixed latency also makes the tags of its destination general, as not every lane has a true guard (R145, R146). Rests on readings of the model: log 30. -/
def Obligations.FalseGuardsOnlyMoveOn : Prop :=
  ∀ (i : Instr) (op : BitVec 8) (w : Fields) (s : State) (x : Exec), i.parts = some (op, w) → s.cur = some x.u →
    execOf s x.u op w = some x → x.guard = false → (privileged op w = true → x.priv = true) →
    (x.seq = false → gatedReg op w (s.allocOf x.u) = none) → (converges op = true → x.quads = x.liveQuads) →
    (¬ (op = 0x98#8 ∧ w.fn = 1#4) → 
      (x.seq = false ∧ op.extractLsb' 6 2 = 1#2 ∧ ¬ (0x6F#8 ≤ op ∧ op ≤ 0x76#8) → exec i s = .next (finish x
        ((moveOn x 16 s).modGang x.t x.g fun v => v.generalize (namedRegs op w).2))) ∧
      (¬ (x.seq = false ∧ op.extractLsb' 6 2 = 1#2 ∧ ¬ (0x6F#8 ≤ op ∧ op ≤ 0x76#8)) →
        exec i s = .next (finish x (moveOn x (if op = 0xC4#8 then btabLength w else 16) s)))) ∧
    (op = 0x98#8 → w.fn = 1#4 → x.seq = false → ∀ s1 f, s.followOn x = (s1, .ok f) → exec i s = .next (finish x (moveOn x 32 s1)))

/-- What a reset leaves (R143, R346, R388, R389, R453, R494, R495, R500): nothing runs and nothing is held; every sequencer, queue control, circuit, router pair, start control and measurement register has its reset value; and the invariant holds. Rests on readings of the model: log 8 and 45. -/
def Obligations.ResetLeavesTheResetValues : Prop :=
  let s := State.reset
  s.Inv ∧ s.teams = [] ∧ s.ctxs = [] ∧ s.queues = [] ∧
  (∀ n, (s.seq n).pc = 0#56 ∧ (s.seq n).csp = 0#64 ∧ (s.seq n).slack = 4095#12 ∧ (s.seq n).trapvec = 0#64 ∧ (s.seq n).regs.k = 0#8 ∧
    (s.seq n).regs.fpflags = 0#5 ∧ (s.seq n).regs.fpctl = 0#3 ∧ (s.seq n).regs.trapcause = 0#32 ∧ (s.seq n).regs.trapdetail = 0#64 ∧
    (s.seq n).regs.trappc = 0#64 ∧ ∀ r : Fin 64, (s.seq n).regs.s[r] = 0#64) ∧
  (∀ q, (s.queue q).en = false ∧ (s.queue q).desc = 0#64 ∧ (s.queue q).drop = 0#16 ∧ (s.queue q).qctx = 0#10) ∧
  (∀ c : Fin 16, s.circuits[c] = ⟨0#8, false, 0#9⟩) ∧
  (∀ i j, (s.pair i j).rail0 = true ∧ (s.pair i j).rail1 = true ∧ (s.pair i j).fcnt = 0#8 ∧ (s.pair i j).rlyen = false ∧ (s.pair i j).relay = 0#5) ∧
  (∀ p : Fin 23, s.syndromes[p].v = false) ∧ (∀ m : Fin 8, s.measures[m] = 0#512) ∧
  s.start.mode = 0#2 ∧ s.start.step = 0#8 ∧ s.start.ready = false ∧ s.start.safe = false ∧ s.start.kind = false ∧ s.start.phase = 0

/-! ## The steps that no word encodes -/

/-- Steps of a gang (R49, R50, R51, R60, R88, R96, R154, R285, R303, R322, R323, R405, R434, R437): a result whose value is known and for which no packet is under way returns, its writes reach the live lanes alone, and its flags are OR-ed; a delay ends; a gang ages after 64 clocks; a register grows drowsy after 4,096; a held trap is taken once the earlier results have returned; and what waited for a range lock, for the other unit or for an entry issues again or traps. Rests on readings of the model: log 6, 23 and 29. -/
def Obligations.GangsTakeRepliesTimersAndHeldTraps : Prop :=
  (∀ (s : State) (t g id : Nat) (tm : Team) (v : Gang) (r : Result), s.team? t = some tm → s.gang? t g = some v →
    v.regs.pending.find? (fun r => r.id = id ∧ r.waits = .none) = some r →
    ((s.packets.any fun p => p.reply = some (.gang t g, id)) = true → exec (.resultReply (.gang t g) id) s = .next s) ∧
    ((s.packets.any fun p => p.reply = some (.gang t g, id)) = false → exec (.resultReply (.gang t g) id) s =
      .next (((s.setGang t g (((v.applyResult r s.tick).returned id).afterReply s.tick)).modCore tm.core fun c =>
        c.unhold t g (r.vec.map fun w => (w.reg, 1))).arbitrateSlots tm.core)) ∧
    (v.applyResult r s.tick).regs.pending = returnResult r v.regs.pending ∧ (v.applyResult r s.tick).live = v.live ∧
    (v.applyResult r s.tick).preds = v.preds ∧ (v.applyResult r s.tick).quads = v.quads ∧
    (r.sca = [] → r.cond = [] → (v.applyResult r s.tick).regs.s = v.regs.s ∧ (v.applyResult r s.tick).regs.k = v.regs.k ∧
      (v.applyResult r s.tick).regs.fpflags = v.regs.fpflags ||| r.flags) ∧
    (∀ (w : VecWrite) (u : VReg), r.vec = [w] → v.vregs[w.reg]? = some u →
      ∃ u', (v.applyResult r s.tick).vregs[w.reg]? = some u' ∧
        (∀ l : Fin 32, u'.lanes[l] = if (w.mask &&& v.live).getLsbD l then w.data[l] else u.lanes[l]) ∧
        u'.poison = (u.poison &&& ~~~(w.mask &&& v.live)) ||| (w.poison &&& (w.mask &&& v.live)) ∧
        ∀ k, k ≠ w.reg → (v.applyResult r s.tick).vregs[k]? = v.vregs[k]?)) ∧
  (∀ (s : State) (t g d : Nat) (v : Gang), s.gang? t g = some v → v.delay = some d → d ≤ s.tick →
    exec (.dlyExpiry t g) s = .next (s.setGang t g { v with delay := none, readySince := s.tick })) ∧
  (∀ (s : State) (t g : Nat) (tm : Team) (v : Gang), s.team? t = some tm → tm.running = true → s.gang? t g = some v → v.ready = true → 6 * (s.tick - v.readySince) ≥ 5 * 64 →
    exec (.gangAged t g) s = .next (s.setGang t g { v with aged := true })) ∧
  (∀ (s : State) (t g k : Nat) (v : Gang) (r : VReg), s.gang? t g = some v → v.vregs[k]? = some r → 6 * (s.tick - r.used) ≥ 5 * 4096 →
    exec (.slotDrowsy t g k) s = .next (s.setGang t g { v with vregs := setNth { r with drowsy := true } v.vregs k })) ∧
  (∀ (s : State) (t g : Nat) (v : Gang) (code : BitVec 8) (detail : W64) (quads : QuadMask) (pc : BitVec 56) (brk : Bool),
    s.gang? t g = some v → v.heldTrap = some ⟨.coded code detail, quads, pc, brk⟩ → v.regs.pending = [] →
    exec (.trapEntry (.gang t g)) s = .next (s.takeGang t g code detail quads pc brk)) ∧
  (∀ (s : State) (t g : Nat) (v : Gang), s.gang? t g = some v → v.status = .waiting .lockRetry →
    exec (.rangeLockRetry t g) s = .next (s.setGang t g
      { v with status := .ready, readySince := s.tick, otherWait := v.otherTicks s.tick, otherSince := none })) ∧
  (∀ (s : State) (t g : Nat) (v : Gang) (op : BitVec 8) (h : BitVec 5) (x : Exec), s.gang? t g = some v →
    v.status = .waiting (.handle op h) → 6 * v.otherTicks s.tick ≥ 5 * 2 ^ 20 → execOf s (.gang t g) op default = some x →
    exec (.handleBusyTimeout t g) s =
      .next (raiseTrap x (.coded codeBusy (detailOp op (h.zeroExtend 24))) false (s.setGang t g { v with status := .ready }))) ∧
  (∀ (s : State) (t g : Nat) (tm : Team) (v : Gang), s.team? t = some tm → s.gang? t g = some v →
    (v.status = .waiting .queue ∧ ((s.core tm.core).copy.length < 16 ∨ (s.core tm.core).array.length < 16)) ∨
      (v.status = .waiting .locks ∧ (s.core tm.core).locks.length < 32) →
    exec (.commandQueueAccept t g) s = .next (s.setGang t g
      { v with status := .ready, readySince := s.tick, otherWait := v.otherTicks s.tick, otherSince := none }))

/-- Steps of a core's units (R152, R254, R322 to R326, R342, R401): an array command begins when the commands before it allow it, and is left as it is until then; a command completes and what waited for it goes on; cleared granules are free again; and a deadlock of handles or of registers fails the last waiter's request, whose handle is again what it was. Rests on readings of the model: log 28. -/
def Obligations.CommandsBeginCompleteAndDeadlocksResolve : Prop :=
  (∀ (s : State) (core id : Nat) (c : Command), (s.core core).array.find? (fun c => c.id = id) = some c →
    (s.mayBegin core c = true → exec (.commandBegin core id) s = .next (s.modCore core fun u =>
      { u with array := replaceIf (fun b => b.id = id) (fun b => { b with begun := true, beginTick := s.tick }) u.array })) ∧
    (s.mayBegin core c = false → exec (.commandBegin core id) s = .next s)) ∧
  (∀ (s : State) (core id : Nat) (c : Command), (s.core core).commands.find? (fun c => c.id = id) = some c →
    (s.mayComplete core c = true → exec (.commandComplete core id) s = .next ((s.completeCommand core c).retryAll fun w =>
      match w with
      | .handle _ _ | .range _ | .commands => true
      | _ => false)) ∧
    (s.mayComplete core c = false → exec (.commandComplete core id) s = .next s)) ∧
  (∀ (s : State) (core id : Nat), ((s.core core).clearing.any fun p => p.1 = id) = true →
    exec (.granuleClearDone core id) s =
      .next ((s.modCore core fun c => { c with clearing := c.clearing.filter fun p => p.1 ≠ id }).arbitrate core)) ∧
  (∀ (s : State) (core : Nat) (w : Waiter) (h : BitVec 5) (ty : Ty) (cols : Nat) (before : Handle), s.tileDeadlock core = true →
    (s.tileWaiters core).getLast? = some w → w.why = .talloc h ty cols before →
    exec (.allocationDeadlock core) s = .next ((s.modTeam w.team fun x =>
      x.setHandle h before).failBlocked w 0xA0#8
        (.coded 0x28#8 (detailOp 0xA0#8 (0#11 ++ h ++ BitVec.ofNat 8 w.need))))) ∧
  (∀ (s : State) (core : Nat) (w : Waiter), s.slotDeadlock core = true → (s.regWaiters core).getLast? = some w →
    exec (.registerDeadlock core) s = .next (s.failBlocked w 0xCD#8 (.coded 0x28#8 (detailOp 0xCD#8 (BitVec.ofNat 24 w.need)))))

/-- Ends of gangs, teams, launches and contexts (R56, R60, R61, R293, R363, R429, R447): a gang without a live lane or a result retires, and the last one's team exits; an exited team is done once its release has reached the memory side and nothing of it is outstanding, and waits until then; the debugger kills lanes, of a saved team in its frame; a launch past its deadline is dropped or stamped anew; and a context past a limit, or ended by the host, ends. Rests on readings of the model: log 26 and 37. -/
def Obligations.GangsTeamsLaunchesAndContextsEnd : Prop :=
  (∀ (s : State) (t g : Nat) (tm : Team) (v : Gang), s.team? t = some tm → s.gang? t g = some v →
    v.live = 0#32 → v.regs.pending = [] → v.status ≠ .retired → tm.placedOn tm.core = true →
    let r := (((s.setGang t g v.retire).retireHandles t g).barriersRetire t).arbitrateSlots tm.core
    exec (.gangRetire t g) s = .next (if (r.team? t).any fun x => x.gangsLeft = 0 then r.exitTeam t tm.core else r.arbitrate tm.core) ∧
    v.retire.alloc = 0 ∧ v.retire.vregs = [] ∧ v.retire.status = .retired) ∧
  (∀ (s s1 : State) (t : Nat) (tm : Team), s.team? t = some tm → tm.residence = .exited → s.copiesDone tm = true →
    s.stashBackAll tm.agent false 3#3 t (tm.dirtySectors fun _ => true) = .ok s1 →
    let r := s1.writeBackAll (dieOf tm.core)
    ((r.remote.any fun o => issuerOfTeam o.who t) = true → exec (.teamDone t) s = .next r) ∧
    ((r.remote.any fun o => issuerOfTeam o.who t) = false → exec (.teamDone t) s = .next (((((r.modTeam t fun x => { x with residence := .done }).modCore
      tm.core fun u => { u with locks := u.locks.filter fun l => l.team ≠ t }).arbitrate tm.core).retireEnsemble tm.ensemble)))) ∧
  (∀ (s : State) (t g : Nat) (lanes : Mask) (x : Exec) (tm : Team) (v : Gang), execOf s (.gang t g) 0#8 default = some x →
    s.team? t = some tm → s.gang? t g = some v →
    (∀ k d p, (s.ctx? x.ctx).any (·.dbg) = true → tm.residence = .saved k d p →
      exec (.debuggerKill t g lanes) s = .next (s.killHeld x.ctx k g v lanes)) ∧
    ((s.ctx? x.ctx).any (·.dbg) = true → (∀ k d p, tm.residence ≠ .saved k d p) → exec (.debuggerKill t g lanes) s =
      .next (if ((s.dropLanes x lanes).gang? t g).any fun v => v.live = 0#32 then (s.dropLanes x lanes).leaveWaits (.gang t g) else s.dropLanes x lanes)) ∧
    ((s.ctx? x.ctx).any (·.dbg) = false → exec (.debuggerKill t g lanes) s = .next s)) ∧
  (∀ (s : State) (k : Nat) (l : Launch), s.awake = true → s.launch? k = some l → l.restamped = false → l.dropped = false →
    l.deadline.toNat < s.tick →
    (l.p.lateDrop = true → exec (.deadlineMiss k) s = .next (((((s.passOver l).modLaunch k fun l =>
      { l with dropped := true, dealt := true }).purgeLaunch k).launchEvent l 3 1).settleLaunch k)) ∧
    (l.p.lateDrop = false →
      let d := BitVec.ofNat 64 (s.tick + l.p.grace.toNat)
      let r := s.modLaunch k fun l => { l with deadline := d, restamped := true }
      exec (.deadlineMiss k) s = .next ((r.restampPacket l d.toNat).launchEvent l 3 0))) ∧
  (∀ (s : State) (ctx : Nat) (c : Ctx), s.awake = true → s.ctx? ctx = some c →
    (s.limitPassed c = true → exec (.forcedReset ctx) s = .next (s.endContext ctx)) ∧
    (s.limitPassed c = false → exec (.forcedReset ctx) s = .next s)) ∧
  (∀ (s : State) (ctx : Nat), s.start.ready = true → s.powered = true → (s.ctx? ctx).isSome = true →
    exec (.contextEnd ctx) s = .next (s.finishContext ctx))

/-- Saves, restores and served records (R162, R258, R367, R423, R440 to R445, R485, R489): a faulting team takes the lowest free slot and posts its record, or its gang is held where no slot is free; a quiet team's frame is written; a saved team whose records are served returns to the core that it left once that holds it; a parked ensemble leaves and comes back whole; and the registers of the debugger and of the fault queues act as they are written. Rests on readings of the model: log 39, 40, 41 and 42. -/
def Obligations.TeamsAreSavedRestoredAndServed : Prop :=
  (∀ (s : State) (t g : Nat) (tm : Team) (c : Ctx) (f : Trap), s.team? t = some tm → s.ctx? tm.ctx = some c → c.ending = false →
    tm.residence = .resident → tm.faultedGang = some (g, f) →
    (∀ k, c.freeSlot = some k → exec (.contextSave t) s =
      .next (((s.takeSlot tm.ctx k).modTeam t fun x => { x with residence := .saving k false }).postFault tm g f k)) ∧
    (c.freeSlot = none → exec (.contextSave t) s = .next (s.postFault tm g f 0xFFFF))) ∧
  (∀ (s : State) (t k : Nat) (debug : Bool) (tm : Team) (c : Ctx), s.team? t = some tm → s.ctx? tm.ctx = some c → c.ending = false →
    tm.residence = .saving k debug → tm.faultedGang = none →
    (s.saveWaits tm = true → exec (.contextSave t) s = .next s) ∧
    (s.saveWaits tm = false → exec (.contextSave t) s = .next (s.finishSave tm k debug))) ∧
  (∀ (s : State) (t k : Nat) (tm : Team) (c : Ctx), s.team? t = some tm → s.ctx? tm.ctx = some c → tm.residence = .saved k false false →
    s.awake = true → c.ending = false → s.firstClaim tm = true →
    (s.teamOfFrame tm (c.slotVa k) = none → exec (.teamRestore t) s = .next (s.endContext tm.ctx)) ∧
    (∀ x, s.teamOfFrame tm (c.slotVa k) = some x →
      ((s.roomOf tm.core fun _ => true).takes x.room = true → exec (.teamRestore t) s =
        .next ((List.range x.gangs.length).foldl (fun (z : State) g =>
          match execOf z (.gang t g) 0#8 default with
          | some y => z.clashTrap y
          | none => z) (s.placeTeam x k))) ∧
      ((s.roomOf tm.core fun _ => true).takes x.room = false → exec (.teamRestore t) s = .next s))) ∧
  (∀ (s s1 : State) (n : Nat) (e : Ensemble) (c : Ctx), s.ensemble? n = some e →
    let ts := s.teams.filter fun x => x.ensemble = n && x.residence = .resident
    (ts.head?.bind fun x => s.ctx? x.ctx) = some c → s.awake = true → c.ending = false → e.parkedSaved = false → s.parked e = true →
    s.parkedNeeded e = true → ts.length + c.slots.length ≤ c.nslot → s.saveParked (ts.map (·.tid)) = some s1 →
    exec (.parkedEnsembleSave n) s = .next
      { s1 with
        parkWaiters := s1.parkWaiters.map fun (w : ParkWaiter) => if ts.any fun x => issuerOfTeam w.who x.tid then { w with saved := true } else w
        ensembles := replaceIf (fun x => x.eid = n) (fun x => { x with parkedSaved := true, parkedReady := false }) s1.ensembles }.servePark) ∧
  (∀ (s s1 : State) (n : Nat) (e : Ensemble), s.ensemble? n = some e → s.awake = true → e.parkedSaved = true → e.parkedReady = true → s.parkedFirst e = true →
    s.restoreParked e.teams = some (some s1) →
    exec (.parkedEnsembleRestore n) s = .next (s1.modEnsemble n fun x => { x with parkedSaved := false, parkedReady := false })) ∧
  (∀ (s : State), s.barOpen = true →
    (∀ ctx v, exec (.debugGo ctx v) s = .next (s.writeDebug ctx v)) ∧
    (∀ ctx (idx : W32) c r, s.ctx? ctx = some c → c.outstanding.find? (fun r => r.idx = idx.toNat) = some r → exec (.faultServed ctx idx) s =
      .next ((s.modCtx ctx fun c => { c with outstanding := c.outstanding.filter fun x => x.idx ≠ idx.toNat }).serveRecord false r false)) ∧
    (∀ ctx head, exec (.faultQueueHeadWrite ctx head) s = .next ((s.modCtx ctx fun c => { c with fqHead := head }).retryRecords ctx)) ∧
    (∀ ctx (idx : W32) c, s.ctx? ctx = some c → c.outstanding.find? (fun r => r.idx = idx.toNat) = none → exec (.faultServed ctx idx) s = .next s)) ∧
  (∀ (s : State), s.firmwareOpen = true → ∀ (idx : W32) fail,
    (s.fabricOut.find? (fun r => r.idx = idx.toNat) = none → exec (.fabricFaultServed idx fail) s = .next s) ∧
    (∀ r, s.fabricOut.find? (fun r => r.idx = idx.toNat) = some r → r.slot < 0x10000 →
      let z := { s with fabricOut := s.fabricOut.filter fun x => x.idx ≠ idx.toNat }.serveRecord true r fail
      exec (.fabricFaultServed idx fail) s = .next (z.drainFabric z.fabricWaiting)))

/-- Traffic and event queues (R232, R243, R282, R291, R366, R379, R390, R410 to R413): packets reach slack zero and are served in order, a miss entry closes after 32 clocks, promotions, invalidations and remote operations arrive and let what waited for them go on, an evicted line is written back, and records join their cluster's queue or are counted as dropped. Rests on readings of the model: log 6, 18 and 25. -/
def Obligations.TrafficArrivesAndRecordsArePosted : Prop :=
  (∀ (s : State) (p : Packet), s.packets.find? (fun q => q.id = p.id) = some p → p.zeroSince = none →
    p.slack - (s.queueTick p.queue - p.entry) / 4 = 0 →
    exec (.slackExhausted p.id) s = .next (s.exhaust p)) ∧
  (∀ (s : State) (q : Nat) (p : Packet), s.nextPacket q = some p →
    let now := s.queueTick q
    let r := if p.zeroSince = none ∧ p.current now = 0 then s.exhaust p else s
    (∀ via, r.pathAfter p = ([], via) → exec (.packetService q) s = .next { r with packets := r.packets.filter fun q => q.id ≠ p.id }) ∧
    (∀ n ns via, r.pathAfter p = (n :: ns, via) →
      let on := fun (o : Packet) =>
        { o with queue := n, path := ns, slack := p.current now, entry := r.queueTick n, zeroSince := none, relayed := via }
      exec (.packetService q) s = .next { r.bump with packets := updateFirst (fun (o : Packet) => decide (o.id = p.id)) on r.packets })) ∧
  (∀ (s : State) (q : Nat), (∀ p ∈ s.packets, p.queue = q → s.packetHeld p = true) → exec (.packetService q) s = .next s) ∧
  (∀ (s : State) (core k : Nat) (m : Miss), m ∈ (s.core core).misses → m.key = k → 6 * (s.tick - m.opened) ≥ 5 * 32 →
    exec (.coalesceWindowClose core k) s = .next (s.modCore core fun c =>
      { c with misses := c.misses.filter fun m => !(decide (m.key = k) && clocksPassed m.opened s.tick 32) })) ∧
  (∀ (s : State) (n d : Nat) (p : Promotion), s.promotions.find? (fun p => p.id = n) = some p → d ∈ p.dies →
    s.pairHeld p.stamp.port d = false →
    let r := s.settleDie p.stamp d
    let rest := p.dies.filter fun e => e ≠ d
    (rest = [] → exec (.promotionArrival n d) s = .next ({ r with promotions := r.promotions.filter fun q => q.id ≠ n }.wakePromoted p.who)) ∧
    (rest ≠ [] → exec (.promotionArrival n d) s =
      .next { r with promotions := replaceIf (fun q => q.id = n) (fun q => { q with dies := rest }) r.promotions })) ∧
  (∀ (s : State) (n : Nat) (r : RemoteOp), s.remote.find? (fun r => r.id = n) = some r → s.peerHeld r.peer = false →
    s.pairHeld (s.dieOfUnit r.who) ioPort = false →
    ((s.remote.takeWhile fun q => q.id ≠ n).any fun q => q.touches r.who r.sector r.mask) = false →
    exec (.remoteWriteAck n) s = .next (((((s.dropRemote r.id).performRemote r).acquirePerformed r)).wakeRemote r.who)) ∧
  (∀ (s : State) (d k : Nat) (z : Sector), d < 9 → (s.die d).sector? k = some z →
    let chip := chipOf (128 * k)
    (z.dirty = 0#128 → exec (.cacheEviction d k) s = .next (s.evict d k)) ∧
    (z.dirty ≠ 0#128 → exec (.cacheEviction d k) s = .next ((s.send (ownStamp d) (roundTrip d (chipPort chip) [sideQueue chip])).evict d k))) ∧
  (∀ (s : State) (n core : Nat) (v : Inval), s.invals.find? (fun v => v.id = n) = some v → core ∈ v.cores →
    s.pairHeld ((v.who.map s.dieOfUnit).getD ioPort) (dieOf core) = false →
    let r := s.icacheReach core
    let rest := v.cores.filter fun c => c ≠ core
    (rest ≠ [] → exec (.invalidationReachesCore n core) s =
      .next { r with invals := replaceIf (fun w => w.id = n) (fun w => { w with cores := rest }) r.invals }) ∧
    (rest = [] → ∀ u, v.who = some u → exec (.invalidationReachesCore n core) s =
      .next ({ r with invals := r.invals.filter fun w => w.id ≠ n }.wake u))) ∧
  (∀ (s : State) (n : Nat) (p : Post), s.posts.find? (fun p => p.id = n) = some p →
    s.pairHeld (s.producerPort p.producer) (p.cluster / 6) = false →
    ((s.posts.takeWhile fun q => q.id ≠ n).any fun q => decide (q.cluster = p.cluster ∧ q.producer = p.producer)) = false →
    let r := { s with posts := s.posts.filter fun q => q.id ≠ n }.modSeq p.cluster fun q =>
      if q.events.length ≥ eventCapacity then { q with drops := q.drops + 1 } else { q with events := q.events ++ [p.record] }
    exec (.eventPost n) s = .next (r.wakeEvwaits p.cluster fun _ => true)) ∧
  (∀ (s : State) (n k o : Nat), (s.seq n).status = .blocked (.evwait (some k)) o →
    (k ≤ (s.tickOf (unitOfSeq n)).toNat → exec (.evwaitTimeout n) s = .next (s.wake (.seq n))) ∧
    ((s.tickOf (unitOfSeq n)).toNat < k → exec (.evwaitTimeout n) s = .next s))

/-! ## The steps of the package -/

/-- Queues and placement (R44 to R48, R346 to R351, R355 to R360, R369, R454): a doorbell makes a stopped queue's `ERR` be read again, and moves the tail or is discarded and counted; a switch stops a queue whose descriptor fails, maps, releases or begins to leave; the master deals from the mapped queue of the earliest deadline that has something to deal to some die, wait and signal packets act once their conditions hold, a die distributor hands on its first range, a sequencer starts its next ensemble where cores hold it, or the drain of work that gives way to it begins, one that a trap has stopped starts none, and steals move unstarted ensembles alone. Rests on readings of the model: log 36, 37 and 38. -/
def Obligations.QueuesAreRungMappedAndDealt : Prop :=
  (∀ (s : State) (q : Nat) (bell : W32), s.barOpen = true → q < 4096 →
    let r := s.rereadErr q
    ((s.queue q).en = false → exec (.queueDoorbell q bell) s = .next (s.dropBell q)) ∧
    (∀ code, (s.queue q).en = true → r.queueView q = .error code →
      exec (.queueDoorbell q bell) s = .next ((r.stopQueue q (r.descriptorHead q) (r.descriptorHead q) code none).dropBell q)) ∧
    (∀ x, (s.queue q).en = true → r.queueView q = .ok x →
      (x.deviceFed = true → exec (.queueDoorbell q bell) s = .next (r.dropBell q)) ∧
      (x.deviceFed = false → x.leaving = false → x.accepts bell = false → exec (.queueDoorbell q bell) s = .next (r.dropBell q)) ∧
      (x.deviceFed = false → x.leaving = false → x.accepts bell = true → r.isStopped x = true → exec (.queueDoorbell q bell) s = .next r) ∧
      (x.deviceFed = false → x.leaving = false → x.accepts bell = true → r.isStopped x = false → x.bestEffort = false → r.slot? q = some x →
        exec (.queueDoorbell q bell) s =
          .next ((r.acceptPackets x (bell - x.tail).toNat x.tail).modSlot q fun y => { y with tail := bell })) ∧
      (x.deviceFed = false → x.leaving = true → x.bestEffort = false →
        exec (.queueDoorbell q bell) s = .next (r.modSlot q fun y => { y with latch := bell, lv := true }))) ∧
    exec (.doorbellDropClear q) s = .next (s.modQueue q fun r => { r with drop := 0#16 })) ∧
  (∀ (s : State), s.awake = true →
    (∀ q code, s.brokenQueue = some (q, code) →
      exec .queueSwitch s = .next (s.stopQueue q (s.descriptorHead q) (s.descriptorHead q) code none)) ∧
    (∀ x, s.brokenQueue = none → s.slots.find? (fun (x : QueueSlot) => x.leaving) = some x →
      let r := s.releaseSlot x
      (∀ b bs, r.ranked r.unmapped = b :: bs → r.slots.length < 128 → exec .queueSwitch s = .next (r.mapQueue b.2)) ∧
      (r.ranked r.unmapped = [] → exec .queueSwitch s = .next r)) ∧
    (∀ b bs, s.brokenQueue = none → s.slots.find? (fun (x : QueueSlot) => x.leaving) = none → s.ranked s.unmapped = b :: bs →
      (s.slots.length < 128 → exec .queueSwitch s = .next (s.mapQueue b.2)) ∧
      (∀ w, 128 ≤ s.slots.length → (s.ranked s.slots).getLast? = some w →
        (b.1.isSome = true → rankAhead b w = true → exec .queueSwitch s =
          .next ((s.modSlot w.2 fun x => { x with leaving := true }).holdQueue w.2 true)) ∧
        (b.1 = none ∨ rankAhead b w = false → exec .queueSwitch s = .next s)))) ∧
  (∀ (s : State) (die count : Nat), s.awake = true → die < 9 →
    let jobs := s.dealJobs fun _ => true
    (firstBy (fun a b => rankAhead a.1 b.1) jobs = none → exec (.launchDeal die count) s = .next s) ∧
    (∀ j, firstBy (fun a b => rankAhead a.1 b.1) jobs = some j →
      ((s.dealJobs fun d => d = die).contains j = false → exec (.launchDeal die count) s = .next s) ∧
      (∀ k l, (s.dealJobs fun d => d = die).contains j = true → j.2 = some k → s.launch? k = some l →
        exec (.launchDeal die count) s = .next (s.redeal l die count)) ∧
      (∀ x, (s.dealJobs fun d => d = die).contains j = true → j.2 = none → s.slot? j.1.2 = some x →
        exec (.launchDeal die count) s = .next (s.dealFrom x die count)))) ∧
  (∀ (s : State) (q : Nat) (x : QueueSlot), s.awake = true → (s.queue q).en = true → s.queueView q = .ok x → s.hasWork x = true →
    x.leaving = false →
    (s.headPacket x = .wait true → exec (.waitPacketPoll q) s = .next (s.consume q)) ∧
    (s.headPacket x = .wait false → exec (.waitPacketPoll q) s = .next s)) ∧
  (∀ (s : State) (q : Nat) (x : QueueSlot), s.awake = true → s.slot? q = some x → s.hasWork x = true → x.leaving = false →
    (∀ pa v, s.headPacket x = .signal pa v → (s.launches.any fun l => decide (l.queue = q) && !l.early) = false →
      exec (.signalPacket q) s = .next ((s.sideBytes pa (bytesOf v 8)).consume q)) ∧
    (∀ pa v, s.headPacket x = .signal pa v → (s.launches.any fun l => decide (l.queue = q) && !l.early) = true →
      exec (.signalPacket q) s = .next s)) ∧
  (∀ (s : State) (die cluster : Nat), s.awake = true → (s.die die).fenced = false → cluster / 6 = die → cluster < 54 →
    (s.seq cluster).holding.length < 64 →
    let fits := fun r : DieRange => (s.launch? r.launch).any fun l => r.reissued || s.eligible l.ctx l.p cluster
    (firstBy s.rangeOrder ((s.die die).ranges.filter fits) = none → exec (.dieDistributorDeal die cluster) s = .next s) ∧
    (∀ r, firstBy s.rangeOrder ((s.die die).ranges.filter fits) = some r →
      let rest := if r.next + 1 < r.stop then [{ r with next := r.next + 1 }] else []
      exec (.dieDistributorDeal die cluster) s =
        .next (((s.modDie die fun d => { d with ranges := (d.ranges.filter fun y => y ≠ r) ++ rest }).modSeq cluster fun q =>
          { q with holding := q.holding ++ [⟨r.launch, r.next, r.hold, r.reissued⟩] }).send (ownStamp die) [seqQueue cluster]))) ∧
  (∀ (s : State) (n : Nat) (cores : List Nat), s.awake = true → n < 54 → (s.die (n / 6)).fenced = false →
    ((s.die (n / 6)).inService = true ∨ (s.die (n / 6)).spare = true) →
    (∀ a, s.nextStart n = some a → cores.length = a.l.p.teamsOf a.held.index →
      (coresHold (s.rooms n fun _ => true) a.l.p.need cores = true → exec (.ensembleStart n cores) s =
        .next ((s.modSeq n fun q => { q with holding := q.holding.filter fun h => h ≠ a.held }).startEnsemble n a.l a.held.index cores)) ∧
      (coresHold (s.rooms n fun _ => true) a.l.p.need cores = false → exec (.ensembleStart n cores) s = .next s)) ∧
    (∀ a, s.nextStart n = none → s.startPreempts n = some a → exec (.ensembleStart n cores) s = .next { s with
      ensembles := s.ensembles.map fun e =>
        if e.cluster = n ∧ (s.launch? e.launch).any fun l => l.yieldsTo a.l.deadline.toNat then { e with drain := e.drain.or (some s.tick) } else e })) ∧
  (∀ (s : State) (n : Nat) (cores : List Nat), (s.seq n).halted = true → exec (.ensembleStart n cores) s = .next s) ∧
  (∀ (s : State) (thief victim : Nat), s.awake = true → thief < 54 → victim < 54 → thief ≠ victim → (s.die (thief / 6)).fenced = false →
    (s.die (victim / 6)).fenced = false → ((s.die (thief / 6)).inService = true ∨ (s.die (thief / 6)).spare = true) →
    ((s.die (victim / 6)).inService = true ∨ (s.die (victim / 6)).spare = true) →
    (s.seq thief).halted = false → (s.seq thief).asked = false → (s.seq thief).holding = [] → (s.seq victim).steals.length < 8 →
    s.pairHeld (thief / 6) (victim / 6) = false → ((s.rooms thief fun _ => true).any fun r => r.places > 0) = true →
    exec (.stealRequest thief victim) s = .next (((s.modSeq victim fun v =>
      { v with steals := v.steals ++ [⟨thief, s.freeOf thief⟩] }).modSeq thief fun q => { q with asked := true }).send
        (ownStamp (thief / 6)) (oneWay (thief / 6) (victim / 6) [seqQueue victim]))) ∧
  (∀ (s : State) (victim : Nat) (r : Steal) (rs : List Steal), s.awake = true → (s.die (victim / 6)).fenced = false →
    (s.seq victim).steals = r :: rs →
    let out := if (s.seq victim).halted then [] else s.shipped r.thief (min 4 (64 - (s.seq r.thief).holding.length)) (s.unstarted victim) (r.free.map roomOfFree)
    (s.pairHeld (victim / 6) (r.thief / 6) = true → exec (.stealReply victim) s = .next s) ∧
    (s.pairHeld (victim / 6) (r.thief / 6) = false → exec (.stealReply victim) s = .next (((s.modSeq victim fun v =>
      { v with steals := rs, holding := v.holding.filter fun h => !out.contains h }).modSeq r.thief fun q =>
        { q with asked := false, holding := q.holding ++ out }).send (ownStamp (victim / 6)) (oneWay (victim / 6) (r.thief / 6) []))) ∧
    out.length ≤ 4)

/-- Movers and links (R140, R370 to R373, R467, R480, R486, R493): a chain does nothing while it is idle, halts with code 1 at a malformed descriptor and with code 2 at a bad length, waits while the traffic of a range is held, and its operations move the bytes they name and raise `DONE`; frames and flits that arrive are kept, written or dropped; the host reads and writes device memory over link 0, and over either link reads the management space, where what no register holds reads as zero, and a queue's `HEAD` (R7, R8, R358, R481, R482). Rests on readings of the model: log 19, 22 and 44. -/
def Obligations.MoversAndLinksMoveBytes : Prop :=
  (∀ (s : State) (m h : Nat) (r : Registration) (d : Taken), s.awake = true → s.chain? m h = some r → s.chainHead r = .take d →
    (d.wellFormed = false → ∀ i ∈ [Instr.moverCopy m h, .moverRingAllreduce m h, .moverTreeAllreduce m h, .ethernetSend m h, .ethernetReceive m h],
      exec i s = .next (s.halt r d.block d.idx 1 0)) ∧
    (d.wellFormed = true → d.op = 0x01 →
      (d.field 0x20 8 % 16 ≠ 0 → exec (.moverCopy m h) s = .next (s.halt d.r d.block d.idx 2 0)) ∧
      (∀ va, d.field 0x20 8 % 16 = 0 → s.rangeOf d d.ctx (d.field 0x10 8) (d.field 0x20 8) 1#3 = .error (.code 3 va) →
        exec (.moverCopy m h) s = .next (s.halt d.r d.block d.idx 3 va)) ∧
      (d.field 0x20 8 % 16 = 0 → s.rangeOf d d.ctx (d.field 0x10 8) (d.field 0x20 8) 1#3 = .error .wait → exec (.moverCopy m h) s = .next s) ∧
      (∀ a b, d.field 0x20 8 % 16 = 0 → s.rangeOf d d.ctx (d.field 0x10 8) (d.field 0x20 8) 1#3 = .ok a →
        s.rangeOf d d.ctx (d.field 0x18 8) (d.field 0x20 8) 2#3 = .ok b →
        rangesMeet (d.field 0x10 8) (d.field 0x18 8) (d.field 0x20 8) = false →
        exec (.moverCopy m h) s = .next ((((s.sendRun d a).sendRun d b).runWrite (s.runBytes a) (s.runTaint a) b).done d))) ∧
    (d.wellFormed = true → d.op = 0x10 → ∀ t table ms runs, d.ty = some t → s.peerTable d (d.field 0x30 2) = .ok table →
      2 ≤ d.field 0x30 2 → d.field 0x30 2 ≤ 512 → d.field 0x32 2 < d.field 0x30 2 → d.field 0x20 8 % d.field 0x30 2 = 0 →
      (table[d.field 0x32 2]? ≠ some (d.field 0x18 8) → exec (.moverRingAllreduce m h) s = .next (s.mismatch d)) ∧
      (table[d.field 0x32 2]? = some (d.field 0x18 8) → s.membersOf d (s.sharers d.tag) table = .ok ms →
        ((membersHere ms).any fun m => !d.agrees m) = false → s.buffers d (d.bufferBytes t) ms = .ok runs →
        exec (.moverRingAllreduce m h) s = .next ((membersHere ms).foldl (fun (s : State) m => s.done m)
          ((s.sendMembers (ms.any Member.isAway) (ms.zip runs)).writeAll
            (ringBytes t (d.exact t) (d.field 0x20 8) (runs.map s.runBytes)) runs)))) ∧
    (d.wellFormed = true → d.op = 0x11 → ∀ t root x, d.ty = some t →
      2 ≤ d.field 0x30 2 → d.field 0x30 2 ≤ 512 → d.field 0x32 2 < d.field 0x30 2 →
      s.rootOf (s.sharers d.tag) (d.field 0x30 2) d = .ok (root, false) →
      s.subtree t (s.sharers d.tag) (d.field 0x30 2) s.free root = .ok x → d.exact t = false →
      let s1 := x.here.foldl (fun (s : State) p => s.sendMember x.away p.1 p.2) s
      exec (.moverTreeAllreduce m h) s = .next (x.here.foldl (fun (s : State) p => s.done p.1)
        ({ s1 with free := x.next + d.field 0x20 8 }.writeAll ((x.sum.map (narrow t)).flatMap fun v => bytesOf v (t.width / 8))
          (x.here.map fun (p : Taken × Run) => p.2)))) ∧
    (d.wellFormed = true → d.op = 0x20 →
      (d.field 0x20 8 < 64 ∨ 9216 < d.field 0x20 8 → exec (.ethernetSend m h) s = .next (s.halt d.r d.block d.idx 2 0)) ∧
      (∀ a, 64 ≤ d.field 0x20 8 → d.field 0x20 8 ≤ 9216 → d.field 0x38 1 ≤ 3 →
        s.rangeOf d d.ctx (d.field 0x10 8) (d.field 0x20 8) 1#3 = .ok a →
        exec (.ethernetSend m h) s = .next (((s.sendRun d a).modEth (d.field 0x38 1) fun e =>
          { e with sent := e.sent ++ [s.runBytes a ++ bytesOf (fcs (s.runBytes a)).toNat 4] }).done d))) ∧
    (d.wellFormed = true → d.op = 0x21 → d.field 0x38 1 ≤ 3 →
      ((s.ethPort (d.field 0x38 1)).received = [] → exec (.ethernetReceive m h) s = .next s) ∧
      (∀ f fs b, (s.ethPort (d.field 0x38 1)).received = f :: fs →
        let bytes := bytesOf f.length 8 ++ f.take (d.field 0x20 8)
        s.rangeOf d d.ctx (d.field 0x18 8) bytes.length 2#3 = .ok b →
        exec (.ethernetReceive m h) s = .next ((((s.sendRun d b).runWrite bytes (fun _ => false) b).modEth (d.field 0x38 1) fun e =>
          { e with received := fs }).done d)))) ∧
  (∀ (s : State) (m h : Nat) (r : Registration), s.awake = true → s.chain? m h = some r → s.chainHead r = .idle →
    ∀ i ∈ [Instr.moverCopy m h, .moverRingAllreduce m h, .moverTreeAllreduce m h, .ethernetSend m h, .ethernetReceive m h], exec i s = .next s) ∧
  (∀ (s : State) (port : Nat) (frame : List Byte) (good : Bool), s.awake = true →
    exec (.ethernetFrameArrival port frame good true) s = .next s ∧
    (good = true → 64 ≤ frame.length → frame.length ≤ 9216 → (s.ethPort port).received.length < s.portReceivers port →
      exec (.ethernetFrameArrival port frame good false) s = .next (s.modEth port fun e => { e with received := e.received ++ [frame] })) ∧
    (good = false ∨ frame.length < 64 ∨ 9216 < frame.length ∨ s.portReceivers port ≤ (s.ethPort port).received.length →
      exec (.ethernetFrameArrival port frame good false) s = .next (s.modEth port fun e => { e with dropped := e.dropped + 1 }))) ∧
  (∀ (s : State) (port : Nat) (f : Flit), s.awake = true → port < 48 →
    exec (.utiumFlitReceive port true f) s = .next (f.writes.foldl (fun (s : State) w => s.linkWrite w.1 w.2.1 w.2.2) s) ∧
    exec (.utiumFlitReceive port false f) s = .next s) ∧
  (∀ (s : State), s.powered = true → s.start.ready = true → s.link0 = true →
    (∀ pa len, pa + len ≤ 0xC000000000 → exec (.hostLinkAccess 0 (.read pa len)) s =
      .next { s with hostReply := some (memBytes s.mem pa len, s.linePoison pa len) }) ∧
    (∀ pa bytes poisoned, exec (.hostLinkAccess 0 (.write pa bytes poisoned)) s =
      .next ((splitSectors pa bytes).foldl (fun (s : State) p => s.linkWrite p.1 p.2 poisoned) s))) ∧
  (∀ (s : State) (link : Nat), s.linkUp link = true →
    (∀ off width, exec (.hostLinkAccess link (.register off width)) s =
      .next { s with hostReply := some (bytesOf (s.readRegister off width).toNat (width / 8), [false]) }) ∧
    (∀ off width, (width ≠ 32 ∧ width ≠ 64) ∨ (8 * off) % width ≠ 0 → s.readRegister off width = 0#64) ∧
    (∀ off width, s.start.ready = false → 8 ≤ off → s.readRegister off width = 0#64) ∧
    (s.start.ready = true →
      (∀ die, die < 9 → s.readRegister (0x100 + 8 * die) 64 = (s.die die).way.zeroExtend 64) ∧
      s.readRegister 0x400 64 = s.epoch ∧
      (∀ q, q < 4096 → (s.slot? q = none → exec (.hostLinkAccess link (.head q)) s =
          .next { s with hostReply := some (bytesOf (s.descriptorHead q).toNat 4, [false]) }) ∧
        (∀ x, s.slot? q = some x → x.leaving = false → exec (.hostLinkAccess link (.head q)) s =
          .next { s with hostReply := some (bytesOf x.head.toNat 4, [false]) }) ∧
        (∀ x, s.slot? q = some x → x.leaving = true → exec (.hostLinkAccess link (.head q)) s =
          .next (s.modQueue q fun r => { r with headRead := true })))))

/-- Registers, routes, lanes and circuits (R20 to R23, R246, R247, R292, R368, R389, R430, R453, R481, R482, R485, R488, R491, R492, R506): writes of the management space reach their register by offset, width and half, and each other one is ignored; a rejected way mask or relay changes nothing; a lost colour takes its rail down and is counted; and a switch command is rejected with its reason or applied with one new epoch. Rests on readings of the model: log 46, 47 and 48. -/
def Obligations.RegistersRoutesLanesAndCircuits : Prop :=
  (∀ (s : State), s.barOpen = true →
    (∀ off v, off % 8 = 0 → exec (.registerWrite off 64 v) s = .next (s.writeSpace off (BitVec.allOnes 64) v) ∧
      exec (.registerWrite off 32 v) s = .next (s.writeSpace off 0xFFFFFFFF#64 (v &&& 0xFFFFFFFF#64))) ∧
    (∀ off v, off % 8 = 4 → exec (.registerWrite off 32 v) s = .next (s.writeSpace (off - 4) 0xFFFFFFFF00000000#64 (v <<< 32))) ∧
    (∀ off width v, (width ≠ 32 ∧ width ≠ 64) ∨ (8 * off) % width ≠ 0 → exec (.registerWrite off width v) s = .next s) ∧
    (∀ ctx v c, s.ctx? ctx = some c →
      (c.inv = none → exec (.tlbInvalidateControl ctx v) s = .next (s.startInv ctx v)) ∧
      (c.inv ≠ none → exec (.tlbInvalidateControl ctx v) s = .next (s.modCtx ctx fun c => { c with invs := c.invs ++ [v] }))) ∧
    exec .icacheInvalidateGo s = .next { s.bump with
      invals := s.invals ++ [⟨s.ids, none, (List.range 2592).filter fun c => !(s.die (dieOf c)).fenced⟩], icBusy := true } ∧
    (∀ i j v, pairExists i j = true → v.getLsbD 23 = false →
      (v.getLsbD 5 = true → s.relayTaken i j (v.extractLsb' 0 5).toNat = false → exec (.routingRegisterWrite i j v) s = .next s) ∧
      (v.getLsbD 5 = false ∨ s.relayTaken i j (v.extractLsb' 0 5).toNat = true → exec (.routingRegisterWrite i j v) s =
        .next (s.modPair i j fun p => { p with next := some (v.getLsbD 5, v.extractLsb' 0 5) }))) ∧
    (∀ i j v, pairExists i j = false → exec (.routingRegisterWrite i j v) s = .next s ∧ exec (.pairFaultCountClear i j) s = .next s) ∧
    (∀ i j, pairExists i j = true → exec (.pairFaultCountClear i j) s = .next (s.modPair i j fun p => { p with fcnt := 0#8 })) ∧
    (∀ port, exec (.syndromeClear port) s = .next { s with syndromes := vset s.syndromes port ⟨false, false, 0#8, 0#16, 0#16⟩ }) ∧
    (∀ n, n < 54 → (s.seq n).run = false → (s.die (n / 6)).fenced = false → s.stopped = false → exec (.sequencerStart n) s =
      .next (s.setSeq { s.seq n with pc := (s.seq n).spc, csp := 0#64, run := true, halted := false, status := .ready, handler := none, heldTrap := none, emul := false })) ∧
    (∀ n, (s.seq n).run = true → exec (.sequencerStart n) s = .next s)) ∧
  (∀ (s : State), s.groundRuns = true →
    (∀ die way, way.extractLsb' 0 16 = BitVec.allOnes 16 ∨ way.extractLsb' 0 16 = (s.die die).way →
      exec (.wayMaskWrite die way) s = .next s) ∧
    (∀ die way, way.extractLsb' 0 16 ≠ BitVec.allOnes 16 → way.extractLsb' 0 16 ≠ (s.die die).way → (s.die die).fenced = false →
      exec (.wayMaskWrite die way) s = .next
        ((if way.extractLsb' 0 16 &&& ~~~ (s.die die).way = 0#16 then s else s.evictAll die).modDie die fun d =>
          { d with way := way.extractLsb' 0 16, scratch := [], scratchPoison := [] }))) ∧
  (∀ (s : State), s.firmwareOpen = true → ∀ asg,
    ((s.switchCmds.filter fun c => c.st = 0#2).length < 16 → exec (.switchMatrixCommand asg) s =
      .next { s with switchCmds := s.switchCmds ++ [⟨asg, 0#8, 0#2⟩] }) ∧
    (16 ≤ (s.switchCmds.filter fun c => c.st = 0#2).length → exec (.switchMatrixCommand asg) s = .next s)) ∧
  (∀ (s : State), s.barOpen = false → ∀ off width v, off ≠ 0 → exec (.registerWrite off width v) s = .next s) ∧
  (∀ (s : State) (i j : Nat), s.onRoute i j = false → ∀ en relay, (s.pair i j).next = some (en, relay) →
    exec (.routeChangeEffect i j) s = .next (s.modPair i j fun p => { p with rlyen := en, relay := relay, next := none })) ∧
  (∀ (s : State) (i j : Nat), s.onRoute i j = true → exec (.routeChangeEffect i j) s = .next s) ∧
  (∀ (s : State) (i j plane : Nat), s.powered = true → pairExists i j = true → plane < 12 → (s.pair i j).railUp (plane / 6) = true →
    exec (.railLoss i j plane) s = .next { s.modPair i j fun p =>
        let q := p.setRail (plane / 6) false
        { q with fcnt := if q.fcnt = 255#8 then q.fcnt else q.fcnt + 1#8, lostAt := if q.up then q.lostAt else some s.tick } with
      studioNotices := s.studioNotices + 1 }) ∧
  (∀ (s : State) (i j rail : Nat), s.powered = true → pairExists i j = true → rail < 2 → s.railOut i j rail = false →
    exec (.railRelock i j rail) s = .next (s.modPair i j fun p => { p.setRail rail true with lostAt := none })) ∧
  (∀ (s : State) (i j t : Nat), s.awake = true → pairExists i j = true → (s.pair i j).lostAt = some t → t + 100000 ≤ s.tick →
    (s.pair i j).rlyen = false → (s.pair i j).next = none →
    (∀ e, [max i j, min i j].find? (fun e => decide (e ≤ 8)) = some e → (s.die e).alive = true →
      exec (.pairLossTimeout i j) s = .next (s.fence e 5#8 0#16)) ∧
    ([max i j, min i j].find? (fun e => decide (e ≤ 8)) = none → exec (.pairLossTimeout i j) s = .next (s.fatal i 5#8 0#16))) ∧
  (∀ (s : State), s.powered = true →
    (∀ port lane, port < 48 → (s.retrains.any fun r => r.lane = .utium port lane) = false →
      exec (.laneLossOfLock (.utium port lane)) s = .next { s with retrains := s.retrains ++ [⟨.utium port lane, 0⟩] }) ∧
    (∀ i j plane, pairExists i j = true → plane < 12 → (s.retrains.any fun r => r.lane = .router i j plane) = false →
      exec (.laneLossOfLock (.router i j plane)) s = .next { s.loseRail i j plane with retrains := s.retrains ++ [⟨.router i j plane, 0⟩] })) ∧
  (∀ (s : State) (lane : LaneName) (r : Retrain), s.retrains.find? (fun r => r.lane = lane) = some r → r.failures < 3 →
    exec (.retrainAttemptEnd lane true) s = .next { s with retrains := s.retrains.filter fun r => r.lane ≠ lane } ∧
    (r.failures < 2 → exec (.retrainAttemptEnd lane false) s = .next { s with
      retrains := replaceIf (fun (r : Retrain) => decide (r.lane = lane)) (fun (r : Retrain) => { r with failures := r.failures + 1 }) s.retrains })) ∧
  (∀ (s : State) (lane : LaneName), exec (.heaterRollover lane) s = .next s) ∧
  (∀ (s : State) (c : SwitchCmd) (t : Topology), s.awake = true → s.switchCmds.find? (fun c => c.st = 0#2) = some c → s.topology = some t →
    (∀ why, s.rejection t c.asg = some why → exec .switchCommandApplied s = .next { s with switchCmds := settleCmd why 2#2 s.switchCmds }) ∧
    (s.rejection t c.asg = none →
      let r := ({ s.light t c.asg with switchCmds := settleCmd 0#8 1#2 s.switchCmds }.settleRemotes s.remote).forgetCircuits
      exec .switchCommandApplied s = .next { r with epoch := r.epoch + 1#64 }))

/-- Errors, resets and the start (R260, R448, R449, R452, R453, R477, R478, R494 to R503): what poisons a sector, fences a die or ends every context; the whole-package reset, entered from its causes alone, which keeps the syndromes, `MODE`, the saved set and the failure counts; and a start, which runs its steps in order and fails at a step that fails or outlasts its limit. Rests on readings of the model: log 10, 12, 43 and 45. -/
def Obligations.ErrorsResetsAndStarts : Prop :=
  (∀ (s : State) (k : Nat), exec (.sectorPoison (.memory k)) s =
    .next { s with memPoison := insertNat k s.memPoison, studioNotices := s.studioNotices + 1 }) ∧
  (∀ (s : State) (d k : Nat) (x : Sector), (s.die d).sector? k = some x →
    (x.dirty = 0#128 → exec (.sectorPoison (.dieCopy d k)) s =
      .next (s.modDie d fun e => { e with cache := e.cache.filter fun y => y.key ≠ k })) ∧
    (x.dirty ≠ 0#128 → (s.die d).error = none → exec (.sectorPoison (.dieCopy d k)) s =
      .next (s.modDie d fun e => { e with error := e.error.or (some (2#8, BitVec.ofNat 16 (k / 4 % 32))) }))) ∧
  (∀ (s : State) (d k : Nat) (x : Sector), (s.die d).sector? k = some x → exec (.sectorPoison (.dieFill d k)) s =
    .next { s.modDie d fun e => e.setSector { x with poison := true } with studioNotices := s.studioNotices + 1 }) ∧
  (∀ (s : State) (d k : Nat), 128 * k < scratchSize (s.die d).way → exec (.sectorPoison (.dieScratch d k)) s =
    .next { s.modDie d fun e => { e with scratchPoison := insertNat k e.scratchPoison } with studioNotices := s.studioNotices + 1 }) ∧
  (∀ (s : State) (t k : Nat) (tm : Team), s.team? t = some tm → 128 * k < tm.winSize → tm.residence = .resident →
    exec (.sectorPoison (.window t k)) s =
      .next { s.modTeam t fun x => { x with winPoison := insertNat k x.winPoison } with studioNotices := s.studioNotices + 1 }) ∧
  (∀ (s : State) (chip : Nat), exec (.correctableError chip) s = .next (s.modChip chip fun c =>
    { c with cecnt := if c.cecnt = BitVec.allOnes 32 then c.cecnt else c.cecnt + 1#32 })) ∧
  (∀ (s : State) (die : Nat) (cls : Byte) (u : BitVec 16), (s.die die).alive = true → exec (.containedError die cls u) s =
    .next (s.modDie die fun d => { d with error := d.error.or (some (cls, u)) })) ∧
  (∀ (s : State) (die : Nat) (cls : Byte) (u : BitVec 16), (s.die die).alive = true → (s.die die).error = some (cls, u) →
    exec (.dieFence die) s = .next (s.fence die cls u)) ∧
  (∀ (s : State) (port : Nat) (cls : Byte) (u : BitVec 16), s.powered = true → port < 23 →
    exec (.uncontainedError port cls u) s = .next (s.fatal port cls u) ∧ (s.fatal port cls u).stopped = true) ∧
  (∀ (s : State), s.link0 = true →
    (s.link1 = true → exec .link0Down s = .next { s.endAll with link0 := false, reports := s.reports + 1 }) ∧
    (s.link1 = false → exec .link0Down s = .next { s with link0 := false })) ∧
  (∀ (s : State), let r := s.wholeReset
    r.ctxs = [] ∧ r.teams = [] ∧ r.launches = [] ∧ r.slots = [] ∧ r.queues = State.reset.queues ∧ r.cores = State.reset.cores ∧
    r.seqs = State.reset.seqs ∧ r.switchCmds = [] ∧ r.circuits = State.reset.circuits ∧ r.epoch = 0#64 ∧ r.stopped = false ∧
    r.start.ready = false ∧ r.start.phase = 0 ∧ r.start.safe = false ∧ r.syndromes = s.syndromes ∧ r.start.mode = s.start.mode ∧
    r.start.saved = s.start.saved ∧ r.start.gf = s.start.gf ∧ r.start.rf = s.start.rf) ∧
  (∀ (s : State), exec .powerOn s = .next { s.unpowered with powered := true } ∧ exec .powerRemoval s = .next s.unpowered ∧
    s.unpowered.start.mode = 0#2 ∧ s.unpowered.syndromes = State.reset.syndromes ∧ s.unpowered.powered = false) ∧
  (∀ (s : State), s.powered = true →
    exec .fundamentalReset s = .next s.wholeReset ∧ exec .groundWatchdogReset s = .next s.wholeReset ∧
    ((s.link0 = true ∨ s.link1 = true) → exec .rst s = .next s.wholeReset) ∧
    (s.start.failed = true → exec .startFailureReset s = .next s.wholeReset) ∧
    (s.start.failed = false → exec .startFailureReset s = .next s) ∧
    exec (.hostLinkTrained 0) s = .next { s with link0 := true } ∧ exec (.hostLinkTrained 1) s = .next { s with link1 := true } ∧
    (s.start.ready = true → exec .studioRestart s = .next (s.measureImage 1 s.flash.studio)) ∧
    (∀ nonce, s.start.ready = true → s.link0 = true → exec (.attestationRequest nonce) s =
      .next { s with attestation := s.reportBody nonce ++ (List.range 1280).map fun i => Config.signature (s.reportBody nonce) i }) ∧
    (1 ≤ s.start.phase → s.start.phase ≤ 8 → exec .startStepTimeout s = .next s.failStart) ∧
    (s.start.phase = 9 → exec .startStepTimeout s = .next s)) ∧
  (∀ (s : State) (good : Bool) (spare : Nat), s.powered = true → s.start.ready = false → s.start.safe = false → s.start.failed = false →
    (s.start.phase = 0 → exec (.start good spare) s = .next { s with start := { s.start with phase := 1, kind := s.retouches } }) ∧
    (s.start.phase ≠ 0 → (∀ r, s.startStep spare = some r → exec (.start true spare) s = .next r) ∧
      (s.startStep spare = none → exec (.start true spare) s = .next s.failStart) ∧ exec (.start false spare) s = .next s.failStart)) ∧
  (∀ (s : State), s.start.ready = true ∨ s.start.safe = true ∨ s.start.failed = true → ∀ good spare, exec (.start good spare) s = .next s) ∧
  (∀ (s : State), s.failStart.start.step = BitVec.ofNat 8 s.start.phase ∧ s.failStart.start.phase = 0 ∧
    (s.start.kind = true → s.failStart.start.rf = raise3 s.start.rf ∧ s.failStart.start.gf = s.start.gf ∧ s.failStart.start.safe = false) ∧
    (s.start.kind = false → s.failStart.start.gf = raise3 s.start.gf ∧ s.failStart.start.rf = s.start.rf ∧
      s.failStart.start.safe = decide (raise3 s.start.gf = 3#4))) ∧
  (∀ (s : State) (spare : Nat), s.start.phase = 8 → ∀ r, s.startStep spare = some r →
    r.ctxs = s.flash.provision.contexts.map Ctx.reset ∧ r.epoch = 0#64 ∧ r.termWord = (if spare % 9 = 0 then 1#64 else 0#64) ∧
    (∀ d : Fin 9, r.dies[d].spare = decide (d.val = spare % 9) ∧ r.dies[d].inService = decide (d.val ≠ spare % 9)) ∧ r.start.phase = 9) ∧
  (∀ (s : State) (spare : Nat), s.start.phase = 9 → ∀ r, s.startStep spare = some r →
    r.start.ready = true ∧ r.start.phase = 0 ∧ r.start.gf = 0#4 ∧ r.start.rf = 0#4)

/-! ## The invariant -/

/-- Every step keeps the invariant: after a step from a state whose byte memories are canonical and whose start is in a state that R495 to R498 allow, both hold again (R241, R495 to R498). Rests on readings of the model: log 9 and 45. -/
def Obligations.StepsKeepTheInvariant : Prop :=
  ∀ (s t : State), s.Inv → step s = .next t → t.Inv

/-! ## Values -/

/-- What `sdiv` and `srem` write, and what the integer operations compute, in terms of words of the type's width (R171 to R174, R178, R180, R184): sums, differences and products wrap, or saturate under `SAT`; quotients go toward zero, with the corners of a zero divisor; shifts, rotations and funnels by any amount; the order tests; a field taken from an interleaved word gives back its source; and a carry chain adds exactly. -/
def Obligations.IntegerResultsAreTheSpecifiedValues : Prop :=
  (∀ (w : Fields) (s : State) (x : Exec), (s.scalarSrc x w.a w.ty).2 = false → (s.scalarSrc x w.b w.ty).2 = false →
    let a := (s.scalarSrc x w.a w.ty).1
    let b := (s.scalarSrc x w.b w.ty).1
    (Issues s kindPlain 0x05#8 w x → (s.scalarSrc x w.c w.ty).2 = false →
      ∃ t, exec (.sdiv w) s = .next t ∧ regsBecome x (fun r => r.writeTo w.d w.ty (intDiv w.ty a b)) s t) ∧
    (Issues s kindPlain 0x06#8 w x → (s.scalarSrc x w.c w.ty).2 = false →
      ∃ t, exec (.srem w) s = .next t ∧ regsBecome x (fun r => r.writeTo w.d w.ty (intRem w.ty a b)) s t)) ∧
  (∀ (t : Ty) (md : BitVec 11) (x y z : BitVec t.width), mdNA md = false → mdNB md = false →
    (mdSAT md = false →
      intAdd t md x.toNat y.toNat = (x + y).toNat ∧ intSub t md x.toNat y.toNat = (x - y).toNat ∧
      intMul t md x.toNat y.toNat = (x * y).toNat ∧ intMad t md x.toNat y.toNat z.toNat = (x * y + z).toNat) ∧
    (mdSAT md = true → t.isSigned = true →
      intAdd t md x.toNat y.toNat = (BitVec.ofInt t.width (min (max (x.toInt + y.toInt) (loOf t)) (hiOf t))).toNat ∧
      intSub t md x.toNat y.toNat = (BitVec.ofInt t.width (min (max (x.toInt - y.toInt) (loOf t)) (hiOf t))).toNat ∧
      intMad t md x.toNat y.toNat z.toNat = (BitVec.ofInt t.width (min (max (x.toInt * y.toInt + z.toInt) (loOf t)) (hiOf t))).toNat)) ∧
  (∀ (t : Ty) (x y : BitVec t.width), t.isSigned = true →
    intDiv t x.toNat y.toNat = (if y = 0#_ then 2 ^ t.width - 1 else (x.sdiv y).toNat) ∧
    intRem t x.toNat y.toNat = (if y = 0#_ then x.toNat else (x.srem y).toNat) ∧
    intTest t 2 x.toNat y.toNat = x.slt y ∧ intTest t 3 x.toNat y.toNat = x.sle y ∧
    intTest t 4 x.toNat y.toNat = y.slt x ∧ intTest t 5 x.toNat y.toNat = y.sle x ∧
    intMin t x.toNat y.toNat = (if x.sle y then x else y).toNat ∧ intMax t x.toNat y.toNat = (if y.sle x then x else y).toNat) ∧
  (∀ (t : Ty) (x y : BitVec t.width), t.isSigned = false →
    intDiv t x.toNat y.toNat = (if y = 0#_ then 2 ^ t.width - 1 else (x / y).toNat) ∧
    intRem t x.toNat y.toNat = (if y = 0#_ then x.toNat else (x % y).toNat) ∧
    intTest t 2 x.toNat y.toNat = x.ult y ∧ intTest t 3 x.toNat y.toNat = x.ule y ∧
    intMin t x.toNat y.toNat = (if x ≤ y then x else y).toNat ∧ intMax t x.toNat y.toNat = (if y ≤ x then x else y).toNat) ∧
  (∀ (w : Nat) (x y : BitVec w) (c : Nat), 0 < w →
    bitShl w x.toNat c = (x <<< c).toNat ∧ bitShr w x.toNat c = (x >>> c).toNat ∧ bitSar w x.toNat c = (x.sshiftRight c).toNat ∧
    bitRot w x.toNat c = (x.rotateLeft c).toNat ∧ bitFunnel w x.toNat y.toNat c = (((x ++ y) >>> (c % w)).extractLsb' 0 w).toNat ∧
    bitAndn w x.toNat y.toNat = (x &&& ~~~ y).toNat ∧ bitBrev w x.toNat = x.reverse.toNat) ∧
  (∀ (w a b c : Nat),
    bitGather w 0 (bitInterleave w 2 a b c) = a % 2 ^ ((w + 1) / 2) ∧ bitGather w 1 (bitInterleave w 2 a b c) = b % 2 ^ (w / 2) ∧
    bitGather w 2 (bitInterleave w 3 a b c) = a % 2 ^ ((w + 2) / 3) ∧ bitGather w 3 (bitInterleave w 3 a b c) = b % 2 ^ ((w + 1) / 3) ∧
    bitGather w 4 (bitInterleave w 3 a b c) = c % 2 ^ (w / 3)) ∧
  (∀ (w a b : Nat) (cin : Bool), a < 2 ^ w → b < 2 ^ w →
    (let r := intAddc w 0 a b cin
     r.1 < 2 ^ w ∧ r.1 + 2 ^ w * r.2.toNat = a + b + cin.toNat) ∧
    (let r := intAddc w 1 a b cin
     r.1 < 2 ^ w ∧ r.1 + b + cin.toNat = a + 2 ^ w * r.2.toNat))

/-- Frame of a weak load of pages that the die may cache (R243, R244, R249, R302, R306): it completes, and the memory side, the poison of its sectors, the die scratch, every byte that waits in a die's cache to be written back, the windows of the teams and the remote operations are what they were. Rests on readings of the model: log 4. -/
def Obligations.CachedLoadsChangeNoByte : Prop :=
  ∀ (i : Instr) (w : Fields) (op : BitVec 8) (s : State) (x : Exec) (v : Gang) (s1 : State) (as : List (Point × Access)),
    (i = .ld w ∧ op = 0x80#8) ∨ (i = .ldg w ∧ op = 0x8E#8) →
    Issues s (kindMem false true) op w x → x.seq = false → s.gang? x.t x.g = some v → w.fn ≠ 1#4 → mdOrder w.md = 0#2 →
    ((moveOn x 16 s).env x (v.moved x 16)).accesses (moveOn x 16 s) accRead (mdBytes w.md) (mdBytes w.md) [] = (s1, .ok as) →
    (∀ p ∈ as, s1.awaitsOwn x p.2 = false) → (∀ p ∈ as, p.2.cp ≠ 2#2) →
    ∃ t, exec i s = .next t ∧ t.mem = s.mem ∧ t.memPoison = s.memPoison ∧ t.remote = s.remote ∧
      (∀ d, (t.die d).scratch = (s.die d).scratch) ∧
      (∀ d k z, (s.die d).sector? k = some z → ∃ z', (t.die d).sector? k = some z' ∧ z'.dirty = z.dirty ∧
        ∀ n < 128, z.dirty.getLsbD n = true → byteOf z'.data n = byteOf z.data n) ∧
      (∀ d k z', (t.die d).sector? k = some z' → (s.die d).sector? k = none → z'.dirty = 0#128) ∧
      t.teams.map (fun y => (y.tid, y.window, y.winPoison)) = s.teams.map (fun y => (y.tid, y.window, y.winPoison))

/-- Frame and result of a weak store to global pages of this module that the die may cache (R243, R249, R268, R303, R307): it completes, the memory side does not change, every byte outside the stored ones reads on every die as before, and a lane's bytes that no other lane stores to read on the issuing die as the lane's data. The addresses are those of the accesses that the checks give. Rests on readings of the model: log 4. -/
def Obligations.CachedStoresWriteTheirBytesOnly : Prop :=
  ∀ (i : Instr) (w : Fields) (op : BitVec 8) (s : State) (x : Exec) (v : Gang) (s1 : State) (as : List (Point × Access)),
    (i = .st w ∧ op = 0x81#8) ∨ (i = .stg w ∧ op = 0x8F#8) →
    Issues s (kindMem false false) op w x → x.seq = false → s.gang? x.t x.g = some v → mdOrder w.md = 0#2 →
    let m := moveOn x 16 s
    let e := m.env x (v.moved x 16)
    let size := mdBytes w.md
    let d := e.data w.c size
    e.accesses m accWrite size size [(w.c, d.poison)] = (s1, .ok as) →
    (∀ p ∈ as, p.2.peer = none ∧ regionOf p.2.pa = .global ∧ p.2.cp ≠ 2#2 ∧ p.2.pa % 128 + size ≤ 128 ∧
      ∀ z, (s.die x.die).sector? (p.2.pa / 128) = some z → z.shared = p.2.shared) →
    ∃ t, exec i s = .next t ∧ t.mem = s.mem ∧ t.memPoison = s.memPoison ∧
      (∀ n, (t.die n).scratch = (s.die n).scratch) ∧
      (∀ n a, (∀ p ∈ as, a < p.2.pa ∨ p.2.pa + size ≤ a) → t.dieByte n a = s.dieByte n a) ∧
      (∀ p ∈ as, (∀ q ∈ as, q ≠ p → q.2.pa + size ≤ p.2.pa ∨ p.2.pa + size ≤ q.2.pa) → x.die < 9 →
        ∀ k < size, t.dieByte x.die (p.2.pa + k) = BitVec.ofNat 8 (d.val (Fin.ofNat 32 p.1.lane) / 256 ^ k))

/-- What is stored is read back (R242, R243, R249, R267, R384): after a clean write of the bytes of an access to this module, the same access reads the number that was written, whatever the page's policy, the access's order and scope, and the copies that the die and the core hold. Rests on readings of the model: log 4 and 9. -/
def Obligations.StoredNumbersAreReadBack : Prop :=
  ∀ (s : State) (a : Access) (v : Nat), s.tidy → a.peer = none → a.die < 9 → a.pa % 128 + a.size ≤ 128 →
    (((s.write a a.mask (a.lay v) false).read a).2.1) = v % 2 ^ (8 * a.size)

/-- A read that no L1 line and no fill of one serves takes the bytes that its die sees, and a read that resolves at the memory side takes the bytes of the memory side after the die's own have been written back (R243, R244, R249, R250, R267). Rests on readings of the model: log 4 and 49. -/
def Obligations.ReadsTakeTheBytesOfTheirPoint : Prop :=
  ∀ (s : State) (a : Access) (k : Nat), a.peer = none → a.die < 9 → regionOf a.pa ≠ .scratch → a.pa % 128 + a.size ≤ 128 → k < a.size →
    (a.aside = true →
      BitVec.ofNat 8 ((s.read a).2.1 / 256 ^ k) = memGet (s.writeBack a.die (a.pa / 128)).mem (a.pa + k)) ∧
    (a.aside = false → (∀ z, (s.die a.die).sector? (a.pa / 128) = some z → z.shared = a.shared) →
      (∀ c, a.core = some c → (s.core c).l1.find? (fun l => l.key = a.pa / 128) = none ∧
        (s.core c).misses.find? (fun m => m.shares (a.pa / 128) a.who s.tick s.free) = none) →
      BitVec.ofNat 8 ((s.read a).2.1 / 256 ^ k) = s.dieByte a.die (a.pa + k))
end

