-- ==== Sys2Proof/Laws/State.lean ====
section
/-! SUPPORT. What each named update of the state leaves unchanged, field by field. -/

namespace Sys2Proof.Machine

/-! ## `modTeam` -/

@[simp] theorem State.modTeam_ensembles (s : State) (t : Nat) (f : Team → Team) : (s.modTeam t f).ensembles = s.ensembles := rfl
@[simp] theorem State.modTeam_launches (s : State) (t : Nat) (f : Team → Team) : (s.modTeam t f).launches = s.launches := rfl
@[simp] theorem State.modTeam_cores (s : State) (t : Nat) (f : Team → Team) : (s.modTeam t f).cores = s.cores := rfl
@[simp] theorem State.modTeam_seqs (s : State) (t : Nat) (f : Team → Team) : (s.modTeam t f).seqs = s.seqs := rfl
@[simp] theorem State.modTeam_dies (s : State) (t : Nat) (f : Team → Team) : (s.modTeam t f).dies = s.dies := rfl
@[simp] theorem State.modTeam_chips (s : State) (t : Nat) (f : Team → Team) : (s.modTeam t f).chips = s.chips := rfl
@[simp] theorem State.modTeam_mem (s : State) (t : Nat) (f : Team → Team) : (s.modTeam t f).mem = s.mem := rfl
@[simp] theorem State.modTeam_memPoison (s : State) (t : Nat) (f : Team → Team) : (s.modTeam t f).memPoison = s.memPoison := rfl
@[simp] theorem State.modTeam_remote (s : State) (t : Nat) (f : Team → Team) : (s.modTeam t f).remote = s.remote := rfl
@[simp] theorem State.modTeam_lostWrites (s : State) (t : Nat) (f : Team → Team) : (s.modTeam t f).lostWrites = s.lostWrites := rfl
@[simp] theorem State.modTeam_promotions (s : State) (t : Nat) (f : Team → Team) : (s.modTeam t f).promotions = s.promotions := rfl
@[simp] theorem State.modTeam_parkWaiters (s : State) (t : Nat) (f : Team → Team) : (s.modTeam t f).parkWaiters = s.parkWaiters := rfl
@[simp] theorem State.modTeam_invals (s : State) (t : Nat) (f : Team → Team) : (s.modTeam t f).invals = s.invals := rfl
@[simp] theorem State.modTeam_packets (s : State) (t : Nat) (f : Team → Team) : (s.modTeam t f).packets = s.packets := rfl
@[simp] theorem State.modTeam_zsc (s : State) (t : Nat) (f : Team → Team) : (s.modTeam t f).zsc = s.zsc := rfl
@[simp] theorem State.modTeam_posts (s : State) (t : Nat) (f : Team → Team) : (s.modTeam t f).posts = s.posts := rfl
@[simp] theorem State.modTeam_tick (s : State) (t : Nat) (f : Team → Team) : (s.modTeam t f).tick = s.tick := rfl
@[simp] theorem State.modTeam_epoch (s : State) (t : Nat) (f : Team → Team) : (s.modTeam t f).epoch = s.epoch := rfl
@[simp] theorem State.modTeam_circuits (s : State) (t : Nat) (f : Team → Team) : (s.modTeam t f).circuits = s.circuits := rfl
@[simp] theorem State.modTeam_pairs (s : State) (t : Nat) (f : Team → Team) : (s.modTeam t f).pairs = s.pairs := rfl
@[simp] theorem State.modTeam_switchCmds (s : State) (t : Nat) (f : Team → Team) : (s.modTeam t f).switchCmds = s.switchCmds := rfl
@[simp] theorem State.modTeam_assignment (s : State) (t : Nat) (f : Team → Team) : (s.modTeam t f).assignment = s.assignment := rfl
@[simp] theorem State.modTeam_topology (s : State) (t : Nat) (f : Team → Team) : (s.modTeam t f).topology = s.topology := rfl
@[simp] theorem State.modTeam_syndromes (s : State) (t : Nat) (f : Team → Team) : (s.modTeam t f).syndromes = s.syndromes := rfl
@[simp] theorem State.modTeam_queues (s : State) (t : Nat) (f : Team → Team) : (s.modTeam t f).queues = s.queues := rfl
@[simp] theorem State.modTeam_slots (s : State) (t : Nat) (f : Team → Team) : (s.modTeam t f).slots = s.slots := rfl
@[simp] theorem State.modTeam_ctxs (s : State) (t : Nat) (f : Team → Team) : (s.modTeam t f).ctxs = s.ctxs := rfl
@[simp] theorem State.modTeam_reservations (s : State) (t : Nat) (f : Team → Team) : (s.modTeam t f).reservations = s.reservations := rfl
@[simp] theorem State.modTeam_registrations (s : State) (t : Nat) (f : Team → Team) : (s.modTeam t f).registrations = s.registrations := rfl
@[simp] theorem State.modTeam_fabricOut (s : State) (t : Nat) (f : Team → Team) : (s.modTeam t f).fabricOut = s.fabricOut := rfl
@[simp] theorem State.modTeam_fabricNext (s : State) (t : Nat) (f : Team → Team) : (s.modTeam t f).fabricNext = s.fabricNext := rfl
@[simp] theorem State.modTeam_fabricRing (s : State) (t : Nat) (f : Team → Team) : (s.modTeam t f).fabricRing = s.fabricRing := rfl
@[simp] theorem State.modTeam_fabricWaiting (s : State) (t : Nat) (f : Team → Team) : (s.modTeam t f).fabricWaiting = s.fabricWaiting := rfl
@[simp] theorem State.modTeam_eth (s : State) (t : Nat) (f : Team → Team) : (s.modTeam t f).eth = s.eth := rfl
@[simp] theorem State.modTeam_retrains (s : State) (t : Nat) (f : Team → Team) : (s.modTeam t f).retrains = s.retrains := rfl
@[simp] theorem State.modTeam_deadPorts (s : State) (t : Nat) (f : Team → Team) : (s.modTeam t f).deadPorts = s.deadPorts := rfl
@[simp] theorem State.modTeam_link0 (s : State) (t : Nat) (f : Team → Team) : (s.modTeam t f).link0 = s.link0 := rfl
@[simp] theorem State.modTeam_link1 (s : State) (t : Nat) (f : Team → Team) : (s.modTeam t f).link1 = s.link1 := rfl
@[simp] theorem State.modTeam_hostReply (s : State) (t : Nat) (f : Team → Team) : (s.modTeam t f).hostReply = s.hostReply := rfl
@[simp] theorem State.modTeam_reports (s : State) (t : Nat) (f : Team → Team) : (s.modTeam t f).reports = s.reports := rfl
@[simp] theorem State.modTeam_studioNotices (s : State) (t : Nat) (f : Team → Team) : (s.modTeam t f).studioNotices = s.studioNotices := rfl
@[simp] theorem State.modTeam_attestation (s : State) (t : Nat) (f : Team → Team) : (s.modTeam t f).attestation = s.attestation := rfl
@[simp] theorem State.modTeam_termWord (s : State) (t : Nat) (f : Team → Team) : (s.modTeam t f).termWord = s.termWord := rfl
@[simp] theorem State.modTeam_start (s : State) (t : Nat) (f : Team → Team) : (s.modTeam t f).start = s.start := rfl
@[simp] theorem State.modTeam_measures (s : State) (t : Nat) (f : Team → Team) : (s.modTeam t f).measures = s.measures := rfl
@[simp] theorem State.modTeam_flash (s : State) (t : Nat) (f : Team → Team) : (s.modTeam t f).flash = s.flash := rfl
@[simp] theorem State.modTeam_icBusy (s : State) (t : Nat) (f : Team → Team) : (s.modTeam t f).icBusy = s.icBusy := rfl
@[simp] theorem State.modTeam_powered (s : State) (t : Nat) (f : Team → Team) : (s.modTeam t f).powered = s.powered := rfl
@[simp] theorem State.modTeam_stopped (s : State) (t : Nat) (f : Team → Team) : (s.modTeam t f).stopped = s.stopped := rfl
@[simp] theorem State.modTeam_agenda (s : State) (t : Nat) (f : Team → Team) : (s.modTeam t f).agenda = s.agenda := rfl
@[simp] theorem State.modTeam_cur (s : State) (t : Nat) (f : Team → Team) : (s.modTeam t f).cur = s.cur := rfl
@[simp] theorem State.modTeam_free (s : State) (t : Nat) (f : Team → Team) : (s.modTeam t f).free = s.free := rfl
@[simp] theorem State.modTeam_ids (s : State) (t : Nat) (f : Team → Team) : (s.modTeam t f).ids = s.ids := rfl

/-! ## `setGang` -/

@[simp] theorem State.setGang_ensembles (s : State) (t g : Nat) (v : Gang) : (s.setGang t g v).ensembles = s.ensembles := rfl
@[simp] theorem State.setGang_launches (s : State) (t g : Nat) (v : Gang) : (s.setGang t g v).launches = s.launches := rfl
@[simp] theorem State.setGang_cores (s : State) (t g : Nat) (v : Gang) : (s.setGang t g v).cores = s.cores := rfl
@[simp] theorem State.setGang_seqs (s : State) (t g : Nat) (v : Gang) : (s.setGang t g v).seqs = s.seqs := rfl
@[simp] theorem State.setGang_dies (s : State) (t g : Nat) (v : Gang) : (s.setGang t g v).dies = s.dies := rfl
@[simp] theorem State.setGang_chips (s : State) (t g : Nat) (v : Gang) : (s.setGang t g v).chips = s.chips := rfl
@[simp] theorem State.setGang_mem (s : State) (t g : Nat) (v : Gang) : (s.setGang t g v).mem = s.mem := rfl
@[simp] theorem State.setGang_memPoison (s : State) (t g : Nat) (v : Gang) : (s.setGang t g v).memPoison = s.memPoison := rfl
@[simp] theorem State.setGang_remote (s : State) (t g : Nat) (v : Gang) : (s.setGang t g v).remote = s.remote := rfl
@[simp] theorem State.setGang_lostWrites (s : State) (t g : Nat) (v : Gang) : (s.setGang t g v).lostWrites = s.lostWrites := rfl
@[simp] theorem State.setGang_promotions (s : State) (t g : Nat) (v : Gang) : (s.setGang t g v).promotions = s.promotions := rfl
@[simp] theorem State.setGang_parkWaiters (s : State) (t g : Nat) (v : Gang) : (s.setGang t g v).parkWaiters = s.parkWaiters := rfl
@[simp] theorem State.setGang_invals (s : State) (t g : Nat) (v : Gang) : (s.setGang t g v).invals = s.invals := rfl
@[simp] theorem State.setGang_packets (s : State) (t g : Nat) (v : Gang) : (s.setGang t g v).packets = s.packets := rfl
@[simp] theorem State.setGang_zsc (s : State) (t g : Nat) (v : Gang) : (s.setGang t g v).zsc = s.zsc := rfl
@[simp] theorem State.setGang_posts (s : State) (t g : Nat) (v : Gang) : (s.setGang t g v).posts = s.posts := rfl
@[simp] theorem State.setGang_tick (s : State) (t g : Nat) (v : Gang) : (s.setGang t g v).tick = s.tick := rfl
@[simp] theorem State.setGang_epoch (s : State) (t g : Nat) (v : Gang) : (s.setGang t g v).epoch = s.epoch := rfl
@[simp] theorem State.setGang_circuits (s : State) (t g : Nat) (v : Gang) : (s.setGang t g v).circuits = s.circuits := rfl
@[simp] theorem State.setGang_pairs (s : State) (t g : Nat) (v : Gang) : (s.setGang t g v).pairs = s.pairs := rfl
@[simp] theorem State.setGang_switchCmds (s : State) (t g : Nat) (v : Gang) : (s.setGang t g v).switchCmds = s.switchCmds := rfl
@[simp] theorem State.setGang_assignment (s : State) (t g : Nat) (v : Gang) : (s.setGang t g v).assignment = s.assignment := rfl
@[simp] theorem State.setGang_topology (s : State) (t g : Nat) (v : Gang) : (s.setGang t g v).topology = s.topology := rfl
@[simp] theorem State.setGang_syndromes (s : State) (t g : Nat) (v : Gang) : (s.setGang t g v).syndromes = s.syndromes := rfl
@[simp] theorem State.setGang_queues (s : State) (t g : Nat) (v : Gang) : (s.setGang t g v).queues = s.queues := rfl
@[simp] theorem State.setGang_slots (s : State) (t g : Nat) (v : Gang) : (s.setGang t g v).slots = s.slots := rfl
@[simp] theorem State.setGang_ctxs (s : State) (t g : Nat) (v : Gang) : (s.setGang t g v).ctxs = s.ctxs := rfl
@[simp] theorem State.setGang_reservations (s : State) (t g : Nat) (v : Gang) : (s.setGang t g v).reservations = s.reservations := rfl
@[simp] theorem State.setGang_registrations (s : State) (t g : Nat) (v : Gang) : (s.setGang t g v).registrations = s.registrations := rfl
@[simp] theorem State.setGang_fabricOut (s : State) (t g : Nat) (v : Gang) : (s.setGang t g v).fabricOut = s.fabricOut := rfl
@[simp] theorem State.setGang_fabricNext (s : State) (t g : Nat) (v : Gang) : (s.setGang t g v).fabricNext = s.fabricNext := rfl
@[simp] theorem State.setGang_fabricRing (s : State) (t g : Nat) (v : Gang) : (s.setGang t g v).fabricRing = s.fabricRing := rfl
@[simp] theorem State.setGang_fabricWaiting (s : State) (t g : Nat) (v : Gang) : (s.setGang t g v).fabricWaiting = s.fabricWaiting := rfl
@[simp] theorem State.setGang_eth (s : State) (t g : Nat) (v : Gang) : (s.setGang t g v).eth = s.eth := rfl
@[simp] theorem State.setGang_retrains (s : State) (t g : Nat) (v : Gang) : (s.setGang t g v).retrains = s.retrains := rfl
@[simp] theorem State.setGang_deadPorts (s : State) (t g : Nat) (v : Gang) : (s.setGang t g v).deadPorts = s.deadPorts := rfl
@[simp] theorem State.setGang_link0 (s : State) (t g : Nat) (v : Gang) : (s.setGang t g v).link0 = s.link0 := rfl
@[simp] theorem State.setGang_link1 (s : State) (t g : Nat) (v : Gang) : (s.setGang t g v).link1 = s.link1 := rfl
@[simp] theorem State.setGang_hostReply (s : State) (t g : Nat) (v : Gang) : (s.setGang t g v).hostReply = s.hostReply := rfl
@[simp] theorem State.setGang_reports (s : State) (t g : Nat) (v : Gang) : (s.setGang t g v).reports = s.reports := rfl
@[simp] theorem State.setGang_studioNotices (s : State) (t g : Nat) (v : Gang) : (s.setGang t g v).studioNotices = s.studioNotices := rfl
@[simp] theorem State.setGang_attestation (s : State) (t g : Nat) (v : Gang) : (s.setGang t g v).attestation = s.attestation := rfl
@[simp] theorem State.setGang_termWord (s : State) (t g : Nat) (v : Gang) : (s.setGang t g v).termWord = s.termWord := rfl
@[simp] theorem State.setGang_start (s : State) (t g : Nat) (v : Gang) : (s.setGang t g v).start = s.start := rfl
@[simp] theorem State.setGang_measures (s : State) (t g : Nat) (v : Gang) : (s.setGang t g v).measures = s.measures := rfl
@[simp] theorem State.setGang_flash (s : State) (t g : Nat) (v : Gang) : (s.setGang t g v).flash = s.flash := rfl
@[simp] theorem State.setGang_icBusy (s : State) (t g : Nat) (v : Gang) : (s.setGang t g v).icBusy = s.icBusy := rfl
@[simp] theorem State.setGang_powered (s : State) (t g : Nat) (v : Gang) : (s.setGang t g v).powered = s.powered := rfl
@[simp] theorem State.setGang_stopped (s : State) (t g : Nat) (v : Gang) : (s.setGang t g v).stopped = s.stopped := rfl
@[simp] theorem State.setGang_agenda (s : State) (t g : Nat) (v : Gang) : (s.setGang t g v).agenda = s.agenda := rfl
@[simp] theorem State.setGang_cur (s : State) (t g : Nat) (v : Gang) : (s.setGang t g v).cur = s.cur := rfl
@[simp] theorem State.setGang_free (s : State) (t g : Nat) (v : Gang) : (s.setGang t g v).free = s.free := rfl
@[simp] theorem State.setGang_ids (s : State) (t g : Nat) (v : Gang) : (s.setGang t g v).ids = s.ids := rfl

/-! ## `modGang` -/

@[simp] theorem State.modGang_ensembles (s : State) (t g : Nat) (f : Gang → Gang) : (s.modGang t g f).ensembles = s.ensembles := rfl
@[simp] theorem State.modGang_launches (s : State) (t g : Nat) (f : Gang → Gang) : (s.modGang t g f).launches = s.launches := rfl
@[simp] theorem State.modGang_cores (s : State) (t g : Nat) (f : Gang → Gang) : (s.modGang t g f).cores = s.cores := rfl
@[simp] theorem State.modGang_seqs (s : State) (t g : Nat) (f : Gang → Gang) : (s.modGang t g f).seqs = s.seqs := rfl
@[simp] theorem State.modGang_dies (s : State) (t g : Nat) (f : Gang → Gang) : (s.modGang t g f).dies = s.dies := rfl
@[simp] theorem State.modGang_chips (s : State) (t g : Nat) (f : Gang → Gang) : (s.modGang t g f).chips = s.chips := rfl
@[simp] theorem State.modGang_mem (s : State) (t g : Nat) (f : Gang → Gang) : (s.modGang t g f).mem = s.mem := rfl
@[simp] theorem State.modGang_memPoison (s : State) (t g : Nat) (f : Gang → Gang) : (s.modGang t g f).memPoison = s.memPoison := rfl
@[simp] theorem State.modGang_remote (s : State) (t g : Nat) (f : Gang → Gang) : (s.modGang t g f).remote = s.remote := rfl
@[simp] theorem State.modGang_lostWrites (s : State) (t g : Nat) (f : Gang → Gang) : (s.modGang t g f).lostWrites = s.lostWrites := rfl
@[simp] theorem State.modGang_promotions (s : State) (t g : Nat) (f : Gang → Gang) : (s.modGang t g f).promotions = s.promotions := rfl
@[simp] theorem State.modGang_parkWaiters (s : State) (t g : Nat) (f : Gang → Gang) : (s.modGang t g f).parkWaiters = s.parkWaiters := rfl
@[simp] theorem State.modGang_invals (s : State) (t g : Nat) (f : Gang → Gang) : (s.modGang t g f).invals = s.invals := rfl
@[simp] theorem State.modGang_packets (s : State) (t g : Nat) (f : Gang → Gang) : (s.modGang t g f).packets = s.packets := rfl
@[simp] theorem State.modGang_zsc (s : State) (t g : Nat) (f : Gang → Gang) : (s.modGang t g f).zsc = s.zsc := rfl
@[simp] theorem State.modGang_posts (s : State) (t g : Nat) (f : Gang → Gang) : (s.modGang t g f).posts = s.posts := rfl
@[simp] theorem State.modGang_tick (s : State) (t g : Nat) (f : Gang → Gang) : (s.modGang t g f).tick = s.tick := rfl
@[simp] theorem State.modGang_epoch (s : State) (t g : Nat) (f : Gang → Gang) : (s.modGang t g f).epoch = s.epoch := rfl
@[simp] theorem State.modGang_circuits (s : State) (t g : Nat) (f : Gang → Gang) : (s.modGang t g f).circuits = s.circuits := rfl
@[simp] theorem State.modGang_pairs (s : State) (t g : Nat) (f : Gang → Gang) : (s.modGang t g f).pairs = s.pairs := rfl
@[simp] theorem State.modGang_switchCmds (s : State) (t g : Nat) (f : Gang → Gang) : (s.modGang t g f).switchCmds = s.switchCmds := rfl
@[simp] theorem State.modGang_assignment (s : State) (t g : Nat) (f : Gang → Gang) : (s.modGang t g f).assignment = s.assignment := rfl
@[simp] theorem State.modGang_topology (s : State) (t g : Nat) (f : Gang → Gang) : (s.modGang t g f).topology = s.topology := rfl
@[simp] theorem State.modGang_syndromes (s : State) (t g : Nat) (f : Gang → Gang) : (s.modGang t g f).syndromes = s.syndromes := rfl
@[simp] theorem State.modGang_queues (s : State) (t g : Nat) (f : Gang → Gang) : (s.modGang t g f).queues = s.queues := rfl
@[simp] theorem State.modGang_slots (s : State) (t g : Nat) (f : Gang → Gang) : (s.modGang t g f).slots = s.slots := rfl
@[simp] theorem State.modGang_ctxs (s : State) (t g : Nat) (f : Gang → Gang) : (s.modGang t g f).ctxs = s.ctxs := rfl
@[simp] theorem State.modGang_reservations (s : State) (t g : Nat) (f : Gang → Gang) : (s.modGang t g f).reservations = s.reservations := rfl
@[simp] theorem State.modGang_registrations (s : State) (t g : Nat) (f : Gang → Gang) : (s.modGang t g f).registrations = s.registrations := rfl
@[simp] theorem State.modGang_fabricOut (s : State) (t g : Nat) (f : Gang → Gang) : (s.modGang t g f).fabricOut = s.fabricOut := rfl
@[simp] theorem State.modGang_fabricNext (s : State) (t g : Nat) (f : Gang → Gang) : (s.modGang t g f).fabricNext = s.fabricNext := rfl
@[simp] theorem State.modGang_fabricRing (s : State) (t g : Nat) (f : Gang → Gang) : (s.modGang t g f).fabricRing = s.fabricRing := rfl
@[simp] theorem State.modGang_fabricWaiting (s : State) (t g : Nat) (f : Gang → Gang) : (s.modGang t g f).fabricWaiting = s.fabricWaiting := rfl
@[simp] theorem State.modGang_eth (s : State) (t g : Nat) (f : Gang → Gang) : (s.modGang t g f).eth = s.eth := rfl
@[simp] theorem State.modGang_retrains (s : State) (t g : Nat) (f : Gang → Gang) : (s.modGang t g f).retrains = s.retrains := rfl
@[simp] theorem State.modGang_deadPorts (s : State) (t g : Nat) (f : Gang → Gang) : (s.modGang t g f).deadPorts = s.deadPorts := rfl
@[simp] theorem State.modGang_link0 (s : State) (t g : Nat) (f : Gang → Gang) : (s.modGang t g f).link0 = s.link0 := rfl
@[simp] theorem State.modGang_link1 (s : State) (t g : Nat) (f : Gang → Gang) : (s.modGang t g f).link1 = s.link1 := rfl
@[simp] theorem State.modGang_hostReply (s : State) (t g : Nat) (f : Gang → Gang) : (s.modGang t g f).hostReply = s.hostReply := rfl
@[simp] theorem State.modGang_reports (s : State) (t g : Nat) (f : Gang → Gang) : (s.modGang t g f).reports = s.reports := rfl
@[simp] theorem State.modGang_studioNotices (s : State) (t g : Nat) (f : Gang → Gang) : (s.modGang t g f).studioNotices = s.studioNotices := rfl
@[simp] theorem State.modGang_attestation (s : State) (t g : Nat) (f : Gang → Gang) : (s.modGang t g f).attestation = s.attestation := rfl
@[simp] theorem State.modGang_termWord (s : State) (t g : Nat) (f : Gang → Gang) : (s.modGang t g f).termWord = s.termWord := rfl
@[simp] theorem State.modGang_start (s : State) (t g : Nat) (f : Gang → Gang) : (s.modGang t g f).start = s.start := rfl
@[simp] theorem State.modGang_measures (s : State) (t g : Nat) (f : Gang → Gang) : (s.modGang t g f).measures = s.measures := rfl
@[simp] theorem State.modGang_flash (s : State) (t g : Nat) (f : Gang → Gang) : (s.modGang t g f).flash = s.flash := rfl
@[simp] theorem State.modGang_icBusy (s : State) (t g : Nat) (f : Gang → Gang) : (s.modGang t g f).icBusy = s.icBusy := rfl
@[simp] theorem State.modGang_powered (s : State) (t g : Nat) (f : Gang → Gang) : (s.modGang t g f).powered = s.powered := rfl
@[simp] theorem State.modGang_stopped (s : State) (t g : Nat) (f : Gang → Gang) : (s.modGang t g f).stopped = s.stopped := rfl
@[simp] theorem State.modGang_agenda (s : State) (t g : Nat) (f : Gang → Gang) : (s.modGang t g f).agenda = s.agenda := rfl
@[simp] theorem State.modGang_cur (s : State) (t g : Nat) (f : Gang → Gang) : (s.modGang t g f).cur = s.cur := rfl
@[simp] theorem State.modGang_free (s : State) (t g : Nat) (f : Gang → Gang) : (s.modGang t g f).free = s.free := rfl
@[simp] theorem State.modGang_ids (s : State) (t g : Nat) (f : Gang → Gang) : (s.modGang t g f).ids = s.ids := rfl

/-! ## `setSeq` -/

@[simp] theorem State.setSeq_teams (s : State) (v : Seq) : (s.setSeq v).teams = s.teams := rfl
@[simp] theorem State.setSeq_ensembles (s : State) (v : Seq) : (s.setSeq v).ensembles = s.ensembles := rfl
@[simp] theorem State.setSeq_launches (s : State) (v : Seq) : (s.setSeq v).launches = s.launches := rfl
@[simp] theorem State.setSeq_cores (s : State) (v : Seq) : (s.setSeq v).cores = s.cores := rfl
@[simp] theorem State.setSeq_dies (s : State) (v : Seq) : (s.setSeq v).dies = s.dies := rfl
@[simp] theorem State.setSeq_chips (s : State) (v : Seq) : (s.setSeq v).chips = s.chips := rfl
@[simp] theorem State.setSeq_mem (s : State) (v : Seq) : (s.setSeq v).mem = s.mem := rfl
@[simp] theorem State.setSeq_memPoison (s : State) (v : Seq) : (s.setSeq v).memPoison = s.memPoison := rfl
@[simp] theorem State.setSeq_remote (s : State) (v : Seq) : (s.setSeq v).remote = s.remote := rfl
@[simp] theorem State.setSeq_lostWrites (s : State) (v : Seq) : (s.setSeq v).lostWrites = s.lostWrites := rfl
@[simp] theorem State.setSeq_promotions (s : State) (v : Seq) : (s.setSeq v).promotions = s.promotions := rfl
@[simp] theorem State.setSeq_parkWaiters (s : State) (v : Seq) : (s.setSeq v).parkWaiters = s.parkWaiters := rfl
@[simp] theorem State.setSeq_invals (s : State) (v : Seq) : (s.setSeq v).invals = s.invals := rfl
@[simp] theorem State.setSeq_packets (s : State) (v : Seq) : (s.setSeq v).packets = s.packets := rfl
@[simp] theorem State.setSeq_zsc (s : State) (v : Seq) : (s.setSeq v).zsc = s.zsc := rfl
@[simp] theorem State.setSeq_posts (s : State) (v : Seq) : (s.setSeq v).posts = s.posts := rfl
@[simp] theorem State.setSeq_tick (s : State) (v : Seq) : (s.setSeq v).tick = s.tick := rfl
@[simp] theorem State.setSeq_epoch (s : State) (v : Seq) : (s.setSeq v).epoch = s.epoch := rfl
@[simp] theorem State.setSeq_circuits (s : State) (v : Seq) : (s.setSeq v).circuits = s.circuits := rfl
@[simp] theorem State.setSeq_pairs (s : State) (v : Seq) : (s.setSeq v).pairs = s.pairs := rfl
@[simp] theorem State.setSeq_switchCmds (s : State) (v : Seq) : (s.setSeq v).switchCmds = s.switchCmds := rfl
@[simp] theorem State.setSeq_assignment (s : State) (v : Seq) : (s.setSeq v).assignment = s.assignment := rfl
@[simp] theorem State.setSeq_topology (s : State) (v : Seq) : (s.setSeq v).topology = s.topology := rfl
@[simp] theorem State.setSeq_syndromes (s : State) (v : Seq) : (s.setSeq v).syndromes = s.syndromes := rfl
@[simp] theorem State.setSeq_queues (s : State) (v : Seq) : (s.setSeq v).queues = s.queues := rfl
@[simp] theorem State.setSeq_slots (s : State) (v : Seq) : (s.setSeq v).slots = s.slots := rfl
@[simp] theorem State.setSeq_ctxs (s : State) (v : Seq) : (s.setSeq v).ctxs = s.ctxs := rfl
@[simp] theorem State.setSeq_reservations (s : State) (v : Seq) : (s.setSeq v).reservations = s.reservations := rfl
@[simp] theorem State.setSeq_registrations (s : State) (v : Seq) : (s.setSeq v).registrations = s.registrations := rfl
@[simp] theorem State.setSeq_fabricOut (s : State) (v : Seq) : (s.setSeq v).fabricOut = s.fabricOut := rfl
@[simp] theorem State.setSeq_fabricNext (s : State) (v : Seq) : (s.setSeq v).fabricNext = s.fabricNext := rfl
@[simp] theorem State.setSeq_fabricRing (s : State) (v : Seq) : (s.setSeq v).fabricRing = s.fabricRing := rfl
@[simp] theorem State.setSeq_fabricWaiting (s : State) (v : Seq) : (s.setSeq v).fabricWaiting = s.fabricWaiting := rfl
@[simp] theorem State.setSeq_eth (s : State) (v : Seq) : (s.setSeq v).eth = s.eth := rfl
@[simp] theorem State.setSeq_retrains (s : State) (v : Seq) : (s.setSeq v).retrains = s.retrains := rfl
@[simp] theorem State.setSeq_deadPorts (s : State) (v : Seq) : (s.setSeq v).deadPorts = s.deadPorts := rfl
@[simp] theorem State.setSeq_link0 (s : State) (v : Seq) : (s.setSeq v).link0 = s.link0 := rfl
@[simp] theorem State.setSeq_link1 (s : State) (v : Seq) : (s.setSeq v).link1 = s.link1 := rfl
@[simp] theorem State.setSeq_hostReply (s : State) (v : Seq) : (s.setSeq v).hostReply = s.hostReply := rfl
@[simp] theorem State.setSeq_reports (s : State) (v : Seq) : (s.setSeq v).reports = s.reports := rfl
@[simp] theorem State.setSeq_studioNotices (s : State) (v : Seq) : (s.setSeq v).studioNotices = s.studioNotices := rfl
@[simp] theorem State.setSeq_attestation (s : State) (v : Seq) : (s.setSeq v).attestation = s.attestation := rfl
@[simp] theorem State.setSeq_termWord (s : State) (v : Seq) : (s.setSeq v).termWord = s.termWord := rfl
@[simp] theorem State.setSeq_start (s : State) (v : Seq) : (s.setSeq v).start = s.start := rfl
@[simp] theorem State.setSeq_measures (s : State) (v : Seq) : (s.setSeq v).measures = s.measures := rfl
@[simp] theorem State.setSeq_flash (s : State) (v : Seq) : (s.setSeq v).flash = s.flash := rfl
@[simp] theorem State.setSeq_icBusy (s : State) (v : Seq) : (s.setSeq v).icBusy = s.icBusy := rfl
@[simp] theorem State.setSeq_powered (s : State) (v : Seq) : (s.setSeq v).powered = s.powered := rfl
@[simp] theorem State.setSeq_stopped (s : State) (v : Seq) : (s.setSeq v).stopped = s.stopped := rfl
@[simp] theorem State.setSeq_agenda (s : State) (v : Seq) : (s.setSeq v).agenda = s.agenda := rfl
@[simp] theorem State.setSeq_cur (s : State) (v : Seq) : (s.setSeq v).cur = s.cur := rfl
@[simp] theorem State.setSeq_free (s : State) (v : Seq) : (s.setSeq v).free = s.free := rfl
@[simp] theorem State.setSeq_ids (s : State) (v : Seq) : (s.setSeq v).ids = s.ids := rfl

/-! ## `modSeq` -/

@[simp] theorem State.modSeq_teams (s : State) (n : Nat) (f : Seq → Seq) : (s.modSeq n f).teams = s.teams := rfl
@[simp] theorem State.modSeq_ensembles (s : State) (n : Nat) (f : Seq → Seq) : (s.modSeq n f).ensembles = s.ensembles := rfl
@[simp] theorem State.modSeq_launches (s : State) (n : Nat) (f : Seq → Seq) : (s.modSeq n f).launches = s.launches := rfl
@[simp] theorem State.modSeq_cores (s : State) (n : Nat) (f : Seq → Seq) : (s.modSeq n f).cores = s.cores := rfl
@[simp] theorem State.modSeq_dies (s : State) (n : Nat) (f : Seq → Seq) : (s.modSeq n f).dies = s.dies := rfl
@[simp] theorem State.modSeq_chips (s : State) (n : Nat) (f : Seq → Seq) : (s.modSeq n f).chips = s.chips := rfl
@[simp] theorem State.modSeq_mem (s : State) (n : Nat) (f : Seq → Seq) : (s.modSeq n f).mem = s.mem := rfl
@[simp] theorem State.modSeq_memPoison (s : State) (n : Nat) (f : Seq → Seq) : (s.modSeq n f).memPoison = s.memPoison := rfl
@[simp] theorem State.modSeq_remote (s : State) (n : Nat) (f : Seq → Seq) : (s.modSeq n f).remote = s.remote := rfl
@[simp] theorem State.modSeq_lostWrites (s : State) (n : Nat) (f : Seq → Seq) : (s.modSeq n f).lostWrites = s.lostWrites := rfl
@[simp] theorem State.modSeq_promotions (s : State) (n : Nat) (f : Seq → Seq) : (s.modSeq n f).promotions = s.promotions := rfl
@[simp] theorem State.modSeq_parkWaiters (s : State) (n : Nat) (f : Seq → Seq) : (s.modSeq n f).parkWaiters = s.parkWaiters := rfl
@[simp] theorem State.modSeq_invals (s : State) (n : Nat) (f : Seq → Seq) : (s.modSeq n f).invals = s.invals := rfl
@[simp] theorem State.modSeq_packets (s : State) (n : Nat) (f : Seq → Seq) : (s.modSeq n f).packets = s.packets := rfl
@[simp] theorem State.modSeq_zsc (s : State) (n : Nat) (f : Seq → Seq) : (s.modSeq n f).zsc = s.zsc := rfl
@[simp] theorem State.modSeq_posts (s : State) (n : Nat) (f : Seq → Seq) : (s.modSeq n f).posts = s.posts := rfl
@[simp] theorem State.modSeq_tick (s : State) (n : Nat) (f : Seq → Seq) : (s.modSeq n f).tick = s.tick := rfl
@[simp] theorem State.modSeq_epoch (s : State) (n : Nat) (f : Seq → Seq) : (s.modSeq n f).epoch = s.epoch := rfl
@[simp] theorem State.modSeq_circuits (s : State) (n : Nat) (f : Seq → Seq) : (s.modSeq n f).circuits = s.circuits := rfl
@[simp] theorem State.modSeq_pairs (s : State) (n : Nat) (f : Seq → Seq) : (s.modSeq n f).pairs = s.pairs := rfl
@[simp] theorem State.modSeq_switchCmds (s : State) (n : Nat) (f : Seq → Seq) : (s.modSeq n f).switchCmds = s.switchCmds := rfl
@[simp] theorem State.modSeq_assignment (s : State) (n : Nat) (f : Seq → Seq) : (s.modSeq n f).assignment = s.assignment := rfl
@[simp] theorem State.modSeq_topology (s : State) (n : Nat) (f : Seq → Seq) : (s.modSeq n f).topology = s.topology := rfl
@[simp] theorem State.modSeq_syndromes (s : State) (n : Nat) (f : Seq → Seq) : (s.modSeq n f).syndromes = s.syndromes := rfl
@[simp] theorem State.modSeq_queues (s : State) (n : Nat) (f : Seq → Seq) : (s.modSeq n f).queues = s.queues := rfl
@[simp] theorem State.modSeq_slots (s : State) (n : Nat) (f : Seq → Seq) : (s.modSeq n f).slots = s.slots := rfl
@[simp] theorem State.modSeq_ctxs (s : State) (n : Nat) (f : Seq → Seq) : (s.modSeq n f).ctxs = s.ctxs := rfl
@[simp] theorem State.modSeq_reservations (s : State) (n : Nat) (f : Seq → Seq) : (s.modSeq n f).reservations = s.reservations := rfl
@[simp] theorem State.modSeq_registrations (s : State) (n : Nat) (f : Seq → Seq) : (s.modSeq n f).registrations = s.registrations := rfl
@[simp] theorem State.modSeq_fabricOut (s : State) (n : Nat) (f : Seq → Seq) : (s.modSeq n f).fabricOut = s.fabricOut := rfl
@[simp] theorem State.modSeq_fabricNext (s : State) (n : Nat) (f : Seq → Seq) : (s.modSeq n f).fabricNext = s.fabricNext := rfl
@[simp] theorem State.modSeq_fabricRing (s : State) (n : Nat) (f : Seq → Seq) : (s.modSeq n f).fabricRing = s.fabricRing := rfl
@[simp] theorem State.modSeq_fabricWaiting (s : State) (n : Nat) (f : Seq → Seq) : (s.modSeq n f).fabricWaiting = s.fabricWaiting := rfl
@[simp] theorem State.modSeq_eth (s : State) (n : Nat) (f : Seq → Seq) : (s.modSeq n f).eth = s.eth := rfl
@[simp] theorem State.modSeq_retrains (s : State) (n : Nat) (f : Seq → Seq) : (s.modSeq n f).retrains = s.retrains := rfl
@[simp] theorem State.modSeq_deadPorts (s : State) (n : Nat) (f : Seq → Seq) : (s.modSeq n f).deadPorts = s.deadPorts := rfl
@[simp] theorem State.modSeq_link0 (s : State) (n : Nat) (f : Seq → Seq) : (s.modSeq n f).link0 = s.link0 := rfl
@[simp] theorem State.modSeq_link1 (s : State) (n : Nat) (f : Seq → Seq) : (s.modSeq n f).link1 = s.link1 := rfl
@[simp] theorem State.modSeq_hostReply (s : State) (n : Nat) (f : Seq → Seq) : (s.modSeq n f).hostReply = s.hostReply := rfl
@[simp] theorem State.modSeq_reports (s : State) (n : Nat) (f : Seq → Seq) : (s.modSeq n f).reports = s.reports := rfl
@[simp] theorem State.modSeq_studioNotices (s : State) (n : Nat) (f : Seq → Seq) : (s.modSeq n f).studioNotices = s.studioNotices := rfl
@[simp] theorem State.modSeq_attestation (s : State) (n : Nat) (f : Seq → Seq) : (s.modSeq n f).attestation = s.attestation := rfl
@[simp] theorem State.modSeq_termWord (s : State) (n : Nat) (f : Seq → Seq) : (s.modSeq n f).termWord = s.termWord := rfl
@[simp] theorem State.modSeq_start (s : State) (n : Nat) (f : Seq → Seq) : (s.modSeq n f).start = s.start := rfl
@[simp] theorem State.modSeq_measures (s : State) (n : Nat) (f : Seq → Seq) : (s.modSeq n f).measures = s.measures := rfl
@[simp] theorem State.modSeq_flash (s : State) (n : Nat) (f : Seq → Seq) : (s.modSeq n f).flash = s.flash := rfl
@[simp] theorem State.modSeq_icBusy (s : State) (n : Nat) (f : Seq → Seq) : (s.modSeq n f).icBusy = s.icBusy := rfl
@[simp] theorem State.modSeq_powered (s : State) (n : Nat) (f : Seq → Seq) : (s.modSeq n f).powered = s.powered := rfl
@[simp] theorem State.modSeq_stopped (s : State) (n : Nat) (f : Seq → Seq) : (s.modSeq n f).stopped = s.stopped := rfl
@[simp] theorem State.modSeq_agenda (s : State) (n : Nat) (f : Seq → Seq) : (s.modSeq n f).agenda = s.agenda := rfl
@[simp] theorem State.modSeq_cur (s : State) (n : Nat) (f : Seq → Seq) : (s.modSeq n f).cur = s.cur := rfl
@[simp] theorem State.modSeq_free (s : State) (n : Nat) (f : Seq → Seq) : (s.modSeq n f).free = s.free := rfl
@[simp] theorem State.modSeq_ids (s : State) (n : Nat) (f : Seq → Seq) : (s.modSeq n f).ids = s.ids := rfl

/-! ## `setCore` -/

@[simp] theorem State.setCore_teams (s : State) (v : Core) : (s.setCore v).teams = s.teams := rfl
@[simp] theorem State.setCore_ensembles (s : State) (v : Core) : (s.setCore v).ensembles = s.ensembles := rfl
@[simp] theorem State.setCore_launches (s : State) (v : Core) : (s.setCore v).launches = s.launches := rfl
@[simp] theorem State.setCore_seqs (s : State) (v : Core) : (s.setCore v).seqs = s.seqs := rfl
@[simp] theorem State.setCore_dies (s : State) (v : Core) : (s.setCore v).dies = s.dies := rfl
@[simp] theorem State.setCore_chips (s : State) (v : Core) : (s.setCore v).chips = s.chips := rfl
@[simp] theorem State.setCore_mem (s : State) (v : Core) : (s.setCore v).mem = s.mem := rfl
@[simp] theorem State.setCore_memPoison (s : State) (v : Core) : (s.setCore v).memPoison = s.memPoison := rfl
@[simp] theorem State.setCore_remote (s : State) (v : Core) : (s.setCore v).remote = s.remote := rfl
@[simp] theorem State.setCore_lostWrites (s : State) (v : Core) : (s.setCore v).lostWrites = s.lostWrites := rfl
@[simp] theorem State.setCore_promotions (s : State) (v : Core) : (s.setCore v).promotions = s.promotions := rfl
@[simp] theorem State.setCore_parkWaiters (s : State) (v : Core) : (s.setCore v).parkWaiters = s.parkWaiters := rfl
@[simp] theorem State.setCore_invals (s : State) (v : Core) : (s.setCore v).invals = s.invals := rfl
@[simp] theorem State.setCore_packets (s : State) (v : Core) : (s.setCore v).packets = s.packets := rfl
@[simp] theorem State.setCore_zsc (s : State) (v : Core) : (s.setCore v).zsc = s.zsc := rfl
@[simp] theorem State.setCore_posts (s : State) (v : Core) : (s.setCore v).posts = s.posts := rfl
@[simp] theorem State.setCore_tick (s : State) (v : Core) : (s.setCore v).tick = s.tick := rfl
@[simp] theorem State.setCore_epoch (s : State) (v : Core) : (s.setCore v).epoch = s.epoch := rfl
@[simp] theorem State.setCore_circuits (s : State) (v : Core) : (s.setCore v).circuits = s.circuits := rfl
@[simp] theorem State.setCore_pairs (s : State) (v : Core) : (s.setCore v).pairs = s.pairs := rfl
@[simp] theorem State.setCore_switchCmds (s : State) (v : Core) : (s.setCore v).switchCmds = s.switchCmds := rfl
@[simp] theorem State.setCore_assignment (s : State) (v : Core) : (s.setCore v).assignment = s.assignment := rfl
@[simp] theorem State.setCore_topology (s : State) (v : Core) : (s.setCore v).topology = s.topology := rfl
@[simp] theorem State.setCore_syndromes (s : State) (v : Core) : (s.setCore v).syndromes = s.syndromes := rfl
@[simp] theorem State.setCore_queues (s : State) (v : Core) : (s.setCore v).queues = s.queues := rfl
@[simp] theorem State.setCore_slots (s : State) (v : Core) : (s.setCore v).slots = s.slots := rfl
@[simp] theorem State.setCore_ctxs (s : State) (v : Core) : (s.setCore v).ctxs = s.ctxs := rfl
@[simp] theorem State.setCore_reservations (s : State) (v : Core) : (s.setCore v).reservations = s.reservations := rfl
@[simp] theorem State.setCore_registrations (s : State) (v : Core) : (s.setCore v).registrations = s.registrations := rfl
@[simp] theorem State.setCore_fabricOut (s : State) (v : Core) : (s.setCore v).fabricOut = s.fabricOut := rfl
@[simp] theorem State.setCore_fabricNext (s : State) (v : Core) : (s.setCore v).fabricNext = s.fabricNext := rfl
@[simp] theorem State.setCore_fabricRing (s : State) (v : Core) : (s.setCore v).fabricRing = s.fabricRing := rfl
@[simp] theorem State.setCore_fabricWaiting (s : State) (v : Core) : (s.setCore v).fabricWaiting = s.fabricWaiting := rfl
@[simp] theorem State.setCore_eth (s : State) (v : Core) : (s.setCore v).eth = s.eth := rfl
@[simp] theorem State.setCore_retrains (s : State) (v : Core) : (s.setCore v).retrains = s.retrains := rfl
@[simp] theorem State.setCore_deadPorts (s : State) (v : Core) : (s.setCore v).deadPorts = s.deadPorts := rfl
@[simp] theorem State.setCore_link0 (s : State) (v : Core) : (s.setCore v).link0 = s.link0 := rfl
@[simp] theorem State.setCore_link1 (s : State) (v : Core) : (s.setCore v).link1 = s.link1 := rfl
@[simp] theorem State.setCore_hostReply (s : State) (v : Core) : (s.setCore v).hostReply = s.hostReply := rfl
@[simp] theorem State.setCore_reports (s : State) (v : Core) : (s.setCore v).reports = s.reports := rfl
@[simp] theorem State.setCore_studioNotices (s : State) (v : Core) : (s.setCore v).studioNotices = s.studioNotices := rfl
@[simp] theorem State.setCore_attestation (s : State) (v : Core) : (s.setCore v).attestation = s.attestation := rfl
@[simp] theorem State.setCore_termWord (s : State) (v : Core) : (s.setCore v).termWord = s.termWord := rfl
@[simp] theorem State.setCore_start (s : State) (v : Core) : (s.setCore v).start = s.start := rfl
@[simp] theorem State.setCore_measures (s : State) (v : Core) : (s.setCore v).measures = s.measures := rfl
@[simp] theorem State.setCore_flash (s : State) (v : Core) : (s.setCore v).flash = s.flash := rfl
@[simp] theorem State.setCore_icBusy (s : State) (v : Core) : (s.setCore v).icBusy = s.icBusy := rfl
@[simp] theorem State.setCore_powered (s : State) (v : Core) : (s.setCore v).powered = s.powered := rfl
@[simp] theorem State.setCore_stopped (s : State) (v : Core) : (s.setCore v).stopped = s.stopped := rfl
@[simp] theorem State.setCore_agenda (s : State) (v : Core) : (s.setCore v).agenda = s.agenda := rfl
@[simp] theorem State.setCore_cur (s : State) (v : Core) : (s.setCore v).cur = s.cur := rfl
@[simp] theorem State.setCore_free (s : State) (v : Core) : (s.setCore v).free = s.free := rfl
@[simp] theorem State.setCore_ids (s : State) (v : Core) : (s.setCore v).ids = s.ids := rfl

/-! ## `modCore` -/

@[simp] theorem State.modCore_teams (s : State) (n : Nat) (f : Core → Core) : (s.modCore n f).teams = s.teams := rfl
@[simp] theorem State.modCore_ensembles (s : State) (n : Nat) (f : Core → Core) : (s.modCore n f).ensembles = s.ensembles := rfl
@[simp] theorem State.modCore_launches (s : State) (n : Nat) (f : Core → Core) : (s.modCore n f).launches = s.launches := rfl
@[simp] theorem State.modCore_seqs (s : State) (n : Nat) (f : Core → Core) : (s.modCore n f).seqs = s.seqs := rfl
@[simp] theorem State.modCore_dies (s : State) (n : Nat) (f : Core → Core) : (s.modCore n f).dies = s.dies := rfl
@[simp] theorem State.modCore_chips (s : State) (n : Nat) (f : Core → Core) : (s.modCore n f).chips = s.chips := rfl
@[simp] theorem State.modCore_mem (s : State) (n : Nat) (f : Core → Core) : (s.modCore n f).mem = s.mem := rfl
@[simp] theorem State.modCore_memPoison (s : State) (n : Nat) (f : Core → Core) : (s.modCore n f).memPoison = s.memPoison := rfl
@[simp] theorem State.modCore_remote (s : State) (n : Nat) (f : Core → Core) : (s.modCore n f).remote = s.remote := rfl
@[simp] theorem State.modCore_lostWrites (s : State) (n : Nat) (f : Core → Core) : (s.modCore n f).lostWrites = s.lostWrites := rfl
@[simp] theorem State.modCore_promotions (s : State) (n : Nat) (f : Core → Core) : (s.modCore n f).promotions = s.promotions := rfl
@[simp] theorem State.modCore_parkWaiters (s : State) (n : Nat) (f : Core → Core) : (s.modCore n f).parkWaiters = s.parkWaiters := rfl
@[simp] theorem State.modCore_invals (s : State) (n : Nat) (f : Core → Core) : (s.modCore n f).invals = s.invals := rfl
@[simp] theorem State.modCore_packets (s : State) (n : Nat) (f : Core → Core) : (s.modCore n f).packets = s.packets := rfl
@[simp] theorem State.modCore_zsc (s : State) (n : Nat) (f : Core → Core) : (s.modCore n f).zsc = s.zsc := rfl
@[simp] theorem State.modCore_posts (s : State) (n : Nat) (f : Core → Core) : (s.modCore n f).posts = s.posts := rfl
@[simp] theorem State.modCore_tick (s : State) (n : Nat) (f : Core → Core) : (s.modCore n f).tick = s.tick := rfl
@[simp] theorem State.modCore_epoch (s : State) (n : Nat) (f : Core → Core) : (s.modCore n f).epoch = s.epoch := rfl
@[simp] theorem State.modCore_circuits (s : State) (n : Nat) (f : Core → Core) : (s.modCore n f).circuits = s.circuits := rfl
@[simp] theorem State.modCore_pairs (s : State) (n : Nat) (f : Core → Core) : (s.modCore n f).pairs = s.pairs := rfl
@[simp] theorem State.modCore_switchCmds (s : State) (n : Nat) (f : Core → Core) : (s.modCore n f).switchCmds = s.switchCmds := rfl
@[simp] theorem State.modCore_assignment (s : State) (n : Nat) (f : Core → Core) : (s.modCore n f).assignment = s.assignment := rfl
@[simp] theorem State.modCore_topology (s : State) (n : Nat) (f : Core → Core) : (s.modCore n f).topology = s.topology := rfl
@[simp] theorem State.modCore_syndromes (s : State) (n : Nat) (f : Core → Core) : (s.modCore n f).syndromes = s.syndromes := rfl
@[simp] theorem State.modCore_queues (s : State) (n : Nat) (f : Core → Core) : (s.modCore n f).queues = s.queues := rfl
@[simp] theorem State.modCore_slots (s : State) (n : Nat) (f : Core → Core) : (s.modCore n f).slots = s.slots := rfl
@[simp] theorem State.modCore_ctxs (s : State) (n : Nat) (f : Core → Core) : (s.modCore n f).ctxs = s.ctxs := rfl
@[simp] theorem State.modCore_reservations (s : State) (n : Nat) (f : Core → Core) : (s.modCore n f).reservations = s.reservations := rfl
@[simp] theorem State.modCore_registrations (s : State) (n : Nat) (f : Core → Core) : (s.modCore n f).registrations = s.registrations := rfl
@[simp] theorem State.modCore_fabricOut (s : State) (n : Nat) (f : Core → Core) : (s.modCore n f).fabricOut = s.fabricOut := rfl
@[simp] theorem State.modCore_fabricNext (s : State) (n : Nat) (f : Core → Core) : (s.modCore n f).fabricNext = s.fabricNext := rfl
@[simp] theorem State.modCore_fabricRing (s : State) (n : Nat) (f : Core → Core) : (s.modCore n f).fabricRing = s.fabricRing := rfl
@[simp] theorem State.modCore_fabricWaiting (s : State) (n : Nat) (f : Core → Core) : (s.modCore n f).fabricWaiting = s.fabricWaiting := rfl
@[simp] theorem State.modCore_eth (s : State) (n : Nat) (f : Core → Core) : (s.modCore n f).eth = s.eth := rfl
@[simp] theorem State.modCore_retrains (s : State) (n : Nat) (f : Core → Core) : (s.modCore n f).retrains = s.retrains := rfl
@[simp] theorem State.modCore_deadPorts (s : State) (n : Nat) (f : Core → Core) : (s.modCore n f).deadPorts = s.deadPorts := rfl
@[simp] theorem State.modCore_link0 (s : State) (n : Nat) (f : Core → Core) : (s.modCore n f).link0 = s.link0 := rfl
@[simp] theorem State.modCore_link1 (s : State) (n : Nat) (f : Core → Core) : (s.modCore n f).link1 = s.link1 := rfl
@[simp] theorem State.modCore_hostReply (s : State) (n : Nat) (f : Core → Core) : (s.modCore n f).hostReply = s.hostReply := rfl
@[simp] theorem State.modCore_reports (s : State) (n : Nat) (f : Core → Core) : (s.modCore n f).reports = s.reports := rfl
@[simp] theorem State.modCore_studioNotices (s : State) (n : Nat) (f : Core → Core) : (s.modCore n f).studioNotices = s.studioNotices := rfl
@[simp] theorem State.modCore_attestation (s : State) (n : Nat) (f : Core → Core) : (s.modCore n f).attestation = s.attestation := rfl
@[simp] theorem State.modCore_termWord (s : State) (n : Nat) (f : Core → Core) : (s.modCore n f).termWord = s.termWord := rfl
@[simp] theorem State.modCore_start (s : State) (n : Nat) (f : Core → Core) : (s.modCore n f).start = s.start := rfl
@[simp] theorem State.modCore_measures (s : State) (n : Nat) (f : Core → Core) : (s.modCore n f).measures = s.measures := rfl
@[simp] theorem State.modCore_flash (s : State) (n : Nat) (f : Core → Core) : (s.modCore n f).flash = s.flash := rfl
@[simp] theorem State.modCore_icBusy (s : State) (n : Nat) (f : Core → Core) : (s.modCore n f).icBusy = s.icBusy := rfl
@[simp] theorem State.modCore_powered (s : State) (n : Nat) (f : Core → Core) : (s.modCore n f).powered = s.powered := rfl
@[simp] theorem State.modCore_stopped (s : State) (n : Nat) (f : Core → Core) : (s.modCore n f).stopped = s.stopped := rfl
@[simp] theorem State.modCore_agenda (s : State) (n : Nat) (f : Core → Core) : (s.modCore n f).agenda = s.agenda := rfl
@[simp] theorem State.modCore_cur (s : State) (n : Nat) (f : Core → Core) : (s.modCore n f).cur = s.cur := rfl
@[simp] theorem State.modCore_free (s : State) (n : Nat) (f : Core → Core) : (s.modCore n f).free = s.free := rfl
@[simp] theorem State.modCore_ids (s : State) (n : Nat) (f : Core → Core) : (s.modCore n f).ids = s.ids := rfl

/-! ## `modDie` -/

@[simp] theorem State.modDie_teams (s : State) (n : Nat) (f : Die → Die) : (s.modDie n f).teams = s.teams := rfl
@[simp] theorem State.modDie_ensembles (s : State) (n : Nat) (f : Die → Die) : (s.modDie n f).ensembles = s.ensembles := rfl
@[simp] theorem State.modDie_launches (s : State) (n : Nat) (f : Die → Die) : (s.modDie n f).launches = s.launches := rfl
@[simp] theorem State.modDie_cores (s : State) (n : Nat) (f : Die → Die) : (s.modDie n f).cores = s.cores := rfl
@[simp] theorem State.modDie_seqs (s : State) (n : Nat) (f : Die → Die) : (s.modDie n f).seqs = s.seqs := rfl
@[simp] theorem State.modDie_chips (s : State) (n : Nat) (f : Die → Die) : (s.modDie n f).chips = s.chips := rfl
@[simp] theorem State.modDie_mem (s : State) (n : Nat) (f : Die → Die) : (s.modDie n f).mem = s.mem := rfl
@[simp] theorem State.modDie_memPoison (s : State) (n : Nat) (f : Die → Die) : (s.modDie n f).memPoison = s.memPoison := rfl
@[simp] theorem State.modDie_remote (s : State) (n : Nat) (f : Die → Die) : (s.modDie n f).remote = s.remote := rfl
@[simp] theorem State.modDie_lostWrites (s : State) (n : Nat) (f : Die → Die) : (s.modDie n f).lostWrites = s.lostWrites := rfl
@[simp] theorem State.modDie_promotions (s : State) (n : Nat) (f : Die → Die) : (s.modDie n f).promotions = s.promotions := rfl
@[simp] theorem State.modDie_parkWaiters (s : State) (n : Nat) (f : Die → Die) : (s.modDie n f).parkWaiters = s.parkWaiters := rfl
@[simp] theorem State.modDie_invals (s : State) (n : Nat) (f : Die → Die) : (s.modDie n f).invals = s.invals := rfl
@[simp] theorem State.modDie_packets (s : State) (n : Nat) (f : Die → Die) : (s.modDie n f).packets = s.packets := rfl
@[simp] theorem State.modDie_zsc (s : State) (n : Nat) (f : Die → Die) : (s.modDie n f).zsc = s.zsc := rfl
@[simp] theorem State.modDie_posts (s : State) (n : Nat) (f : Die → Die) : (s.modDie n f).posts = s.posts := rfl
@[simp] theorem State.modDie_tick (s : State) (n : Nat) (f : Die → Die) : (s.modDie n f).tick = s.tick := rfl
@[simp] theorem State.modDie_epoch (s : State) (n : Nat) (f : Die → Die) : (s.modDie n f).epoch = s.epoch := rfl
@[simp] theorem State.modDie_circuits (s : State) (n : Nat) (f : Die → Die) : (s.modDie n f).circuits = s.circuits := rfl
@[simp] theorem State.modDie_pairs (s : State) (n : Nat) (f : Die → Die) : (s.modDie n f).pairs = s.pairs := rfl
@[simp] theorem State.modDie_switchCmds (s : State) (n : Nat) (f : Die → Die) : (s.modDie n f).switchCmds = s.switchCmds := rfl
@[simp] theorem State.modDie_assignment (s : State) (n : Nat) (f : Die → Die) : (s.modDie n f).assignment = s.assignment := rfl
@[simp] theorem State.modDie_topology (s : State) (n : Nat) (f : Die → Die) : (s.modDie n f).topology = s.topology := rfl
@[simp] theorem State.modDie_syndromes (s : State) (n : Nat) (f : Die → Die) : (s.modDie n f).syndromes = s.syndromes := rfl
@[simp] theorem State.modDie_queues (s : State) (n : Nat) (f : Die → Die) : (s.modDie n f).queues = s.queues := rfl
@[simp] theorem State.modDie_slots (s : State) (n : Nat) (f : Die → Die) : (s.modDie n f).slots = s.slots := rfl
@[simp] theorem State.modDie_ctxs (s : State) (n : Nat) (f : Die → Die) : (s.modDie n f).ctxs = s.ctxs := rfl
@[simp] theorem State.modDie_reservations (s : State) (n : Nat) (f : Die → Die) : (s.modDie n f).reservations = s.reservations := rfl
@[simp] theorem State.modDie_registrations (s : State) (n : Nat) (f : Die → Die) : (s.modDie n f).registrations = s.registrations := rfl
@[simp] theorem State.modDie_fabricOut (s : State) (n : Nat) (f : Die → Die) : (s.modDie n f).fabricOut = s.fabricOut := rfl
@[simp] theorem State.modDie_fabricNext (s : State) (n : Nat) (f : Die → Die) : (s.modDie n f).fabricNext = s.fabricNext := rfl
@[simp] theorem State.modDie_fabricRing (s : State) (n : Nat) (f : Die → Die) : (s.modDie n f).fabricRing = s.fabricRing := rfl
@[simp] theorem State.modDie_fabricWaiting (s : State) (n : Nat) (f : Die → Die) : (s.modDie n f).fabricWaiting = s.fabricWaiting := rfl
@[simp] theorem State.modDie_eth (s : State) (n : Nat) (f : Die → Die) : (s.modDie n f).eth = s.eth := rfl
@[simp] theorem State.modDie_retrains (s : State) (n : Nat) (f : Die → Die) : (s.modDie n f).retrains = s.retrains := rfl
@[simp] theorem State.modDie_deadPorts (s : State) (n : Nat) (f : Die → Die) : (s.modDie n f).deadPorts = s.deadPorts := rfl
@[simp] theorem State.modDie_link0 (s : State) (n : Nat) (f : Die → Die) : (s.modDie n f).link0 = s.link0 := rfl
@[simp] theorem State.modDie_link1 (s : State) (n : Nat) (f : Die → Die) : (s.modDie n f).link1 = s.link1 := rfl
@[simp] theorem State.modDie_hostReply (s : State) (n : Nat) (f : Die → Die) : (s.modDie n f).hostReply = s.hostReply := rfl
@[simp] theorem State.modDie_reports (s : State) (n : Nat) (f : Die → Die) : (s.modDie n f).reports = s.reports := rfl
@[simp] theorem State.modDie_studioNotices (s : State) (n : Nat) (f : Die → Die) : (s.modDie n f).studioNotices = s.studioNotices := rfl
@[simp] theorem State.modDie_attestation (s : State) (n : Nat) (f : Die → Die) : (s.modDie n f).attestation = s.attestation := rfl
@[simp] theorem State.modDie_termWord (s : State) (n : Nat) (f : Die → Die) : (s.modDie n f).termWord = s.termWord := rfl
@[simp] theorem State.modDie_start (s : State) (n : Nat) (f : Die → Die) : (s.modDie n f).start = s.start := rfl
@[simp] theorem State.modDie_measures (s : State) (n : Nat) (f : Die → Die) : (s.modDie n f).measures = s.measures := rfl
@[simp] theorem State.modDie_flash (s : State) (n : Nat) (f : Die → Die) : (s.modDie n f).flash = s.flash := rfl
@[simp] theorem State.modDie_icBusy (s : State) (n : Nat) (f : Die → Die) : (s.modDie n f).icBusy = s.icBusy := rfl
@[simp] theorem State.modDie_powered (s : State) (n : Nat) (f : Die → Die) : (s.modDie n f).powered = s.powered := rfl
@[simp] theorem State.modDie_stopped (s : State) (n : Nat) (f : Die → Die) : (s.modDie n f).stopped = s.stopped := rfl
@[simp] theorem State.modDie_agenda (s : State) (n : Nat) (f : Die → Die) : (s.modDie n f).agenda = s.agenda := rfl
@[simp] theorem State.modDie_cur (s : State) (n : Nat) (f : Die → Die) : (s.modDie n f).cur = s.cur := rfl
@[simp] theorem State.modDie_free (s : State) (n : Nat) (f : Die → Die) : (s.modDie n f).free = s.free := rfl
@[simp] theorem State.modDie_ids (s : State) (n : Nat) (f : Die → Die) : (s.modDie n f).ids = s.ids := rfl

/-! ## `modChip` -/

@[simp] theorem State.modChip_teams (s : State) (n : Nat) (f : Chip → Chip) : (s.modChip n f).teams = s.teams := rfl
@[simp] theorem State.modChip_ensembles (s : State) (n : Nat) (f : Chip → Chip) : (s.modChip n f).ensembles = s.ensembles := rfl
@[simp] theorem State.modChip_launches (s : State) (n : Nat) (f : Chip → Chip) : (s.modChip n f).launches = s.launches := rfl
@[simp] theorem State.modChip_cores (s : State) (n : Nat) (f : Chip → Chip) : (s.modChip n f).cores = s.cores := rfl
@[simp] theorem State.modChip_seqs (s : State) (n : Nat) (f : Chip → Chip) : (s.modChip n f).seqs = s.seqs := rfl
@[simp] theorem State.modChip_dies (s : State) (n : Nat) (f : Chip → Chip) : (s.modChip n f).dies = s.dies := rfl
@[simp] theorem State.modChip_mem (s : State) (n : Nat) (f : Chip → Chip) : (s.modChip n f).mem = s.mem := rfl
@[simp] theorem State.modChip_memPoison (s : State) (n : Nat) (f : Chip → Chip) : (s.modChip n f).memPoison = s.memPoison := rfl
@[simp] theorem State.modChip_remote (s : State) (n : Nat) (f : Chip → Chip) : (s.modChip n f).remote = s.remote := rfl
@[simp] theorem State.modChip_lostWrites (s : State) (n : Nat) (f : Chip → Chip) : (s.modChip n f).lostWrites = s.lostWrites := rfl
@[simp] theorem State.modChip_promotions (s : State) (n : Nat) (f : Chip → Chip) : (s.modChip n f).promotions = s.promotions := rfl
@[simp] theorem State.modChip_parkWaiters (s : State) (n : Nat) (f : Chip → Chip) : (s.modChip n f).parkWaiters = s.parkWaiters := rfl
@[simp] theorem State.modChip_invals (s : State) (n : Nat) (f : Chip → Chip) : (s.modChip n f).invals = s.invals := rfl
@[simp] theorem State.modChip_packets (s : State) (n : Nat) (f : Chip → Chip) : (s.modChip n f).packets = s.packets := rfl
@[simp] theorem State.modChip_zsc (s : State) (n : Nat) (f : Chip → Chip) : (s.modChip n f).zsc = s.zsc := rfl
@[simp] theorem State.modChip_posts (s : State) (n : Nat) (f : Chip → Chip) : (s.modChip n f).posts = s.posts := rfl
@[simp] theorem State.modChip_tick (s : State) (n : Nat) (f : Chip → Chip) : (s.modChip n f).tick = s.tick := rfl
@[simp] theorem State.modChip_epoch (s : State) (n : Nat) (f : Chip → Chip) : (s.modChip n f).epoch = s.epoch := rfl
@[simp] theorem State.modChip_circuits (s : State) (n : Nat) (f : Chip → Chip) : (s.modChip n f).circuits = s.circuits := rfl
@[simp] theorem State.modChip_pairs (s : State) (n : Nat) (f : Chip → Chip) : (s.modChip n f).pairs = s.pairs := rfl
@[simp] theorem State.modChip_switchCmds (s : State) (n : Nat) (f : Chip → Chip) : (s.modChip n f).switchCmds = s.switchCmds := rfl
@[simp] theorem State.modChip_assignment (s : State) (n : Nat) (f : Chip → Chip) : (s.modChip n f).assignment = s.assignment := rfl
@[simp] theorem State.modChip_topology (s : State) (n : Nat) (f : Chip → Chip) : (s.modChip n f).topology = s.topology := rfl
@[simp] theorem State.modChip_syndromes (s : State) (n : Nat) (f : Chip → Chip) : (s.modChip n f).syndromes = s.syndromes := rfl
@[simp] theorem State.modChip_queues (s : State) (n : Nat) (f : Chip → Chip) : (s.modChip n f).queues = s.queues := rfl
@[simp] theorem State.modChip_slots (s : State) (n : Nat) (f : Chip → Chip) : (s.modChip n f).slots = s.slots := rfl
@[simp] theorem State.modChip_ctxs (s : State) (n : Nat) (f : Chip → Chip) : (s.modChip n f).ctxs = s.ctxs := rfl
@[simp] theorem State.modChip_reservations (s : State) (n : Nat) (f : Chip → Chip) : (s.modChip n f).reservations = s.reservations := rfl
@[simp] theorem State.modChip_registrations (s : State) (n : Nat) (f : Chip → Chip) : (s.modChip n f).registrations = s.registrations := rfl
@[simp] theorem State.modChip_fabricOut (s : State) (n : Nat) (f : Chip → Chip) : (s.modChip n f).fabricOut = s.fabricOut := rfl
@[simp] theorem State.modChip_fabricNext (s : State) (n : Nat) (f : Chip → Chip) : (s.modChip n f).fabricNext = s.fabricNext := rfl
@[simp] theorem State.modChip_fabricRing (s : State) (n : Nat) (f : Chip → Chip) : (s.modChip n f).fabricRing = s.fabricRing := rfl
@[simp] theorem State.modChip_fabricWaiting (s : State) (n : Nat) (f : Chip → Chip) : (s.modChip n f).fabricWaiting = s.fabricWaiting := rfl
@[simp] theorem State.modChip_eth (s : State) (n : Nat) (f : Chip → Chip) : (s.modChip n f).eth = s.eth := rfl
@[simp] theorem State.modChip_retrains (s : State) (n : Nat) (f : Chip → Chip) : (s.modChip n f).retrains = s.retrains := rfl
@[simp] theorem State.modChip_deadPorts (s : State) (n : Nat) (f : Chip → Chip) : (s.modChip n f).deadPorts = s.deadPorts := rfl
@[simp] theorem State.modChip_link0 (s : State) (n : Nat) (f : Chip → Chip) : (s.modChip n f).link0 = s.link0 := rfl
@[simp] theorem State.modChip_link1 (s : State) (n : Nat) (f : Chip → Chip) : (s.modChip n f).link1 = s.link1 := rfl
@[simp] theorem State.modChip_hostReply (s : State) (n : Nat) (f : Chip → Chip) : (s.modChip n f).hostReply = s.hostReply := rfl
@[simp] theorem State.modChip_reports (s : State) (n : Nat) (f : Chip → Chip) : (s.modChip n f).reports = s.reports := rfl
@[simp] theorem State.modChip_studioNotices (s : State) (n : Nat) (f : Chip → Chip) : (s.modChip n f).studioNotices = s.studioNotices := rfl
@[simp] theorem State.modChip_attestation (s : State) (n : Nat) (f : Chip → Chip) : (s.modChip n f).attestation = s.attestation := rfl
@[simp] theorem State.modChip_termWord (s : State) (n : Nat) (f : Chip → Chip) : (s.modChip n f).termWord = s.termWord := rfl
@[simp] theorem State.modChip_start (s : State) (n : Nat) (f : Chip → Chip) : (s.modChip n f).start = s.start := rfl
@[simp] theorem State.modChip_measures (s : State) (n : Nat) (f : Chip → Chip) : (s.modChip n f).measures = s.measures := rfl
@[simp] theorem State.modChip_flash (s : State) (n : Nat) (f : Chip → Chip) : (s.modChip n f).flash = s.flash := rfl
@[simp] theorem State.modChip_icBusy (s : State) (n : Nat) (f : Chip → Chip) : (s.modChip n f).icBusy = s.icBusy := rfl
@[simp] theorem State.modChip_powered (s : State) (n : Nat) (f : Chip → Chip) : (s.modChip n f).powered = s.powered := rfl
@[simp] theorem State.modChip_stopped (s : State) (n : Nat) (f : Chip → Chip) : (s.modChip n f).stopped = s.stopped := rfl
@[simp] theorem State.modChip_agenda (s : State) (n : Nat) (f : Chip → Chip) : (s.modChip n f).agenda = s.agenda := rfl
@[simp] theorem State.modChip_cur (s : State) (n : Nat) (f : Chip → Chip) : (s.modChip n f).cur = s.cur := rfl
@[simp] theorem State.modChip_free (s : State) (n : Nat) (f : Chip → Chip) : (s.modChip n f).free = s.free := rfl
@[simp] theorem State.modChip_ids (s : State) (n : Nat) (f : Chip → Chip) : (s.modChip n f).ids = s.ids := rfl

/-! ## `modCtx` -/

@[simp] theorem State.modCtx_teams (s : State) (n : Nat) (f : Ctx → Ctx) : (s.modCtx n f).teams = s.teams := rfl
@[simp] theorem State.modCtx_ensembles (s : State) (n : Nat) (f : Ctx → Ctx) : (s.modCtx n f).ensembles = s.ensembles := rfl
@[simp] theorem State.modCtx_launches (s : State) (n : Nat) (f : Ctx → Ctx) : (s.modCtx n f).launches = s.launches := rfl
@[simp] theorem State.modCtx_cores (s : State) (n : Nat) (f : Ctx → Ctx) : (s.modCtx n f).cores = s.cores := rfl
@[simp] theorem State.modCtx_seqs (s : State) (n : Nat) (f : Ctx → Ctx) : (s.modCtx n f).seqs = s.seqs := rfl
@[simp] theorem State.modCtx_dies (s : State) (n : Nat) (f : Ctx → Ctx) : (s.modCtx n f).dies = s.dies := rfl
@[simp] theorem State.modCtx_chips (s : State) (n : Nat) (f : Ctx → Ctx) : (s.modCtx n f).chips = s.chips := rfl
@[simp] theorem State.modCtx_mem (s : State) (n : Nat) (f : Ctx → Ctx) : (s.modCtx n f).mem = s.mem := rfl
@[simp] theorem State.modCtx_memPoison (s : State) (n : Nat) (f : Ctx → Ctx) : (s.modCtx n f).memPoison = s.memPoison := rfl
@[simp] theorem State.modCtx_remote (s : State) (n : Nat) (f : Ctx → Ctx) : (s.modCtx n f).remote = s.remote := rfl
@[simp] theorem State.modCtx_lostWrites (s : State) (n : Nat) (f : Ctx → Ctx) : (s.modCtx n f).lostWrites = s.lostWrites := rfl
@[simp] theorem State.modCtx_promotions (s : State) (n : Nat) (f : Ctx → Ctx) : (s.modCtx n f).promotions = s.promotions := rfl
@[simp] theorem State.modCtx_parkWaiters (s : State) (n : Nat) (f : Ctx → Ctx) : (s.modCtx n f).parkWaiters = s.parkWaiters := rfl
@[simp] theorem State.modCtx_invals (s : State) (n : Nat) (f : Ctx → Ctx) : (s.modCtx n f).invals = s.invals := rfl
@[simp] theorem State.modCtx_packets (s : State) (n : Nat) (f : Ctx → Ctx) : (s.modCtx n f).packets = s.packets := rfl
@[simp] theorem State.modCtx_zsc (s : State) (n : Nat) (f : Ctx → Ctx) : (s.modCtx n f).zsc = s.zsc := rfl
@[simp] theorem State.modCtx_posts (s : State) (n : Nat) (f : Ctx → Ctx) : (s.modCtx n f).posts = s.posts := rfl
@[simp] theorem State.modCtx_tick (s : State) (n : Nat) (f : Ctx → Ctx) : (s.modCtx n f).tick = s.tick := rfl
@[simp] theorem State.modCtx_epoch (s : State) (n : Nat) (f : Ctx → Ctx) : (s.modCtx n f).epoch = s.epoch := rfl
@[simp] theorem State.modCtx_circuits (s : State) (n : Nat) (f : Ctx → Ctx) : (s.modCtx n f).circuits = s.circuits := rfl
@[simp] theorem State.modCtx_pairs (s : State) (n : Nat) (f : Ctx → Ctx) : (s.modCtx n f).pairs = s.pairs := rfl
@[simp] theorem State.modCtx_switchCmds (s : State) (n : Nat) (f : Ctx → Ctx) : (s.modCtx n f).switchCmds = s.switchCmds := rfl
@[simp] theorem State.modCtx_assignment (s : State) (n : Nat) (f : Ctx → Ctx) : (s.modCtx n f).assignment = s.assignment := rfl
@[simp] theorem State.modCtx_topology (s : State) (n : Nat) (f : Ctx → Ctx) : (s.modCtx n f).topology = s.topology := rfl
@[simp] theorem State.modCtx_syndromes (s : State) (n : Nat) (f : Ctx → Ctx) : (s.modCtx n f).syndromes = s.syndromes := rfl
@[simp] theorem State.modCtx_queues (s : State) (n : Nat) (f : Ctx → Ctx) : (s.modCtx n f).queues = s.queues := rfl
@[simp] theorem State.modCtx_slots (s : State) (n : Nat) (f : Ctx → Ctx) : (s.modCtx n f).slots = s.slots := rfl
@[simp] theorem State.modCtx_reservations (s : State) (n : Nat) (f : Ctx → Ctx) : (s.modCtx n f).reservations = s.reservations := rfl
@[simp] theorem State.modCtx_registrations (s : State) (n : Nat) (f : Ctx → Ctx) : (s.modCtx n f).registrations = s.registrations := rfl
@[simp] theorem State.modCtx_fabricOut (s : State) (n : Nat) (f : Ctx → Ctx) : (s.modCtx n f).fabricOut = s.fabricOut := rfl
@[simp] theorem State.modCtx_fabricNext (s : State) (n : Nat) (f : Ctx → Ctx) : (s.modCtx n f).fabricNext = s.fabricNext := rfl
@[simp] theorem State.modCtx_fabricRing (s : State) (n : Nat) (f : Ctx → Ctx) : (s.modCtx n f).fabricRing = s.fabricRing := rfl
@[simp] theorem State.modCtx_fabricWaiting (s : State) (n : Nat) (f : Ctx → Ctx) : (s.modCtx n f).fabricWaiting = s.fabricWaiting := rfl
@[simp] theorem State.modCtx_eth (s : State) (n : Nat) (f : Ctx → Ctx) : (s.modCtx n f).eth = s.eth := rfl
@[simp] theorem State.modCtx_retrains (s : State) (n : Nat) (f : Ctx → Ctx) : (s.modCtx n f).retrains = s.retrains := rfl
@[simp] theorem State.modCtx_deadPorts (s : State) (n : Nat) (f : Ctx → Ctx) : (s.modCtx n f).deadPorts = s.deadPorts := rfl
@[simp] theorem State.modCtx_link0 (s : State) (n : Nat) (f : Ctx → Ctx) : (s.modCtx n f).link0 = s.link0 := rfl
@[simp] theorem State.modCtx_link1 (s : State) (n : Nat) (f : Ctx → Ctx) : (s.modCtx n f).link1 = s.link1 := rfl
@[simp] theorem State.modCtx_hostReply (s : State) (n : Nat) (f : Ctx → Ctx) : (s.modCtx n f).hostReply = s.hostReply := rfl
@[simp] theorem State.modCtx_reports (s : State) (n : Nat) (f : Ctx → Ctx) : (s.modCtx n f).reports = s.reports := rfl
@[simp] theorem State.modCtx_studioNotices (s : State) (n : Nat) (f : Ctx → Ctx) : (s.modCtx n f).studioNotices = s.studioNotices := rfl
@[simp] theorem State.modCtx_attestation (s : State) (n : Nat) (f : Ctx → Ctx) : (s.modCtx n f).attestation = s.attestation := rfl
@[simp] theorem State.modCtx_termWord (s : State) (n : Nat) (f : Ctx → Ctx) : (s.modCtx n f).termWord = s.termWord := rfl
@[simp] theorem State.modCtx_start (s : State) (n : Nat) (f : Ctx → Ctx) : (s.modCtx n f).start = s.start := rfl
@[simp] theorem State.modCtx_measures (s : State) (n : Nat) (f : Ctx → Ctx) : (s.modCtx n f).measures = s.measures := rfl
@[simp] theorem State.modCtx_flash (s : State) (n : Nat) (f : Ctx → Ctx) : (s.modCtx n f).flash = s.flash := rfl
@[simp] theorem State.modCtx_icBusy (s : State) (n : Nat) (f : Ctx → Ctx) : (s.modCtx n f).icBusy = s.icBusy := rfl
@[simp] theorem State.modCtx_powered (s : State) (n : Nat) (f : Ctx → Ctx) : (s.modCtx n f).powered = s.powered := rfl
@[simp] theorem State.modCtx_stopped (s : State) (n : Nat) (f : Ctx → Ctx) : (s.modCtx n f).stopped = s.stopped := rfl
@[simp] theorem State.modCtx_agenda (s : State) (n : Nat) (f : Ctx → Ctx) : (s.modCtx n f).agenda = s.agenda := rfl
@[simp] theorem State.modCtx_cur (s : State) (n : Nat) (f : Ctx → Ctx) : (s.modCtx n f).cur = s.cur := rfl
@[simp] theorem State.modCtx_free (s : State) (n : Nat) (f : Ctx → Ctx) : (s.modCtx n f).free = s.free := rfl
@[simp] theorem State.modCtx_ids (s : State) (n : Nat) (f : Ctx → Ctx) : (s.modCtx n f).ids = s.ids := rfl

/-! ## `modQueue` -/

@[simp] theorem State.modQueue_teams (s : State) (q : Nat) (f : QueueReg → QueueReg) : (s.modQueue q f).teams = s.teams := rfl
@[simp] theorem State.modQueue_ensembles (s : State) (q : Nat) (f : QueueReg → QueueReg) : (s.modQueue q f).ensembles = s.ensembles := rfl
@[simp] theorem State.modQueue_launches (s : State) (q : Nat) (f : QueueReg → QueueReg) : (s.modQueue q f).launches = s.launches := rfl
@[simp] theorem State.modQueue_cores (s : State) (q : Nat) (f : QueueReg → QueueReg) : (s.modQueue q f).cores = s.cores := rfl
@[simp] theorem State.modQueue_seqs (s : State) (q : Nat) (f : QueueReg → QueueReg) : (s.modQueue q f).seqs = s.seqs := rfl
@[simp] theorem State.modQueue_dies (s : State) (q : Nat) (f : QueueReg → QueueReg) : (s.modQueue q f).dies = s.dies := rfl
@[simp] theorem State.modQueue_chips (s : State) (q : Nat) (f : QueueReg → QueueReg) : (s.modQueue q f).chips = s.chips := rfl
@[simp] theorem State.modQueue_mem (s : State) (q : Nat) (f : QueueReg → QueueReg) : (s.modQueue q f).mem = s.mem := rfl
@[simp] theorem State.modQueue_memPoison (s : State) (q : Nat) (f : QueueReg → QueueReg) : (s.modQueue q f).memPoison = s.memPoison := rfl
@[simp] theorem State.modQueue_remote (s : State) (q : Nat) (f : QueueReg → QueueReg) : (s.modQueue q f).remote = s.remote := rfl
@[simp] theorem State.modQueue_lostWrites (s : State) (q : Nat) (f : QueueReg → QueueReg) : (s.modQueue q f).lostWrites = s.lostWrites := rfl
@[simp] theorem State.modQueue_promotions (s : State) (q : Nat) (f : QueueReg → QueueReg) : (s.modQueue q f).promotions = s.promotions := rfl
@[simp] theorem State.modQueue_parkWaiters (s : State) (q : Nat) (f : QueueReg → QueueReg) : (s.modQueue q f).parkWaiters = s.parkWaiters := rfl
@[simp] theorem State.modQueue_invals (s : State) (q : Nat) (f : QueueReg → QueueReg) : (s.modQueue q f).invals = s.invals := rfl
@[simp] theorem State.modQueue_packets (s : State) (q : Nat) (f : QueueReg → QueueReg) : (s.modQueue q f).packets = s.packets := rfl
@[simp] theorem State.modQueue_zsc (s : State) (q : Nat) (f : QueueReg → QueueReg) : (s.modQueue q f).zsc = s.zsc := rfl
@[simp] theorem State.modQueue_posts (s : State) (q : Nat) (f : QueueReg → QueueReg) : (s.modQueue q f).posts = s.posts := rfl
@[simp] theorem State.modQueue_tick (s : State) (q : Nat) (f : QueueReg → QueueReg) : (s.modQueue q f).tick = s.tick := rfl
@[simp] theorem State.modQueue_epoch (s : State) (q : Nat) (f : QueueReg → QueueReg) : (s.modQueue q f).epoch = s.epoch := rfl
@[simp] theorem State.modQueue_circuits (s : State) (q : Nat) (f : QueueReg → QueueReg) : (s.modQueue q f).circuits = s.circuits := rfl
@[simp] theorem State.modQueue_pairs (s : State) (q : Nat) (f : QueueReg → QueueReg) : (s.modQueue q f).pairs = s.pairs := rfl
@[simp] theorem State.modQueue_switchCmds (s : State) (q : Nat) (f : QueueReg → QueueReg) : (s.modQueue q f).switchCmds = s.switchCmds := rfl
@[simp] theorem State.modQueue_assignment (s : State) (q : Nat) (f : QueueReg → QueueReg) : (s.modQueue q f).assignment = s.assignment := rfl
@[simp] theorem State.modQueue_topology (s : State) (q : Nat) (f : QueueReg → QueueReg) : (s.modQueue q f).topology = s.topology := rfl
@[simp] theorem State.modQueue_syndromes (s : State) (q : Nat) (f : QueueReg → QueueReg) : (s.modQueue q f).syndromes = s.syndromes := rfl
@[simp] theorem State.modQueue_slots (s : State) (q : Nat) (f : QueueReg → QueueReg) : (s.modQueue q f).slots = s.slots := rfl
@[simp] theorem State.modQueue_ctxs (s : State) (q : Nat) (f : QueueReg → QueueReg) : (s.modQueue q f).ctxs = s.ctxs := rfl
@[simp] theorem State.modQueue_reservations (s : State) (q : Nat) (f : QueueReg → QueueReg) : (s.modQueue q f).reservations = s.reservations := rfl
@[simp] theorem State.modQueue_registrations (s : State) (q : Nat) (f : QueueReg → QueueReg) : (s.modQueue q f).registrations = s.registrations := rfl
@[simp] theorem State.modQueue_fabricOut (s : State) (q : Nat) (f : QueueReg → QueueReg) : (s.modQueue q f).fabricOut = s.fabricOut := rfl
@[simp] theorem State.modQueue_fabricNext (s : State) (q : Nat) (f : QueueReg → QueueReg) : (s.modQueue q f).fabricNext = s.fabricNext := rfl
@[simp] theorem State.modQueue_fabricRing (s : State) (q : Nat) (f : QueueReg → QueueReg) : (s.modQueue q f).fabricRing = s.fabricRing := rfl
@[simp] theorem State.modQueue_fabricWaiting (s : State) (q : Nat) (f : QueueReg → QueueReg) : (s.modQueue q f).fabricWaiting = s.fabricWaiting := rfl
@[simp] theorem State.modQueue_eth (s : State) (q : Nat) (f : QueueReg → QueueReg) : (s.modQueue q f).eth = s.eth := rfl
@[simp] theorem State.modQueue_retrains (s : State) (q : Nat) (f : QueueReg → QueueReg) : (s.modQueue q f).retrains = s.retrains := rfl
@[simp] theorem State.modQueue_deadPorts (s : State) (q : Nat) (f : QueueReg → QueueReg) : (s.modQueue q f).deadPorts = s.deadPorts := rfl
@[simp] theorem State.modQueue_link0 (s : State) (q : Nat) (f : QueueReg → QueueReg) : (s.modQueue q f).link0 = s.link0 := rfl
@[simp] theorem State.modQueue_link1 (s : State) (q : Nat) (f : QueueReg → QueueReg) : (s.modQueue q f).link1 = s.link1 := rfl
@[simp] theorem State.modQueue_hostReply (s : State) (q : Nat) (f : QueueReg → QueueReg) : (s.modQueue q f).hostReply = s.hostReply := rfl
@[simp] theorem State.modQueue_reports (s : State) (q : Nat) (f : QueueReg → QueueReg) : (s.modQueue q f).reports = s.reports := rfl
@[simp] theorem State.modQueue_studioNotices (s : State) (q : Nat) (f : QueueReg → QueueReg) : (s.modQueue q f).studioNotices = s.studioNotices := rfl
@[simp] theorem State.modQueue_attestation (s : State) (q : Nat) (f : QueueReg → QueueReg) : (s.modQueue q f).attestation = s.attestation := rfl
@[simp] theorem State.modQueue_termWord (s : State) (q : Nat) (f : QueueReg → QueueReg) : (s.modQueue q f).termWord = s.termWord := rfl
@[simp] theorem State.modQueue_start (s : State) (q : Nat) (f : QueueReg → QueueReg) : (s.modQueue q f).start = s.start := rfl
@[simp] theorem State.modQueue_measures (s : State) (q : Nat) (f : QueueReg → QueueReg) : (s.modQueue q f).measures = s.measures := rfl
@[simp] theorem State.modQueue_flash (s : State) (q : Nat) (f : QueueReg → QueueReg) : (s.modQueue q f).flash = s.flash := rfl
@[simp] theorem State.modQueue_icBusy (s : State) (q : Nat) (f : QueueReg → QueueReg) : (s.modQueue q f).icBusy = s.icBusy := rfl
@[simp] theorem State.modQueue_powered (s : State) (q : Nat) (f : QueueReg → QueueReg) : (s.modQueue q f).powered = s.powered := rfl
@[simp] theorem State.modQueue_stopped (s : State) (q : Nat) (f : QueueReg → QueueReg) : (s.modQueue q f).stopped = s.stopped := rfl
@[simp] theorem State.modQueue_agenda (s : State) (q : Nat) (f : QueueReg → QueueReg) : (s.modQueue q f).agenda = s.agenda := rfl
@[simp] theorem State.modQueue_cur (s : State) (q : Nat) (f : QueueReg → QueueReg) : (s.modQueue q f).cur = s.cur := rfl
@[simp] theorem State.modQueue_free (s : State) (q : Nat) (f : QueueReg → QueueReg) : (s.modQueue q f).free = s.free := rfl
@[simp] theorem State.modQueue_ids (s : State) (q : Nat) (f : QueueReg → QueueReg) : (s.modQueue q f).ids = s.ids := rfl

/-! ## `modPair` -/

@[simp] theorem State.modPair_teams (s : State) (i j : Nat) (f : Pair → Pair) : (s.modPair i j f).teams = s.teams := rfl
@[simp] theorem State.modPair_ensembles (s : State) (i j : Nat) (f : Pair → Pair) : (s.modPair i j f).ensembles = s.ensembles := rfl
@[simp] theorem State.modPair_launches (s : State) (i j : Nat) (f : Pair → Pair) : (s.modPair i j f).launches = s.launches := rfl
@[simp] theorem State.modPair_cores (s : State) (i j : Nat) (f : Pair → Pair) : (s.modPair i j f).cores = s.cores := rfl
@[simp] theorem State.modPair_seqs (s : State) (i j : Nat) (f : Pair → Pair) : (s.modPair i j f).seqs = s.seqs := rfl
@[simp] theorem State.modPair_dies (s : State) (i j : Nat) (f : Pair → Pair) : (s.modPair i j f).dies = s.dies := rfl
@[simp] theorem State.modPair_chips (s : State) (i j : Nat) (f : Pair → Pair) : (s.modPair i j f).chips = s.chips := rfl
@[simp] theorem State.modPair_mem (s : State) (i j : Nat) (f : Pair → Pair) : (s.modPair i j f).mem = s.mem := rfl
@[simp] theorem State.modPair_memPoison (s : State) (i j : Nat) (f : Pair → Pair) : (s.modPair i j f).memPoison = s.memPoison := rfl
@[simp] theorem State.modPair_remote (s : State) (i j : Nat) (f : Pair → Pair) : (s.modPair i j f).remote = s.remote := rfl
@[simp] theorem State.modPair_lostWrites (s : State) (i j : Nat) (f : Pair → Pair) : (s.modPair i j f).lostWrites = s.lostWrites := rfl
@[simp] theorem State.modPair_promotions (s : State) (i j : Nat) (f : Pair → Pair) : (s.modPair i j f).promotions = s.promotions := rfl
@[simp] theorem State.modPair_parkWaiters (s : State) (i j : Nat) (f : Pair → Pair) : (s.modPair i j f).parkWaiters = s.parkWaiters := rfl
@[simp] theorem State.modPair_invals (s : State) (i j : Nat) (f : Pair → Pair) : (s.modPair i j f).invals = s.invals := rfl
@[simp] theorem State.modPair_packets (s : State) (i j : Nat) (f : Pair → Pair) : (s.modPair i j f).packets = s.packets := rfl
@[simp] theorem State.modPair_zsc (s : State) (i j : Nat) (f : Pair → Pair) : (s.modPair i j f).zsc = s.zsc := rfl
@[simp] theorem State.modPair_posts (s : State) (i j : Nat) (f : Pair → Pair) : (s.modPair i j f).posts = s.posts := rfl
@[simp] theorem State.modPair_tick (s : State) (i j : Nat) (f : Pair → Pair) : (s.modPair i j f).tick = s.tick := rfl
@[simp] theorem State.modPair_epoch (s : State) (i j : Nat) (f : Pair → Pair) : (s.modPair i j f).epoch = s.epoch := rfl
@[simp] theorem State.modPair_circuits (s : State) (i j : Nat) (f : Pair → Pair) : (s.modPair i j f).circuits = s.circuits := rfl
@[simp] theorem State.modPair_switchCmds (s : State) (i j : Nat) (f : Pair → Pair) : (s.modPair i j f).switchCmds = s.switchCmds := rfl
@[simp] theorem State.modPair_assignment (s : State) (i j : Nat) (f : Pair → Pair) : (s.modPair i j f).assignment = s.assignment := rfl
@[simp] theorem State.modPair_topology (s : State) (i j : Nat) (f : Pair → Pair) : (s.modPair i j f).topology = s.topology := rfl
@[simp] theorem State.modPair_syndromes (s : State) (i j : Nat) (f : Pair → Pair) : (s.modPair i j f).syndromes = s.syndromes := rfl
@[simp] theorem State.modPair_queues (s : State) (i j : Nat) (f : Pair → Pair) : (s.modPair i j f).queues = s.queues := rfl
@[simp] theorem State.modPair_slots (s : State) (i j : Nat) (f : Pair → Pair) : (s.modPair i j f).slots = s.slots := rfl
@[simp] theorem State.modPair_ctxs (s : State) (i j : Nat) (f : Pair → Pair) : (s.modPair i j f).ctxs = s.ctxs := rfl
@[simp] theorem State.modPair_reservations (s : State) (i j : Nat) (f : Pair → Pair) : (s.modPair i j f).reservations = s.reservations := rfl
@[simp] theorem State.modPair_registrations (s : State) (i j : Nat) (f : Pair → Pair) : (s.modPair i j f).registrations = s.registrations := rfl
@[simp] theorem State.modPair_fabricOut (s : State) (i j : Nat) (f : Pair → Pair) : (s.modPair i j f).fabricOut = s.fabricOut := rfl
@[simp] theorem State.modPair_fabricNext (s : State) (i j : Nat) (f : Pair → Pair) : (s.modPair i j f).fabricNext = s.fabricNext := rfl
@[simp] theorem State.modPair_fabricRing (s : State) (i j : Nat) (f : Pair → Pair) : (s.modPair i j f).fabricRing = s.fabricRing := rfl
@[simp] theorem State.modPair_fabricWaiting (s : State) (i j : Nat) (f : Pair → Pair) : (s.modPair i j f).fabricWaiting = s.fabricWaiting := rfl
@[simp] theorem State.modPair_eth (s : State) (i j : Nat) (f : Pair → Pair) : (s.modPair i j f).eth = s.eth := rfl
@[simp] theorem State.modPair_retrains (s : State) (i j : Nat) (f : Pair → Pair) : (s.modPair i j f).retrains = s.retrains := rfl
@[simp] theorem State.modPair_deadPorts (s : State) (i j : Nat) (f : Pair → Pair) : (s.modPair i j f).deadPorts = s.deadPorts := rfl
@[simp] theorem State.modPair_link0 (s : State) (i j : Nat) (f : Pair → Pair) : (s.modPair i j f).link0 = s.link0 := rfl
@[simp] theorem State.modPair_link1 (s : State) (i j : Nat) (f : Pair → Pair) : (s.modPair i j f).link1 = s.link1 := rfl
@[simp] theorem State.modPair_hostReply (s : State) (i j : Nat) (f : Pair → Pair) : (s.modPair i j f).hostReply = s.hostReply := rfl
@[simp] theorem State.modPair_reports (s : State) (i j : Nat) (f : Pair → Pair) : (s.modPair i j f).reports = s.reports := rfl
@[simp] theorem State.modPair_studioNotices (s : State) (i j : Nat) (f : Pair → Pair) : (s.modPair i j f).studioNotices = s.studioNotices := rfl
@[simp] theorem State.modPair_attestation (s : State) (i j : Nat) (f : Pair → Pair) : (s.modPair i j f).attestation = s.attestation := rfl
@[simp] theorem State.modPair_termWord (s : State) (i j : Nat) (f : Pair → Pair) : (s.modPair i j f).termWord = s.termWord := rfl
@[simp] theorem State.modPair_start (s : State) (i j : Nat) (f : Pair → Pair) : (s.modPair i j f).start = s.start := rfl
@[simp] theorem State.modPair_measures (s : State) (i j : Nat) (f : Pair → Pair) : (s.modPair i j f).measures = s.measures := rfl
@[simp] theorem State.modPair_flash (s : State) (i j : Nat) (f : Pair → Pair) : (s.modPair i j f).flash = s.flash := rfl
@[simp] theorem State.modPair_icBusy (s : State) (i j : Nat) (f : Pair → Pair) : (s.modPair i j f).icBusy = s.icBusy := rfl
@[simp] theorem State.modPair_powered (s : State) (i j : Nat) (f : Pair → Pair) : (s.modPair i j f).powered = s.powered := rfl
@[simp] theorem State.modPair_stopped (s : State) (i j : Nat) (f : Pair → Pair) : (s.modPair i j f).stopped = s.stopped := rfl
@[simp] theorem State.modPair_agenda (s : State) (i j : Nat) (f : Pair → Pair) : (s.modPair i j f).agenda = s.agenda := rfl
@[simp] theorem State.modPair_cur (s : State) (i j : Nat) (f : Pair → Pair) : (s.modPair i j f).cur = s.cur := rfl
@[simp] theorem State.modPair_free (s : State) (i j : Nat) (f : Pair → Pair) : (s.modPair i j f).free = s.free := rfl
@[simp] theorem State.modPair_ids (s : State) (i j : Nat) (f : Pair → Pair) : (s.modPair i j f).ids = s.ids := rfl

/-! ## `modLaunch` -/

@[simp] theorem State.modLaunch_teams (s : State) (k : Nat) (f : Launch → Launch) : (s.modLaunch k f).teams = s.teams := rfl
@[simp] theorem State.modLaunch_ensembles (s : State) (k : Nat) (f : Launch → Launch) : (s.modLaunch k f).ensembles = s.ensembles := rfl
@[simp] theorem State.modLaunch_cores (s : State) (k : Nat) (f : Launch → Launch) : (s.modLaunch k f).cores = s.cores := rfl
@[simp] theorem State.modLaunch_seqs (s : State) (k : Nat) (f : Launch → Launch) : (s.modLaunch k f).seqs = s.seqs := rfl
@[simp] theorem State.modLaunch_dies (s : State) (k : Nat) (f : Launch → Launch) : (s.modLaunch k f).dies = s.dies := rfl
@[simp] theorem State.modLaunch_chips (s : State) (k : Nat) (f : Launch → Launch) : (s.modLaunch k f).chips = s.chips := rfl
@[simp] theorem State.modLaunch_mem (s : State) (k : Nat) (f : Launch → Launch) : (s.modLaunch k f).mem = s.mem := rfl
@[simp] theorem State.modLaunch_memPoison (s : State) (k : Nat) (f : Launch → Launch) : (s.modLaunch k f).memPoison = s.memPoison := rfl
@[simp] theorem State.modLaunch_remote (s : State) (k : Nat) (f : Launch → Launch) : (s.modLaunch k f).remote = s.remote := rfl
@[simp] theorem State.modLaunch_lostWrites (s : State) (k : Nat) (f : Launch → Launch) : (s.modLaunch k f).lostWrites = s.lostWrites := rfl
@[simp] theorem State.modLaunch_promotions (s : State) (k : Nat) (f : Launch → Launch) : (s.modLaunch k f).promotions = s.promotions := rfl
@[simp] theorem State.modLaunch_parkWaiters (s : State) (k : Nat) (f : Launch → Launch) : (s.modLaunch k f).parkWaiters = s.parkWaiters := rfl
@[simp] theorem State.modLaunch_invals (s : State) (k : Nat) (f : Launch → Launch) : (s.modLaunch k f).invals = s.invals := rfl
@[simp] theorem State.modLaunch_packets (s : State) (k : Nat) (f : Launch → Launch) : (s.modLaunch k f).packets = s.packets := rfl
@[simp] theorem State.modLaunch_zsc (s : State) (k : Nat) (f : Launch → Launch) : (s.modLaunch k f).zsc = s.zsc := rfl
@[simp] theorem State.modLaunch_posts (s : State) (k : Nat) (f : Launch → Launch) : (s.modLaunch k f).posts = s.posts := rfl
@[simp] theorem State.modLaunch_tick (s : State) (k : Nat) (f : Launch → Launch) : (s.modLaunch k f).tick = s.tick := rfl
@[simp] theorem State.modLaunch_epoch (s : State) (k : Nat) (f : Launch → Launch) : (s.modLaunch k f).epoch = s.epoch := rfl
@[simp] theorem State.modLaunch_circuits (s : State) (k : Nat) (f : Launch → Launch) : (s.modLaunch k f).circuits = s.circuits := rfl
@[simp] theorem State.modLaunch_pairs (s : State) (k : Nat) (f : Launch → Launch) : (s.modLaunch k f).pairs = s.pairs := rfl
@[simp] theorem State.modLaunch_switchCmds (s : State) (k : Nat) (f : Launch → Launch) : (s.modLaunch k f).switchCmds = s.switchCmds := rfl
@[simp] theorem State.modLaunch_assignment (s : State) (k : Nat) (f : Launch → Launch) : (s.modLaunch k f).assignment = s.assignment := rfl
@[simp] theorem State.modLaunch_topology (s : State) (k : Nat) (f : Launch → Launch) : (s.modLaunch k f).topology = s.topology := rfl
@[simp] theorem State.modLaunch_syndromes (s : State) (k : Nat) (f : Launch → Launch) : (s.modLaunch k f).syndromes = s.syndromes := rfl
@[simp] theorem State.modLaunch_queues (s : State) (k : Nat) (f : Launch → Launch) : (s.modLaunch k f).queues = s.queues := rfl
@[simp] theorem State.modLaunch_slots (s : State) (k : Nat) (f : Launch → Launch) : (s.modLaunch k f).slots = s.slots := rfl
@[simp] theorem State.modLaunch_ctxs (s : State) (k : Nat) (f : Launch → Launch) : (s.modLaunch k f).ctxs = s.ctxs := rfl
@[simp] theorem State.modLaunch_reservations (s : State) (k : Nat) (f : Launch → Launch) : (s.modLaunch k f).reservations = s.reservations := rfl
@[simp] theorem State.modLaunch_registrations (s : State) (k : Nat) (f : Launch → Launch) : (s.modLaunch k f).registrations = s.registrations := rfl
@[simp] theorem State.modLaunch_fabricOut (s : State) (k : Nat) (f : Launch → Launch) : (s.modLaunch k f).fabricOut = s.fabricOut := rfl
@[simp] theorem State.modLaunch_fabricNext (s : State) (k : Nat) (f : Launch → Launch) : (s.modLaunch k f).fabricNext = s.fabricNext := rfl
@[simp] theorem State.modLaunch_fabricRing (s : State) (k : Nat) (f : Launch → Launch) : (s.modLaunch k f).fabricRing = s.fabricRing := rfl
@[simp] theorem State.modLaunch_fabricWaiting (s : State) (k : Nat) (f : Launch → Launch) : (s.modLaunch k f).fabricWaiting = s.fabricWaiting := rfl
@[simp] theorem State.modLaunch_eth (s : State) (k : Nat) (f : Launch → Launch) : (s.modLaunch k f).eth = s.eth := rfl
@[simp] theorem State.modLaunch_retrains (s : State) (k : Nat) (f : Launch → Launch) : (s.modLaunch k f).retrains = s.retrains := rfl
@[simp] theorem State.modLaunch_deadPorts (s : State) (k : Nat) (f : Launch → Launch) : (s.modLaunch k f).deadPorts = s.deadPorts := rfl
@[simp] theorem State.modLaunch_link0 (s : State) (k : Nat) (f : Launch → Launch) : (s.modLaunch k f).link0 = s.link0 := rfl
@[simp] theorem State.modLaunch_link1 (s : State) (k : Nat) (f : Launch → Launch) : (s.modLaunch k f).link1 = s.link1 := rfl
@[simp] theorem State.modLaunch_hostReply (s : State) (k : Nat) (f : Launch → Launch) : (s.modLaunch k f).hostReply = s.hostReply := rfl
@[simp] theorem State.modLaunch_reports (s : State) (k : Nat) (f : Launch → Launch) : (s.modLaunch k f).reports = s.reports := rfl
@[simp] theorem State.modLaunch_studioNotices (s : State) (k : Nat) (f : Launch → Launch) : (s.modLaunch k f).studioNotices = s.studioNotices := rfl
@[simp] theorem State.modLaunch_attestation (s : State) (k : Nat) (f : Launch → Launch) : (s.modLaunch k f).attestation = s.attestation := rfl
@[simp] theorem State.modLaunch_termWord (s : State) (k : Nat) (f : Launch → Launch) : (s.modLaunch k f).termWord = s.termWord := rfl
@[simp] theorem State.modLaunch_start (s : State) (k : Nat) (f : Launch → Launch) : (s.modLaunch k f).start = s.start := rfl
@[simp] theorem State.modLaunch_measures (s : State) (k : Nat) (f : Launch → Launch) : (s.modLaunch k f).measures = s.measures := rfl
@[simp] theorem State.modLaunch_flash (s : State) (k : Nat) (f : Launch → Launch) : (s.modLaunch k f).flash = s.flash := rfl
@[simp] theorem State.modLaunch_icBusy (s : State) (k : Nat) (f : Launch → Launch) : (s.modLaunch k f).icBusy = s.icBusy := rfl
@[simp] theorem State.modLaunch_powered (s : State) (k : Nat) (f : Launch → Launch) : (s.modLaunch k f).powered = s.powered := rfl
@[simp] theorem State.modLaunch_stopped (s : State) (k : Nat) (f : Launch → Launch) : (s.modLaunch k f).stopped = s.stopped := rfl
@[simp] theorem State.modLaunch_agenda (s : State) (k : Nat) (f : Launch → Launch) : (s.modLaunch k f).agenda = s.agenda := rfl
@[simp] theorem State.modLaunch_cur (s : State) (k : Nat) (f : Launch → Launch) : (s.modLaunch k f).cur = s.cur := rfl
@[simp] theorem State.modLaunch_free (s : State) (k : Nat) (f : Launch → Launch) : (s.modLaunch k f).free = s.free := rfl
@[simp] theorem State.modLaunch_ids (s : State) (k : Nat) (f : Launch → Launch) : (s.modLaunch k f).ids = s.ids := rfl

/-! ## `modEnsemble` -/

@[simp] theorem State.modEnsemble_teams (s : State) (e : Nat) (f : Ensemble → Ensemble) : (s.modEnsemble e f).teams = s.teams := rfl
@[simp] theorem State.modEnsemble_launches (s : State) (e : Nat) (f : Ensemble → Ensemble) : (s.modEnsemble e f).launches = s.launches := rfl
@[simp] theorem State.modEnsemble_cores (s : State) (e : Nat) (f : Ensemble → Ensemble) : (s.modEnsemble e f).cores = s.cores := rfl
@[simp] theorem State.modEnsemble_seqs (s : State) (e : Nat) (f : Ensemble → Ensemble) : (s.modEnsemble e f).seqs = s.seqs := rfl
@[simp] theorem State.modEnsemble_dies (s : State) (e : Nat) (f : Ensemble → Ensemble) : (s.modEnsemble e f).dies = s.dies := rfl
@[simp] theorem State.modEnsemble_chips (s : State) (e : Nat) (f : Ensemble → Ensemble) : (s.modEnsemble e f).chips = s.chips := rfl
@[simp] theorem State.modEnsemble_mem (s : State) (e : Nat) (f : Ensemble → Ensemble) : (s.modEnsemble e f).mem = s.mem := rfl
@[simp] theorem State.modEnsemble_memPoison (s : State) (e : Nat) (f : Ensemble → Ensemble) : (s.modEnsemble e f).memPoison = s.memPoison := rfl
@[simp] theorem State.modEnsemble_remote (s : State) (e : Nat) (f : Ensemble → Ensemble) : (s.modEnsemble e f).remote = s.remote := rfl
@[simp] theorem State.modEnsemble_lostWrites (s : State) (e : Nat) (f : Ensemble → Ensemble) : (s.modEnsemble e f).lostWrites = s.lostWrites := rfl
@[simp] theorem State.modEnsemble_promotions (s : State) (e : Nat) (f : Ensemble → Ensemble) : (s.modEnsemble e f).promotions = s.promotions := rfl
@[simp] theorem State.modEnsemble_parkWaiters (s : State) (e : Nat) (f : Ensemble → Ensemble) : (s.modEnsemble e f).parkWaiters = s.parkWaiters := rfl
@[simp] theorem State.modEnsemble_invals (s : State) (e : Nat) (f : Ensemble → Ensemble) : (s.modEnsemble e f).invals = s.invals := rfl
@[simp] theorem State.modEnsemble_packets (s : State) (e : Nat) (f : Ensemble → Ensemble) : (s.modEnsemble e f).packets = s.packets := rfl
@[simp] theorem State.modEnsemble_zsc (s : State) (e : Nat) (f : Ensemble → Ensemble) : (s.modEnsemble e f).zsc = s.zsc := rfl
@[simp] theorem State.modEnsemble_posts (s : State) (e : Nat) (f : Ensemble → Ensemble) : (s.modEnsemble e f).posts = s.posts := rfl
@[simp] theorem State.modEnsemble_tick (s : State) (e : Nat) (f : Ensemble → Ensemble) : (s.modEnsemble e f).tick = s.tick := rfl
@[simp] theorem State.modEnsemble_epoch (s : State) (e : Nat) (f : Ensemble → Ensemble) : (s.modEnsemble e f).epoch = s.epoch := rfl
@[simp] theorem State.modEnsemble_circuits (s : State) (e : Nat) (f : Ensemble → Ensemble) : (s.modEnsemble e f).circuits = s.circuits := rfl
@[simp] theorem State.modEnsemble_pairs (s : State) (e : Nat) (f : Ensemble → Ensemble) : (s.modEnsemble e f).pairs = s.pairs := rfl
@[simp] theorem State.modEnsemble_switchCmds (s : State) (e : Nat) (f : Ensemble → Ensemble) : (s.modEnsemble e f).switchCmds = s.switchCmds := rfl
@[simp] theorem State.modEnsemble_assignment (s : State) (e : Nat) (f : Ensemble → Ensemble) : (s.modEnsemble e f).assignment = s.assignment := rfl
@[simp] theorem State.modEnsemble_topology (s : State) (e : Nat) (f : Ensemble → Ensemble) : (s.modEnsemble e f).topology = s.topology := rfl
@[simp] theorem State.modEnsemble_syndromes (s : State) (e : Nat) (f : Ensemble → Ensemble) : (s.modEnsemble e f).syndromes = s.syndromes := rfl
@[simp] theorem State.modEnsemble_queues (s : State) (e : Nat) (f : Ensemble → Ensemble) : (s.modEnsemble e f).queues = s.queues := rfl
@[simp] theorem State.modEnsemble_slots (s : State) (e : Nat) (f : Ensemble → Ensemble) : (s.modEnsemble e f).slots = s.slots := rfl
@[simp] theorem State.modEnsemble_ctxs (s : State) (e : Nat) (f : Ensemble → Ensemble) : (s.modEnsemble e f).ctxs = s.ctxs := rfl
@[simp] theorem State.modEnsemble_reservations (s : State) (e : Nat) (f : Ensemble → Ensemble) : (s.modEnsemble e f).reservations = s.reservations := rfl
@[simp] theorem State.modEnsemble_registrations (s : State) (e : Nat) (f : Ensemble → Ensemble) : (s.modEnsemble e f).registrations = s.registrations := rfl
@[simp] theorem State.modEnsemble_fabricOut (s : State) (e : Nat) (f : Ensemble → Ensemble) : (s.modEnsemble e f).fabricOut = s.fabricOut := rfl
@[simp] theorem State.modEnsemble_fabricNext (s : State) (e : Nat) (f : Ensemble → Ensemble) : (s.modEnsemble e f).fabricNext = s.fabricNext := rfl
@[simp] theorem State.modEnsemble_fabricRing (s : State) (e : Nat) (f : Ensemble → Ensemble) : (s.modEnsemble e f).fabricRing = s.fabricRing := rfl
@[simp] theorem State.modEnsemble_fabricWaiting (s : State) (e : Nat) (f : Ensemble → Ensemble) : (s.modEnsemble e f).fabricWaiting = s.fabricWaiting := rfl
@[simp] theorem State.modEnsemble_eth (s : State) (e : Nat) (f : Ensemble → Ensemble) : (s.modEnsemble e f).eth = s.eth := rfl
@[simp] theorem State.modEnsemble_retrains (s : State) (e : Nat) (f : Ensemble → Ensemble) : (s.modEnsemble e f).retrains = s.retrains := rfl
@[simp] theorem State.modEnsemble_deadPorts (s : State) (e : Nat) (f : Ensemble → Ensemble) : (s.modEnsemble e f).deadPorts = s.deadPorts := rfl
@[simp] theorem State.modEnsemble_link0 (s : State) (e : Nat) (f : Ensemble → Ensemble) : (s.modEnsemble e f).link0 = s.link0 := rfl
@[simp] theorem State.modEnsemble_link1 (s : State) (e : Nat) (f : Ensemble → Ensemble) : (s.modEnsemble e f).link1 = s.link1 := rfl
@[simp] theorem State.modEnsemble_hostReply (s : State) (e : Nat) (f : Ensemble → Ensemble) : (s.modEnsemble e f).hostReply = s.hostReply := rfl
@[simp] theorem State.modEnsemble_reports (s : State) (e : Nat) (f : Ensemble → Ensemble) : (s.modEnsemble e f).reports = s.reports := rfl
@[simp] theorem State.modEnsemble_studioNotices (s : State) (e : Nat) (f : Ensemble → Ensemble) : (s.modEnsemble e f).studioNotices = s.studioNotices := rfl
@[simp] theorem State.modEnsemble_attestation (s : State) (e : Nat) (f : Ensemble → Ensemble) : (s.modEnsemble e f).attestation = s.attestation := rfl
@[simp] theorem State.modEnsemble_termWord (s : State) (e : Nat) (f : Ensemble → Ensemble) : (s.modEnsemble e f).termWord = s.termWord := rfl
@[simp] theorem State.modEnsemble_start (s : State) (e : Nat) (f : Ensemble → Ensemble) : (s.modEnsemble e f).start = s.start := rfl
@[simp] theorem State.modEnsemble_measures (s : State) (e : Nat) (f : Ensemble → Ensemble) : (s.modEnsemble e f).measures = s.measures := rfl
@[simp] theorem State.modEnsemble_flash (s : State) (e : Nat) (f : Ensemble → Ensemble) : (s.modEnsemble e f).flash = s.flash := rfl
@[simp] theorem State.modEnsemble_icBusy (s : State) (e : Nat) (f : Ensemble → Ensemble) : (s.modEnsemble e f).icBusy = s.icBusy := rfl
@[simp] theorem State.modEnsemble_powered (s : State) (e : Nat) (f : Ensemble → Ensemble) : (s.modEnsemble e f).powered = s.powered := rfl
@[simp] theorem State.modEnsemble_stopped (s : State) (e : Nat) (f : Ensemble → Ensemble) : (s.modEnsemble e f).stopped = s.stopped := rfl
@[simp] theorem State.modEnsemble_agenda (s : State) (e : Nat) (f : Ensemble → Ensemble) : (s.modEnsemble e f).agenda = s.agenda := rfl
@[simp] theorem State.modEnsemble_cur (s : State) (e : Nat) (f : Ensemble → Ensemble) : (s.modEnsemble e f).cur = s.cur := rfl
@[simp] theorem State.modEnsemble_free (s : State) (e : Nat) (f : Ensemble → Ensemble) : (s.modEnsemble e f).free = s.free := rfl
@[simp] theorem State.modEnsemble_ids (s : State) (e : Nat) (f : Ensemble → Ensemble) : (s.modEnsemble e f).ids = s.ids := rfl

/-! ## `bump` -/

@[simp] theorem State.bump_teams (s : State) : s.bump.teams = s.teams := rfl
@[simp] theorem State.bump_ensembles (s : State) : s.bump.ensembles = s.ensembles := rfl
@[simp] theorem State.bump_launches (s : State) : s.bump.launches = s.launches := rfl
@[simp] theorem State.bump_cores (s : State) : s.bump.cores = s.cores := rfl
@[simp] theorem State.bump_seqs (s : State) : s.bump.seqs = s.seqs := rfl
@[simp] theorem State.bump_dies (s : State) : s.bump.dies = s.dies := rfl
@[simp] theorem State.bump_chips (s : State) : s.bump.chips = s.chips := rfl
@[simp] theorem State.bump_mem (s : State) : s.bump.mem = s.mem := rfl
@[simp] theorem State.bump_memPoison (s : State) : s.bump.memPoison = s.memPoison := rfl
@[simp] theorem State.bump_remote (s : State) : s.bump.remote = s.remote := rfl
@[simp] theorem State.bump_lostWrites (s : State) : s.bump.lostWrites = s.lostWrites := rfl
@[simp] theorem State.bump_promotions (s : State) : s.bump.promotions = s.promotions := rfl
@[simp] theorem State.bump_parkWaiters (s : State) : s.bump.parkWaiters = s.parkWaiters := rfl
@[simp] theorem State.bump_invals (s : State) : s.bump.invals = s.invals := rfl
@[simp] theorem State.bump_packets (s : State) : s.bump.packets = s.packets := rfl
@[simp] theorem State.bump_zsc (s : State) : s.bump.zsc = s.zsc := rfl
@[simp] theorem State.bump_posts (s : State) : s.bump.posts = s.posts := rfl
@[simp] theorem State.bump_tick (s : State) : s.bump.tick = s.tick := rfl
@[simp] theorem State.bump_epoch (s : State) : s.bump.epoch = s.epoch := rfl
@[simp] theorem State.bump_circuits (s : State) : s.bump.circuits = s.circuits := rfl
@[simp] theorem State.bump_pairs (s : State) : s.bump.pairs = s.pairs := rfl
@[simp] theorem State.bump_switchCmds (s : State) : s.bump.switchCmds = s.switchCmds := rfl
@[simp] theorem State.bump_assignment (s : State) : s.bump.assignment = s.assignment := rfl
@[simp] theorem State.bump_topology (s : State) : s.bump.topology = s.topology := rfl
@[simp] theorem State.bump_syndromes (s : State) : s.bump.syndromes = s.syndromes := rfl
@[simp] theorem State.bump_queues (s : State) : s.bump.queues = s.queues := rfl
@[simp] theorem State.bump_slots (s : State) : s.bump.slots = s.slots := rfl
@[simp] theorem State.bump_ctxs (s : State) : s.bump.ctxs = s.ctxs := rfl
@[simp] theorem State.bump_reservations (s : State) : s.bump.reservations = s.reservations := rfl
@[simp] theorem State.bump_registrations (s : State) : s.bump.registrations = s.registrations := rfl
@[simp] theorem State.bump_fabricOut (s : State) : s.bump.fabricOut = s.fabricOut := rfl
@[simp] theorem State.bump_fabricNext (s : State) : s.bump.fabricNext = s.fabricNext := rfl
@[simp] theorem State.bump_fabricRing (s : State) : s.bump.fabricRing = s.fabricRing := rfl
@[simp] theorem State.bump_fabricWaiting (s : State) : s.bump.fabricWaiting = s.fabricWaiting := rfl
@[simp] theorem State.bump_eth (s : State) : s.bump.eth = s.eth := rfl
@[simp] theorem State.bump_retrains (s : State) : s.bump.retrains = s.retrains := rfl
@[simp] theorem State.bump_deadPorts (s : State) : s.bump.deadPorts = s.deadPorts := rfl
@[simp] theorem State.bump_link0 (s : State) : s.bump.link0 = s.link0 := rfl
@[simp] theorem State.bump_link1 (s : State) : s.bump.link1 = s.link1 := rfl
@[simp] theorem State.bump_hostReply (s : State) : s.bump.hostReply = s.hostReply := rfl
@[simp] theorem State.bump_reports (s : State) : s.bump.reports = s.reports := rfl
@[simp] theorem State.bump_studioNotices (s : State) : s.bump.studioNotices = s.studioNotices := rfl
@[simp] theorem State.bump_attestation (s : State) : s.bump.attestation = s.attestation := rfl
@[simp] theorem State.bump_termWord (s : State) : s.bump.termWord = s.termWord := rfl
@[simp] theorem State.bump_start (s : State) : s.bump.start = s.start := rfl
@[simp] theorem State.bump_measures (s : State) : s.bump.measures = s.measures := rfl
@[simp] theorem State.bump_flash (s : State) : s.bump.flash = s.flash := rfl
@[simp] theorem State.bump_icBusy (s : State) : s.bump.icBusy = s.icBusy := rfl
@[simp] theorem State.bump_powered (s : State) : s.bump.powered = s.powered := rfl
@[simp] theorem State.bump_stopped (s : State) : s.bump.stopped = s.stopped := rfl
@[simp] theorem State.bump_agenda (s : State) : s.bump.agenda = s.agenda := rfl
@[simp] theorem State.bump_cur (s : State) : s.bump.cur = s.cur := rfl
@[simp] theorem State.bump_free (s : State) : s.bump.free = s.free := rfl

/-! ## `countPerf` -/

@[simp] theorem countPerf_teams (c e n : Nat) (s : State) : (countPerf c e n s).teams = s.teams := rfl
@[simp] theorem countPerf_ensembles (c e n : Nat) (s : State) : (countPerf c e n s).ensembles = s.ensembles := rfl
@[simp] theorem countPerf_launches (c e n : Nat) (s : State) : (countPerf c e n s).launches = s.launches := rfl
@[simp] theorem countPerf_seqs (c e n : Nat) (s : State) : (countPerf c e n s).seqs = s.seqs := rfl
@[simp] theorem countPerf_dies (c e n : Nat) (s : State) : (countPerf c e n s).dies = s.dies := rfl
@[simp] theorem countPerf_chips (c e n : Nat) (s : State) : (countPerf c e n s).chips = s.chips := rfl
@[simp] theorem countPerf_mem (c e n : Nat) (s : State) : (countPerf c e n s).mem = s.mem := rfl
@[simp] theorem countPerf_memPoison (c e n : Nat) (s : State) : (countPerf c e n s).memPoison = s.memPoison := rfl
@[simp] theorem countPerf_remote (c e n : Nat) (s : State) : (countPerf c e n s).remote = s.remote := rfl
@[simp] theorem countPerf_lostWrites (c e n : Nat) (s : State) : (countPerf c e n s).lostWrites = s.lostWrites := rfl
@[simp] theorem countPerf_promotions (c e n : Nat) (s : State) : (countPerf c e n s).promotions = s.promotions := rfl
@[simp] theorem countPerf_parkWaiters (c e n : Nat) (s : State) : (countPerf c e n s).parkWaiters = s.parkWaiters := rfl
@[simp] theorem countPerf_invals (c e n : Nat) (s : State) : (countPerf c e n s).invals = s.invals := rfl
@[simp] theorem countPerf_packets (c e n : Nat) (s : State) : (countPerf c e n s).packets = s.packets := rfl
@[simp] theorem countPerf_zsc (c e n : Nat) (s : State) : (countPerf c e n s).zsc = s.zsc := rfl
@[simp] theorem countPerf_posts (c e n : Nat) (s : State) : (countPerf c e n s).posts = s.posts := rfl
@[simp] theorem countPerf_tick (c e n : Nat) (s : State) : (countPerf c e n s).tick = s.tick := rfl
@[simp] theorem countPerf_epoch (c e n : Nat) (s : State) : (countPerf c e n s).epoch = s.epoch := rfl
@[simp] theorem countPerf_circuits (c e n : Nat) (s : State) : (countPerf c e n s).circuits = s.circuits := rfl
@[simp] theorem countPerf_pairs (c e n : Nat) (s : State) : (countPerf c e n s).pairs = s.pairs := rfl
@[simp] theorem countPerf_switchCmds (c e n : Nat) (s : State) : (countPerf c e n s).switchCmds = s.switchCmds := rfl
@[simp] theorem countPerf_assignment (c e n : Nat) (s : State) : (countPerf c e n s).assignment = s.assignment := rfl
@[simp] theorem countPerf_topology (c e n : Nat) (s : State) : (countPerf c e n s).topology = s.topology := rfl
@[simp] theorem countPerf_syndromes (c e n : Nat) (s : State) : (countPerf c e n s).syndromes = s.syndromes := rfl
@[simp] theorem countPerf_queues (c e n : Nat) (s : State) : (countPerf c e n s).queues = s.queues := rfl
@[simp] theorem countPerf_slots (c e n : Nat) (s : State) : (countPerf c e n s).slots = s.slots := rfl
@[simp] theorem countPerf_ctxs (c e n : Nat) (s : State) : (countPerf c e n s).ctxs = s.ctxs := rfl
@[simp] theorem countPerf_reservations (c e n : Nat) (s : State) : (countPerf c e n s).reservations = s.reservations := rfl
@[simp] theorem countPerf_registrations (c e n : Nat) (s : State) : (countPerf c e n s).registrations = s.registrations := rfl
@[simp] theorem countPerf_fabricOut (c e n : Nat) (s : State) : (countPerf c e n s).fabricOut = s.fabricOut := rfl
@[simp] theorem countPerf_fabricNext (c e n : Nat) (s : State) : (countPerf c e n s).fabricNext = s.fabricNext := rfl
@[simp] theorem countPerf_fabricRing (c e n : Nat) (s : State) : (countPerf c e n s).fabricRing = s.fabricRing := rfl
@[simp] theorem countPerf_fabricWaiting (c e n : Nat) (s : State) : (countPerf c e n s).fabricWaiting = s.fabricWaiting := rfl
@[simp] theorem countPerf_eth (c e n : Nat) (s : State) : (countPerf c e n s).eth = s.eth := rfl
@[simp] theorem countPerf_retrains (c e n : Nat) (s : State) : (countPerf c e n s).retrains = s.retrains := rfl
@[simp] theorem countPerf_deadPorts (c e n : Nat) (s : State) : (countPerf c e n s).deadPorts = s.deadPorts := rfl
@[simp] theorem countPerf_link0 (c e n : Nat) (s : State) : (countPerf c e n s).link0 = s.link0 := rfl
@[simp] theorem countPerf_link1 (c e n : Nat) (s : State) : (countPerf c e n s).link1 = s.link1 := rfl
@[simp] theorem countPerf_hostReply (c e n : Nat) (s : State) : (countPerf c e n s).hostReply = s.hostReply := rfl
@[simp] theorem countPerf_reports (c e n : Nat) (s : State) : (countPerf c e n s).reports = s.reports := rfl
@[simp] theorem countPerf_studioNotices (c e n : Nat) (s : State) : (countPerf c e n s).studioNotices = s.studioNotices := rfl
@[simp] theorem countPerf_attestation (c e n : Nat) (s : State) : (countPerf c e n s).attestation = s.attestation := rfl
@[simp] theorem countPerf_termWord (c e n : Nat) (s : State) : (countPerf c e n s).termWord = s.termWord := rfl
@[simp] theorem countPerf_start (c e n : Nat) (s : State) : (countPerf c e n s).start = s.start := rfl
@[simp] theorem countPerf_measures (c e n : Nat) (s : State) : (countPerf c e n s).measures = s.measures := rfl
@[simp] theorem countPerf_flash (c e n : Nat) (s : State) : (countPerf c e n s).flash = s.flash := rfl
@[simp] theorem countPerf_icBusy (c e n : Nat) (s : State) : (countPerf c e n s).icBusy = s.icBusy := rfl
@[simp] theorem countPerf_powered (c e n : Nat) (s : State) : (countPerf c e n s).powered = s.powered := rfl
@[simp] theorem countPerf_stopped (c e n : Nat) (s : State) : (countPerf c e n s).stopped = s.stopped := rfl
@[simp] theorem countPerf_agenda (c e n : Nat) (s : State) : (countPerf c e n s).agenda = s.agenda := rfl
@[simp] theorem countPerf_cur (c e n : Nat) (s : State) : (countPerf c e n s).cur = s.cur := rfl
@[simp] theorem countPerf_free (c e n : Nat) (s : State) : (countPerf c e n s).free = s.free := rfl
@[simp] theorem countPerf_ids (c e n : Nat) (s : State) : (countPerf c e n s).ids = s.ids := rfl

end Sys2Proof.Machine
end

