-- ==== Sys2Proof/Laws/Tables.lean ====
section
/-! SUPPORT. Lists as tables, vectors read by number, and the parts of the state that they hold: what a read finds after an update. -/

namespace Sys2Proof.Machine

/-! ## Lists and vectors -/

theorem find?_replaceIf {α : Type} (p : α → Bool) (f : α → α) (h : ∀ x, p x = true → p (f x) = true) (l : List α) :
    (replaceIf p f l).find? p = (l.find? p).map f := by
  induction l with
  | nil => rfl
  | cons x xs ih =>
    by_cases hx : p x = true
    · simp [replaceIf, hx, h x hx]
    · simp [replaceIf, hx, ih]

theorem find?_replaceIf_other {α : Type} (p q : α → Bool) (f : α → α) (h : ∀ x, p x = true → q x = false ∧ q (f x) = false) (l : List α) :
    (replaceIf p f l).find? q = l.find? q := by
  induction l with
  | nil => rfl
  | cons x xs ih =>
    by_cases hx : p x = true
    · simp [replaceIf, hx, (h x hx).1, (h x hx).2, ih]
    · simp [replaceIf, hx, List.find?_cons, ih]

theorem replaceIf_replaceIf {α : Type} (p : α → Bool) (f g : α → α) (h : ∀ x, p x = true → p (f x) = true) (l : List α) :
    replaceIf p g (replaceIf p f l) = replaceIf p (fun x => g (f x)) l := by
  induction l with
  | nil => rfl
  | cons x xs ih =>
    by_cases hx : p x = true
    · simp [replaceIf, hx, h x hx, ih]
    · simp [replaceIf, hx, ih]

theorem replaceIf_congr {α : Type} (p : α → Bool) (f g : α → α) (l : List α) (h : ∀ x ∈ l, p x = true → f x = g x) :
    replaceIf p f l = replaceIf p g l := by
  induction l with
  | nil => rfl
  | cons x xs ih =>
    simp only [replaceIf]
    rw [ih fun y hy => h y (List.mem_cons_of_mem x hy)]
    by_cases hx : p x = true
    · simp [hx, h x (by simp) hx]
    · simp [hx]

theorem mem_replaceIf {α : Type} (p : α → Bool) (f : α → α) {y : α} {l : List α} (h : y ∈ replaceIf p f l) :
    ∃ x ∈ l, y = if p x then f x else x := by
  induction l with
  | nil => simp [replaceIf] at h
  | cons x xs ih =>
    simp only [replaceIf, List.mem_cons] at h
    rcases h with h | h
    · exact ⟨x, by simp, h⟩
    · obtain ⟨z, hz, e⟩ := ih h
      exact ⟨z, by simp [hz], e⟩

theorem find?_updateFirst {α : Type} (p : α → Bool) (f : α → α) (h : ∀ x, p x = true → p (f x) = true) (l : List α) :
    (updateFirst p f l).find? p = (l.find? p).map f := by
  induction l with
  | nil => rfl
  | cons x xs ih =>
    by_cases hx : p x = true
    · simp [updateFirst, hx, h x hx]
    · simp [updateFirst, hx, ih]

theorem find?_updateFirst_other {α : Type} (p q : α → Bool) (f : α → α) (h : ∀ x, p x = true → q x = false ∧ q (f x) = false) (l : List α) :
    (updateFirst p f l).find? q = l.find? q := by
  induction l with
  | nil => rfl
  | cons x xs ih =>
    by_cases hx : p x = true
    · simp [updateFirst, hx, (h x hx).1, (h x hx).2]
    · simp [updateFirst, hx, List.find?_cons, ih]

theorem updateFirst_updateFirst {α : Type} (p : α → Bool) (f g : α → α) (h : ∀ x, p x = true → p (f x) = true) (l : List α) :
    updateFirst p g (updateFirst p f l) = updateFirst p (fun x => g (f x)) l := by
  induction l with
  | nil => rfl
  | cons x xs ih =>
    by_cases hx : p x = true
    · simp [updateFirst, hx, h x hx]
    · simp [updateFirst, hx, ih]

/-- Two changes agree where they agree on the element found. -/
theorem updateFirst_congr {α : Type} (p : α → Bool) (f g : α → α) (l : List α) (h : ∀ x, l.find? p = some x → f x = g x) :
    updateFirst p f l = updateFirst p g l := by
  induction l with
  | nil => rfl
  | cons x xs ih =>
    by_cases hx : p x = true
    · simp [updateFirst, hx, h x (by simp [hx])]
    · simp only [updateFirst, hx]
      rw [ih fun y hy => h y (by simp [hx, hy])]
      simp

theorem mem_updateFirst {α : Type} (p : α → Bool) (f : α → α) {y : α} {l : List α} (h : y ∈ updateFirst p f l) :
    y ∈ l ∨ ∃ x, l.find? p = some x ∧ y = f x := by
  induction l with
  | nil => simp [updateFirst] at h
  | cons x xs ih =>
    by_cases hx : p x = true
    · simp only [updateFirst, hx, if_true, List.mem_cons] at h
      rcases h with h | h
      · exact Or.inr ⟨x, by simp [hx], h⟩
      · exact Or.inl (by simp [h])
    · simp [updateFirst, hx] at h
      rcases h with h | h
      · exact Or.inl (by simp [h])
      · rcases ih h with h | ⟨z, hz, e⟩
        · exact Or.inl (by simp [h])
        · exact Or.inr ⟨z, by simp [hx, hz], e⟩

theorem find?_upsert {α : Type} (p : α → Bool) (v : α) (h : p v = true) (l : List α) : (upsert p v l).find? p = some v := by
  induction l with
  | nil => simp [upsert, h]
  | cons x xs ih =>
    by_cases hx : p x = true
    · simp [upsert, hx, h]
    · simp [upsert, hx, ih]

theorem find?_upsert_other {α : Type} (p q : α → Bool) (v : α) (hv : q v = false) (h : ∀ x, p x = true → q x = false) (l : List α) :
    (upsert p v l).find? q = l.find? q := by
  induction l with
  | nil => simp [upsert, hv]
  | cons x xs ih =>
    by_cases hx : p x = true
    · simp [upsert, hx, hv, h x hx]
    · simp [upsert, hx, List.find?_cons, ih]

theorem upsert_upsert {α : Type} (p q : α → Bool) (v w : α) (hp : p = q) (h : p v = true) (l : List α) :
    upsert q w (upsert p v l) = upsert q w l := by
  subst hp
  induction l with
  | nil => simp [upsert, h]
  | cons x xs ih =>
    by_cases hx : p x = true
    · simp [upsert, hx, h]
    · simp [upsert, hx, ih]

@[simp] theorem setNth_length {α : Type} (v : α) (l : List α) (n : Nat) : (setNth v l n).length = l.length := by
  induction l generalizing n with
  | nil => rfl
  | cons x xs ih => cases n <;> simp [setNth, ih]

theorem getElem?_setNth {α : Type} (v : α) (l : List α) (n : Nat) (h : n < l.length) : (setNth v l n)[n]? = some v := by
  induction l generalizing n with
  | nil => simp at h
  | cons x xs ih =>
    cases n with
    | zero => simp [setNth]
    | succ n => simpa [setNth] using ih n (by simpa using h)

theorem getElem?_setNth_other {α : Type} (v : α) (l : List α) (n m : Nat) (h : m ≠ n) : (setNth v l n)[m]? = l[m]? := by
  induction l generalizing n m with
  | nil => rfl
  | cons x xs ih =>
    cases n with
    | zero =>
      cases m with
      | zero => exact absurd rfl h
      | succ m => simp [setNth]
    | succ n =>
      cases m with
      | zero => simp [setNth]
      | succ m => simpa [setNth] using ih n m (by omega)

theorem setNth_setNth {α : Type} (v w : α) (l : List α) (n : Nat) : setNth w (setNth v l n) n = setNth w l n := by
  induction l generalizing n with
  | nil => rfl
  | cons x xs ih =>
    cases n with
    | zero => simp [setNth]
    | succ n => simp [setNth, ih]

theorem setNth_self {α : Type} (l : List α) (n : Nat) (v : α) (h : l[n]? = some v) : setNth v l n = l := by
  induction l generalizing n with
  | nil => rfl
  | cons x xs ih =>
    cases n with
    | zero => simp at h; simp [setNth, h]
    | succ n => simp at h; simp [setNth, ih n h]

theorem map_setNth {α β : Type} (f : α → β) (v : α) (l : List α) (n : Nat) : (setNth v l n).map f = setNth (f v) (l.map f) n := by
  induction l generalizing n with
  | nil => rfl
  | cons x xs ih => cases n <;> simp [setNth, ih]

theorem vget_vset {α : Type} {n : Nat} (v : Vector α n) (i : Nat) (x d : α) (h : i < n) : vget (vset v i x) i d = x := by
  simp [vget, vset, h]

theorem vget_vset_other {α : Type} {n : Nat} (v : Vector α n) (i j : Nat) (x d : α) (h : i ≠ j) : vget (vset v i x) j d = vget v j d := by
  unfold vget vset
  split
  · split
    · next hi => exact Vector.getElem_set_ne hi _ h
    · rfl
  · rfl

theorem vget_fin {α : Type} {n : Nat} (v : Vector α n) (i : Fin n) (d : α) : vget v i.val d = v[i] := by
  simp [vget]

/-! ## Teams and gangs -/

theorem State.team?_modTeam (s : State) (t : Nat) (f : Team → Team) (h : ∀ x : Team, x.tid = t → (f x).tid = t) :
    (s.modTeam t f).team? t = (s.team? t).map f := by
  simp only [State.team?, State.modTeam]
  exact find?_updateFirst _ _ (by simpa using h) _

theorem State.team?_modTeam_other (s : State) (t u : Nat) (f : Team → Team) (hu : u ≠ t) (h : ∀ x : Team, x.tid = t → (f x).tid = t) :
    (s.modTeam t f).team? u = s.team? u := by
  simp only [State.team?, State.modTeam]
  refine find?_updateFirst_other _ _ _ ?_ _
  intro x hx
  simp at hx
  simp [hx, h x hx, Ne.symm hu]

theorem State.team?_tid {s : State} {t : Nat} {x : Team} (h : s.team? t = some x) : x.tid = t := by
  have := List.find?_some h
  simpa using this

@[simp] theorem Team.setGang_tid (x : Team) (g : Nat) (v : Gang) : (x.setGang g v).tid = x.tid := rfl
@[simp] theorem Team.setGang_gangs (x : Team) (g : Nat) (v : Gang) : (x.setGang g v).gangs = setNth v x.gangs g := rfl

theorem State.gang?_eq {s : State} {t g : Nat} {v : Gang} : s.gang? t g = some v ↔ ∃ x, s.team? t = some x ∧ x.gangs[g]? = some v := by
  simp [State.gang?, Option.bind_eq_some_iff]

theorem State.gang?_setGang (s : State) (t g : Nat) (v w : Gang) (h : s.gang? t g = some w) : (s.setGang t g v).gang? t g = some v := by
  obtain ⟨x, hx, hg⟩ := State.gang?_eq.1 h
  rw [State.gang?_eq]
  refine ⟨x.setGang g v, ?_, ?_⟩
  · rw [State.setGang, State.team?_modTeam _ _ _ (fun y hy => by simpa using hy), hx]; rfl
  · rw [Team.setGang_gangs]
    exact getElem?_setNth _ _ _ (by rcases List.getElem?_eq_some_iff.1 hg with ⟨hlt, -⟩; exact hlt)

theorem State.gang?_setGang_other (s : State) (t g u k : Nat) (v : Gang) (h : (u, k) ≠ (t, g)) : (s.setGang t g v).gang? u k = s.gang? u k := by
  unfold State.gang? State.setGang
  by_cases hu : u = t
  · subst hu
    rw [State.team?_modTeam _ _ _ (fun y hy => by simpa using hy)]
    cases s.team? u with
    | none => rfl
    | some x =>
      simp only [Option.map_some, Option.bind_some, Team.setGang_gangs]
      exact getElem?_setNth_other _ _ _ _ (by intro e; exact h (by rw [e]))
  · rw [State.team?_modTeam_other _ _ _ _ hu (fun y hy => by simpa using hy)]

/-- A change of a gang that is there is its replacement. -/
theorem State.modGang_eq (s : State) (t g : Nat) (f : Gang → Gang) (v : Gang) (h : s.gang? t g = some v) :
    s.modGang t g f = s.setGang t g (f v) := by
  obtain ⟨x, hx, hg⟩ := State.gang?_eq.1 h
  simp only [State.modGang, State.setGang, State.modTeam]
  congr 1
  apply updateFirst_congr
  intro y hy
  have : y = x := by simpa [State.team?] using hy.symm.trans hx
  subst this
  simp [hg]

theorem State.setGang_setGang (s : State) (t g : Nat) (v w : Gang) : (s.setGang t g v).setGang t g w = s.setGang t g w := by
  simp only [State.setGang, State.modTeam]
  congr 1
  refine (updateFirst_updateFirst _ _ _ ?_ _).trans ?_
  · intro x hx
    exact hx
  · congr 1
    funext x
    simp [Team.setGang, setNth_setNth]

/-! ## Sequencers and cores -/

theorem State.seq_setSeq (s : State) (v : Seq) : (s.setSeq v).seq v.idx = v := by
  simp only [State.seq, State.setSeq]
  rw [find?_upsert _ _ (by simp)]; rfl

theorem State.seq_setSeq_at (s : State) (v : Seq) (n : Nat) (h : v.idx = n) : (s.setSeq v).seq n = v := by
  subst h; exact State.seq_setSeq s v

theorem State.seq_setSeq_other (s : State) (v : Seq) (n : Nat) (h : n ≠ v.idx) : (s.setSeq v).seq n = s.seq n := by
  simp only [State.seq, State.setSeq]
  rw [find?_upsert_other _ _ _ (by simpa using fun e => h e.symm) (by intro x hx; simp at hx; simp [hx, Ne.symm h])]

theorem State.setSeq_setSeq (s : State) (v w : Seq) (h : v.idx = w.idx) : (s.setSeq v).setSeq w = s.setSeq w := by
  simp only [State.setSeq]
  congr 1
  refine upsert_upsert _ _ v w ?_ ?_ _
  · funext x
    rw [h]
  · simp

@[simp] theorem State.seq_idx (s : State) (n : Nat) : (s.seq n).idx = n := by
  simp only [State.seq]
  cases h : s.seqs.find? fun x => x.idx = n with
  | none => rfl
  | some x => simpa using List.find?_some h

theorem State.core_setCore (s : State) (v : Core) : (s.setCore v).core v.idx = v := by
  simp only [State.core, State.setCore]
  rw [find?_upsert _ _ (by simp)]; rfl

theorem State.core_setCore_at (s : State) (v : Core) (n : Nat) (h : v.idx = n) : (s.setCore v).core n = v := by
  subst h; exact State.core_setCore s v

theorem State.core_setCore_other (s : State) (v : Core) (n : Nat) (h : n ≠ v.idx) : (s.setCore v).core n = s.core n := by
  simp only [State.core, State.setCore]
  rw [find?_upsert_other _ _ _ (by simpa using fun e => h e.symm) (by intro x hx; simp at hx; simp [hx, Ne.symm h])]

@[simp] theorem State.core_idx (s : State) (n : Nat) : (s.core n).idx = n := by
  simp only [State.core]
  cases h : s.cores.find? fun x => x.idx = n with
  | none => rfl
  | some x => simpa using List.find?_some h

end Sys2Proof.Machine
end

