-- ==== Sys2Proof/Laws/Issue.lean ====
section
/-! SUPPORT. The issue of an instruction: what the move to the next word, the end of an issue and the counters leave, and what an issue answers. -/

namespace Sys2Proof.Machine

open Host (Outcome)

/-! ## Performance counters -/

theorem countPerf_eq (c e n : Nat) (s : State) : countPerf c e n s = { s with cores := (countPerf c e n s).cores } := rfl

theorem countPerf_core (c e n k : Nat) (s : State) : ((countPerf c e n s).core k).bare = (s.core k).bare := by
  unfold countPerf
  dsimp only
  generalize ((List.range 4).any fun i => (s.core c).selects e i) = b
  cases b
  · rfl
  · by_cases hk : k = c
    · subst hk
      refine (congrArg Core.bare (State.core_setCore_at s _ k ?_)).trans ?_
      · exact State.core_idx s k
      · rfl
    · refine congrArg Core.bare (State.core_setCore_other s _ _ ?_)
      simpa using hk

/-! ## What the issuing unit consults -/

theorem execOf_gang {s : State} {t g : Nat} {op : BitVec 8} {w : Fields} {x : Exec} (h : execOf s (.gang t g) op w = some x) :
    ∃ tm v, s.team? t = some tm ∧ tm.gangs[g]? = some v ∧ x.u = .gang t g ∧ x.t = t ∧ x.g = g ∧ x.w = w ∧ x.op = op ∧
      x.seq = false ∧ x.core = tm.core ∧ x.ctx = tm.ctx ∧ x.quads = v.issuing ∧ x.pc = v.pcOf v.issuing ∧ x.priv = v.handler.isSome := by
  simp only [execOf, Option.bind_eq_some_iff, Option.map_eq_some_iff] at h
  obtain ⟨tm, htm, v, hv, rfl⟩ := h
  exact ⟨tm, v, htm, hv, rfl, rfl, rfl, rfl, rfl, rfl, rfl, rfl, rfl, rfl, rfl⟩

theorem execOf_gang? {s : State} {t g : Nat} {op : BitVec 8} {w : Fields} {x : Exec} (h : execOf s (.gang t g) op w = some x) :
    ∃ v, s.gang? x.t x.g = some v ∧ x.u = .gang x.t x.g ∧ x.quads = v.issuing := by
  obtain ⟨tm, v, h1, h2, h3, h4, h5, -, -, -, -, -, h6, -⟩ := execOf_gang h
  refine ⟨v, ?_, ?_, h6⟩
  · rw [h4, h5]; exact State.gang?_eq.2 ⟨tm, h1, h2⟩
  · rw [h3, h4, h5]

theorem execOf_seq {s : State} {n : Nat} {op : BitVec 8} {w : Fields} {x : Exec} (h : execOf s (.seq n) op w = some x) :
    x.u = .seq n ∧ x.cluster = n ∧ x.w = w ∧ x.op = op ∧ x.seq = true ∧ x.pc = (s.seq n).pc ∧ x.priv = (s.seq n).handler.isSome := by
  simp only [execOf, Option.some.injEq] at h
  subst h
  exact ⟨rfl, rfl, rfl, rfl, rfl, rfl, rfl⟩

theorem execOf_u {s : State} {u : Issuer} {op : BitVec 8} {w : Fields} {x : Exec} (h : execOf s u op w = some x) :
    x.u = u ∧ x.w = w ∧ x.op = op := by
  cases u with
  | gang t g => obtain ⟨_, _, _, _, h1, _, _, h2, h3, _⟩ := execOf_gang h; exact ⟨h1, h2, h3⟩
  | seq n => obtain ⟨h1, _, h2, h3, _⟩ := execOf_seq h; exact ⟨h1, h2, h3⟩

/-! ## The move to the next word -/

theorem moveOn_gang {x : Exec} {len : Nat} {s : State} {v : Gang} (hu : x.u = .gang x.t x.g) (h : s.gang? x.t x.g = some v) :
    moveOn x len s = s.setGang x.t x.g (v.moved x len) := by
  unfold moveOn
  rw [hu]
  exact State.modGang_eq _ _ _ _ _ h

theorem moveOn_seq {x : Exec} {len n : Nat} {s : State} (hu : x.u = .seq n) :
    moveOn x len s = s.setSeq { s.seq n with pc := x.pc + BitVec.ofNat 56 len, emul := false } := by
  unfold moveOn
  rw [hu]
  rfl

/-! ## The end of an issue -/

theorem finish_gang {x : Exec} {s : State} {v : Gang} (hu : x.u = .gang x.t x.g) (h : s.gang? x.t x.g = some v) :
    ∃ cs, finish x s = { s.setGang x.t x.g (v.afterIssue x s.tick s.ids) with cores := cs, ids := s.ids + 1 } ∧
      ∀ k, ((finish x s).core k).bare = (s.core k).bare := by
  have hcore : ∀ (a b : State) (k : Nat), a.cores = b.cores → a.core k = b.core k := by
    intro a b k e; simp only [State.core, e]
  unfold finish
  rw [hu]
  dsimp only
  have h1 : ∀ a b c d, State.gang? (countPerf a b c s) x.t d = s.gang? x.t d := by
    intro a b c d; simp only [State.gang?, State.team?, countPerf_teams]
  generalize takenSources _ _ _ _ _ = taken
  generalize vset_idx : ((s.gang? x.t x.g).map (·.sched.toNat)).getD 0 = sched
  generalize hs1 : countPerf x.core 9 (((s.gang? x.t x.g).map fun v => drowsyReads v (namedRegs x.op x.w).1 taken).getD 0) s = s1
  have e1 : s1 = { s with cores := s1.cores } := by rw [← hs1]; exact countPerf_eq _ _ _ _
  have c1 : ∀ k, (s1.core k).bare = (s.core k).bare := by intro k; rw [← hs1]; exact countPerf_core _ _ _ _ _
  have g1 : s1.bump.gang? x.t x.g = some v := by rw [← h]; simp only [State.gang?, State.team?, State.bump, ← hs1, countPerf_teams]
  rw [State.modGang_eq _ _ _ _ _ g1]
  generalize hs2 : s1.bump.setGang x.t x.g (v.afterIssue x s1.tick s.ids) = s2
  generalize ((s2.gang? x.t x.g).map fun v => heldAfter v x).getD [] = held
  generalize hs3 : s2.modCore x.core (fun c => { c with hold := vset c.hold sched (some ⟨x.t, x.g, held⟩) }) = s3
  have e3 : s3 = { s2 with cores := s3.cores } := by rw [← hs3]; rfl
  have c3 : ∀ k, (s3.core k).bare = (s2.core k).bare := by
    intro k
    rw [← hs3]
    unfold State.modCore
    by_cases hk : k = x.core
    · subst hk
      rw [State.core_setCore_at _ _ x.core (by simp)]
      rfl
    · rw [State.core_setCore_other _ _ _ (by simpa using hk)]
  have c2 : ∀ k, s2.core k = s1.core k := by intro k; apply hcore; rw [← hs2]; rfl
  refine ⟨(countPerf x.core 2 1 s3).cores, ?_, ?_⟩
  · rw [countPerf_eq, e3, ← hs2]
    have ht : s1.tick = s.tick := by rw [e1]
    rw [ht]
    rw [e1]
    rfl
  · intro k
    rw [countPerf_core, c3, c2, c1]

theorem finish_seq {x : Exec} {s : State} {n : Nat} (hu : x.u = .seq n) : finish x s = { s with ids := s.ids + 1 } := by
  unfold finish
  rw [hu]
  rfl

/-! ## What an issue answers -/

/-- Nothing that an access waits for at its issue checks. -/
theorem memoryWait_none {s : State} {k : IssueKind} {u : Issuer} (h : k.memory = true → s.memoryWait u = none) :
    (if k.memory = true then s.memoryWait u else none) = none := by
  split
  · exact h ‹_›
  · rfl

/-- An issue that nothing holds, and whose body completes, answers the state that the body leaves after the end of the issue. -/
theorem issue_next {s : State} {k : IssueKind} {op : BitVec 8} {w : Fields} {x : Exec} {len : Nat}
    {body : Exec → State → Except Stop State} {s' : State} (h : Issues s k op w x) (hb : body x (moveOn x len s) = .ok s') :
    issue k op w len body s = .next (finish x s') := by
  obtain ⟨hc, he, hi, hg, hr, hp⟩ := h
  unfold issue
  have e1 : (s.cur.bind fun u => execOf s u op w) = some x := by rw [hc]; exact he
  rw [e1]
  simp only [hi, hg, hb]
  have a1 : ¬ (k.late = true ∧ ¬ x.seq = true ∧ (s.regsOf x.u).pending.length ≥ 64) := by
    rintro ⟨h1, h2, h3⟩
    have := hr h1 (by simpa using h2)
    omega
  rw [if_neg (by decide), if_neg a1, memoryWait_none hp]

/-- An issue that nothing holds, and whose body traps, takes that trap from the state before it. -/
theorem issue_trap {s : State} {k : IssueKind} {op : BitVec 8} {w : Fields} {x : Exec} {len : Nat}
    {body : Exec → State → Except Stop State} {t : Trap} (h : Issues s k op w x) (hb : body x (moveOn x len s) = .error (.trap t)) :
    issue k op w len body s = .next (raiseTrap x t (op = 0xFF#8) s) := by
  obtain ⟨hc, he, hi, hg, hr, hp⟩ := h
  unfold issue
  have e1 : (s.cur.bind fun u => execOf s u op w) = some x := by rw [hc]; exact he
  rw [e1]
  simp only [hi, hg, hb]
  have a1 : ¬ (k.late = true ∧ ¬ x.seq = true ∧ (s.regsOf x.u).pending.length ≥ 64) := by
    rintro ⟨h1, h2, h3⟩
    have := hr h1 (by simpa using h2)
    omega
  rw [if_neg (by decide), if_neg a1, memoryWait_none hp]

/-- An issue of a current unit always answers a next state. -/
theorem issue_total {s : State} {k : IssueKind} {op : BitVec 8} {w : Fields} {x : Exec} {len : Nat}
    {body : Exec → State → Except Stop State} {u : Issuer} (hc : s.cur = some u) (he : execOf s u op w = some x) :
    ∃ t, issue k op w len body s = .next t := by
  unfold issue
  have e1 : (s.cur.bind fun u => execOf s u op w) = some x := by rw [hc]; exact he
  rw [e1]
  exact ⟨_, rfl⟩

/-! ## The gang after an issue -/

theorem touchRegs_bare (tick : Nat) (ps : List (Nat × Nat)) (vs : List VReg) :
    ((touchRegs tick ps vs).map fun r => ({ r with used := 0, drowsy := false, pend := 0#32 } : VReg)) =
      vs.map fun r => { r with used := 0, drowsy := false, pend := 0#32 } := by
  unfold touchRegs
  apply List.ext_getElem?
  intro i
  simp only [List.getElem?_map, List.getElem?_mapIdx, Option.map_map]
  cases vs[i]? with
  | none => rfl
  | some v => simp only [Option.map_some, Function.comp]; split <;> rfl

@[simp] theorem Gang.settle_bare (v : Gang) : v.settle.bare = v.bare := by
  simp only [Gang.settle, Gang.bare, List.map_map]
  congr 1

theorem Gang.afterIssue_bare (v : Gang) (x : Exec) (tick order : Nat) : (v.afterIssue x tick order).bare = v.bare := by
  have key : ∀ (a : Gang), a.bare =
      (if x.w.sc.sw then
        match a.status with
        | .ready => if a.regs.pending = [] then a.settle else { a with status := .parked }
        | .blocked _ _ => { a with swLater := true }
        | _ => a
      else a).bare := by
    intro a
    split
    · split
      · split
        · rw [Gang.settle_bare]
        · rfl
      · rfl
      · rfl
    · rfl
  unfold Gang.afterIssue
  refine (key _).symm.trans ?_
  unfold Gang.bare
  simp only [touchRegs_bare]
  congr 1
  apply Vector.ext
  intro i hi
  simp only [Gang.counted, mapQuads, Vector.getElem_ofFn, Fin.getElem_fin]
  split <;> rfl

/-! ## Bodies that change the issuing unit alone -/

/-- An issue whose body replaces the issuing gang. -/
theorem gangBecomes_of {x : Exec} {len : Nat} {s : State} {v v' : Gang} {f : Gang → Gang} (hu : x.u = .gang x.t x.g)
    (h : s.gang? x.t x.g = some v) (hf : v'.bare = (f v).bare) :
    gangBecomes x f s (finish x ((moveOn x len s).setGang x.t x.g v')) := by
  rw [moveOn_gang hu h, State.setGang_setGang]
  have g1 : (s.setGang x.t x.g v').gang? x.t x.g = some v' := State.gang?_setGang _ _ _ _ _ h
  obtain ⟨cs, hs, hc⟩ := finish_gang hu g1
  refine ⟨v, v'.afterIssue x s.tick s.ids, h, ?_, ?_, ?_⟩
  · rw [Gang.afterIssue_bare, hf]
  · intro k
    rw [hc k]
    rfl
  · rw [hs, State.setGang_setGang]
    rfl

theorem seqBecomes_of {x : Exec} {len n : Nat} {s : State} {q : Seq} {f : Seq → Seq} (hu : x.u = .seq n) (hn : x.cluster = n)
    (hq : q.idx = n) (hf : q = f (s.seq n)) : seqBecomes x f s (finish x ((moveOn x len s).setSeq q)) := by
  rw [moveOn_seq hu, State.setSeq_setSeq _ _ _ (by simp [hq]), finish_seq hu]
  unfold seqBecomes
  rw [hn, ← hf]

end Sys2Proof.Machine
end

