-- ==== Sys2Proof/Laws/Sources.lean ====
section
/-! SUPPORT. What an instruction reads does not depend on the move to the next word: its sources, special registers, shapes and rounding state are those before the issue. -/

namespace Sys2Proof.Machine

open Host (Outcome)

/-- The state before an issue finds the issuing gang's team, and after the move the same team with the moved gang. -/
theorem team?_setGang (s : State) (t g : Nat) (v : Gang) : (s.setGang t g v).team? t = (s.team? t).map fun x => x.setGang g v := by
  unfold State.setGang
  rw [State.team?_modTeam _ _ _ fun x hx => by simpa using hx]

theorem gang_unit {s : State} {op : BitVec 8} {w : Fields} {x : Exec} (h : execOf s x.u op w = some x) (hs : x.seq = false) :
    ∃ tm v, x.u = .gang x.t x.g ∧ s.team? x.t = some tm ∧ tm.gangs[x.g]? = some v ∧ s.gang? x.t x.g = some v := by
  cases hu : x.u with
  | gang t g =>
    rw [hu] at h
    obtain ⟨tm, v, h1, h2, h3, h4, h5, -⟩ := execOf_gang h
    subst h4; subst h5
    exact ⟨tm, v, rfl, h1, h2, State.gang?_eq.2 ⟨tm, h1, h2⟩⟩
  | seq n =>
    rw [hu] at h
    have := (execOf_seq h).2.2.2.2.1
    rw [this] at hs
    exact absurd hs (by decide)

theorem special_moved {s : State} {x : Exec} {v : Gang} {tm : Team} (hu : x.u = .gang x.t x.g) (ht : s.team? x.t = some tm)
    (hv : tm.gangs[x.g]? = some v) (len i : Nat) : (s.setGang x.t x.g (v.moved x len)).special x i = s.special x i := by
  have hg : s.gang? x.t x.g = some v := State.gang?_eq.2 ⟨tm, ht, hv⟩
  have hg' : (s.setGang x.t x.g (v.moved x len)).gang? x.t x.g = some (v.moved x len) := State.gang?_setGang _ _ _ _ _ hg
  have ht' : (s.setGang x.t x.g (v.moved x len)).team? x.t = some (tm.setGang x.g (v.moved x len)) := by
    rw [team?_setGang, ht]; rfl
  have hlen : (tm.setGang x.g (v.moved x len)).gangs.length = tm.gangs.length := by simp
  have hr : (s.setGang x.t x.g (v.moved x len)).regsOf (.gang x.t x.g) = s.regsOf (.gang x.t x.g) := by
    simp only [State.regsOf, hg, hg']; rfl
  have hc : (vget (v.moved x len).quads (lowest x.quads) default).csp = (vget v.quads (lowest x.quads) default).csp := by
    unfold vget
    split
    · simp only [Gang.moved, Gang.setPc, mapQuads, Vector.getElem_ofFn, Fin.getElem_fin]
      split <;> rfl
    · rfl
  unfold State.special
  rw [hu]
  dsimp only
  rw [hr, ht', hg', ht, hg]
  dsimp only
  rw [hlen, hc]
  rfl

/-- The environment after the move is that before it, but for the gang's program counters. -/
theorem env_moved {s : State} {x : Exec} {v : Gang} {tm : Team} (hu : x.u = .gang x.t x.g) (ht : s.team? x.t = some tm)
    (hv : tm.gangs[x.g]? = some v) (len : Nat) :
    (s.setGang x.t x.g (v.moved x len)).env x (v.moved x len) = { s.env x v with v := v.moved x len } := by
  have ht' : (s.setGang x.t x.g (v.moved x len)).team? x.t = some (tm.setGang x.g (v.moved x len)) := by
    rw [team?_setGang, ht]; rfl
  have hsp : (s.setGang x.t x.g (v.moved x len)).special x = s.special x := by
    funext i; exact special_moved hu ht hv len i
  unfold State.env
  rw [hsp, ht', ht]
  rfl

theorem src_moved (e : Env) {v : Gang} (hv : e.v = v) (x : Exec) (len : Nat) (o : Operand) (t : Ty) :
    ({ e with v := v.moved x len } : Env).src o t = e.src o t := by
  subst hv; cases o <;> rfl

theorem predSrc_moved (e : Env) {v : Gang} (hv : e.v = v) (x : Exec) (len : Nat) (o : Operand) :
    ({ e with v := v.moved x len } : Env).predSrc o = e.predSrc o := by
  subst hv; cases o <;> rfl

theorem table_moved (e : Env) {v : Gang} (hv : e.v = v) (x : Exec) (len : Nat) (o : Operand) :
    ({ e with v := v.moved x len } : Env).table o = e.table o := by
  subst hv; cases o <;> rfl

theorem takers_moved (e : Env) {v : Gang} (hv : e.v = v) (x : Exec) (len : Nat) : ({ e with v := v.moved x len } : Env).takers = e.takers := by
  subst hv; unfold Env.takers; dsimp only; cases e.x.w.c <;> rfl

theorem scalarSrc_moved_gang {s : State} {x : Exec} {v : Gang} {tm : Team} (hu : x.u = .gang x.t x.g) (ht : s.team? x.t = some tm)
    (hv : tm.gangs[x.g]? = some v) (len : Nat) (o : Operand) (t : Ty) :
    (s.setGang x.t x.g (v.moved x len)).scalarSrc x o t = s.scalarSrc x o t := by
  have hg : s.gang? x.t x.g = some v := State.gang?_eq.2 ⟨tm, ht, hv⟩
  have hg' : (s.setGang x.t x.g (v.moved x len)).gang? x.t x.g = some (v.moved x len) := State.gang?_setGang _ _ _ _ _ hg
  have hr : (s.setGang x.t x.g (v.moved x len)).regsOf x.u = s.regsOf x.u := by
    rw [hu]; simp only [State.regsOf, hg, hg']; rfl
  unfold State.scalarSrc
  rw [hr, hg, hg']
  cases o <;> try rfl
  dsimp only
  rw [special_moved hu ht hv]

theorem scalarSrc_moved_seq {s : State} {x : Exec} {n : Nat} (hu : x.u = .seq n) (p : BitVec 56) (b : Bool) (o : Operand) (t : Ty) :
    (s.setSeq { s.seq n with pc := p, emul := b }).scalarSrc x o t = s.scalarSrc x o t := by
  have hq : (s.setSeq { s.seq n with pc := p, emul := b }).seq n = { s.seq n with pc := p, emul := b } :=
    State.seq_setSeq_at _ _ _ (by simp)
  have hr : (s.setSeq { s.seq n with pc := p, emul := b }).regsOf x.u = s.regsOf x.u := by
    rw [hu]; simp only [State.regsOf, hq]
  have hsp : ∀ i, (s.setSeq { s.seq n with pc := p, emul := b }).special x i = s.special x i := by
    intro i
    unfold State.special
    rw [hr, hu]
    dsimp only
    rw [hq]
    rfl
  unfold State.scalarSrc
  rw [hr]
  cases o <;> try rfl
  dsimp only
  rw [hsp]

end Sys2Proof.Machine
end

