-- ==== Sys2Proof/Laws/Forms.lean ====
section
/-! SUPPORT. The shared forms of instructions: what each answers when nothing that is checked at issue stops it. -/

namespace Sys2Proof.Machine

open Host (Outcome)

/-! ## Issue of a unit's own change -/

theorem Issues.unit {s : State} {k : IssueKind} {op : BitVec 8} {w : Fields} {x : Exec} (h : Issues s k op w x) :
    execOf s x.u op w = some x ∧ x.w = w ∧ x.op = op := ⟨h.2.1, (execOf_u h.2.1).2⟩

/-- An issue whose body changes the registers of the issuing unit. -/
theorem issue_regs {s : State} {k : IssueKind} {op : BitVec 8} {w : Fields} {x : Exec} {body : Exec → State → Except Stop State}
    {f : Regs → Regs} (h : Issues s k op w x) (hb : body x (moveOn x 16 s) = .ok ((moveOn x 16 s).modRegs x.u f)) :
    ∃ t, issue k op w 16 body s = .next t ∧ regsBecome x f s t := by
  refine ⟨_, issue_next h hb, ?_⟩
  have he := h.2.1
  cases hu : x.u with
  | gang t g =>
    have hs : x.seq = false := by
      rw [hu] at he; obtain ⟨_, _, _, _, _, _, _, _, _, hq, _⟩ := execOf_gang he; exact hq
    obtain ⟨tm, v, hx, ht, hv, hg⟩ := gang_unit he hs
    have htg : t = x.t ∧ g = x.g := by rw [hu] at hx; simpa using hx
    obtain ⟨rfl, rfl⟩ := htg
    have e : (moveOn x 16 s).modRegs (.gang x.t x.g) f = (moveOn x 16 s).setGang x.t x.g { v.moved x 16 with regs := f v.regs } := by
      rw [moveOn_gang hx hg]
      exact State.modGang_eq _ _ _ _ _ (State.gang?_setGang _ _ _ _ _ hg)
    rw [e]
    have := gangBecomes_of (len := 16) (v' := { v.moved x 16 with regs := f v.regs })
      (f := fun v => { v.moved x 16 with regs := f v.regs }) hx hg rfl
    unfold regsBecome
    rw [hu]
    exact this
  | seq n =>
    rw [hu] at he
    obtain ⟨-, hn, -, -, -, -, -⟩ := execOf_seq he
    have e : (moveOn x 16 s).modRegs (.seq n) f =
        (moveOn x 16 s).setSeq { s.seq n with pc := x.pc + 16#56, emul := false, regs := f (s.seq n).regs } := by
      rw [moveOn_seq hu]
      simp only [State.modRegs, State.modSeq]
      rw [State.seq_setSeq_at _ _ n (by simp)]
    rw [e]
    have := seqBecomes_of (len := 16) (q := { s.seq n with pc := x.pc + 16#56, emul := false, regs := f (s.seq n).regs })
      (f := fun q => { q with pc := x.pc + 16#56, emul := false, regs := f q.regs }) hu hn (by simp) rfl
    unfold regsBecome
    rw [hu]
    exact this

/-- A unit's registers replaced by a function of themselves. -/
theorem modRegs_regsOf (s : State) (u : Issuer) (f : Regs → Regs) : (s.modRegs u fun _ => f (s.regsOf u)) = s.modRegs u f := by
  cases u with
  | seq n => rfl
  | gang t g =>
    simp only [State.modRegs, State.modGang, State.modTeam]
    congr 1
    apply updateFirst_congr
    intro y hy
    cases hg : y.gangs[g]? with
    | none => rfl
    | some v =>
      have : s.gang? t g = some v := State.gang?_eq.2 ⟨y, hy, hg⟩
      simp only [State.regsOf, this, Option.map_some, Option.getD_some]

/-- An issue whose body computes the unit's registers from themselves. -/
theorem issue_regsBody {s : State} {k : IssueKind} {op : BitVec 8} {w : Fields} {x : Exec} {g : Exec → Regs → Except Stop Regs}
    {f : Regs → Regs} (h : Issues s k op w x) (hg : ∀ r, g x r = .ok (f r)) :
    ∃ t, issue k op w 16 (regsBody g) s = .next t ∧ regsBecome x f s t := by
  apply issue_regs h
  unfold regsBody
  rw [hg]
  dsimp only
  rw [modRegs_regsOf]

/-- An issue of a gang whose body replaces the gang. -/
theorem issue_gang {s : State} {k : IssueKind} {op : BitVec 8} {w : Fields} {x : Exec} {len : Nat} {body : Exec → State → Except Stop State}
    {v v' : Gang} {f : Gang → Gang} (h : Issues s k op w x) (hs : x.seq = false) (hv : s.gang? x.t x.g = some v)
    (hb : body x (moveOn x len s) = .ok ((moveOn x len s).setGang x.t x.g v')) (hf : v' = f v) :
    ∃ t, issue k op w len body s = .next t ∧ gangBecomes x f s t := by
  obtain ⟨tm, u, hx, ht, hg, -⟩ := gang_unit h.2.1 hs
  exact ⟨_, issue_next h hb, gangBecomes_of hx hv (by rw [hf])⟩

/-- The gang that an issuing gang's body finds, and what it reads. -/
theorem moved_gang {s : State} {op : BitVec 8} {w : Fields} {x : Exec} {v : Gang} (he : execOf s x.u op w = some x) (hs : x.seq = false)
    (hv : s.gang? x.t x.g = some v) (len : Nat) :
    (moveOn x len s).gang? x.t x.g = some (v.moved x len) ∧ (moveOn x len s).env x (v.moved x len) = { s.env x v with v := v.moved x len } := by
  obtain ⟨tm, u, hx, ht, hg, hg'⟩ := gang_unit he hs
  have : u = v := by rw [hv] at hg'; exact (Option.some.inj hg').symm
  subst this
  rw [moveOn_gang hx hv]
  exact ⟨State.gang?_setGang _ _ _ _ _ hv, env_moved hx ht hg len⟩

/-- An issue of a gang whose body reads the environment and replaces the gang. -/
theorem issue_env {s : State} {k : IssueKind} {op : BitVec 8} {w : Fields} {x : Exec} {len : Nat} {f : Env → Except Stop Gang}
    {v v' : Gang} {g : Gang → Gang} (h : Issues s k op w x) (hs : x.seq = false) (hv : s.gang? x.t x.g = some v)
    (hb : f { s.env x v with v := v.moved x len } = .ok v') (hg : v' = g v) :
    ∃ t, issue k op w len (envBody f) s = .next t ∧ gangBecomes x g s t := by
  obtain ⟨h1, h2⟩ := moved_gang h.2.1 hs hv len
  refine issue_gang h hs hv ?_ hg
  unfold envBody
  rw [h1]
  dsimp only
  rw [h2, hb]

/-- An issue of a gang whose body changes the gang alone. -/
theorem issue_gangBody {s : State} {k : IssueKind} {op : BitVec 8} {w : Fields} {x : Exec} {len : Nat} {f : Exec → Gang → Except Stop Gang}
    {v v' : Gang} {g : Gang → Gang} (h : Issues s k op w x) (hs : x.seq = false) (hv : s.gang? x.t x.g = some v)
    (hb : f x (v.moved x len) = .ok v') (hg : v' = g v) :
    ∃ t, issue k op w len (gangBody f) s = .next t ∧ gangBecomes x g s t := by
  obtain ⟨h1, -⟩ := moved_gang h.2.1 hs hv len
  refine issue_gang h hs hv ?_ hg
  unfold gangBody
  rw [h1]
  dsimp only
  rw [hb]

/-! ## Poison -/

theorem consumeOnce_clean {l : List (Operand × Bool)} (h : ∀ p ∈ l, p.2 = false) : consumeOnce l = none := by
  unfold consumeOnce
  rw [List.find?_eq_none.2 (by intro p hp; simp [h p hp])]
  rfl

theorem and_eq_zero_of_or {a b m : Mask} (ha : a &&& m = 0#32) (hb : b &&& m = 0#32) : (a ||| b) &&& m = 0#32 := by
  apply BitVec.eq_of_getLsbD_eq
  intro i hi
  have h1 := congrArg (fun y => y.getLsbD i) ha
  have h2 := congrArg (fun y => y.getLsbD i) hb
  simp only [BitVec.getLsbD_and, BitVec.getLsbD_or, BitVec.getLsbD_zero] at *
  cases hm : m.getLsbD i <;> simp_all

theorem consumeLanes_clean {part : Mask} {l : List (Operand × Mask)} (h : ∀ p ∈ l, p.2 &&& part = 0#32) : consumeLanes part l = none := by
  have key : ∀ (l : List (Operand × Mask)) (m : Mask), m &&& part = 0#32 → (∀ p ∈ l, p.2 &&& part = 0#32) →
      (l.foldl (fun m p => m ||| p.2) m) &&& part = 0#32 := by
    intro l
    induction l with
    | nil => intro m hm _; exact hm
    | cons p ps ih =>
      intro m hm hl
      exact ih _ (and_eq_zero_of_or hm (hl p (by simp))) fun q hq => hl q (by simp [hq])
  unfold consumeLanes
  dsimp only
  rw [if_pos (key l 0#32 (by simp) h)]

/-! ## The scalar forms -/

theorem scalarSrc_moved {s : State} {op : BitVec 8} {w : Fields} {x : Exec} (he : execOf s x.u op w = some x) (o : Operand) (t : Ty) :
    (moveOn x 16 s).scalarSrc x o t = s.scalarSrc x o t := by
  cases hu : x.u with
  | gang a b =>
    have hs : x.seq = false := by
      rw [hu] at he; obtain ⟨_, _, _, _, _, _, _, _, _, hq, _⟩ := execOf_gang he; exact hq
    obtain ⟨tm, v, hx, ht, hv, hg⟩ := gang_unit he hs
    rw [moveOn_gang hx hg]
    exact scalarSrc_moved_gang hx ht hv 16 o t
  | seq n =>
    rw [moveOn_seq hu]
    exact scalarSrc_moved_seq hu _ _ o t

theorem scalarOp_next {s : State} {op : BitVec 8} {w : Fields} {x : Exec} {ta tb tc td : Ty} {f : Nat → Nat → Nat → Nat}
    (h : Issues s kindPlain op w x) (ha : (s.scalarSrc x w.a ta).2 = false) (hb : (s.scalarSrc x w.b tb).2 = false)
    (hc : (s.scalarSrc x w.c tc).2 = false) :
    ∃ t, scalarOp op w ta tb tc td f s = .next t ∧
      regsBecome x (fun r => r.writeTo w.d td (f (s.scalarSrc x w.a ta).1 (s.scalarSrc x w.b tb).1 (s.scalarSrc x w.c tc).1)) s t := by
  unfold scalarOp
  apply issue_regs h
  dsimp only
  rw [scalarSrc_moved h.2.1, scalarSrc_moved h.2.1, scalarSrc_moved h.2.1, consumeOnce_clean (by simp [ha, hb, hc])]

theorem floatScalar_next {s : State} {op : BitVec 8} {w : Fields} {x : Exec} {ta tb tc td : Ty} {f : Mode → Nat → Nat → Nat → Nat × BitVec 5}
    (h : Issues s kindPlain op w x) (ha : (s.scalarSrc x w.a ta).2 = false) (hb : (s.scalarSrc x w.b tb).2 = false)
    (hc : (s.scalarSrc x w.c tc).2 = false) :
    ∃ t, floatScalar op w ta tb tc td f s = .next t ∧
      regsBecome x (fun r =>
        let v := f (scalarMode r.fpctl w.md) (s.scalarSrc x w.a ta).1 (s.scalarSrc x w.b tb).1 (s.scalarSrc x w.c tc).1
        (r.writeTo w.d td v.1).orFlags v.2) s t := by
  unfold floatScalar
  apply issue_regs h
  dsimp only
  rw [scalarSrc_moved h.2.1, scalarSrc_moved h.2.1, scalarSrc_moved h.2.1, consumeOnce_clean (by simp [ha, hb, hc])]

/-! ## The vector forms -/

theorem vectorOp_next {s : State} {op : BitVec 8} {w : Fields} {x : Exec} {ta tb tc : Ty} {wd : Nat} {k : Affine} {f : Nat → Nat → Nat → Nat}
    {v : Gang} (h : Issues s kindPlain op w x) (hs : x.seq = false) (hv : s.gang? x.t x.g = some v)
    (ha : ((s.env x v).src w.a ta).poison &&& x.part = 0#32) (hb : ((s.env x v).src w.b tb).poison &&& x.part = 0#32)
    (hc : ((s.env x v).src w.c tc).poison &&& x.part = 0#32) :
    ∃ t, vectorOp op w ta tb tc wd k f s = .next t ∧
      gangBecomes x (fun u =>
        let e := s.env x u
        let a := e.src w.a ta
        let b := e.src w.b tb
        let c := e.src w.c tc
        ({ e with v := u.moved x 16 } : Env).write (regOf w.d) wd (fun l => f (a.val l) (b.val l) (c.val l)) (e.shape k a b c)) s t := by
  unfold vectorOp
  refine issue_env h hs hv ?_ rfl
  dsimp only
  rw [src_moved (s.env x v) (v := v) rfl, src_moved (s.env x v) (v := v) rfl, src_moved (s.env x v) (v := v) rfl, consumeLanes_clean (by simpa using ⟨ha, hb, hc⟩)]
  rfl

theorem vectorTest_next {s : State} {op : BitVec 8} {w : Fields} {x : Exec} {ta tb tc : Ty} {f : Fin 32 → Nat → Nat → Nat → Bool}
    {v : Gang} {i : BitVec 3} (h : Issues s kindPlain op w x) (hs : x.seq = false) (hv : s.gang? x.t x.g = some v) (hd : w.d = .pred i)
    (ha : ((s.env x v).src w.a ta).poison &&& x.part = 0#32) (hb : ((s.env x v).src w.b tb).poison &&& x.part = 0#32)
    (hc : ((s.env x v).src w.c tc).poison &&& x.part = 0#32) :
    ∃ t, vectorTest op w ta tb tc f s = .next t ∧
      gangBecomes x (fun u =>
        let e := s.env x u
        (u.moved x 16).writePred i x.part
          (maskOf fun l => f l ((e.src w.a ta).val l) ((e.src w.b tb).val l) ((e.src w.c tc).val l))) s t := by
  unfold vectorTest
  refine issue_env h hs hv ?_ rfl
  dsimp only
  rw [src_moved (s.env x v) (v := v) rfl, src_moved (s.env x v) (v := v) rfl, src_moved (s.env x v) (v := v) rfl, consumeLanes_clean (by simpa using ⟨ha, hb, hc⟩), hd]
  rfl

theorem floatOp_next {s : State} {op : BitVec 8} {w : Fields} {x : Exec} {ta tb tc : Ty} {wd n : Nat}
    {f : Mode → (Nat → Nat) → Nat → Nat → Nat → Nat × BitVec 5} {v : Gang} (h : Issues s kindPlain op w x) (hs : x.seq = false)
    (hv : s.gang? x.t x.g = some v) (ha : ((s.env x v).src w.a ta).poison &&& x.part = 0#32)
    (hb : ((s.env x v).src w.b tb).poison &&& x.part = 0#32) (hc : ((s.env x v).src w.c tc).poison &&& x.part = 0#32) :
    ∃ t, floatOp op w false ta tb tc wd n f s = .next t ∧
      gangBecomes x (fun u =>
        let e := s.env x u
        let a := e.src w.a ta
        let b := e.src w.b tb
        let c := e.src w.c tc
        let r := fun l => f e.mode (e.hash l) (a.val l) (b.val l) (c.val l)
        let g := ({ e with v := u.moved x 16 } : Env).write (regOf w.d) wd (fun l => (r l).1) (e.shape .none a b c)
        advanceSr { g with regs := g.regs.orFlags (flagsOf x.part fun l => (r l).2) } e.mode x.part n) s t := by
  unfold floatOp
  refine issue_env (by simpa using h) hs hv ?_ rfl
  dsimp only
  rw [src_moved (s.env x v) (v := v) rfl, src_moved (s.env x v) (v := v) rfl, src_moved (s.env x v) (v := v) rfl, consumeLanes_clean (by simpa using ⟨ha, hb, hc⟩)]
  rfl

theorem floatLate_next {s : State} {op : BitVec 8} {w : Fields} {x : Exec} {ta tb tc : Ty} {wd n : Nat}
    {f : Mode → (Nat → Nat) → Nat → Nat → Nat → Nat × BitVec 5} {v : Gang} (h : Issues s kindVariable op w x) (hs : x.seq = false)
    (hv : s.gang? x.t x.g = some v) (ha : ((s.env x v).src w.a ta).poison &&& x.part = 0#32)
    (hb : ((s.env x v).src w.b tb).poison &&& x.part = 0#32) (hc : ((s.env x v).src w.c tc).poison &&& x.part = 0#32) :
    ∃ t, floatOp op w true ta tb tc wd n f s = .next t ∧
      gangBecomes x (fun u =>
        let e := s.env x u
        let r := fun l => f e.mode (e.hash l) ((e.src w.a ta).val l) ((e.src w.b tb).val l) ((e.src w.c tc).val l)
        advanceSr
          ((u.moved x 16).addResult
            ⟨s.ids, vecWrites (regOf w.d) wd x.part (fun l => (r l).1) 0#32, [], [], [], flagsOf x.part fun l => (r l).2, .none⟩ .general)
          e.mode x.part n) s t := by
  unfold floatOp
  refine issue_env (by simpa using h) hs hv ?_ rfl
  dsimp only
  rw [src_moved (s.env x v) (v := v) rfl, src_moved (s.env x v) (v := v) rfl, src_moved (s.env x v) (v := v) rfl, consumeLanes_clean (by simpa using ⟨ha, hb, hc⟩)]
  rfl

/-! ## Which form each instruction is -/

theorem scalarForm_exec {i : Instr} {F : ScalarForm} (h : scalarForm i = some F) (s : State) :
    exec i s = scalarOp F.op F.w F.ta F.tb F.tc F.td F.f s := by
  unfold scalarForm at h
  split at h <;> first
    | (obtain rfl := Option.some.inj h; rfl)
    | exact absurd h (by simp)

theorem scalarFloat_exec {i : Instr} {F : ScalarFloat} (h : scalarFloat i = some F) (s : State) :
    exec i s = floatScalar F.op F.w F.ta F.tb F.tc F.td F.f s := by
  unfold scalarFloat at h
  split at h <;> first
    | (obtain rfl := Option.some.inj h; rfl)
    | exact absurd h (by simp)

theorem vectorForm_exec {i : Instr} {F : VectorForm} (h : vectorForm i = some F) (s : State) :
    exec i s = vectorOp F.op F.w F.ta F.tb F.tc F.wd F.k F.f s := by
  unfold vectorForm at h
  split at h <;> first
    | (obtain rfl := Option.some.inj h; rfl)
    | (obtain ⟨hw, h⟩ := Option.ite_none_right_eq_some.1 h; obtain rfl := Option.some.inj h; simp only [exec, execPmov, if_pos hw])
    | (obtain ⟨hw, h⟩ := Option.ite_none_left_eq_some.1 h; obtain rfl := Option.some.inj h; simp only [exec, execVfclass, if_neg hw])
    | exact absurd h (by simp)

theorem testForm_exec {i : Instr} {F : TestForm} (h : testForm i = some F) (s : State) :
    exec i s = vectorTest F.op F.w F.ta F.tb F.tc F.f s := by
  unfold testForm at h
  split at h <;> (try split at h) <;> (try split at h) <;> cases h <;> (try rfl)
  · next hw hw' => simp only [exec, execPmov, if_neg hw, if_pos hw']
  · next hw hw' => simp only [exec, execPmov, if_neg hw, if_neg hw']
  · next hw => simp only [exec, execVfclass, if_pos hw]

theorem floatForm_exec {i : Instr} {F : FloatForm} (h : floatForm i = some F) (s : State) :
    exec i s = floatOp F.op F.w F.late F.ta F.tb F.tc F.wd F.n F.f s := by
  unfold floatForm at h
  split at h <;> first
    | (obtain rfl := Option.some.inj h; rfl)
    | exact absurd h (by simp)

end Sys2Proof.Machine
end

