-- ==== Sys2Proof/Laws/Control.lean ====
section
/-! SUPPORT. Control flow and traps: conditions and registers after the move to the next word, jumps, and what raising a trap leaves. -/

namespace Sys2Proof.Machine

open Host (Outcome)

/-! ## What the move to the next word keeps -/

theorem moved_unit {s : State} {op : BitVec 8} {w : Fields} {x : Exec} (he : execOf s x.u op w = some x) (len : Nat) :
    (∃ v, x.u = .gang x.t x.g ∧ x.seq = false ∧ s.gang? x.t x.g = some v ∧ moveOn x len s = s.setGang x.t x.g (v.moved x len)) ∨
    (∃ n, x.u = .seq n ∧ x.seq = true ∧ x.cluster = n ∧ moveOn x len s = s.setSeq { s.seq n with pc := x.pc + BitVec.ofNat 56 len, emul := false }) := by
  cases hu : x.u with
  | gang t g =>
    have hs : x.seq = false := by
      rw [hu] at he; obtain ⟨_, _, _, _, _, _, _, _, _, hq, _⟩ := execOf_gang he; exact hq
    obtain ⟨tm, v, hx, ht, hv, hg⟩ := gang_unit he hs
    rw [hu] at hx
    refine Or.inl ⟨v, hx, hs, hg, moveOn_gang (hu.trans hx) hg⟩
  | seq n =>
    have he' := he
    rw [hu] at he'
    obtain ⟨-, hn, -, -, hs, -, -⟩ := execOf_seq he'
    exact Or.inr ⟨n, rfl, hs, hn, moveOn_seq hu⟩

theorem regsOf_moved {s : State} {op : BitVec 8} {w : Fields} {x : Exec} (he : execOf s x.u op w = some x) (len : Nat) :
    (moveOn x len s).regsOf x.u = s.regsOf x.u := by
  rcases moved_unit he len with ⟨v, hu, -, hv, hm⟩ | ⟨n, hu, -, -, hm⟩
  · rw [hm, hu]
    simp only [State.regsOf, State.gang?_setGang _ _ _ _ _ hv, hv]
    rfl
  · rw [hm, hu]
    simp only [State.regsOf]
    rw [State.seq_setSeq_at _ _ n (by simp)]

theorem condition_moved {s : State} {op : BitVec 8} {w : Fields} {x : Exec} (he : execOf s x.u op w = some x) (len : Nat) (o : Operand) :
    (moveOn x len s).condition x o = s.condition x o := by
  unfold State.condition
  rw [regsOf_moved he]
  cases o <;> try rfl
  rcases moved_unit he len with ⟨v, hu, -, hv, hm⟩ | ⟨n, hu, -, -, hm⟩
  · rw [hm]
    simp only [State.gang?_setGang _ _ _ _ _ hv, hv]
    rfl
  · rw [hm]
    rfl

/-- An issue of a sequencer whose body replaces it. -/
theorem issue_seq {s : State} {k : IssueKind} {op : BitVec 8} {w : Fields} {x : Exec} {len : Nat} {body : Exec → State → Except Stop State}
    {q : Seq} {f : Seq → Seq} (h : Issues s k op w x) (hs : x.seq = true) (hb : body x (moveOn x len s) = .ok ((moveOn x len s).setSeq q))
    (hq : q.idx = x.cluster) (hf : q = f (s.seq x.cluster)) : ∃ t, issue k op w len body s = .next t ∧ seqBecomes x f s t := by
  rcases moved_unit h.2.1 len with ⟨v, hu, hn, -, -⟩ | ⟨n, hu, -, hc, -⟩
  · rw [hs] at hn; exact absurd hn (by decide)
  · subst hc
    exact ⟨_, issue_next h hb, seqBecomes_of hu rfl hq hf⟩

/-- A sequencer after the move to the next word. -/
theorem moved_seq {s : State} {op : BitVec 8} {w : Fields} {x : Exec} (he : execOf s x.u op w = some x) (hs : x.seq = true) (len : Nat) :
    x.u = .seq x.cluster ∧ (moveOn x len s).seq x.cluster = { s.seq x.cluster with pc := x.pc + BitVec.ofNat 56 len, emul := false } := by
  rcases moved_unit he len with ⟨v, hu, hn, -, -⟩ | ⟨n, hu, -, hc, hm⟩
  · rw [hs] at hn; exact absurd hn (by decide)
  · subst hc
    refine ⟨hu, ?_⟩
    rw [hm]
    exact State.seq_setSeq_at _ _ _ (by simp)

/-- An issue whose body jumps. -/
theorem issue_jump {s : State} {k : IssueKind} {op : BitVec 8} {w : Fields} {x : Exec} {body : Exec → State → Except Stop State}
    {f : Fin 8 → BitVec 56} (h : Issues s k op w x) (hb : body x (moveOn x 16 s) = .ok (jump x f (moveOn x 16 s))) :
    ∃ t, issue k op w 16 body s = .next t ∧ jumps x f s t := by
  rcases moved_unit h.2.1 16 with ⟨v, hu, hs, hv, hm⟩ | ⟨n, hu, hs, hc, hm⟩
  · have hb' : body x (moveOn x 16 s) = .ok ((moveOn x 16 s).setGang x.t x.g
        ({ v.moved x 16 with quads := mapQuads (v.moved x 16).quads fun q z => if x.quads.getLsbD q then { z with pc := f q } else z }.regroup x.quads)) := by
      rw [hb]
      unfold jump
      rw [hu]
      dsimp only
      rw [State.modGang_eq _ _ _ _ _ (moved_gang h.2.1 hs hv 16).1]
    obtain ⟨t, ht, hg⟩ := issue_gang (f := fun v =>
      { v.moved x 16 with quads := mapQuads (v.moved x 16).quads fun q z => if x.quads.getLsbD q then { z with pc := f q } else z }.regroup x.quads) h hs hv hb' rfl
    refine ⟨t, ht, ?_⟩
    unfold jumps
    rw [hu]
    exact hg
  · subst hc
    have hb' : body x (moveOn x 16 s) = .ok ((moveOn x 16 s).setSeq { s.seq x.cluster with pc := f 0, emul := false }) := by
      rw [hb]
      unfold jump
      rw [hu]
      dsimp only
      unfold State.modSeq
      rw [(moved_seq h.2.1 hs 16).2]
    obtain ⟨t, ht, hg⟩ := issue_seq (f := fun q => { q with pc := f 0, emul := false }) h hs hb' (by simp) rfl
    refine ⟨t, ht, ?_⟩
    unfold jumps
    rw [hu]
    exact hg

/-- An issue whose body leaves the state as the move left it. -/
theorem issue_id {s : State} {k : IssueKind} {op : BitVec 8} {w : Fields} {x : Exec} {body : Exec → State → Except Stop State}
    (h : Issues s k op w x) (hb : body x (moveOn x 16 s) = .ok (moveOn x 16 s)) :
    ∃ t, issue k op w 16 body s = .next t ∧ regsBecome x id s t := by
  rcases moved_unit h.2.1 16 with ⟨v, hu, hs, hv, hm⟩ | ⟨n, hu, hs, hc, hm⟩
  · have hb' : body x (moveOn x 16 s) = .ok ((moveOn x 16 s).setGang x.t x.g (v.moved x 16)) := by
      rw [hb, hm, State.setGang_setGang]
    obtain ⟨t, ht, hg⟩ := issue_gang (f := fun v => { v.moved x 16 with regs := id v.regs }) h hs hv hb' rfl
    refine ⟨t, ht, ?_⟩
    unfold regsBecome
    rw [hu]
    exact hg
  · subst hc
    have hb' : body x (moveOn x 16 s) = .ok ((moveOn x 16 s).setSeq { s.seq x.cluster with pc := x.pc + 16#56, emul := false }) := by
      rw [hb, hm, State.setSeq_setSeq _ _ _ (by simp)]
    obtain ⟨t, ht, hg⟩ := issue_seq (f := fun q => { q with pc := x.pc + 16#56, emul := false, regs := id q.regs }) h hs hb' (by simp) rfl
    refine ⟨t, ht, ?_⟩
    unfold regsBecome
    rw [hu]
    exact hg

/-! ## Traps -/

/-- A coded trap other than a range lock's in a gang whose handler is free. -/
theorem trapFrom_enter {s : State} {x : Exec} {v : Gang} {tm : Team} {code : BitVec 8} {detail : W64} {brk : Bool}
    (hu : x.u = .gang x.t x.g) (ht : s.team? x.t = some tm) (hv : s.gang? x.t x.g = some v) (hc : code ≠ codeLock)
    (hb : (brk && s.debugged x.t v) = false) (hh : v.handler = none) (hvec : tm.trapvec ≠ 0#64) (he : v.emul &&& x.quads = 0#8) :
    (v.regs.pending = [] → trapFrom x (.coded code detail) brk s =
      s.setGang x.t x.g (v.settle.enter code detail x.quads x.pc (tm.trapvec.extractLsb' 0 56))) ∧
    (v.regs.pending ≠ [] → trapFrom x (.coded code detail) brk s =
      s.setGang x.t x.g { v with heldTrap := some ⟨.coded code detail, x.quads, x.pc, brk⟩ }) := by
  have hn : s.noHandler x.t v x.quads = false := by
    simp [State.noHandler, hh, ht, hvec, he]
  unfold trapFrom
  rw [hu]
  dsimp only
  rw [hv]
  dsimp only
  rw [if_neg hc]
  constructor
  · intro hp
    rw [if_pos (Or.inl hp)]
    unfold State.takeGang
    rw [ht, hv]
    dsimp only
    rw [hb, hn]
    simp
  · intro hp
    rw [if_neg (by simp [hp, hn])]

/-- A coded trap in a gang whose results have returned, for the debugger. -/
theorem trapFrom_debug {s : State} {x : Exec} {v : Gang} {tm : Team} {code : BitVec 8} {detail : W64}
    (hu : x.u = .gang x.t x.g) (ht : s.team? x.t = some tm) (hv : s.gang? x.t x.g = some v) (hc : code ≠ codeLock)
    (hb : s.debugged x.t v = true) (hp : v.regs.pending = []) :
    trapFrom x (.coded code detail) true s =
      s.setGang x.t x.g { v.settle.enter code detail x.quads x.pc (tm.trapvec.extractLsb' 0 56) with status := .debug } := by
  unfold trapFrom
  rw [hu]
  dsimp only
  rw [hv]
  dsimp only
  rw [if_neg hc, if_pos (Or.inl hp)]
  unfold State.takeGang
  rw [ht, hv]
  dsimp only
  rw [hb]
  simp

/-- The issue that a trap ends is counted in its gang (R49, R50, R54). -/
theorem noteIssue_gang {s : State} {x : Exec} {v : Gang} (hu : x.u = .gang x.t x.g) (hv : s.gang? x.t x.g = some v) :
    noteIssue x s = (countPerf x.core 0x02 1 s.bump).setGang x.t x.g (v.counted x s.tick s.ids) := by
  unfold noteIssue
  rw [hu]
  exact State.modGang_eq (countPerf x.core 0x02 1 s.bump) _ _ _ _ hv

/-- Raising a coded trap other than a range lock's in a gang whose handler is free. -/
theorem raiseTrap_enter {s : State} {x : Exec} {v : Gang} {tm : Team} {code : BitVec 8} {detail : W64} {brk : Bool}
    (hu : x.u = .gang x.t x.g) (ht : s.team? x.t = some tm) (hv : s.gang? x.t x.g = some v) (hc : code ≠ codeLock)
    (hb : (brk && s.debugged x.t v) = false) (hh : v.handler = none) (hvec : tm.trapvec ≠ 0#64) (he : v.emul &&& x.quads = 0#8) :
    (v.regs.pending = [] → raiseTrap x (.coded code detail) brk s =
      (countPerf x.core 0x02 1 s.bump).setGang x.t x.g ((v.counted x s.tick s.ids).settle.enter code detail x.quads x.pc (tm.trapvec.extractLsb' 0 56))) ∧
    (v.regs.pending ≠ [] → raiseTrap x (.coded code detail) brk s =
      (countPerf x.core 0x02 1 s.bump).setGang x.t x.g { v.counted x s.tick s.ids with heldTrap := some ⟨.coded code detail, x.quads, x.pc, brk⟩ }) := by
  have g1 : ((countPerf x.core 0x02 1 s.bump).setGang x.t x.g (v.counted x s.tick s.ids)).gang? x.t x.g = some (v.counted x s.tick s.ids) :=
    State.gang?_setGang (countPerf x.core 0x02 1 s.bump) _ _ _ v hv
  have t1 : ((countPerf x.core 0x02 1 s.bump).setGang x.t x.g (v.counted x s.tick s.ids)).team? x.t = some (tm.setGang x.g (v.counted x s.tick s.ids)) := by
    rw [team?_setGang]; exact congrArg (Option.map _) ht
  have d1 : ((countPerf x.core 0x02 1 s.bump).setGang x.t x.g (v.counted x s.tick s.ids)).debugged x.t (v.counted x s.tick s.ids) = s.debugged x.t v := by
    unfold State.debugged
    rw [t1, ht]
    rfl
  have := trapFrom_enter (brk := brk) (detail := detail) hu t1 g1 hc (by rw [d1]; exact hb) hh hvec he
  unfold raiseTrap
  rw [noteIssue_gang hu hv]
  simp only [State.setGang_setGang] at this
  exact this

/-- Raising a coded trap in a gang whose results have returned, for the debugger. -/
theorem raiseTrap_debug {s : State} {x : Exec} {v : Gang} {tm : Team} {code : BitVec 8} {detail : W64}
    (hu : x.u = .gang x.t x.g) (ht : s.team? x.t = some tm) (hv : s.gang? x.t x.g = some v) (hc : code ≠ codeLock)
    (hb : s.debugged x.t v = true) (hp : v.regs.pending = []) :
    raiseTrap x (.coded code detail) true s = (countPerf x.core 0x02 1 s.bump).setGang x.t x.g
      { (v.counted x s.tick s.ids).settle.enter code detail x.quads x.pc (tm.trapvec.extractLsb' 0 56) with status := .debug } := by
  have g1 : ((countPerf x.core 0x02 1 s.bump).setGang x.t x.g (v.counted x s.tick s.ids)).gang? x.t x.g = some (v.counted x s.tick s.ids) :=
    State.gang?_setGang (countPerf x.core 0x02 1 s.bump) _ _ _ v hv
  have t1 : ((countPerf x.core 0x02 1 s.bump).setGang x.t x.g (v.counted x s.tick s.ids)).team? x.t = some (tm.setGang x.g (v.counted x s.tick s.ids)) := by
    rw [team?_setGang]; exact congrArg (Option.map _) ht
  have d1 : ((countPerf x.core 0x02 1 s.bump).setGang x.t x.g (v.counted x s.tick s.ids)).debugged x.t (v.counted x s.tick s.ids) = s.debugged x.t v := by
    unfold State.debugged
    rw [t1, ht]
    rfl
  have := trapFrom_debug (detail := detail) hu t1 g1 hc (by rw [d1]; exact hb) hp
  unfold raiseTrap
  rw [noteIssue_gang hu hv]
  simp only [State.setGang_setGang] at this
  exact this

/-- A privileged form outside a handler traps (R68). -/
theorem issue_unprivileged {s : State} {k : IssueKind} {op : BitVec 8} {w : Fields} {x : Exec} {len : Nat}
    {body : Exec → State → Except Stop State} (hc : s.cur = some x.u) (he : execOf s x.u op w = some x) (hk : k.priv = true)
    (hp : x.priv = false) : issue k op w len body s = .next (raiseTrap x (protectionOnce 0#56) false s) := by
  unfold issue
  have e1 : (s.cur.bind fun u => execOf s u op w) = some x := by rw [hc]; exact he
  have e2 : issueCheck k x (s.allocOf x.u) = some (protectionOnce 0#56) := by
    unfold issueCheck
    rw [if_pos ⟨hk, by simp [hp]⟩]
  rw [e1]
  dsimp only
  rw [e2]

/-! ## What the move to the next word leaves -/

theorem readSpecial_moved {s : State} {op : BitVec 8} {w : Fields} {x : Exec} (he : execOf s x.u op w = some x) (i : Nat) :
    (moveOn x 16 s).readSpecial x i = s.readSpecial x i := by
  rcases moved_unit he 16 with ⟨v, hu, hs, hv, hm⟩ | ⟨n, hu, hs, hc, hm⟩
  · obtain ⟨tm, v', -, ht, hg, hv'⟩ := gang_unit he hs
    rw [hv] at hv'; cases hv'
    have h1 := special_moved hu ht hg 16
    have h2 : (s.setGang x.t x.g (v.moved x 16)).gang? x.t x.g = some (v.moved x 16) := State.gang?_setGang _ _ _ _ _ hv
    rw [hm]
    unfold State.readSpecial
    simp only [h1, h2, hv]
    rfl
  · have hq : (s.setSeq { s.seq n with pc := x.pc + BitVec.ofNat 56 16, emul := false }).seq n = { s.seq n with pc := x.pc + BitVec.ofNat 56 16, emul := false } :=
      State.seq_setSeq_at _ _ _ (by simp)
    rw [hm]
    unfold State.readSpecial State.special
    simp only [hs, if_true, hu, State.regsOf, hq]
    rfl

theorem writeSpecial_other (s : State) (x : Exec) (i : Nat) (v : W64) (hi : ¬i = 17 ∧ ¬i = 18 ∧ ¬i = 19 ∧ ¬i = 20 ∧ ¬i = 23 ∧ ¬i = 32) :
    s.writeSpecial x i v = s := by
  obtain ⟨h1, h2, h3, h4, h5, h6⟩ := hi
  simp only [State.writeSpecial]
  try rfl

theorem allocOf_moved {s : State} {op : BitVec 8} {w : Fields} {x : Exec} (he : execOf s x.u op w = some x) :
    (moveOn x 16 s).allocOf x.u = s.allocOf x.u := by
  rcases moved_unit he 16 with ⟨v, hu, hs, hv, hm⟩ | ⟨n, hu, hs, hc, hm⟩
  · rw [hm, hu]; simp only [State.allocOf, State.gang?_setGang _ _ _ _ _ hv, hv]; rfl
  · rw [hm, hu]; rfl

end Sys2Proof.Machine
end

