-- ==== Sys2Proof/Laws/Access.lean ====
section
/-! SUPPORT. Memory instructions: what an issue answers once its checks have passed. -/

namespace Sys2Proof.Machine

/-- A body of a gang that reads the environment completes. -/
theorem issue_memBody {s s' : State} {k : IssueKind} {op : BitVec 8} {w : Fields} {x : Exec} {len : Nat} {f : Env → State → Except Stop State}
    {v : Gang} (h : Issues s k op w x) (hs : x.seq = false) (hv : s.gang? x.t x.g = some v)
    (hf : f ((moveOn x len s).env x (v.moved x len)) (moveOn x len s) = .ok s') :
    issue k op w len (memBody f) s = .next (finish x s') := by
  refine issue_next h ?_
  obtain ⟨h1, -⟩ := moved_gang h.2.1 hs hv len
  unfold memBody
  rw [h1]
  exact hf

/-- A body of a gang that reads the environment traps. -/
theorem issue_memBody_trap {s : State} {t : Trap} {k : IssueKind} {op : BitVec 8} {w : Fields} {x : Exec} {len : Nat} {f : Env → State → Except Stop State}
    {v : Gang} (h : Issues s k op w x) (hs : x.seq = false) (hv : s.gang? x.t x.g = some v)
    (hf : f ((moveOn x len s).env x (v.moved x len)) (moveOn x len s) = .error (.trap t)) :
    issue k op w len (memBody f) s = .next (raiseTrap x t (op = 0xFF#8) s) := by
  refine issue_trap h ?_
  obtain ⟨h1, -⟩ := moved_gang h.2.1 hs hv len
  unfold memBody
  rw [h1]
  exact hf

theorem env_x (s : State) (x : Exec) (v : Gang) : (s.env x v).x = x := rfl

theorem before_none {f : Effects} (h : f.rel = false) (x : Exec) (s : State) : f.before x s = .ok s := by simp [Effects.before, h]

theorem after_none {f : Effects} (h : f.acq = false) (x : Exec) (s : State) : f.after x s = s := by simp [Effects.after, h]

theorem windowAccess_ok {e : Env} {write : Bool} {size : Nat} {s s1 s2 : State} {f : Effects} {k : Nat → List (Nat × Nat) → State → State}
    {p r : List (Nat × Nat) × List (Point × Access)} {tm : Team} (hrel : f.rel = false) (hacq : f.acq = false)
    (h1 : s.checkWindow e.x write size (s.windowTeam e) e.offsets = (s1, .ok p))
    (h2 : s1.checkWindow e.x write size (s1.windowTeam e) e.offsets = (s2, .ok r)) (h3 : s1.windowTeam e = some tm) :
    windowAccess e write size s f k = .ok (k tm.tid r.1 (s2.fillAll (s2.stampOf e.x) tm.tid r.1 r.2)) := by
  unfold windowAccess
  simp only [h1, before_none hrel, after_none hacq, h3]
  rw [← h3, h2]
  simp only [h3]

theorem team_moved {s : State} {op : BitVec 8} {w : Fields} {x : Exec} {tm : Team} (he : execOf s x.u op w = some x) (hs : x.seq = false)
    (ht : s.team? x.t = some tm) : ∃ v, (moveOn x 16 s).team? x.t = some (tm.setGang x.g v) := by
  obtain ⟨tm', v, hu, ht', hg, hv⟩ := gang_unit he hs
  rw [ht] at ht'; cases ht'
  exact ⟨v.moved x 16, by rw [moveOn_gang hu hv, team?_setGang, ht]; rfl⟩

theorem team_moved_gang {s : State} {op : BitVec 8} {w : Fields} {x : Exec} {tm : Team} {v : Gang} (he : execOf s x.u op w = some x)
    (hs : x.seq = false) (ht : s.team? x.t = some tm) (hv : s.gang? x.t x.g = some v) (len : Nat) :
    (moveOn x len s).team? x.t = some (tm.setGang x.g (v.moved x len)) := by
  obtain ⟨tm', v', hu, ht', hg, hv'⟩ := gang_unit he hs
  rw [hv] at hv'; cases hv'
  rw [moveOn_gang hu hv, team?_setGang, ht]
  rfl

/-- An issue that nothing holds, and whose body waits. -/
theorem issue_wait {s : State} {k : IssueKind} {op : BitVec 8} {w : Fields} {x : Exec} {len : Nat}
    {body : Exec → State → Except Stop State} {y : Wait} (h : Issues s k op w x) (hb : body x (moveOn x len s) = .error (.wait y)) :
    issue k op w len body s = .next (waitUnit x y s) := by
  obtain ⟨hc, he, hi, hg, hr, hp⟩ := h
  unfold issue
  have e1 : (s.cur.bind fun u => execOf s u op w) = some x := by rw [hc]; exact he
  rw [e1]
  simp only [hi, hg, hb]
  have a1 : ¬ (k.late = true ∧ ¬ x.seq = true ∧ (s.regsOf x.u).pending.length ≥ 64) := by
    rintro ⟨h1, h2, h3⟩
    have := hr h1 (by simpa using h2)
    omega
  rw [if_neg (by decide), if_neg a1, memoryWait_none hp]

theorem issue_memBody_wait {s : State} {y : Wait} {k : IssueKind} {op : BitVec 8} {w : Fields} {x : Exec} {len : Nat} {f : Env → State → Except Stop State}
    {v : Gang} (h : Issues s k op w x) (hs : x.seq = false) (hv : s.gang? x.t x.g = some v)
    (hf : f ((moveOn x len s).env x (v.moved x len)) (moveOn x len s) = .error (.wait y)) :
    issue k op w len (memBody f) s = .next (waitUnit x y s) := by
  refine issue_wait h ?_
  obtain ⟨h1, -⟩ := moved_gang h.2.1 hs hv len
  unfold memBody
  rw [h1]
  exact hf

/-- Commands that nothing makes wait are accepted. -/
theorem submit_ok {s : State} {x : Exec} {c : Command} (h : s.commandWait x [c] = none) : s.submit x [c] = .ok (s.accept x c) := by
  unfold State.submit; rw [h]; rfl

theorem submit_wait {s : State} {x : Exec} {c : Command} {y : Wait} (h : s.commandWait x [c] = some y) : s.submit x [c] = .error (.wait y) := by
  unfold State.submit; rw [h]

theorem firstFault_none {l : List (Option Trap)} (h : ∀ p ∈ l, p = none) : firstFault l = none := by
  unfold firstFault
  rw [List.findSome?_eq_none_iff]
  exact h

end Sys2Proof.Machine
end

