-- ==== Sys2Proof/Laws/Memory.lean ====
section
/-! SUPPORT. Byte memories: what a read finds after a write, that every memory operation keeps the canonical form, and that canonical memories with the same bytes are the same list. -/

namespace Sys2Proof.Machine

/-! ## The canonical form -/

theorem Memory.above_mono {m : List Host.Cell} {a b : Nat} (h : a ≤ b) (hm : Memory.above b m = true) : Memory.above a m = true := by
  cases m with
  | nil => rfl
  | cons c cs =>
    simp only [Memory.above, Bool.and_eq_true, decide_eq_true_eq] at hm ⊢
    exact ⟨⟨by omega, hm.1.2⟩, hm.2⟩

theorem memGet_below {m : List Host.Cell} {a b : Nat} (hm : Memory.above a m = true) (h : b < a) : memGet m b = 0#8 := by
  cases m with
  | nil => rfl
  | cons c cs =>
    simp only [Memory.above, Bool.and_eq_true, decide_eq_true_eq] at hm
    simp only [memGet]
    rw [if_pos (by omega)]

theorem memPut_above {m : List Host.Cell} {k a : Nat} {b : Byte} (hm : Memory.above k m = true) (h : k ≤ a) :
    Memory.above k (memPut m a b) = true := by
  induction m generalizing k with
  | nil =>
    simp only [memPut]
    split
    · rfl
    · next hb => simp [Memory.above, h, hb]
  | cons c cs ih =>
    have hm' := hm
    simp only [Memory.above, Bool.and_eq_true, decide_eq_true_eq] at hm
    obtain ⟨⟨h1, h2⟩, h3⟩ := hm
    simp only [memPut]
    split
    · next hlt =>
      split
      · exact hm'
      · next hb => simp [Memory.above, h, hb, h2, h3, Nat.succ_le_of_lt hlt]
    · split
      · next heq =>
        split
        · exact Memory.above_mono (by omega) h3
        · next hb => simp [Memory.above, h1, hb, heq, h3]
      · simp [Memory.above, h1, h2, ih h3 (by omega)]

theorem memPut_wf {m : List Host.Cell} (a : Nat) (b : Byte) (h : Memory.wf m = true) : Memory.wf (memPut m a b) = true :=
  memPut_above h (Nat.zero_le a)

theorem memPutBytes_wf {m : List Host.Cell} (a : Nat) (bs : List Byte) (h : Memory.wf m = true) : Memory.wf (memPutBytes m a bs) = true := by
  induction bs generalizing m a with
  | nil => exact h
  | cons b bs ih => exact ih _ (memPut_wf _ _ h)

theorem memPutMasked_wf {m : List Host.Cell} (base : Nat) (mask : BitVec 128) (d : BitVec 1024) (n : Nat) (h : Memory.wf m = true) :
    Memory.wf (memPutMasked m base mask d n) = true := by
  induction n with
  | zero => exact h
  | succ n ih =>
    simp only [memPutMasked]
    split
    · exact memPut_wf _ _ ih
    · exact ih

theorem filter_above (p : Host.Cell → Bool) {m : List Host.Cell} {a : Nat} (h : Memory.above a m = true) :
    Memory.above a (m.filter p) = true := by
  induction m generalizing a with
  | nil => rfl
  | cons c cs ih =>
    have h' := h
    simp only [Memory.above, Bool.and_eq_true, decide_eq_true_eq] at h
    simp only [List.filter_cons]
    split
    · simp [Memory.above, h.1.1, h.1.2, ih h.2]
    · exact Memory.above_mono (by omega) (ih h.2)

/-- Memory that is cleared in part stays canonical. -/
theorem filter_wf (p : Host.Cell → Bool) {m : List Host.Cell} (h : Memory.wf m = true) : Memory.wf (m.filter p) = true := filter_above p h

theorem nil_wf : Memory.wf [] = true := rfl

theorem sideMerge_wf {s : State} (k : Nat) (mask : BitVec 128) (d : BitVec 1024) (brings : Bool) (h : Memory.wf s.mem = true) :
    Memory.wf (s.sideMerge k mask d brings).mem = true := memPutMasked_wf _ _ _ _ h

theorem sideBytes_wf {s : State} (a : Nat) (bs : List Byte) (h : Memory.wf s.mem = true) : Memory.wf (s.sideBytes a bs).mem = true :=
  memPutBytes_wf _ _ h

theorem clearMem_wf {s : State} (p : Host.Cell → Bool) (h : Memory.wf s.mem = true) : Memory.wf ({ s with mem := s.mem.filter p } : State).mem = true :=
  filter_wf p h

theorem reset_wf : Memory.wf State.reset.mem = true := by decide

/-! ## Reading after writing -/

theorem memGet_memPut {m : List Host.Cell} (a : Nat) (b : Byte) (h : Memory.wf m = true) : memGet (memPut m a b) a = b := by
  suffices key : ∀ k, k ≤ a → Memory.above k m = true → memGet (memPut m a b) a = b from key 0 (Nat.zero_le a) h
  clear h
  induction m with
  | nil =>
    intro k _ _
    simp only [memPut]
    split
    · next hb => simp [memGet, hb]
    · simp [memGet]
  | cons c cs ih =>
    intro k hk hm
    simp only [Memory.above, Bool.and_eq_true, decide_eq_true_eq] at hm
    simp only [memPut]
    split
    · next hlt =>
      split
      · next hb => simp [memGet, hlt, hb]
      · simp [memGet]
    · split
      · next heq =>
        split
        · next hb => rw [hb]; exact memGet_below hm.2 (by omega)
        · simp [memGet]
      · next h1 h2 =>
        simp only [memGet]
        rw [if_neg h1, if_neg h2]
        exact ih (c.1 + 1) (by omega) hm.2

theorem memGet_memPut_other {m : List Host.Cell} (a c : Nat) (b : Byte) (h : Memory.wf m = true) (hc : c ≠ a) :
    memGet (memPut m a b) c = memGet m c := by
  suffices key : ∀ k, Memory.above k m = true → memGet (memPut m a b) c = memGet m c from key 0 h
  clear h
  induction m with
  | nil =>
    intro k _
    simp only [memPut]
    split
    · rfl
    · simp [memGet, hc]
  | cons x xs ih =>
    intro k hm
    simp only [Memory.above, Bool.and_eq_true, decide_eq_true_eq] at hm
    simp only [memPut]
    split
    · next hlt =>
      split
      · rfl
      · simp only [memGet]
        by_cases h1 : c < a
        · rw [if_pos h1, if_pos (by omega)]
        · rw [if_neg h1, if_neg hc]
    · next h1 =>
      split
      · next heq =>
        subst heq
        split
        · simp only [memGet]
          by_cases h2 : c < x.1
          · rw [if_pos h2]; exact memGet_below hm.2 (by omega)
          · rw [if_neg h2, if_neg hc]
        · simp only [memGet]
          by_cases h2 : c < x.1
          · rw [if_pos h2, if_pos h2]
          · rw [if_neg h2, if_neg hc, if_neg h2, if_neg hc]
      · simp only [memGet]
        rw [ih (x.1 + 1) hm.2]

theorem memGet_memPutBytes {m : List Host.Cell} (a c : Nat) (bs : List Byte) (h : Memory.wf m = true) :
    memGet (memPutBytes m a bs) c = if a ≤ c ∧ c < a + bs.length then bs.getD (c - a) 0#8 else memGet m c := by
  induction bs generalizing m a with
  | nil => simp only [memPutBytes, List.length_nil]; rw [if_neg (by omega)]
  | cons b bs ih =>
    simp only [memPutBytes]
    rw [ih _ (memPut_wf _ _ h)]
    by_cases h1 : a + 1 ≤ c ∧ c < a + 1 + bs.length
    · rw [if_pos h1, if_pos (by simp only [List.length_cons]; omega)]
      have e : c - a = (c - (a + 1)) + 1 := by omega
      rw [e, List.getD_cons_succ]
    · rw [if_neg h1]
      by_cases h2 : c = a
      · subst h2
        rw [if_pos (by simp only [List.length_cons]; omega), memGet_memPut _ _ h]
        simp
      · rw [if_neg (by simp only [List.length_cons]; omega), memGet_memPut_other _ _ _ h h2]

theorem memGet_memPutMasked {m : List Host.Cell} (base c : Nat) (mask : BitVec 128) (d : BitVec 1024) (n : Nat) (h : Memory.wf m = true) :
    memGet (memPutMasked m base mask d n) c =
      if base ≤ c ∧ c < base + n ∧ mask.getLsbD (c - base) = true then byteOf d (c - base) else memGet m c := by
  induction n with
  | zero => simp only [memPutMasked]; rw [if_neg (by omega)]
  | succ n ih =>
    simp only [memPutMasked]
    by_cases hb : c = base + n
    · subst hb
      have e : base + n - base = n := by omega
      rw [e] at ih ⊢
      split
      · next hm => rw [memGet_memPut _ _ (memPutMasked_wf _ _ _ _ h), if_pos ⟨by omega, by omega, hm⟩]
      · next hm => rw [ih, if_neg (by omega), if_neg (by rintro ⟨-, -, h3⟩; exact hm h3)]
    · have step : memGet (if mask.getLsbD n = true then memPut (memPutMasked m base mask d n) (base + n) (byteOf d n)
          else memPutMasked m base mask d n) c = memGet (memPutMasked m base mask d n) c := by
        split
        · exact memGet_memPut_other _ _ _ (memPutMasked_wf _ _ _ _ h) hb
        · rfl
      rw [step, ih]
      by_cases h1 : base ≤ c ∧ c < base + n ∧ mask.getLsbD (c - base) = true
      · rw [if_pos h1, if_pos ⟨h1.1, by omega, h1.2.2⟩]
      · rw [if_neg h1, if_neg (by rintro ⟨h2, h3, h4⟩; exact h1 ⟨h2, by omega, h4⟩)]

/-! ## Equal memories are equal data -/

theorem memory_ext_above {m n : List Host.Cell} {k : Nat} (hm : Memory.above k m = true) (hn : Memory.above k n = true)
    (h : ∀ a, memGet m a = memGet n a) : m = n := by
  induction m generalizing n k with
  | nil =>
    cases n with
    | nil => rfl
    | cons c cs =>
      simp only [Memory.above, Bool.and_eq_true, decide_eq_true_eq] at hn
      have := h c.1
      simp [memGet] at this
      exact absurd this.symm hn.1.2
  | cons c cs ih =>
    have hm' := hm
    simp only [Memory.above, Bool.and_eq_true, decide_eq_true_eq] at hm
    cases n with
    | nil =>
      have := h c.1
      simp [memGet] at this
      exact absurd this hm.1.2
    | cons d ds =>
      simp only [Memory.above, Bool.and_eq_true, decide_eq_true_eq] at hn
      have hcd : c.1 = d.1 := by
        rcases Nat.lt_trichotomy c.1 d.1 with hlt | heq | hgt
        · have := h c.1
          simp [memGet, hlt] at this
          exact absurd this hm.1.2
        · exact heq
        · have := h d.1
          simp [memGet, hgt] at this
          exact absurd this.symm hn.1.2
      have hv : c.2 = d.2 := by
        have := h c.1
        simpa [memGet, hcd] using this
      have hc : c = d := Prod.ext hcd hv
      subst hc
      congr 1
      refine ih hm.2 hn.2 fun a => ?_
      by_cases ha : a ≤ c.1
      · rw [memGet_below hm.2 (by omega), memGet_below hn.2 (by omega)]
      · have := h a
        simp only [memGet] at this
        rwa [if_neg (by omega), if_neg (by omega), if_neg (by omega), if_neg (by omega)] at this

/-- Canonical memories that read alike are the same list. -/
theorem memory_ext {m n : List Host.Cell} (hm : Memory.wf m = true) (hn : Memory.wf n = true) (h : ∀ a, memGet m a = memGet n a) : m = n :=
  memory_ext_above hm hn h

end Sys2Proof.Machine
end

