-- ==== Sys2Proof/Laws/Sectors.lean ====
section
/-! SUPPORT. Sectors as bytes: merging by a mask, the bytes of a sector of a memory, and the bytes that an access takes and lays. -/

namespace Sys2Proof.Machine

/-! ## Bytes of a sector -/

theorem spreadBytes_lt (mask : BitVec 128) (n : Nat) : spreadBytes mask n < 256 ^ n := by
  induction n with
  | zero => exact Nat.one_pos
  | succ n ih =>
    simp only [spreadBytes]
    have : 256 ^ (n + 1) = 256 ^ n * 256 := Nat.pow_succ _ _
    split <;> omega

theorem testBit_spreadBytes (mask : BitVec 128) (n i : Nat) :
    (spreadBytes mask n).testBit i = (decide (i < 8 * n) && mask.getLsbD (i / 8)) := by
  induction n with
  | zero => simp [spreadBytes]
  | succ n ih =>
    simp only [spreadBytes]
    have hp : (256 : Nat) ^ n = 2 ^ (8 * n) := by rw [Nat.pow_mul]
    have hlt := spreadBytes_lt mask n
    have key : (spreadBytes mask n + if mask.getLsbD n = true then 255 * 256 ^ n else 0) =
        2 ^ (8 * n) * (if mask.getLsbD n = true then 255 else 0) + spreadBytes mask n := by
      rw [hp]; split <;> omega
    rw [key, Nat.testBit_two_pow_mul_add _ (by rw [← hp]; exact hlt)]
    by_cases hi : i < 8 * n
    · rw [if_pos hi, ih]
      have h1 : i < 8 * (n + 1) := by omega
      simp [hi, h1]
    · rw [if_neg hi]
      by_cases h2 : i < 8 * (n + 1)
      · have h3 : i / 8 = n := by omega
        have h4 : i - 8 * n < 8 := by omega
        rw [h3]
        simp only [h2, decide_true, Bool.true_and]
        cases mask.getLsbD n with
        | false => simp
        | true =>
          simp only [if_true]
          generalize i - 8 * n = j at h4
          interval_cases j <;> rfl
      · simp only [h2, decide_false, Bool.false_and]
        split
        · exact Nat.testBit_lt_two_pow (by
            have : (2 : Nat) ^ 8 ≤ 2 ^ (i - 8 * n) := Nat.pow_le_pow_right (by decide) (by omega)
            omega)
        · simp

theorem getLsbD_spread (mask : BitVec 128) (i : Nat) : (spread mask).getLsbD i = (decide (i < 1024) && mask.getLsbD (i / 8)) := by
  simp only [spread, BitVec.getLsbD_ofNat, testBit_spreadBytes]
  by_cases h : i < 1024 <;> simp [h]

theorem getLsbD_mergeSector (old new : BitVec 1024) (mask : BitVec 128) (i : Nat) (h : i < 1024) :
    (mergeSector old new mask).getLsbD i = if mask.getLsbD (i / 8) then new.getLsbD i else old.getLsbD i := by
  simp only [mergeSector, BitVec.getLsbD_or, BitVec.getLsbD_and, BitVec.getLsbD_not, getLsbD_spread, h, decide_true, Bool.true_and]
  cases mask.getLsbD (i / 8) <;> simp

/-- A merged sector holds the new bytes under the mask and the old ones elsewhere. -/
theorem byteOf_mergeSector (old new : BitVec 1024) (mask : BitVec 128) (i : Nat) (h : i < 128) :
    byteOf (mergeSector old new mask) i = if mask.getLsbD i then byteOf new i else byteOf old i := by
  apply BitVec.eq_of_getLsbD_eq
  intro j hj
  have h1 : 8 * i + j < 1024 := by omega
  have h2 : (8 * i + j) / 8 = i := by omega
  simp only [byteOf, BitVec.getLsbD_extractLsb', hj, decide_true, Bool.true_and, getLsbD_mergeSector _ _ _ _ h1, h2]
  split <;> simp [hj]

theorem memNat_lt (m : List Host.Cell) (a n : Nat) : memNat m a n < 256 ^ n := by
  induction n generalizing a with
  | zero => exact Nat.one_pos
  | succ n ih =>
    simp only [memNat]
    have h1 := ih (a + 1)
    have h2 := (memGet m a).isLt
    have : 256 ^ (n + 1) = 256 ^ n * 256 := Nat.pow_succ _ _
    omega

/-- Byte `k` of the number that a memory holds at an address. -/
theorem memNat_byte (m : List Host.Cell) (a n k : Nat) (h : k < n) : BitVec.ofNat 8 (memNat m a n / 256 ^ k) = memGet m (a + k) := by
  induction n generalizing a k with
  | zero => omega
  | succ n ih =>
    simp only [memNat]
    cases k with
    | zero =>
      simp only [Nat.pow_zero, Nat.div_one, Nat.add_zero]
      apply BitVec.eq_of_toNat_eq
      have := (memGet m a).isLt
      simp only [BitVec.toNat_ofNat]
      omega
    | succ k =>
      have h2 := (memGet m a).isLt
      rw [Nat.pow_succ', ← Nat.div_div_eq_div_mul, show ((memGet m a).toNat + 256 * memNat m (a + 1) n) / 256 = memNat m (a + 1) n by omega,
        ih (a + 1) k (by omega)]
      congr 1
      omega

/-- Byte `i` of a sector of a memory. -/
theorem byteOf_sectorOf (m : List Host.Cell) (k i : Nat) (h : i < 128) : byteOf (sectorOf m k) i = memGet m (128 * k + i) := by
  rw [← memNat_byte m (128 * k) 128 i h]
  apply BitVec.eq_of_toNat_eq
  simp only [byteOf, sectorOf, BitVec.extractLsb'_toNat, BitVec.toNat_ofNat, Nat.shiftRight_eq_div_pow]
  have e1 : (256 : Nat) ^ i = 2 ^ (8 * i) := by rw [Nat.pow_mul]
  have e2 : (1024 : Nat) = 8 * i + (1024 - 8 * i) := by omega
  rw [e1, e2, Nat.pow_add, Nat.mod_mul_right_div_self, Nat.mod_mod_of_dvd _ (Nat.pow_dvd_pow 2 (by omega))]

theorem getLsbD_byteRun (i n j : Nat) (hj : j < 128) : (byteRun i n).getLsbD j = decide (i ≤ j ∧ j < i + n) := by
  simp only [byteRun, BitVec.getLsbD_ofNat, hj, decide_true, Bool.true_and]
  rw [Nat.mul_comm, Nat.testBit_two_pow_mul]
  by_cases h : i ≤ j
  · simp only [h, true_and, decide_true, Bool.true_and]
    rw [Nat.testBit_two_pow_sub_one]
    congr 1
    apply propext
    omega
  · simp [h]

/-- Byte `k` of what an access takes of a sector. -/
theorem take_byte (a : Access) (d : BitVec 1024) (k : Nat) (hk : k < a.size) :
    BitVec.ofNat 8 (a.take d / 256 ^ k) = byteOf d (a.pa % 128 + k) := by
  apply BitVec.eq_of_toNat_eq
  simp only [Access.take, byteOf, BitVec.toNat_ofNat, BitVec.extractLsb'_toNat, Nat.shiftRight_eq_div_pow]
  have e1 : (256 : Nat) ^ k = 2 ^ (8 * k) := by rw [Nat.pow_mul]
  rw [e1]
  have e2 : 8 * a.size = 8 * k + (8 * a.size - 8 * k) := by omega
  rw [e2, Nat.pow_add, Nat.mod_mul_right_div_self, Nat.mod_mod_of_dvd _ (Nat.pow_dvd_pow 2 (by omega)), Nat.div_div_eq_div_mul, ← Nat.pow_add]
  congr 3
  omega

/-- Byte `k` of a number that an access lays in a sector. -/
theorem lay_byte (a : Access) (v k : Nat) (h : a.pa % 128 + k < 128) : byteOf (a.lay v) (a.pa % 128 + k) = BitVec.ofNat 8 (v / 256 ^ k) := by
  apply BitVec.eq_of_toNat_eq
  simp only [Access.lay, byteOf, BitVec.toNat_ofNat, BitVec.extractLsb'_toNat, Nat.shiftRight_eq_div_pow]
  have e1 : (256 : Nat) ^ k = 2 ^ (8 * k) := by rw [Nat.pow_mul]
  generalize hp : a.pa % 128 = p at h
  have e2 : 8 * (p + k) = 8 * p + 8 * k := by omega
  have e3 : (1024 : Nat) = 8 * (p + k) + (1024 - 8 * (p + k)) := by omega
  rw [e3, Nat.pow_add, Nat.mod_mul_right_div_self, Nat.mod_mod_of_dvd _ (Nat.pow_dvd_pow 2 (by omega)), e1, e2, Nat.pow_add,
    ← Nat.div_div_eq_div_mul, Nat.mul_div_cancel _ (by positivity)]

/-- A number is known by its bytes. -/
theorem eq_of_bytes {u v n : Nat} (hu : u < 256 ^ n) (hv : v < 256 ^ n) (h : ∀ k < n, BitVec.ofNat 8 (u / 256 ^ k) = BitVec.ofNat 8 (v / 256 ^ k)) :
    u = v := by
  induction n generalizing u v with
  | zero => simp only [Nat.pow_zero] at hu hv; omega
  | succ n ih =>
    have e : 256 ^ (n + 1) = 256 ^ n * 256 := Nat.pow_succ _ _
    have h0 := congrArg BitVec.toNat (h 0 (by omega))
    simp only [Nat.pow_zero, Nat.div_one, BitVec.toNat_ofNat] at h0
    have hq : u / 256 = v / 256 := by
      refine ih (by omega) (by omega) fun k hk => ?_
      have := h (k + 1) (by omega)
      rwa [Nat.pow_succ', ← Nat.div_div_eq_div_mul, ← Nat.div_div_eq_div_mul] at this
    omega

theorem take_lt (a : Access) (d : BitVec 1024) : a.take d < 256 ^ a.size := by
  have e : (256 : Nat) ^ a.size = 2 ^ (8 * a.size) := by rw [Nat.pow_mul]
  rw [e]
  exact Nat.mod_lt _ (by positivity)

/-- What an access takes is known by the bytes of the sector. -/
theorem take_eq (a : Access) (d : BitVec 1024) (v : Nat) (h : ∀ k < a.size, byteOf d (a.pa % 128 + k) = BitVec.ofNat 8 (v / 256 ^ k)) :
    a.take d = v % 2 ^ (8 * a.size) := by
  have e : (256 : Nat) ^ a.size = 2 ^ (8 * a.size) := by rw [Nat.pow_mul]
  refine eq_of_bytes (take_lt a d) (by rw [e]; exact Nat.mod_lt _ (by positivity)) fun k hk => ?_
  rw [take_byte a d k hk, h k hk]
  apply BitVec.eq_of_toNat_eq
  have e1 : (256 : Nat) ^ k = 2 ^ (8 * k) := by rw [Nat.pow_mul]
  have e2 : 8 * a.size = 8 * k + (8 * a.size - 8 * k) := by omega
  simp only [BitVec.toNat_ofNat]
  rw [e1, e2, Nat.pow_add, Nat.mod_mul_right_div_self, Nat.mod_mod_of_dvd _ (Nat.pow_dvd_pow 2 (by omega))]

/-! ## The sectors of a die's cache -/

theorem State.die_modDie (s : State) (n : Nat) (f : Die → Die) (h : n < 9) : (s.modDie n f).die n = f (s.die n) := by
  simp only [State.modDie, State.die]; exact vget_vset _ _ _ _ h

theorem State.die_modDie_other (s : State) (n k : Nat) (f : Die → Die) (h : n ≠ k) : (s.modDie n f).die k = s.die k := by
  simp only [State.modDie, State.die]; exact vget_vset_other _ _ _ _ _ h

theorem Die.sector?_setSector (d : Die) (x : Sector) : (d.setSector x).sector? x.key = some x := by
  simp only [Die.setSector, Die.sector?]; exact find?_upsert (fun y : Sector => decide (y.key = x.key)) _ (by simp) _

theorem Die.sector?_setSector_other (d : Die) (x : Sector) (k : Nat) (h : k ≠ x.key) : (d.setSector x).sector? k = d.sector? k := by
  simp only [Die.setSector, Die.sector?]
  exact find?_upsert_other (fun y : Sector => decide (y.key = x.key)) (fun y : Sector => decide (y.key = k)) _ (by simpa using fun e => h e.symm) (fun y hy => by simp at hy ⊢; intro e; exact h (e.symm.trans hy)) _

theorem Die.sector?_key {d : Die} {k : Nat} {x : Sector} (h : d.sector? k = some x) : x.key = k := by
  simpa using List.find?_some h

theorem key_of_home {a : Access} (h : a.peer = none) : a.key = a.pa := by simp [Access.key, keyOf, h]


theorem dieRead_data (s : State) (die k : Nat) (shared : Bool) (need : BitVec 128)
    (hv : ∀ z, (s.die die).sector? k = some z → z.shared = shared) (i : Nat) (hi : i < 128) (hn : need.getLsbD i = true) :
    byteOf (s.dieRead die k shared need).2.1 i = s.dieByte die (128 * k + i) := by
  have e1 : (128 * k + i) / 128 = k := by omega
  have e2 : (128 * k + i) % 128 = i := by omega
  simp only [State.dieRead, State.dieByte, e1, e2]
  cases hz : (s.die die).sector? k with
  | none => simp only [filled]; exact byteOf_sectorOf _ _ _ hi
  | some x =>
    have hx : ({ x with shared := shared } : Sector) = x := by rw [← hv x hz]
    simp only [hx]
    split
    · next hc =>
      have : (need &&& ~~~(s.die die).holds x).getLsbD i = (0#128).getLsbD i := by rw [hc]
      simp only [BitVec.getLsbD_and, hn, BitVec.getLsbD_not, hi, decide_true, Bool.true_and, BitVec.getLsbD_zero, Bool.not_eq_false'] at this
      rw [if_pos this]
    · simp only [filled]
      rw [byteOf_mergeSector _ _ _ _ hi, byteOf_sectorOf _ _ _ hi]


@[simp] theorem l1Miss_mem (s : State) (c k : Nat) (u : Option Issuer) (d : BitVec 1024) (p : Bool) : (s.l1Miss c k u d p).mem = s.mem := rfl
@[simp] theorem l1Miss_dies (s : State) (c k : Nat) (u : Option Issuer) (d : BitVec 1024) (p : Bool) : (s.l1Miss c k u d p).dies = s.dies := rfl
@[simp] theorem l1Join_mem (s : State) (c : Nat) (m : Miss) (u : Option Issuer) : (s.l1Join c m u).mem = s.mem := by
  unfold State.l1Join; split <;> rfl
@[simp] theorem l1Join_dies (s : State) (c : Nat) (m : Miss) (u : Option Issuer) : (s.l1Join c m u).dies = s.dies := by
  unfold State.l1Join; split <;> rfl
@[simp] theorem l1Close_memPoison (s : State) (c k : Nat) : (s.l1Close c k).memPoison = s.memPoison := by unfold State.l1Close; split <;> rfl
@[simp] theorem l1Close_mem (s : State) (c k : Nat) : (s.l1Close c k).mem = s.mem := by unfold State.l1Close; split <;> rfl
@[simp] theorem l1Close_dies (s : State) (c k : Nat) : (s.l1Close c k).dies = s.dies := by unfold State.l1Close; split <;> rfl

theorem evict_mem (s : State) (die k : Nat) : (s.evict die k).mem = (s.writeBack die k).mem := rfl

theorem Miss.close_shares (m : Miss) (k tick step : Nat) (who : Option Issuer) : m.close.shares k who tick step = false := by
  simp [Miss.shares, Miss.close]

/-- Once the fills of a line are closed, no load shares one (R249, R250). -/
theorem l1Close_shares (s : State) (c k tick step : Nat) (who : Option Issuer) :
    ((s.l1Close c k).core c).misses.find? (fun m => m.shares k who tick step) = none := by
  rw [List.find?_eq_none]
  intro m hm
  unfold State.l1Close at hm
  split at hm
  · rw [State.modCore, State.core_setCore_at _ _ c (by simp)] at hm
    dsimp only at hm
    generalize (s.core c).misses = ms at hm
    induction ms with
    | nil => cases hm
    | cons y ys ih =>
      rcases List.mem_cons.1 hm with rfl | h
      · split
        · simp [Miss.close_shares]
        · next hk => simp_all [Miss.shares]
      · exact ih h
  · next hk =>
    simp only [Bool.not_eq_true, List.any_eq_false, decide_eq_true_eq] at hk
    simp [Miss.shares, hk m hm]

/-- Nor once written bytes have been merged into the line (R249). -/
theorem l1Update_shares (s : State) (c k tick step : Nat) (mask : BitVec 128) (v : BitVec 1024) (who : Option Issuer) :
    ((s.l1Update c k mask v).core c).misses.find? (fun m => m.shares k who tick step) = none := by
  have h := l1Close_shares s c k tick step who
  unfold State.l1Update
  dsimp only
  split
  · rw [State.modCore, State.core_setCore_at _ _ c (by simp)]
    exact h
  · exact h

/-! ## Writes of a die's cache -/

theorem writeBack_mem (s : State) (die k : Nat) :
    (s.writeBack die k).mem = match (s.die die).sector? k with
      | none => s.mem
      | some x => if x.dirty = 0#128 then s.mem else memPutMasked s.mem (128 * k) x.dirty x.data 128 := by
  unfold State.writeBack
  cases (s.die die).sector? k with
  | none => rfl
  | some x =>
    dsimp only
    split <;> rfl

theorem writeBack_wf {s : State} (die k : Nat) (h : Memory.wf s.mem = true) : Memory.wf (s.writeBack die k).mem = true := by
  rw [writeBack_mem]
  split
  · exact h
  · split
    · exact h
    · exact memPutMasked_wf _ _ _ _ h

/-- The sector of a die after a write of some of its bytes. -/
theorem dieWrite_sector (s : State) (die k : Nat) (shared : Bool) (mask : BitVec 128) (v : BitVec 1024) (brings : Bool) (h : die < 9) :
    ∃ x, ((s.dieWrite die k shared mask v brings).die die).sector? k = some x ∧ x.shared = shared ∧
      (∀ z, (s.die die).sector? k = some z → x.data = mergeSector z.data v mask ∧ x.dirty = z.dirty ||| mask ∧ x.have_ = z.have_ ||| mask ∧
        x.gen = z.gen ∧ x.wrapped = z.wrapped) ∧
      ((s.die die).sector? k = none → x.data = mergeSector 0#1024 v mask ∧ x.dirty = mask ∧ x.have_ = mask ∧ x.gen = (s.die die).gen ∧
        x.wrapped = false) := by
  unfold State.dieWrite
  rw [State.die_modDie _ _ _ h]
  cases hz : (s.die die).sector? k with
  | none =>
    refine ⟨_, Die.sector?_setSector _ _, rfl, ?_, fun _ => ⟨rfl, rfl, rfl, rfl, rfl⟩⟩
    rintro z ⟨⟩
  | some z =>
    refine ⟨{ z with
      data := mergeSector z.data v mask, dirty := z.dirty ||| mask, have_ := z.have_ ||| mask, shared
      poison := z.poison && (z.dirty ||| mask) != BitVec.allOnes 128
      carried := brings || (z.carried && !(mask = BitVec.allOnes 128)) }, ?_, rfl, ?_, ?_⟩
    · have hk : z.key = k := Die.sector?_key hz
      dsimp only
      conv => lhs; arg 2; rw [← hk]
      exact Die.sector?_setSector _ _
    · rintro y ⟨⟩
      exact ⟨rfl, rfl, rfl, rfl, rfl⟩
    · rintro ⟨⟩

theorem dieWrite_gen (s : State) (die k : Nat) (shared : Bool) (mask : BitVec 128) (v : BitVec 1024) (brings : Bool) (h : die < 9) :
    ((s.dieWrite die k shared mask v brings).die die).gen = (s.die die).gen := by
  unfold State.dieWrite
  rw [State.die_modDie _ _ _ h]
  split <;> rfl

/-- A written byte reads on its die as written. -/
theorem dieByte_dieWrite (s : State) (die k : Nat) (shared : Bool) (mask : BitVec 128) (v : BitVec 1024) (brings : Bool) (h : die < 9)
    (i : Nat) (hi : i < 128) (hm : mask.getLsbD i = true) :
    (s.dieWrite die k shared mask v brings).dieByte die (128 * k + i) = byteOf v i := by
  obtain ⟨x, hx, -, h1, h2⟩ := dieWrite_sector s die k shared mask v brings h
  have e1 : (128 * k + i) / 128 = k := by omega
  have e2 : (128 * k + i) % 128 = i := by omega
  simp only [State.dieByte, e1, e2, hx]
  have hd : x.dirty.getLsbD i = true ∧ byteOf x.data i = byteOf v i := by
    cases hz : (s.die die).sector? k with
    | none =>
      obtain ⟨d1, d2, -⟩ := h2 hz
      rw [d1, d2, byteOf_mergeSector _ _ _ _ hi, if_pos hm]
      exact ⟨hm, rfl⟩
    | some z =>
      obtain ⟨d1, d2, -⟩ := h1 z hz
      rw [d1, d2, byteOf_mergeSector _ _ _ _ hi, if_pos hm, BitVec.getLsbD_or, hm]
      exact ⟨by simp, rfl⟩
  rw [if_pos (by rw [Die.holds, BitVec.getLsbD_or, hd.1]; rfl), hd.2]

/-- A byte that a write of a sector leaves out reads on its die as before. -/
theorem dieByte_dieWrite_out (s : State) (die k : Nat) (shared : Bool) (mask : BitVec 128) (v : BitVec 1024) (brings : Bool) (h : die < 9)
    (hs : ∀ z, (s.die die).sector? k = some z → z.shared = shared) (i : Nat) (hi : i < 128) (hm : mask.getLsbD i = false) :
    (s.dieWrite die k shared mask v brings).dieByte die (128 * k + i) = s.dieByte die (128 * k + i) := by
  obtain ⟨x, hx, hsx, h1, h2⟩ := dieWrite_sector s die k shared mask v brings h
  have hg := dieWrite_gen s die k shared mask v brings h
  have e1 : (128 * k + i) / 128 = k := by omega
  have e2 : (128 * k + i) % 128 = i := by omega
  have hmem : (s.dieWrite die k shared mask v brings).mem = s.mem := rfl
  simp only [State.dieByte, e1, e2, hx, hmem]
  cases hz : (s.die die).sector? k with
  | none =>
    obtain ⟨-, d2, d3, -⟩ := h2 hz
    rw [if_neg]
    simp only [Die.holds, d2, d3, BitVec.getLsbD_or, hm, Bool.false_or]
    split <;> simp [hm]
  | some z =>
    obtain ⟨d1, d2, d3, d4, d5⟩ := h1 z hz
    have hst : ((s.dieWrite die k shared mask v brings).die die).stale x = (s.die die).stale z := by
      simp only [Die.stale, hsx, hs z hz, d4, d5, hg]
    have hh : (((s.dieWrite die k shared mask v brings).die die).holds x).getLsbD i = ((s.die die).holds z).getLsbD i := by
      simp only [Die.holds, hst, d2, d3, BitVec.getLsbD_or, hm, Bool.or_false]
      congr 1
      split
      · rfl
      · rw [BitVec.getLsbD_or, hm, Bool.or_false]
    simp only [hh, d1, byteOf_mergeSector _ _ _ _ hi, hm]
    rfl

/-- A write of a sector of a die leaves every other sector and die. -/
theorem dieByte_dieWrite_other (s : State) (die k : Nat) (shared : Bool) (mask : BitVec 128) (v : BitVec 1024) (brings : Bool) (n a : Nat)
    (h : n ≠ die ∨ a / 128 ≠ k) : (s.dieWrite die k shared mask v brings).dieByte n a = s.dieByte n a := by
  have hmem : (s.dieWrite die k shared mask v brings).mem = s.mem := rfl
  by_cases hn : n = die
  · subst hn
    have hk : a / 128 ≠ k := by rcases h with h | h; exact absurd rfl h; exact h
    by_cases hd : n < 9
    · have hsec : ((s.dieWrite n k shared mask v brings).die n).sector? (a / 128) = (s.die n).sector? (a / 128) := by
        unfold State.dieWrite
        rw [State.die_modDie _ _ _ hd]
        cases hz : (s.die n).sector? k with
        | none => exact Die.sector?_setSector_other _ _ _ hk
        | some z => exact Die.sector?_setSector_other _ _ _ (by have := Die.sector?_key hz; simpa [this] using hk)
      have hst : ∀ x, ((s.dieWrite n k shared mask v brings).die n).holds x = (s.die n).holds x := by
        intro x
        have hg := dieWrite_gen s n k shared mask v brings hd
        unfold Die.holds Die.stale
        rw [hg]
      simp only [State.dieByte, hsec, hst, hmem]
    · have hv : ∀ y, vset s.dies n y = s.dies := fun y => by simp [vset, hd]
      have hw : s.dieWrite n k shared mask v brings = s := by unfold State.dieWrite State.modDie; rw [hv]
      rw [hw]
  · have hdie : (s.dieWrite die k shared mask v brings).die n = s.die n := by
      unfold State.dieWrite
      exact State.die_modDie_other _ _ _ _ (by omega)
    simp only [State.dieByte, hdie, hmem]

/-! ## Reads and writes of a place -/

/-- A read of a place that is not die scratch of this module. -/
theorem read_home {s : State} {a : Access} (hp : a.peer = none) (hr : regionOf a.pa ≠ .scratch) : s.read a = (
      let k := a.key / 128
      if a.aside then
        let s := s.evict a.die k
        (s, a.take (sectorOf s.mem k), s.memPoison.contains k)
      else
        match (if a.strong || a.cp != 0#2 || a.hint == 2#2 then none else a.core) with
        | none =>
          let (s, d, p) := s.dieRead a.die k a.shared a.mask
          (s, a.take d, p)
        | some c =>
          match (s.core c).l1.find? fun x => x.key = k with
          | some x => (s, a.take x.data, false)
          | none =>
            match (s.core c).misses.find? fun m => m.shares k a.who s.tick s.free with
            | some m => (s.l1Join c m a.who, a.take m.data, m.poison)
            | none =>
              let (s, d, p) := s.dieRead a.die k a.shared (BitVec.allOnes 128)
              let s := s.l1Miss c k a.who d p
              (if p then s else s.modCore c fun u => { u with l1 := ⟨k, d⟩ :: u.l1 }, a.take d, p)) := by
  unfold State.read
  rw [if_neg (by simp [hp])]
  cases h : regionOf a.pa
  · rfl
  · exact absurd h hr
  · rfl
  · rfl

/-- A write of a place that is not die scratch of this module. -/
theorem write_home {s : State} {a : Access} (hr : regionOf a.pa ≠ .scratch) (mask : BitVec 128) (v : BitVec 1024) (brings : Bool) :
    s.write a mask v brings = (
      let k := a.key / 128
      if a.cp = 2#2 then
        let s := (s.evict a.die k).sideMerge k mask v brings
        match a.core with
        | some c => (s.l1Close c k).l1Drop c k
        | none => s
      else
        let s := s.dieWrite a.die k a.shared mask v brings
        let s := if a.aside then s.writeBack a.die k else s
        match a.core with
        | some c => if brings then (s.l1Close c k).l1Drop c k else s.l1Update c k mask v
        | none => s) := by
  unfold State.write
  cases h : regionOf a.pa
  · rfl
  · exact absurd h hr
  · rfl
  · rfl

@[simp] theorem l1Drop_mem (s : State) (c k : Nat) : (s.l1Drop c k).mem = s.mem := by unfold State.l1Drop; split <;> rfl
@[simp] theorem l1Drop_dies (s : State) (c k : Nat) : (s.l1Drop c k).dies = s.dies := by unfold State.l1Drop; split <;> rfl
@[simp] theorem l1Update_mem (s : State) (c k : Nat) (m : BitVec 128) (v : BitVec 1024) : (s.l1Update c k m v).mem = s.mem := by
  unfold State.l1Update; dsimp only; split <;> simp
@[simp] theorem l1Update_dies (s : State) (c k : Nat) (m : BitVec 128) (v : BitVec 1024) : (s.l1Update c k m v).dies = s.dies := by
  unfold State.l1Update; dsimp only; split <;> simp
@[simp] theorem l1Update_memPoison (s : State) (c k : Nat) (m : BitVec 128) (v : BitVec 1024) : (s.l1Update c k m v).memPoison = s.memPoison := by
  unfold State.l1Update; dsimp only; split <;> simp

/-- An update of an L1 line changes cores alone. -/
theorem l1Update_eq (s : State) (c k : Nat) (m : BitVec 128) (v : BitVec 1024) : ∃ cs, s.l1Update c k m v = { s with cores := cs } := by
  have h : ∃ cs, s.l1Close c k = { s with cores := cs } := by
    unfold State.l1Close
    split <;> exact ⟨_, rfl⟩
  obtain ⟨cs, h⟩ := h
  unfold State.l1Update
  dsimp only
  rw [h]
  split <;> exact ⟨_, rfl⟩

theorem dieByte_congr {s t : State} (h1 : t.mem = s.mem) (h2 : t.dies = s.dies) (n a : Nat) : t.dieByte n a = s.dieByte n a := by
  unfold State.dieByte State.die
  rw [h1, h2]

theorem mask_bit (a : Access) (k : Nat) (hs : a.pa % 128 + a.size ≤ 128) (hk : k < a.size) : a.mask.getLsbD (a.pa % 128 + k) = true := by
  rw [Access.mask, getLsbD_byteRun _ _ _ (by omega)]; simp; omega

end Sys2Proof.Machine
end

