-- ==== Sys2Proof/Laws/Checks.lean ====
section
/-! SUPPORT. What the checks of an access leave: lookups fill TLBs and requests enter queues, and nothing else of the machine changes. -/

namespace Sys2Proof.Machine

theorem looked.refl (s : State) : looked s s := rfl

theorem looked.trans {s t u : State} (h : looked s t) (k : looked t u) : looked s u := by
  unfold looked at *
  rw [k, h]

theorem looked_bump (s : State) : looked s s.bump := rfl
theorem looked_modChip (s : State) (n : Nat) (f : Chip → Chip) : looked s (s.modChip n f) := rfl
theorem looked_modSeq (s : State) (n : Nat) (f : Seq → Seq) : looked s (s.modSeq n f) := rfl
theorem looked_modCore (s : State) (n : Nat) (f : Core → Core) : looked s (s.modCore n f) := rfl

theorem looked_sendFor (s : State) (st : Stamp) (reply : Option (Issuer × Nat)) (away : Option Nat) (path : List Nat) :
    looked s (s.sendFor st reply away path) := by
  unfold State.sendFor
  split <;> rfl

theorem looked_send (s : State) (st : Stamp) (path : List Nat) : looked s (s.send st path) := looked_sendFor s st none none path

theorem looked_sends {α : Type} (st : Stamp) (path : α → List Nat) (l : List α) (s : State) :
    looked s (l.foldl (fun (s : State) a => s.send st (path a)) s) := by
  induction l generalizing s with
  | nil => rfl
  | cons a l ih => exact (looked_send s st (path a)).trans (ih _)

theorem looked_sendWalk (s : State) (x : Exec) (va : Nat) : looked s (s.sendWalk x va) := by
  unfold State.sendWalk
  split
  · rfl
  · exact (looked_send _ _ _).trans (looked_sends _ _ _ _)

theorem looked_lookChip (s : State) (ctx va : Nat) : looked s (s.lookChip ctx va).1 := by
  unfold State.lookChip
  dsimp only
  split
  · rfl
  · split <;> rfl

theorem looked_lookCluster (s : State) (cluster ctx va : Nat) : looked s (s.lookCluster cluster ctx va).1 := by
  unfold State.lookCluster
  split
  · rfl
  · have h := looked_lookChip s ctx va
    split
    · next h' => rw [h'] at h; dsimp only at h ⊢; exact h.trans (looked_modSeq _ _ _)
    · exact h

theorem looked_lookCore (s : State) (core ctx va : Nat) : looked s (s.lookCore core ctx va).1 := by
  unfold State.lookCore
  split
  · rfl
  · have h := looked_lookCluster s (clusterOf core) ctx va
    split
    · next h' => rw [h'] at h; dsimp only at h ⊢; exact h.trans (looked_modCore _ _ _)
    · exact h

theorem looked_look (s : State) (x : Exec) (va : Nat) : looked s (s.look x va).1 := by
  unfold State.look
  dsimp only
  split
  · exact (looked_sendWalk s x va).trans (looked_lookCluster _ _ _ _)
  · exact (looked_sendWalk s x va).trans (looked_lookCore _ _ _ _)

theorem looked_probe (s : State) (x : Exec) (acc : BitVec 2) (size : Nat) (p : Point) : looked s (s.probe x acc size p).1 := by
  unfold State.probe
  cases p.leaf with
  | none => exact looked_look _ _ _
  | some l => rfl

theorem looked_probeAll (x : Exec) (acc : BitVec 2) (size : Nat) (ps : List Point) (s : State) (e : Option (Nat × Trap)) (as : List (Point × Access)) :
    looked s (s.probeAll x acc size ps e as).1 := by
  induction ps generalizing s e as with
  | nil => cases e <;> rfl
  | cons p ps ih =>
    have h := looked_probe s x acc size p
    unfold State.probeAll
    split
    · next h' => rw [h'] at h; exact h.trans (ih _ _ _)
    · next h' => rw [h'] at h; exact h.trans (ih _ _ _)

theorem looked_sendRequests (st : Stamp) (reply : Option (Issuer × Nat)) (md : BitVec 11) (acc : BitVec 2) (as : List Access) (s : State)
    (seen : List Nat) : looked s (s.sendRequests st reply md acc as seen) := by
  induction as generalizing s seen with
  | nil => rfl
  | cons a as ih =>
    unfold State.sendRequests
    dsimp only
    split
    · exact ih _ _
    · exact (looked_sendFor _ _ _ _ _).trans (ih _ _)

theorem looked_checkGlobal (s : State) (x : Exec) (acc : BitVec 2) (size align : Nat) (ps : List Point) :
    looked s (s.checkGlobal x acc size align ps).1 := by
  unfold State.checkGlobal
  split
  · rfl
  · split
    · rfl
    · have h := looked_probeAll x acc size ps s none []
      split
      · next h' => rw [h'] at h; exact h
      · next h' =>
        rw [h'] at h
        split
        · exact h
        · exact h.trans (looked_sendRequests _ _ _ _ _ _ _)

theorem looked_accesses (e : Env) (s : State) (acc : BitVec 2) (size align : Nat) (more : List (Operand × Mask)) :
    looked s (e.accesses s acc size align more).1 := by
  unfold Env.accesses
  split
  · rfl
  · have h := looked_checkGlobal s e.x acc size align (e.points size)
    split
    · next h' => rw [h'] at h; exact h
    · exact h

theorem looked_checkObjects (s : State) (x : Exec) (acc : BitVec 2) (size align : Nat) (vas : List Nat) (home : Bool) :
    looked s (s.checkObjects x acc size align vas home).1 := by
  unfold State.checkObjects
  split
  · rfl
  · rfl
  · have h := looked_probeAll x acc size (vas.map fun (va : Nat) => ⟨laneNone, (va : Int), none⟩) s none []
    split
    · next h' => rw [h'] at h; exact h
    · next h' =>
      rw [h'] at h
      split
      · exact h
      · split
        · exact h
        · exact h.trans (looked_sendRequests _ _ _ _ _ _ _)

theorem looked_checkObject (s : State) (x : Exec) (acc : BitVec 2) (size align va : Nat) (home : Bool) :
    looked s (s.checkObject x acc size align va home).1 := by
  have h := looked_checkObjects s x acc size align [va] home
  unfold State.checkObject
  split
  · next h' => rw [h'] at h; exact h
  · next h' => rw [h'] at h; exact h

/-! ## The accesses that the checks give -/

theorem probe_kind {s : State} {x : Exec} {acc : BitVec 2} {size : Nat} {p : Point} {a : Access} {s' : State}
    (h : s.probe x acc size p = (s', .ok a)) : a.die = x.die ∧ a.size = size ∧ a.core = if x.seq then none else some x.core := by
  unfold State.probe at h
  dsimp only at h
  rw [Prod.mk.injEq] at h
  obtain ⟨-, h⟩ := h
  split at h
  · cases h
  · cases h
  · cases h
  · split_ifs at h
    simp only [Except.ok.injEq] at h
    subst h
    exact ⟨rfl, rfl, rfl⟩

theorem probeAll_kind {x : Exec} {acc : BitVec 2} {size : Nat} {ps : List Point} {s s' : State} {e : Option (Nat × Trap)}
    {as bs : List (Point × Access)} (h : s.probeAll x acc size ps e as = (s', .ok bs))
    (ha : ∀ p ∈ as, p.2.die = x.die ∧ p.2.size = size ∧ p.2.core = if x.seq then none else some x.core) :
    ∀ p ∈ bs, p.2.die = x.die ∧ p.2.size = size ∧ p.2.core = if x.seq then none else some x.core := by
  induction ps generalizing s e as with
  | nil =>
    unfold State.probeAll at h
    split at h
    · next h1 _ _ => simp only [Prod.mk.injEq, Except.ok.injEq] at h; obtain ⟨-, rfl⟩ := h; exact fun p hp => ha p (by simpa using hp)
    · cases h
    · next h1 => cases h1
  | cons p ps ih =>
    unfold State.probeAll at h
    split at h
    · exact ih h ha
    · next h' =>
      refine ih h fun q hq => ?_
      rcases List.mem_cons.1 hq with rfl | hq
      · exact probe_kind h'
      · exact ha q hq

theorem checkGlobal_kind {s s' : State} {x : Exec} {acc : BitVec 2} {size align : Nat} {ps : List Point} {as : List (Point × Access)}
    (h : s.checkGlobal x acc size align ps = (s', .ok as)) :
    ∀ p ∈ as, p.2.die = x.die ∧ p.2.size = size ∧ p.2.core = if x.seq then none else some x.core := by
  unfold State.checkGlobal at h
  split at h
  · cases h
  · split at h
    · cases h
    · split at h
      · cases h
      · next h' =>
        split at h
        · cases h
        · simp only [Prod.mk.injEq, Except.ok.injEq] at h
          obtain ⟨-, rfl⟩ := h
          exact probeAll_kind h' fun p hp => by cases hp

/-- The accesses of lanes: of the unit's die and core, of the instruction's size, order and scope. -/
theorem accesses_kind {e : Env} {s s' : State} {acc : BitVec 2} {size align : Nat} {more : List (Operand × Mask)} {as : List (Point × Access)}
    (h : e.accesses s acc size align more = (s', .ok as)) :
    ∀ p ∈ as, p.2.strong = decide (mdOrder e.x.w.md ≠ 0#2) ∧ p.2.die = e.x.die ∧ p.2.size = size := by
  unfold Env.accesses at h
  split at h
  · cases h
  · split at h
    · next h' =>
      simp only [Prod.mk.injEq, Except.ok.injEq] at h
      obtain ⟨-, rfl⟩ := h
      intro p hp
      simp only [List.mem_map] at hp
      obtain ⟨q, hq, rfl⟩ := hp
      obtain ⟨k1, k2, -⟩ := checkGlobal_kind h' q hq
      exact ⟨rfl, k1, k2⟩
    · next h' => exact absurd h (h' _ _)

end Sys2Proof.Machine
end

