-- ==== Sys2Proof/Laws/Decode.lean ====
section
/-! SUPPORT. The encoding tables read both ways: types, operands, scheduling control, guards and the split of a word. -/

namespace Sys2Proof

/-! ## Types and operands -/

theorem tyOfCode_code (t : Ty) : tyOfCode t.code = some t := by cases t <;> rfl

theorem code_of_tyOfCode {c : BitVec 5} {t : Ty} (h : tyOfCode c = some t) : t.code = c := by
  revert c t
  suffices key : ∀ c : BitVec 5, (tyOfCode c).all (fun t => t.code == c) = true by
    intro c t h
    have := key c
    rw [h] at this
    simpa using this
  decide

/-- The field of an operand names that operand or none. -/
theorem operandOf_bits {o p : Operand} (h : operandOf o.bits = some p) : p = o := by
  suffices key : (operandOf o.bits).all (fun q => q == o) = true by
    rw [h] at key
    simpa using key
  clear h
  cases o with
  | vec r => revert r; decide
  | sca s r => revert r; cases s <;> decide
  | pred i => revert i; decide
  | cond i => revert i; decide
  | trans i => revert i; decide
  | tile i => revert i; decide
  | spec i => revert i; decide
  | immZ => rfl
  | immS => rfl
  | immF => rfl
  | none => rfl

set_option maxRecDepth 20000 in
theorem bits_of_operandOf {x : BitVec 10} {o : Operand} (h : operandOf x = some o) : o.bits = x := by
  revert x o
  suffices key : ∀ x : BitVec 10, (operandOf x).all (fun o => o.bits == x) = true by
    intro x o h
    have := key x
    rw [h] at this
    simpa using this
  decide

/-! ## Scheduling control, guard and the split of a word -/

theorem guardOf_bits (g : Guard) : guardOf g.bits = g := by
  cases g with
  | mk n i => revert n i; decide

theorem bits_guardOf (x : BitVec 4) : (guardOf x).bits = x := by revert x; decide

theorem extract_append_high {m n k : Nat} (a : BitVec m) (b : BitVec n) (h : n ≤ k) (c : Nat) :
    (a ++ b).extractLsb' k c = a.extractLsb' (k - n) c := by
  apply BitVec.eq_of_getLsbD_eq
  intro i hi
  simp only [BitVec.getLsbD_extractLsb', hi, decide_true, Bool.true_and, BitVec.getLsbD_append]
  rw [if_neg (by omega)]
  congr 1
  omega

theorem extract_append_low {m n k c : Nat} (a : BitVec m) (b : BitVec n) (h : k + c ≤ n) :
    (a ++ b).extractLsb' k c = b.extractLsb' k c := by
  apply BitVec.eq_of_getLsbD_eq
  intro i hi
  simp only [BitVec.getLsbD_extractLsb', hi, decide_true, Bool.true_and, BitVec.getLsbD_append]
  rw [if_pos (by omega)]

theorem extract_whole {n : Nat} (a : BitVec n) : a.extractLsb' 0 n = a := by
  apply BitVec.eq_of_getLsbD_eq
  intro i hi
  simp [hi]

theorem extract_join {n : Nat} (x : BitVec n) (a b l : Nat) (h : a = l + b) (c : Nat) :
    x.extractLsb' a c ++ x.extractLsb' l b = x.extractLsb' l (c + b) := by
  apply BitVec.eq_of_getLsbD_eq
  intro i hi
  simp only [BitVec.getLsbD_append, BitVec.getLsbD_extractLsb']
  by_cases h1 : i < b
  · simp [h1, hi]
  · have h2 : i - b < c := by omega
    simp only [h1, if_false, h2, hi, decide_true, Bool.true_and]
    congr 1
    omega

theorem ofBool_extract {n : Nat} (x : BitVec n) (k : Nat) : BitVec.ofBool (x.getLsbD k) = x.extractLsb' k 1 := by
  apply BitVec.eq_of_getLsbD_eq
  intro i hi
  have : i = 0 := by omega
  subst this
  simp only [BitVec.getLsbD_ofBool, BitVec.getLsbD_extractLsb']
  simp

theorem bits_schedOf {x : BitVec 20} (h : x.extractLsb' 0 4 = 0#4) : (schedOf x).bits = x := by
  simp only [schedOf, Sched.bits, ofBool_extract]
  rw [← h]
  repeat rw [extract_join _ _ _ _ (by decide)]
  exact extract_whole x

theorem schedOf_bits (s : Sched) : schedOf s.bits = s := by
  obtain ⟨sw, slk, xs, yld, hda, hdb, hdc, dly⟩ := s
  simp only [schedOf, Sched.bits, Sched.mk.injEq]
  refine ⟨?_, ?_, ?_, ?_, ?_, ?_, ?_, ?_⟩
  · simp only [BitVec.getLsbD_append]; simp
  · repeat rw [extract_append_high _ _ (by decide)]
    rw [extract_append_low _ _ (by decide)]; exact extract_whole _
  · simp only [BitVec.getLsbD_append]; simp
  · simp only [BitVec.getLsbD_append]; simp
  · simp only [BitVec.getLsbD_append]; simp
  · simp only [BitVec.getLsbD_append]; simp
  · simp only [BitVec.getLsbD_append]; simp
  · repeat rw [extract_append_high _ _ (by decide)]
    rw [extract_append_low _ _ (by decide)]; exact extract_whole _

theorem sched_low (s : Sched) : s.bits.extractLsb' 0 4 = 0#4 := by
  unfold Sched.bits
  rw [extract_append_low _ _ (by decide)]; exact extract_whole _

/-- The fields of the word of the fields. -/
theorem rawOf_bits (r : Raw) : rawOf r.bits = r := by
  obtain ⟨op, fn, g, d, a, b, c, imm, ty, md, res, sc⟩ := r
  simp only [rawOf, Raw.bits, Raw.mk.injEq]
  refine ⟨?_, ?_, ?_, ?_, ?_, ?_, ?_, ?_, ?_, ?_, ?_, ?_⟩ <;>
    · repeat rw [extract_append_high _ _ (by decide)]
      first
        | exact extract_whole _
        | (rw [extract_append_low _ _ (by decide)]; exact extract_whole _)

/-- The word of the fields of a word. -/
theorem bits_rawOf (w : W128) : (rawOf w).bits = w := by
  simp only [rawOf, Raw.bits]
  repeat rw [extract_join _ _ _ _ (by decide)]
  exact extract_whole w

/-! ## Decoding and encoding -/

theorem fieldsOf_raw {op : BitVec 8} {w v : Fields} (h : fieldsOf (w.raw op) = some v) : v = w := by
  unfold fieldsOf at h
  split at h
  · next hd ha hb hc ht =>
    simp only [Fields.raw] at hd ha hb hc ht
    rw [tyOfCode_code] at ht
    simp only [Option.some.injEq] at h ht
    subst h
    rw [operandOf_bits hd, operandOf_bits ha, operandOf_bits hb, operandOf_bits hc, ← ht]
    simp only [Fields.raw, guardOf_bits, schedOf_bits]
  · exact absurd h (by simp)

theorem raw_of_fieldsOf {r : Raw} {w : Fields} (h : fieldsOf r = some w) (hres : r.res = 0#4) (hsc : r.sc.extractLsb' 0 4 = 0#4) :
    w.raw r.op = r := by
  unfold fieldsOf at h
  split at h
  · next hd ha hb hc ht =>
    simp only [Option.some.injEq] at h
    subst h
    obtain ⟨op, fn, g, d, a, b, c, imm, ty, md, res, sc⟩ := r
    simp only [Fields.raw] at *
    rw [bits_of_operandOf hd, bits_of_operandOf ha, bits_of_operandOf hb, bits_of_operandOf hc, code_of_tyOfCode ht, bits_guardOf,
      bits_schedOf hsc, hres]
  · exact absurd h (by simp)

/-- A word that passes every check has no reserved operand and no reserved type. -/
theorem fieldsOf_of_trap {seq : Bool} {r : Raw} (h : decodeTrap seq r = none) :
    ∃ w, fieldsOf r = some w ∧ r.res = 0#4 ∧ r.sc.extractLsb' 0 4 = 0#4 := by
  have pos : ∀ {x : SlotCtx} {s : Slot} {o : Option Operand} {p : BitVec 4}, posCause x s o p = none → ∃ q, o = some q := by
    intro x s o p h
    cases o with
    | none => simp [posCause] at h
    | some q => exact ⟨q, rfl⟩
  unfold decodeTrap at h
  dsimp only at h
  split at h
  · exact absurd h (by simp)
  split at h
  · exact absurd h (by simp)
  split at h
  · exact absurd h (by simp)
  next f hf =>
  split at h
  · exact absurd h (by simp)
  split at h
  · exact absurd h (by simp)
  next hz =>
  simp only [Option.map_eq_none_iff] at h
  unfold fieldsCause at h
  dsimp only at h
  split at h
  · exact absurd h (by simp)
  next hd =>
  split at h
  · exact absurd h (by simp)
  next ha =>
  split at h
  · exact absurd h (by simp)
  next hb =>
  split at h
  · exact absurd h (by simp)
  next hc =>
  split at h
  · exact absurd h (by simp)
  next t ht =>
  obtain ⟨d, hd⟩ := pos hd
  obtain ⟨a, ha⟩ := pos ha
  obtain ⟨b, hb⟩ := pos hb
  obtain ⟨c, hc⟩ := pos hc
  refine ⟨{ fn := r.fn, g := guardOf r.g, d, a, b, c, imm := r.imm, ty := t, md := r.md, sc := schedOf r.sc }, ?_, ?_, ?_⟩
  · unfold fieldsOf
    rw [hd, ha, hb, hc, ht]
  · by_contra hn; exact hz (Or.inl hn)
  · by_contra hn; exact hz (Or.inr hn)

theorem parts_ofOp {op : BitVec 8} {w : Fields} {i : Instr} (h : Instr.ofOp op.toNat w = some i) : i.parts = some (op, w) := by
  have key : ∀ n, op.toNat = n → op = BitVec.ofNat 8 n := by intro n hn; rw [← hn]; simp
  generalize hn : op.toNat = n at h
  rw [key n hn]
  unfold Instr.ofOp at h
  split at h <;> (try split at h) <;> first | (cases h; rfl) | exact absurd h (by simp)

/-- Every word that passes the checks has a constructor. -/
theorem ofOp_of_form {op : BitVec 8} (w : Fields) (h : opAssigned op.toNat = true) : ∃ i, Instr.ofOp op.toNat w = some i := by
  have both : ∀ (p : Prop) [Decidable p] (a b : Option Instr), a.isSome = true → b.isSome = true → (if p then a else b).isSome = true := by
    intro p _ a b ha hb; split
    · exact ha
    · exact hb
  have key : ∀ n : Fin 256, opAssigned n.val = true → (Instr.ofOp n.val w).isSome = true := by
    intro n
    fin_cases n <;> first
      | exact fun h => absurd h (by decide)
      | exact fun _ => rfl
      | exact fun _ => both _ _ _ rfl rfl
  exact Option.isSome_iff_exists.1 (key ⟨op.toNat, op.isLt⟩ h)

/-- A well-formed instruction form passes the checks, under an opcode that names it. -/
theorem wf_parts {seq : Bool} {i : Instr} {op : BitVec 8} {w : Fields} (h : i.wf seq = true) (hp : i.parts = some (op, w)) :
    decodeTrap seq (w.raw op) = none ∧ Instr.ofOp op.toNat w = some i := by
  have key : w.wfAs seq i = true := by
    cases i <;> first
      | (have hp : some (_, _) = some (op, w) := hp; cases hp; exact h)
      | (have hp : none = some (op, w) := hp; cases hp)
  unfold Fields.wfAs at key
  rw [hp] at key
  simpa using key

/-- An instruction form that passes the checks is well formed. -/
theorem wf_of_parts {seq : Bool} {i : Instr} {op : BitVec 8} {w : Fields} (hp : i.parts = some (op, w))
    (h : decodeTrap seq (w.raw op) = none) (ho : Instr.ofOp op.toNat w = some i) : i.wf seq = true := by
  have key : w.wfAs seq i = true := by
    unfold Fields.wfAs
    rw [hp]
    simp [h, ho]
  cases i <;> first
    | (have hp : some (_, _) = some (op, w) := hp; cases hp; exact key)
    | (have hp : none = some (op, w) := hp; cases hp)

end Sys2Proof
end

