-- ==== Sys2Proof/Laws/Loads.lean ====
section
/-! SUPPORT. What reads of cached pages leave: the memory side and every byte that waits to be written back. -/

namespace Sys2Proof.Machine

/-- `t` is `s` up to copies that reads have filled: the memory side, the teams, the remote operations, the die scratch and the bytes that wait to be written back are the same. -/
structure readKept (s t : State) : Prop where
  mem : t.mem = s.mem
  memPoison : t.memPoison = s.memPoison
  remote : t.remote = s.remote
  teams : t.teams = s.teams
  scratch : ∀ d, (t.die d).scratch = (s.die d).scratch
  dirty : ∀ d k z, (s.die d).sector? k = some z → ∃ z', (t.die d).sector? k = some z' ∧ z'.dirty = z.dirty ∧
    ∀ n < 128, z.dirty.getLsbD n = true → byteOf z'.data n = byteOf z.data n
  clean : ∀ d k z', (t.die d).sector? k = some z' → (s.die d).sector? k = none → z'.dirty = 0#128

theorem readKept.of_eq {s t : State} (h1 : t.mem = s.mem) (h2 : t.memPoison = s.memPoison) (h3 : t.remote = s.remote) (h4 : t.teams = s.teams)
    (h5 : t.dies = s.dies) : readKept s t := by
  have h : ∀ d, t.die d = s.die d := fun d => by unfold State.die; rw [h5]
  exact ⟨h1, h2, h3, h4, fun d => by rw [h], fun d k z hz => ⟨z, by rw [h]; exact hz, rfl, fun _ _ _ => rfl⟩,
    fun d k z' hz hn => by rw [h, hn] at hz; cases hz⟩

theorem readKept.refl (s : State) : readKept s s := .of_eq rfl rfl rfl rfl rfl

theorem readKept.trans {s t u : State} (h : readKept s t) (k : readKept t u) : readKept s u := by
  refine ⟨k.mem.trans h.mem, k.memPoison.trans h.memPoison, k.remote.trans h.remote, k.teams.trans h.teams,
    fun d => (k.scratch d).trans (h.scratch d), ?_, ?_⟩
  · intro d n z hz
    obtain ⟨y, hy, e1, b1⟩ := h.dirty d n z hz
    obtain ⟨x, hx, e2, b2⟩ := k.dirty d n y hy
    exact ⟨x, hx, e2.trans e1, fun i hi hd => (b2 i hi (by rw [e1]; exact hd)).trans (b1 i hi hd)⟩
  · intro d n z' hz hn
    cases hy : (t.die d).sector? n with
    | none => exact k.clean d n z' hz hy
    | some y =>
      obtain ⟨x, hx, e2, -⟩ := k.dirty d n y hy
      rw [hz] at hx
      cases hx
      rw [e2]
      exact h.clean d n y hy hn

theorem readKept_fill {s : State} {die k : Nat} {z : Sector} (hk : z.key = k)
    (h1 : ∀ y, (s.die die).sector? k = some y → z.dirty = y.dirty ∧ ∀ n < 128, y.dirty.getLsbD n = true → byteOf z.data n = byteOf y.data n)
    (h2 : (s.die die).sector? k = none → z.dirty = 0#128) : readKept s (s.modDie die fun d => d.setSector z) := by
  subst hk
  by_cases hd : die < 9
  · refine ⟨rfl, rfl, rfl, rfl, ?_, ?_, ?_⟩
    · intro d
      by_cases e : die = d
      · subst e; rw [State.die_modDie _ _ _ hd]; rfl
      · rw [State.die_modDie_other _ _ _ _ e]
    · intro d n y hy
      by_cases e : die = d
      · subst e
        rw [State.die_modDie _ _ _ hd]
        by_cases en : n = z.key
        · subst en
          obtain ⟨a, b⟩ := h1 y hy
          exact ⟨z, Die.sector?_setSector _ _, a, b⟩
        · exact ⟨y, by rw [Die.sector?_setSector_other _ _ _ en]; exact hy, rfl, fun _ _ _ => rfl⟩
      · rw [State.die_modDie_other _ _ _ _ e]
        exact ⟨y, hy, rfl, fun _ _ _ => rfl⟩
    · intro d n y hy hn
      by_cases e : die = d
      · subst e
        rw [State.die_modDie _ _ _ hd] at hy
        by_cases en : n = z.key
        · subst en
          rw [Die.sector?_setSector] at hy
          cases hy
          exact h2 hn
        · rw [Die.sector?_setSector_other _ _ _ en, hn] at hy
          cases hy
      · rw [State.die_modDie_other _ _ _ _ e, hn] at hy
        cases hy
  · refine .of_eq rfl rfl rfl rfl ?_
    simp [State.modDie, vset, hd]

theorem readKept_dieRead (s : State) (die k : Nat) (shared : Bool) (need : BitVec 128) : readKept s (s.dieRead die k shared need).1 := by
  unfold State.dieRead
  dsimp only
  cases hz : (s.die die).sector? k with
  | none => exact readKept_fill (k := k) rfl (fun y hy => by rw [hz] at hy; cases hy) fun _ => rfl
  | some x =>
    dsimp only
    split
    · exact .refl s
    · have hx : x.key = k := Die.sector?_key hz
      refine readKept_fill (k := k) hx (fun y hy => ?_) fun hn => by rw [hz] at hn; cases hn
      rw [hz] at hy
      cases hy
      refine ⟨rfl, fun n hn hd => ?_⟩
      simp only [filled]
      rw [byteOf_mergeSector _ _ _ _ hn, if_pos]
      rw [Die.holds, BitVec.getLsbD_or]
      simp only [hd, Bool.true_or]

theorem readKept_modCore (s : State) (c : Nat) (f : Core → Core) : readKept s (s.modCore c f) := .of_eq rfl rfl rfl rfl rfl

theorem readKept_l1Miss (s : State) (c k : Nat) (u : Option Issuer) (d : BitVec 1024) (p : Bool) : readKept s (s.l1Miss c k u d p) :=
  .of_eq rfl rfl rfl rfl rfl

theorem readKept_l1Join (s : State) (c : Nat) (m : Miss) (u : Option Issuer) : readKept s (s.l1Join c m u) := by
  unfold State.l1Join
  split
  · exact .refl s
  · exact .of_eq rfl rfl rfl rfl rfl

/-- A read that no rule sends to the memory side. -/
theorem readKept_read (s : State) (a : Access) (h : a.aside = false) : readKept s (s.read a).1 := by
  by_cases hp : a.peer = none
  · by_cases hr : regionOf a.pa = .scratch
    · unfold State.read
      rw [if_neg (by simp [hp]), hr]
      exact .refl s
    · rw [read_home hp hr]
      simp only [h]
      rw [if_neg (by decide)]
      split
      · exact readKept_dieRead _ _ _ _ _
      · next c _ =>
        split
        · exact .refl s
        · split
          · exact readKept_l1Join _ _ _ _
          · generalize hq : s.dieRead a.die (a.key / 128) a.shared (BitVec.allOnes 128) = q
            have hk : readKept s q.1 := by rw [← hq]; exact readKept_dieRead _ _ _ _ _
            refine hk.trans ((readKept_l1Miss q.1 c (a.key / 128) a.who q.2.1 q.2.2).trans ?_)
            dsimp only
            split
            · exact .refl _
            · exact readKept_modCore _ _ _
  · unfold State.read
    rw [if_pos (by simpa [Option.isSome_iff_ne_none] using hp)]
    exact .refl s

theorem readKept_readLanes (ps : List (Point × Access)) (s : State) (rs : List (Nat × Nat × Bool)) (h : ∀ p ∈ ps, p.2.aside = false) :
    readKept s (s.readLanes ps rs).1 := by
  induction ps generalizing s rs with
  | nil => exact .refl s
  | cons p ps ih =>
    unfold State.readLanes
    exact (readKept_read s p.2 (h p (by simp))).trans (ih _ _ fun q hq => h q (by simp [hq]))

theorem map_updateFirst_same {α β : Type} (p : α → Bool) (f : α → α) (g : α → β) (h : ∀ x, g (f x) = g x) (l : List α) :
    (updateFirst p f l).map g = l.map g := by
  induction l with
  | nil => rfl
  | cons a l ih =>
    simp only [updateFirst]
    split
    · simp [h]
    · simp [ih]

/-- What a team holds beside its gangs' registers: its name and its window. -/
theorem windows_setGang (s : State) (t g : Nat) (v : Gang) :
    (s.setGang t g v).teams.map (fun y => (y.tid, y.window, y.winPoison)) = s.teams.map (fun y => (y.tid, y.window, y.winPoison)) :=
  map_updateFirst_same _ (fun y : Team => y.setGang g v) _ (fun _ => rfl) _

theorem windows_modGang (s : State) (t g : Nat) (f : Gang → Gang) :
    (s.modGang t g f).teams.map (fun y => (y.tid, y.window, y.winPoison)) = s.teams.map (fun y => (y.tid, y.window, y.winPoison)) :=
  map_updateFirst_same _ _ _ (fun y => by split <;> rfl) _

end Sys2Proof.Machine
end

