-- ==== Sys2Proof/Laws/Step.lean ====
section
/-! SUPPORT. A step: the fetch leaves the units as they are, and every instruction that a unit issues answers a next state. -/

namespace Sys2Proof.Machine

open Host (Outcome)

/-! ## The fetch leaves the units as they are -/

theorem dieRead_unit (s : State) (die k : Nat) (shared : Bool) (need : BitVec 128) :
    (s.dieRead die k shared need).1.teams = s.teams ∧ (s.dieRead die k shared need).1.cur = s.cur := by
  unfold State.dieRead
  dsimp only
  split
  · exact ⟨rfl, rfl⟩
  · split <;> exact ⟨rfl, rfl⟩

theorem l1Miss_unit (s : State) (c k : Nat) (who : Option Issuer) (data : BitVec 1024) (p : Bool) :
    (s.l1Miss c k who data p).teams = s.teams ∧ (s.l1Miss c k who data p).cur = s.cur := ⟨rfl, rfl⟩

theorem l1Join_unit (s : State) (c : Nat) (m : Miss) (who : Option Issuer) :
    (s.l1Join c m who).teams = s.teams ∧ (s.l1Join c m who).cur = s.cur := by
  unfold State.l1Join
  split <;> exact ⟨rfl, rfl⟩

theorem evict_unit (s : State) (die k : Nat) : (s.evict die k).teams = s.teams ∧ (s.evict die k).cur = s.cur := by
  unfold State.evict State.writeBack
  split
  · exact ⟨rfl, rfl⟩
  · split <;> exact ⟨rfl, rfl⟩

/-- A read changes no team and not the issuing unit. -/
theorem read_unit (s : State) (a : Access) : (s.read a).1.teams = s.teams ∧ (s.read a).1.cur = s.cur := by
  unfold State.read
  dsimp only
  split
  · exact ⟨rfl, rfl⟩
  · split
    · exact ⟨rfl, rfl⟩
    · split
      · exact evict_unit _ _ _
      · split
        · exact dieRead_unit _ _ _ _ _
        · split
          · exact ⟨rfl, rfl⟩
          · split
            · exact l1Join_unit _ _ _ _
            · have h := dieRead_unit s a.die (a.key / 128) a.shared (BitVec.allOnes 128)
              split <;> exact h

theorem looked.unit {s t : State} (h : looked s t) : t.teams = s.teams ∧ t.cur = s.cur := by
  rw [h]; exact ⟨rfl, rfl⟩

/-- A fetched word changes no team and not the issuing unit. -/
theorem word_unit (s : State) (x : Exec) (va : Nat) (src : BitVec 2) :
    (s.word x va src).1.teams = s.teams ∧ (s.word x va src).1.cur = s.cur := by
  have hl := (looked_look s x va).unit
  unfold State.word
  generalize s.look x va = r at hl
  obtain ⟨s1, l⟩ := r
  cases l with
  | absent => exact hl
  | poisoned => exact hl
  | malformed => exact hl
  | leaf l =>
    dsimp only at hl ⊢
    split
    · split <;> exact hl
    · split
      · exact hl
      · split
        · exact hl
        · split
          · exact hl
          · have hr := read_unit s1 { s1.place x l va 16 with core := none }
            generalize s1.read { s1.place x l va 16 with core := none } = q at hr
            obtain ⟨s2, v, p⟩ := q
            dsimp only at hr
            cases p with
            | true => exact ⟨hr.1.trans hl.1, hr.2.trans hl.2⟩
            | false =>
              dsimp only
              split <;> exact ⟨hr.1.trans hl.1, hr.2.trans hl.2⟩

/-- A fetch changes no team and not the issuing unit. -/
theorem fetch_unit (s : State) (x : Exec) : (s.fetch x).1.teams = s.teams ∧ (s.fetch x).1.cur = s.cur := by
  unfold State.fetch
  split
  · split
    · exact ⟨rfl, rfl⟩
    · split
      · exact ⟨rfl, rfl⟩
      · exact word_unit _ _ _ _
  · dsimp only
    split
    · exact ⟨rfl, rfl⟩
    · exact word_unit _ _ _ _

/-! ## Every issue answers a next state -/

/-- Some unit issues. -/
def State.issues (s : State) : Prop := ∃ u, s.cur = some u ∧ ∀ op w, (execOf s u op w).isSome

theorem issues_of_unit {s t : State} (h : s.issues) (h1 : t.teams = s.teams) (h2 : t.cur = s.cur) : t.issues := by
  obtain ⟨u, hu, he⟩ := h
  refine ⟨u, h2.trans hu, fun op w => ?_⟩
  have := he op w
  cases u with
  | gang t' g =>
    simp only [execOf, Option.isSome_bind, Option.isSome_map, State.team?, h1] at this ⊢
    exact this
  | seq n => rfl

/-- Whether a unit issues does not depend on the opcode or the fields. -/
theorem execOf_isSome {s : State} {u : Issuer} {op : BitVec 8} {w : Fields} (h : (execOf s u op w).isSome) (op' : BitVec 8) (w' : Fields) :
    (execOf s u op' w').isSome := by
  cases u with
  | gang t g => simpa only [execOf, Option.isSome_bind, Option.isSome_map] using h
  | seq n => rfl

/-- An issue answers a next state. -/
theorem issue_answers {s : State} (h : s.issues) (k : IssueKind) (op : BitVec 8) (w : Fields) (len : Nat) (body : Exec → State → Except Stop State) :
    ∃ t, issue k op w len body s = .next t := by
  obtain ⟨u, hu, he⟩ := h
  obtain ⟨x, hx⟩ := Option.isSome_iff_exists.1 (he op w)
  unfold issue
  rw [hu, Option.bind_some, hx]
  exact ⟨_, rfl⟩

theorem copyForm_next {s : State} (h : s.issues) (w : Fields) (f : Option (BitVec 8 × Fields)) : ∃ t, copyForm w f s = .next t :=
  issue_answers h _ _ _ _ _

/-- `mcopy` answers a next state, with its follow-on word or without it. -/
theorem execMcopy_next {s : State} (h : s.issues) (w : Fields) : ∃ t, execMcopy w s = .next t := by
  unfold execMcopy
  split
  · obtain ⟨u, hu, he⟩ := id h
    obtain ⟨x, hx⟩ := Option.isSome_iff_exists.1 (he 0x98#8 w)
    rw [hu, Option.bind_some, hx]
    dsimp only
    have hw := word_unit s x (x.pc + 16#56).toNat 1#2
    have hf : (s.followOn x).1.teams = s.teams ∧ (s.followOn x).1.cur = s.cur := by
      unfold State.followOn
      generalize s.word x (x.pc + 16#56).toNat 1#2 = r at hw
      obtain ⟨s1, e⟩ := r
      cases e with
      | error t => exact hw
      | ok w =>
        dsimp only
        split
        · exact hw
        · split
          · exact hw
          · split <;> exact hw
    generalize s.followOn x = r at hf
    obtain ⟨s1, e⟩ := r
    cases e with
    | error t => exact ⟨_, rfl⟩
    | ok f => exact copyForm_next (issues_of_unit h hf.1 hf.2) _ _
  · exact copyForm_next h _ _

/-! ## What every form's execution is -/

/-- A check that fails at issue raises its trap (R68). -/
theorem issue_stopped {s : State} {k : IssueKind} {op : BitVec 8} {w : Fields} {x : Exec} {len : Nat} {body : Exec → State → Except Stop State} {t : Trap}
    (hc : s.cur = some x.u) (he : execOf s x.u op w = some x) (h : issueCheck k x (s.allocOf x.u) = some t) :
    issue k op w len body s = .next (raiseTrap x t false s) := by
  unfold issue
  rw [hc, Option.bind_some, he]
  dsimp only
  rw [h]

/-- An issue whose guard is false only moves on (R71). -/
theorem issue_false {s : State} {k : IssueKind} {op : BitVec 8} {w : Fields} {x : Exec} {len : Nat} {body : Exec → State → Except Stop State}
    (hc : s.cur = some x.u) (he : execOf s x.u op w = some x) (h : issueCheck k x (s.allocOf x.u) = none) (hg : x.guard = false) :
    issue k op w len body s = .next (finish x (falseGuard k x (moveOn x len s))) := by
  unfold issue
  rw [hc, Option.bind_some, he]
  dsimp only
  rw [h]
  dsimp only
  rw [if_pos (by simp [hg])]

/-- The kind of an instruction of an opcode, as far as its checks go. -/
def checkKind (op : BitVec 8) (w : Fields) (late mem : Bool) : IssueKind := ⟨privileged op w, converges op, actsOnce op, late, mem⟩

theorem icinv_kind (w : Fields) : checkKind 0xCC#8 w false false = ⟨w.fn = 1#4, false, false, false, false⟩ := by
  simp [checkKind, privileged, converges, actsOnce]

/-! ## Every instruction form as an issue of its opcode, with the checks of its kind -/

theorem issuing_sadd (w : Fields) (s : State) :
    ∃ late mem body, exec (.sadd w) s = issue (checkKind 0x01#8 w late mem) 0x01#8 w 16 body s := by
  simp only [exec, execSadd]; exact ⟨_, _, _, rfl⟩
theorem issuing_ssub (w : Fields) (s : State) :
    ∃ late mem body, exec (.ssub w) s = issue (checkKind 0x02#8 w late mem) 0x02#8 w 16 body s := by
  simp only [exec, execSsub]; exact ⟨_, _, _, rfl⟩
theorem issuing_smul (w : Fields) (s : State) :
    ∃ late mem body, exec (.smul w) s = issue (checkKind 0x03#8 w late mem) 0x03#8 w 16 body s := by
  simp only [exec, execSmul]; exact ⟨_, _, _, rfl⟩
theorem issuing_smulh (w : Fields) (s : State) :
    ∃ late mem body, exec (.smulh w) s = issue (checkKind 0x04#8 w late mem) 0x04#8 w 16 body s := by
  simp only [exec, execSmulh]; exact ⟨_, _, _, rfl⟩
theorem issuing_sdiv (w : Fields) (s : State) :
    ∃ late mem body, exec (.sdiv w) s = issue (checkKind 0x05#8 w late mem) 0x05#8 w 16 body s := by
  simp only [exec, execSdiv]; exact ⟨_, _, _, rfl⟩
theorem issuing_srem (w : Fields) (s : State) :
    ∃ late mem body, exec (.srem w) s = issue (checkKind 0x06#8 w late mem) 0x06#8 w 16 body s := by
  simp only [exec, execSrem]; exact ⟨_, _, _, rfl⟩
theorem issuing_sand (w : Fields) (s : State) :
    ∃ late mem body, exec (.sand w) s = issue (checkKind 0x07#8 w late mem) 0x07#8 w 16 body s := by
  simp only [exec, execSand]; exact ⟨_, _, _, rfl⟩
theorem issuing_sor (w : Fields) (s : State) :
    ∃ late mem body, exec (.sor w) s = issue (checkKind 0x08#8 w late mem) 0x08#8 w 16 body s := by
  simp only [exec, execSor]; exact ⟨_, _, _, rfl⟩
theorem issuing_sxor (w : Fields) (s : State) :
    ∃ late mem body, exec (.sxor w) s = issue (checkKind 0x09#8 w late mem) 0x09#8 w 16 body s := by
  simp only [exec, execSxor]; exact ⟨_, _, _, rfl⟩
theorem issuing_sshl (w : Fields) (s : State) :
    ∃ late mem body, exec (.sshl w) s = issue (checkKind 0x0A#8 w late mem) 0x0A#8 w 16 body s := by
  simp only [exec, execSshl]; exact ⟨_, _, _, rfl⟩
theorem issuing_sshr (w : Fields) (s : State) :
    ∃ late mem body, exec (.sshr w) s = issue (checkKind 0x0B#8 w late mem) 0x0B#8 w 16 body s := by
  simp only [exec, execSshr]; exact ⟨_, _, _, rfl⟩
theorem issuing_ssar (w : Fields) (s : State) :
    ∃ late mem body, exec (.ssar w) s = issue (checkKind 0x0C#8 w late mem) 0x0C#8 w 16 body s := by
  simp only [exec, execSsar]; exact ⟨_, _, _, rfl⟩
theorem issuing_srot (w : Fields) (s : State) :
    ∃ late mem body, exec (.srot w) s = issue (checkKind 0x0D#8 w late mem) 0x0D#8 w 16 body s := by
  simp only [exec, execSrot]; exact ⟨_, _, _, rfl⟩
theorem issuing_smin (w : Fields) (s : State) :
    ∃ late mem body, exec (.smin w) s = issue (checkKind 0x0E#8 w late mem) 0x0E#8 w 16 body s := by
  simp only [exec, execSmin]; exact ⟨_, _, _, rfl⟩
theorem issuing_smax (w : Fields) (s : State) :
    ∃ late mem body, exec (.smax w) s = issue (checkKind 0x0F#8 w late mem) 0x0F#8 w 16 body s := by
  simp only [exec, execSmax]; exact ⟨_, _, _, rfl⟩
theorem issuing_scmp (w : Fields) (s : State) :
    ∃ late mem body, exec (.scmp w) s = issue (checkKind 0x10#8 w late mem) 0x10#8 w 16 body s := by
  simp only [exec, execScmp]; exact ⟨_, _, _, rfl⟩
theorem issuing_ssel (w : Fields) (s : State) :
    ∃ late mem body, exec (.ssel w) s = issue (checkKind 0x11#8 w late mem) 0x11#8 w 16 body s := by
  simp only [exec, execSsel]; exact ⟨_, _, _, rfl⟩
theorem issuing_smov (w : Fields) (s : State) :
    ∃ late mem body, exec (.smov w) s = issue (checkKind 0x12#8 w late mem) 0x12#8 w 16 body s := by
  simp only [exec, execSmov]; exact ⟨_, _, _, rfl⟩
theorem issuing_sli (w : Fields) (s : State) :
    ∃ late mem body, exec (.sli w) s = issue (checkKind 0x13#8 w late mem) 0x13#8 w 16 body s := ⟨_, _, _, rfl⟩
theorem issuing_sclz (w : Fields) (s : State) :
    ∃ late mem body, exec (.sclz w) s = issue (checkKind 0x14#8 w late mem) 0x14#8 w 16 body s := by
  simp only [exec, execSclz]; exact ⟨_, _, _, rfl⟩
theorem issuing_spopc (w : Fields) (s : State) :
    ∃ late mem body, exec (.spopc w) s = issue (checkKind 0x15#8 w late mem) 0x15#8 w 16 body s := by
  simp only [exec, execSpopc]; exact ⟨_, _, _, rfl⟩
theorem issuing_sbfx (w : Fields) (s : State) :
    ∃ late mem body, exec (.sbfx w) s = issue (checkKind 0x16#8 w late mem) 0x16#8 w 16 body s := by
  simp only [exec, execSbfx]; exact ⟨_, _, _, rfl⟩
theorem issuing_sbfi (w : Fields) (s : State) :
    ∃ late mem body, exec (.sbfi w) s = issue (checkKind 0x17#8 w late mem) 0x17#8 w 16 body s := by
  simp only [exec, execSbfi]; exact ⟨_, _, _, rfl⟩
theorem issuing_sfadd (w : Fields) (s : State) :
    ∃ late mem body, exec (.sfadd w) s = issue (checkKind 0x18#8 w late mem) 0x18#8 w 16 body s := by
  simp only [exec, execSfadd]; exact ⟨_, _, _, rfl⟩
theorem issuing_sfmul (w : Fields) (s : State) :
    ∃ late mem body, exec (.sfmul w) s = issue (checkKind 0x19#8 w late mem) 0x19#8 w 16 body s := by
  simp only [exec, execSfmul]; exact ⟨_, _, _, rfl⟩
theorem issuing_sffma (w : Fields) (s : State) :
    ∃ late mem body, exec (.sffma w) s = issue (checkKind 0x1A#8 w late mem) 0x1A#8 w 16 body s := by
  simp only [exec, execSffma]; exact ⟨_, _, _, rfl⟩
theorem issuing_sfcvt (w : Fields) (s : State) :
    ∃ late mem body, exec (.sfcvt w) s = issue (checkKind 0x1B#8 w late mem) 0x1B#8 w 16 body s := by
  simp only [exec, execSfcvt]; exact ⟨_, _, _, rfl⟩
theorem issuing_vadd (w : Fields) (s : State) :
    ∃ mem body, exec (.vadd w) s = issue (checkKind 0x40#8 w false mem) 0x40#8 w 16 body s := ⟨_, _, rfl⟩
theorem issuing_vsub (w : Fields) (s : State) :
    ∃ mem body, exec (.vsub w) s = issue (checkKind 0x41#8 w false mem) 0x41#8 w 16 body s := ⟨_, _, rfl⟩
theorem issuing_vmul (w : Fields) (s : State) :
    ∃ mem body, exec (.vmul w) s = issue (checkKind 0x42#8 w false mem) 0x42#8 w 16 body s := ⟨_, _, rfl⟩
theorem issuing_vmulh (w : Fields) (s : State) :
    ∃ mem body, exec (.vmulh w) s = issue (checkKind 0x43#8 w false mem) 0x43#8 w 16 body s := ⟨_, _, rfl⟩
theorem issuing_vmad (w : Fields) (s : State) :
    ∃ mem body, exec (.vmad w) s = issue (checkKind 0x44#8 w false mem) 0x44#8 w 16 body s := ⟨_, _, rfl⟩
theorem issuing_vand (w : Fields) (s : State) :
    ∃ mem body, exec (.vand w) s = issue (checkKind 0x45#8 w false mem) 0x45#8 w 16 body s := ⟨_, _, rfl⟩
theorem issuing_vor (w : Fields) (s : State) :
    ∃ mem body, exec (.vor w) s = issue (checkKind 0x46#8 w false mem) 0x46#8 w 16 body s := ⟨_, _, rfl⟩
theorem issuing_vxor (w : Fields) (s : State) :
    ∃ mem body, exec (.vxor w) s = issue (checkKind 0x47#8 w false mem) 0x47#8 w 16 body s := ⟨_, _, rfl⟩
theorem issuing_vandn (w : Fields) (s : State) :
    ∃ mem body, exec (.vandn w) s = issue (checkKind 0x48#8 w false mem) 0x48#8 w 16 body s := ⟨_, _, rfl⟩
theorem issuing_vshl (w : Fields) (s : State) :
    ∃ mem body, exec (.vshl w) s = issue (checkKind 0x49#8 w false mem) 0x49#8 w 16 body s := ⟨_, _, rfl⟩
theorem issuing_vshr (w : Fields) (s : State) :
    ∃ mem body, exec (.vshr w) s = issue (checkKind 0x4A#8 w false mem) 0x4A#8 w 16 body s := ⟨_, _, rfl⟩
theorem issuing_vsar (w : Fields) (s : State) :
    ∃ mem body, exec (.vsar w) s = issue (checkKind 0x4B#8 w false mem) 0x4B#8 w 16 body s := ⟨_, _, rfl⟩
theorem issuing_vrot (w : Fields) (s : State) :
    ∃ mem body, exec (.vrot w) s = issue (checkKind 0x4C#8 w false mem) 0x4C#8 w 16 body s := ⟨_, _, rfl⟩
theorem issuing_vfunnel (w : Fields) (s : State) :
    ∃ mem body, exec (.vfunnel w) s = issue (checkKind 0x4D#8 w false mem) 0x4D#8 w 16 body s := ⟨_, _, rfl⟩
theorem issuing_vmin (w : Fields) (s : State) :
    ∃ mem body, exec (.vmin w) s = issue (checkKind 0x4E#8 w false mem) 0x4E#8 w 16 body s := ⟨_, _, rfl⟩
theorem issuing_vmax (w : Fields) (s : State) :
    ∃ mem body, exec (.vmax w) s = issue (checkKind 0x4F#8 w false mem) 0x4F#8 w 16 body s := ⟨_, _, rfl⟩
theorem issuing_vabs (w : Fields) (s : State) :
    ∃ mem body, exec (.vabs w) s = issue (checkKind 0x50#8 w false mem) 0x50#8 w 16 body s := ⟨_, _, rfl⟩
theorem issuing_vcmp (w : Fields) (s : State) :
    ∃ mem body, exec (.vcmp w) s = issue (checkKind 0x51#8 w false mem) 0x51#8 w 16 body s := ⟨_, _, rfl⟩
theorem issuing_vsel (w : Fields) (s : State) :
    ∃ mem body, exec (.vsel w) s = issue (checkKind 0x52#8 w false mem) 0x52#8 w 16 body s := ⟨_, _, rfl⟩
theorem issuing_vmov (w : Fields) (s : State) :
    ∃ mem body, exec (.vmov w) s = issue (checkKind 0x53#8 w false mem) 0x53#8 w 16 body s := ⟨_, _, rfl⟩
theorem issuing_vli (w : Fields) (s : State) :
    ∃ mem body, exec (.vli w) s = issue (checkKind 0x54#8 w false mem) 0x54#8 w 16 body s := ⟨_, _, rfl⟩
theorem issuing_vclz (w : Fields) (s : State) :
    ∃ mem body, exec (.vclz w) s = issue (checkKind 0x55#8 w false mem) 0x55#8 w 16 body s := ⟨_, _, rfl⟩
theorem issuing_vctz (w : Fields) (s : State) :
    ∃ mem body, exec (.vctz w) s = issue (checkKind 0x56#8 w false mem) 0x56#8 w 16 body s := ⟨_, _, rfl⟩
theorem issuing_vpopc (w : Fields) (s : State) :
    ∃ mem body, exec (.vpopc w) s = issue (checkKind 0x57#8 w false mem) 0x57#8 w 16 body s := ⟨_, _, rfl⟩
theorem issuing_vbrev (w : Fields) (s : State) :
    ∃ mem body, exec (.vbrev w) s = issue (checkKind 0x58#8 w false mem) 0x58#8 w 16 body s := ⟨_, _, rfl⟩
theorem issuing_vbswap (w : Fields) (s : State) :
    ∃ mem body, exec (.vbswap w) s = issue (checkKind 0x59#8 w false mem) 0x59#8 w 16 body s := ⟨_, _, rfl⟩
theorem issuing_vbfx (w : Fields) (s : State) :
    ∃ mem body, exec (.vbfx w) s = issue (checkKind 0x5A#8 w false mem) 0x5A#8 w 16 body s := ⟨_, _, rfl⟩
theorem issuing_vbfi (w : Fields) (s : State) :
    ∃ mem body, exec (.vbfi w) s = issue (checkKind 0x5B#8 w false mem) 0x5B#8 w 16 body s := ⟨_, _, rfl⟩
theorem issuing_vbitil (w : Fields) (s : State) :
    ∃ mem body, exec (.vbitil w) s = issue (checkKind 0x5C#8 w false mem) 0x5C#8 w 16 body s := ⟨_, _, rfl⟩
theorem issuing_vbitdl (w : Fields) (s : State) :
    ∃ mem body, exec (.vbitdl w) s = issue (checkKind 0x5D#8 w false mem) 0x5D#8 w 16 body s := ⟨_, _, rfl⟩
theorem issuing_vclmul (w : Fields) (s : State) :
    ∃ mem body, exec (.vclmul w) s = issue (checkKind 0x5E#8 w false mem) 0x5E#8 w 16 body s := ⟨_, _, rfl⟩
theorem issuing_vperm (w : Fields) (s : State) :
    ∃ mem body, exec (.vperm w) s = issue (checkKind 0x5F#8 w false mem) 0x5F#8 w 16 body s := ⟨_, _, rfl⟩
theorem issuing_vdot4 (w : Fields) (s : State) :
    ∃ mem body, exec (.vdot4 w) s = issue (checkKind 0x60#8 w false mem) 0x60#8 w 16 body s := ⟨_, _, rfl⟩
theorem issuing_vaddc (w : Fields) (s : State) :
    ∃ mem body, exec (.vaddc w) s = issue (checkKind 0x61#8 w false mem) 0x61#8 w 16 body s := ⟨_, _, rfl⟩
theorem issuing_plog (w : Fields) (s : State) :
    ∃ mem body, exec (.plog w) s = issue (checkKind 0x62#8 w false mem) 0x62#8 w 16 body s := ⟨_, _, rfl⟩
theorem issuing_pmov (w : Fields) (s : State) :
    ∃ mem body, exec (.pmov w) s = issue (checkKind 0x63#8 w false mem) 0x63#8 w 16 body s := by
  simp only [exec, execPmov, vectorTest, vectorOp]; split <;> first | exact ⟨_, _, rfl⟩ | (split <;> exact ⟨_, _, rfl⟩)
theorem issuing_vfadd (w : Fields) (s : State) :
    ∃ mem body, exec (.vfadd w) s = issue (checkKind 0x68#8 w false mem) 0x68#8 w 16 body s := ⟨_, _, rfl⟩
theorem issuing_vfsub (w : Fields) (s : State) :
    ∃ mem body, exec (.vfsub w) s = issue (checkKind 0x69#8 w false mem) 0x69#8 w 16 body s := ⟨_, _, rfl⟩
theorem issuing_vfmul (w : Fields) (s : State) :
    ∃ mem body, exec (.vfmul w) s = issue (checkKind 0x6A#8 w false mem) 0x6A#8 w 16 body s := ⟨_, _, rfl⟩
theorem issuing_vffma (w : Fields) (s : State) :
    ∃ mem body, exec (.vffma w) s = issue (checkKind 0x6B#8 w false mem) 0x6B#8 w 16 body s := ⟨_, _, rfl⟩
theorem issuing_vfmin (w : Fields) (s : State) :
    ∃ mem body, exec (.vfmin w) s = issue (checkKind 0x6C#8 w false mem) 0x6C#8 w 16 body s := ⟨_, _, rfl⟩
theorem issuing_vfmax (w : Fields) (s : State) :
    ∃ mem body, exec (.vfmax w) s = issue (checkKind 0x6D#8 w false mem) 0x6D#8 w 16 body s := ⟨_, _, rfl⟩
theorem issuing_vfcmp (w : Fields) (s : State) :
    ∃ mem body, exec (.vfcmp w) s = issue (checkKind 0x6E#8 w false mem) 0x6E#8 w 16 body s := ⟨_, _, rfl⟩
theorem issuing_vfdiv (w : Fields) (s : State) :
    ∃ mem body, exec (.vfdiv w) s = issue (checkKind 0x6F#8 w true mem) 0x6F#8 w 16 body s := ⟨_, _, rfl⟩
theorem issuing_vfsqrt (w : Fields) (s : State) :
    ∃ mem body, exec (.vfsqrt w) s = issue (checkKind 0x70#8 w true mem) 0x70#8 w 16 body s := ⟨_, _, rfl⟩
theorem issuing_vfrcp (w : Fields) (s : State) :
    ∃ mem body, exec (.vfrcp w) s = issue (checkKind 0x71#8 w true mem) 0x71#8 w 16 body s := ⟨_, _, rfl⟩
theorem issuing_vfrsq (w : Fields) (s : State) :
    ∃ mem body, exec (.vfrsq w) s = issue (checkKind 0x72#8 w true mem) 0x72#8 w 16 body s := ⟨_, _, rfl⟩
theorem issuing_vfexp2 (w : Fields) (s : State) :
    ∃ mem body, exec (.vfexp2 w) s = issue (checkKind 0x73#8 w true mem) 0x73#8 w 16 body s := ⟨_, _, rfl⟩
theorem issuing_vflog2 (w : Fields) (s : State) :
    ∃ mem body, exec (.vflog2 w) s = issue (checkKind 0x74#8 w true mem) 0x74#8 w 16 body s := ⟨_, _, rfl⟩
theorem issuing_vfsinpi (w : Fields) (s : State) :
    ∃ mem body, exec (.vfsinpi w) s = issue (checkKind 0x75#8 w true mem) 0x75#8 w 16 body s := ⟨_, _, rfl⟩
theorem issuing_vfcospi (w : Fields) (s : State) :
    ∃ mem body, exec (.vfcospi w) s = issue (checkKind 0x76#8 w true mem) 0x76#8 w 16 body s := ⟨_, _, rfl⟩
theorem issuing_vfcvt (w : Fields) (s : State) :
    ∃ mem body, exec (.vfcvt w) s = issue (checkKind 0x77#8 w false mem) 0x77#8 w 16 body s := ⟨_, _, rfl⟩
theorem issuing_vfcvti (w : Fields) (s : State) :
    ∃ mem body, exec (.vfcvti w) s = issue (checkKind 0x78#8 w false mem) 0x78#8 w 16 body s := ⟨_, _, rfl⟩
theorem issuing_vicvtf (w : Fields) (s : State) :
    ∃ mem body, exec (.vicvtf w) s = issue (checkKind 0x79#8 w false mem) 0x79#8 w 16 body s := ⟨_, _, rfl⟩
theorem issuing_vfrnd (w : Fields) (s : State) :
    ∃ mem body, exec (.vfrnd w) s = issue (checkKind 0x7A#8 w false mem) 0x7A#8 w 16 body s := ⟨_, _, rfl⟩
theorem issuing_vfclass (w : Fields) (s : State) :
    ∃ mem body, exec (.vfclass w) s = issue (checkKind 0x7B#8 w false mem) 0x7B#8 w 16 body s := by
  simp only [exec, execVfclass]; split <;> exact ⟨_, _, rfl⟩
theorem issuing_vfscale (w : Fields) (s : State) :
    ∃ mem body, exec (.vfscale w) s = issue (checkKind 0x7C#8 w false mem) 0x7C#8 w 16 body s := ⟨_, _, rfl⟩
theorem issuing_vfgetexp (w : Fields) (s : State) :
    ∃ mem body, exec (.vfgetexp w) s = issue (checkKind 0x7D#8 w false mem) 0x7D#8 w 16 body s := ⟨_, _, rfl⟩
theorem issuing_vfpack (w : Fields) (s : State) :
    ∃ mem body, exec (.vfpack w) s = issue (checkKind 0x7E#8 w false mem) 0x7E#8 w 16 body s := ⟨_, _, rfl⟩
theorem issuing_vfdot2 (w : Fields) (s : State) :
    ∃ mem body, exec (.vfdot2 w) s = issue (checkKind 0x7F#8 w false mem) 0x7F#8 w 16 body s := ⟨_, _, rfl⟩
theorem issuing_ld (w : Fields) (s : State) :
    ∃ late mem body, exec (.ld w) s = issue (checkKind 0x80#8 w late mem) 0x80#8 w 16 body s := ⟨_, _, _, rfl⟩
theorem issuing_st (w : Fields) (s : State) :
    ∃ late mem body, exec (.st w) s = issue (checkKind 0x81#8 w late mem) 0x81#8 w 16 body s := ⟨_, _, _, rfl⟩
theorem issuing_ldsp (w : Fields) (s : State) :
    ∃ late mem body, exec (.ldsp w) s = issue (checkKind 0x82#8 w late mem) 0x82#8 w 16 body s := ⟨_, _, _, rfl⟩
theorem issuing_stsp (w : Fields) (s : State) :
    ∃ late mem body, exec (.stsp w) s = issue (checkKind 0x83#8 w late mem) 0x83#8 w 16 body s := ⟨_, _, _, rfl⟩
theorem issuing_sld (w : Fields) (s : State) :
    ∃ late mem body, exec (.sld w) s = issue (checkKind 0x84#8 w late mem) 0x84#8 w 16 body s := by
  simp only [exec, execSld]; exact ⟨_, _, _, rfl⟩
theorem issuing_sst (w : Fields) (s : State) :
    ∃ late mem body, exec (.sst w) s = issue (checkKind 0x85#8 w late mem) 0x85#8 w 16 body s := by
  simp only [exec, execSst]; exact ⟨_, _, _, rfl⟩
theorem issuing_xlate (w : Fields) (s : State) :
    ∃ late mem body, exec (.xlate w) s = issue (checkKind 0x86#8 w late mem) 0x86#8 w 16 body s := by
  simp only [exec, execXlate]; exact ⟨_, _, _, rfl⟩
theorem issuing_stmap (w : Fields) (s : State) :
    ∃ late mem body, exec (.stmap w) s = issue (checkKind 0x87#8 w late mem) 0x87#8 w 16 body s := by
  simp only [exec, execStmap]; exact ⟨_, _, _, rfl⟩
theorem issuing_stflush (w : Fields) (s : State) :
    ∃ late mem body, exec (.stflush w) s = issue (checkKind 0x88#8 w late mem) 0x88#8 w 16 body s := by
  simp only [exec, execStflush]; exact ⟨_, _, _, rfl⟩
theorem issuing_atom (w : Fields) (s : State) :
    ∃ late mem body, exec (.atom w) s = issue (checkKind 0x89#8 w late mem) 0x89#8 w 16 body s := ⟨_, _, _, rfl⟩
theorem issuing_red (w : Fields) (s : State) :
    ∃ late mem body, exec (.red w) s = issue (checkKind 0x8A#8 w late mem) 0x8A#8 w 16 body s := ⟨_, _, _, rfl⟩
theorem issuing_fence (w : Fields) (s : State) :
    ∃ late mem body, exec (.fence w) s = issue (checkKind 0x8B#8 w late mem) 0x8B#8 w 16 body s := by
  simp only [exec, execFence]; exact ⟨_, _, _, rfl⟩
theorem issuing_fpromote (w : Fields) (s : State) :
    ∃ late mem body, exec (.fpromote w) s = issue (checkKind 0x8C#8 w late mem) 0x8C#8 w 16 body s := by
  simp only [exec, execFpromote]; exact ⟨_, _, _, rfl⟩
theorem issuing_prefetch (w : Fields) (s : State) :
    ∃ late mem body, exec (.prefetch w) s = issue (checkKind 0x8D#8 w late mem) 0x8D#8 w 16 body s := ⟨_, _, _, rfl⟩
theorem issuing_ldg (w : Fields) (s : State) :
    ∃ late mem body, exec (.ldg w) s = issue (checkKind 0x8E#8 w late mem) 0x8E#8 w 16 body s := ⟨_, _, _, rfl⟩
theorem issuing_stg (w : Fields) (s : State) :
    ∃ late mem body, exec (.stg w) s = issue (checkKind 0x8F#8 w late mem) 0x8F#8 w 16 body s := ⟨_, _, _, rfl⟩
theorem issuing_mma (w : Fields) (s : State) :
    ∃ late mem body, exec (.mma w) s = issue (checkKind 0x90#8 w late mem) 0x90#8 w 16 body s := ⟨_, _, _, rfl⟩
theorem issuing_mmat (w : Fields) (s : State) :
    ∃ late mem body, exec (.mmat w) s = issue (checkKind 0x91#8 w late mem) 0x91#8 w 16 body s := ⟨_, _, _, rfl⟩
theorem issuing_mperm (w : Fields) (s : State) :
    ∃ late mem body, exec (.mperm w) s = issue (checkKind 0x92#8 w late mem) 0x92#8 w 16 body s := ⟨_, _, _, rfl⟩
theorem issuing_mrsum (w : Fields) (s : State) :
    ∃ late mem body, exec (.mrsum w) s = issue (checkKind 0x93#8 w late mem) 0x93#8 w 16 body s := ⟨_, _, _, rfl⟩
theorem issuing_tld (w : Fields) (s : State) :
    ∃ late mem body, exec (.tld w) s = issue (checkKind 0x94#8 w late mem) 0x94#8 w 16 body s := ⟨_, _, _, rfl⟩
theorem issuing_tst (w : Fields) (s : State) :
    ∃ late mem body, exec (.tst w) s = issue (checkKind 0x95#8 w late mem) 0x95#8 w 16 body s := ⟨_, _, _, rfl⟩
theorem issuing_tcvt (w : Fields) (s : State) :
    ∃ late mem body, exec (.tcvt w) s = issue (checkKind 0x96#8 w late mem) 0x96#8 w 16 body s := ⟨_, _, _, rfl⟩
theorem issuing_tzero (w : Fields) (s : State) :
    ∃ late mem body, exec (.tzero w) s = issue (checkKind 0x97#8 w late mem) 0x97#8 w 16 body s := ⟨_, _, _, rfl⟩
theorem issuing_mcopy (w : Fields) (s : State) (hm : w.fn ≠ 1#4) :
    ∃ late mem body, exec (.mcopy w) s = issue (checkKind 0x98#8 w late mem) 0x98#8 w 16 body s := by
  simp only [exec, execMcopy]; rw [if_neg hm]; exact ⟨_, _, _, rfl⟩
theorem issuing_mwait (w : Fields) (s : State) :
    ∃ late mem body, exec (.mwait w) s = issue (checkKind 0x99#8 w late mem) 0x99#8 w 16 body s := by
  simp only [exec, execMwait]; exact ⟨_, _, _, rfl⟩
theorem issuing_tallocWait (w : Fields) (s : State) :
    ∃ late mem body, exec (.tallocWait w) s = issue (checkKind 0xA0#8 w late mem) 0xA0#8 w 16 body s := by
  simp only [exec, execTallocWait]; exact ⟨_, _, _, rfl⟩
theorem issuing_tallocTry (w : Fields) (s : State) :
    ∃ late mem body, exec (.tallocTry w) s = issue (checkKind 0xA0#8 w late mem) 0xA0#8 w 16 body s := by
  simp only [exec, execTallocTry]; exact ⟨_, _, _, rfl⟩
theorem issuing_tgive (w : Fields) (s : State) :
    ∃ late mem body, exec (.tgive w) s = issue (checkKind 0xA1#8 w late mem) 0xA1#8 w 16 body s := by
  simp only [exec, execTgive]; exact ⟨_, _, _, rfl⟩
theorem issuing_ttake (w : Fields) (s : State) :
    ∃ late mem body, exec (.ttake w) s = issue (checkKind 0xA2#8 w late mem) 0xA2#8 w 16 body s := by
  simp only [exec, execTtake]; exact ⟨_, _, _, rfl⟩
theorem issuing_tfree (w : Fields) (s : State) :
    ∃ late mem body, exec (.tfree w) s = issue (checkKind 0xA3#8 w late mem) 0xA3#8 w 16 body s := by
  simp only [exec, execTfree]; exact ⟨_, _, _, rfl⟩
theorem issuing_rlock (w : Fields) (s : State) :
    ∃ late mem body, exec (.rlock w) s = issue (checkKind 0xA4#8 w late mem) 0xA4#8 w 16 body s := by
  simp only [exec, execRlock]; exact ⟨_, _, _, rfl⟩
theorem issuing_runlock (w : Fields) (s : State) :
    ∃ late mem body, exec (.runlock w) s = issue (checkKind 0xA5#8 w late mem) 0xA5#8 w 16 body s := by
  simp only [exec, execRunlock]; exact ⟨_, _, _, rfl⟩
theorem issuing_tlbinv (w : Fields) (s : State) :
    ∃ late mem body, exec (.tlbinv w) s = issue (checkKind 0xA6#8 w late mem) 0xA6#8 w 16 body s := by
  simp only [exec, execTlbinv]; exact ⟨_, _, _, rfl⟩
theorem issuing_cprobe (w : Fields) (s : State) :
    ∃ late mem body, exec (.cprobe w) s = issue (checkKind 0xA7#8 w late mem) 0xA7#8 w 16 body s := by
  simp only [exec, execCprobe]; exact ⟨_, _, _, rfl⟩
theorem issuing_bra (w : Fields) (s : State) :
    ∃ late mem body, exec (.bra w) s = issue (checkKind 0xC0#8 w late mem) 0xC0#8 w 16 body s := by
  simp only [exec, execBra]; exact ⟨_, _, _, rfl⟩
theorem issuing_brq (w : Fields) (s : State) :
    ∃ late mem body, exec (.brq w) s = issue (checkKind 0xC1#8 w late mem) 0xC1#8 w 16 body s := by
  simp only [exec, execBrq]; exact ⟨_, _, _, rfl⟩
theorem issuing_call (w : Fields) (s : State) :
    ∃ late mem body, exec (.call w) s = issue (checkKind 0xC2#8 w late mem) 0xC2#8 w 16 body s := ⟨_, _, _, rfl⟩
theorem issuing_ret (w : Fields) (s : State) :
    ∃ late mem body, exec (.ret w) s = issue (checkKind 0xC3#8 w late mem) 0xC3#8 w 16 body s := by
  simp only [exec, execRet]; exact ⟨_, _, _, rfl⟩
theorem issuing_btab (w : Fields) (s : State) :
    ∃ late mem body, exec (.btab w) s = issue (checkKind 0xC4#8 w late mem) 0xC4#8 w (btabLength w) body s := by
  simp only [exec, execBtab]
  exact ⟨false, decide (w.fn = 1#4), _, by rw [show checkKind 0xC4#8 w false (decide (w.fn = 1#4)) = (if w.fn = 1#4 then kindStack else kindPlain) by
    split <;> simp_all [checkKind, privileged, converges, actsOnce, kindStack, kindPlain]]⟩
theorem issuing_regang (w : Fields) (s : State) :
    ∃ late mem body, exec (.regang w) s = issue (checkKind 0xC5#8 w late mem) 0xC5#8 w 16 body s := ⟨_, _, _, rfl⟩
theorem issuing_exit (w : Fields) (s : State) :
    ∃ late mem body, exec (.exit w) s = issue (checkKind 0xC6#8 w late mem) 0xC6#8 w 16 body s := by
  simp only [exec, execExit]; exact ⟨_, _, _, rfl⟩
theorem issuing_nop (w : Fields) (s : State) :
    ∃ late mem body, exec (.nop w) s = issue (checkKind 0xC7#8 w late mem) 0xC7#8 w 16 body s := by
  simp only [exec, execNop]; exact ⟨_, _, _, rfl⟩
theorem issuing_trap (w : Fields) (s : State) :
    ∃ late mem body, exec (.trap w) s = issue (checkKind 0xC8#8 w late mem) 0xC8#8 w 16 body s := by
  simp only [exec, execTrap]; exact ⟨_, _, _, rfl⟩
theorem issuing_trapret (w : Fields) (s : State) :
    ∃ late mem body, exec (.trapret w) s = issue (checkKind 0xC9#8 w late mem) 0xC9#8 w 16 body s := ⟨_, _, _, rfl⟩
theorem issuing_mfsr (w : Fields) (s : State) :
    ∃ late mem body, exec (.mfsr w) s = issue (checkKind 0xCA#8 w late mem) 0xCA#8 w 16 body s := by
  simp only [exec, execMfsr]; exact ⟨_, _, _, rfl⟩
theorem issuing_mtsr (w : Fields) (s : State) :
    ∃ late mem body, exec (.mtsr w) s = issue (checkKind 0xCB#8 w late mem) 0xCB#8 w 16 body s := by
  simp only [exec, execMtsr]; exact ⟨_, _, _, rfl⟩
theorem issuing_icinv (w : Fields) (s : State) :
    ∃ late mem body, exec (.icinv w) s = issue (checkKind 0xCC#8 w late mem) 0xCC#8 w 16 body s := by
  simp only [exec, execIcinv]; exact ⟨false, false, _, by rw [icinv_kind]⟩
theorem issuing_brk (w : Fields) (s : State) :
    ∃ late mem body, exec (.brk w) s = issue (checkKind 0xFF#8 w late mem) 0xFF#8 w 16 body s := by
  simp only [exec, execBrk]; exact ⟨_, _, _, rfl⟩
theorem issuing_rgrowWait (w : Fields) (s : State) :
    ∃ late mem body, exec (.rgrowWait w) s = issue (checkKind 0xCD#8 w late mem) 0xCD#8 w 16 body s := by
  simp only [exec, execRgrowWait]; exact ⟨_, _, _, rfl⟩
theorem issuing_rgrowTry (w : Fields) (s : State) :
    ∃ late mem body, exec (.rgrowTry w) s = issue (checkKind 0xCD#8 w late mem) 0xCD#8 w 16 body s := by
  simp only [exec, execRgrowTry]; exact ⟨_, _, _, rfl⟩
theorem issuing_rshrink (w : Fields) (s : State) :
    ∃ late mem body, exec (.rshrink w) s = issue (checkKind 0xCE#8 w late mem) 0xCE#8 w 16 body s := by
  simp only [exec, execRshrink]; exact ⟨_, _, _, rfl⟩
theorem issuing_rshapeGet (w : Fields) (s : State) :
    ∃ late mem body, exec (.rshapeGet w) s = issue (checkKind 0xCF#8 w late mem) 0xCF#8 w 16 body s := ⟨_, _, _, rfl⟩
theorem issuing_rshapeSet (w : Fields) (s : State) :
    ∃ late mem body, exec (.rshapeSet w) s = issue (checkKind 0xCF#8 w late mem) 0xCF#8 w 16 body s := by
  simp only [exec, execRshapeSet]; exact ⟨_, _, _, rfl⟩
theorem issuing_gvote (w : Fields) (s : State) :
    ∃ late mem body, exec (.gvote w) s = issue (checkKind 0xD0#8 w late mem) 0xD0#8 w 16 body s := ⟨_, _, _, rfl⟩
theorem issuing_gshfl (w : Fields) (s : State) :
    ∃ late mem body, exec (.gshfl w) s = issue (checkKind 0xD1#8 w late mem) 0xD1#8 w 16 body s := ⟨_, _, _, rfl⟩
theorem issuing_gscan (w : Fields) (s : State) :
    ∃ late mem body, exec (.gscan w) s = issue (checkKind 0xD2#8 w late mem) 0xD2#8 w 16 body s := ⟨_, _, _, rfl⟩
theorem issuing_greduce (w : Fields) (s : State) :
    ∃ late mem body, exec (.greduce w) s = issue (checkKind 0xD3#8 w late mem) 0xD3#8 w 16 body s := ⟨_, _, _, rfl⟩
theorem issuing_gbcast (w : Fields) (s : State) :
    ∃ late mem body, exec (.gbcast w) s = issue (checkKind 0xD4#8 w late mem) 0xD4#8 w 16 body s := ⟨_, _, _, rfl⟩
theorem issuing_bar (w : Fields) (s : State) :
    ∃ late mem body, exec (.bar w) s = issue (checkKind 0xD5#8 w late mem) 0xD5#8 w 16 body s := by
  simp only [exec, execBar]; exact ⟨_, _, _, rfl⟩
theorem issuing_launch (w : Fields) (s : State) :
    ∃ late mem body, exec (.launch w) s = issue (checkKind 0xE0#8 w late mem) 0xE0#8 w 16 body s := by
  simp only [exec, execLaunch]; exact ⟨_, _, _, rfl⟩
theorem issuing_qappend (w : Fields) (s : State) :
    ∃ late mem body, exec (.qappend w) s = issue (checkKind 0xE1#8 w late mem) 0xE1#8 w 16 body s := by
  simp only [exec, execQappend]; exact ⟨_, _, _, rfl⟩
theorem issuing_qtail (w : Fields) (s : State) :
    ∃ late mem body, exec (.qtail w) s = issue (checkKind 0xE2#8 w late mem) 0xE2#8 w 16 body s := by
  simp only [exec, execQtail]; exact ⟨_, _, _, rfl⟩
theorem issuing_evget (w : Fields) (s : State) :
    ∃ late mem body, exec (.evget w) s = issue (checkKind 0xE3#8 w late mem) 0xE3#8 w 16 body s := by
  simp only [exec, execEvget]; exact ⟨_, _, _, rfl⟩
theorem issuing_evwait (w : Fields) (s : State) :
    ∃ late mem body, exec (.evwait w) s = issue (checkKind 0xE4#8 w late mem) 0xE4#8 w 16 body s := by
  simp only [exec, execEvwait]; exact ⟨_, _, _, rfl⟩
theorem issuing_msem (w : Fields) (s : State) :
    ∃ late mem body, exec (.msem w) s = issue (checkKind 0xE5#8 w late mem) 0xE5#8 w 16 body s := by
  simp only [exec, execMsem]; exact ⟨_, _, _, rfl⟩
theorem issuing_semup (w : Fields) (s : State) :
    ∃ late mem body, exec (.semup w) s = issue (checkKind 0xE8#8 w late mem) 0xE8#8 w 16 body s := by
  simp only [exec, execSemup]; exact ⟨_, _, _, rfl⟩
theorem issuing_semwait (w : Fields) (s : State) :
    ∃ late mem body, exec (.semwait w) s = issue (checkKind 0xE9#8 w late mem) 0xE9#8 w 16 body s := by
  simp only [exec, execSemwait]; exact ⟨_, _, _, rfl⟩
theorem issuing_semread (w : Fields) (s : State) :
    ∃ late mem body, exec (.semread w) s = issue (checkKind 0xEA#8 w late mem) 0xEA#8 w 16 body s := by
  simp only [exec, execSemread]; exact ⟨_, _, _, rfl⟩
theorem issuing_slkset (w : Fields) (s : State) :
    ∃ late mem body, exec (.slkset w) s = issue (checkKind 0xEB#8 w late mem) 0xEB#8 w 16 body s := by
  simp only [exec, execSlkset]; exact ⟨_, _, _, rfl⟩
theorem issuing_seqwait (w : Fields) (s : State) :
    ∃ late mem body, exec (.seqwait w) s = issue (checkKind 0xEC#8 w late mem) 0xEC#8 w 16 body s := by
  simp only [exec, execSeqwait]; exact ⟨_, _, _, rfl⟩

/-- The vector instructions of variable latency (R86). -/
def lateVector (op : BitVec 8) : Bool := decide (0x6F#8 ≤ op ∧ op ≤ 0x76#8)

/-- An issue that knows, for a vector instruction, whether its result is of variable latency. -/
def issuesAs (i : Instr) (op : BitVec 8) (w : Fields) (len : Nat) (s : State) : Prop :=
  ∃ late mem body, (op.extractLsb' 6 2 = 1#2 → late = lateVector op) ∧ exec i s = issue (checkKind op w late mem) op w len body s

theorem of_late {i : Instr} {op : BitVec 8} {w : Fields} {len : Nat} {s : State}
    (h : ∃ mem body, exec i s = issue (checkKind op w (lateVector op) mem) op w len body s) : issuesAs i op w len s :=
  have ⟨mem, body, h⟩ := h
  ⟨_, mem, body, fun _ => rfl, h⟩

theorem of_other {i : Instr} {op : BitVec 8} {w : Fields} {len : Nat} {s : State} (ho : op.extractLsb' 6 2 ≠ 1#2)
    (h : ∃ late mem body, exec i s = issue (checkKind op w late mem) op w len body s) : issuesAs i op w len s :=
  have ⟨late, mem, body, h⟩ := h
  ⟨late, mem, body, fun e => absurd e ho, h⟩

/-- Every instruction form runs as the issue of its opcode, with the checks of its kind. -/
theorem exec_issue {i : Instr} {op : BitVec 8} {w : Fields} (s : State) (hp : i.parts = some (op, w)) (hm : ¬ (op = 0x98#8 ∧ w.fn = 1#4)) :
    issuesAs i op w (if op = 0xC4#8 then btabLength w else 16) s := by
  cases i
  all_goals cases hp
  · exact of_other (by decide) (issuing_sadd _ s)
  · exact of_other (by decide) (issuing_ssub _ s)
  · exact of_other (by decide) (issuing_smul _ s)
  · exact of_other (by decide) (issuing_smulh _ s)
  · exact of_other (by decide) (issuing_sdiv _ s)
  · exact of_other (by decide) (issuing_srem _ s)
  · exact of_other (by decide) (issuing_sand _ s)
  · exact of_other (by decide) (issuing_sor _ s)
  · exact of_other (by decide) (issuing_sxor _ s)
  · exact of_other (by decide) (issuing_sshl _ s)
  · exact of_other (by decide) (issuing_sshr _ s)
  · exact of_other (by decide) (issuing_ssar _ s)
  · exact of_other (by decide) (issuing_srot _ s)
  · exact of_other (by decide) (issuing_smin _ s)
  · exact of_other (by decide) (issuing_smax _ s)
  · exact of_other (by decide) (issuing_scmp _ s)
  · exact of_other (by decide) (issuing_ssel _ s)
  · exact of_other (by decide) (issuing_smov _ s)
  · exact of_other (by decide) (issuing_sli _ s)
  · exact of_other (by decide) (issuing_sclz _ s)
  · exact of_other (by decide) (issuing_spopc _ s)
  · exact of_other (by decide) (issuing_sbfx _ s)
  · exact of_other (by decide) (issuing_sbfi _ s)
  · exact of_other (by decide) (issuing_sfadd _ s)
  · exact of_other (by decide) (issuing_sfmul _ s)
  · exact of_other (by decide) (issuing_sffma _ s)
  · exact of_other (by decide) (issuing_sfcvt _ s)
  · exact of_late (issuing_vadd _ s)
  · exact of_late (issuing_vsub _ s)
  · exact of_late (issuing_vmul _ s)
  · exact of_late (issuing_vmulh _ s)
  · exact of_late (issuing_vmad _ s)
  · exact of_late (issuing_vand _ s)
  · exact of_late (issuing_vor _ s)
  · exact of_late (issuing_vxor _ s)
  · exact of_late (issuing_vandn _ s)
  · exact of_late (issuing_vshl _ s)
  · exact of_late (issuing_vshr _ s)
  · exact of_late (issuing_vsar _ s)
  · exact of_late (issuing_vrot _ s)
  · exact of_late (issuing_vfunnel _ s)
  · exact of_late (issuing_vmin _ s)
  · exact of_late (issuing_vmax _ s)
  · exact of_late (issuing_vabs _ s)
  · exact of_late (issuing_vcmp _ s)
  · exact of_late (issuing_vsel _ s)
  · exact of_late (issuing_vmov _ s)
  · exact of_late (issuing_vli _ s)
  · exact of_late (issuing_vclz _ s)
  · exact of_late (issuing_vctz _ s)
  · exact of_late (issuing_vpopc _ s)
  · exact of_late (issuing_vbrev _ s)
  · exact of_late (issuing_vbswap _ s)
  · exact of_late (issuing_vbfx _ s)
  · exact of_late (issuing_vbfi _ s)
  · exact of_late (issuing_vbitil _ s)
  · exact of_late (issuing_vbitdl _ s)
  · exact of_late (issuing_vclmul _ s)
  · exact of_late (issuing_vperm _ s)
  · exact of_late (issuing_vdot4 _ s)
  · exact of_late (issuing_vaddc _ s)
  · exact of_late (issuing_plog _ s)
  · exact of_late (issuing_pmov _ s)
  · exact of_late (issuing_vfadd _ s)
  · exact of_late (issuing_vfsub _ s)
  · exact of_late (issuing_vfmul _ s)
  · exact of_late (issuing_vffma _ s)
  · exact of_late (issuing_vfmin _ s)
  · exact of_late (issuing_vfmax _ s)
  · exact of_late (issuing_vfcmp _ s)
  · exact of_late (issuing_vfdiv _ s)
  · exact of_late (issuing_vfsqrt _ s)
  · exact of_late (issuing_vfrcp _ s)
  · exact of_late (issuing_vfrsq _ s)
  · exact of_late (issuing_vfexp2 _ s)
  · exact of_late (issuing_vflog2 _ s)
  · exact of_late (issuing_vfsinpi _ s)
  · exact of_late (issuing_vfcospi _ s)
  · exact of_late (issuing_vfcvt _ s)
  · exact of_late (issuing_vfcvti _ s)
  · exact of_late (issuing_vicvtf _ s)
  · exact of_late (issuing_vfrnd _ s)
  · exact of_late (issuing_vfclass _ s)
  · exact of_late (issuing_vfscale _ s)
  · exact of_late (issuing_vfgetexp _ s)
  · exact of_late (issuing_vfpack _ s)
  · exact of_late (issuing_vfdot2 _ s)
  · exact of_other (by decide) (issuing_ld _ s)
  · exact of_other (by decide) (issuing_st _ s)
  · exact of_other (by decide) (issuing_ldsp _ s)
  · exact of_other (by decide) (issuing_stsp _ s)
  · exact of_other (by decide) (issuing_sld _ s)
  · exact of_other (by decide) (issuing_sst _ s)
  · exact of_other (by decide) (issuing_xlate _ s)
  · exact of_other (by decide) (issuing_stmap _ s)
  · exact of_other (by decide) (issuing_stflush _ s)
  · exact of_other (by decide) (issuing_atom _ s)
  · exact of_other (by decide) (issuing_red _ s)
  · exact of_other (by decide) (issuing_fence _ s)
  · exact of_other (by decide) (issuing_fpromote _ s)
  · exact of_other (by decide) (issuing_prefetch _ s)
  · exact of_other (by decide) (issuing_ldg _ s)
  · exact of_other (by decide) (issuing_stg _ s)
  · exact of_other (by decide) (issuing_mma _ s)
  · exact of_other (by decide) (issuing_mmat _ s)
  · exact of_other (by decide) (issuing_mperm _ s)
  · exact of_other (by decide) (issuing_mrsum _ s)
  · exact of_other (by decide) (issuing_tld _ s)
  · exact of_other (by decide) (issuing_tst _ s)
  · exact of_other (by decide) (issuing_tcvt _ s)
  · exact of_other (by decide) (issuing_tzero _ s)
  · exact of_other (by decide) (issuing_mcopy _ s fun h => hm ⟨rfl, h⟩)
  · exact of_other (by decide) (issuing_mwait _ s)
  · exact of_other (by decide) (issuing_tallocWait _ s)
  · exact of_other (by decide) (issuing_tallocTry _ s)
  · exact of_other (by decide) (issuing_tgive _ s)
  · exact of_other (by decide) (issuing_ttake _ s)
  · exact of_other (by decide) (issuing_tfree _ s)
  · exact of_other (by decide) (issuing_rlock _ s)
  · exact of_other (by decide) (issuing_runlock _ s)
  · exact of_other (by decide) (issuing_tlbinv _ s)
  · exact of_other (by decide) (issuing_cprobe _ s)
  · exact of_other (by decide) (issuing_bra _ s)
  · exact of_other (by decide) (issuing_brq _ s)
  · exact of_other (by decide) (issuing_call _ s)
  · exact of_other (by decide) (issuing_ret _ s)
  · exact of_other (by decide) (issuing_btab _ s)
  · exact of_other (by decide) (issuing_regang _ s)
  · exact of_other (by decide) (issuing_exit _ s)
  · exact of_other (by decide) (issuing_nop _ s)
  · exact of_other (by decide) (issuing_trap _ s)
  · exact of_other (by decide) (issuing_trapret _ s)
  · exact of_other (by decide) (issuing_mfsr _ s)
  · exact of_other (by decide) (issuing_mtsr _ s)
  · exact of_other (by decide) (issuing_icinv _ s)
  · exact of_other (by decide) (issuing_brk _ s)
  · exact of_other (by decide) (issuing_rgrowWait _ s)
  · exact of_other (by decide) (issuing_rgrowTry _ s)
  · exact of_other (by decide) (issuing_rshrink _ s)
  · exact of_other (by decide) (issuing_rshapeGet _ s)
  · exact of_other (by decide) (issuing_rshapeSet _ s)
  · exact of_other (by decide) (issuing_gvote _ s)
  · exact of_other (by decide) (issuing_gshfl _ s)
  · exact of_other (by decide) (issuing_gscan _ s)
  · exact of_other (by decide) (issuing_greduce _ s)
  · exact of_other (by decide) (issuing_gbcast _ s)
  · exact of_other (by decide) (issuing_bar _ s)
  · exact of_other (by decide) (issuing_launch _ s)
  · exact of_other (by decide) (issuing_qappend _ s)
  · exact of_other (by decide) (issuing_qtail _ s)
  · exact of_other (by decide) (issuing_evget _ s)
  · exact of_other (by decide) (issuing_evwait _ s)
  · exact of_other (by decide) (issuing_msem _ s)
  · exact of_other (by decide) (issuing_semup _ s)
  · exact of_other (by decide) (issuing_semwait _ s)
  · exact of_other (by decide) (issuing_semread _ s)
  · exact of_other (by decide) (issuing_slkset _ s)
  · exact of_other (by decide) (issuing_seqwait _ s)

end Sys2Proof.Machine
end

