-- ==== Sys2Proof/Laws/Stores.lean ====
section
/-! SUPPORT. What stores of cached pages do: the bytes that the requests of an instruction hold, and what each die sees after them. -/

namespace Sys2Proof.Machine

/-! ## The requests of an instruction -/

/-- The byte that a list of requests stores at an address. -/
def storedByte (rs : List Request) (b : Nat) : Option Byte :=
  (rs.find? fun r => r.a.key / 128 = b / 128).bind fun r => if r.mask.getLsbD (b % 128) then some (byteOf r.data (b % 128)) else none

theorem storedByte_addLane (rs : List Request) (a : Access) (va v b : Nat) :
    storedByte (addLane rs a va v) b =
      if a.key / 128 = b / 128 ∧ a.mask.getLsbD (b % 128) = true then some (byteOf (a.lay v) (b % 128)) else storedByte rs b := by
  have hb : b % 128 < 128 := Nat.mod_lt _ (by decide)
  induction rs with
  | nil =>
    simp only [addLane, storedByte, List.find?_cons, List.find?_nil]
    by_cases h : a.key / 128 = b / 128
    · simp only [h, decide_true, Option.bind_some, true_and]
      rfl
    · simp [h]
  | cons r rs ih =>
    simp only [addLane]
    by_cases hr : r.a.key / 128 = a.key / 128
    · rw [if_pos hr]
      simp only [storedByte, List.find?_cons, hr]
      by_cases h : a.key / 128 = b / 128
      · simp only [h, decide_true, Option.bind_some, true_and, BitVec.getLsbD_or, byteOf_mergeSector _ _ _ _ hb]
        by_cases hm : a.mask.getLsbD (b % 128) = true
        · simp [hm]
        · simp [hm]
      · simp [h]
    · rw [if_neg hr]
      simp only [storedByte, List.find?_cons] at ih ⊢
      by_cases hrb : r.a.key / 128 = b / 128
      · have h : ¬ a.key / 128 = b / 128 := fun e => hr (hrb.trans e.symm)
        simp [hrb, h]
      · simp only [hrb, decide_false]
        exact ih

/-- Each request is of one of the accesses. -/
theorem mem_addLane {rs : List Request} {a : Access} {va v : Nat} {r : Request} (h : r ∈ addLane rs a va v) :
    r.a = a ∨ ∃ q ∈ rs, r.a = q.a := by
  induction rs with
  | nil => simp only [addLane, List.mem_singleton] at h; exact .inl (by rw [h])
  | cons q qs ih =>
    simp only [addLane] at h
    split at h
    · rcases List.mem_cons.1 h with rfl | h
      · exact .inr ⟨q, by simp, rfl⟩
      · exact .inr ⟨r, by simp [h], rfl⟩
    · rcases List.mem_cons.1 h with rfl | h
      · exact .inr ⟨r, by simp, rfl⟩
      · rcases ih h with e | ⟨p, hp, e⟩
        · exact .inl e
        · exact .inr ⟨p, by simp [hp], e⟩

theorem addLane_pairwise {rs : List Request} {a : Access} {va v : Nat} (h : rs.Pairwise fun r q => r.a.key / 128 ≠ q.a.key / 128) :
    (addLane rs a va v).Pairwise fun r q => r.a.key / 128 ≠ q.a.key / 128 := by
  induction rs with
  | nil => simp [addLane]
  | cons q qs ih =>
    simp only [addLane]
    rw [List.pairwise_cons] at h
    split
    · rw [List.pairwise_cons]; exact ⟨fun p hp => h.1 p hp, h.2⟩
    · next hq =>
      rw [List.pairwise_cons]
      refine ⟨fun p hp => ?_, ih h.2⟩
      rcases mem_addLane hp with e | ⟨p', hp', e⟩
      · rw [e]; exact hq
      · rw [e]; exact h.1 p' hp'

/-! ## The requests of a list of lanes -/

/-- The requests of lanes with their accesses. -/
def requestsOf (val : Nat → Nat) (as : List (Point × Access)) (rs : List Request) : List Request :=
  as.foldl (fun rs p => addLane rs p.2 p.1.va.toNat (val p.1.lane)) rs

theorem requestsOf_pairwise (val : Nat → Nat) (as : List (Point × Access)) (rs : List Request)
    (h : rs.Pairwise fun r q => r.a.key / 128 ≠ q.a.key / 128) : (requestsOf val as rs).Pairwise fun r q => r.a.key / 128 ≠ q.a.key / 128 := by
  unfold requestsOf
  induction as generalizing rs with
  | nil => exact h
  | cons p ps ih => exact ih _ (addLane_pairwise h)

theorem mem_requestsOf {val : Nat → Nat} {as : List (Point × Access)} {rs : List Request} {r : Request} (h : r ∈ requestsOf val as rs) :
    (∃ p ∈ as, r.a = p.2) ∨ ∃ q ∈ rs, r.a = q.a := by
  unfold requestsOf at h
  induction as generalizing rs with
  | nil => exact .inr ⟨r, h, rfl⟩
  | cons p ps ih =>
    rcases ih h with ⟨q, hq, e⟩ | ⟨q, hq, e⟩
    · exact .inl ⟨q, by simp [hq], e⟩
    · rcases mem_addLane hq with e' | ⟨q', hq', e'⟩
      · exact .inl ⟨p, by simp, e.trans e'⟩
      · exact .inr ⟨q', hq', e.trans e'⟩

/-- An access stores to an address. -/
def Access.covers (a : Access) (b : Nat) : Prop := a.key / 128 = b / 128 ∧ a.mask.getLsbD (b % 128) = true

theorem storedByte_none (val : Nat → Nat) (as : List (Point × Access)) (rs : List Request) (b : Nat) (h : ∀ p ∈ as, ¬ p.2.covers b) :
    storedByte (requestsOf val as rs) b = storedByte rs b := by
  unfold requestsOf
  induction as generalizing rs with
  | nil => rfl
  | cons p ps ih =>
    rw [List.foldl_cons, ih _ fun q hq => h q (by simp [hq]), storedByte_addLane]
    exact if_neg (h p (by simp))

theorem storedByte_some (val : Nat → Nat) (as : List (Point × Access)) (rs : List Request) (b : Nat) (p : Point × Access) (hp : p ∈ as)
    (hc : p.2.covers b) (h : ∀ q ∈ as, q ≠ p → ¬ q.2.covers b) :
    storedByte (requestsOf val as rs) b = some (byteOf (p.2.lay (val p.1.lane)) (b % 128)) := by
  unfold requestsOf
  induction as generalizing rs with
  | nil => cases hp
  | cons q qs ih =>
    rw [List.foldl_cons]
    by_cases hm : p ∈ qs
    · exact ih _ hm fun q hq => h q (by simp [hq])
    · rcases List.mem_cons.1 hp with rfl | hp'
      · have := storedByte_none val qs (addLane rs p.2 p.1.va.toNat (val p.1.lane)) b fun q hq => h q (by simp [hq]) (fun e => hm (e ▸ hq))
        unfold requestsOf at this
        rw [this, storedByte_addLane]
        exact if_pos hc
      · exact absurd hp' hm

/-! ## Storing requests -/

/-- A weak request to a global page of this module that the die may cache. -/
structure Cached (r : Request) (die : Nat) : Prop where
  home : r.a.peer = none
  global : regionOf r.a.pa = .global
  policy : r.a.cp ≠ 2#2
  weak : r.a.strong = false
  die : r.a.die = die

theorem write_cached {s : State} {r : Request} {die : Nat} (h : Cached r die) :
    ∃ cs, s.write r.a r.mask r.data false =
      { s.dieWrite die (r.a.key / 128) r.a.shared r.mask r.data false with cores := cs } := by
  have hasd : r.a.aside = false := by simp [Access.aside, h.weak, h.policy]
  rw [write_home (by rw [h.global]; decide)]
  simp only [if_neg h.policy, hasd, h.die]
  rw [if_neg (by decide)]
  cases r.a.core with
  | none => exact ⟨_, rfl⟩
  | some c =>
    dsimp only
    rw [if_neg (by decide)]
    exact l1Update_eq _ _ _ _ _

/-- What each die sees after cached requests: their bytes on the issuing die, and elsewhere what it saw before. -/
theorem storeAll_cached (x : Exec) (f : Effects) (die : Nat) (rs : List Request) (s : State) (hr : ∀ r ∈ rs, Cached r die)
    (hp : rs.Pairwise fun r q => r.a.key / 128 ≠ q.a.key / 128)
    (hs : ∀ r ∈ rs, ∀ z, (s.die die).sector? (r.a.key / 128) = some z → z.shared = r.a.shared) :
    (storeAll x f rs s).mem = s.mem ∧ (storeAll x f rs s).memPoison = s.memPoison ∧ (storeAll x f rs s).teams = s.teams ∧
      (∀ n, ((storeAll x f rs s).die n).scratch = (s.die n).scratch) ∧
      (∀ n b, n ≠ die ∨ storedByte rs b = none → (storeAll x f rs s).dieByte n b = s.dieByte n b) ∧
      (∀ b c, die < 9 → storedByte rs b = some c → (storeAll x f rs s).dieByte die b = c) := by
  unfold storeAll
  induction rs generalizing s with
  | nil => exact ⟨rfl, rfl, rfl, fun _ => rfl, fun _ _ _ => rfl, fun b c _ h => by simp [storedByte] at h⟩
  | cons r rs ih =>
    rw [List.pairwise_cons] at hp
    have hc := hr r (by simp)
    obtain ⟨cs, hw⟩ := write_cached (s := s) hc
    have hst : s.store x r false f.holds f.late = { s.dieWrite die (r.a.key / 128) r.a.shared r.mask r.data false with cores := cs } := by
      have hwt : r.a.watched = false := by
        simp [Access.watched, Access.aside, hc.weak, hc.policy, hc.global]
      unfold State.store; rw [hc.home]; dsimp only; rw [hwt]; exact hw
    generalize hs1 : s.dieWrite die (r.a.key / 128) r.a.shared r.mask r.data false = s1 at hst
    have hdies : ∀ n, (s.store x r false f.holds f.late).die n = s1.die n := fun n => by rw [hst]; rfl
    have hby : ∀ n b, (s.store x r false f.holds f.late).dieByte n b = s1.dieByte n b := fun n b => dieByte_congr (by rw [hst]) (by rw [hst]) n b
    rw [List.foldl_cons]
    have hsec : ∀ k, k ≠ r.a.key / 128 → (s1.die die).sector? k = (s.die die).sector? k := by
      intro k hk
      rw [← hs1]
      by_cases hd : die < 9
      · unfold State.dieWrite
        rw [State.die_modDie _ _ _ hd]
        cases hz : (s.die die).sector? (r.a.key / 128) with
        | none => exact Die.sector?_setSector_other _ _ _ hk
        | some z => exact Die.sector?_setSector_other _ _ _ (by have := Die.sector?_key hz; simpa [this] using hk)
      · have hv : ∀ y, vset s.dies die y = s.dies := fun y => by simp [vset, hd]
        have hw : ∀ a b c d e, s.dieWrite die a b c d e = s := fun a b c d e => by unfold State.dieWrite State.modDie; rw [hv]
        rw [hw]
    obtain ⟨i1, i2, i3, i4, i5, i6⟩ := ih (s.store x r false f.holds f.late) (fun q hq => hr q (by simp [hq])) hp.2 fun q hq z hz => by
      rw [hdies, hsec _ (Ne.symm (hp.1 q hq))] at hz
      exact hs q (by simp [hq]) z hz
    have hscr : ∀ n, (s1.die n).scratch = (s.die n).scratch := by
      intro n
      rw [← hs1]
      unfold State.dieWrite
      by_cases hd : die < 9
      · by_cases e : die = n
        · subst e; rw [State.die_modDie _ _ _ hd]; split <;> rfl
        · rw [State.die_modDie_other _ _ _ _ e]
      · simp [State.modDie, State.die, vset, hd]
    refine ⟨i1.trans ?_, i2.trans ?_, i3.trans ?_, fun n => (i4 n).trans ?_, ?_, ?_⟩
    · rw [hst, ← hs1]; rfl
    · rw [hst, ← hs1]; rfl
    · rw [hst, ← hs1]; rfl
    · rw [hdies, hscr]
    · intro n b h
      by_cases hk : n = die ∧ r.a.key / 128 = b / 128
      · obtain ⟨rfl, hk⟩ := hk
        have hn : storedByte (r :: rs) b = none := by rcases h with h | h; exact absurd rfl h; exact h
        simp only [storedByte, List.find?_cons, hk, decide_true, Option.bind_some, ite_eq_right_iff, reduceCtorEq, imp_false] at hn
        have hno : storedByte rs b = none := by
          simp only [storedByte, Option.bind_eq_none_iff]
          intro q hq
          exact absurd (by simpa using List.find?_some hq) (by rw [← hk]; exact Ne.symm (hp.1 q (List.mem_of_find?_eq_some hq)))
        rw [i5 n b (.inr hno), hby, ← hs1]
        by_cases hd : n < 9
        · have e := dieByte_dieWrite_out s n (r.a.key / 128) r.a.shared r.mask r.data false hd (hs r (by simp)) (b % 128)
            (Nat.mod_lt _ (by decide)) (by simpa using hn)
          rwa [show 128 * (r.a.key / 128) + b % 128 = b by omega] at e
        · have hv : ∀ y, vset s.dies n y = s.dies := fun y => by simp [vset, hd]
          have hw : ∀ a b c d e, s.dieWrite n a b c d e = s := fun a b c d e => by unfold State.dieWrite State.modDie; rw [hv]
          rw [hw]
      · have hno : n ≠ die ∨ storedByte rs b = none := by
          by_cases e : n = die
          · right
            rcases h with h | h
            · exact absurd e h
            · have hk' : ¬ r.a.key / 128 = b / 128 := fun hh => hk ⟨e, hh⟩
              simpa only [storedByte, List.find?_cons, hk', decide_false] using h
          · exact .inl e
        rw [i5 n b hno, hby, ← hs1]
        exact dieByte_dieWrite_other _ _ _ _ _ _ _ _ _ (by
          by_cases e : n = die
          · exact .inr fun hh => hk ⟨e, hh.symm⟩
          · exact .inl e)
    · intro b c hd hb
      by_cases hk : r.a.key / 128 = b / 128
      · have hno : storedByte rs b = none := by
          simp only [storedByte, Option.bind_eq_none_iff]
          intro q hq
          exact absurd (by simpa using List.find?_some hq) (by rw [← hk]; exact Ne.symm (hp.1 q (List.mem_of_find?_eq_some hq)))
        rw [i5 die b (.inr hno), hby, ← hs1]
        simp only [storedByte, List.find?_cons, hk, decide_true, Option.bind_some] at hb
        split at hb
        · next hm =>
          cases hb
          have e := dieByte_dieWrite s die (r.a.key / 128) r.a.shared r.mask r.data false hd (b % 128) (Nat.mod_lt _ (by decide)) hm
          rwa [show 128 * (r.a.key / 128) + b % 128 = b by omega] at e
        · cases hb
      · exact i6 b c hd (by simpa only [storedByte, List.find?_cons, hk, decide_false] using hb)

end Sys2Proof.Machine
end

