-- ==== Sys2Proof/Tests/Slice0.lean ====
section
/-! SUPPORT. Tests: ill-formed terms that well-formedness refuses, words of the spec's worked examples, values of its examples, and states that meet the premises of the statements. -/

namespace Sys2Proof.Tests

set_option Elab.async false

open Sys2Proof Sys2Proof.Machine

/-! ## Words of the spec and what they decode to (R101 and the worked examples) -/

/-- Scheduling control with nothing set. -/
def plain : Sched := ⟨false, 0#6, false, false, false, false, false, 0#4⟩

/-- Fields with nothing set: guard true, operands absent. -/
def blank : Fields := ⟨0#4, ⟨false, 7#3⟩, .none, .none, .none, .none, 0#32, .none, 0#11, plain⟩

/-- `vadd.i32 v5, v4, 7 :: sw`: bytes 00 00 08 00 18 07 00 00 00 FF 03 4C 40 01 07 40. -/
theorem test_decode_vadd : decode false 0x400701404C03FF000000071800080000#128 =
    .ok (.vadd { blank with d := .vec 5#8, a := .vec 4#8, b := .immZ, imm := 7#32, ty := .i32, sc := { plain with sw := true } }) := by decide

/-- The word of R101: `vffma.f32` with guard `!p3`, `v10`, `v11`, `s5.lo`, `v12`, `RM` 010, `SW`, `YLD` and a delay of 2. -/
theorem test_decode_vffma : decode false 0x6B0B0280B5140C000000009200080820#128 =
    .ok (.vffma ⟨0#4, ⟨true, 3#3⟩, .vec 10#8, .vec 11#8, .sca .lo 5#6, .vec 12#8, 0#32, .f32, 0x200#11, ⟨true, 0#6, false, true, false, false, false, 2#4⟩⟩) := by decide

/-- The Morton word of R180: `vbitil.s3.b32 v20, v4, v5, v6`. -/
theorem test_decode_vbitil : decode false 0x5C170500401406000000004800000000#128 =
    .ok (.vbitil { blank with fn := 1#4, d := .vec 20#8, a := .vec 4#8, b := .vec 5#8, c := .vec 6#8, ty := .b32 }) := by decide

/-- `vclmul.b64 v26, v10, s10`. -/
theorem test_decode_vclmul : decode false 0x5E070680A42BFF000000005000000000#128 =
    .ok (.vclmul { blank with d := .vec 26#8, a := .vec 10#8, b := .sca .full 10#6, ty := .b64 }) := by decide

/-- `vfcvt.e4m3.f32.sr.sat v12, v8`. -/
theorem test_decode_vfcvt : decode false 0x770703008FFFFF00000000AD92000000#128 =
    .ok (.vfcvt { blank with d := .vec 12#8, a := .vec 8#8, ty := .e4m3, md := 0x592#11 }) := by decide

/-- `bra.not p3`, four words back. -/
theorem test_decode_bra : decode false 0xC017FFE03FFFFFFFFFFFFC0000000000#128 =
    .ok (.bra { blank with fn := 1#4, a := .pred 3#3, imm := 0xFFFFFFFC#32 }) := by decide

/-- `ld` of 4 bytes with `a2`, offset `v6`, displacement 64, device scope, acquire, `slk` 12. -/
theorem test_decode_ld : decode false 0x80070124201BFF000000404B83018000#128 =
    .ok (.ld { blank with d := .vec 4#8, a := .trans 2#3, b := .vec 6#8, imm := 0x40#32, ty := .b32, md := 0x383#11, sc := { plain with slk := 12#6 } }) := by decide

/-- A 16-byte `st` with guard `p1`, `a3`, offset `v6` and data `v24`. -/
theorem test_decode_st : decode false 0x8101FFE430181800000000000F000000#128 =
    .ok (.st { blank with g := ⟨false, 1#3⟩, a := .trans 3#3, b := .vec 6#8, c := .vec 24#8, md := 0x00F#11 }) := by decide

/-- `mma` into an `x96` accumulator: `m2`, `s4.lo`, `s5.lo`, `e4m3`, 64 columns. -/
theorem test_decode_mma : decode false 0x9017989445166200000000A900000000#128 =
    .ok (.mma { blank with fn := 1#4, d := .tile 2#5, a := .sca .lo 4#6, b := .sca .lo 5#6, c := .tile 2#5, ty := .e4m3, md := 0x100#11 }) := by decide

/-- `talloc.try.x96.c128 k2, m3`. -/
theorem test_decode_talloc : decode false 0xA01788A63FFFFF00000000E200000000#128 =
    .ok (.tallocTry { blank with fn := 1#4, d := .cond 2#3, a := .tile 3#5, ty := .x96, md := 0x200#11 }) := by decide

/-- `rshape.set.aff k2, v9`. -/
theorem test_decode_rshape : decode false 0xCF2788809FFFFF000000000000000000#128 =
    .ok (.rshapeSet { blank with fn := 2#4, d := .cond 2#3, a := .vec 9#8 }) := by decide

/-- `qtail s6, s7.lo :: slk=36`. -/
theorem test_decode_qtail : decode true 0xE207FFD0651FFF000000000000048000#128 =
    .ok (.qtail { blank with a := .sca .full 6#6, b := .sca .lo 7#6, sc := { plain with slk := 36#6 } }) := by decide

/-- `semup.pair.ens s3.lo, 1`. -/
theorem test_decode_semup : decode false 0xE807FFD43FFFFF000000010100000000#128 =
    .ok (.semup { blank with a := .sca .lo 3#6, imm := 1#32, md := 0x100#11 }) := by decide

/-- `seqwait.dev s7, s13.lo`. -/
theorem test_decode_seqwait : decode false 0xEC07FFD07537FF000000000300000000#128 =
    .ok (.seqwait { blank with a := .sca .full 7#6, b := .sca .lo 13#6, md := 0x300#11 }) := by decide

/-- The word of `brk 1` (R446). -/
theorem test_decode_brk : decode false 0xFF07FFFFFFFFFF000000010000000000#128 = .ok (.brk { blank with imm := 1#32 }) := by decide

/-- A scalar word written out from R66, R72 and R99: `sadd.i64 s3, s1, s2`. -/
theorem test_decode_sadd :
    decode false (0x01#8 ++ 0x0#4 ++ 0x7#4 ++ 0x103#10 ++ 0x101#10 ++ 0x102#10 ++ 0x3FF#10 ++ 0#32 ++ 0x04#5 ++ 0#11 ++ 0#4 ++ 0#20) =
    .ok (.sadd { blank with d := .sca .full 3#6, a := .sca .full 1#6, b := .sca .full 2#6, ty := .i64 }) := by decide

/-- A gang word written out: `gvote.any k1, p2`. -/
theorem test_decode_gvote :
    decode false (0xD0#8 ++ 0x0#4 ++ 0x7#4 ++ 0x221#10 ++ 0x202#10 ++ 0x3FF#10 ++ 0x3FF#10 ++ 0#32 ++ 0x00#5 ++ 0#11 ++ 0#4 ++ 0#20) =
    .ok (.gvote { blank with d := .cond 1#3, a := .pred 2#3 }) := by decide

/-! ## Ill-formed terms, one for each check -/

/-- R68, step 2: `FN` 1 of `sadd` is not defined. -/
theorem test_wf_fn : (Instr.sadd { blank with fn := 1#4, d := .sca .full 3#6, a := .sca .full 1#6, b := .sca .full 2#6, ty := .i64 }).wf false = false := by
  decide
/-- R72, R73: an unused position must be absent. -/
theorem test_wf_operand : (Instr.sadd { blank with d := .sca .full 3#6, a := .sca .full 1#6, b := .sca .full 2#6, c := .sca .full 2#6, ty := .i64 }).wf false = false := by
  decide
/-- R76: an odd register of a 64-bit type. -/
theorem test_wf_pair : (Instr.vadd { blank with d := .vec 5#8, a := .vec 4#8, b := .immZ, ty := .i64 }).wf false = false := by decide
/-- R168: a type that the instruction does not accept. -/
theorem test_wf_type : (Instr.sdiv { blank with d := .sca .full 3#6, a := .sca .full 1#6, b := .sca .full 2#6, ty := .b64 }).wf false = false := by
  decide
/-- R170: an `MD` bit that is not defined. -/
theorem test_wf_md : (Instr.sdiv { blank with d := .sca .full 3#6, a := .sca .full 1#6, b := .sca .full 2#6, ty := .i64, md := 1#11 }).wf false = false := by
  decide
/-- R98: three sources in one bank. -/
theorem test_wf_bank : (Instr.vmad { blank with d := .vec 1#8, a := .vec 8#8, b := .vec 16#8, c := .vec 24#8, ty := .i32 }).wf false = false := by decide
/-- R97: a vector instruction on a sequencer. -/
theorem test_wf_unit : (Instr.vadd { blank with d := .vec 5#8, a := .vec 4#8, b := .immZ, ty := .i32 }).wf true = false := by decide
/-- R28: there is no core 2,592. -/
theorem test_wf_core : (Instr.commandBegin 2592 0).wf false = false := by decide
/-- R13: there is no die 9. -/
theorem test_wf_die : (Instr.launchDeal 9 1).wf false = false := by decide
/-- R344: there is no queue 4,096. -/
theorem test_wf_queue : (Instr.queueDoorbell 4096 0#32).wf false = false := by decide
/-- R483: there is no context 1,024. -/
theorem test_wf_context : (Instr.contextEnd 1024).wf false = false := by decide
/-- R29: there is no register 256. -/
theorem test_wf_register : (Instr.slotDrowsy 0 0 256).wf false = false := by decide
/-- R28: there is no sequencer 54. -/
theorem test_wf_sequencer : (Instr.stealRequest 0 54).wf false = false := by decide
/-- R370: there is no mover slot 16. -/
theorem test_wf_mover : (Instr.moverCopy 0 16).wf false = false := by decide
/-- R389: port 23 has no pair. -/
theorem test_wf_pairRegister : (Instr.routeChangeEffect 23 0).wf false = false := by decide
/-- R17: there is no plane 12. -/
theorem test_wf_plane : (Instr.railLoss 0 1 12).wf false = false := by decide
/-- R491: a lane of a pair of one port with itself. -/
theorem test_wf_lane : (Instr.laneLossOfLock (.router 3 3 0)).wf false = false := by decide
/-- R486: there is no Utium port 48. -/
theorem test_wf_port : (Instr.utiumFlitReceive 48 true ⟨[]⟩).wf false = false := by decide
/-- R493: there is no Ethernet port 4. -/
theorem test_wf_ethernet : (Instr.ethernetFrameArrival 4 [] true false).wf false = false := by decide
/-- R31: there is no host link 2. -/
theorem test_wf_link : (Instr.hostLinkTrained 2).wf false = false := by decide
/-- R9: there is no memory chiplet 12. -/
theorem test_wf_chip : (Instr.correctableError 12).wf false = false := by decide
/-- R481: no register write is 16 bits wide. -/
theorem test_wf_width : (Instr.registerWrite 0 16 0#64).wf false = false := by decide
/-- A well-formed term is accepted. -/
theorem test_wf_accepts : (Instr.sadd { blank with d := .sca .full 3#6, a := .sca .full 1#6, b := .sca .full 2#6, ty := .i64 }).wf false = true := by
  decide

/-! ## Values that the spec works out -/

/-- R172: −7 by 2. -/
theorem test_sdiv_negative : (intDiv .i32 0xFFFFFFF9 2, intRem .i32 0xFFFFFFF9 2) = (0xFFFFFFFD, 0xFFFFFFFF) := by decide
/-- R172: 7 by 0. -/
theorem test_sdiv_zero : (intDiv .n32 7 0, intRem .n32 7 0) = (0xFFFFFFFF, 7) := by decide
/-- R171: the absolute value of the most negative `i32`, wrapped and saturated. -/
theorem test_vabs_corner : (intAbs .i32 0#11 0x80000000, intAbs .i32 0x080#11 0x80000000) = (0x80000000, 0x7FFFFFFF) := by decide
/-- R179: twelve bits from bit 8, as `n32` and as `i32`, and no bit written past the width. -/
theorem test_bfx : (bitBfx .n32 0xABCD1234 0x0C08, bitBfx .i32 0xABCD1234 0x0C08, bitBfi .b32 0 0x0420 0xFFFFFFFF) =
    (0x00000D12, 0xFFFFFD12, 0) := by decide
/-- R181: 3 by 5, and a product whose bit lies in the high half. -/
theorem test_clmul : (bitClmul 0 3 5, bitClmul 1 3 5, bitClmul 0 0x8000000000000000 2, bitClmul 1 0x8000000000000000 2) = (0xF, 0, 0, 1) := by
  decide +kernel
/-- R182: the index 0x8F031E05 on the table of bytes 0x11 × j, without and with `.z`. -/
theorem test_vperm : (bytePerm false 0x8F031E05 0xFFEEDDCCBBAA99887766554433221100, bytePerm true 0x8F031E05 0xFFEEDDCCBBAA99887766554433221100) =
    (0xFF33EE55, 0x0033EE55) := by decide
/-- R183: four products of 0x80 by 0x80 under `i8`. -/
theorem test_vdot4 : intDot4 .i8 0#11 0x80808080 0x80808080 0 = 65536 := by decide
/-- R180: the Morton code of 5, 3 and 6. -/
theorem test_morton : bitInterleave 32 3 5 3 6 = 0x173 := by decide


/-- The values of the narrow types that R119 gives: `e4m3` 1.0 and 2^-9, `e5m2` 1.0 and 57,344, each exactly as `f32`. -/
theorem test_narrow : [cvtFloat .e4m3 .f32 .rne false 0 0x38, cvtFloat .e4m3 .f32 .rne false 0 0x01, cvtFloat .e5m2 .f32 .rne false 0 0x3C,
    cvtFloat .e5m2 .f32 .rne false 0 0x7B] = [(0x3F800000, 0#5), (0x3B000000, 0#5), (0x3F800000, 0#5), (0x47600000, 0#5)] := by decide +kernel
/-- R201: `vfexp2` of 3.0 is 8.0 and `vflog2` of 0.125 is −3.0, with no flag. -/
theorem test_exp_log : (settleReal .f32 .rne 0 0 (expTwo (readAs .f32 0x40400000)), settleReal .f32 .rne 0 0 (logTwo (readAs .f32 0x3E000000))) =
    ((0x41000000, 0#5), (0xC0400000, 0#5)) := by decide +kernel
/-- R206: 200.5 to `i8` clamps and is invalid; −2.5 gives −2 and is inexact. -/
theorem test_cvti : (cvtToInt .f32 .i8 .rne false 0 0x43488000, cvtToInt .f32 .i8 .rne false 0 0xC0200000) = ((0x7F, flagNV), (0xFE, flagNX)) := by
  decide +kernel


/-! ## States that meet the premises of the statements -/

/-- A translation register for the page at `placeBase`. -/
def tTrans : Trans := ⟨0xFFFF#32, 0#2, 0#4, false, 7#3, true, 0x10000#52, 0x10000#56⟩

/-- A gang of 64 registers: `v4`, `v5` hold addresses four bytes apart, `v6` lane numbers, `v7` their multiples of four, `s1` an address, `s2` a small number and `a0` a translation. -/
def tGang : Gang :=
  let v := Gang.start 64 0x10000#56 0#2 0 0
  let r4 : VReg := { VReg.reset with lanes := Vector.ofFn fun l => BitVec.ofNat 32 (0x11000 + 4 * l.val) }
  let r6 : VReg := { VReg.reset with lanes := Vector.ofFn fun l => BitVec.ofNat 32 l.val }
  let r7 : VReg := { VReg.reset with lanes := Vector.ofFn fun l => BitVec.ofNat 32 (4 * l.val) }
  { v with
    vregs := setNth r7 (setNth r6 (setNth r4 v.vregs 4) 6) 7
    trans := v.trans.set 0 tTrans
    preds := v.preds.set 1 0xFFFF#32
    regs := { v.regs with s := (v.regs.s.set 1 0x11000#64).set 2 3#64 } }

/-- A team of that gang on core 0, with a window of 4 KiB. -/
def tTeam : Team := { Team.placed 1 0x10000#56 0 with gangs := [tGang], winSize := 4096 }

/-- A module whose gang 0 of team 1 issues, with the page at `placeBase` in its core's TLB. -/
def tState : State :=
  { State.reset with
    teams := [tTeam]
    cores := [{ Core.reset 0 with tlb := [⟨0, placeLeaf⟩] }]
    ctxs := [Ctx.reset 0]
    powered := true
    link0 := true
    start := { State.reset.start with ready := true }
    cur := some (.gang 1 0) }

/-- The state with its team changed. -/
def withTeam (f : Team → Team) : State := { tState with teams := [f tTeam] }
/-- The state with its gang changed. -/
def withGang (f : Gang → Gang) : State := withTeam fun t => { t with gangs := [f tGang] }
/-- The state with its core changed. -/
def withCore (f : Core → Core) : State := { tState with cores := tState.cores.map f }
/-- The state whose sequencer 0 issues. -/
def withSeq (f : Seq → Seq) : State :=
  { tState with
    seqs := [f { Seq.reset 0 with run := true, pc := 0x10000#56, tlb := [⟨0, placeLeaf⟩]
                                  regs := { (Seq.reset 0).regs with s := ((Seq.reset 0).regs.s.set 1 0x11000#64).set 2 3#64 } }]
    cur := some (.seq 0) }

/-- The instruction of opcode `op` and fields `w` is well formed. -/
def wordOk (seq : Bool) (op : BitVec 8) (w : Fields) : Bool := (Instr.ofOp op.toNat w).any fun i => i.wf seq

/-- A gang of `s` issues `w`, which is well formed, and its further premises hold of what it consults, of the gang and of the state after it has moved on. -/
def meets (s : State) (k : IssueKind) (op : BitVec 8) (w : Fields) (p : Exec → Gang → State → Bool) : Bool :=
  match execOf s (.gang 1 0) op w, s.gang? 1 0 with
  | some x, some v =>
    wordOk false op w && decide (s.cur = some (.gang 1 0) ∧ x.u = .gang 1 0 ∧ issueCheck k x (s.allocOf x.u) = none ∧ x.guard = true ∧
      (k.late = true → x.seq = false → (s.regsOf x.u).pending.length < 64) ∧ (k.memory = true → s.memoryWait x.u = none) ∧
      x.seq = false ∧ x.t = 1 ∧ x.g = 0) && p x v (moveOn x 16 s)
  | _, _ => false

/-- What `meets` says. -/
theorem meets_issues {s : State} {k : IssueKind} {op : BitVec 8} {w : Fields} {p : Exec → Gang → State → Bool} (h : meets s k op w p = true) :
    wordOk false op w = true ∧ ∃ x v, Issues s k op w x ∧ x.seq = false ∧ s.gang? x.t x.g = some v ∧ p x v (moveOn x 16 s) = true := by
  unfold meets at h
  split at h
  · next x v hx hv =>
    simp only [Bool.and_eq_true, decide_eq_true_eq] at h
    obtain ⟨⟨h0, h1, h2, h3, h4, h5, h6, h7, h8, h9⟩, h10⟩ := h
    exact ⟨h0, x, v, ⟨by rw [h2]; exact h1, by rw [h2]; exact hx, h3, h4, h5, h6⟩, h7, by rw [h8, h9]; exact hv, h10⟩
  · exact absurd h (by decide)

/-- A sequencer of `s` issues `w`, and its further premises hold. -/
def meetsSeq (s : State) (k : IssueKind) (op : BitVec 8) (w : Fields) (p : Exec → State → Bool) : Bool :=
  match execOf s (.seq 0) op w with
  | some x =>
    wordOk true op w && decide (s.cur = some (.seq 0) ∧ x.u = .seq 0 ∧ issueCheck k x (s.allocOf x.u) = none ∧ x.guard = true ∧
      (k.late = true → x.seq = false → (s.regsOf x.u).pending.length < 64) ∧ (k.memory = true → s.memoryWait x.u = none) ∧
      x.seq = true) && p x (moveOn x 16 s)
  | none => false

/-- What `meetsSeq` says. -/
theorem meetsSeq_issues {s : State} {k : IssueKind} {op : BitVec 8} {w : Fields} {p : Exec → State → Bool} (h : meetsSeq s k op w p = true) :
    wordOk true op w = true ∧ ∃ x, Issues s k op w x ∧ x.seq = true ∧ p x (moveOn x 16 s) = true := by
  unfold meetsSeq at h
  split at h
  · next x hx =>
    simp only [Bool.and_eq_true, decide_eq_true_eq] at h
    obtain ⟨⟨h0, h1, h2, h3, h4, h5, h6, h7⟩, h8⟩ := h
    exact ⟨h0, x, ⟨by rw [h2]; exact h1, by rw [h2]; exact hx, h3, h4, h5, h6⟩, h7, h8⟩
  · exact absurd h (by decide)

/-- A check passes with a result of which `p` holds. -/
def passes {α : Type} (r : State × Except Trap α) (p : State → α → Bool) : Bool :=
  match r with
  | (s, .ok a) => p s a
  | (_, .error _) => false

/-- A check fails. -/
def fails {α : Type} (r : State × Except Trap α) : Bool :=
  match r with
  | (_, .ok _) => false
  | (_, .error _) => true

/-- An ordering effect completes with a state of which `p` holds. -/
def then_ {ε : Type} (r : Except ε State) (p : State → Bool) : Bool :=
  match r with
  | .ok s => p s
  | .error _ => false

/-! ### Arithmetic -/

/-- `sadd.i64 s3, s1, s2`. -/
def wSadd : Fields := { blank with d := .sca .full 3#6, a := .sca .full 1#6, b := .sca .full 2#6, ty := .i64 }
theorem witness_scalarForms : (scalarForm (.sadd wSadd)).isSome = true ∧ meets tState kindPlain 0x01#8 wSadd (fun x _ _ =>
    !(tState.scalarSrc x wSadd.a .i64).2 && !(tState.scalarSrc x wSadd.b .i64).2 && !(tState.scalarSrc x wSadd.c .i64).2) = true := by decide +kernel
/-- `sdiv.i64` and `srem.i64` of the same sources. -/
theorem witness_division : [0x05#8, 0x06#8].all (fun op => meets tState kindPlain op wSadd (fun x _ _ =>
    !(tState.scalarSrc x wSadd.a .i64).2 && !(tState.scalarSrc x wSadd.b .i64).2 && !(tState.scalarSrc x wSadd.c .i64).2)) = true := by decide +kernel
theorem witness_scalarForms_seq : meetsSeq (withSeq id) kindPlain 0x01#8 wSadd (fun x _ =>
    !((withSeq id).scalarSrc x wSadd.a .i64).2 && !((withSeq id).scalarSrc x wSadd.b .i64).2 && !((withSeq id).scalarSrc x wSadd.c .i64).2) = true := by
  decide +kernel
/-- `sli s3, 7`. -/
theorem witness_sli : meets tState kindPlain 0x13#8 { blank with d := .sca .full 3#6, a := .immZ, imm := 7#32 } (fun _ _ _ => true) = true := by
  decide +kernel
/-- `sfadd.f64 s3, s1, s2`. -/
def wSfadd : Fields := { wSadd with ty := .f64 }
theorem witness_scalarFloat : (scalarFloat (.sfadd wSfadd)).isSome = true ∧ meets tState kindPlain 0x18#8 wSfadd (fun x _ _ =>
    !(tState.scalarSrc x wSfadd.a .f64).2 && !(tState.scalarSrc x wSfadd.b .f64).2 && !(tState.scalarSrc x wSfadd.c .none).2) = true := by decide +kernel
/-- Sources without poison in the lanes that take part. -/
def clean (s : State) (x : Exec) (v : Gang) (l : List (Operand × Ty)) : Bool :=
  l.all fun p => ((s.env x v).src p.1 p.2).poison &&& (s.env x v).x.part = 0#32
/-- `vadd.i32 v8, v4, v6`. -/
def wVadd : Fields := { blank with d := .vec 8#8, a := .vec 4#8, b := .vec 6#8, ty := .i32 }
theorem witness_vectorForms : (vectorForm (.vadd wVadd)).isSome = true ∧
    meets tState kindPlain 0x40#8 wVadd (fun x v _ => clean tState x v [(wVadd.a, .i32), (wVadd.b, .i32), (wVadd.c, .i32)]) = true := by decide +kernel
/-- `vcmp.i32 p2, v4, v6`. -/
def wVcmp : Fields := { wVadd with d := .pred 2#3 }
theorem witness_vectorTests : (testForm (.vcmp wVcmp)).isSome = true ∧
    meets tState kindPlain 0x51#8 wVcmp (fun x v _ => clean tState x v [(wVcmp.a, .i32), (wVcmp.b, .i32), (wVcmp.c, .n32)]) = true := by decide +kernel
/-- `plog p2, p1, p3, p4`. -/
theorem witness_plog : meets tState kindPlain 0x62#8 { blank with d := .pred 2#3, a := .pred 1#3, b := .pred 3#3, c := .pred 4#3, imm := 0x80#32 }
    (fun _ _ _ => true) = true := by decide +kernel
/-- `vperm.b32 v12, v7, v8`. -/
def wVperm : Fields := { blank with d := .vec 12#8, a := .vec 7#8, b := .vec 8#8, ty := .b32 }
theorem witness_vperm : meets tState kindPlain 0x5F#8 wVperm (fun x v _ => clean tState x v [(wVperm.a, .n32)] &&
    ((tState.env x v).table wVperm.b).poison &&& x.part = 0#32) = true := by decide +kernel
/-- `vaddc.n32 v8, v4, v6, p1`. -/
def wVaddc : Fields := { wVadd with c := .pred 1#3, ty := .n32 }
theorem witness_vaddc : meets tState kindPlain 0x61#8 wVaddc (fun x v _ => clean tState x v [(wVaddc.a, .n32), (wVaddc.b, .n32)]) = true := by decide +kernel
/-- `vfadd.f32 v8, v4, v6`. -/
def wVfadd : Fields := { wVadd with ty := .f32 }
theorem witness_floatForms : ((floatForm (.vfadd wVfadd)).map (·.late)) = some false ∧
    meets tState kindPlain 0x68#8 wVfadd (fun x v _ => clean tState x v [(wVfadd.a, .f32), (wVfadd.b, .f32), (wVfadd.c, .none)]) = true := by decide +kernel
/-- `vfrcp.f32 v8, v4`. -/
def wVfrcp : Fields := { blank with d := .vec 8#8, a := .vec 4#8, ty := .f32 }
theorem witness_lateFloat : ((floatForm (.vfrcp wVfrcp)).map (·.late)) = some true ∧
    meets tState kindVariable 0x71#8 wVfrcp (fun x v _ => clean tState x v [(wVfrcp.a, .f32), (wVfrcp.b, .none), (wVfrcp.c, .none)]) = true := by decide +kernel

/-! ### Control flow -/

/-- A word whose only operand is `a` with its immediate. -/
def wOne (a : Operand) (imm : BitVec 32) (fn : BitVec 4) : Fields := { blank with a := a, imm := imm, fn := fn }
/-- `bra p3, 4` of a gang, on a condition that no lane holds. -/
theorem witness_bra : meets tState kindPlain 0xC0#8 (wOne (.pred 3#3) 4#32 0#4) (fun x _ _ => !splitQuad x (tState.condition x (.pred 3#3))) = true := by
  decide +kernel
theorem witness_bra_seq : meetsSeq (withSeq id) kindPlain 0xC0#8 (wOne (.cond 1#3) 4#32 1#4)
    (fun x _ => !splitQuad x ((withSeq id).condition x (.cond 1#3))) = true := by decide +kernel
/-- `bra p4, 4` where the lanes of quad 0 disagree. -/
def sSplit : State := withGang fun v => { v with preds := v.preds.set 4 1#32 }
theorem witness_bra_split : meets sSplit kindPlain 0xC0#8 (wOne (.pred 4#3) 4#32 0#4) (fun x _ _ => splitQuad x (sSplit.condition x (.pred 4#3))) = true := by
  decide +kernel
theorem witness_brq : meets sSplit kindPlain 0xC1#8 (wOne (.pred 4#3) 4#32 3#4) (fun _ _ _ => true) = true := by decide +kernel
theorem witness_regang : meets tState kindPlain 0xC5#8 (wOne .none 5#32 0#4) (fun x v _ => !((v.moved x 16).waitAt x.quads x.pc 5#32).rejoinClash) = true := by
  decide +kernel
theorem witness_exit : meets sSplit kindPlain 0xC6#8 (wOne (.pred 4#3) 0#32 0#4) (fun x v _ =>
    let u := (v.moved x 16).dropLanes (x.sub &&& sSplit.condition x (.pred 4#3))
    (u.live != 0#32 || !v.handler.any terminal) && !u.rejoinClash) = true := by decide +kernel
theorem witness_exit_seq : meetsSeq (withSeq id) kindPlain 0xC6#8 (wOne .none 0#32 0#4) (fun _ _ => true) = true := by decide +kernel
theorem witness_nop : meets tState kindPlain 0xC7#8 blank (fun _ _ _ => true) = true := by decide +kernel
/-- A state whose quads have their call stacks in the page. -/
def sStack : State := withGang fun v => { v with quads := mapQuads v.quads fun q u => { u with csp := BitVec.ofNat 64 (0x11800 + 8 * q.val) } }
theorem witness_call : meets sStack kindStack 0xC2#8 (wOne .none 4#32 0#4) (fun x _ m => m.stackFault x accWrite = none &&
    passes (m.checkStack x accWrite ((actingQuads x).map fun q => (q, (m.cspOf x q - 8#64).toNat))) (fun _ as => as.length = 8)) = true := by decide +kernel
theorem witness_ret : meets sStack kindStack 0xC3#8 blank (fun x _ m => m.stackFault x accRead = none &&
    passes (m.checkStack x accRead ((actingQuads x).map fun q => (q, (m.cspOf x q).toNat))) (fun s1 as =>
      let r := s1.readLanes as []
      as.all (fun p => !s1.awaitsOwn x p.2) && (as.zip r.2).all (fun p => !p.2.2.2) && r.2.all fun p => p.2.1 % 16 = 0)) = true := by decide +kernel
/-- `btab` with a list of one entry, 0, and `v10:v11` holding 0 in every lane. -/
def wBtab (fn : BitVec 4) : Fields := wOne (.vec 10#8) 1#32 fn
/-- The premises of a table branch. -/
def btabOk (w : Fields) (x : Exec) (v : Gang) (m : State) (p : (Fin 8 → BitVec 56) → State → Bool) : Bool :=
  let a := (sStack.env x v).src w.a .b64
  let first := fun q : Fin 8 => Fin.ofNat 32 (lowest (x.sub &&& quadLanes (1#8 <<< q.val)))
  let target := fun q : Fin 8 => BitVec.ofNat 56 (a.val (first q))
  decide (a.poison &&& x.sub = 0#32) && (List.finRange 32).all (fun l => !x.sub.getLsbD l || a.val l = a.val (first (Fin.ofNat 8 (l.val / 4)))) &&
    passes (m.listWords x ((btabCount w + 1) / 2) 0 []) fun s1 ws =>
      (actingQuads x).all (fun q => (listEntries (btabCount w) ws).contains (target q) && (target q).extractLsb' 0 4 = 0#4) && p target s1
theorem witness_btab : meets sStack kindStack 0xC4#8 (wBtab 0#4) (fun x v _ =>
    btabOk (wBtab 0#4) x v (moveOn x (btabLength (wBtab 0#4)) sStack) fun _ _ => true) = true := by decide +kernel
theorem witness_btab_call : meets sStack kindStack 0xC4#8 (wBtab 1#4) (fun x v _ =>
    btabOk (wBtab 1#4) x v (moveOn x (btabLength (wBtab 1#4)) sStack) fun target s1 =>
      then_ (pushJump x (x.pc + BitVec.ofNat 56 (btabLength (wBtab 1#4))) target s1) fun _ => true) = true := by decide +kernel

/-! ### Traps and special registers -/

/-- A state whose team has a trap vector. -/
def sVec : State := withTeam fun t => { t with trapvec := 0x12000#64 }
/-- A state whose gang is in its handler of trap `code`. -/
def sIn (code : BitVec 8) : State := withGang fun v => { v with handler := some code, quads := mapQuads v.quads fun _ q => { q with trapped := true } }
/-- A context under debug. -/
def sDebug : State := { tState with ctxs := [{ Ctx.reset 0 with dbg := true }] }
theorem witness_trap : meets sVec kindPlain 0xC8#8 (wOne .none 9#32 0#4) (fun x v _ =>
    v.handler = none && (sVec.team? x.t).any (fun tm => tm.trapvec ≠ 0#64) && decide (v.emul &&& x.quads = 0#8 ∧ v.regs.pending = [])) = true := by decide +kernel
theorem witness_brk : meets sVec kindPlain 0xFF#8 (wOne .none 9#32 0#4) (fun x v _ => !sVec.debugged x.t v && v.handler = none &&
    (sVec.team? x.t).any (fun tm => tm.trapvec ≠ 0#64) && decide (v.emul &&& x.quads = 0#8 ∧ v.regs.pending = [])) = true := by decide +kernel
/-- The state with a result outstanding. -/
def sLate : State :=
  { sVec with teams := [{ tTeam with trapvec := 0x12000#64
                                     gangs := [{ tGang with regs := { tGang.regs with pending := [⟨0, [], [], [], [], 0#5, .none⟩] } }] }] }
theorem witness_trap_held : meets sLate kindPlain 0xC8#8 (wOne .none 9#32 0#4) (fun x v _ =>
    v.handler = none && (sLate.team? x.t).any (fun tm => tm.trapvec ≠ 0#64) && decide (v.emul &&& x.quads = 0#8 ∧ v.regs.pending ≠ [])) = true := by decide +kernel
theorem witness_trap_ignored : meets tState kindPlain 0xC8#8 blank (fun x _ _ => tState.trapIgnored x false) = true ∧
    meetsSeq (withSeq id) kindPlain 0xFF#8 blank (fun x _ => (withSeq id).trapIgnored x true) = true := by decide +kernel
theorem witness_trap_seq : meetsSeq (withSeq fun q => { q with trapvec := 0x12000#64 }) kindPlain 0xC8#8 blank (fun x _ =>
    decide (x.u = .seq 0) && !(withSeq fun q => { q with trapvec := 0x12000#64 }).trapIgnored x false) = true := by decide +kernel
theorem witness_brk_debug : meets sDebug kindPlain 0xFF#8 blank (fun x v _ => decide (v.regs.pending = []) && sDebug.debugged x.t v) = true := by decide +kernel
theorem witness_trapret : terminal 1#8 = false ∧ meets (sIn 1#8) kindPlain 0xC9#8 { blank with fn := 2#4 } (fun _ v _ =>
    decide (v.regs.trappc.extractLsb' 0 4 = 0#4) && v.handler = some 1#8 && !displacedBad v.displaced) = true := by decide +kernel
/-- A gang in its handler, with a saved program counter and a displaced word. -/
def sBack (pc : W64) (word : W128) : State := withGang fun v =>
  { v with handler := some 1#8, displaced := word, quads := mapQuads v.quads fun _ q => { q with trapped := true }, regs := { v.regs with trappc := pc } }
theorem witness_trapret_traps : meets (sBack 0x10008#64 0#128) kindPlain 0xC9#8 blank (fun _ v _ =>
      v.handler = some 1#8 && decide ((v.regs.trappc.extractLsb' 0 56).extractLsb' 0 4 ≠ 0#4)) = true ∧
    meets (sBack 0x10010#64 0xFF07FFFFFFFFFF000000010000000000#128) kindPlain 0xC9#8 { blank with fn := 2#4 } (fun _ v _ =>
      v.handler = some 1#8 && decide ((v.regs.trappc.extractLsb' 0 56).extractLsb' 0 4 = 0#4) && displacedBad v.displaced) = true := by decide +kernel
theorem witness_trapret_seq : meetsSeq (withSeq fun q => { q with handler := some 1#8 }) kindPlain 0xC9#8 { blank with fn := 2#4 } (fun x _ =>
    let q := (withSeq fun q => { q with handler := some 1#8 }).seq x.cluster
    q.handler = some 1#8 && !displacedBad q.displaced && decide ((q.regs.trappc.extractLsb' 0 56).extractLsb' 0 4 = 0#4)) = true := by decide +kernel
theorem witness_trapret_outside : meets tState kindPlain 0xC9#8 blank (fun x _ _ => !x.priv) = true := by decide +kernel
/-- `mfsr s3` of special register `i`. -/
def wMfsr (i : BitVec 32) : Fields := { blank with d := .sca .full 3#6, imm := i }
/-- `mtsr s2` of special register `i`. -/
def wSpec (i : BitVec 32) : Fields := { blank with a := .sca .full 2#6, imm := i }
theorem witness_mfsr : meets tState kindPlain 0xCA#8 (wMfsr 0x11#32) (fun _ _ _ => true) = true ∧
    meetsSeq (withSeq id) kindPlain 0xCA#8 (wMfsr 0x17#32) (fun _ _ => true) = true := by decide +kernel
theorem witness_mtsr : meets tState kindPlain 0xCB#8 (wSpec 0x11#32) (fun x _ _ => !(tState.scalarSrc x (.sca .full 2#6) (specialTy 0x11)).2) = true ∧
    meets tState kindPlain 0xCB#8 (wSpec 0x12#32) (fun x _ _ => !(tState.scalarSrc x (.sca .full 2#6) (specialTy 0x12)).2) = true ∧
    meets tState kindPlain 0xCB#8 (wSpec 0x10#32) (fun x _ _ => !(tState.scalarSrc x (.sca .full 2#6) (specialTy 0x10)).2) = true ∧
    ([0x13#32, 0x14#32, 0x20#32].all fun i => meets tState kindPlain 0xCB#8 (wSpec i) fun x _ _ =>
      !(tState.scalarSrc x (.sca .full 2#6) (specialTy i.toNat)).2) = true := by decide +kernel
/-- A sequencer in its handler. -/
def sSeqIn : State := withSeq fun q => { q with handler := some 1#8 }
theorem witness_mtsr_seq : ([0x13#32, 0x14#32, 0x17#32, 0x20#32].all fun i => meetsSeq sSeqIn kindPlain 0xCB#8 (wSpec i) fun x _ =>
      x.priv && !(sSeqIn.scalarSrc x (.sca .full 2#6) (specialTy i.toNat)).2) = true := by decide +kernel
theorem witness_mtsr_trapvec : meets (sIn 1#8) kindPlain 0xCB#8 (wSpec 0x17#32) (fun x _ _ =>
      x.priv && !((sIn 1#8).scalarSrc x (.sca .full 2#6) (specialTy 0x17)).2) = true ∧
    meets tState kindPlain 0xCB#8 (wSpec 0x17#32) (fun x _ _ => !x.priv) = true := by decide +kernel
theorem witness_icinv : meets tState kindPlain 0xCC#8 blank (fun _ _ _ => true) = true ∧
    meets (sIn 1#8) ⟨true, false, false, false, false⟩ 0xCC#8 { blank with fn := 1#4 } (fun _ _ _ => true) = true := by decide +kernel
theorem witness_icinv_outside : tState.cur = some (.gang 1 0) ∧
    (execOf tState (.gang 1 0) 0xCC#8 { blank with fn := 1#4 }).any (fun x => decide (tState.cur = some x.u) && !x.priv) = true := by decide +kernel

/-! ### Registers, shapes and gang instructions -/

theorem witness_rgrow : meets tState kindPlain 0xCD#8 { blank with a := .immZ, imm := 16#32 } (fun x _ _ => decide (tState.allocOf x.u + 16 ≤ 256)) = true ∧
    meets tState kindPlain 0xCD#8 { blank with a := .immZ, imm := 200#32 } (fun x _ _ => decide (256 < tState.allocOf x.u + 200)) = true := by decide +kernel
theorem witness_rshrink : meets tState kindPlain 0xCE#8 { blank with a := .immZ, imm := 56#32 } (fun x _ _ => decide (56 + 8 ≤ tState.allocOf x.u)) = true ∧
    meets tState kindPlain 0xCE#8 { blank with a := .immZ, imm := 64#32 } (fun x _ _ => decide (tState.allocOf x.u < 64 + 8)) = true := by decide +kernel
theorem witness_rshape : meets tState kindPlain 0xCF#8 { blank with d := .sca .full 3#6, a := .vec 6#8 } (fun _ _ _ => true) = true ∧
    meets tState kindPlain 0xCF#8 { blank with d := .cond 1#3, a := .vec 6#8, fn := 2#4 } (fun _ _ _ => true) = true := by decide +kernel
theorem witness_gvote : meets tState kindGang 0xD0#8 { blank with d := .sca .full 3#6, a := .pred 1#3, fn := 2#4 } (fun _ _ _ => true) = true := by decide +kernel
/-- `gshfl`, `gbcast` and the like of `v6` with `v6` or an immediate. -/
def wG (ty : Ty) (fn : BitVec 4) : Fields := { blank with d := .vec 9#8, a := .vec 6#8, b := .vec 6#8, ty := ty, fn := fn }
theorem witness_gshfl : meets tState kindGang 0xD1#8 (wG .b32 0#4) (fun x v _ =>
    decide (((tState.env x v).src (.vec 6#8) .b32).poison = 0#32 ∧ ((tState.env x v).src (.vec 6#8) .n32).poison = 0#32)) = true := by decide +kernel
theorem witness_gscan : meets tState kindGang 0xD2#8 { wG .i32 1#4 with b := .none } (fun x v _ =>
    decide (((tState.env x v).src (.vec 6#8) .i32).poison &&& (tState.env x v).takers = 0#32)) = true := by decide +kernel
theorem witness_greduce : meets tState kindGang 0xD3#8 { wG .i32 0#4 with b := .none } (fun x v _ =>
    decide (((tState.env x v).src (.vec 6#8) .i32).poison &&& (tState.env x v).takers = 0#32)) = true := by decide +kernel
theorem witness_gbcast : meets tState kindGang 0xD4#8 { wG .b32 0#4 with b := .immZ, imm := 5#32 } (fun x v _ =>
    decide (((tState.env x v).src (.vec 6#8) .b32).poison = 0#32 ∧ ((tState.env x v).src .immZ .n32).poison = 0#32)) = true := by decide +kernel
theorem witness_bar : meets tState { kindPlain with conv := true } 0xD5#8 { blank with imm := 3#32, fn := 1#4 } (fun _ _ _ => true) = true := by decide +kernel

/-! ### Memory -/

/-- The state that a gang instruction has after it has moved on, and its environment there. -/
def envAt (x : Exec) (v : Gang) (m : State) : Env := m.env x (v.moved x 16)
/-- `ld.b32 v8, a0, v7`, with addresses in the page. -/
def wLd : Fields := { blank with d := .vec 8#8, a := .trans 0#3, b := .vec 7#8, ty := .b32, md := 3#11 }
/-- `ldg.b32.remote v8, v4:v5` at device scope. -/
def wLdg : Fields := { blank with fn := 1#4, d := .vec 8#8, a := .vec 4#8, ty := .b32, md := 0x383#11 }
/-- The premises of a global load. -/
def loadOk (w : Fields) (x : Exec) (v : Gang) (m : State) (p : State → List (Point × Access) → Bool) : Bool :=
  passes ((envAt x v m).accesses m accRead (mdBytes w.md) (mdBytes w.md) []) fun s1 as =>
    as.length = 32 && as.all (fun q => !s1.awaitsOwn x q.2) && p s1 as
theorem witness_ld : meets tState (kindMem false true) 0x80#8 wLd (fun x v m =>
    loadOk wLd x v m fun s1 _ => then_ ((effectsOf true wLd.md).before x s1) fun _ => true) = true := by decide +kernel
theorem witness_ldg : meets tState (kindMem false true) 0x8E#8 wLdg (fun x v m =>
    loadOk wLdg x v m fun s1 _ => then_ ((effectsOf true wLdg.md).before x s1) fun _ => true) = true := by decide +kernel
/-- `ld.b32 v8, a0, v6`, whose addresses are not aligned. -/
theorem witness_ld_fails : meets tState (kindMem false true) 0x80#8 { wLd with b := .vec 6#8 } (fun x v m =>
    fails ((envAt x v m).accesses m accRead 4 4 [])) = true := by decide +kernel
/-- `st.b32 a0, v7, v6`. -/
def wSt : Fields := { blank with a := .trans 0#3, b := .vec 7#8, c := .vec 6#8, ty := .b32, md := 3#11 }
/-- `stg.b32 v4:v5, v6`. -/
def wStg : Fields := { blank with a := .vec 4#8, c := .vec 6#8, ty := .b32, md := 3#11 }
theorem witness_st : meets tState (kindMem false false) 0x81#8 wSt (fun x v m =>
    passes ((envAt x v m).accesses m accWrite 4 4 [(wSt.c, ((envAt x v m).data wSt.c 4).poison)]) fun s1 as => as.length = 32 &&
      then_ ((effectsOf false wSt.md).before x s1) fun _ => true) = true := by decide +kernel
theorem witness_stg : meets tState (kindMem false false) 0x8F#8 wStg (fun x v m =>
    passes ((envAt x v m).accesses m accWrite 4 4 [(wStg.c, ((envAt x v m).data wStg.c 4).poison)]) fun s1 as => as.length = 32 &&
      then_ ((effectsOf false wStg.md).before x s1) fun _ => true) = true := by decide +kernel
theorem witness_st_fails : meets tState (kindMem false false) 0x81#8 { wSt with b := .vec 6#8 } (fun x v m =>
    fails ((envAt x v m).accesses m accWrite 4 4 [(wSt.c, ((envAt x v m).data wSt.c 4).poison)])) = true := by decide +kernel
/-- `sld.u64 s3, s1`. -/
def wSld : Fields := { blank with d := .sca .full 3#6, a := .sca .full 1#6, ty := .b64, md := 7#11 }
theorem witness_sld : meets tState (kindMem true true) 0x84#8 wSld (fun x _ m => let r := tState.regsOf x.u
    !r.taint wSld.a && passes (m.checkGlobal x accRead 8 8 [scalarPoint x r]) fun s1 as =>
      as.all (fun p => !s1.awaitsOwn x (p.2.withMd wSld.md)) && then_ ((effectsOf true wSld.md).before x s1) fun _ => true) = true := by decide +kernel
theorem witness_sld_seq : meetsSeq (withSeq id) (kindMem true true) 0x84#8 wSld (fun x m => let r := (withSeq id).regsOf x.u
    !r.taint wSld.a && passes (m.checkGlobal x accRead 8 8 [scalarPoint x r]) fun s1 as =>
      as.all (fun p => !s1.awaitsOwn x (p.2.withMd wSld.md)) && then_ ((effectsOf true wSld.md).before x s1) fun _ => true) = true := by decide +kernel
theorem witness_sld_fails : meets tState (kindMem true true) 0x84#8 { wSld with a := .sca .full 2#6 } (fun x _ m => let r := tState.regsOf x.u
    !r.taint (.sca .full 2#6) && fails (m.checkGlobal x accRead 8 8 [scalarPoint x r])) = true := by decide +kernel
/-- `sst.u64 s1, s2`. -/
def wSst : Fields := { blank with a := .sca .full 1#6, c := .sca .full 2#6, ty := .b64, md := 7#11 }
theorem witness_sst : meets tState (kindMem true false) 0x85#8 wSst (fun x _ m => let r := tState.regsOf x.u
    !r.taint wSst.a && !r.taint wSst.c && passes (m.checkGlobal x accWrite 8 8 [scalarPoint x r]) fun s1 _ =>
      then_ ((effectsOf false wSst.md).before x s1) fun _ => true) = true := by decide +kernel
theorem witness_sst_fails : meets tState (kindMem true false) 0x85#8 { wSst with a := .sca .full 2#6 } (fun x _ m => let r := tState.regsOf x.u
    !r.taint (.sca .full 2#6) && !r.taint wSst.c && fails (m.checkGlobal x accWrite 8 8 [scalarPoint x r])) = true := by decide +kernel
/-- `ldsp.n8 v8, v6`. -/
def wLsp : Fields := { blank with d := .vec 8#8, b := .vec 6#8, ty := .n8, md := 0#11 }
/-- `stsp.n8 v6, v6`. -/
def wSsp : Fields := { blank with b := .vec 6#8, c := .vec 6#8, ty := .n8, md := 0#11 }
/-- The checks of a window access, twice, and what it fills. -/
def windowOk (w : Fields) (wr : Bool) (x : Exec) (v : Gang) (m : State) : Bool :=
  let e := envAt x v m
  passes (m.checkWindow x wr (mdBytes w.md) (m.windowTeam e) e.offsets) fun s1 _ =>
    passes (s1.checkWindow x wr (mdBytes w.md) (s1.windowTeam e) e.offsets) fun s2 a =>
      (s1.windowTeam e).any fun tm => ((s2.fillAll (s2.stampOf x) tm.tid a.1 a.2).team? tm.tid).isSome
theorem witness_ldsp : meets tState (kindMem false true) 0x82#8 wLsp (fun x v m => !(effectsOf true wLsp.md).rel && !(effectsOf true wLsp.md).acq &&
    consumeLanes x.part (envAt x v m).windowSources = none && windowOk wLsp false x v m) = true := by decide +kernel
/-- `ldsp.n8 v8, v4`, outside the window. -/
theorem witness_ldsp_fails : meets tState (kindMem false true) 0x82#8 { wLsp with b := .vec 4#8 } (fun x v m => let e := envAt x v m
    consumeLanes x.part e.windowSources = none && fails (m.checkWindow x false 1 (m.windowTeam e) e.offsets)) = true := by decide +kernel
theorem witness_stsp : meets tState (kindMem false false) 0x83#8 wSsp (fun x v m => let e := envAt x v m
    !(effectsOf false wSsp.md).rel && !(effectsOf false wSsp.md).acq &&
    consumeLanes x.part (e.windowSources ++ [(wSsp.c, (e.data wSsp.c 1).poison)]) = none && windowOk wSsp true x v m) = true := by decide +kernel
theorem witness_stsp_fails : meets tState (kindMem false false) 0x83#8 { wSsp with b := .vec 4#8 } (fun x v m => let e := envAt x v m
    consumeLanes x.part (e.windowSources ++ [(wSsp.c, (e.data wSsp.c 1).poison)]) = none &&
      fails (m.checkWindow x true 1 (m.windowTeam e) e.offsets)) = true := by decide +kernel
/-- `xlate a1, s1`. -/
def wXlate : Fields := { blank with d := .trans 1#3, a := .sca .full 1#6 }
/-- A translation that was found. -/
def found (s : State) (r : State × Look) : Bool :=
  match r.2 with
  | .leaf l => r.1.lit l.cc && s.lit l.cc
  | _ => false
/-- A translation that does not exist. -/
def missing (r : State × Look) : Bool :=
  match r.2 with
  | .absent => true
  | _ => false
theorem witness_xlate : meets tState (kindMem true true) 0x86#8 wXlate (fun x _ m => let r := tState.regsOf x.u
    !r.taint wXlate.a && decide ((scalarPoint x r).va.toNat < 2 ^ 56) && found m (m.look x (scalarPoint x r).va.toNat)) = true := by decide +kernel
theorem witness_xlate_absent : meets tState (kindMem true true) 0x86#8 { wXlate with a := .sca .full 2#6 } (fun x _ m => let r := tState.regsOf x.u
    decide ((scalarPoint x r).va.toNat < 2 ^ 56) && missing (m.look x (scalarPoint x r).va.toNat)) = true := by decide +kernel
/-- A state whose `s2` is past the address space. -/
def sFar : State := withGang fun v => { v with regs := { v.regs with s := v.regs.s.set 2 (BitVec.ofNat 64 (2 ^ 56)) } }
theorem witness_xlate_far : meets sFar (kindMem true true) 0x86#8 { wXlate with a := .sca .full 2#6 } (fun x _ _ =>
    decide (2 ^ 56 ≤ (scalarPoint x (sFar.regsOf x.u)).va.toNat)) = true := by decide +kernel
/-- A state with `s2` 0, `s3` 128 and stash slot 1 mapped to the page. -/
def sMap : State := withTeam fun t =>
  { t with gangs := [{ tGang with regs := { tGang.regs with s := (tGang.regs.s.set 2 0#64).set 3 128#64 } }]
           stash := t.stash.set 1 (some ⟨256, 0x11100#64, 128⟩) }
/-- `stmap slot fn, s2, s1, s3`. -/
def wMap (fn : BitVec 4) : Fields := { blank with a := .sca .lo 2#6, b := .sca .full 1#6, c := .sca .lo 3#6, fn := fn }
theorem witness_stmap : meets sMap (kindMem true false) 0x87#8 (wMap 1#4) (fun x _ m => let r := sMap.regsOf x.u
    decide ((r.bits (.sca .lo 2#6)).toNat = 0 ∧ (r.bits (.sca .full 1#6)).toNat = 0x11000 ∧ (r.bits (.sca .lo 3#6)).toNat = 128) &&
    (sMap.team? x.t).any (fun tm => decide (128 ≤ tm.winSize ∧ ∀ j < 4, j ≠ 1 → ∀ p, vget tm.stash j none = some p → overlap 0 128 p.w p.n = false) &&
      (match m.probePages x (pagesOf 0x11000 128) none with
       | (s1, none) => !s1.lockedWindow x.core x.t 0 128 true && !s1.lockedWindow x.core x.t 256 128 true &&
           then_ (s1.stashBackAll x true 0#3 x.t (tm.dirtySectors fun p => some p = some ⟨256, 0x11100#64, 128⟩)) fun _ => true
       | _ => false))) = true := by decide +kernel
/-- With a count of 0 the slot is unmapped, and no entry of the table meets the empty range. -/
theorem witness_stmap_unmap : meets sMap (kindMem true false) 0x87#8 { wMap 1#4 with c := .sca .lo 2#6 } (fun x _ m => let r := sMap.regsOf x.u
    decide ((r.bits (.sca .lo 2#6)).toNat = 0 ∧ (r.bits (.sca .full 1#6)).toNat = 0x11000) && (sMap.team? x.t).any (fun tm =>
      (match m.probePages x [] none with
       | (s1, none) => !s1.lockedWindow x.core x.t 256 128 true &&
           then_ (s1.stashBackAll x true 0#3 x.t (tm.dirtySectors fun p => some p = some ⟨256, 0x11100#64, 128⟩)) fun _ => true
       | _ => false))) = true := by decide +kernel
theorem witness_stflush : meets sMap (kindMem true false) 0x88#8 { blank with fn := 1#4 } (fun x _ m => (sMap.team? x.t).any fun tm =>
    then_ (m.stashBackAll x true (mdScope 0#11) x.t (tm.dirtySectors fun p => vget tm.stash 1 none == some p)) fun _ => true) = true := by decide +kernel
/-- A state with a dirty sector of a stash whose page is gone. -/
def sLost : State := withTeam fun t =>
  { t with stash := t.stash.set 1 (some ⟨256, 0x900000#64, 128⟩), sectors := [⟨2, true, BitVec.allOnes 128, false⟩] }
theorem witness_stflush_fails : meets sLost (kindMem true false) 0x88#8 { blank with fn := 1#4 } (fun x _ m => (sLost.team? x.t).any fun tm =>
    match m.stashBackAll x true (mdScope 0#11) x.t (tm.dirtySectors fun p => vget tm.stash 1 none == some p) with
    | .error _ => true
    | .ok _ => false) = true := by decide +kernel
/-- `atom.add.n32 v8, a0, v7, v6` relaxed at device scope. -/
def wAtom : Fields := { wSt with d := .vec 8#8, ty := .n32, md := 0x343#11 }
theorem witness_atom : meets tState (kindMem false true) 0x89#8 wAtom (fun x v m => let e := envAt x v m
    passes (e.accesses m accBoth 4 4 [(wAtom.c, e.atomicPoison)]) fun s1 as => as.length = 32 &&
      then_ ((⟨mdOrder wAtom.md = 3#2, mdOrder wAtom.md = 3#2, mdScope wAtom.md⟩ : Effects).before x s1) fun _ => true) = true := by decide +kernel
theorem witness_red : meets tState (kindMem false false) 0x8A#8 { wAtom with d := .none } (fun x v m => let e := envAt x v m
    passes (e.accesses m accBoth 4 4 [(wAtom.c, e.atomicPoison)]) fun s1 as => as.length = 32 &&
      then_ ((⟨mdOrder wAtom.md = 3#2, mdOrder wAtom.md = 3#2, mdScope wAtom.md⟩ : Effects).before x s1) fun _ => true) = true := by decide +kernel
theorem witness_atom_fails : meets tState (kindMem false true) 0x89#8 { wAtom with b := .vec 6#8 } (fun x v m => let e := envAt x v m
    fails (e.accesses m accBoth 4 4 [(wAtom.c, e.atomicPoison)])) = true := by decide +kernel
theorem witness_fence : meets tState (kindMem true false) 0x8B#8 { blank with fn := 1#4, md := 0x3C0#11 } (fun x _ m =>
    then_ (releaseAt x 3#3 (m.promoteAll x)) fun _ => true) = true := by decide +kernel
/-- `fpromote` of die `s2`. -/
def wPromote (a : Operand) (fn : BitVec 4) : Fields := { blank with a := a, fn := fn }
theorem witness_fpromote : meets tState (kindMem true false) 0x8C#8 (wPromote (.sca .lo 2#6) 0#4) (fun x _ m => let r := tState.regsOf x.u
      !r.taint (.sca .lo 2#6) && decide ((r.bits (.sca .lo 2#6)).toNat = 3 ∧ ([3].filter fun d => !m.dieIdle d) = [])) = true ∧
    meets tState (kindMem true false) 0x8C#8 (wPromote (.sca .lo 0#6) 0#4) (fun x _ m => let r := tState.regsOf x.u
      !r.taint (.sca .lo 0#6) && decide ((r.bits (.sca .lo 0#6)).toNat = 0 ∧ ([0].filter fun d => !m.dieIdle d) ≠ [])) = true ∧
    meets tState (kindMem true false) 0x8C#8 (wPromote (.sca .lo 1#6) 0#4) (fun x _ _ => let r := tState.regsOf x.u
      !r.taint (.sca .lo 1#6) && decide (9 ≤ (r.bits (.sca .lo 1#6)).toNat % 2 ^ 32)) = true := by decide +kernel
theorem witness_prefetch : meets tState (kindMem false false) 0x8D#8 { blank with a := .vec 4#8 } (fun _ _ _ => true) = true := by decide +kernel

/-! ### What memory does -/

theorem witness_cachedLoads : wLd.fn ≠ 1#4 ∧ mdOrder wLd.md = 0#2 ∧ meets tState (kindMem false true) 0x80#8 wLd (fun x v m =>
    loadOk wLd x v m fun _ as => as.all fun p => decide (p.2.cp ≠ 2#2)) = true := by decide +kernel
theorem witness_cachedStores : mdOrder wSt.md = 0#2 ∧ meets tState (kindMem false false) 0x81#8 wSt (fun x v m =>
    decide (x.die < 9) && passes ((envAt x v m).accesses m accWrite 4 4 [(wSt.c, ((envAt x v m).data wSt.c 4).poison)]) fun _ as =>
      as.length = 32 && as.all fun p => decide (p.2.peer = none ∧ regionOf p.2.pa = .global ∧ p.2.cp ≠ 2#2 ∧ p.2.pa % 128 + 4 ≤ 128) &&
        ((tState.die x.die).sector? (p.2.pa / 128)).isNone && as.all fun q => decide (q = p ∨ q.2.pa + 4 ≤ p.2.pa ∨ p.2.pa + 4 ≤ q.2.pa)) = true := by decide +kernel
/-- An access of four bytes of this module by core 0, through its L1, and one at the memory side. -/
def tAccess (aside : Bool) : Access := ⟨some (.gang 1 0), 0, some 0, none, 0x11004, 4, false, 0#2, aside, aside, 0#2⟩
theorem witness_storedNumbers : Memory.wf tState.mem = true ∧ (∀ d : Fin 9, Memory.wf tState.dies[d].scratch = true) ∧
    (∀ x ∈ tState.teams, Memory.wf x.window = true) ∧ (tAccess false).peer = none ∧ (tAccess false).die < 9 ∧
    (tAccess false).pa % 128 + (tAccess false).size ≤ 128 := by decide +kernel
theorem witness_readPoints : (∀ b, (tAccess b).peer = none ∧ (tAccess b).die < 9 ∧ regionOf (tAccess b).pa ≠ .scratch ∧
      (tAccess b).pa % 128 + (tAccess b).size ≤ 128 ∧ 3 < (tAccess b).size) ∧ (tAccess true).aside = true ∧ (tAccess false).aside = false ∧
    (tState.die 0).sector? ((tAccess false).pa / 128) = none ∧ (tState.core 0).l1.find? (fun l => l.key = (tAccess false).pa / 128) = none ∧
    (tState.core 0).misses.find? (fun m => m.shares ((tAccess false).pa / 128) (tAccess false).who tState.tick tState.free) = none := by
  decide +kernel

/-! ### Tiles and tables -/

/-- A handle of 64 columns of `f32` in a state, owned by gang 0. -/
def tHandle (st : HandleSt) : Handle := ⟨st, 0#5, 0#5, .f32, 8, none⟩
/-- Handles 0 and 1 are owned by gang 0, 2 is given to it, 3 is released, 4 is given to gang 1 by gang 2, and the others are unallocated. -/
def tHandles (t : Team) : Team :=
  ((((t.setHandle 0 (tHandle .owned)).setHandle 1 (tHandle .owned)).setHandle 2 (tHandle .given)).setHandle 3 (tHandle .released)).setHandle 4
    { tHandle .given with own := 2#5, dest := 1#5 }
/-- The state with those handles. -/
def sTile : State := withTeam tHandles
/-- `mma.f32` of the registers from `v32`, with B at offset 0 of the window, over 8 columns. -/
def wMma : Fields := { blank with d := .tile 0#5, a := .vec 32#8, c := .tile 0#5, b := .sca .lo 0#6, ty := .f16, md := 0x022#11 }
/-- A command that nothing makes wait. -/
def accepted (r : State × Except Trap Command) (x : Exec) : Bool := passes r fun s c => s.commandWait x [c] = none
theorem witness_mma : meets sTile (kindTile false) 0x90#8 wMma (fun x v m => accepted ((envAt x v m).matrixCommand m .mma) x) = true := by decide +kernel
theorem witness_mmat : meets sTile (kindTile false) 0x91#8 { wMma with a := .tile 1#5, md := 0x021#11 } (fun x v m =>
    accepted ((envAt x v m).matrixCommand m .mmat) x) = true := by decide +kernel
theorem witness_mperm : meets sTile (kindTile false) 0x92#8 { wMma with a := .sca .lo 0#6, md := 0x020#11 } (fun x v m =>
    accepted ((envAt x v m).matrixCommand m .mperm) x) = true := by decide +kernel
theorem witness_mrsum : meets sTile (kindTile false) 0x93#8 { wMma with b := .none } (fun x v m =>
    accepted ((envAt x v m).matrixCommand m .mrsum) x) = true := by decide +kernel
theorem witness_mma_fails : meets tState (kindTile false) 0x90#8 wMma (fun x v m => fails ((envAt x v m).matrixCommand m .mma)) = true := by decide +kernel
/-- A state whose copy unit has a command that names handle 0. -/
def sBusy : State :=
  let s := withTeam fun t => (tHandles t).setHandle 0 { tHandle .owned with tile := some 5 }
  s.modCore 0 fun c => { c with copy := [{ (default : Command) with id := 9, kind := .tldV, team := 1, dTile := some 5, dHandle := some 0#5 }] }
theorem witness_mma_waits : meets sBusy (kindTile false) 0x90#8 wMma (fun x v m =>
    passes ((envAt x v m).matrixCommand m .mma) fun s c => (s.commandWait x [c]).isSome) = true := by decide +kernel
/-- `tcvt` and `tzero` of 8 columns. -/
def wTcvt : Fields := { blank with d := .tile 0#5, a := .tile 1#5, md := 0x020#11 }
theorem witness_tcvt : meets sTile (kindTile false) 0x96#8 wTcvt (fun x v m => (sTile.team? x.t).any fun tm =>
    heldFault x tm 0#5 = none && heldFault x tm 1#5 = none && columnFault tm 0#5 0 8 = none && columnFault tm 1#5 0 8 = none &&
      m.commandWait x [((envAt x v m).command .tcvt).withHandles tm wTcvt.d wTcvt.a] = none) = true := by decide +kernel
theorem witness_tcvt_fails : meets tState (kindTile false) 0x96#8 wTcvt (fun x _ _ => (tState.team? x.t).any fun tm => (heldFault x tm 0#5).isSome) = true := by
  decide +kernel
theorem witness_tzero : meets sTile (kindTile false) 0x97#8 { wTcvt with a := .none } (fun x v m => (sTile.team? x.t).any fun tm =>
    heldFault x tm 0#5 = none && columnFault tm 0#5 0 8 = none &&
      m.commandWait x [((envAt x v m).command .tzero).withHandles tm wTcvt.d .none] = none) = true := by decide +kernel
theorem witness_tzero_fails : meets tState (kindTile false) 0x97#8 { wTcvt with a := .none } (fun x _ _ =>
    (tState.team? x.t).any fun tm => (heldFault x tm 0#5).isSome) = true := by decide +kernel
/-- `tld` from registers, the window or global memory, by `fn`. -/
def wTld (fn : BitVec 4) : Fields := { blank with d := .tile 0#5, a := if fn = 2#4 then .vec 16#8 else if fn = 1#4 then .sca .full 1#6 else .none, b := if fn = 0#4 then .sca .lo 0#6 else .none, fn := fn, md := 0x020#11 }
/-- The premises that the forms of `tld` and `tst` share. -/
def copyOk (s : State) (w : Fields) (o : Operand) (x : Exec) (v : Gang) (p : Team → Bool) : Bool :=
  (s.team? x.t).any fun tm => heldFault x tm (handleOf o) = none && columnFault tm (handleOf o) 0 8 = none &&
    !v.regs.taint w.a && !v.regs.taint w.b && !v.regs.taint w.c && p tm
theorem witness_tld_v : meets sTile (kindTile false) 0x94#8 (wTld 2#4) (fun x v m => copyOk sTile (wTld 2#4) (wTld 2#4).d x v fun tm =>
    let e := envAt x v m
    let z := m.setGang x.t x.g ((v.moved x 16).touchRun m.tick 16 16)
    !e.blockPoison 16 16 && decide (32 ≤ v.alloc) && z.commandWait x [{ (e.command .tldV).withHandles tm (.tile 0#5) .none with
      block := (List.range 16).map fun n => ((v.moved x 16).vreg (16 + n)).lanes }] = none) = true := by decide +kernel
theorem witness_tld_sp : meets sTile (kindTile false) 0x94#8 (wTld 0#4) (fun x v m => copyOk sTile (wTld 0#4) (wTld 0#4).d x v fun tm =>
    let e := envAt x v m
    match e.tileWindow m (tm.setGang x.g (v.moved x 16)) accRead 0 2048 with
    | .ok p =>
      (match m.probeFills x p [(0, 2048)] with
       | (s1, none) => s1.commandWait x [{ (e.command .tldSp).withHandles tm (.tile 0#5) .none with
           bOff := 0, peer := p.tid, ranges := [⟨some p.tid, 0, 2048, false⟩] }] = none
       | _ => false)
    | .error _ => false) = true := by decide +kernel
theorem witness_tld_gl : meets sTile (kindTile false) 0x94#8 (wTld 1#4) (fun x v m => copyOk sTile (wTld 1#4) (wTld 1#4).d x v fun tm =>
    decide ((v.regs.bits (wTld 1#4).a).toNat = 0x11000) && passes (m.probeRanges x accRead ((List.range 64).map fun r => (0x11000 + r * 32, 32))) fun s1 ls =>
      s1.commandWait x [{ ((envAt x v m).command .tldGl).withHandles tm (.tile 0#5) .none with
        addr := 0x11000, pitch := 32, leaves := ls, ranges := [⟨none, 0x11000, 2048, false⟩] }] = none) = true := by decide +kernel
/-- `tst` to registers, the window or global memory, by `fn`. -/
def wTst (fn : BitVec 4) : Fields := { blank with d := if fn = 2#4 then .vec 16#8 else .none, a := .tile 0#5, b := if fn = 1#4 then .sca .full 1#6 else if fn = 0#4 then .sca .lo 0#6 else .none, fn := fn, md := 0x020#11 }
theorem witness_tst_v : meets sTile (kindTile true) 0x95#8 (wTst 2#4) (fun x v m => copyOk sTile (wTst 2#4) (wTst 2#4).a x v fun tm =>
    decide (32 ≤ v.alloc) && m.commandWait x [((envAt x v m).command .tstV).withHandles tm .none (.tile 0#5)] = none) = true := by decide +kernel
theorem witness_tst_sp : meets sTile (kindTile false) 0x95#8 (wTst 0#4) (fun x v m => copyOk sTile (wTst 0#4) (wTst 0#4).a x v fun tm =>
    match (envAt x v m).tileWindow m (tm.setGang x.g (v.moved x 16)) accWrite 0 2048 with
    | .ok p => m.commandWait x [{ ((envAt x v m).command .tstSp).withHandles tm .none (.tile 0#5) with
        bOff := 0, peer := p.tid, ranges := [⟨some p.tid, 0, 2048, true⟩] }] = none
    | .error _ => false) = true := by decide +kernel
theorem witness_tst_gl : meets sTile (kindTile false) 0x95#8 (wTst 1#4) (fun x v m => copyOk sTile (wTst 1#4) (wTst 1#4).a x v fun tm =>
    decide ((v.regs.bits (wTst 1#4).b).toNat = 0x11000) && passes (m.probeRanges x accWrite ((List.range 64).map fun r => (0x11000 + r * 32, 32))) fun s1 ls =>
      s1.commandWait x [{ ((envAt x v m).command .tstGl).withHandles tm .none (.tile 0#5) with
        addr := 0x11000, pitch := 32, leaves := ls, ranges := [⟨none, 0x11000, 2048, true⟩] }] = none) = true := by decide +kernel
/-- `mcopy s0, s1` of 128 bytes. -/
def wCopy (fn : BitVec 4) : Fields := { blank with a := .sca .full 1#6, b := .sca .lo 0#6, imm := 128#32, fn := fn }
theorem witness_mcopy : meets sTile (kindTile false) 0x98#8 (wCopy 0#4) (fun x v m => accepted ((envAt x v m).copyCommand m) x) = true := by decide +kernel
theorem witness_mcopy_fails : meets sTile (kindTile false) 0x98#8 { wCopy 0#4 with a := .sca .full 2#6 } (fun x v m => fails ((envAt x v m).copyCommand m)) = true := by
  decide +kernel
/-- A state with the word of `wMma` after the gang's program counter. -/
def sFollow : State := { sTile with mem := memPutBytes sTile.mem (placeBase + 16) (bytesOf ((encode (.mma wMma)).getD 0#128).toNat 16) }
/-- The premises of `mcopy` with a follow-on word, for the state `s0` that its fetch leaves. -/
def followOk (x : Exec) (v : Gang) (s0 : State) (p : BitVec 8 × Fields) : Bool :=
  let m := moveOn x 32 s0
  let e := m.env x (v.moved x 32)
  passes (e.copyCommand m) fun s1 c =>
    passes (({ e with x := { x with op := p.1, w := p.2 } } : Env).matrixCommand s1 (matrixKind p.1)) fun s2 f =>
      s2.commandWait x [c, { f with after := some s2.ids }] = none
/-- The follow-on word is fetched, and the issue goes on from there. -/
def followMeets (x : Exec) (v : Gang) : Bool :=
  passes (sFollow.followOn x) fun s0 p => decide (sFollow.cur = some x.u ∧ p = (0x90#8, wMma)) && gatedReg p.1 p.2 v.alloc = none &&
    meets s0 (kindTile false) 0x98#8 (wCopy 1#4) (fun y u _ => decide (x = y ∧ v = u)) && followOk x v s0 p
theorem witness_mcopy_follow : (execOf sFollow (.gang 1 0) 0x98#8 (wCopy 1#4)).any (fun x => (sFollow.gang? 1 0).any fun v => followMeets x v) = true := by
  decide +kernel
/-- With the zero word there, the follow-on word fails its check. -/
theorem witness_mcopy_follow_fails : (execOf sTile (.gang 1 0) 0x98#8 (wCopy 1#4)).any (fun x => decide (sTile.cur = some x.u) && fails (sTile.followOn x)) = true := by
  decide +kernel
theorem witness_mwait : meets sTile (kindTile false) 0x99#8 (wOne (.tile 0#5) 0#32 0#4) (fun x _ _ => (sTile.team? x.t).any fun tm =>
      heldFault x tm 0#5 = none) = true ∧
    meets sBusy (kindTile false) 0x99#8 (wOne (.tile 0#5) 0#32 0#4) (fun x _ m => (sBusy.team? x.t).any fun tm =>
      heldFault x tm 0#5 = none && (tm.handle 0#5).tile.any fun id => m.tileBusy x.core id) = true ∧
    meets sTile (kindTile false) 0x99#8 (wOne (.tile 3#5) 0#32 0#4) (fun x _ _ => (sTile.team? x.t).any fun tm =>
      (heldFault x tm 3#5).isSome) = true ∧
    meets sTile (kindTile false) 0x99#8 (wOne .none 0#32 1#4) (fun _ _ _ => true) = true := by decide +kernel
/-- A handle's state. -/
def stOf (s : State) (x : Exec) (h : BitVec 5) : HandleSt := ((s.team? x.t).map fun tm => (tm.handle h).st).getD .unallocated
theorem witness_talloc : meets sTile (kindTable true false) 0xA0#8 { wOne (.tile 3#5) 0#32 0#4 with ty := .f32, md := 0x020#11 } (fun x _ m =>
      stOf sTile x 3#5 = .released && (m.team? x.t).isSome) = true ∧
    meets sTile (kindTable true false) 0xA0#8 { wOne (.tile 9#5) 0#32 1#4 with d := .cond 1#3, ty := .f32, md := 0x020#11 } (fun x _ m =>
      stOf sTile x 9#5 = .unallocated && (m.team? x.t).isSome) = true ∧
    meets sTile (kindTable true false) 0xA0#8 { wOne (.tile 0#5) 0#32 0#4 with ty := .f32, md := 0x020#11 } (fun x _ _ => stOf sTile x 0#5 = .owned) = true ∧
    meets sTile (kindTable true false) 0xA0#8 { wOne (.tile 2#5) 0#32 0#4 with ty := .f32, md := 0x020#11 } (fun x _ _ => stOf sTile x 2#5 = .given) = true := by
  decide +kernel
theorem witness_tgive : meets sTile (kindTable true false) 0xA1#8 { wOne (.tile 0#5) 0#32 0#4 with b := .immZ } (fun x _ m => (sTile.team? x.t).any fun tm =>
      !(sTile.regsOf x.u).taint .immZ && heldFault x tm 0#5 = none && tm.receives 0 && !((tm.handle 0#5).tile.any fun id => m.tileBusy x.core id)) = true ∧
    meets sTile (kindTable true false) 0xA1#8 { wOne (.tile 3#5) 0#32 0#4 with b := .immZ } (fun x _ _ => (sTile.team? x.t).any fun tm =>
      !(sTile.regsOf x.u).taint .immZ && (heldFault x tm 3#5).isSome) = true := by decide +kernel
/-- Handle `h` of `ttake` is in state `st`, and gang 0 may take it or not. -/
def takes (h : BitVec 5) (st : HandleSt) (mine : Bool) : Bool :=
  meets sTile (kindTable true false) 0xA2#8 { wOne (.tile h) 0#32 0#4 with d := .cond 1#3 } (fun x _ _ => (sTile.team? x.t).any fun tm =>
    decide ((tm.handle h).st = st) && (decide ((tm.handle h).dest.toNat = x.g ∨ (tm.handle h).own.toNat = x.g) == mine))
theorem witness_ttake : takes 0#5 .owned true = true ∧ takes 2#5 .given true = true ∧ takes 4#5 .given false = true ∧ takes 9#5 .unallocated true = true ∧
    takes 3#5 .released true = true := by decide +kernel
theorem witness_tfree : meets sTile (kindTable true false) 0xA3#8 (wOne (.tile 0#5) 0#32 0#4) (fun x _ _ => (sTile.team? x.t).any fun tm =>
      heldFault x tm 0#5 = none) = true ∧
    meets sTile (kindTable true false) 0xA3#8 (wOne (.tile 3#5) 0#32 0#4) (fun x _ _ => (sTile.team? x.t).any fun tm => (heldFault x tm 3#5).isSome) = true := by
  decide +kernel
/-- `rlock s3, a, 256` with `FN`. -/
def wLock (a : Operand) (fn : BitVec 4) : Fields := { blank with d := .sca .full 3#6, a := a, b := .immZ, imm := 256#32, fn := fn }
theorem witness_rlock : meets tState (kindTable false false) 0xA4#8 (wLock (.sca .full 1#6) 1#4) (fun x _ _ => let r := tState.regsOf x.u
      !r.taint (.sca .full 1#6) && !r.taint .immZ && decide ((r.bits (.sca .full 1#6)).toNat % 16 = 0 ∧ (r.bits (.sca .full 1#6)).toNat < 2 ^ 56 ∧
        (tState.core x.core).locks = [])) = true ∧
    meets tState (kindTable false false) 0xA4#8 (wLock (.sca .lo 0#6) 2#4) (fun x _ _ => let r := tState.regsOf x.u
      !r.taint (.sca .lo 0#6) && !r.taint .immZ && decide ((r.bits (.sca .lo 0#6)).toNat = 0 ∧ (tState.core x.core).locks = []) &&
        (tState.team? x.t).any fun tm => decide (0 + 256 ≤ tm.winSize)) = true ∧
    meets tState (kindTable false false) 0xA4#8 (wLock (.sca .full 2#6) 1#4) (fun x _ _ => let r := tState.regsOf x.u
      !r.taint (.sca .full 2#6) && !r.taint .immZ && decide ((r.bits (.sca .full 2#6)).toNat % 16 ≠ 0)) = true := by decide +kernel
/-- A state whose team holds lock entry 4. -/
def sLock : State := withCore fun c => { c with locks := [⟨4, none, false, false, 0x11000, 256, 0, 1, 0⟩] }
/-- The lock entry 4 of the team. -/
def ownLock (s : State) (x : Exec) : Bool := (s.core x.core).locks.any fun l => decide (l.entry = 4 ∧ l.cmd = none ∧ l.team = x.t)
theorem witness_runlock : meets sLock (kindTable false false) 0xA5#8 (wOne .immZ 4#32 0#4) (fun x _ _ => ownLock sLock x && !(sLock.regsOf x.u).taint .immZ) = true ∧
    meets tState (kindTable false false) 0xA5#8 (wOne .immZ 4#32 0#4) (fun x _ _ => !ownLock tState x && !(tState.regsOf x.u).taint .immZ) = true := by decide +kernel
/-- A state in its handler with `s1` at a page's base. -/
def sInv : State := withGang fun v =>
  { v with handler := some 1#8, quads := mapQuads v.quads fun _ q => { q with trapped := true }, regs := { v.regs with s := v.regs.s.set 1 0x10000#64 } }
theorem witness_tlbinv : meets sInv { kindTable false false with priv := true } 0xA6#8 { wOne (.sca .full 1#6) 1#32 0#4 with b := .immZ } (fun x _ m => let r := sInv.regsOf x.u
      !r.taint (.sca .full 1#6) && !r.taint .immZ && decide ((r.bits (.sca .full 1#6)).toNat = 0x10000) && !m.commandHolds x.ctx 0x10000 0x20000) = true ∧
    meets sInv { kindTable false false with priv := true } 0xA6#8 (wOne .none 0#32 1#4) (fun x _ m => let r := sInv.regsOf x.u
      !r.taint .none && !m.commandHolds x.ctx 0 (2 ^ 56)) = true ∧
    meets sInv { kindTable false false with priv := true } 0xA6#8 { wOne (.sca .full 2#6) 1#32 0#4 with b := .immZ } (fun x _ _ => let r := sInv.regsOf x.u
      !r.taint (.sca .full 2#6) && !r.taint .immZ && decide ((r.bits (.sca .full 2#6)).toNat % 65536 ≠ 0)) = true := by decide +kernel
theorem witness_cprobe : meets sTile (kindTable false true) 0xA7#8 { wOne (.tile 0#5) 0#32 0#4 with d := .sca .full 3#6 } (fun x _ m => (m.team? x.t).isSome) = true ∧
    meets sTile (kindTable false true) 0xA7#8 { wOne .immZ 15#32 1#4 with d := .sca .full 3#6 } (fun x _ m => (m.team? x.t).isSome && !(sTile.regsOf x.u).taint .immZ) = true ∧
    meets sTile (kindTable false true) 0xA7#8 { wOne .immZ 16#32 1#4 with d := .sca .full 3#6 } (fun x _ m => (m.team? x.t).isSome && !(sTile.regsOf x.u).taint .immZ) = true := by
  decide +kernel

/-! ### Queues, semaphores and sequence numbers -/

/-- A state whose queue 0 is open to context 0, with `s3` at 0x11040, some bytes placed and mover slot 0 registered. -/
def sQueue (bytes : List (Nat × Nat)) : State :=
  { withGang (fun v => { v with regs := { v.regs with s := v.regs.s.set 3 0x11040#64 } }) with
    queues := [{ QueueReg.reset 0 with en := true }]
    registrations := [⟨0, 0, true, 0#10, 0x11000#56, false, 0, none, false⟩]
    mem := bytes.foldl (fun m p => memPut m p.1 (BitVec.ofNat 8 p.2)) [] }
/-- `launch s1, s0`. -/
def wLaunch (n : BitVec 6) : Fields := { blank with a := .sca .full n, b := .sca .lo 0#6 }
/-- The premises of a launch. -/
def launchOk (s : State) (x : Exec) (m : State) : Bool :=
  let r := s.regsOf x.u
  decide ((r.bits (.sca .full 1#6)).toNat = 0x11000) && !r.taint (.sca .full 1#6) && !r.taint (.sca .lo 0#6) && m.launchable 0 x.ctx &&
    passes (m.checkObject x accRead 128 128 0x11000 true) fun s1 o =>
      let v := s1.read { o with strong := true, wide := true }
      !v.2.2 && then_ (releaseAt x 3#3 v.1) fun _ => true
theorem witness_launch : meets (sQueue []) (kindQueue false) 0xE0#8 (wLaunch 1#6) (fun x _ m => launchOk (sQueue []) x m) = true ∧
    meetsSeq (withSeq id) (kindQueue false) 0xE0#8 (wLaunch 2#6) (fun x _ =>
      decide (((withSeq id).regsOf x.u).bits (.sca .full 2#6) = 3#64)) = true := by decide +kernel
theorem witness_launch_fails : meets tState (kindQueue false) 0xE0#8 (wLaunch 1#6) (fun x _ m => let r := tState.regsOf x.u
    !r.taint (.sca .full 1#6) && !r.taint (.sca .lo 0#6) && !m.launchable 0 x.ctx) = true := by decide +kernel
/-- `qappend s1, s3`. -/
def wAppend : Fields := { blank with a := .sca .full 1#6, b := .sca .full 3#6 }
/-- The premises of an append, with the address of the last descriptor. -/
def appendOk (s : State) (x : Exec) (m : State) (p : State → Nat → Bool) : Bool :=
  let r := s.regsOf x.u
  !r.taint wAppend.a && !r.taint wAppend.b &&
    passes (m.checkObjects x accBoth 64 64 [(r.bits wAppend.a).toNat, (r.bits wAppend.b).toNat] true) fun s1 l =>
      match l with
      | [(_, blk), (_, dsc)] => then_ (releaseAt x 3#3 ((s1.expose blk).expose dsc)) fun s2 => p s2 (memNat s2.mem (blk.key + 8) 8)
      | _ => false
theorem witness_qappend : meets (sQueue []) (kindQueue false) 0xE1#8 wAppend (fun x _ m => appendOk (sQueue []) x m fun _ n => n = 0) = true ∧
    meets (sQueue [(0x11009, 0x12), (0x1100A, 1)]) (kindQueue false) 0xE1#8 wAppend (fun x _ m => appendOk (sQueue [(0x11009, 0x12), (0x1100A, 1)]) x m fun s2 n =>
      decide (n = 0x11200) && passes (s2.checkObject x accBoth 64 64 n true) fun _ _ => true) = true := by decide +kernel
/-- The premises of a tail write, and whether the block is registered. -/
def tailOk (s : State) (x : Exec) (m : State) (reg : Bool) : Bool :=
  let r := s.regsOf x.u
  let a := (r.bits (.sca .full 1#6)).toNat
  !r.taint (.sca .full 1#6) && !r.taint (.sca .lo 2#6) && decide (a % 64 = 0) && passes (m.checkObject x accBoth 64 1 a true) fun s1 blk =>
    let s2 := s1.expose blk
    (s2.registered x.ctx a (memNat s2.mem (blk.key + 0x20) 1) (memNat s2.mem (blk.key + 0x21) 1) == reg) && then_ (releaseAt x 3#3 s2) fun _ => true
theorem witness_qtail : meets (sQueue []) (kindQueue false) 0xE2#8 { wLaunch 1#6 with b := .sca .lo 2#6 } (fun x _ m => tailOk (sQueue []) x m true) = true ∧
    meets tState (kindQueue false) 0xE2#8 { wLaunch 1#6 with b := .sca .lo 2#6 } (fun x _ m => tailOk tState x m false) = true := by decide +kernel
/-- A sequencer with an event. -/
def sEvent : State := withSeq fun q => { q with events := [7#128] }
theorem witness_evget : meetsSeq sEvent (kindQueue true) 0xE3#8 { blank with d := .sca .full 4#6 } (fun _ _ => true) = true := by decide +kernel
theorem witness_evwait : meetsSeq sEvent (kindQueue false) 0xE4#8 blank (fun x m => !(m.seq x.cluster).events.isEmpty) = true ∧
    meetsSeq (withSeq id) (kindQueue false) 0xE4#8 { blank with imm := 5#32 } (fun x m => (m.seq x.cluster).events.isEmpty) = true := by decide +kernel
/-- `msem k1, s1, s2` at device scope. -/
def wMsem (n : BitVec 6) : Fields := { blank with d := .cond 1#3, a := .sca .full n, b := .sca .full 2#6, fn := 3#4, md := 0x300#11 }
theorem witness_msem : meetsSeq (withSeq id) (kindQueue true) 0xE5#8 (wMsem 1#6) (fun x m => let r := (withSeq id).regsOf x.u
      !r.taint (.sca .full 1#6) && !r.taint (.sca .full 2#6) && passes (m.checkObject x accRead 8 8 (r.bits (.sca .full 1#6)).toNat false) fun s1 o =>
        let o' := { o with strong := true, wide := true }
        !s1.awaitsOwn x o' && !(s1.read o').2.2) = true ∧
    meetsSeq (withSeq id) (kindQueue true) 0xE5#8 (wMsem 2#6) (fun x m => let r := (withSeq id).regsOf x.u
      !r.taint (.sca .full 2#6) && fails (m.checkObject x accRead 8 8 (r.bits (.sca .full 2#6)).toNat false)) = true := by decide +kernel
/-- A state whose team is of rank 1 of an ensemble of two. -/
def sPair : State := { withTeam (fun t => { t with ensemble := 5, rank := 1 }) with ensembles := [⟨5, 0, 0, 0, [2, 1], [], false, false, none⟩] }
/-- The pair and the parking form of a semaphore instruction. -/
def wSem (park : Bool) (imm : BitVec 32) (d : Operand) : Fields :=
  { blank with d := d, a := if park then .sca .full 1#6 else .sca .lo 0#6, imm := imm, fn := if park then 1#4 else 0#4, md := 0x300#11 }
/-- The check of a rank passes with an ensemble that is there. -/
def rankOk (m : State) (x : Exec) (w : Fields) (p : Team → Bool) : Bool :=
  match m.checkRank x w with
  | .ok (tm, _, _) => p tm
  | .error _ => false
/-- The check of a parking word passes. -/
def parkOk (r : State × Except Stop Access) (p : State → Access → Bool) : Bool :=
  match r with
  | (s, .ok a) => p s a
  | (_, .error _) => false
theorem witness_semup : meets sPair (kindSem false) 0xE8#8 (wSem false 1#32 .none) (fun x _ m =>
      rankOk m x (wSem false 1#32 .none) fun tm => then_ ((⟨true, false, 3#3⟩ : Effects).before x m) fun s1 => (s1.ensemble? tm.ensemble).isSome) = true ∧
    meets sPair (kindSem false) 0xE8#8 (wSem true 1#32 .none) (fun x _ m =>
      parkOk (m.checkPark x (wSem true 1#32 .none)) fun s1 _ => then_ ((⟨true, false, 3#3⟩ : Effects).before x s1) fun _ => true) = true := by decide +kernel
theorem witness_semwait : meets sPair (kindSem false) 0xE9#8 (wSem false 1#32 .none) (fun x _ m =>
      rankOk m x (wSem false 1#32 .none) fun _ => true) = true ∧
    meets sPair (kindSem false) 0xE9#8 (wSem true 1#32 .none) (fun x _ m => parkOk (m.checkPark x (wSem true 1#32 .none)) fun s1 a => !s1.awaitsOwn x a) = true := by
  decide +kernel
theorem witness_semread : meets sPair (kindSem true) 0xEA#8 (wSem false 0#32 (.sca .full 3#6)) (fun x _ m =>
      rankOk m x (wSem false 0#32 (.sca .full 3#6)) fun _ => true) = true ∧
    meets sPair (kindSem true) 0xEA#8 (wSem true 0#32 (.sca .full 3#6)) (fun x _ m =>
      parkOk (m.checkPark x (wSem true 0#32 (.sca .full 3#6))) fun s1 a => !s1.awaitsOwn x a) = true := by decide +kernel
theorem witness_slkset : meets tState kindPlain 0xEB#8 (wOne .immZ 0#32 0#4) (fun x _ _ => !(tState.regsOf x.u).taint .immZ) = true ∧
    meetsSeq (withSeq id) kindPlain 0xEB#8 (wOne .immZ 5000#32 0#4) (fun x _ => !((withSeq id).regsOf x.u).taint .immZ) = true := by decide +kernel
theorem witness_seqwait : meets tState { kindPlain with memory := true } 0xEC#8 { wLaunch 1#6 with b := .sca .lo 2#6, md := 0x300#11 } (fun x _ m => let r := tState.regsOf x.u
    !r.taint (.sca .full 1#6) && !r.taint (.sca .lo 2#6) && passes (m.checkObject x accBoth 64 64 (r.bits (.sca .full 1#6)).toNat true) fun _ _ => true) = true := by
  decide +kernel

/-! ### Words, decode and the step -/

theorem witness_encoded : (Instr.sadd wSadd).wf false = true ∧ isEvent (.sadd wSadd) = false := by decide
theorem witness_decoded : ∃ i, decode false 0x400701404C03FF000000071800080000#128 = .ok i := ⟨_, test_decode_vadd⟩
/-- `sadd` on low halves. -/
def wHalf : Fields := { blank with d := .sca .lo 3#6, a := .sca .lo 1#6, b := .sca .lo 2#6, ty := .i32 }
/-- The word of `wSadd` with its raw fields changed. -/
def wBad (f : Raw → Raw) : W128 := (f (wSadd.raw 0x01#8)).bits
/-- Decode rejects a word with opcode `op` for the cause `r`. -/
def rejects (x : W128) (r : BitVec 4 × BitVec 4 × BitVec 4) : Bool :=
  match decode false x with
  | .error (.encoding _ a b c) => decide ((a, b, c) = r)
  | _ => false
/-- One word for each cause of R69 that a field gives, in the order of R68. -/
def badWords : List (W128 × BitVec 4 × BitVec 4 × BitVec 4) :=
  [(wBad fun r => { r with fn := 1#4 }, 1#4, 0#4, 0#4), (wBad fun r => { r with g := 0xF#4 }, 2#4, 0#4, 0#4),
    (wBad fun r => { r with res := 1#4 }, 3#4, 0#4, 0#4), (wBad fun r => { r with d := 0x3FF#10 }, 4#4, 1#4, 0#4),
    (wBad fun r => { r with a := 0x3FF#10 }, 4#4, 2#4, 0#4), (wBad fun r => { r with b := 0x3FF#10 }, 4#4, 3#4, 0#4),
    (wBad fun r => { r with c := 0#10 }, 4#4, 4#4, 0#4), (wBad fun r => { wHalf.raw r.op with ty := 11#5 }, 6#4, 0#4, 0#4),
    (wBad fun r => { r with ty := (Ty.f64).code }, 6#4, 0#4, 0#4), (wBad fun r => { r with md := 1#11 }, 7#4, 0#4, 0#4)]
/-- The opcode that no unit has, the one that the other unit has, each cause, and a word that passes every check. -/
theorem witness_decodeOrder :
    decode false (wBad fun r => { r with op := 0xFE#8 }) = .error (.opcode 0xFE#8 false) ∧
    decode false (wBad fun r => { r with op := 0xE3#8 }) = .error (.opcode 0xE3#8 true) ∧
    (badWords.all fun p => rejects p.1 p.2) = true ∧ ∃ i, decode false 0x400701404C03FF000000071800080000#128 = .ok i :=
  ⟨by decide +kernel, by decide +kernel, by decide +kernel, _, test_decode_vadd⟩
/-- The causes that consult `FN` with `TY` or `MD`, and the banks: `vfpack` to `f16x2` and `vfcvt` from `f64` with an element that is not there, and `vperm` with a register in a bank of its table. -/
theorem witness_decodeOrder_late :
    rejects (({ blank with fn := 1#4, d := .vec 8#8, a := .vec 4#8, b := .vec 6#8, ty := .f16x2, md := 0x012#11 } : Fields).raw 0x7E#8).bits (1#4, 0#4, 0#4) = true ∧
    rejects (({ blank with fn := 1#4, d := .vec 8#8, a := .vec 4#8, ty := .f32, md := 0x013#11 } : Fields).raw 0x77#8).bits (1#4, 0#4, 0#4) = true ∧
    rejects (({ wVperm with a := .vec 9#8 }).raw 0x5F#8).bits (8#4, 2#4, 3#4) = true := by decide +kernel
/-- A gang of a state as an issuing unit, with its lookup of the program counter. -/
def fetchOk (s : State) (p : Exec → Gang → State × Look → Bool) : Bool :=
  match execOf s (.gang 1 0) 0#8 default, s.gang? 1 0 with
  | some x, some v => decide (x.seq = false ∧ x.u = .gang 1 0 ∧ x.t = 1 ∧ x.g = 0) && p x v (s.look x x.pc.toNat)
  | _, _ => false
/-- What `fetchOk` says. -/
theorem fetchOk_unit {s : State} {p : Exec → Gang → State × Look → Bool} (h : fetchOk s p = true) :
    ∃ x v, x.seq = false ∧ x.u = .gang x.t x.g ∧ s.gang? x.t x.g = some v ∧ p x v (s.look x x.pc.toNat) = true := by
  unfold fetchOk at h
  split at h
  · next x v hx hv =>
    simp only [Bool.and_eq_true, decide_eq_true_eq] at h
    obtain ⟨⟨h1, h2, h3, h4⟩, h5⟩ := h
    exact ⟨x, v, h1, by rw [h2, h3, h4], by rw [h3, h4]; exact hv, h5⟩
  · exact absurd h (by decide)
/-- A state whose page is one whose leaf has been changed. -/
def sLeaf (f : Leaf → Leaf) : State := withCore fun c => { c with tlb := [⟨0, f placeLeaf⟩] }
/-- A state whose context has a page table with one entry, which is valid and nothing else. -/
def sTable : State :=
  { withCore (fun c => { c with tlb := [] }) with
    ctxs := [{ Ctx.reset 0 with root := 0x80001#64 }], mem := memPut [] 0x80000 1#8 }
theorem witness_fetch :
    fetchOk (withGang fun v => { v with emul := 0xFF#8 }) (fun x v _ => v.emul &&& x.quads != 0#8) = true ∧
    fetchOk (withCore fun c => { c with tlb := [] }) (fun x v r => v.emul &&& x.quads == 0#8 && r.2 == .absent) = true ∧
    fetchOk { sTable with mem := [(0x80000, 1#8), (0x80002, 0x10#8), (0x100000, 1#8), (0x100001, 0x0C#8)] } (fun _ _ r => r.2 == .malformed) = true ∧
    fetchOk (sLeaf fun l => { l with cc := 3#4 }) (fun x _ r => r.2 == .leaf { placeLeaf with cc := 3#4 } && !r.1.lit 3#4 && !r.1.circuitFails x.u) = true ∧
    fetchOk (sLeaf fun l => { l with xwr := 3#3 }) (fun _ _ r => r.2 == .leaf { placeLeaf with xwr := 3#3 } && r.1.lit 0#4) = true ∧
    fetchOk tState (fun x _ r => r.2 == .leaf placeLeaf && r.1.lit 0#4 && regionOf (placeLeaf.pa x.pc.toNat) = .global && r.1.peerOf 0#4 == none &&
      !(r.1.read { r.1.place x placeLeaf x.pc.toNat 16 with core := none }).2.2) = true ∧
    fetchOk { tState with memPoison := [0x200] } (fun x _ r => r.2 == .leaf placeLeaf &&
      (r.1.read { r.1.place x placeLeaf x.pc.toNat 16 with core := none }).2.2) = true := by decide +kernel
/-- A state that issues the word placed in it. -/
def sRun (x : W128) : State := State.reset.withFetchWord 128 x.toNat
/-- The turn of a unit that may issue. -/
def turnOk (s : State) (p : State → Exec → Bool) : Bool :=
  match s.nextTurn with
  | (some (.issue u), s0) => s0.mayIssue u && (execOf { s0.firstAcquire u with cur := some u } u 0#8 default).any fun x => p { s0.firstAcquire u with cur := some u } x
  | _ => false
/-- The placed word is fetched and decodes, and runs. -/
theorem witness_step : turnOk (sRun 0x400701404C03FF000000071800080000#128) (fun s1 x => passes (s1.fetch x) fun s2 w =>
      match decode x.seq w with
      | .ok i => (match exec i s2 with
        | .next _ => true
        | _ => false)
      | .error _ => false) = true ∧
    turnOk (sRun 0#128) (fun s1 x => passes (s1.fetch x) fun _ w => match decode x.seq w with
      | .ok _ => false
      | .error _ => true) = true ∧
    turnOk { sRun 0#128 with cores := [] } (fun s1 x => fails (s1.fetch x)) = true := by decide +kernel
/-- An event of the agenda. -/
theorem witness_step_event : (match ({ State.reset with agenda := [.event (.correctableError 2)] } : State).nextTurn with
    | (some (.event i), s0) => isEvent i && (match exec i { s0 with cur := none } with
      | .next _ => true
      | _ => false)
    | _ => false) = true := by decide +kernel
/-- A unit of a state has an instruction whose issue has yet to be checked. -/
def checks (s : State) (op : BitVec 8) (w : Fields) (p : Exec → Bool) : Bool :=
  wordOk false op w && (execOf s (.gang 1 0) op w).any fun x => decide (s.cur = some (.gang 1 0) ∧ x.u = .gang 1 0 ∧ x.seq = false) && p x
theorem witness_issueChecks :
    checks tState 0xCC#8 { blank with fn := 1#4 } (fun x => privileged 0xCC#8 { blank with fn := 1#4 } && !x.priv) = true ∧
    checks tState 0x40#8 { wVadd with a := .vec 64#8 } (fun x => !privileged 0x40#8 wVadd && (gatedReg 0x40#8 { wVadd with a := .vec 64#8 } (tState.allocOf x.u)).isSome) = true ∧
    checks (withGang fun v => { v with quads := mapQuads v.quads fun q u => if q.val < 4 then u else { u with sub := 4#3 } }) 0xD5#8 { blank with imm := 3#32 } (fun x =>
      gatedReg 0xD5#8 { blank with imm := 3#32 } 64 = none && converges 0xD5#8 && x.quads != x.liveQuads) = true ∧
    checks tState 0x8B#8 { blank with g := ⟨false, 1#3⟩, md := 0x3C0#11 } (fun x => actsOnce 0x8B#8 && x.part != 0#32 && x.part != x.sub && x.quads == x.liveQuads) = true := by
  decide +kernel
/-- `rshape.set` of a gated register. -/
theorem witness_rshape_gated :
    checks tState 0xCF#8 { blank with d := .cond 1#3, a := .vec 64#8, fn := 2#4 } (fun x =>
      (gatedReg 0xCF#8 { blank with d := .cond 1#3, a := .vec 64#8, fn := 2#4 } (tState.allocOf x.u)).isSome) = true := by decide +kernel
/-- `p2` holds in no lane, and `k2` is false. -/
theorem witness_falseGuard :
    checks tState 0x40#8 { wVadd with g := ⟨false, 2#3⟩ } (fun x => !x.guard && !privileged 0x40#8 wVadd && gatedReg 0x40#8 wVadd (tState.allocOf x.u) = none) = true ∧
    checks tState 0xD5#8 { blank with g := ⟨false, 2#3⟩, imm := 3#32 } (fun x => !x.guard && converges 0xD5#8 && x.quads == x.liveQuads) = true ∧
    checks sFollow 0x98#8 { wCopy 1#4 with g := ⟨false, 2#3⟩ } (fun x => !x.guard && passes (sFollow.followOn x) fun _ _ => true) = true := by decide +kernel

/-! ### Values -/

theorem witness_integer : mdNA 0#11 = false ∧ mdNB 0#11 = false ∧ mdSAT 0#11 = false ∧ (∃ md, mdNA md = false ∧ mdNB md = false ∧ mdSAT md = true) ∧
    Ty.i32.isSigned = true ∧ Ty.n32.isSigned = false := ⟨by decide, by decide, by decide, ⟨0x080#11, by decide⟩, by decide, by decide⟩

/-! ### Steps that no word encodes -/

/-- A gang of the state and its team. -/
def onGang (s : State) (p : Team → Gang → Bool) : Bool := (s.team? 1).any fun tm => (s.gang? 1 0).any fun v => p tm v
/-- A state of a later time whose gang has been changed. -/
def atTick (n : Nat) (f : Gang → Gang) : State := { withGang f with tick := n }
/-- An outstanding result that writes `v8`, `s3` and nothing else. -/
def tResult : Result := ⟨7, [⟨8, 0xFF#32, tGang.srctr, 1#32⟩], [], [], [], 3#5, .none⟩
theorem witness_resultReply : onGang (withGang fun v => { v with regs := { v.regs with pending := [tResult] } }) (fun _ v =>
    v.regs.pending.find? (fun r => r.id = 7 ∧ r.waits = .none) = some tResult && tState.packets.isEmpty && tResult.sca.isEmpty && tResult.cond.isEmpty && tResult.vec.length = 1 &&
      (v.vregs[8]?).isSome) = true := by decide +kernel
theorem witness_timers : onGang (atTick 9 fun v => { v with delay := some 9 }) (fun _ v => decide (v.delay = some 9 ∧ 9 ≤ 9)) = true ∧
    onGang (atTick 54 id) (fun tm v => tm.running && v.ready && decide (6 * (54 - v.readySince) ≥ 5 * 64)) = true ∧
    onGang (atTick 3414 id) (fun _ v => (v.vregs[4]?).any fun r => decide (6 * (3414 - r.used) ≥ 5 * 4096)) = true := by decide +kernel
theorem witness_waits :
    onGang (withGang fun v => { v with heldTrap := some ⟨.coded 0x20#8 5#64, 0xFF#8, 0x10000#56, false⟩ }) (fun _ v =>
      decide (v.heldTrap = some ⟨.coded 0x20#8 5#64, 0xFF#8, 0x10000#56, false⟩ ∧ v.regs.pending = [])) = true ∧
    onGang (withGang fun v => { v with status := .waiting .lockRetry }) (fun _ v => decide (v.status = .waiting .lockRetry)) = true ∧
    onGang (atTick 873814 fun v => { v with status := .waiting (.handle 0x90#8 0#5), otherSince := some 0 }) (fun _ v =>
      decide (v.status = .waiting (.handle 0x90#8 0#5) ∧ 6 * v.otherTicks 873814 ≥ 5 * 2 ^ 20)) = true ∧
    (execOf (atTick 873814 fun v => { v with status := .waiting (.handle 0x90#8 0#5) }) (.gang 1 0) 0x90#8 default).isSome = true ∧
    onGang (withGang fun v => { v with status := .waiting .queue }) (fun tm v => decide (v.status = .waiting .queue ∧ (tState.core tm.core).copy.length < 16)) = true ∧
    onGang (withGang fun v => { v with status := .waiting .locks }) (fun tm v => decide (v.status = .waiting .locks ∧ (tState.core tm.core).locks.length < 32)) = true := by
  decide +kernel
/-- Two commands of the array unit, the first begun. -/
def tCmd (id : Nat) (begun : Bool) : Command := { (default : Command) with id := id, kind := .tzero, team := 1, begun := begun, dTile := some id }
/-- A state with commands 9 and 10 on the array unit of core 0. -/
def sArray (begun : Bool) (tick : Nat) : State := { withCore (fun c => { c with array := [tCmd 9 begun, tCmd 10 false] }) with tick := tick }
theorem witness_commandBegin : ((sArray false 0).core 0).array.find? (fun c => c.id = 9) = some (tCmd 9 false) ∧ (sArray false 0).mayBegin 0 (tCmd 9 false) = true ∧
    ((sArray true 0).core 0).array.find? (fun c => c.id = 10) = some (tCmd 10 false) ∧ (sArray true 0).mayBegin 0 (tCmd 10 false) = false := by decide +kernel
theorem witness_commandComplete : ((sArray true 100000).core 0).commands.find? (fun c => c.id = 9) = some (tCmd 9 true) ∧
    (sArray true 100000).mayComplete 0 (tCmd 9 true) = true ∧ ((sArray false 0).core 0).commands.find? (fun c => c.id = 9) = some (tCmd 9 false) ∧
    (sArray false 0).mayComplete 0 (tCmd 9 false) = false := by decide +kernel
theorem witness_granuleClear : (((withCore fun c => { c with clearing := [(3, 2)] }).core 0).clearing.any fun p => p.1 = 3) = true := by decide +kernel
/-- A team whose gang holds a tile and waits for another; and a gang that waits for registers. -/
def sDeadlock : State := withTeam fun t =>
  { (tHandles t).setHandle 0 { tHandle .owned with tile := some 5 } with
    tiles := [⟨5, .f32, 64, [⟨0#16384, false⟩], false⟩], gangs := [{ tGang with status := .blocked (.talloc 9#5 .f32 64 Handle.reset) 1 }] }
/-- A gang that waits for registers. -/
def sRegs : State := withGang fun v => { v with status := .blocked (.rgrow 16) 1 }
theorem witness_deadlocks : sDeadlock.tileDeadlock 0 = true ∧ (sDeadlock.tileWaiters 0).getLast? = some ⟨1, 0, .talloc 9#5 .f32 64 Handle.reset, 0, 1⟩ ∧
    sRegs.slotDeadlock 0 = true ∧ (sRegs.regWaiters 0).getLast? = some ⟨1, 0, .rgrow 16, 0, 1⟩ := by decide +kernel

theorem witness_gangRetire : onGang (withGang fun v => { v with live := 0#32 }) (fun tm v =>
    decide (v.live = 0#32 ∧ v.regs.pending = [] ∧ v.status ≠ .retired) && tm.placedOn tm.core) = true := by decide +kernel
/-- A team that has exited, with or without a remote write on its way. -/
def sExit (remote : List RemoteOp) : State := { withTeam (fun t => { t with residence := .exited }) with remote := remote }
/-- A remote write of the team. -/
def tRemote : RemoteOp := { (default : RemoteOp) with id := 4, who := .gang 1 0, peer := 2, sector := 0x300, mask := 1#128 }
/-- The premises of the end of a team. -/
def doneOk (s : State) (out : Bool) : Bool :=
  (s.team? 1).any fun tm => decide (tm.residence = .exited) && s.copiesDone tm &&
    then_ (s.stashBackAll tm.agent false 3#3 1 (tm.dirtySectors fun _ => true)) fun s1 =>
      ((s1.writeBackAll (dieOf tm.core)).remote.any fun o => issuerOfTeam o.who 1) == out
theorem witness_teamDone : doneOk (sExit []) false = true ∧ doneOk (sExit [tRemote]) true = true := by decide +kernel
/-- A saved team of a debugged context. -/
def sDebugSaved : State := { sDebug with teams := sDebug.teams.map fun t => { t with residence := .saved 0 true false } }
theorem witness_debuggerKill_saved : (execOf sDebugSaved (.gang 1 0) 0#8 default).any (fun x => (sDebugSaved.ctx? x.ctx).any (·.dbg)) = true ∧
    ((sDebugSaved.team? 1).map fun t => t.residence) = some (.saved 0 true false) ∧ (sDebugSaved.gang? 1 0).isSome = true ∧
    ((sDebug.team? 1).map fun t => t.residence) = some .resident := by decide +kernel
theorem witness_debuggerKill : (execOf sDebug (.gang 1 0) 0#8 default).any (fun x => (sDebug.ctx? x.ctx).any (·.dbg)) = true ∧
    (execOf tState (.gang 1 0) 0#8 default).any (fun x => !(tState.ctx? x.ctx).any (·.dbg)) = true := by decide +kernel
/-- A launch of 48 teams that each take all of a core's tensor memory, past its deadline of 5 ns. -/
def tLaunch (flags : Byte) : Launch :=
  { (default : Launch) with
    key := 3, deadline := 5#64
    p := { (default : PacketFields) with flags := flags, gx := 48#32, gy := 1#32, gz := 1#32, s := 1#8, w := 48#8, g := 1#8, regs := 8#8, ten := 256#16, zero := true } }
/-- A state with that launch, some time later. -/
def sLaunch (flags : Byte) (n : Nat) : State := { tState with launches := [tLaunch flags], tick := n }
/-- The premises of a missed deadline, with the flag of `lateDrop`. -/
def missOk (flags : Byte) (late : Bool) : Bool :=
  (sLaunch flags 9).awake && ((sLaunch flags 9).launch? 3).any fun l => !l.restamped && !l.dropped && decide (l.deadline.toNat < 9) && (l.p.lateDrop == late)
theorem witness_deadlineMiss : missOk 8#8 true = true ∧ missOk 0#8 false = true := by decide +kernel
theorem witness_forcedReset : ((sLaunch 0#8 (2 ^ 40)).ctx? 0).any (fun c => (sLaunch 0#8 (2 ^ 40)).limitPassed c) = true ∧
    ((sLaunch 0#8 9).ctx? 0).any (fun c => !(sLaunch 0#8 9).limitPassed c) = true := by decide +kernel
theorem witness_contextEnd : tState.start.ready = true ∧ tState.powered = true ∧ (tState.ctx? 0).isSome = true := by decide +kernel

/-- A state whose context has one frame slot at address 0 of a page of 64 MiB that the master reaches. -/
def sFrame (f : Team → Team) : State :=
  { withTeam f with
    ctxs := [{ Ctx.reset 0 with frame := 1#8 ++ 0#56 }]
    chips := Vector.ofFn fun _ => ⟨[⟨0, ⟨26, 0, 0x4000000, 0#2, 0#4, false, 7#3⟩⟩], 0#32⟩ }
/-- A team whose gang a page fault has stopped. -/
def tFault (t : Team) : Team := { t with gangs := [{ tGang with status := .faulted (.page 0x900000#56 1#3) 0#64 }] }
/-- A team of no gangs without a window, in a residence. -/
def tBare (r : Residence) (t : Team) : Team := { t with gangs := [], winSize := 0, residence := r }
/-- The premises of the first part of a save. -/
def saveOk (s : State) (p : Team → Ctx → Bool) : Bool := (s.team? 1).any fun tm => (s.ctx? tm.ctx).any fun c => !c.ending && p tm c
theorem witness_contextSave :
    saveOk (sFrame tFault) (fun tm c => tm.residence = .resident && tm.faultedGang = some (0, .page 0x900000#56 1#3) && c.freeSlot = some 0) = true ∧
    saveOk (withTeam tFault) (fun tm c => tm.residence = .resident && tm.faultedGang = some (0, .page 0x900000#56 1#3) && c.freeSlot = none) = true ∧
    saveOk (sFrame (tBare (.saving 0 false))) (fun tm _ => tm.residence = .saving 0 false && tm.faultedGang = none && !(sFrame (tBare (.saving 0 false))).saveWaits tm) = true ∧
    saveOk (sFrame fun t => { t with residence := .saving 0 false, gangs := [{ tGang with regs := { tGang.regs with pending := [tResult] } }] }) (fun tm _ =>
      tm.residence = .saving 0 false && tm.faultedGang = none && tState.saveWaits tm) = true := by decide +kernel
/-- The premises of a restore. -/
def restoreOk (s : State) (p : Team → Ctx → Bool) : Bool :=
  s.awake && saveOk s fun tm c => tm.residence = .saved 0 false false && s.firstClaim tm && p tm c
/-- A saved team beside one that fills its core. -/
def sCrowd : State := { sFrame (tBare (.saved 0 false false)) with teams := [tBare (.saved 0 false false) tTeam, { Team.placed 2 0#56 0 with winSize := 524288 },
  { Team.placed 3 0#56 0 with winSize := 0 }, { Team.placed 4 0#56 0 with winSize := 0 }, { Team.placed 5 0#56 0 with winSize := 0 }] }
theorem witness_teamRestore :
    restoreOk (sFrame (tBare (.saved 0 false false))) (fun tm c => ((sFrame (tBare (.saved 0 false false))).teamOfFrame tm (c.slotVa 0)).any fun x =>
      ((sFrame (tBare (.saved 0 false false))).roomOf tm.core fun _ => true).takes x.room) = true ∧
    restoreOk sCrowd (fun tm c => (sCrowd.teamOfFrame tm (c.slotVa 0)).any fun x => !(sCrowd.roomOf tm.core fun _ => true).takes x.room) = true ∧
    restoreOk { sFrame (tBare (.saved 0 false false)) with chips := tState.chips } (fun tm c =>
      ({ sFrame (tBare (.saved 0 false false)) with chips := tState.chips } : State).teamOfFrame tm (c.slotVa 0) = none) = true := by decide +kernel
/-- A parked ensemble whose team holds a granule of its core, and whose cluster's sequencer holds the ensemble of `tLaunch`. -/
def sParked (saved : Bool) : State :=
  let s := sFrame fun t => { tBare (if saved then .saved 0 false true else .resident) t with ensemble := 5, reserve := 1 }
  { s with
    ensembles := [⟨5, 0, 0, 0, [1], [], saved, saved, none⟩], launches := [tLaunch 0#8]
    seqs := [{ Seq.reset 0 with holding := [⟨3, 0, false, false⟩] }] }
theorem witness_parkedSave : (sParked false).awake = true ∧ ((sParked false).ensemble? 5).any (fun e => !e.parkedSaved && (sParked false).parked e &&
      (sParked false).parkedNeeded e) = true ∧ (((sParked false).teams.filter fun x => x.ensemble = 5 && x.residence = .resident).head?.bind fun x => (sParked false).ctx? x.ctx).any
      (fun c => !c.ending && decide (1 + c.slots.length ≤ c.nslot)) = true ∧ ((sParked false).saveParked [1]).isSome = true := by decide +kernel
theorem witness_parkedRestore : (sParked true).awake = true ∧ ((sParked true).ensemble? 5).any (fun e => e.parkedSaved && e.parkedReady &&
    ((sParked true).restoreParked e.teams).any Option.isSome) = true := by decide +kernel
theorem witness_served : tState.barOpen = true ∧
    (({ tState with ctxs := [{ Ctx.reset 0 with outstanding := [⟨3, 1, 0, 0, 0⟩] }] } : State).ctx? 0).any (fun c => (c.outstanding.find? fun r => r.idx = 3).isSome) = true ∧
    (({ tState with fabricOut := [⟨3, 1, 0, 0, 0⟩] } : State).fabricOut.find? fun r => r.idx = 3).any (fun r => decide (r.slot < 0x10000)) = true := by decide +kernel

/-- A packet in queue 1 of port 0 with a path to go or none. -/
def tPacket (slack : Nat) (path : List Nat) (queue : Nat) : Packet := { (default : Packet) with id := 6, queue := queue, slack := slack, path := path }
/-- A state with that packet. -/
def sPacket (slack : Nat) (path : List Nat) (queue : Nat) : State := { tState with packets := [tPacket slack path queue], tick := 8 }
theorem witness_packets : (sPacket 1 [] 1).packets.find? (fun q => q.id = 6) = some (tPacket 1 [] 1) ∧ (tPacket 1 [] 1).zeroSince = none ∧
    (tPacket 1 [] 1).slack - (8 - (tPacket 1 [] 1).entry) / 4 = 0 ∧ (sPacket 9 [] 1).packetHeld (tPacket 9 [] 1) = false ∧ (sPacket 9 [] 1).nextPacket 1 = some (tPacket 9 [] 1) ∧
    (sPacket 9 [] 1).pathAfter (tPacket 9 [] 1) = ([], none) ∧ (sPacket 9 [66] 1).nextPacket 1 = some (tPacket 9 [66] 1) ∧ (sPacket 9 [66] 1).pathAfter (tPacket 9 [66] 1) = ([66], none) ∧
    ({ tState with pairs := [{ Pair.reset 0 1 with next := some (false, 0#5) }] } : State).packetHeld (tPacket 9 [] (transmitQueue 0 1)) = true := by decide +kernel
theorem witness_coalesce : (⟨5, 0, true, [], 0#1024, false⟩ : Miss) ∈ (({ withCore (fun c => { c with misses := [⟨5, 0, true, [], 0#1024, false⟩] }) with tick := 27 } : State).core 0).misses ∧
    6 * (27 - 0) ≥ 5 * 32 := by decide +kernel
/-- A promotion to dies 0 and 3, and to die 0 alone. -/
def sPromote (ds : List Nat) : State := { tState with promotions := [⟨2, .gang 1 0, default, ds⟩] }
theorem witness_promotion : (sPromote [0]).promotions.find? (fun p => p.id = 2) = some ⟨2, .gang 1 0, default, [0]⟩ ∧ ([0].filter fun e => e ≠ 0) = [] ∧
    (∀ d ∈ [0, 3], (sPromote [0, 3]).pairHeld (default : Stamp).port d = false) ∧ (sPromote [0, 3]).promotions.find? (fun p => p.id = 2) = some ⟨2, .gang 1 0, default, [0, 3]⟩ ∧ ([0, 3].filter fun e => e ≠ 0) ≠ [] := by decide +kernel
theorem witness_remoteAck : (sExit [tRemote]).remote.find? (fun r => r.id = 4) = some tRemote ∧ (sExit [tRemote]).peerHeld tRemote.peer = false ∧
    (sExit [tRemote]).pairHeld ((sExit [tRemote]).dieOfUnit tRemote.who) ioPort = false ∧
    (((sExit [tRemote]).remote.takeWhile fun q => q.id ≠ 4).any fun q => q.touches tRemote.who tRemote.sector tRemote.mask) = false := by decide +kernel
/-- A state whose die 0 holds a sector, dirty or clean. -/
def sSector (dirty : BitVec 128) : State := tState.modDie 0 fun d => { d with cache := [{ (default : Sector) with key := 0x220, dirty := dirty }] }
theorem witness_eviction : ((sSector 0#128).die 0).sector? 0x220 = some { (default : Sector) with key := 0x220 } ∧
    (((sSector 1#128).die 0).sector? 0x220).any (fun z => z.dirty ≠ 0#128) = true := by decide +kernel
theorem witness_invalidation : ∀ n ∈ [1, 2], (({ tState with invals := [⟨4, some (.gang 1 0), List.range n⟩] } : State).invals.find? fun v => v.id = 4).any
    (fun v => decide (0 ∈ v.cores ∧ v.who = some (.gang 1 0)) && (decide ((v.cores.filter fun c => c ≠ 0) = []) == decide (n = 1))) = true ∧ tState.pairHeld (tState.dieOfUnit (.gang 1 0)) (dieOf 0) = false := by decide +kernel
theorem witness_eventPost : ({ tState with posts := [⟨4, 0, 0, 9#128⟩] } : State).posts.find? (fun p => p.id = 4) = some ⟨4, 0, 0, 9#128⟩ ∧
    tState.pairHeld (tState.producerPort 0) (0 / 6) = false := by decide +kernel
/-- A sequencer blocked in an `evwait` with a limit. -/
def sEvwait (k : Nat) : State := withSeq fun q => { q with status := .blocked (.evwait (some k)) 1 }
theorem witness_evwaitTimeout : ((sEvwait 0).seq 0).status = .blocked (.evwait (some 0)) 1 ∧ 0 ≤ ((sEvwait 0).tickOf (unitOfSeq 0)).toNat ∧
    ((sEvwait (2 ^ 64)).seq 0).status = .blocked (.evwait (some (2 ^ 64))) 1 ∧ ((sEvwait (2 ^ 64)).tickOf (unitOfSeq 0)).toNat < 2 ^ 64 :=
  ⟨by decide +kernel, Nat.zero_le _, by decide +kernel, BitVec.isLt _⟩

/-! ### The package -/

/-- A queue slot of a ring of 16 packets at 0x8000. -/
def tSlot (q : Nat) (cls : Byte) (head tail : W32) : QueueSlot := ⟨q, 0x8000#64, 4, cls, head, tail, 0#32, false, 0#64, 0#32, false⟩
/-- A state whose master reaches a page of 64 MiB, with numbers placed in it by offset, value and size. -/
def sSide (fs : List (Nat × Nat × Nat)) : State :=
  { sFrame id with mem := fs.foldl (fun m p => memPutBytes m (0x4000000 + p.1) (bytesOf p.2.1 p.2.2)) [] }
/-- That state with queues and their slots, and dies 0 and 1 in service. -/
def sQueues (fs : List (Nat × Nat × Nat)) (qs : List QueueReg) (xs : List QueueSlot) : State :=
  { sSide fs with queues := qs, slots := xs, dies := Vector.ofFn fun d => { Die.reset with inService := decide (d.val < 2) } }
/-- An open queue of context 0 whose descriptor is at 0x7000. -/
def tQueue (q : Nat) : QueueReg := { QueueReg.reset q with en := true, desc := 0x7000#64 }
/-- A result is a value of which `p` holds. -/
def okAnd {ε α : Type} (r : Except ε α) (p : α → Bool) : Bool :=
  match r with
  | .ok a => p a
  | .error _ => false
/-- The premises of a doorbell of queue 3. -/
def bellOk (x : QueueSlot) (p : State → QueueSlot → Bool) : Bool :=
  let s := sQueues [] [tQueue 3] [x]
  s.barOpen && (s.queue 3).en && okAnd ((s.rereadErr 3).queueView 3) (p (s.rereadErr 3))
theorem witness_doorbell : ((sQueues [] [] []).queue 3).en = false ∧ bellOk (tSlot 3 2#8 0#32 0#32) (fun _ x => x.deviceFed) = true ∧
    bellOk (tSlot 3 0#8 0#32 0#32) (fun _ x => !x.deviceFed && !x.leaving && !x.accepts 17#32) = true ∧
    bellOk { tSlot 3 0#8 0#32 0#32 with err := 0x103#32 } (fun s x => !x.deviceFed && !x.leaving && x.accepts 16#32 && !s.isStopped x) = true ∧
    (let s := { sQueues [(0x7028, 3, 4)] [tQueue 3] [{ tSlot 3 0#8 0#32 0#32 with err := 3#32 }] with tick := 1 }
     okAnd ((s.rereadErr 3).queueView 3) fun x => !x.deviceFed && !x.leaving && x.accepts 16#32 && (s.rereadErr 3).isStopped x) = true ∧
    bellOk (tSlot 3 0#8 0#32 0#32) (fun s x => !x.deviceFed && !x.leaving && x.accepts 16#32 && !s.isStopped x && !x.bestEffort && s.slot? 3 == some x) = true ∧
    bellOk { tSlot 3 0#8 0#32 0#32 with leaving := true } (fun _ x => !x.deviceFed && x.leaving && !x.bestEffort) = true ∧
    (let s := sQueues [(0x7000, 0x8001, 8)] [tQueue 3] []
     (s.queue 3).en && !okAnd ((s.rereadErr 3).queueView 3) fun _ => true) = true := by decide +kernel
/-- A wait packet at 0x8000 on the word at 0x9000 for a value. -/
def waitPacket (v : Nat) : List (Nat × Nat × Nat) := [(0x8000, 2, 1), (0x8008, 0x9000, 8), (0x8010, v, 8)]
/-- A descriptor at 0x7000 of a queue with one packet, whose ring is at 0x8000. -/
def descOf : List (Nat × Nat × Nat) := [(0x7000, 0x8000, 8), (0x7008, 4, 1), (0x7014, 1, 4)]
/-- 128 mapped queues without work, of numbers from 100. -/
def full : List QueueSlot := (List.range 128).map fun i => tSlot (100 + i) 0#8 0#32 0#32
theorem witness_queueSwitch :
    (let s := sQueues descOf [tQueue 3] [{ tSlot 5 0#8 0#32 0#32 with leaving := true }]
     s.awake && s.brokenQueue == none && (s.slots.find? fun x => x.leaving).any fun x =>
       let r := s.releaseSlot x
       (match r.ranked r.unmapped with
        | _ :: _ => true
        | [] => false) && decide (r.slots.length < 128)) = true ∧
    (let s := sQueues [] [] [{ tSlot 5 0#8 0#32 0#32 with leaving := true }]
     s.brokenQueue == none && (s.slots.find? fun x => x.leaving).any fun x => let r := s.releaseSlot x
       (r.ranked r.unmapped).isEmpty) = true ∧
    (let s := sQueues descOf [tQueue 3] []
     (s.slots.find? fun x => x.leaving).isNone && !(s.ranked s.unmapped).isEmpty && decide (s.slots.length < 128)) = true ∧
    (let s := sQueues descOf [tQueue 3] full
     (s.slots.find? fun x => x.leaving).isNone && decide (128 ≤ s.slots.length) &&
       (match s.ranked s.unmapped, (s.ranked s.slots).getLast? with
        | b :: _, some w => b.1.isSome && rankAhead b w
        | _, _ => false)) = true ∧
    (let s := sQueues [(0x7000, 0x8001, 8), (0x7008, 4, 1), (0x7014, 1, 4)] [tQueue 3] []
     s.awake && s.brokenQueue == some (3, 2)) = true ∧
    (let s := sQueues (descOf ++ waitPacket 1) [tQueue 300] full
     (match s.ranked s.unmapped, (s.ranked s.slots).getLast? with
      | b :: _, some w => decide (128 ≤ s.slots.length) && s.brokenQueue == none && (b.1.isNone || !rankAhead b w)
      | _, _ => false)) = true := by decide +kernel
/-- A launch packet at 0x8000: one team of one gang. -/
def launchPacket : List (Nat × Nat × Nat) :=
  [(0x8000, 1, 1)]
/-- A signal packet that writes 5 to the word at 0x9000. -/
def signalPacket : List (Nat × Nat × Nat) := [(0x8000, 3, 1), (0x8002, 3, 1), (0x8008, 0x9000, 8), (0x8010, 5, 8)]
theorem witness_launchDeal :
    (let s := sQueues launchPacket [tQueue 3] [tSlot 3 0#8 0#32 1#32]
     s.awake && (firstBy (fun a b => rankAhead a.1 b.1) (s.dealJobs fun _ => true)).any fun j =>
       (s.dealJobs fun d => d = 0).contains j && j.2 == none && (s.slot? j.1.2).isSome) = true ∧
    (let s := { sQueues [] [] [tSlot 0 0#8 0#32 0#32] with launches := [{ tLaunch 0#8 with lost := [(0, none)] }] }
     s.awake && (firstBy (fun a b => rankAhead a.1 b.1) (s.dealJobs fun _ => true)).any fun j =>
       (s.dealJobs fun d => d = 0).contains j && j.2 == some 3 && (s.launch? 3).isSome && !(s.dealJobs fun d => d = 5).contains j) = true ∧
    firstBy (fun a b => rankAhead a.1 b.1) ((sQueues [] [] []).dealJobs fun _ => true) = none := by decide +kernel
/-- The head packet of queue 3 with work. -/
def headOk (fs : List (Nat × Nat × Nat)) (p : State → HeadPacket → Bool) : Bool :=
  let s := sQueues fs [tQueue 3] [tSlot 3 0#8 0#32 1#32]
  s.awake && (s.queue 3).en && okAnd (s.queueView 3) fun x => s.slot? 3 == some x && s.hasWork x && !x.leaving && p s (s.headPacket x)
theorem witness_waitSignal : headOk (waitPacket 0) (fun _ h => h = .wait true) = true ∧ headOk (waitPacket 1) (fun _ h => h = .wait false) = true ∧
    headOk signalPacket (fun s h => h = .signal 0x4009000 5 && !s.launches.any fun l => decide (l.queue = 3) && !l.early) = true ∧
    ({ sQueues signalPacket [tQueue 3] [tSlot 3 0#8 0#32 1#32] with launches := [{ tLaunch 0#8 with queue := 3 }] } : State).launches.any (fun l => decide (l.queue = 3) && !l.early) = true := by
  decide +kernel
/-- A state with that launch, a range of it on die 0 or none, and ensembles of it that cluster 0 holds. -/
def sDeal (rs : List DieRange) (hs : List HeldEnsemble) : State :=
  let s := sQueues [] [] []
  { s with
    teams := [], launches := [tLaunch 0#8], dies := Vector.ofFn fun d => { Die.reset with inService := decide (d.val < 2), ranges := if d.val = 0 then rs else [] }
    seqs := [{ Seq.reset 0 with holding := hs }] }
theorem witness_dieDeal :
    (let s := sDeal [⟨3, 0, 1, false, false⟩] []
     s.awake && !(s.die 0).fenced && decide ((s.seq 0).holding.length < 64) &&
       (firstBy s.rangeOrder ((s.die 0).ranges.filter fun r => (s.launch? r.launch).any fun l => r.reissued || s.eligible l.ctx l.p 0)).isSome) = true ∧
    (let s := sDeal [] []
     (firstBy s.rangeOrder ((s.die 0).ranges.filter fun r => (s.launch? r.launch).any fun l => r.reissued || s.eligible l.ctx l.p 0)).isNone) = true := by decide +kernel
theorem witness_ensembleStart :
    (let s := sDeal [] [⟨3, 0, false, false⟩]
     s.awake && !(s.die 0).fenced && (s.die 0).inService && (s.nextStart 0).any fun a =>
       (a.l.p.teamsOf a.held.index == 48) && coresHold (s.rooms 0 fun _ => true) a.l.p.need (List.range 48) &&
         !coresHold (s.rooms 0 fun _ => true) a.l.p.need (List.replicate 48 0)) = true ∧
    (let s := { sDeal [] [⟨3, 0, false, false⟩] with
       teams := [{ Team.placed 2 0#56 0 with launch := 4, reserve := 1 }], launches := [tLaunch 0#8, { tLaunch 4#8 with key := 4, deadline := 9#64 }] }
     s.nextStart 0 == none && (s.startPreempts 0).isSome) = true := by decide +kernel
theorem witness_steal :
    (let s := sDeal [] [⟨3, 0, false, false⟩]
     s.awake && !(s.die 0).fenced && !(s.die 1).fenced && (s.die 0).inService && (s.die 1).inService && !(s.seq 6).halted && !(s.seq 6).asked && (s.seq 6).holding.isEmpty && !s.pairHeld 1 0 &&
       decide ((s.seq 0).steals.length < 8) && ((s.rooms 6 fun _ => true).any fun r => decide (r.places > 0))) = true ∧
    (let s := (sDeal [] [⟨3, 0, false, false⟩]).modSeq 0 fun q => { q with steals := [⟨6, []⟩] }
     s.awake && !(s.die 0).fenced && !(s.seq 0).steals.isEmpty && !s.pairHeld 0 1 &&
       { s with pairs := [{ Pair.reset 0 1 with next := some (false, 0#5) }] }.pairHeld 0 1) = true := by decide +kernel
/-- A sequencer that a trap has stopped holds an ensemble and starts none, and its restart lets it (R454). -/
theorem witness_halted :
    (let s := sDeal [] [⟨3, 0, false, false⟩]
     let h := s.stopSeq 0
     (s.nextStart 0).isSome && (h.seq 0).halted && (h.nextStart 0).isNone && ((h.startSeq 0).nextStart 0).isSome) = true := by decide +kernel

/-- A chain of mover 0 in a slot, with its control block at 0x1000 or 0x1080. -/
def tChain (slot : Nat) : Registration := ⟨0, slot, true, 0#10, BitVec.ofNat 56 (0x1000 + 0x80 * slot), true, 0, none, false⟩
/-- A descriptor of a slot, by offset, value and size, in its chain. -/
def tDesc (slot : Nat) (fs : List (Nat × Nat × Nat)) : List (Nat × Nat × Nat) :=
  [(0x1000 + 0x80 * slot, 0x2000 + 0x80 * slot, 8), (0x1010 + 0x80 * slot, 1, 4), (0x1014 + 0x80 * slot, 1, 4)] ++
    fs.map fun p => (0x2000 + 0x80 * slot + p.1, p.2)
/-- A state with chains and descriptors. -/
def sChain (n : Nat) (fs : List (Nat × Nat × Nat)) : State := { sSide fs with registrations := (List.range n).map tChain }
/-- The head of chain 0 is a descriptor of which `p` holds. -/
def takesOk (s : State) (p : Taken → Bool) : Bool :=
  s.awake && (s.chain? 0 0).any fun r =>
    match s.chainHead r with
    | .take d => p d
    | _ => false
/-- A mover range that is there. -/
def runs {ε : Type} (r : Except ε Run) : Bool := okAnd r fun _ => true
theorem witness_moverCopy :
    takesOk (sChain 1 (tDesc 0 [])) (fun d => !d.wellFormed) = true ∧
    takesOk (sChain 1 (tDesc 0 [(0x0C, 1, 1), (0x20, 8, 8)])) (fun d => d.wellFormed && d.op == 1 && d.field 0x20 8 % 16 != 0) = true ∧
    (let s := sChain 1 (tDesc 0 [(0x0C, 1, 1), (0x10, 0x4000, 8), (0x18, 0x5000, 8), (0x20, 32, 8)])
     takesOk s fun d => d.wellFormed && d.op == 1 && d.field 0x20 8 % 16 == 0 && runs (s.rangeOf d d.ctx (d.field 0x10 8) (d.field 0x20 8) 1#3) &&
       runs (s.rangeOf d d.ctx (d.field 0x18 8) (d.field 0x20 8) 2#3) && !rangesMeet (d.field 0x10 8) (d.field 0x18 8) (d.field 0x20 8)) = true ∧
    (let s := { sChain 1 (tDesc 0 [(0x0C, 1, 1), (0x10, 0x4000, 8), (0x18, 0x5000, 8), (0x20, 32, 8)]) with
       pairs := (List.range 12).map fun c => { Pair.reset 21 (9 + c) with rail0 := false, rail1 := false } }
     takesOk s fun d => d.wellFormed && d.op == 1 && d.field 0x20 8 % 16 == 0 &&
       (match s.rangeOf d d.ctx (d.field 0x10 8) (d.field 0x20 8) 1#3 with
       | .error .wait => true
       | _ => false)) = true ∧
    (let s := sChain 1 (tDesc 0 [(0x0C, 1, 1), (0x10, 0x100000000, 8), (0x20, 32, 8)])
     takesOk s fun d => d.wellFormed && d.op == 1 && d.field 0x20 8 % 16 == 0 && (match s.rangeOf d d.ctx (d.field 0x10 8) (d.field 0x20 8) 1#3 with
       | .error (.code 3 va) => va == 0x100000000
       | _ => false)) = true ∧
    (let s := sChain 1 []
     s.awake && (s.chain? 0 0).any fun r => match s.chainHead r with
       | .idle => true
       | _ => false) = true := by decide +kernel
/-- A collective of two members of this module with one `f32` element each or two, its tables at 0x3000 and 0x3080. -/
def sPairOf (op : Nat) (tables : List (Nat × Nat × Nat)) : State :=
  sChain 2 (tDesc 0 [(0x0C, op, 1), (0x0D, 0x12, 1), (0x18, 0x4000, 8), (0x20, 2, 8), (0x28, 0x3000, 8), (0x30, 2, 2), (0x34, 9, 4)] ++
    tDesc 1 [(0x0C, op, 1), (0x0D, 0x12, 1), (0x18, 0x5000, 8), (0x20, 2, 8), (0x28, 0x3080, 8), (0x30, 2, 2), (0x32, 1, 2), (0x34, 9, 4)] ++ tables)
/-- The limits of a collective's descriptor. -/
def limitsOk (d : Taken) : Bool := d.wellFormed && decide (2 ≤ d.field 0x30 2 ∧ d.field 0x30 2 ≤ 512 ∧ d.field 0x32 2 < d.field 0x30 2)
theorem witness_ring :
    (let s := sPairOf 0x10 [(0x3000, 0x4000, 8), (0x3008, 0x5000, 8)]
     takesOk s fun d => limitsOk d && d.op == 0x10 && d.field 0x20 8 % d.field 0x30 2 == 0 && d.ty.any fun t => okAnd (s.peerTable d (d.field 0x30 2)) fun table =>
       table[d.field 0x32 2]? == some (d.field 0x18 8) && okAnd (s.membersOf d (s.sharers d.tag) table) fun ms =>
         !((membersHere ms).any fun m => !d.agrees m) && okAnd (s.buffers d (d.bufferBytes t) ms) fun _ => true) = true ∧
    (let s := sPairOf 0x10 []
     takesOk s fun d => limitsOk d && d.op == 0x10 && d.field 0x20 8 % d.field 0x30 2 == 0 && d.ty.isSome && okAnd (s.peerTable d (d.field 0x30 2)) fun table =>
       table[d.field 0x32 2]? != some (d.field 0x18 8)) = true := by decide +kernel
theorem witness_tree :
    (let s := sPairOf 0x11 [(0x3008, 0x5000, 8), (0x3080, 0x4000, 8)]
     takesOk s fun d => limitsOk d && d.op == 0x11 && d.ty.any fun t => !d.exact t && (match s.rootOf (s.sharers d.tag) (d.field 0x30 2) d with
       | .ok (root, false) => okAnd (s.subtree t (s.sharers d.tag) (d.field 0x30 2) s.free root) fun x => x.here.length == 2
       | _ => false)) = true := by decide +kernel
/-- A frame of 64 bytes. -/
def tFrame : List Byte := List.replicate 64 7#8
theorem witness_ethernet :
    takesOk (sChain 1 (tDesc 0 [(0x0C, 0x20, 1), (0x20, 63, 8)])) (fun d => d.wellFormed && d.op == 0x20 && decide (d.field 0x20 8 < 64)) = true ∧
    (let s := sChain 1 (tDesc 0 [(0x0C, 0x20, 1), (0x10, 0x4000, 8), (0x20, 64, 8), (0x38, 3, 1)])
     takesOk s fun d => d.wellFormed && d.op == 0x20 && decide (64 ≤ d.field 0x20 8 ∧ d.field 0x20 8 ≤ 9216 ∧ d.field 0x38 1 ≤ 3) &&
       runs (s.rangeOf d d.ctx (d.field 0x10 8) (d.field 0x20 8) 1#3)) = true ∧
    (let s := sChain 1 (tDesc 0 [(0x0C, 0x21, 1), (0x18, 0x4000, 8), (0x20, 64, 8)])
     takesOk s (fun d => d.wellFormed && d.op == 0x21 && decide (d.field 0x38 1 ≤ 3) && (s.ethPort 0).received.isEmpty &&
       runs (s.rangeOf d d.ctx (d.field 0x18 8) 72 2#3)) && decide (s.portReceivers 0 = 1 ∧ (s.ethPort 0).received.length < s.portReceivers 0 ∧ 64 ≤ tFrame.length)) = true ∧
    ((tState.modEth 0 fun e => { e with received := [tFrame] }).ethPort 0).received ≠ [] ∧ tState.portReceivers 0 ≤ (tState.ethPort 0).received.length := by decide +kernel
theorem witness_links : tState.awake = true ∧ tState.powered = true ∧ tState.start.ready = true ∧ tState.link0 = true ∧ tState.linkUp 0 = true ∧
    ({ tState with start := { tState.start with ready := false } } : State).linkUp 0 = true ∧ (sQueues [] [] []).slot? 3 = none ∧
    (sQueues [] [tQueue 3] [tSlot 3 0#8 0#32 0#32]).slot? 3 = some (tSlot 3 0#8 0#32 0#32) ∧
    (sQueues [] [tQueue 3] [{ tSlot 3 0#8 0#32 0#32 with leaving := true }]).slot? 3 = some { tSlot 3 0#8 0#32 0#32 with leaving := true } := by decide +kernel

theorem witness_registers : tState.barOpen = true ∧ tState.groundRuns = true ∧ tState.firmwareOpen = true ∧ (0x12345 % 8 = 4 ∨ 0x12340 % 8 = 0) ∧ (8 * 0x12345) % 64 ≠ 0 ∧ ({ tState with link0 := false } : State).barOpen = false ∧
    (tState.die 0).way = 0#16 ∧ (tState.die 0).fenced = false ∧ (tState.ctx? 0).any (fun c => c.inv.isNone) = true ∧
    (({ tState with ctxs := [{ Ctx.reset 0 with inv := some (0, 65536) }] } : State).ctx? 0).any (fun c => c.inv.isSome) = true ∧
    pairExists 0 22 = true ∧ pairExists 22 22 = false ∧ (0x20#32).getLsbD 23 = false ∧ (0x20#32).getLsbD 5 = true ∧ tState.relayTaken 0 22 0 = false ∧
    tState.relayTaken 0 22 3 = true ∧ (tState.seq 53).run = false ∧ (tState.die 8).fenced = false ∧ tState.stopped = false ∧ ((withSeq id).seq 0).run = true ∧
    (tState.switchCmds.filter fun c => c.st = 0#2).length < 16 ∧
    16 ≤ (({ tState with switchCmds := List.replicate 16 ⟨0#384, 0#8, 0#2⟩ } : State).switchCmds.filter fun c => c.st = 0#2).length := by decide +kernel
/-- A state with a pair register. -/
def sLink (p : Pair) : State := { tState with pairs := [p], tick := 100000 }
theorem witness_routes :
    (sLink { Pair.reset 0 1 with next := some (true, 3#5) }).onRoute 0 1 = false ∧ ((sLink { Pair.reset 0 1 with next := some (true, 3#5) }).pair 0 1).next = some (true, 3#5) ∧
    ({ sLink { Pair.reset 0 1 with rlyen := true, relay := 3#5 } with packets := [{ (default : Packet) with queue := transmitQueue 3 1, relayed := some (0, 1, 4) }] } : State).onRoute 0 1 = true ∧
    (tState.pair 0 22).railUp (11 / 6) = true ∧ tState.railOut 0 22 1 = false ∧
    (let s := sLink { Pair.reset 0 9 with rail0 := false, rail1 := false, lostAt := some 0 }
     s.awake && pairExists 0 9 && decide ((s.pair 0 9).lostAt = some 0 ∧ 0 + 100000 ≤ s.tick ∧ (s.pair 0 9).rlyen = false ∧ (s.pair 0 9).next = none) &&
       [max 0 9, min 0 9].find? (fun e => decide (e ≤ 8)) == some 0 && ((sQueues [] [] []).die 0).alive) = true ∧
    (let s := sLink { Pair.reset 9 22 with rail0 := false, rail1 := false, lostAt := some 0 }
     decide ((s.pair 9 22).lostAt = some 0 ∧ (s.pair 9 22).rlyen = false ∧ (s.pair 9 22).next = none) && [max 9 22, min 9 22].find? (fun e => decide (e ≤ 8)) == none) = true := by
  decide +kernel
theorem witness_lanes : tState.powered = true ∧ (tState.retrains.any fun r => r.lane = .utium 47 0) = false ∧ (tState.retrains.any fun r => r.lane = .router 0 22 11) = false ∧
    ∀ n ∈ [0, 2], (({ tState with retrains := [⟨.utium 47 0, n⟩] } : State).retrains.find? fun r => r.lane = .utium 47 0) = some ⟨.utium 47 0, n⟩ ∧ n < 3 := by decide +kernel
/-- A state with a command for the switch matrix and a topology that allows it or not. -/
def sSwitch (allowed : List (BitVec 384)) : State := { tState with switchCmds := [⟨BitVec.allOnes 384, 0#8, 0#2⟩], topology := some ⟨0#9, [], allowed⟩ }
theorem witness_switch : (sSwitch []).awake = true ∧ (sSwitch []).switchCmds.find? (fun c => c.st = 0#2) = some ⟨BitVec.allOnes 384, 0#8, 0#2⟩ ∧
    (sSwitch []).rejection ⟨0#9, [], []⟩ (BitVec.allOnes 384) = some 1#8 ∧ (sSwitch []).topology = some ⟨0#9, [], []⟩ ∧
    (sSwitch [BitVec.allOnes 384]).rejection ⟨0#9, [], [BitVec.allOnes 384]⟩ (BitVec.allOnes 384) = none := by decide +kernel

theorem witness_poison : 128 * 3 < scratchSize ((tState.modDie 0 fun d => { d with way := 1#16 }).die 0).way ∧
    (tState.team? 1).any (fun tm => decide (128 * 31 < tm.winSize ∧ tm.residence = .resident)) = true := by decide +kernel
theorem witness_errors : ((sSector 0#128).die 0).sector? 0x220 ≠ none ∧ ((sSector 1#128).die 0).error = none ∧ ((sQueues [] [] []).die 0).alive = true ∧
    (((sQueues [] [] []).modDie 0 fun d => { d with error := some (2#8, 5#16) }).die 0).error = some (2#8, 5#16) ∧ tState.powered = true ∧ tState.link0 = true ∧
    tState.link1 = false ∧ ({ tState with link1 := true } : State).link1 = true := by decide +kernel
/-- A state in the start, at a phase. -/
def sStart (n : Nat) : State := { tState with start := { State.reset.start with phase := n } }
theorem witness_starts : (sStart 0).powered = true ∧ (sStart 0).start.ready = false ∧ (sStart 0).start.safe = false ∧ (sStart 0).start.failed = false ∧ (sStart 0).start.phase = 0 ∧
    ((sStart 2).startStep 4).isSome = true ∧ (sStart 1).startStep 4 = none ∧ 1 ≤ (sStart 8).start.phase ∧ (sStart 8).start.phase ≤ 8 ∧ (sStart 9).start.phase = 9 ∧
    ((sStart 8).startStep 4).isSome = true ∧ ((sStart 9).startStep 4).isSome = true ∧ tState.start.ready = true ∧
    ({ tState with start := { tState.start with ready := false, failed := true } } : State).start.failed = true := by decide +kernel

/-- `nop`. -/
def wNop : W128 := (blank.raw 0xC7#8).bits
/-- The invariant holds of a state that steps. -/
theorem witness_invariant : Memory.wf (sRun wNop).mem = true ∧ (sRun wNop).start.legal = true ∧ (match step (sRun wNop) with
    | .next _ => true
    | _ => false) = true := by decide +kernel

end Sys2Proof.Tests
end

section
/-! The scope of the machine (R12, R68): every instruction form and every event answers a next state, so that every step ends in one. -/

namespace Sys2Proof.Machine

/-! ## Every event answers a next state -/

/-- Every event's meaning is a next state whatever it finds: it has no case that stops. -/
theorem exec_event_next {i : Instr} (hi : i.parts = none) (s : State) : ∃ t, exec i s = .next t := by
  cases i
  all_goals cases hi
  all_goals exact ⟨_, rfl⟩

/-! ## Every instruction form that a unit issues answers a next state -/

/-- `mcopy` is the one form of its opcode. -/
theorem eq_mcopy_of_parts {i : Instr} {w : Fields} (hp : i.parts = some (0x98#8, w)) : i = .mcopy w := by
  cases i
  case mcopy v => cases hp; rfl
  all_goals simp [Instr.parts] at hp

/-- A form that a unit issues answers a next state: an `mcopy` with a follow-on word after the fetch of that word (R342), every other form as the issue of its opcode. -/
theorem exec_form_next {i : Instr} {op : BitVec 8} {w : Fields} {s : State} (hp : i.parts = some (op, w)) (hs : s.issues) :
    ∃ t, exec i s = .next t := by
  by_cases hm : op = 0x98#8 ∧ w.fn = 1#4
  · obtain ⟨rfl, -⟩ := hm
    rw [eq_mcopy_of_parts hp]
    exact execMcopy_next hs w
  · obtain ⟨late, mem, body, -, he⟩ := exec_issue s hp hm
    rw [he]
    exact issue_answers hs _ _ _ _ _

theorem exec_next {i : Instr} {s : State} (hs : s.issues) : ∃ t, exec i s = .next t := by
  cases hp : i.parts with
  | none => exact exec_event_next hp s
  | some p => exact exec_form_next hp hs

/-! ## What a turn runs -/

/-- The current unit issues where it consults anything at all. -/
theorem issues_of_execOf {s : State} {u : Issuer} {op : BitVec 8} {w : Fields} {x : Exec} (hc : s.cur = some u)
    (hx : execOf s u op w = some x) : s.issues :=
  ⟨u, hc, execOf_isSome (Option.isSome_of_eq_some hx)⟩

/-- An instruction runs by the turn of a unit only where that unit issues: the fetch of its word leaves the units as they are. -/
theorem issueTurn_issues {s t : State} {u : Issuer} {i : Instr} (h : s.issueTurn u = .run i t) : t.issues := by
  unfold State.issueTurn at h
  split at h
  · dsimp only at h
    split at h
    · cases h
    · next x hx =>
      have hi := issues_of_execOf rfl hx
      have hf := fetch_unit { s.firstAcquire u with cur := some u } x
      split at h
      · cases h
      · next t' w he =>
        rw [he] at hf
        split at h
        · cases h
        · cases h
          exact issues_of_unit hi hf.1 hf.2
  · cases h

/-- What a turn runs, the fetch and the decode behind it, answers a next state. -/
theorem prepare_next {s s' : State} {t : Turn} {i : Instr} (h : s.prepare t = .run i s') : ∃ r, exec i s' = .next r := by
  cases t with
  | issue u => exact exec_next (issueTurn_issues h)
  | event j =>
    unfold State.prepare at h
    dsimp only at h
    split at h
    · next hj => cases h; exact exec_event_next (Option.isNone_iff_eq_none.1 hj) _
    · cases h
  | dropLine | dropWord | dropTlb | dropSeqTlb | dropChipTlb => cases h

/-- Settles O42: a step has no turn, a turn that is over when it is prepared, or one whose instruction or event answers a next state. -/
theorem neverStops : Obligations.NeverStops := by
  intro s
  unfold completes step
  split
  · exact ⟨_, rfl⟩
  · next t s0 _ =>
    cases hp : s0.prepare t with
    | done s1 => exact ⟨_, rfl⟩
    | run i s1 =>
      obtain ⟨r, hr⟩ := prepare_next hp
      exact ⟨r.pass, by simp only [hr]⟩

end Sys2Proof.Machine
end

section
/-! The stores of global memory (R307) and the commands of the matrix unit (R328): what an issue answers once its checks have passed or failed. -/

namespace Sys2Proof.Machine

/-- A body of a gang that traps, of an instruction other than `brk`: the trap is raised from the state before the issue. -/
theorem issue_memBody_raise {s : State} {t : Trap} {k : IssueKind} {op : BitVec 8} {w : Fields} {x : Exec} {len : Nat}
    {f : Env → State → Except Stop State} {v : Gang} (h : Issues s k op w x) (hs : x.seq = false) (hv : s.gang? x.t x.g = some v)
    (ho : op ≠ 0xFF#8) (hf : f ((moveOn x len s).env x (v.moved x len)) (moveOn x len s) = .error (.trap t)) :
    issue k op w len (memBody f) s = .next (raiseTrap x t false s) := by
  simpa only [ho, decide_false] using issue_memBody_trap h hs hv hf

/-! ## `st` and `stg` -/

/-- `st` and `stg` are the store of global memory under their opcodes, neither of which is that of `brk`. -/
theorem exec_store {i : Instr} {op : BitVec 8} {w : Fields} (hi : (i = .st w ∧ op = 0x81#8) ∨ (i = .stg w ∧ op = 0x8F#8)) :
    op ≠ 0xFF#8 ∧ ∀ s, exec i s = storeGlobal op w s := by
  obtain ⟨rfl, rfl⟩ | ⟨rfl, rfl⟩ := hi
  · exact ⟨by decide, fun _ => rfl⟩
  · exact ⟨by decide, fun _ => rfl⟩

/-- Settles O23: the store's body runs its checks, then its release, then its requests, and a trap of the checks ends it before the others. -/
theorem globalStoresStoreTheirRequests : Obligations.GlobalStoresStoreTheirRequests := by
  intro i w op s x v hi h hs hv m e size d f
  obtain ⟨ho, hx⟩ := exec_store hi
  rw [hx]
  constructor
  · intro s1 s2 as ha hb
    exact issue_memBody h hs hv (by simp only [ha, env_x, hb, m, e, size, d, f])
  · intro s1 t ha
    exact issue_memBody_raise h hs hv ho (by simp only [ha, m, e, size, d])

/-! ## `mma`, `mmat`, `mperm` and `mrsum` -/

section
variable {op : BitVec 8} {kind : CmdKind} {w : Fields} {s s1 : State} {x : Exec} {v : Gang}
  (h : Issues s (kindTile false) op w x) (hs : x.seq = false) (hv : s.gang? x.t x.g = some v)
include h hs hv

/-- A word of the matrix family whose checks pass and which nothing makes wait: its command is accepted. -/
theorem matrixForm_accepts {c : Command}
    (hc : ((moveOn x 16 s).env x (v.moved x 16)).matrixCommand (moveOn x 16 s) kind = (s1, .ok c)) (hw : s1.commandWait x [c] = none) :
    matrixForm op kind w s = .next (finish x (s1.accept x c)) :=
  issue_memBody h hs hv (by simp only [hc, env_x, submit_ok hw])

/-- A word of the matrix family whose command has something to wait for: it waits with no effect. -/
theorem matrixForm_waits {c : Command} {why : Wait}
    (hc : ((moveOn x 16 s).env x (v.moved x 16)).matrixCommand (moveOn x 16 s) kind = (s1, .ok c)) (hw : s1.commandWait x [c] = some why) :
    matrixForm op kind w s = .next (waitUnit x why s) :=
  issue_memBody_wait h hs hv (by simp only [hc, env_x, submit_wait hw])

/-- A word of the matrix family that fails a check: its trap is raised from the state before the issue. -/
theorem matrixForm_traps {t : Trap} (ho : op ≠ 0xFF#8)
    (hc : ((moveOn x 16 s).env x (v.moved x 16)).matrixCommand (moveOn x 16 s) kind = (s1, .error t)) :
    matrixForm op kind w s = .next (raiseTrap x t false s) :=
  issue_memBody_raise h hs hv ho (by simp only [hc])

end

/-- The four instructions are the matrix form of their kinds under their opcodes, none of which is that of `brk`. -/
theorem exec_matrix {i : Instr} {op : BitVec 8} {kind : CmdKind} {w : Fields}
    (hi : (i = .mma w ∧ op = 0x90#8 ∧ kind = .mma) ∨ (i = .mmat w ∧ op = 0x91#8 ∧ kind = .mmat) ∨
      (i = .mperm w ∧ op = 0x92#8 ∧ kind = .mperm) ∨ (i = .mrsum w ∧ op = 0x93#8 ∧ kind = .mrsum)) :
    op ≠ 0xFF#8 ∧ ∀ s, exec i s = matrixForm op kind w s := by
  obtain ⟨rfl, rfl, rfl⟩ | ⟨rfl, rfl, rfl⟩ | ⟨rfl, rfl, rfl⟩ | ⟨rfl, rfl, rfl⟩ := hi
  all_goals exact ⟨by decide, fun _ => rfl⟩

/-! ## `tcvt` and `tzero` -/

/-- A failing check that stands first is the one that is raised. -/
theorem firstFault_head (t : Trap) (l : List (Option Trap)) : firstFault (some t :: l) = some t := rfl

/-- The checks of handles do not see a change of one gang. -/
@[simp] theorem heldFault_setGang (x : Exec) (tm : Team) (g : Nat) (v : Gang) (h : BitVec 5) :
    heldFault x (tm.setGang g v) h = heldFault x tm h := rfl

@[simp] theorem columnFault_setGang (tm : Team) (g : Nat) (v : Gang) (h : BitVec 5) (c n : Nat) :
    columnFault (tm.setGang g v) h c n = columnFault tm h c n := rfl

@[simp] theorem handle_setGang (tm : Team) (g : Nat) (v : Gang) (h : BitVec 5) : (tm.setGang g v).handle h = tm.handle h := rfl

@[simp] theorem withHandles_setGang (c : Command) (tm : Team) (g : Nat) (v : Gang) (d a : Operand) :
    c.withHandles (tm.setGang g v) d a = c.withHandles tm d a := rfl

section
variable {w : Fields} {s : State} {x : Exec} {v : Gang} {tm : Team} (hs : x.seq = false) (hv : s.gang? x.t x.g = some v)
  (ht : s.team? x.t = some tm)
include hs hv ht

/-- `tcvt` whose checks pass and which nothing makes wait. -/
theorem execTcvt_accepts (h : Issues s (kindTile false) 0x96#8 w x) {c : Command}
    (hc : c = (((moveOn x 16 s).env x (v.moved x 16)).command .tcvt).withHandles tm w.d w.a)
    (hd : heldFault x tm (handleOf w.d) = none) (ha : heldFault x tm (handleOf w.a) = none)
    (hcd : columnFault tm (handleOf w.d) (w.imm.extractLsb' 0 9).toNat (mdCols w.md) = none)
    (hca : columnFault tm (handleOf w.a) (w.imm.extractLsb' 9 9).toNat (mdCols w.md) = none)
    (hr : exactPair (tm.handle (handleOf w.a)).ty (tm.handle (handleOf w.d)).ty = true → w.imm.extractLsb' 28 4 = 0#4)
    (hw : (moveOn x 16 s).commandWait x [c] = none) : execTcvt w s = .next (finish x ((moveOn x 16 s).accept x c)) := by
  subst hc
  refine issue_memBody h hs hv ?_
  have hx : ¬ (exactPair (tm.handle (handleOf w.a)).ty (tm.handle (handleOf w.d)).ty = true ∧ w.imm.extractLsb' 28 4 ≠ 0#4) :=
    fun hp => hp.2 (hr hp.1)
  simp only [env_x, team_moved_gang h.2.1 hs ht hv, heldFault_setGang, columnFault_setGang, handle_setGang, withHandles_setGang,
    hd, ha, hcd, hca, hx, if_false, firstFault, List.findSome?, id, submit_ok hw]

/-- `tcvt` whose destination handle is not held. -/
theorem execTcvt_traps (h : Issues s (kindTile false) 0x96#8 w x) {t : Trap} (hd : heldFault x tm (handleOf w.d) = some t) :
    execTcvt w s = .next (raiseTrap x t false s) :=
  issue_memBody_raise h hs hv (by decide)
    (by simp only [env_x, team_moved_gang h.2.1 hs ht hv, heldFault_setGang, hd, firstFault_head])

/-- `tzero` whose checks pass and which nothing makes wait. -/
theorem execTzero_accepts (h : Issues s (kindTile false) 0x97#8 w x) {c : Command}
    (hc : c = (((moveOn x 16 s).env x (v.moved x 16)).command .tzero).withHandles tm w.d .none)
    (hd : heldFault x tm (handleOf w.d) = none)
    (hcd : columnFault tm (handleOf w.d) (w.imm.extractLsb' 0 9).toNat (mdCols w.md) = none)
    (hw : (moveOn x 16 s).commandWait x [c] = none) : execTzero w s = .next (finish x ((moveOn x 16 s).accept x c)) := by
  subst hc
  refine issue_memBody h hs hv ?_
  simp only [env_x, team_moved_gang h.2.1 hs ht hv, heldFault_setGang, columnFault_setGang, withHandles_setGang,
    hd, hcd, firstFault, List.findSome?, id, submit_ok hw]

/-- `tzero` whose handle is not held. -/
theorem execTzero_traps (h : Issues s (kindTile false) 0x97#8 w x) {t : Trap} (hd : heldFault x tm (handleOf w.d) = some t) :
    execTzero w s = .next (raiseTrap x t false s) :=
  issue_memBody_raise h hs hv (by decide)
    (by simp only [env_x, team_moved_gang h.2.1 hs ht hv, heldFault_setGang, hd, firstFault_head])

end

/-- Settles O29: each instruction's checks decide between its trap, its wait and its one accepted command. -/
theorem matrixCommandsAreAccepted : Obligations.MatrixCommandsAreAccepted := by
  refine ⟨?_, ?_, ?_⟩
  · intro i w op kind s x v hi h hs hv m e
    obtain ⟨ho, hx⟩ := exec_matrix hi
    rw [hx]
    exact ⟨fun _ _ => matrixForm_accepts h hs hv, fun _ _ _ => matrixForm_waits h hs hv, fun _ _ => matrixForm_traps h hs hv ho⟩
  · intro w s x v tm h hs hv ht m d a c
    exact ⟨execTcvt_accepts hs hv ht h rfl, fun _ => execTcvt_traps hs hv ht h⟩
  · intro w s x v tm h hs hv ht m d c
    exact ⟨execTzero_accepts hs hv ht h rfl, fun _ => execTzero_traps hs hv ht h⟩

end Sys2Proof.Machine
end

section
/-! Writes of the management space, router pairs, lanes and the switch matrix (R20 to R23, R246, R247, R292, R368, R389, R481, R482, R485 to R492, R506): what each event answers. -/

namespace Sys2Proof.Machine

/-! ## Writes by offset and width (R481, R482) -/

section
variable {s : State} {off : Nat} (hb : s.barOpen = true)
include hb

/-- A 64-bit write at an aligned offset writes the whole register. -/
theorem execRegisterWrite_whole (ha : off % 8 = 0) (v : W64) :
    execRegisterWrite off 64 v s = .next (s.writeSpace off (BitVec.allOnes 64) v) := by
  simp [execRegisterWrite, hb, ha]

/-- A 32-bit write at an aligned offset of a register writes its low half. -/
theorem execRegisterWrite_lowHalf (ha : off % 8 = 0) (v : W64) :
    execRegisterWrite off 32 v s = .next (s.writeSpace off 0xFFFFFFFF#64 (v &&& 0xFFFFFFFF#64)) := by
  simp [execRegisterWrite, hb, ha]

/-- A 32-bit write 4 bytes into a register writes its high half. -/
theorem execRegisterWrite_highHalf (ha : off % 8 = 4) (v : W64) :
    execRegisterWrite off 32 v s = .next (s.writeSpace (off - 4) 0xFFFFFFFF00000000#64 (v <<< 32)) := by
  simp [execRegisterWrite, hb, ha]

end

/-- A write of another width, or at an offset that is no multiple of its width, is none of the three that are taken. -/
theorem execRegisterWrite_ignored {s : State} {off width : Nat} (h : (width ≠ 32 ∧ width ≠ 64) ∨ (8 * off) % width ≠ 0) (v : W64) :
    execRegisterWrite off width v s = .next s := by
  have hwhole : ¬ (width = 64 ∧ off % 8 = 0) := by rintro ⟨rfl, ha⟩; omega
  have hlow : ¬ (width = 32 ∧ off % 8 = 0) := by rintro ⟨rfl, ha⟩; omega
  have hhigh : ¬ (width = 32 ∧ off % 8 = 4) := by rintro ⟨rfl, ha⟩; omega
  simp only [execRegisterWrite, if_neg hwhole, if_neg hlow, if_neg hhigh, ite_self]

/-- While the management space is closed, a write past the start control register is ignored. -/
theorem execRegisterWrite_closed {s : State} {off : Nat} (hb : s.barOpen = false) (ho : off ≠ 0) (width : Nat) (v : W64) :
    execRegisterWrite off width v s = .next s := by
  simp [execRegisterWrite, hb, ho]

/-! ## Invalidations (R485) -/

/-- A write of the invalidation control starts an invalidation where none runs. -/
theorem writeInv_idle {s : State} {ctx : Nat} {c : Ctx} (hc : s.ctx? ctx = some c) (hi : c.inv = none) (v : W64) :
    s.writeInv ctx v = s.startInv ctx v := by
  simp [State.writeInv, hc, hi]

/-- A write of the invalidation control is held while an invalidation runs. -/
theorem writeInv_busy {s : State} {ctx : Nat} {c : Ctx} (hc : s.ctx? ctx = some c) (hi : c.inv ≠ none) (v : W64) :
    s.writeInv ctx v = s.modCtx ctx fun c => { c with invs := c.invs ++ [v] } := by
  simp [State.writeInv, hc, Option.isSome_iff_ne_none.2 hi]

/-! ## Way masks (R246, R247) -/

/-- A mask of all 16 ways is rejected, and one that is there already changes nothing. -/
theorem writeWay_same {s : State} {die : Nat} {way : BitVec 16} (h : way = BitVec.allOnes 16 ∨ way = (s.die die).way) :
    s.writeWay die way = s :=
  if_pos (h.imp_right .inl)

/-- A new mask of a working die empties the ways that pass to die scratch and zeroes all of die scratch. -/
theorem writeWay_new {s : State} {die : Nat} {way : BitVec 16} (hr : way ≠ BitVec.allOnes 16) (hn : way ≠ (s.die die).way)
    (hf : (s.die die).fenced = false) :
    s.writeWay die way = (if way &&& ~~~ (s.die die).way = 0#16 then s else s.evictAll die).modDie die fun d =>
      { d with way := way, scratch := [], scratchPoison := [] } :=
  if_neg (by simp only [hr, hn, hf, Bool.false_eq_true, or_self, not_false_eq_true])

/-! ## Router pairs (R20 to R23, R389, R491) -/

section
variable {s : State} {i j : Nat}

/-- A write to a pair without a register is ignored. -/
theorem writePair_absent (hp : pairExists i j = false) (v : W32) : s.writePair i j v = s :=
  if_pos (by simp [hp])

/-- A write of a pair register without `CLR` goes by its relay alone. -/
theorem writePair_route (hp : pairExists i j = true) {v : W32} (hc : v.getLsbD 23 = false) :
    s.writePair i j v =
      if v.getLsbD 5 = true ∧ ¬ s.relayTaken i j (v.extractLsb' 0 5).toNat then s
      else s.modPair i j fun p => { p with next := some (v.getLsbD 5, v.extractLsb' 0 5) } := by
  simp only [State.writePair, hp, hc, not_true, Bool.false_eq_true, if_false]

/-- A relay that R21 rejects changes nothing. -/
theorem writePair_rejected (hp : pairExists i j = true) {v : W32} (hc : v.getLsbD 23 = false) (he : v.getLsbD 5 = true)
    (hr : s.relayTaken i j (v.extractLsb' 0 5).toNat = false) : s.writePair i j v = s := by
  rw [writePair_route hp hc, if_pos ⟨he, Bool.not_eq_true _ ▸ hr⟩]

/-- A relay that R21 takes, or none, is written and awaits its effect. -/
theorem writePair_taken (hp : pairExists i j = true) {v : W32} (hc : v.getLsbD 23 = false)
    (h : v.getLsbD 5 = false ∨ s.relayTaken i j (v.extractLsb' 0 5).toNat = true) :
    s.writePair i j v = s.modPair i j fun p => { p with next := some (v.getLsbD 5, v.extractLsb' 0 5) } := by
  rw [writePair_route hp hc, if_neg]
  rintro ⟨he, hr⟩
  obtain hn | ht := h
  · exact Bool.false_ne_true (hn.symm.trans he)
  · exact hr ht

/-- `CLR` of a pair register clears the fault count of a pair that exists. -/
theorem execPairFaultCountClear_exists (hb : s.barOpen = true) (hp : pairExists i j = true) :
    execPairFaultCountClear i j s = .next (s.modPair i j fun p => { p with fcnt := 0#8 }) :=
  congrArg Host.Outcome.next (if_pos ⟨hb, hp⟩)

theorem execPairFaultCountClear_absent (hp : pairExists i j = false) : execPairFaultCountClear i j s = .next s :=
  congrArg Host.Outcome.next (if_neg (by simp [hp]))

/-- A written route waits while a packet is on the former one (R22). -/
theorem execRouteChangeEffect_waits (h : s.onRoute i j = true) : execRouteChangeEffect i j s = .next s :=
  congrArg Host.Outcome.next (if_pos h)

/-- A written route takes effect once no packet is on the former one (R22). -/
theorem execRouteChangeEffect_applies (h : s.onRoute i j = false) {en : Bool} {relay : BitVec 5}
    (hn : (s.pair i j).next = some (en, relay)) :
    execRouteChangeEffect i j s = .next (s.modPair i j fun p => { p with rlyen := en, relay := relay, next := none }) := by
  simp [execRouteChangeEffect, h, hn]

/-- A lost colour takes its rail down, and is counted and posted (R20). -/
theorem loseRail_up {plane : Nat} (hp : pairExists i j = true) (hl : plane < 12) (hu : (s.pair i j).railUp (plane / 6) = true) :
    s.loseRail i j plane = { s.modPair i j fun p =>
        let q := p.setRail (plane / 6) false
        { q with fcnt := if q.fcnt = 255#8 then q.fcnt else q.fcnt + 1#8, lostAt := if q.up then q.lostAt else some s.tick } with
      studioNotices := s.studioNotices + 1 } :=
  if_pos ⟨hp, hl, hu⟩

/-- A rail none of whose lanes is out returns (R491). -/
theorem execRailRelock_returns {rail : Nat} (hw : s.powered = true) (hp : pairExists i j = true) (hr : rail < 2)
    (ho : s.railOut i j rail = false) :
    execRailRelock i j rail s = .next (s.modPair i j fun p => { p.setRail rail true with lostAt := none }) :=
  congrArg Host.Outcome.next (if_pos ⟨hw, hp, hr, by simp [ho]⟩)

section
variable {t : Nat} (ha : s.awake = true) (hp : pairExists i j = true) (hl : (s.pair i j).lostAt = some t) (ht : t + 100000 ≤ s.tick)
  (hr : (s.pair i j).rlyen = false) (hn : (s.pair i j).next = none)
include ha hp hl ht hr hn

/-- The loss of a pair has lasted the limit with no relay named: the guard of its timeout holds (R23). -/
theorem pairLoss_due :
    (((s.pair i j).lostAt.any fun t => decide (t + 100000 ≤ s.tick)) && !((s.pair i j).rlyen || (s.pair i j).next.any fun n => n.1) &&
      s.awake && pairExists i j) = true := by
  simp only [hl, hr, hn, ha, hp, ht, Option.any_some, Option.any_none, decide_true, Bool.or_false, Bool.not_false, Bool.and_true]

/-- An end that is a compute die is fenced, the higher port of two. -/
theorem execPairLossTimeout_fences {e : Nat} (he : [max i j, min i j].find? (fun e => decide (e ≤ 8)) = some e)
    (hd : (s.die e).alive = true) : execPairLossTimeout i j s = .next (s.fence e 5#8 0#16) := by
  simp only [execPairLossTimeout, pairLoss_due ha hp hl ht hr hn, he, hd, if_true]

/-- Between other ends the loss is an uncontained error. -/
theorem execPairLossTimeout_fatal (he : [max i j, min i j].find? (fun e => decide (e ≤ 8)) = none) :
    execPairLossTimeout i j s = .next (s.fatal i 5#8 0#16) := by
  simp only [execPairLossTimeout, pairLoss_due ha hp hl ht hr hn, he, if_true]

end

end

/-! ## Sequencers (R506) -/

/-- A stopped sequencer of a working die starts at `SPC`. -/
theorem startSeq_stopped {s : State} {n : Nat} (hn : n < 54) (hr : (s.seq n).run = false) (hf : (s.die (n / 6)).fenced = false)
    (hs : s.stopped = false) :
    s.startSeq n = s.setSeq { s.seq n with
      pc := (s.seq n).spc, csp := 0#64, run := true, halted := false, status := .ready, handler := none, heldTrap := none, emul := false } :=
  if_pos ⟨hn, by simp [hr], by simp [hf], by simp [hs]⟩

/-- A start of a running sequencer is ignored. -/
theorem startSeq_running {s : State} {n : Nat} (hr : (s.seq n).run = true) : s.startSeq n = s :=
  if_neg (by simp [hr])

/-! ## Lanes (R490 to R492) -/

section
variable {s : State}

/-- A Utium lane that loses lock retrains. -/
theorem execLaneLossOfLock_utium {port lane : Nat} (hw : s.powered = true) (hl : port < 48)
    (hr : (s.retrains.any fun r => r.lane = .utium port lane) = false) :
    execLaneLossOfLock (.utium port lane) s = .next { s with retrains := s.retrains ++ [⟨.utium port lane, 0⟩] } := by
  simp only [execLaneLossOfLock, hw, hr, hl, not_true, Bool.false_eq_true, or_self, if_false, if_true]

/-- A router lane that loses lock takes its rail down and retrains. -/
theorem execLaneLossOfLock_router {i j plane : Nat} (hw : s.powered = true) (hp : pairExists i j = true) (hl : plane < 12)
    (hr : (s.retrains.any fun r => r.lane = .router i j plane) = false) :
    execLaneLossOfLock (.router i j plane) s =
      .next { s.loseRail i j plane with retrains := s.retrains ++ [⟨.router i j plane, 0⟩] } := by
  simp only [execLaneLossOfLock, hw, hr, hp, hl, not_true, Bool.false_eq_true, or_self, and_self, if_false, if_true]

variable {lane : LaneName} {r : Retrain} (hf : s.retrains.find? (fun r => r.lane = lane) = some r)
include hf

/-- A retraining that locks is over. -/
theorem execRetrainAttemptEnd_locks (hn : r.failures < 3) :
    execRetrainAttemptEnd lane true s = .next { s with retrains := s.retrains.filter fun r => r.lane ≠ lane } := by
  simp only [execRetrainAttemptEnd, hf, Nat.not_le.2 hn, if_false, if_true]

/-- A failure before the third in a row is counted and does nothing more. -/
theorem execRetrainAttemptEnd_fails (hn : r.failures < 2) :
    execRetrainAttemptEnd lane false s = .next { s with
      retrains := replaceIf (fun (r : Retrain) => decide (r.lane = lane)) (fun (r : Retrain) => { r with failures := r.failures + 1 }) s.retrains } := by
  have hgo : ¬ r.failures ≥ 3 := by omega
  have hthird : r.failures + 1 ≠ 3 := by omega
  cases lane with
  | utium port k => simp only [execRetrainAttemptEnd, hf, hgo, hthird, Bool.false_eq_true, if_false]
  | router i j plane => simp only [execRetrainAttemptEnd, hf, hgo, Bool.false_eq_true, if_false]

end

/-! ## The switch matrix (R292, R368, R487, R488) -/

section
variable {s : State}

/-- A command is queued while fewer than 16 are pending. -/
theorem execSwitchMatrixCommand_queued (ho : s.firmwareOpen = true) (hl : (s.switchCmds.filter fun c => c.st = 0#2).length < 16)
    (asg : BitVec 384) :
    execSwitchMatrixCommand asg s = .next { s with switchCmds := s.switchCmds ++ [⟨asg, 0#8, 0#2⟩] } :=
  congrArg Host.Outcome.next (if_pos ⟨ho, hl⟩)

/-- A command to the full queue is ignored. -/
theorem execSwitchMatrixCommand_full (hl : 16 ≤ (s.switchCmds.filter fun c => c.st = 0#2).length) (asg : BitVec 384) :
    execSwitchMatrixCommand asg s = .next s :=
  congrArg Host.Outcome.next (if_neg fun h => Nat.not_lt.2 hl h.2)

variable {c : SwitchCmd} {t : Topology} (ha : s.awake = true) (hf : s.switchCmds.find? (fun c => c.st = 0#2) = some c)
  (ht : s.topology = some t)
include ha hf ht

/-- A command that R487 forbids is rejected with its reason, and changes nothing else. -/
theorem execSwitchCommandApplied_rejected {why : Byte} (hr : s.rejection t c.asg = some why) :
    execSwitchCommandApplied s = .next { s with switchCmds := settleCmd why 2#2 s.switchCmds } := by
  simp only [execSwitchCommandApplied, ha, hf, ht, hr, if_true]

/-- An allowed command lights its circuits, ends the remote operations and translations of the old epoch, and begins one new epoch. -/
theorem execSwitchCommandApplied_applied (hr : s.rejection t c.asg = none) :
    let r := ({ s.light t c.asg with switchCmds := settleCmd 0#8 1#2 s.switchCmds }.settleRemotes s.remote).forgetCircuits
    execSwitchCommandApplied s = .next { r with epoch := r.epoch + 1#64 } := by
  simp only [execSwitchCommandApplied, ha, hf, ht, hr, if_true]
  rfl

end

/-! ## The obligation -/

/-- An event whose guard holds answers what its update gives. -/
theorem next_of_guard {p : Prop} [Decidable p] (hp : p) {a b c : State} (h : a = c) :
    (.next (if p then a else b) : Host.Outcome State Fault Refusal) = .next c := by
  rw [if_pos hp, h]

/-- Settles O53: each event is the update of its register or its lane under a guard, which the premises of its clause decide. -/
theorem registersRoutesLanesAndCircuits : Obligations.RegistersRoutesLanesAndCircuits := by
  refine ⟨?_, ?_, ?_, ?_, ?_, ?_, ?_, ?_, ?_, ?_, ?_, ?_, ?_⟩
  · intro s hb
    refine ⟨?_, ?_, ?_, ?_, ?_, ?_, ?_, ?_, ?_, ?_, ?_⟩
    · exact fun _ v ha => ⟨execRegisterWrite_whole hb ha v, execRegisterWrite_lowHalf hb ha v⟩
    · exact fun _ v ha => execRegisterWrite_highHalf hb ha v
    · exact fun _ _ v h => execRegisterWrite_ignored h v
    · exact fun _ v _ hc => ⟨fun hi => next_of_guard hb (writeInv_idle hc hi v), fun hi => next_of_guard hb (writeInv_busy hc hi v)⟩
    · exact next_of_guard hb rfl
    · exact fun _ _ _ hp hc =>
        ⟨fun he hr => next_of_guard hb (writePair_rejected hp hc he hr), fun h => next_of_guard hb (writePair_taken hp hc h)⟩
    · exact fun _ _ v hp => ⟨next_of_guard hb (writePair_absent hp v), execPairFaultCountClear_absent hp⟩
    · exact fun _ _ hp => execPairFaultCountClear_exists hb hp
    · exact fun _ => next_of_guard hb rfl
    · exact fun _ hn hr hf hs => next_of_guard hb (startSeq_stopped hn hr hf hs)
    · exact fun _ hr => next_of_guard hb (startSeq_running hr)
  · exact fun s hg => ⟨fun _ _ h => next_of_guard hg (writeWay_same h), fun _ _ hr hn hf => next_of_guard hg (writeWay_new hr hn hf)⟩
  · exact fun s ho asg => ⟨fun hl => execSwitchMatrixCommand_queued ho hl asg, fun hl => execSwitchMatrixCommand_full hl asg⟩
  · exact fun s hb _ width v ho => execRegisterWrite_closed hb ho width v
  · exact fun s _ _ h _ _ hn => execRouteChangeEffect_applies h hn
  · exact fun s _ _ h => execRouteChangeEffect_waits h
  · exact fun s _ _ _ hw hp hl hu => next_of_guard hw (loseRail_up hp hl hu)
  · exact fun s _ _ _ hw hp hr ho => execRailRelock_returns hw hp hr ho
  · exact fun s _ _ _ ha hp hl ht hr hn =>
      ⟨fun _ he hd => execPairLossTimeout_fences ha hp hl ht hr hn he hd, execPairLossTimeout_fatal ha hp hl ht hr hn⟩
  · exact fun s hw =>
      ⟨fun _ _ hl hr => execLaneLossOfLock_utium hw hl hr, fun _ _ _ hp hl hr => execLaneLossOfLock_router hw hp hl hr⟩
  · exact fun s _ _ hf hn => ⟨execRetrainAttemptEnd_locks hf hn, execRetrainAttemptEnd_fails hf⟩
  · exact fun _ _ => rfl
  · exact fun s _ _ ha hf ht =>
      ⟨fun _ hr => execSwitchCommandApplied_rejected ha hf ht hr, execSwitchCommandApplied_applied ha hf ht⟩

end Sys2Proof.Machine
end

section
/-! Rejoin and exit (R53, R56, R224 to R226), the checks at issue (R55, R68, R71, R148) and the step that runs a unit's word (R67, R68). -/

namespace Sys2Proof.Machine

/-! ## `regang`, `exit` and `nop` -/

/-- Lanes that leave a gang, where they do not end its team and leave no clash of identifiers, change that gang alone. -/
theorem dropLanes_eq_setGang {s : State} {x : Exec} {v : Gang} {lanes : Mask} (hv : s.gang? x.t x.g = some v)
    (hend : (v.dropLanes lanes).live ≠ 0#32 ∨ v.handler.any terminal = false) (hc : (v.dropLanes lanes).rejoinClash = false) :
    s.dropLanes x lanes = s.setGang x.t x.g (v.dropLanes lanes) := by
  have hstay : ¬ ((v.dropLanes lanes).live = 0#32 ∧ v.handler.any terminal = true) := by
    rintro ⟨hl, ht⟩
    obtain h | h := hend
    · exact h hl
    · exact Bool.false_ne_true (h.symm.trans ht)
  simp only [State.dropLanes, hv, if_neg hstay, State.clashTrap, State.gang?_setGang _ _ _ _ _ hv, hc, Bool.false_eq_true, if_false]

/-- `regang` where the identifiers do not clash: the sub-gang waits, and rejoins when it is the last (R53, R224). -/
theorem execRegang_waits {w : Fields} {s : State} {x : Exec} {v : Gang} (h : Issues s kindPlain 0xC5#8 w x) (hs : x.seq = false)
    (hv : s.gang? x.t x.g = some v) (hc : ((v.moved x 16).waitAt x.quads x.pc w.imm).rejoinClash = false) :
    ∃ t, execRegang w s = .next t ∧ gangBecomes x (fun u => ((u.moved x 16).waitAt x.quads x.pc w.imm).rejoinIfAll) s t := by
  refine issue_gangBody h hs hv ?_ rfl
  simp only [hc, Bool.false_eq_true, if_false]

/-- `exit` of a gang: the lanes of its condition leave, where that ends no team and leaves no clash (R56, R225). -/
theorem execExit_gang {w : Fields} {s : State} {x : Exec} {v : Gang} (h : Issues s kindPlain 0xC6#8 w x) (hs : x.seq = false)
    (hv : s.gang? x.t x.g = some v)
    (hend : ((v.moved x 16).dropLanes (x.sub &&& s.condition x w.a)).live ≠ 0#32 ∨ v.handler.any terminal = false)
    (hc : ((v.moved x 16).dropLanes (x.sub &&& s.condition x w.a)).rejoinClash = false) :
    ∃ t, execExit w s = .next t ∧ gangBecomes x (fun y => (y.moved x 16).dropLanes (x.sub &&& s.condition x w.a)) s t := by
  obtain ⟨_, _, hu, -⟩ := gang_unit h.2.1 hs
  refine issue_gang h hs hv ?_ rfl
  simp only [hu, condition_moved h.2.1, dropLanes_eq_setGang (moved_gang h.2.1 hs hv 16).1 hend hc]

/-- `exit` of a sequencer stops it (R225). -/
theorem execExit_seq {w : Fields} {s : State} {x : Exec} (h : Issues s kindPlain 0xC6#8 w x) (hs : x.seq = true) :
    ∃ t, execExit w s = .next t ∧ seqBecomes x (fun q => { q with pc := x.pc + 16#56, emul := false, run := false }) s t := by
  obtain ⟨hu, hq⟩ := moved_seq h.2.1 hs 16
  refine issue_seq h hs ?_ ?_ rfl
  · simp only [hu, State.modSeq, hq]
  · exact State.seq_idx s x.cluster

/-- `nop` moves on and changes nothing else (R226). -/
theorem execNop_id {w : Fields} {s : State} {x : Exec} (h : Issues s kindPlain 0xC7#8 w x) :
    ∃ t, execNop w s = .next t ∧ regsBecome x id s t :=
  issue_id (body := fun _ s => .ok s) h rfl

/-- Settles O10: each of the three is the change of the issuing unit that its body makes. -/
theorem regangExitNopEffects : Obligations.RegangExitNopEffects := by
  refine ⟨?_, ?_, ?_, ?_⟩
  · exact fun _ _ _ _ h hs hv hc => execRegang_waits h hs hv hc
  · exact fun _ _ _ _ h hs hv hend hc => execExit_gang h hs hv hend hc
  · exact fun _ _ _ h hs => execExit_seq h hs
  · exact fun _ _ _ h => execNop_id h

/-! ## The checks at issue -/

section
variable {k : IssueKind} {x : Exec} {alloc : Nat}

/-- A privileged kind outside a privileged handler fails the first check. -/
theorem issueCheck_unprivileged (hk : k.priv = true) (hp : x.priv = false) : issueCheck k x alloc = some (protectionOnce 0#56) :=
  if_pos ⟨hk, by simp [hp]⟩

variable (hk : k.priv = true → x.priv = true) (hs : x.seq = false)
include hk hs

/-- A gang's issue that privilege allows and that names a gated register fails the second check. -/
theorem issueCheck_gated {r : Nat} (hr : gatedReg x.op x.w alloc = some r) :
    issueCheck k x alloc = some (.coded 0x22#8 (detailOp x.op (BitVec.ofNat 24 r))) := by
  simp only [issueCheck, if_neg fun h : k.priv = true ∧ ¬ x.priv = true => h.2 (hk h.1), hs, Bool.false_eq_true, if_false, hr]

variable (hr : gatedReg x.op x.w alloc = none)
include hr

/-- Past privilege and allocation, a gang's issue is checked for convergence, and then for its guard. -/
theorem issueCheck_allocated : issueCheck k x alloc =
    if k.conv = true ∧ x.quads ≠ x.liveQuads then some (illegalState x 1#8)
    else if k.uniform = true ∧ x.part ≠ 0#32 ∧ x.part ≠ x.sub then some (illegalState x 4#8) else none := by
  simp only [issueCheck, if_neg fun h : k.priv = true ∧ ¬ x.priv = true => h.2 (hk h.1), hs, Bool.false_eq_true, if_false, hr,
    not_false_eq_true, true_and]

/-- A kind that requires a converged gang fails the third check where the sub-gang lacks a live quad. -/
theorem issueCheck_unconverged (hc : k.conv = true) (hq : x.quads ≠ x.liveQuads) : issueCheck k x alloc = some (illegalState x 1#8) := by
  rw [issueCheck_allocated hk hs hr, if_pos ⟨hc, hq⟩]

/-- A kind that acts once fails the last check where its guard differs among the lanes of the sub-gang. -/
theorem issueCheck_mixedGuard (hc : k.conv = true → x.quads = x.liveQuads) (hu : k.uniform = true) (hz : x.part ≠ 0#32)
    (hp : x.part ≠ x.sub) : issueCheck k x alloc = some (illegalState x 4#8) := by
  rw [issueCheck_allocated hk hs hr, if_neg fun h => h.2 (hc h.1), if_pos ⟨hu, hz, hp⟩]

end

/-- Settles O43: every form is an issue of its opcode's kind, and the first check that fails gives the trap. -/
theorem issueChecksTrap : Obligations.IssueChecksTrap := by
  intro i op w s x hp hcur he hm
  obtain ⟨late, mem, body, -, hi⟩ := exec_issue s hp hm
  obtain ⟨-, rfl, rfl⟩ := execOf_u he
  have trapOf {t : Trap} (h : issueCheck (checkKind x.op x.w late mem) x (s.allocOf x.u) = some t) :
      exec i s = .next (raiseTrap x t false s) := by
    rw [hi]
    exact issue_stopped hcur he h
  refine ⟨fun hk hx => trapOf (issueCheck_unprivileged hk hx), fun hk hs => ⟨fun r hr => trapOf (issueCheck_gated hk hs hr), fun hr => ?_⟩⟩
  exact ⟨fun hc hq => trapOf (issueCheck_unconverged hk hs hr hc hq),
    fun hc hu hz hx => trapOf (issueCheck_mixedGuard hk hs hr hc hu hz hx)⟩

/-! ## A step -/

section
variable {s s0 : State}

/-- A turn that is over when it is prepared. -/
theorem step_done {t : Turn} {s1 : State} (hn : s.nextTurn = (some t, s0)) (hp : s0.prepare t = .done s1) : step s = .next s1.pass := by
  simp only [step, hn, hp]

/-- A turn that runs an instruction or an event which answers a next state. -/
theorem step_run {t : Turn} {i : Instr} {s1 s2 : State} (hn : s.nextTurn = (some t, s0)) (hp : s0.prepare t = .run i s1)
    (he : exec i s1 = .next s2) : step s = .next s2.pass := by
  simp only [step, hn, hp, he]

end

section
variable {s s1 s2 : State} {u : Issuer} {x : Exec} (hm : s.mayIssue u = true) (h1 : s1 = { s.firstAcquire u with cur := some u })
  (hx : execOf s1 u 0#8 default = some x)
include hm h1 hx

/-- A word that cannot be fetched: the turn of its unit raises the trap of the fetch. -/
theorem issueTurn_unfetched {t : Trap} (hf : s1.fetch x = (s2, .error t)) : s.issueTurn u = .done (raiseTrap x t false s2) := by
  subst h1
  simp only [State.issueTurn, hm, if_true, hx, hf]

/-- A word that does not decode: the turn of its unit raises the trap of the decoder. -/
theorem issueTurn_undecoded {w : W128} {e : DecodeTrap} (hf : s1.fetch x = (s2, .ok w)) (hd : decode x.seq w = .error e) :
    s.issueTurn u = .done (raiseTrap { x with op := w.extractLsb' 120 8 } (trapOfDecode e) false s2) := by
  subst h1
  simp only [State.issueTurn, hm, if_true, hx, hf, hd]

/-- A word that decodes: the turn of its unit runs its instruction. -/
theorem issueTurn_decoded {w : W128} {i : Instr} (hf : s1.fetch x = (s2, .ok w)) (hd : decode x.seq w = .ok i) :
    s.issueTurn u = .run i s2 := by
  subst h1
  simp only [State.issueTurn, hm, if_true, hx, hf, hd]

end

/-- An event's turn runs it without an issuing unit. -/
theorem prepare_event {s : State} {i : Instr} (hi : isEvent i = true) : s.prepare (.event i) = .run i { s with cur := none } :=
  if_pos hi

/-- Settles O41: the turn is prepared by the fetch and the decode, and the step runs what was prepared. -/
theorem stepRunsTheDecodedInstruction : Obligations.StepRunsTheDecodedInstruction := by
  refine ⟨?_, ?_⟩
  · intro s s0 s1 u x hn hm h1 hx
    refine ⟨fun s2 t hf => step_done hn (issueTurn_unfetched hm h1 hx hf), fun s2 w hf => ⟨fun e hd => ?_, fun i t hd he => ?_⟩⟩
    · exact step_done hn (issueTurn_undecoded hm h1 hx hf hd)
    · exact step_run hn (issueTurn_decoded hm h1 hx hf hd) he
  · exact fun s s0 t i hn hi he => step_run hn (prepare_event hi) he

end Sys2Proof.Machine
end

section
/-! Steps of a gang that no word encodes (R49 to R51, R60, R88, R96, R154, R285, R322, R323, R405, R434, R437): what a result leaves in the gang, and what each step answers. -/

namespace Sys2Proof.Machine

/-! ## What a result writes (R51, R60, R88) -/

@[simp] theorem putCond_pending (r : Regs) (i : BitVec 3) (b : Bool) : (r.putCond i b).pending = r.pending := by
  unfold Regs.putCond
  split <;> rfl

/-- A fold of updates none of which changes a field leaves the field. -/
theorem foldl_keeps {α β γ : Type} (f : α → β → α) (field : α → γ) (h : ∀ a b, field (f a b) = field a) (l : List β) (a : α) :
    field (l.foldl f a) = field a :=
  (List.foldl_hom field (g₂ := fun c _ => c) fun a b => (h a b).symm).symm.trans (List.foldl_fixed l)

/-- Writes of scalar registers leave the outstanding results. -/
@[simp] theorem foldl_putSca_pending (l : List ScaWrite) (r : Regs) :
    (l.foldl (fun (u : Regs) w => u.putSca w.reg w.halves w.value w.poison) r).pending = r.pending :=
  foldl_keeps (fun u w => u.putSca w.reg w.halves w.value w.poison) Regs.pending (fun _ _ => rfl) l r

/-- Writes of scalar conditions leave the outstanding results. -/
@[simp] theorem foldl_putCond_pending (l : List (BitVec 3 × Bool)) (r : Regs) :
    (l.foldl (fun (u : Regs) w => u.putCond w.1 w.2) r).pending = r.pending :=
  foldl_keeps (fun u w => u.putCond w.1 w.2) Regs.pending (fun u w => putCond_pending u w.1 w.2) l r

section
variable (v : Gang) (r : Result) (tick : Nat)

/-- A result that returns leaves the outstanding results, and those before it lose what it writes. -/
theorem applyResult_pending : (v.applyResult r tick).regs.pending = returnResult r v.regs.pending := by
  simp only [Gang.applyResult, foldl_putCond_pending, foldl_putSca_pending]

/-- A result without scalar destinations leaves the scalar registers and the conditions, and its flags are OR-ed (R51). -/
theorem applyResult_regs (hs : r.sca = []) (hc : r.cond = []) :
    (v.applyResult r tick).regs.s = v.regs.s ∧ (v.applyResult r tick).regs.k = v.regs.k ∧
      (v.applyResult r tick).regs.fpflags = v.regs.fpflags ||| r.flags := by
  simp only [Gang.applyResult, hs, hc, List.foldl_nil, Regs.orFlags, and_self]

variable {v r} {w : VecWrite} {u : VReg} (hr : r.vec = [w]) (hu : v.vregs[w.reg]? = some u)
include hr hu

/-- A result with one vector destination replaces that register by what it receives. -/
theorem applyResult_vregs : (v.applyResult r tick).vregs = setNth (u.receive w v.live tick) v.vregs w.reg := by
  simp only [Gang.applyResult, hr, List.foldl_cons, List.foldl_nil, hu]

/-- The register that the result names is there after it. -/
theorem applyResult_vreg : (v.applyResult r tick).vregs[w.reg]? = some (u.receive w v.live tick) := by
  obtain ⟨hlt, -⟩ := List.getElem?_eq_some_iff.1 hu
  rw [applyResult_vregs tick hr hu, getElem?_setNth _ _ _ hlt]

/-- No other register changes. -/
theorem applyResult_vreg_other {k : Nat} (hk : k ≠ w.reg) : (v.applyResult r tick).vregs[k]? = v.vregs[k]? := by
  rw [applyResult_vregs tick hr hu, getElem?_setNth_other _ _ _ _ hk]

end

/-- A lane receives a write where the write names it and it is live (R60). -/
theorem receive_lanes (u : VReg) (w : VecWrite) (live : Mask) (tick : Nat) (l : Fin 32) :
    (u.receive w live tick).lanes[l] = if (w.mask &&& live).getLsbD l then w.data[l] else u.lanes[l] := by
  simp only [VReg.receive, VReg.put, mergeLanes, Fin.getElem_fin, Vector.getElem_ofFn]

/-! ## Replies (R50, R51, R88) -/

section
variable {s : State} {t g id : Nat} {tm : Team} {v : Gang} {r : Result} (ht : s.team? t = some tm) (hv : s.gang? t g = some v)
  (hf : v.regs.pending.find? (fun r => r.id = id ∧ r.waits = .none) = some r)
include ht hv hf

/-- A result for which a packet is under way does not return yet. -/
theorem execResultReply_underWay (hp : (s.packets.any fun p => p.reply = some (.gang t g, id)) = true) :
    execResultReply (.gang t g) id s = .next s := by
  simp only [execResultReply, ht, hv, hf, hp, if_true]

/-- A result whose value is known and for which no packet is under way returns. -/
theorem execResultReply_returns (hp : (s.packets.any fun p => p.reply = some (.gang t g, id)) = false) :
    execResultReply (.gang t g) id s = .next (((s.setGang t g (((v.applyResult r s.tick).returned id).afterReply s.tick)).modCore tm.core fun c =>
      c.unhold t g (r.vec.map fun w => (w.reg, 1))).arbitrateSlots tm.core) := by
  simp only [execResultReply, ht, hv, hf, hp, Bool.false_eq_true, if_false]

end

/-! ## Delays, age and drowsiness (R49, R96, R154) -/

section
variable {s : State} {t g : Nat} {v : Gang} (hv : s.gang? t g = some v)
include hv

/-- A delay that has passed ends. -/
theorem execDlyExpiry_ends {d : Nat} (hd : v.delay = some d) (hp : d ≤ s.tick) :
    execDlyExpiry t g s = .next (s.setGang t g { v with delay := none, readySince := s.tick }) := by
  simp only [execDlyExpiry, s.modGang_eq _ _ _ _ hv, hd, Option.any_some, hp, decide_true, if_true]

/-- A gang that has been ready for 64 clocks is aged. -/
theorem execGangAged_ages {tm : Team} (ht : s.team? t = some tm) (hrun : tm.running = true) (hready : v.ready = true)
    (hp : 6 * (s.tick - v.readySince) ≥ 5 * 64) : execGangAged t g s = .next (s.setGang t g { v with aged := true }) := by
  simp only [execGangAged, ht, hrun, if_true, s.modGang_eq _ _ _ _ hv, hready, clocksPassed, hp, decide_true, and_self]

/-- A register that nothing has used for 4,096 clocks is drowsy. -/
theorem execSlotDrowsy_drowses {k : Nat} {r : VReg} (hr : v.vregs[k]? = some r) (hp : 6 * (s.tick - r.used) ≥ 5 * 4096) :
    execSlotDrowsy t g k s = .next (s.setGang t g { v with vregs := setNth { r with drowsy := true } v.vregs k }) := by
  simp only [execSlotDrowsy, s.modGang_eq _ _ _ _ hv, hr, clocksPassed, hp, decide_true, if_true]

/-! ## Held traps and waits (R285, R322, R323, R405, R434, R437) -/

/-- A held trap is taken once the earlier results have returned. -/
theorem execTrapEntry_takes {code : BitVec 8} {detail : W64} {quads : QuadMask} {pc : BitVec 56} {brk : Bool}
    (hh : v.heldTrap = some ⟨.coded code detail, quads, pc, brk⟩) (hp : v.regs.pending = []) :
    execTrapEntry (.gang t g) s = .next (s.takeGang t g code detail quads pc brk) := by
  simp only [execTrapEntry, hv, hh, hp, if_true]

/-- A gang whose wait the test names issues again. -/
theorem modGang_retry {why : Wait} {p : Wait → Bool} (hw : v.status = .waiting why) (hp : p why = true) :
    s.modGang t g (fun v => v.retry s.tick p) = s.setGang t g
      { v with status := .ready, readySince := s.tick, otherWait := v.otherTicks s.tick, otherSince := none } := by
  simp only [s.modGang_eq _ _ _ _ hv, Gang.retry, hw, hp, if_true, Gang.otherTicks]

/-- A gang that a range lock stopped issues again. -/
theorem execRangeLockRetry_retries (hw : v.status = .waiting .lockRetry) :
    execRangeLockRetry t g s = .next (s.setGang t g
      { v with status := .ready, readySince := s.tick, otherWait := v.otherTicks s.tick, otherSince := none }) :=
  congrArg Host.Outcome.next (modGang_retry hv hw (decide_eq_true rfl))

/-- A gang that waits for an entry issues again once one is free. -/
theorem execCommandQueueAccept_retries {tm : Team} (ht : s.team? t = some tm)
    (hw : (v.status = .waiting .queue ∧ ((s.core tm.core).copy.length < 16 ∨ (s.core tm.core).array.length < 16)) ∨
      (v.status = .waiting .locks ∧ (s.core tm.core).locks.length < 32)) :
    execCommandQueueAccept t g s = .next (s.setGang t g
      { v with status := .ready, readySince := s.tick, otherWait := v.otherTicks s.tick, otherSince := none }) := by
  simp only [execCommandQueueAccept, ht]
  obtain ⟨hq, hfree⟩ | ⟨hq, hfree⟩ := hw
  · exact congrArg Host.Outcome.next (modGang_retry hv hq (decide_eq_true hfree))
  · exact congrArg Host.Outcome.next (modGang_retry hv hq (decide_eq_true hfree))

/-- A command that has waited 2^20 clocks for a handle of the other unit traps. -/
theorem execHandleBusyTimeout_traps {op : BitVec 8} {h : BitVec 5} {x : Exec} (hw : v.status = .waiting (.handle op h))
    (hp : 6 * v.otherTicks s.tick ≥ 5 * 2 ^ 20) (hx : execOf s (.gang t g) op default = some x) :
    execHandleBusyTimeout t g s =
      .next (raiseTrap x (.coded codeBusy (detailOp op (h.zeroExtend 24))) false (s.setGang t g { v with status := .ready })) := by
  have hc : clocksPassed 0 (v.otherTicks s.tick) (2 ^ 20) = true := decide_eq_true hp
  simp only [execHandleBusyTimeout, hv, hw, hc, if_true, hx]

end

/-- Settles O46: each step is its change of the gang, under the condition that the clause gives. -/
theorem gangsTakeRepliesTimersAndHeldTraps : Obligations.GangsTakeRepliesTimersAndHeldTraps := by
  refine ⟨?_, ?_, ?_, ?_, ?_, ?_, ?_, ?_⟩
  · intro s t g id tm v r ht hv hf
    refine ⟨execResultReply_underWay ht hv hf, execResultReply_returns ht hv hf, applyResult_pending v r s.tick, rfl, rfl, rfl,
      applyResult_regs v r s.tick, fun w u hr hu => ?_⟩
    exact ⟨u.receive w v.live s.tick, applyResult_vreg s.tick hr hu, receive_lanes u w v.live s.tick, rfl,
      fun _ hk => applyResult_vreg_other s.tick hr hu hk⟩
  · exact fun _ _ _ _ _ hv hd hp => execDlyExpiry_ends hv hd hp
  · exact fun _ _ _ _ _ ht hrun hv hready hp => execGangAged_ages hv ht hrun hready hp
  · exact fun _ _ _ _ _ _ hv hr hp => execSlotDrowsy_drowses hv hr hp
  · exact fun _ _ _ _ _ _ _ _ _ hv hh hp => execTrapEntry_takes hv hh hp
  · exact fun _ _ _ _ hv hw => execRangeLockRetry_retries hv hw
  · exact fun _ _ _ _ _ _ _ hv hw hp hx => execHandleBusyTimeout_traps hv hw hp hx
  · exact fun _ _ _ _ _ ht hv hw => execCommandQueueAccept_retries hv ht hw

end Sys2Proof.Machine
end

section
/-! Ends of gangs, teams, launches and contexts (R56, R60, R61, R293, R363, R429, R447): what each step answers. -/

namespace Sys2Proof.Machine

/-! ## Gangs and teams (R56, R60, R61, R293) -/

/-- A spent gang of a team on its core retires, and its team exits with the last one (R60). -/
theorem execGangRetire_retires {s : State} {t g : Nat} {tm : Team} {v : Gang} (ht : s.team? t = some tm) (hv : s.gang? t g = some v)
    (hsp : v.spent = true) (hp : tm.placedOn tm.core = true) :
    let r := (((s.setGang t g v.retire).retireHandles t g).barriersRetire t).arbitrateSlots tm.core
    execGangRetire t g s = .next (if (r.team? t).any fun x => x.gangsLeft = 0 then r.exitTeam t tm.core else r.arbitrate tm.core) := by
  simp only [execGangRetire, ht, hv, hsp, hp, and_self, if_true, s.modGang_eq _ _ _ _ hv]

/-- A gang without a live lane or an outstanding result is spent until it retires. -/
theorem spent_of_dead {v : Gang} (hl : v.live = 0#32) (hp : v.regs.pending = []) (hr : v.status ≠ .retired) : v.spent = true := by
  simp only [Gang.spent, hl, hp, beq_self_eq_true, List.isEmpty_nil, bne_iff_ne.2 hr, Bool.and_self]

section
variable {s s1 : State} {t : Nat} {tm : Team} (ht : s.team? t = some tm) (hx : tm.residence = .exited) (hc : s.copiesDone tm = true)
  (hw : s.stashBackAll tm.agent false 3#3 t (tm.dirtySectors fun _ => true) = .ok s1)
include ht hx hc hw

/-- An exited team with a remote write under way waits for its acknowledgement, its release made (R293). -/
theorem execTeamDone_waits (hr : ((s1.writeBackAll (dieOf tm.core)).remote.any fun o => issuerOfTeam o.who t) = true) :
    execTeamDone t s = .next (s1.writeBackAll (dieOf tm.core)) := by
  simp only [execTeamDone, ht, hx, hc, and_self, if_true, hw, hr]

/-- An exited team of which nothing is outstanding is done (R61). -/
theorem execTeamDone_done (hr : ((s1.writeBackAll (dieOf tm.core)).remote.any fun o => issuerOfTeam o.who t) = false) :
    execTeamDone t s = .next (((((s1.writeBackAll (dieOf tm.core)).modTeam t fun x => { x with residence := .done }).modCore
      tm.core fun u => { u with locks := u.locks.filter fun l => l.team ≠ t }).arbitrate tm.core).retireEnsemble tm.ensemble) := by
  simp only [execTeamDone, ht, hx, hc, and_self, if_true, hw, hr, Bool.false_eq_true, if_false]

end

/-! ## The debugger's kill (R56) -/

section
variable {s : State} {t g : Nat} {x : Exec} {tm : Team} {v : Gang} (hx : execOf s (.gang t g) 0#8 default = some x)
  (ht : s.team? t = some tm) (hv : s.gang? t g = some v) (lanes : Mask)
include hx ht hv

/-- The lanes of a gang of a saved team are killed in its frame. -/
theorem execDebuggerKill_saved {k : Nat} {d p : Bool} (hd : (s.ctx? x.ctx).any (·.dbg) = true) (hr : tm.residence = .saved k d p) :
    execDebuggerKill t g lanes s = .next (s.killHeld x.ctx k g v lanes) := by
  simp only [execDebuggerKill, hx, ht, hv, hd, hr, Option.map_some, if_true]

/-- The lanes of a gang of any other team are killed where it is, and one without a live lane leaves its waits. -/
theorem execDebuggerKill_resident (hd : (s.ctx? x.ctx).any (·.dbg) = true) (hr : ∀ k d p, tm.residence ≠ .saved k d p) :
    execDebuggerKill t g lanes s = .next
      (if ((s.dropLanes x lanes).gang? t g).any fun v => v.live = 0#32 then (s.dropLanes x lanes).leaveWaits (.gang t g)
       else s.dropLanes x lanes) := by
  simp only [execDebuggerKill, hx, ht, hv, hd, Option.map_some, if_true]

/-- Without a debugger of the context nothing is killed. -/
theorem execDebuggerKill_none (hd : (s.ctx? x.ctx).any (·.dbg) = false) : execDebuggerKill t g lanes s = .next s := by
  simp only [execDebuggerKill, hx, ht, hv, hd, Option.map_some, Bool.false_eq_true, if_false]

end

/-! ## Launches and contexts (R363, R429, R447) -/

section
variable {s : State} {k : Nat} {l : Launch} (hl : s.launch? k = some l) (hr : l.restamped = false) (hd : l.dropped = false)
  (hp : l.deadline.toNat < s.tick)
include hl hr hd hp

/-- A launch past its deadline that asks for it is dropped. -/
theorem missDeadline_drops (h : l.p.lateDrop = true) : s.missDeadline k = (((((s.passOver l).modLaunch k fun l =>
    { l with dropped := true, dealt := true }).purgeLaunch k).launchEvent l 3 1).settleLaunch k) := by
  simp only [State.missDeadline, hl, hr, hd, Nat.not_le.2 hp, h, Bool.false_eq_true, or_self, if_false, if_true]

/-- Another launch past its deadline is stamped anew, once. -/
theorem missDeadline_restamps (h : l.p.lateDrop = false) :
    let d := BitVec.ofNat 64 (s.tick + l.p.grace.toNat)
    s.missDeadline k = ((s.modLaunch k fun l => { l with deadline := d, restamped := true }).restampPacket l d.toNat).launchEvent l 3 0 := by
  simp only [State.missDeadline, hl, hr, hd, Nat.not_le.2 hp, h, Bool.false_eq_true, or_self, if_false]

end

section
variable {s : State} {ctx : Nat} {c : Ctx} (hc : s.ctx? ctx = some c)
include hc

/-- A context past a limit is ended by the master. -/
theorem execForcedReset_ends (ha : s.awake = true) (h : s.limitPassed c = true) : execForcedReset ctx s = .next (s.endContext ctx) :=
  next_of_guard ⟨ha, by simp only [hc, Option.any_some, h]⟩ rfl

/-- A context within its limits goes on. -/
theorem execForcedReset_waits (h : s.limitPassed c = false) : execForcedReset ctx s = .next s := by
  simp only [execForcedReset, hc, Option.any_some, h, Bool.false_eq_true, and_false, if_false]

end

/-- Settles O48: each end comes where its condition holds, and is the update that its clause names. -/
theorem gangsTeamsLaunchesAndContextsEnd : Obligations.GangsTeamsLaunchesAndContextsEnd := by
  refine ⟨?_, ?_, ?_, ?_, ?_, ?_⟩
  · exact fun s _ _ _ _ ht hv hl hp hn hc => ⟨execGangRetire_retires ht hv (spent_of_dead hl hp hn) hc, rfl, rfl, rfl⟩
  · exact fun s _ _ _ ht hx hc hw => ⟨execTeamDone_waits ht hx hc hw, execTeamDone_done ht hx hc hw⟩
  · exact fun s _ _ lanes _ _ _ hx ht hv => ⟨fun _ _ _ hd hr => execDebuggerKill_saved hx ht hv lanes hd hr,
      execDebuggerKill_resident hx ht hv lanes, execDebuggerKill_none hx ht hv lanes⟩
  · exact fun s _ _ ha hl hr hd hp => ⟨fun h => next_of_guard ha (missDeadline_drops hl hr hd hp h),
      fun h => next_of_guard ha (missDeadline_restamps hl hr hd hp h)⟩
  · exact fun s _ _ ha hc => ⟨execForcedReset_ends hc ha, execForcedReset_waits hc⟩
  · exact fun s _ hr hp hc => next_of_guard ⟨hr, hp, hc⟩ rfl

end Sys2Proof.Machine
end

section
/-! Queues and placement (R44 to R48, R346 to R351, R355 to R360, R369, R454): what doorbells, slot switches, deals, starts and steals answer. -/

namespace Sys2Proof.Machine

/-! ## Doorbells (R345, R346, R352, R358, R505) -/

/-- Accepting a launch maps and releases no queue. -/
@[simp] theorem acceptLaunch_slots (s : State) (x : QueueSlot) (i : W32) (v : Nat) : (s.acceptLaunch x i v).slots = s.slots := rfl

/-- Accepting packets maps and releases no queue. -/
@[simp] theorem acceptPackets_slots (s : State) (x : QueueSlot) (n : Nat) (i : W32) : (s.acceptPackets x n i).slots = s.slots := by
  induction n generalizing s i with
  | zero => rfl
  | succ n ih =>
    simp only [State.acceptPackets, ih]
    split
    · split <;> rfl
    · rfl

/-- The tail of a mapped queue moves in its slot, once the packets before it are accepted. -/
theorem setTail_mapped {s : State} {q : Nat} {x : QueueSlot} (hq : s.slot? q = some x) (tail : W32) :
    s.setTail q x tail = (s.acceptPackets x (tail - x.tail).toNat x.tail).modSlot q fun y => { y with tail := tail } := by
  have hslot : (s.acceptPackets x (tail - x.tail).toNat x.tail).slot? q = some x := by
    simpa only [State.slot?, acceptPackets_slots] using hq
  simp only [State.setTail, hslot]

section
variable {s : State} {q : Nat} {x : QueueSlot} {bell : W32}

/-- A value that the queue does not accept is discarded and counted. -/
theorem applyBell_unaccepted (h : x.accepts bell = false) (stamp : Bool) : s.applyBell q x bell stamp = s.dropBell q :=
  if_pos (by simp [h])

/-- A value that reaches a stopped queue is not applied. -/
theorem applyBell_stopped (h : x.accepts bell = true) (hs : s.isStopped x = true) (stamp : Bool) : s.applyBell q x bell stamp = s := by
  simp only [State.applyBell, h, hs, not_true, if_false, if_true]

/-- An accepted value of a queue that is not best-effort moves its tail. -/
theorem applyBell_moves (h : x.accepts bell = true) (hs : s.isStopped x = false) (hb : x.bestEffort = false) (stamp : Bool) :
    s.applyBell q x bell stamp = s.setTail q x bell := by
  simp only [State.applyBell, h, hs, hb, not_true, Bool.and_false, Bool.false_eq_true, if_false]

/-- A doorbell of a disabled queue is discarded and counted. -/
theorem ringBell_disabled (h : (s.queue q).en = false) : s.ringBell q bell = s.dropBell q :=
  if_pos (by simp [h])

variable (he : (s.queue q).en = true)
include he

/-- A doorbell of a queue whose descriptor fails stops it, and is discarded and counted. -/
theorem ringBell_broken {code : Nat} (h : (s.rereadErr q).queueView q = .error code) : s.ringBell q bell =
    ((s.rereadErr q).stopQueue q ((s.rereadErr q).descriptorHead q) ((s.rereadErr q).descriptorHead q) code none).dropBell q := by
  simp only [State.ringBell, he, not_true, if_false, h]

variable (hx : (s.rereadErr q).queueView q = .ok x)
include hx

/-- A host doorbell of a device-fed queue is discarded and counted. -/
theorem ringBell_deviceFed (hd : x.deviceFed = true) : s.ringBell q bell = (s.rereadErr q).dropBell q := by
  simp only [State.ringBell, he, not_true, if_false, hx, hd, if_true]

/-- A doorbell of a queue that stays is applied to it. -/
theorem ringBell_applies (hd : x.deviceFed = false) (hl : x.leaving = false) :
    s.ringBell q bell = (s.rereadErr q).applyBell q x bell true := by
  simp only [State.ringBell, he, not_true, if_false, hx, hd, hl, Bool.false_eq_true]

/-- A doorbell of a queue that leaves its slot is latched (R358). -/
theorem ringBell_latches (hd : x.deviceFed = false) (hl : x.leaving = true) (hb : x.bestEffort = false) :
    s.ringBell q bell = (s.rereadErr q).modSlot q fun y => { y with latch := bell, lv := true } := by
  simp only [State.ringBell, he, not_true, if_false, hx, hd, hl, hb, Bool.false_and, Bool.false_eq_true, if_true]

end

/-! ## Slot switches (R355, R357, R505) -/

section
variable {s : State} (ha : s.awake = true)
include ha

/-- A queue whose descriptor fails stops. -/
theorem execQueueSwitch_broken {q code : Nat} (hb : s.brokenQueue = some (q, code)) :
    execQueueSwitch s = .next (s.stopQueue q (s.descriptorHead q) (s.descriptorHead q) code none) := by
  simp only [execQueueSwitch, ha, not_true, if_false, hb]

variable (hb : s.brokenQueue = none)
include hb

section
variable {x : QueueSlot} (hx : s.slots.find? (fun (x : QueueSlot) => x.leaving) = some x)
include hx

/-- A queue that leaves is released, and the first in rank takes a free slot. -/
theorem execQueueSwitch_releases_maps {b : Option Nat × Nat} {bs : List (Option Nat × Nat)}
    (hr : (s.releaseSlot x).ranked (s.releaseSlot x).unmapped = b :: bs) (hl : (s.releaseSlot x).slots.length < 128) :
    execQueueSwitch s = .next ((s.releaseSlot x).mapQueue b.2) := by
  simp only [execQueueSwitch, ha, not_true, if_false, hb, hx, hr, hl, if_true]

/-- A queue that leaves is released where none waits for a slot. -/
theorem execQueueSwitch_releases (hr : (s.releaseSlot x).ranked (s.releaseSlot x).unmapped = []) :
    execQueueSwitch s = .next (s.releaseSlot x) := by
  simp only [execQueueSwitch, ha, not_true, if_false, hb, hx, hr]

end

section
variable {b : Option Nat × Nat} {bs : List (Option Nat × Nat)} (hx : s.slots.find? (fun (x : QueueSlot) => x.leaving) = none)
  (hr : s.ranked s.unmapped = b :: bs)
include hx hr

/-- The first in rank takes a free slot. -/
theorem execQueueSwitch_maps (hl : s.slots.length < 128) : execQueueSwitch s = .next (s.mapQueue b.2) := by
  simp only [execQueueSwitch, ha, not_true, if_false, hb, hx, hr, hl, if_true]

variable (hl : 128 ≤ s.slots.length) {w : Option Nat × Nat} (hw : (s.ranked s.slots).getLast? = some w)
include hl hw

/-- With every slot taken, the last in rank begins to leave for a queue with work ahead of it. -/
theorem execQueueSwitch_leaves (h1 : b.1.isSome = true) (h2 : rankAhead b w = true) :
    execQueueSwitch s = .next ((s.modSlot w.2 fun x => { x with leaving := true }).holdQueue w.2 true) := by
  simp only [execQueueSwitch, ha, not_true, if_false, hb, hx, hr, Nat.not_lt.2 hl, hw, h1, h2, Bool.and_self, if_true]

/-- With every slot taken, a queue without work or behind every mapped one waits. -/
theorem execQueueSwitch_waits (h : b.1 = none ∨ rankAhead b w = false) : execQueueSwitch s = .next s := by
  have hn : (b.1.isSome && rankAhead b w) = false := by
    obtain h | h := h <;> simp [h]
  simp only [execQueueSwitch, ha, not_true, if_false, hb, hx, hr, Nat.not_lt.2 hl, hw, hn, Bool.false_eq_true]

end

end

/-! ## Deals and packets (R44, R348, R351, R359, R451) -/

section
variable {s : State} {die : Nat} (ha : s.awake = true) (hd : die < 9) (count : Nat)
include ha hd

/-- With nothing to deal the master deals nothing. -/
theorem execLaunchDeal_idle (hj : firstBy (fun a b => rankAhead a.1 b.1) (s.dealJobs fun _ => true) = none) :
    execLaunchDeal die count s = .next s := by
  simp only [execLaunchDeal, ha, hd, and_self, if_true, hj]

variable {j : (Option Nat × Nat) × Option Nat} (hj : firstBy (fun a b => rankAhead a.1 b.1) (s.dealJobs fun _ => true) = some j)
include hj

/-- What comes first in rank for some die is not dealt to a die that does not take it. -/
theorem execLaunchDeal_elsewhere (hc : (s.dealJobs fun d => d = die).contains j = false) : execLaunchDeal die count s = .next s := by
  simp only [execLaunchDeal, ha, hd, and_self, if_true, hj, hc, Bool.false_eq_true, not_false_eq_true]

variable (hc : (s.dealJobs fun d => d = die).contains j = true)
include hc

/-- Lost ensembles that come first in rank are dealt again. -/
theorem execLaunchDeal_redeals {k : Nat} {l : Launch} (hk : j.2 = some k) (hl : s.launch? k = some l) :
    execLaunchDeal die count s = .next (s.redeal l die count) := by
  simp only [execLaunchDeal, ha, hd, and_self, if_true, hj, hc, not_true, if_false, hk, hl]

/-- The queue that comes first in rank deals from its head. -/
theorem execLaunchDeal_deals {x : QueueSlot} (hk : j.2 = none) (hx : s.slot? j.1.2 = some x) :
    execLaunchDeal die count s = .next (s.dealFrom x die count) := by
  simp only [execLaunchDeal, ha, hd, and_self, if_true, hj, hc, not_true, if_false, hk, hx]

end

section
variable {s : State} {q : Nat} {x : QueueSlot} (ha : s.awake = true) (hw : s.hasWork x = true) (hl : x.leaving = false)
include ha hw hl

/-- A wait packet is consumed where its condition holds, and stays until then. -/
theorem execWaitPacketPoll_wait (he : (s.queue q).en = true) (hx : s.queueView q = .ok x) {b : Bool} (hp : s.headPacket x = .wait b) :
    execWaitPacketPoll q s = .next (if b then s.consume q else s) := by
  cases b <;> simp only [execWaitPacketPoll, ha, he, and_self, if_true, hx, hw, hl, not_true, Bool.false_eq_true, or_self, if_false, hp]

variable (hx : s.slot? q = some x) {pa v : Nat} (hp : s.headPacket x = .signal pa v)
include hx hp

/-- A signal packet is performed once the launches before it have completed. -/
theorem execSignalPacket_performs (hn : (s.launches.any fun l => decide (l.queue = q) && !l.early) = false) :
    execSignalPacket q s = .next ((s.sideBytes pa (bytesOf v 8)).consume q) := by
  simp only [execSignalPacket, ha, if_true, hx, hw, hl, hn, not_true, Bool.false_eq_true, or_self, if_false, hp]

end

/-- A signal packet waits for the launches before it. -/
theorem execSignalPacket_waits {s : State} {q : Nat} {x : QueueSlot} (ha : s.awake = true) (hx : s.slot? q = some x)
    (hn : (s.launches.any fun l => decide (l.queue = q) && !l.early) = true) : execSignalPacket q s = .next s := by
  simp only [execSignalPacket, ha, if_true, hx, hn, or_true]

section
variable {s : State} {die cluster : Nat} (ha : s.awake = true) (hf : (s.die die).fenced = false) (hd : cluster / 6 = die)
  (hc : cluster < 54) (hl : (s.seq cluster).holding.length < 64)
include ha hf hd hc hl

/-- A distributor without a range for the sequencer deals nothing. -/
theorem execDieDistributorDeal_idle (h : firstBy s.rangeOrder ((s.die die).ranges.filter fun r =>
    (s.launch? r.launch).any fun l => r.reissued || s.eligible l.ctx l.p cluster) = none) :
    execDieDistributorDeal die cluster s = .next s := by
  simp only [execDieDistributorDeal, ha, hf, hd, hc, hl, Bool.false_eq_true, not_false_eq_true, and_self, if_true, h]

/-- A distributor hands the first ensemble of its first range to the sequencer. -/
theorem execDieDistributorDeal_deals {r : DieRange} (h : firstBy s.rangeOrder ((s.die die).ranges.filter fun r =>
    (s.launch? r.launch).any fun l => r.reissued || s.eligible l.ctx l.p cluster) = some r) :
    let rest := if r.next + 1 < r.stop then [{ r with next := r.next + 1 }] else []
    execDieDistributorDeal die cluster s =
      .next (((s.modDie die fun d => { d with ranges := (d.ranges.filter fun y => y ≠ r) ++ rest }).modSeq cluster fun q =>
        { q with holding := q.holding ++ [⟨r.launch, r.next, r.hold, r.reissued⟩] }).send (ownStamp die) [seqQueue cluster]) := by
  simp only [execDieDistributorDeal, ha, hf, hd, hc, hl, Bool.false_eq_true, not_false_eq_true, and_self, if_true, h]

end

/-! ## Starts (R45, R46, R58, R454) -/

section
variable {s : State} {n : Nat} {cores : List Nat}

section
variable (ha : s.awake = true) (hn : n < 54) (hf : (s.die (n / 6)).fenced = false)
  (hs : (s.die (n / 6)).inService = true ∨ (s.die (n / 6)).spare = true)
include ha hn hf hs

/-- The next ensemble of the order starts on cores that hold it. -/
theorem execEnsembleStart_starts {a : Startable} (hx : s.nextStart n = some a) (hl : cores.length = a.l.p.teamsOf a.held.index)
    (hc : coresHold (s.rooms n fun _ => true) a.l.p.need cores = true) : execEnsembleStart n cores s = .next
      ((s.modSeq n fun q => { q with holding := q.holding.filter fun h => h ≠ a.held }).startEnsemble n a.l a.held.index cores) := by
  simp only [execEnsembleStart, ha, hn, hf, hs, Bool.false_eq_true, not_false_eq_true, and_self, if_true, hx, hl, hc]

/-- Cores that do not hold the next ensemble of the order start none. -/
theorem execEnsembleStart_noRoom {a : Startable} (hx : s.nextStart n = some a)
    (hc : coresHold (s.rooms n fun _ => true) a.l.p.need cores = false) : execEnsembleStart n cores s = .next s := by
  simp only [execEnsembleStart, ha, hn, hf, hs, Bool.false_eq_true, not_false_eq_true, and_self, if_true, hx, hc, and_false, if_false]

/-- Where the first of the order would fit without the work that gives way to it, the drain of that work begins. -/
theorem execEnsembleStart_preempts {a : Startable} (hx : s.nextStart n = none) (hp : s.startPreempts n = some a) :
    execEnsembleStart n cores s = .next { s with
      ensembles := s.ensembles.map fun e =>
        if e.cluster = n ∧ (s.launch? e.launch).any fun l => l.yieldsTo a.l.deadline.toNat then { e with drain := e.drain.or (some s.tick) } else e } := by
  simp only [execEnsembleStart, ha, hn, hf, hs, Bool.false_eq_true, not_false_eq_true, and_self, if_true, hx, hp, State.preempt,
    Bool.and_eq_true, decide_eq_true_eq]

end

/-- A sequencer that a trap has stopped starts nothing. -/
theorem execEnsembleStart_halted (hh : (s.seq n).halted = true) : execEnsembleStart n cores s = .next s := by
  have hnone : s.startables n = [] := if_pos hh
  have hnext : s.nextStart n = none := by simp only [State.nextStart, hnone]
  have hpre : s.startPreempts n = none := by simp only [State.startPreempts, hnone, List.head?_nil, Option.filter_none]
  simp only [execEnsembleStart, hnext, hpre, ite_self]

end

/-! ## Steals (R47, R48, R369, R454) -/

/-- An idle sequencer asks another for work. -/
theorem execStealRequest_asks {s : State} {thief victim : Nat} (ha : s.awake = true) (ht : thief < 54) (hv : victim < 54)
    (hne : thief ≠ victim) (hft : (s.die (thief / 6)).fenced = false) (hfv : (s.die (victim / 6)).fenced = false)
    (hst : (s.die (thief / 6)).inService = true ∨ (s.die (thief / 6)).spare = true)
    (hsv : (s.die (victim / 6)).inService = true ∨ (s.die (victim / 6)).spare = true)
    (hh : (s.seq thief).halted = false) (hk : (s.seq thief).asked = false) (he : (s.seq thief).holding = [])
    (hl : (s.seq victim).steals.length < 8) (hp : s.pairHeld (thief / 6) (victim / 6) = false)
    (hr : ((s.rooms thief fun _ => true).any fun r => r.places > 0) = true) :
    execStealRequest thief victim s = .next (((s.modSeq victim fun v =>
      { v with steals := v.steals ++ [⟨thief, s.freeOf thief⟩] }).modSeq thief fun q => { q with asked := true }).send
        (ownStamp (thief / 6)) (oneWay (thief / 6) (victim / 6) [seqQueue victim])) :=
  congrArg Host.Outcome.next (if_pos ⟨ha, ⟨ht, hft, hst⟩, ⟨hv, hfv, hsv⟩, hne, by simp [hh], by simp [hk], he, by simp [hp], hl, hr⟩)

/-- A victim ships no more ensembles than it is asked for. -/
theorem length_shipped_le (s : State) (thief n : Nat) (as : List Startable) (rooms : List Room) :
    (s.shipped thief n as rooms).length ≤ n := by
  induction as generalizing n rooms with
  | nil => cases n <;> simp [State.shipped]
  | cons a as ih =>
    cases n with
    | zero => simp [State.shipped]
    | succ n =>
      simp only [State.shipped]
      split
      · exact Nat.succ_le_succ (ih n _)
      · exact ih (n + 1) _

/-- The ensembles that a victim answers a request with: none where a trap has stopped it. -/
def State.stolen (s : State) (victim : Nat) (r : Steal) : List HeldEnsemble :=
  if (s.seq victim).halted then []
  else s.shipped r.thief (min 4 (64 - (s.seq r.thief).holding.length)) (s.unstarted victim) (r.free.map roomOfFree)

/-- A victim answers with up to four ensembles. -/
theorem length_stolen_le (s : State) (victim : Nat) (r : Steal) : (s.stolen victim r).length ≤ 4 := by
  unfold State.stolen
  split
  · exact Nat.zero_le 4
  · exact (length_shipped_le s _ _ _ _).trans (Nat.min_le_left _ _)

section
variable {s : State} {victim : Nat} {r : Steal} {rs : List Steal} (ha : s.awake = true) (hf : (s.die (victim / 6)).fenced = false)
  (hr : (s.seq victim).steals = r :: rs)
include ha hf hr

/-- A request stays unanswered while the pair to its thief is held. -/
theorem execStealReply_held (hp : s.pairHeld (victim / 6) (r.thief / 6) = true) : execStealReply victim s = .next s := by
  simp only [execStealReply, ha, hf, Bool.false_eq_true, not_false_eq_true, and_self, if_true, hr, hp]

/-- The oldest request is answered, and its ensembles move from the victim to the thief. -/
theorem execStealReply_answers (hp : s.pairHeld (victim / 6) (r.thief / 6) = false) :
    execStealReply victim s = .next (((s.modSeq victim fun v =>
      { v with steals := rs, holding := v.holding.filter fun h => !(s.stolen victim r).contains h }).modSeq r.thief fun q =>
        { q with asked := false, holding := q.holding ++ s.stolen victim r }).send (ownStamp (victim / 6)) (oneWay (victim / 6) (r.thief / 6) [])) := by
  simp only [execStealReply, ha, hf, Bool.false_eq_true, not_false_eq_true, and_self, if_true, hr, hp, if_false, State.stolen]

end

/-- Settles O51: each event is its update under the conditions of its clause, which leave the state where they fail. -/
theorem queuesAreRungMappedAndDealt : Obligations.QueuesAreRungMappedAndDealt := by
  refine ⟨?_, ?_, ?_, ?_, ?_, ?_, ?_, ?_, ?_, ?_⟩
  · intro s q bell hb hq r
    refine ⟨?_, ?_, fun x he hx => ⟨?_, ?_, ?_, ?_, ?_⟩, next_of_guard ⟨hb, hq⟩ rfl⟩
    · exact fun h => next_of_guard ⟨hb, hq⟩ (ringBell_disabled h)
    · exact fun code he h => next_of_guard ⟨hb, hq⟩ (ringBell_broken he h)
    · exact fun hd => next_of_guard ⟨hb, hq⟩ (ringBell_deviceFed he hx hd)
    · exact fun hd hl h => next_of_guard ⟨hb, hq⟩ ((ringBell_applies he hx hd hl).trans (applyBell_unaccepted h true))
    · exact fun hd hl h hs => next_of_guard ⟨hb, hq⟩ ((ringBell_applies he hx hd hl).trans (applyBell_stopped h hs true))
    · exact fun hd hl h hs hbe hm => next_of_guard ⟨hb, hq⟩
        ((ringBell_applies he hx hd hl).trans ((applyBell_moves h hs hbe true).trans (setTail_mapped hm bell)))
    · exact fun hd hl hbe => next_of_guard ⟨hb, hq⟩ (ringBell_latches he hx hd hl hbe)
  · intro s ha
    refine ⟨fun q code hb => execQueueSwitch_broken ha hb, fun x hb hx => ⟨?_, ?_⟩, fun b bs hb hx hr => ⟨?_, fun w hl hw => ⟨?_, ?_⟩⟩⟩
    · exact fun _ _ hr hl => execQueueSwitch_releases_maps ha hb hx hr hl
    · exact execQueueSwitch_releases ha hb hx
    · exact execQueueSwitch_maps ha hb hx hr
    · exact execQueueSwitch_leaves ha hb hx hr hl hw
    · exact execQueueSwitch_waits ha hb hx hr hl hw
  · exact fun s die count ha hd => ⟨execLaunchDeal_idle ha hd count, fun j hj => ⟨execLaunchDeal_elsewhere ha hd count hj,
      fun _ _ hc hk hl => execLaunchDeal_redeals ha hd count hj hc hk hl, fun _ hc hk hx => execLaunchDeal_deals ha hd count hj hc hk hx⟩⟩
  · exact fun s q x ha he hx hw hl => ⟨execWaitPacketPoll_wait ha hw hl he hx, execWaitPacketPoll_wait ha hw hl he hx⟩
  · exact fun s q x ha hx hw hl => ⟨fun _ _ => execSignalPacket_performs ha hw hl hx, fun _ _ _ => execSignalPacket_waits ha hx⟩
  · exact fun s die cluster ha hf hd hc hl =>
      ⟨execDieDistributorDeal_idle ha hf hd hc hl, fun _ => execDieDistributorDeal_deals ha hf hd hc hl⟩
  · exact fun s n cores ha hn hf hs => ⟨fun _ hx hl => ⟨execEnsembleStart_starts ha hn hf hs hx hl, execEnsembleStart_noRoom ha hn hf hs hx⟩,
      fun _ => execEnsembleStart_preempts ha hn hf hs⟩
  · exact fun s n cores => execEnsembleStart_halted
  · exact fun s thief victim => execStealRequest_asks
  · exact fun s victim r rs ha hf hr => ⟨execStealReply_held ha hf hr, execStealReply_answers ha hf hr, length_stolen_le s victim r⟩

end Sys2Proof.Machine
end

section
/-! Decode and encode (R66 to R101): a word decodes to the instruction that its fields name once it passes the checks of R68, which come in their order. -/

namespace Sys2Proof

/-! ## What decode answers -/

/-- A word that fails a check decodes to the trap of that check. -/
theorem decode_trapped {seq : Bool} {x : W128} {t : DecodeTrap} (h : decodeTrap seq (rawOf x) = some t) : decode seq x = .error t := by
  simp only [decode, h]

/-- A word decodes to an instruction where it passes the checks of R68 and its opcode and fields name that instruction. -/
theorem decode_ok_iff {seq : Bool} {x : W128} {i : Instr} : decode seq x = .ok i ↔
    decodeTrap seq (rawOf x) = none ∧ ∃ w, fieldsOf (rawOf x) = some w ∧ Instr.ofOp (rawOf x).op.toNat w = some i := by
  cases ht : decodeTrap seq (rawOf x) with
  | some t => simp [decode_trapped ht]
  | none =>
    cases hi : (fieldsOf (rawOf x)).bind (Instr.ofOp (rawOf x).op.toNat) with
    | none =>
      have hno : ¬ ∃ w, fieldsOf (rawOf x) = some w ∧ Instr.ofOp (rawOf x).op.toNat w = some i := by
        rw [← Option.bind_eq_some_iff, hi]
        exact Option.some_ne_none i ∘ Eq.symm
      simp [decode, ht, hi, hno]
    | some j => simp [decode, ht, hi, ← Option.bind_eq_some_iff]

/-! ## Decode and encode agree -/

/-- The fields of a word that passes the checks are those that the word was made of. -/
theorem fieldsOf_raw_of_trap {seq : Bool} {op : BitVec 8} {w : Fields} (h : decodeTrap seq (w.raw op) = none) : fieldsOf (w.raw op) = some w := by
  obtain ⟨v, hv, -⟩ := fieldsOf_of_trap h
  rw [hv, fieldsOf_raw hv]

/-- An instruction that is no event is a form: it has an opcode and fields. -/
theorem parts_of_not_event {i : Instr} (h : Machine.isEvent i = false) : ∃ op w, i.parts = some (op, w) := by
  cases hp : i.parts with
  | none => simp [Machine.isEvent, hp] at h
  | some p => exact ⟨p.1, p.2, rfl⟩

theorem encode_of_parts {i : Instr} {op : BitVec 8} {w : Fields} (h : i.parts = some (op, w)) : encode i = some (w.raw op).bits := by
  simp [encode, h]

/-- The word of a well-formed form decodes to it. -/
theorem decode_encode {seq : Bool} {i : Instr} {op : BitVec 8} {w : Fields} (hp : i.parts = some (op, w)) (hw : i.wf seq = true) :
    decode seq (w.raw op).bits = .ok i := by
  obtain ⟨ht, ho⟩ := wf_parts hw hp
  rw [decode_ok_iff, rawOf_bits]
  exact ⟨ht, w, fieldsOf_raw_of_trap ht, ho⟩

/-- A word that decodes is the word of the opcode and the fields of its instruction. -/
theorem encode_decode {seq : Bool} {i : Instr} {x : W128} (h : decode seq x = .ok i) :
    ∃ op w, i.parts = some (op, w) ∧ (w.raw op).bits = x ∧ i.wf seq = true := by
  obtain ⟨ht, w, hw, ho⟩ := decode_ok_iff.1 h
  obtain ⟨-, -, hres, hsc⟩ := fieldsOf_of_trap ht
  have hraw := raw_of_fieldsOf hw hres hsc
  have hp := parts_ofOp ho
  exact ⟨_, w, hp, by rw [hraw, bits_rawOf], wf_of_parts hp (by rw [hraw, ht]) ho⟩

/-- Settles O36: the fields of the word are those it was made of, and they pass the checks that make the instruction well formed. -/
theorem encodedWordsDecodeToTheirInstruction : Obligations.EncodedWordsDecodeToTheirInstruction := by
  intro seq i hw he
  obtain ⟨op, w, hp⟩ := parts_of_not_event he
  exact ⟨_, encode_of_parts hp, decode_encode hp hw⟩

/-- Settles O37: the fields that decode reads cover the word, and the two reserved fields are zero. -/
theorem decodedWordsAreTheirEncoding : Obligations.DecodedWordsAreTheirEncoding := by
  intro seq i x h
  obtain ⟨op, w, hp, hx, hw⟩ := encode_decode h
  exact ⟨by rw [encode_of_parts hp, hx], hw, by simp [Machine.isEvent, hp]⟩

/-! ## The checks of R68 in their order -/

section
variable {seq : Bool} {r : Raw}

/-- Step 1: an opcode of no instruction. -/
theorem decodeTrap_unassigned (h : opAssigned r.op.toNat = false) : decodeTrap seq r = some (.opcode r.op false) := by
  simp [decodeTrap, h]

variable (ha : opAssigned r.op.toNat = true)
include ha

/-- Step 1: an opcode that the unit does not execute. -/
theorem decodeTrap_otherUnit (h : opRuns seq r.op.toNat = false) : decodeTrap seq r = some (.opcode r.op true) := by
  simp [decodeTrap, ha, h]

variable (hr : opRuns seq r.op.toNat = true)
include hr

/-- Step 2: a value of `FN` that the opcode does not define. -/
theorem decodeTrap_fn (h : formOf r.op.toNat r.fn.toNat = none) : decodeTrap seq r = some (.encoding r.op 1#4 0#4 0#4) := by
  simp [decodeTrap, ha, hr, h]

variable {f : Form} (hf : formOf r.op.toNat r.fn.toNat = some f)
include hf

/-- Step 3: the reserved guard. -/
theorem decodeTrap_guard (h : r.g = 0xF#4) : decodeTrap seq r = some (.encoding r.op 2#4 0#4 0#4) := by
  simp [decodeTrap, ha, hr, hf, h]

variable (hg : r.g ≠ 0xF#4)
include hg

/-- Step 4: a reserved bit that is set. -/
theorem decodeTrap_reserved (h : r.res ≠ 0#4 ∨ r.sc.extractLsb' 0 4 ≠ 0#4) : decodeTrap seq r = some (.encoding r.op 3#4 0#4 0#4) := by
  simp only [decodeTrap, ha, hr, hf, hg, h, not_true, if_false, if_true]

/-- Steps 5 to 8: past the checks above, the checks of the fields decide. -/
theorem decodeTrap_fields (hres : r.res = 0#4) (hsc : r.sc.extractLsb' 0 4 = 0#4) :
    decodeTrap seq r = (fieldsCause seq f r.fn.toNat (tyOfCode r.ty) (operandOf r.d) (operandOf r.a) (operandOf r.b) (operandOf r.c) r.md
      r.imm).map fun k => .encoding r.op k.1 k.2.1 k.2.2 := by
  simp only [decodeTrap, ha, hr, hf, hg, hres, hsc, not_true, ne_eq, or_self, if_false]

end

/-- What the slots of a word consult beside its operands. -/
def slotCtx (seq : Bool) (ty : Option Ty) (md : BitVec 11) (imm : W32) (d a : Option Operand) : SlotCtx :=
  { seq, ty, sub := tyOfCode (mdSUB md), md, imm, d, a }

section
variable {seq : Bool} {f : Form} {fn : Nat} {ty : Option Ty} {md : BitVec 11} {imm : W32} {d a b c : Option Operand} {p : BitVec 4 × BitVec 4}

/-- Step 5 begins with D. -/
theorem fieldsCause_d (h : posCause (slotCtx seq ty md imm d a) f.d d 1#4 = some p) :
    fieldsCause seq f fn ty d a b c md imm = some (p.1, p.2, 0#4) := by
  simp only [slotCtx] at h
  simp only [fieldsCause, h]

variable (hd : posCause (slotCtx seq ty md imm d a) f.d d 1#4 = none)
include hd

theorem fieldsCause_a (h : posCause (slotCtx seq ty md imm d a) f.a a 2#4 = some p) :
    fieldsCause seq f fn ty d a b c md imm = some (p.1, p.2, 0#4) := by
  simp only [slotCtx] at hd h
  simp only [fieldsCause, hd, h]

variable (ha : posCause (slotCtx seq ty md imm d a) f.a a 2#4 = none)
include ha

theorem fieldsCause_b (h : posCause (slotCtx seq ty md imm d a) f.b b 3#4 = some p) :
    fieldsCause seq f fn ty d a b c md imm = some (p.1, p.2, 0#4) := by
  simp only [slotCtx] at hd ha h
  simp only [fieldsCause, hd, ha, h]

variable (hb : posCause (slotCtx seq ty md imm d a) f.b b 3#4 = none)
include hb

theorem fieldsCause_c (h : posCause (slotCtx seq ty md imm d a) (slotC f ty) c 4#4 = some p) :
    fieldsCause seq f fn ty d a b c md imm = some (p.1, p.2, 0#4) := by
  simp only [slotCtx] at hd ha hb h
  simp only [fieldsCause, hd, ha, hb, h]

variable (hc : posCause (slotCtx seq ty md imm d a) (slotC f ty) c 4#4 = none)
include hc

/-- Step 6: a reserved type. -/
theorem fieldsCause_noTy (h : ty = none) : fieldsCause seq f fn ty d a b c md imm = some (6#4, 0#4, 0#4) := by
  subst h
  simp only [slotCtx] at hd ha hb hc
  simp only [fieldsCause, hd, ha, hb, hc]

variable {t : Ty} (ht : ty = some t)
include ht

/-- Steps 6 to 8 of a word whose operands fit and whose type is one of R77. -/
theorem fieldsCause_typed : fieldsCause seq f fn ty d a b c md imm =
    if f.tys.contains t = false ∨ tyMdCause f t md = false then some (6#4, 0#4, 0#4)
    else if fnTyOk f t fn = false then some (1#4, 0#4, 0#4)
    else if f.md.ok fn t md imm (a.any isImm || b.any isImm || c.any isImm) = false then some (7#4, 0#4, 0#4)
    else if fnMdOk f md fn = false then some (1#4, 0#4, 0#4)
    else (bankCause (slotCtx seq ty md imm d a) f a b c).map fun p => (8#4, p.1, p.2) := by
  subst ht
  simp only [slotCtx] at hd ha hb hc
  simp only [fieldsCause, hd, ha, hb, hc, Bool.not_eq_true]
  rfl

end

/-- The fields of a word, each read from its place. -/
theorem fieldsOf_places {r : Raw} {w : Fields} (h : fieldsOf r = some w) :
    w.fn = r.fn ∧ w.g = guardOf r.g ∧ operandOf r.d = some w.d ∧ operandOf r.a = some w.a ∧ operandOf r.b = some w.b ∧
      operandOf r.c = some w.c ∧ w.imm = r.imm ∧ tyOfCode r.ty = some w.ty ∧ w.md = r.md := by
  unfold fieldsOf at h
  split at h
  · next hd ha hb hc ht =>
    cases h
    exact ⟨rfl, rfl, hd, ha, hb, hc, rfl, ht, rfl⟩
  · cases h

theorem opAssigned_of_trap {seq : Bool} {r : Raw} (h : decodeTrap seq r = none) : opAssigned r.op.toNat = true := by
  by_contra hn
  rw [decodeTrap_unassigned (Bool.not_eq_true _ ▸ hn)] at h
  cases h

/-- A word that passes every check decodes to a form of its opcode and its fields. -/
theorem decode_passed {seq : Bool} {x : W128} (h : decodeTrap seq (rawOf x) = none) :
    ∃ i w, decode seq x = .ok i ∧ i.parts = some ((rawOf x).op, w) ∧ fieldsOf (rawOf x) = some w := by
  obtain ⟨w, hw, -⟩ := fieldsOf_of_trap h
  obtain ⟨i, hi⟩ := ofOp_of_form w (opAssigned_of_trap h)
  exact ⟨i, w, decode_ok_iff.2 ⟨h, w, hw, hi⟩, parts_ofOp hi, hw⟩

/-- The guard of a word in its bits. -/
theorem guardOf_extract (x : W128) :
    (guardOf (x.extractLsb' 112 4)).neg = x.getLsbD 115 ∧ (guardOf (x.extractLsb' 112 4)).idx = x.extractLsb' 112 3 :=
  ⟨by simp [guardOf], BitVec.eq_of_getLsbD_eq fun i hi => by simp [guardOf, hi, Nat.lt_succ_of_lt hi]⟩

/-- The reserved bits of `SC` in the word's bits. -/
theorem extract_low_sc (x : W128) : (rawOf x).sc.extractLsb' 0 4 = x.extractLsb' 0 4 :=
  BitVec.extractLsb'_extractLsb'_of_le (by decide)

/-- Settles O38: each clause is the check that fails first, and a word that fails none has the fields of its places. -/
theorem decodeChecksInOrder : Obligations.DecodeChecksInOrder := by
  intro seq x op fn md imm ty d a b c k
  refine ⟨fun h => decode_trapped (decodeTrap_unassigned h), fun h h' => decode_trapped (decodeTrap_otherUnit h h'), fun hop hu => ?_⟩
  refine ⟨fun h => decode_trapped (decodeTrap_fn hop hu h), fun f hf => ?_⟩
  refine ⟨fun h => decode_trapped (decodeTrap_guard hop hu hf h), fun hg => ?_⟩
  refine ⟨fun h => decode_trapped (decodeTrap_reserved hop hu hf hg (by rwa [← extract_low_sc x] at h)), fun hres hsc => ?_⟩
  have fields : decodeTrap seq (rawOf x) = (fieldsCause seq f fn ty d a b c md imm).map fun k => .encoding op k.1 k.2.1 k.2.2 :=
    decodeTrap_fields hop hu hf hg hres ((extract_low_sc x).trans hsc)
  have fails {u v z} (h : fieldsCause seq f fn ty d a b c md imm = some (u, v, z)) : decode seq x = .error (.encoding op u v z) :=
    decode_trapped (by rw [fields, h, Option.map_some])
  refine ⟨fun r h => fails (fieldsCause_d h), fun hd => ⟨fun r h => fails (fieldsCause_a hd h), fun ha => ?_⟩⟩
  refine ⟨fun r h => fails (fieldsCause_b hd ha h), fun hb => ⟨fun r h => fails (fieldsCause_c hd ha hb h), fun hc => ?_⟩⟩
  refine ⟨fun h => fails (fieldsCause_noTy hd ha hb hc h), fun t ht => ?_⟩
  have typed := fieldsCause_typed (fn := fn) hd ha hb hc ht
  refine ⟨fun h => fails (typed.trans (if_pos h)), fun hty htm => ?_⟩
  have typeFits := typed.trans (if_neg (not_or.2 ⟨ne_false_of_eq_true hty, ne_false_of_eq_true htm⟩))
  refine ⟨fun h => fails (typeFits.trans (if_pos h)), fun hft => ?_⟩
  have fnFitsType := typeFits.trans (if_neg (ne_false_of_eq_true hft))
  refine ⟨fun h => fails (fnFitsType.trans (if_pos h)), fun hmd => ?_⟩
  have mdFits := fnFitsType.trans (if_neg (ne_false_of_eq_true hmd))
  refine ⟨fun h => fails (mdFits.trans (if_pos h)), fun hfm => ?_⟩
  have banks := mdFits.trans (if_neg (ne_false_of_eq_true hfm))
  refine ⟨fun p h => fails (banks.trans (congrArg _ h)), fun h => ?_⟩
  obtain ⟨i, w, hi, hp, hw⟩ := decode_passed (seq := seq) (x := x) (fields.trans (congrArg _ (banks.trans (congrArg _ h))))
  obtain ⟨hfn, hgw, hdw, haw, hbw, hcw, himm, htw, hmdw⟩ := fieldsOf_places hw
  obtain ⟨hneg, hidx⟩ := guardOf_extract x
  exact ⟨i, w, hi, hp, hfn, hgw ▸ hneg, hgw ▸ hidx, hdw.symm, haw.symm, hbw.symm, hcw.symm, himm, Option.some.inj (htw.symm.trans ht), hmdw⟩

/-- Settles O39: each word passes the checks of R68, and its fields are those of the example. -/
theorem workedWordsDecode : Obligations.WorkedWordsDecode :=
  ⟨⟨_, rfl, rfl⟩, ⟨_, rfl, rfl, rfl⟩, ⟨_, rfl, rfl⟩, ⟨_, rfl, rfl, rfl⟩, ⟨_, rfl⟩, ⟨_, rfl, rfl⟩⟩

end Sys2Proof
end

section
/-! The late floating forms (R86, R87, R200, R201), the fetch of a word (R67, R229) and the issue under a false guard (R71). -/

namespace Sys2Proof.Machine

/-! ## Late floating forms -/

/-- Settles O8: a late form is the floating issue whose result stays outstanding. -/
theorem lateFloatFormsLeaveAResult : Obligations.LateFloatFormsLeaveAResult := by
  intro i F s x v hF hlate h hs hv hclean
  rw [floatForm_exec hF, hlate]
  exact floatLate_next h hs hv (hclean _ (by simp)) (hclean _ (by simp)) (hclean _ (by simp))

/-! ## The fetch of a word (R67, R229) -/

section
variable {s : State} {x : Exec} {v : Gang} (hu : x.u = .gang x.t x.g) (hv : s.gang? x.t x.g = some v)
include hu hv

/-- Quads whose next issue takes the displaced word fetch that word. -/
theorem fetch_displaced (he : v.emul &&& x.quads ≠ 0#8) : s.fetch x = (s, displacedWord x v.displaced) := by
  unfold State.fetch
  rw [hu]
  simp only [hv, if_pos he]

/-- Other quads fetch the word at their program counter. -/
theorem fetch_counter (he : v.emul &&& x.quads = 0#8) : s.fetch x = s.word x x.pc.toNat 1#2 := by
  unfold State.fetch
  rw [hu]
  simp only [hv, if_neg (not_not.2 he)]

end

section
variable {s s1 : State} {x : Exec} {va : Nat} {src : BitVec 2}

theorem word_absent (h : s.look x va = (s1, .absent)) : s.word x va src = (s1, .error (.page (BitVec.ofNat 56 va) 4#3)) := by
  simp only [State.word, h]

theorem word_malformed (h : s.look x va = (s1, .malformed)) : s.word x va src = (s1, .error (protectionAt laneNone accExec va)) := by
  simp only [State.word, h]

variable {l : Leaf} (h : s.look x va = (s1, .leaf l))
include h

/-- A page of a class that no circuit serves faults. -/
theorem word_unlit (hl : s1.lit l.cc = false) (hf : s1.circuitFails x.u = false) :
    s.word x va src = (s1, .error (.circuit (BitVec.ofNat 56 va) 4#3)) := by
  simp only [State.word, h, hl, hf, Bool.false_eq_true, not_false_eq_true, if_true, if_false]

variable (hl : s1.lit l.cc = true)
include hl

/-- A page without the execute right, or with nothing behind it, is protected. -/
theorem word_protected (hp : l.xwr.getLsbD 2 = false ∨ regionOf (l.pa va) = .unpopulated) :
    s.word x va src = (s1, .error (protectionAt laneNone accExec va)) := by
  unfold State.word
  rw [h]
  exact (if_neg (not_not.2 hl)).trans (if_pos (hp.imp_left ne_true_of_eq_false))

variable (hr : l.xwr.getLsbD 2 = true) (hg : regionOf (l.pa va) = .global) (hs : x.seq = false) {a : Access}
  (ha : { s1.place x l va 16 with core := none } = a) (hc : (s1.core x.core).icache.find? (fun p => p.1 = a.key) = none)
include hr hg hs ha hc

/-- A word of global memory that the instruction cache does not hold is read there: poison of its sector faults, and else the cache keeps the word. -/
theorem word_uncached : s.word x va src =
    if (s1.read a).2.2 = true then ((s1.read a).1, .error (.coded 0x2A#8 (detailPoison laneNone src va)))
    else ((s1.read a).1.modCore x.core fun c => { c with icache := (a.key, BitVec.ofNat 128 (s1.read a).2.1) :: c.icache },
      .ok (BitVec.ofNat 128 (s1.read a).2.1)) := by
  subst ha
  have hmiss : ((s1.core x.core).icache.find? fun p => p.1 = (s1.place x l va 16).key) = none := hc
  have hglobal : regionOf (s1.place x l va 16).pa = .global := hg
  have hkey : ({ s1.place x l va 16 with core := none } : Access).key = (s1.place x l va 16).key := rfl
  generalize hread : s1.read { s1.place x l va 16 with core := none } = q
  obtain ⟨s2, d, poisoned⟩ := q
  unfold State.word
  rw [h]
  cases poisoned with
  | true => simp [hl, hr, hs, hmiss, hread, hglobal]
  | false => simp [hl, hr, hs, hmiss, hread, hglobal, hkey]

end

/-- Settles O40: the fetch is the displaced word or the word at the counter, whose lookup decides between its faults and its read. -/
theorem fetchTakesTheWordAtTheCounter : Obligations.FetchTakesTheWordAtTheCounter := by
  intro s x v hs hu hv
  refine ⟨fun he => ?_, fun he => ?_⟩
  · rw [fetch_displaced hu hv he]; rfl
  have hpc : BitVec.ofNat 56 x.pc.toNat = x.pc := by simp
  rw [fetch_counter hu hv he]
  have at_pc (acc : BitVec 2) : protectionAt laneNone acc x.pc.toNat = .coded 0x25#8 (detailLane laneNone acc x.pc) := by
    rw [protectionAt, hpc]
  refine ⟨fun s1 h => ?_, fun s1 h => ?_, fun s1 l h => ⟨fun hl hf => ?_, fun hl => ⟨fun hp => ?_, fun hr hg _ => ?_⟩⟩⟩
  · rw [word_absent h, hpc]
  · rw [word_malformed h, at_pc]
  · rw [word_unlit h hl hf, hpc]
  · rw [word_protected h hl hp, at_pc]
  · intro a hc
    rw [word_uncached h hl hr hg hs rfl hc, detailPoison, hpc]
    exact ⟨fun hp => if_pos hp, fun hp => ⟨_, if_neg (ne_true_of_eq_false hp)⟩⟩

/-! ## The issue under a false guard (R71) -/

/-- What acts once has a predicate guard (R70, R71). -/
theorem predClass_of_actsOnce : ∀ {op : BitVec 8}, actsOnce op = true → predClass op = true := by decide

/-- A predicate guard that is false leaves no lane that takes part. -/
theorem part_of_false_guard {s : State} {op : BitVec 8} {w : Fields} {x : Exec} (he : execOf s x.u op w = some x) (hs : x.seq = false)
    (hp : predClass op = true) (hg : x.guard = false) : x.part = 0#32 := by
  obtain ⟨tm, v, hu, ht, hv, -⟩ := gang_unit he hs
  rw [hu] at he
  simp only [execOf, ht, hv, Option.bind_some, Option.map_some, Option.some.injEq, hp, if_true] at he
  rw [← he] at hg ⊢
  simpa using hg

section
variable {s : State} {k : IssueKind} {x : Exec}

/-- An issue passes its checks where it fails none of the four. -/
theorem issueCheck_passes {alloc : Nat} (hk : k.priv = true → x.priv = true) (hr : x.seq = false → gatedReg x.op x.w alloc = none)
    (hc : k.conv = true → x.quads = x.liveQuads) (hu : k.uniform = true → x.seq = false → x.part = 0#32) : issueCheck k x alloc = none := by
  have conv : ¬ (k.conv = true ∧ x.quads ≠ x.liveQuads) := fun h => h.2 (hc h.1)
  cases hs : x.seq with
  | true =>
    simp only [issueCheck, if_neg fun h : k.priv = true ∧ ¬ x.priv = true => h.2 (hk h.1), hs, if_true, if_neg conv, not_true, false_and,
      and_false, if_false]
  | false =>
    rw [issueCheck_allocated hk hs (hr hs), if_neg conv, if_neg fun h => h.2.1 (hu h.1 hs)]

/-- A false guard of a vector form of fixed latency makes the tags of its destination general (R145, R146). -/
theorem falseGuard_fixedVector (hu : x.u = .gang x.t x.g) (hv : x.op.extractLsb' 6 2 = 1#2) (hk : k.late = false) :
    falseGuard k x s = s.modGang x.t x.g fun v => v.generalize (namedRegs x.op x.w).2 := by
  simp only [falseGuard, hu, hv, hk, Bool.false_eq_true, not_false_eq_true, and_self, if_true]

/-- A false guard of any other form leaves nothing. -/
theorem falseGuard_other (h : ¬ (x.seq = false ∧ x.op.extractLsb' 6 2 = 1#2 ∧ k.late = false)) {op : BitVec 8} {w : Fields} {s0 : State}
    (he : execOf s0 x.u op w = some x) : falseGuard k x s = s := by
  obtain ⟨v, hu, hs, -⟩ | ⟨n, hu, -⟩ := moved_unit he 16
  · simp only [falseGuard, hu]
    exact if_neg fun hv => h ⟨hs, hv.1, by simpa using hv.2⟩
  · simp only [falseGuard, hu]

end

/-- The fetch of a follow-on word leaves the teams and the issuing unit. -/
theorem followOn_unit (s : State) (x : Exec) : (s.followOn x).1.teams = s.teams ∧ (s.followOn x).1.cur = s.cur := by
  have hw := word_unit s x (x.pc + 16#56).toNat 1#2
  unfold State.followOn
  generalize s.word x (x.pc + 16#56).toNat 1#2 = r at hw
  obtain ⟨s1, e | w⟩ := r
  · exact hw
  · dsimp only
    split
    · exact hw
    · split
      · exact hw
      · split <;> exact hw

section
variable {s t : State} (h : t.teams = s.teams)
include h

/-- What a gang consults at its issue lies in its team. -/
theorem execOf_gang_congr (n g : Nat) (op : BitVec 8) (w : Fields) : execOf t (.gang n g) op w = execOf s (.gang n g) op w := by
  simp only [execOf, State.team?, h]

theorem allocOf_gang_congr (n g : Nat) : t.allocOf (.gang n g) = s.allocOf (.gang n g) := by
  simp only [State.allocOf, State.gang?, State.team?, h]

end

section
variable {i : Instr} {op : BitVec 8} {w : Fields} {s : State} {x : Exec}
variable (hcur : s.cur = some x.u) (he : execOf s x.u op w = some x) (hguard : x.guard = false)
include hcur he hguard

/-- A form without a follow-on word whose guard is false and that passes its checks. -/
theorem exec_false_guard (hp : i.parts = some (op, w)) (hm : ¬ (op = 0x98#8 ∧ w.fn = 1#4)) (hk : privileged op w = true → x.priv = true)
    (hr : x.seq = false → gatedReg op w (s.allocOf x.u) = none) (hc : converges op = true → x.quads = x.liveQuads) :
    ∃ k, (op.extractLsb' 6 2 = 1#2 → k.late = lateVector op) ∧
      exec i s = .next (finish x (falseGuard k x (moveOn x (if op = 0xC4#8 then btabLength w else 16) s))) := by
  obtain ⟨late, mem, body, hlate, hi⟩ := exec_issue s hp hm
  obtain ⟨-, hw, ho⟩ := execOf_u he
  refine ⟨checkKind op w late mem, hlate, ?_⟩
  rw [hi]
  refine issue_false hcur he (issueCheck_passes hk ?_ hc fun hu hs => ?_) hguard
  · rwa [hw, ho]
  · exact part_of_false_guard he hs (predClass_of_actsOnce hu) hguard

end

/-- `mcopy` with a follow-on word that is fetched, whose guard is false and that passes its checks (R342). -/
theorem execMcopy_false_guard {w : Fields} {s s1 : State} {x : Exec} {f : BitVec 8 × Fields} (hcur : s.cur = some x.u)
    (he : execOf s x.u 0x98#8 w = some x) (hguard : x.guard = false) (hs : x.seq = false)
    (hr : gatedReg 0x98#8 w (s.allocOf x.u) = none) (hc : x.quads = x.liveQuads) (hfn : w.fn = 1#4) (hf : s.followOn x = (s1, .ok f)) :
    execMcopy w s = .next (finish x (moveOn x 32 s1)) := by
  obtain ⟨_, _, hu, -⟩ := gang_unit he hs
  obtain ⟨-, hw, ho⟩ := execOf_u he
  have hunit := followOn_unit s x
  rw [hf] at hunit
  obtain ⟨hteams, hcur1⟩ := hunit
  have he1 : execOf s1 x.u 0x98#8 w = some x := by rw [hu, execOf_gang_congr hteams, ← hu, he]
  have halloc : s1.allocOf x.u = s.allocOf x.u := by rw [hu, allocOf_gang_congr hteams]
  have checks : issueCheck (kindTile false) x (s1.allocOf x.u) = none :=
    issueCheck_passes (fun h => absurd h (by decide)) (fun _ => by rw [hw, ho, halloc, hr]) (fun _ => hc)
      fun _ _ => part_of_false_guard he hs (by decide) hguard
  have run : execMcopy w s = copyForm w (some f) s1 := by
    simp only [execMcopy, hfn, if_true, hcur, Option.bind_some, he, hf]
  rw [run, copyForm, issue_false (hcur1.trans hcur) he1 checks hguard, falseGuard_other (fun h => absurd (ho ▸ h.2.1) (by decide)) he]
  rfl

/-- Settles O44: every form is an issue of its opcode's kind, which passes its checks and whose guard then ends it. -/
theorem falseGuardsOnlyMoveOn : Obligations.FalseGuardsOnlyMoveOn := by
  intro i op w s x hp hcur he hguard hk hr hc
  obtain ⟨-, hw, ho⟩ := execOf_u he
  refine ⟨fun hm => ?_, fun hop hfn hs s1 f hf => ?_⟩
  · obtain ⟨k, hlate, hrun⟩ := exec_false_guard hcur he hguard hp hm hk hr hc
    rw [hrun]
    refine ⟨fun ⟨hs, hv, hl⟩ => ?_, fun hn => ?_⟩
    · obtain ⟨_, _, hu, -⟩ := gang_unit he hs
      have hbtab : op ≠ 0xC4#8 := by rintro rfl; exact absurd hv (by decide)
      rw [falseGuard_fixedVector hu (ho ▸ hv) ((hlate hv).trans (decide_eq_false hl)), if_neg hbtab, hw, ho]
    · rw [falseGuard_other (fun ⟨hs, hv, hl⟩ => hn ⟨hs, ho ▸ hv, of_decide_eq_false ((hlate (ho ▸ hv)).symm.trans hl)⟩) he]
  · subst hop
    rw [eq_mcopy_of_parts hp]
    exact execMcopy_false_guard hcur he hguard hs (hr hs) (hc (by decide)) hfn hf

end Sys2Proof.Machine
end

section
/-! Movers and links (R140, R370 to R373, R467, R480 to R482, R486, R493): what the step of a chain makes of its next descriptor, what the ports take, and what the host reads and writes. -/

namespace Sys2Proof.Machine

/-! ## Chains (R371 to R373) -/

/-- Each event of a chain is a step of its mover. -/
theorem exec_chainEvent {m h : Nat} {i : Instr}
    (hi : i ∈ [Instr.moverCopy m h, .moverRingAllreduce m h, .moverTreeAllreduce m h, .ethernetSend m h, .ethernetReceive m h]) :
    ∃ ops f, ∀ s, exec i s = .next (moverStep m h ops f s) := by
  simp only [List.mem_cons, List.not_mem_nil, or_false] at hi
  obtain rfl | rfl | rfl | rfl | rfl := hi <;> exact ⟨_, _, fun _ => rfl⟩

section
variable {s : State} {m h : Nat} {r : Registration} (ha : s.awake = true) (hc : s.chain? m h = some r)
include ha hc

/-- A chain whose head is idle does nothing. -/
theorem moverStep_idle (hh : s.chainHead r = .idle) (ops : List Nat) (f : Taken → State → State) : moverStep m h ops f s = s := by
  simp only [moverStep, ha, if_true, hc, hh]

variable {d : Taken} (hh : s.chainHead r = .take d)
include hh

/-- A malformed descriptor halts its chain with code 1, whatever the step's operation. -/
theorem moverStep_malformed (hw : d.wellFormed = false) (ops : List Nat) (f : Taken → State → State) :
    moverStep m h ops f s = s.halt r d.block d.idx 1 0 := by
  simp only [moverStep, ha, if_true, hc, hh, hw, Bool.false_eq_true, not_false_eq_true]

variable (hw : d.wellFormed = true)
include hw

/-- A well-formed descriptor is performed by the step of its operation. -/
theorem moverStep_takes {op : Nat} (ho : d.op = op) (f : Taken → State → State) : moverStep m h [op] f s = f d s := by
  simp only [moverStep, ha, if_true, hc, hh, hw, not_true, if_false, ho, List.contains_cons, beq_self_eq_true, Bool.true_or]

/-! ## Copies (R372, R373) -/

section
variable (ho : d.op = 0x01)
include ho

/-- A copy of a length that is no multiple of 16 halts its chain with code 2. -/
theorem execMoverCopy_badLength (hn : d.field 0x20 8 % 16 ≠ 0) :
    execMoverCopy m h s = .next (s.halt d.r d.block d.idx 2 0) := by
  simp only [execMoverCopy, moverStep_takes ha hc hh hw ho, hn, ne_eq, not_false_eq_true, if_true, State.stopChain]

variable (hn : d.field 0x20 8 % 16 = 0)
include hn

/-- A copy whose source stops does what the stop does. -/
theorem execMoverCopy_sourceStops {e : MoverStop} (hs : s.rangeOf d d.ctx (d.field 0x10 8) (d.field 0x20 8) 1#3 = .error e) :
    execMoverCopy m h s = .next (s.stopChain d e) := by
  simp only [execMoverCopy, moverStep_takes ha hc hh hw ho, hn, ne_eq, not_true, if_false, hs]

/-- A copy between ranges that do not meet writes the bytes of its source, with their poison, to its destination. -/
theorem execMoverCopy_copies {a b : Run} (hs : s.rangeOf d d.ctx (d.field 0x10 8) (d.field 0x20 8) 1#3 = .ok a)
    (hd : s.rangeOf d d.ctx (d.field 0x18 8) (d.field 0x20 8) 2#3 = .ok b)
    (hm : rangesMeet (d.field 0x10 8) (d.field 0x18 8) (d.field 0x20 8) = false) :
    execMoverCopy m h s = .next ((((s.sendRun d a).sendRun d b).runWrite (s.runBytes a) (s.runTaint a) b).done d) := by
  simp only [execMoverCopy, moverStep_takes ha hc hh hw ho, hn, ne_eq, not_true, if_false, hs, hd, hm, Bool.false_eq_true]

end

/-! ## Collectives (R140, R372, R467) -/

section
variable {t : Ty} (hty : d.ty = some t) (h2 : 2 ≤ d.field 0x30 2) (h512 : d.field 0x30 2 ≤ 512) (hi : d.field 0x32 2 < d.field 0x30 2)
include hty h2 h512 hi

section
variable (ho : d.op = 0x10) {table : List Nat} (hp : s.peerTable d (d.field 0x30 2) = .ok table)
  (hn : d.field 0x20 8 % d.field 0x30 2 = 0)
include ho hp hn

/-- A ring member whose own entry does not name its buffer halts every chain of the collective. -/
theorem execMoverRingAllreduce_mismatch (ht : table[d.field 0x32 2]? ≠ some (d.field 0x18 8)) :
    execMoverRingAllreduce m h s = .next (s.mismatch d) := by
  simp only [execMoverRingAllreduce, moverStep_takes ha hc hh hw ho, hty, hp, Nat.not_lt.2 h2, Nat.not_lt.2 h512, Nat.not_le.2 hi, hn,
    ge_iff_le, gt_iff_lt, ne_eq, not_true, or_self, if_false, ht, not_false_eq_true, if_true]

/-- A ring all-reduce whose members agree writes the fold of their buffers to each of them. -/
theorem execMoverRingAllreduce_reduces {ms : List Member} {runs : List Run} (ht : table[d.field 0x32 2]? = some (d.field 0x18 8))
    (hm : s.membersOf d (s.sharers d.tag) table = .ok ms) (hg : ((membersHere ms).any fun m => !d.agrees m) = false)
    (hb : s.buffers d (d.bufferBytes t) ms = .ok runs) :
    execMoverRingAllreduce m h s = .next ((membersHere ms).foldl (fun (s : State) m => s.done m)
      ((s.sendMembers (ms.any Member.isAway) (ms.zip runs)).writeAll
        (ringBytes t (d.exact t) (d.field 0x20 8) (runs.map s.runBytes)) runs)) := by
  simp only [execMoverRingAllreduce, moverStep_takes ha hc hh hw ho, hty, hp, Nat.not_lt.2 h2, Nat.not_lt.2 h512, Nat.not_le.2 hi, hn,
    ge_iff_le, gt_iff_lt, ne_eq, not_true, or_self, if_false, ht, hm, hg, hb, Bool.false_eq_true]

end

/-- A tree all-reduce whose root is of this module writes the root's partial values, each rounded once, to every member's buffer. -/
theorem execMoverTreeAllreduce_reduces (ho : d.op = 0x11) {root : Taken} {x : Subtree}
    (hr : s.rootOf (s.sharers d.tag) (d.field 0x30 2) d = .ok (root, false))
    (hx : s.subtree t (s.sharers d.tag) (d.field 0x30 2) s.free root = .ok x) (he : d.exact t = false) :
    let s1 := x.here.foldl (fun (s : State) p => s.sendMember x.away p.1 p.2) s
    execMoverTreeAllreduce m h s = .next (x.here.foldl (fun (s : State) p => s.done p.1)
      ({ s1 with free := x.next + d.field 0x20 8 }.writeAll ((x.sum.map (narrow t)).flatMap fun v => bytesOf v (t.width / 8))
        (x.here.map fun (p : Taken × Run) => p.2))) := by
  have hsub : ((s.rootOf (s.sharers d.tag) (d.field 0x30 2) d).bind fun r =>
      (s.subtree t (s.sharers d.tag) (d.field 0x30 2) s.free r.1).map fun x => (x, r.2)) = .ok (x, false) := by
    rw [hr, Except.bind, hx, Except.map]
  simp only [execMoverTreeAllreduce, moverStep_takes ha hc hh hw ho, hty, Nat.not_lt.2 h2, Nat.not_lt.2 h512, Nat.not_le.2 hi,
    ge_iff_le, gt_iff_lt, or_self, if_false, hsub, he, Bool.and_false, Bool.or_false, Bool.false_eq_true]

end

/-! ## Frames of a chain (R372, R493) -/

section
variable (ho : d.op = 0x20)
include ho

/-- A frame of a length that no port supports halts its chain with code 2. -/
theorem execEthernetSend_badLength (hn : d.field 0x20 8 < 64 ∨ 9216 < d.field 0x20 8) :
    execEthernetSend m h s = .next (s.halt d.r d.block d.idx 2 0) := by
  simp only [execEthernetSend, moverStep_takes ha hc hh hw ho, gt_iff_lt, hn, if_true, State.stopChain]

/-- A frame is sent with its check sequence after it. -/
theorem execEthernetSend_sends {a : Run} (hlo : 64 ≤ d.field 0x20 8) (hhi : d.field 0x20 8 ≤ 9216) (hp : d.field 0x38 1 ≤ 3)
    (hs : s.rangeOf d d.ctx (d.field 0x10 8) (d.field 0x20 8) 1#3 = .ok a) :
    execEthernetSend m h s = .next (((s.sendRun d a).modEth (d.field 0x38 1) fun e =>
      { e with sent := e.sent ++ [s.runBytes a ++ bytesOf (fcs (s.runBytes a)).toNat 4] }).done d) := by
  simp only [execEthernetSend, moverStep_takes ha hc hh hw ho, gt_iff_lt, Nat.not_lt.2 hlo, Nat.not_lt.2 hhi, Nat.not_lt.2 hp, or_self,
    if_false, hs]

end

section
variable (ho : d.op = 0x21) (hp : d.field 0x38 1 ≤ 3)
include ho hp

/-- A receive waits while its port has no frame. -/
theorem execEthernetReceive_waits (hf : (s.ethPort (d.field 0x38 1)).received = []) : execEthernetReceive m h s = .next s := by
  simp only [execEthernetReceive, moverStep_takes ha hc hh hw ho, gt_iff_lt, Nat.not_lt.2 hp, if_false, hf]

/-- A receive takes the port's first frame and writes its length and its first bytes. -/
theorem execEthernetReceive_takes {f : List Byte} {fs : List (List Byte)} {b : Run}
    (hf : (s.ethPort (d.field 0x38 1)).received = f :: fs) :
    let bytes := bytesOf f.length 8 ++ f.take (d.field 0x20 8)
    s.rangeOf d d.ctx (d.field 0x18 8) bytes.length 2#3 = .ok b →
      execEthernetReceive m h s = .next ((((s.sendRun d b).runWrite bytes (fun _ => false) b).modEth (d.field 0x38 1) fun e =>
        { e with received := fs }).done d) := by
  intro bytes hd
  simp only [execEthernetReceive, moverStep_takes ha hc hh hw ho, gt_iff_lt, Nat.not_lt.2 hp, if_false, hf, bytes, hd]

end

end

/-! ## What arrives at the ports (R486, R493) -/

section
variable {s : State} {port : Nat}

/-- A frame that flow control holds stays at its sender. -/
theorem execEthernetFrameArrival_held (frame : List Byte) (good : Bool) : execEthernetFrameArrival port frame good true s = .next s :=
  congrArg Host.Outcome.next (if_pos (.inr rfl))

section
variable (ha : s.awake = true) {frame : List Byte} {good : Bool}
include ha

/-- A frame that is not held is kept or dropped by what R493 asks of it. -/
theorem execEthernetFrameArrival_unheld : execEthernetFrameArrival port frame good false s = .next
    (if good ∧ 64 ≤ frame.length ∧ frame.length ≤ 9216 ∧ (s.ethPort port).received.length < s.portReceivers port then
      s.modEth port fun e => { e with received := e.received ++ [frame] }
    else s.modEth port fun e => { e with dropped := e.dropped + 1 }) :=
  congrArg Host.Outcome.next (if_neg (by simp [ha]))

/-- A good frame of a supported length for which a receive descriptor is left is kept. -/
theorem execEthernetFrameArrival_keeps (hg : good = true) (hlo : 64 ≤ frame.length) (hhi : frame.length ≤ 9216)
    (hr : (s.ethPort port).received.length < s.portReceivers port) : execEthernetFrameArrival port frame good false s =
      .next (s.modEth port fun e => { e with received := e.received ++ [frame] }) := by
  rw [execEthernetFrameArrival_unheld ha, if_pos ⟨hg, hlo, hhi, hr⟩]

/-- Another frame is dropped and counted. -/
theorem execEthernetFrameArrival_drops (h : good = false ∨ frame.length < 64 ∨ 9216 < frame.length ∨
    s.portReceivers port ≤ (s.ethPort port).received.length) : execEthernetFrameArrival port frame good false s =
      .next (s.modEth port fun e => { e with dropped := e.dropped + 1 }) := by
  rw [execEthernetFrameArrival_unheld ha, if_neg]
  rintro ⟨hg, hlo, hhi, hr⟩
  obtain hbad | hshort | hlong | hnone := h
  · exact Bool.false_ne_true (hbad.symm.trans hg)
  · omega
  · omega
  · omega

end

/-- The writes of a good flit are performed with their poison. -/
theorem execUtiumFlitReceive_good (ha : s.awake = true) (hp : port < 48) (f : Flit) :
    execUtiumFlitReceive port true f s = .next (f.writes.foldl (fun (s : State) w => s.linkWrite w.1 w.2.1 w.2.2) s) :=
  congrArg Host.Outcome.next (if_pos ⟨ha, hp, rfl⟩)

/-- A flit whose CRC fails changes nothing. -/
theorem execUtiumFlitReceive_bad (f : Flit) : execUtiumFlitReceive port false f s = .next s :=
  congrArg Host.Outcome.next (if_neg fun ⟨_, _, hb⟩ => Bool.false_ne_true hb)

end

/-! ## Reads of the management space (R8, R481 to R483) -/

section
variable {s : State}

/-- A read of another width, or at an offset that is no multiple of its width, returns zero. -/
theorem readRegister_unaligned {off width : Nat} (h : (width ≠ 32 ∧ width ≠ 64) ∨ (8 * off) % width ≠ 0) :
    s.readRegister off width = 0#64 := by
  have h64 : ¬ (width = 64 ∧ off % 8 = 0) := by
    rintro ⟨rfl, ho⟩
    omega
  have h32 : ¬ (width = 32 ∧ off % 8 = 0) := by
    rintro ⟨rfl, ho⟩
    omega
  have hhigh : ¬ (width = 32 ∧ off % 8 = 4) := by
    rintro ⟨rfl, ho⟩
    omega
  simp only [State.readRegister, h64, h32, hhigh, if_false]

/-- Until `READY` only the start registers hold anything. -/
theorem readRegister_unready (hr : s.start.ready = false) {off : Nat} (ho : 8 ≤ off) (width : Nat) : s.readRegister off width = 0#64 := by
  simp only [State.readRegister, hr, Nat.not_lt.2 ho, Bool.false_eq_true, or_self, if_false, BitVec.zero_and, BitVec.zero_ushiftRight,
    ite_self]

section
variable (hr : s.start.ready = true)
include hr

/-- A whole read in the package block returns the block's register. -/
theorem readRegister_package {off : Nat} (ho : off % 8 = 0) (hl : off < 0x100000) : s.readRegister off 64 = s.readPackage off := by
  have hoff : off / 8 * 8 = off := Nat.div_mul_cancel (Nat.dvd_of_mod_eq_zero ho)
  simp only [State.readRegister, hr, true_or, and_self, if_true, ho, hoff, State.readSpace, hl]

/-- The way register of a die reads its mask. -/
theorem readRegister_way {die : Nat} (hd : die < 9) : s.readRegister (0x100 + 8 * die) 64 = (s.die die).way.zeroExtend 64 := by
  have hstart : ¬ 0x100 + 8 * die = 0 := by omega
  have hblock : 0x100 ≤ 0x100 + 8 * die ∧ 0x100 + 8 * die < 0x100 + 8 * 9 := by omega
  have hdie : (0x100 + 8 * die - 0x100) / 8 = die := by omega
  rw [readRegister_package hr (by omega) (by omega), State.readPackage, if_neg hstart, if_pos hblock, hdie]

/-- The epoch register reads the epoch. -/
theorem readRegister_epoch : s.readRegister 0x400 64 = s.epoch :=
  readRegister_package hr rfl (by decide)

end

/-! ## Accesses of the host (R7, R358, R477, R480, R481) -/

section
variable (hr : s.start.ready = true)
include hr

section
variable (hl : s.linkUp 0 = true)
include hl

/-- The host reads device memory over link 0, each line with its sector's poison. -/
theorem execHostLinkAccess_read {pa len : Nat} (h : pa + len ≤ 0xC000000000) :
    execHostLinkAccess 0 (.read pa len) s = .next { s with hostReply := some (memBytes s.mem pa len, s.linePoison pa len) } := by
  simp only [execHostLinkAccess, hl, not_true, if_false, hr, h, and_self, if_true]

/-- The host writes device memory over link 0, sector by sector. -/
theorem execHostLinkAccess_write (pa : Nat) (bytes : List Byte) (poisoned : Bool) :
    execHostLinkAccess 0 (.write pa bytes poisoned) s =
      .next ((splitSectors pa bytes).foldl (fun (s : State) p => s.linkWrite p.1 p.2 poisoned) s) := by
  simp only [execHostLinkAccess, hl, not_true, if_false, hr, and_self, if_true]

end

variable {link q : Nat} (hl : s.linkUp link = true) (hq : q < 4096)
include hl hq

/-- The host's read of a queue's `HEAD` goes to the queue. -/
theorem execHostLinkAccess_head : execHostLinkAccess link (.head q) s = .next (s.readHead q) := by
  simp only [execHostLinkAccess, hl, not_true, if_false, hr, hq, and_self, if_true]

end

/-- Over a link that is up the host reads a register of the management space. -/
theorem execHostLinkAccess_register {link : Nat} (hl : s.linkUp link = true) (off width : Nat) :
    execHostLinkAccess link (.register off width) s =
      .next { s with hostReply := some (bytesOf (s.readRegister off width).toNat (width / 8), [false]) } := by
  simp only [execHostLinkAccess, hl, not_true, if_false]

section
variable {q : Nat}

/-- `HEAD` of a queue that is not mapped is its descriptor's. -/
theorem readHead_unmapped (hx : s.slot? q = none) : s.readHead q = s.answerHead (s.descriptorHead q) := by
  simp only [State.readHead, hx]

variable {x : QueueSlot} (hx : s.slot? q = some x)
include hx

/-- `HEAD` of a mapped queue is its slot's. -/
theorem readHead_mapped (hv : x.leaving = false) : s.readHead q = s.answerHead x.head := by
  simp only [State.readHead, hx, hv, Bool.false_eq_true, if_false]

/-- The read of `HEAD` of a queue that leaves its slot is held. -/
theorem readHead_leaving (hv : x.leaving = true) : s.readHead q = s.modQueue q fun r => { r with headRead := true } := by
  simp only [State.readHead, hx, hv, if_true]

end

end

/-! ## The obligation -/

/-- Settles O52: a chain's step performs its head descriptor, and each arrival and access is its update under the guard that its clause decides. -/
theorem moversAndLinksMoveBytes : Obligations.MoversAndLinksMoveBytes := by
  refine ⟨?_, ?_, ?_, ?_, ?_, ?_⟩
  · intro s m h r d ha hc hh
    refine ⟨?_, ?_, ?_, ?_, ?_, ?_⟩
    · intro hw i hi
      obtain ⟨ops, f, hrun⟩ := exec_chainEvent hi
      rw [hrun, moverStep_malformed ha hc hh hw]
    · exact fun hw ho => ⟨execMoverCopy_badLength ha hc hh hw ho, fun _ hn hs => execMoverCopy_sourceStops ha hc hh hw ho hn hs,
        fun hn hs => execMoverCopy_sourceStops ha hc hh hw ho hn hs,
        fun _ _ hn hs hd hm => execMoverCopy_copies ha hc hh hw ho hn hs hd hm⟩
    · exact fun hw ho _ _ _ _ hty hp h2 h512 hi hn => ⟨execMoverRingAllreduce_mismatch ha hc hh hw hty h2 h512 hi ho hp hn,
        execMoverRingAllreduce_reduces ha hc hh hw hty h2 h512 hi ho hp hn⟩
    · exact fun hw ho _ _ _ hty h2 h512 hi hr hx he => execMoverTreeAllreduce_reduces ha hc hh hw hty h2 h512 hi ho hr hx he
    · exact fun hw ho => ⟨execEthernetSend_badLength ha hc hh hw ho,
        fun _ hlo hhi hp hs => execEthernetSend_sends ha hc hh hw ho hlo hhi hp hs⟩
    · exact fun hw ho hp => ⟨execEthernetReceive_waits ha hc hh hw ho hp,
        fun _ _ _ hf => execEthernetReceive_takes ha hc hh hw ho hp hf⟩
  · intro s m h r ha hc hh i hi
    obtain ⟨ops, f, hrun⟩ := exec_chainEvent hi
    rw [hrun, moverStep_idle ha hc hh]
  · exact fun s port frame good ha => ⟨execEthernetFrameArrival_held frame good, execEthernetFrameArrival_keeps ha,
      execEthernetFrameArrival_drops ha⟩
  · exact fun s port f ha hp => ⟨execUtiumFlitReceive_good ha hp f, execUtiumFlitReceive_bad f⟩
  · intro s hw hr hl
    have hup : s.linkUp 0 = true := by simp [State.linkUp, hw, hl]
    exact ⟨fun _ _ h => execHostLinkAccess_read hr hup h, execHostLinkAccess_write hr hup⟩
  · intro s link hl
    refine ⟨execHostLinkAccess_register hl, fun _ _ => readRegister_unaligned, fun _ width hr ho => readRegister_unready hr ho width,
      fun hr => ⟨fun _ => readRegister_way hr, readRegister_epoch hr, fun q hq => ?_⟩⟩
    have hhead := execHostLinkAccess_head hr hl hq
    exact ⟨fun hx => hhead.trans (congrArg _ (readHead_unmapped hx)), fun _ hx hv => hhead.trans (congrArg _ (readHead_mapped hx hv)),
      fun _ hx hv => hhead.trans (congrArg _ (readHead_leaving hx hv))⟩

end Sys2Proof.Machine
end

section
/-! Writes of special registers (R156, R158, R159, R230, R231): what each register's write does, and what `mtsr` answers. -/

namespace Sys2Proof.Machine

/-! ## What a special register's write does (R156, R158, R159, R231) -/

section
variable (s : State) (x : Exec) (v : W64)

theorem writeSpecial_flags : s.writeSpecial x 0x11 v = s.modRegs x.u fun r => { r with fpflags := v.extractLsb' 0 5 } := rfl

variable {v} in
/-- `%fpctl` takes a rounding mode from 0 to 5. -/
theorem writeSpecial_mode (hm : (v.extractLsb' 0 3).toNat ≤ 5) :
    s.writeSpecial x 0x12 v = s.modRegs x.u fun r => { r with fpctl := v.extractLsb' 0 3 } := if_pos hm

variable {v} in
/-- A reserved rounding mode leaves `%fpctl`. -/
theorem writeSpecial_reservedMode (hm : ¬ (v.extractLsb' 0 3).toNat ≤ 5) : s.writeSpecial x 0x12 v = s := if_neg hm

section
variable {x} (hs : x.seq = false) (hu : x.u = .gang x.t x.g)

include hs in
/-- The seed of a gang is its team's. -/
theorem writeSpecial_seed : s.writeSpecial x 0x13 v = s.modTeam x.t fun tm => { tm with srseed := v } := if_neg (by simp [hs])

include hs in
/-- The counters of a gang are those of its lanes that issue. -/
theorem writeSpecial_counters : s.writeSpecial x 0x14 v = s.modGang x.t x.g fun u =>
    { u with srctr := Vector.ofFn fun l => if x.sub.getLsbD l then v.extractLsb' 0 32 else u.srctr[l] } := if_neg (by simp [hs])

include hu

/-- The trap vector of a gang is its team's. -/
theorem writeSpecial_vector_gang : s.writeSpecial x 0x17 v = s.modTeam x.t fun tm => { tm with trapvec := v &&& ~~~15#64 } := by
  simp only [State.writeSpecial, hu]

/-- The call stack pointer of a gang is that of each of its quads that issue. -/
theorem writeSpecial_stack_gang : s.writeSpecial x 0x20 v = s.modGang x.t x.g fun u =>
    { u with quads := mapQuads u.quads fun q y => if x.quads.getLsbD q then { y with csp := v } else y } := by
  simp only [State.writeSpecial, setCsp, hu]

end

section
variable {x}

/-- A sequencer has neither a seed nor counters. -/
theorem writeSpecial_gangOnly (hs : x.seq = true) {i : Nat} (hi : i = 0x13 ∨ i = 0x14) : s.writeSpecial x i v = s := by
  obtain rfl | rfl := hi
  · exact if_pos hs
  · exact if_pos hs

variable {n : Nat} (hu : x.u = .seq n)
include hu

theorem writeSpecial_vector_seq : s.writeSpecial x 0x17 v = s.modSeq n fun q => { q with trapvec := v &&& ~~~15#64 } := by
  simp only [State.writeSpecial, hu]

theorem writeSpecial_stack_seq : s.writeSpecial x 0x20 v = s.modSeq n fun q => { q with csp := v } := by
  simp only [State.writeSpecial, setCsp, hu]

end

end

/-! ## `mtsr` (R230) -/

section
variable {w : Fields} {s : State} {x : Exec} (h : Issues s kindPlain 0xCB#8 w x) {i : Nat} (hi : i = (w.imm.extractLsb' 0 8).toNat)
include h hi

/-- The trap vector outside a privileged handler is protected. -/
theorem execMtsr_protected (hv : i = 0x17) (hp : x.priv = false) : execMtsr w s = .next (raiseTrap x (protectionOnce 0#56) false s) := by
  subst hi
  exact issue_trap h (if_pos ⟨hv, by simp [hp]⟩)

variable (hp : i = 0x17 → x.priv = true) {v : W64} (ha : (s.scalarSrc x w.a (specialTy i)).2 = false)
  (hv : v = BitVec.ofNat 64 (s.scalarSrc x w.a (specialTy i)).1)
include hp ha hv

/-- `mtsr` that is allowed and whose source is clean is the issue of the register's write. -/
theorem execMtsr_issue : ∃ body, execMtsr w s = issue kindPlain 0xCB#8 w 16 body s ∧
    body x (moveOn x 16 s) = .ok ((moveOn x 16 s).writeSpecial x i v) := by
  subst hi hv
  refine ⟨_, rfl, (if_neg fun ⟨hi, hn⟩ => hn (hp hi)).trans ?_⟩
  simp only [scalarSrc_moved h.2.1]
  rw [consumeOnce_clean (by simpa only [List.forall_mem_singleton] using ha)]

theorem execMtsr_next : execMtsr w s = .next (finish x ((moveOn x 16 s).writeSpecial x i v)) := by
  obtain ⟨body, he, hb⟩ := execMtsr_issue h hi hp ha hv
  rw [he, issue_next h hb]

/-- A write that leaves the state leaves the registers. -/
theorem execMtsr_id (hw : (moveOn x 16 s).writeSpecial x i v = moveOn x 16 s) : ∃ t, execMtsr w s = .next t ∧ regsBecome x id s t := by
  obtain ⟨body, he, hb⟩ := execMtsr_issue h hi hp ha hv
  rw [he]
  exact issue_id h (hb.trans (congrArg _ hw))

/-- A write of the unit's registers. -/
theorem execMtsr_regs {f : Regs → Regs} (hw : (moveOn x 16 s).writeSpecial x i v = (moveOn x 16 s).modRegs x.u f) :
    ∃ t, execMtsr w s = .next t ∧ regsBecome x f s t := by
  obtain ⟨body, he, hb⟩ := execMtsr_issue h hi hp ha hv
  rw [he]
  exact issue_regs h (hb.trans (congrArg _ hw))

/-- A write of the issuing gang. -/
theorem execMtsr_gang (hs : x.seq = false) {f : Gang → Gang}
    (hw : (moveOn x 16 s).writeSpecial x i v = (moveOn x 16 s).modGang x.t x.g f) :
    ∃ t, execMtsr w s = .next t ∧ gangBecomes x (fun u => f (u.moved x 16)) s t := by
  obtain ⟨body, he, hb⟩ := execMtsr_issue h hi hp ha hv
  obtain ⟨_, u, -, -, -, hu⟩ := gang_unit h.2.1 hs
  rw [he]
  exact issue_gang h hs hu (hb.trans (congrArg _ (hw.trans (State.modGang_eq _ _ _ _ _ (moved_gang h.2.1 hs hu 16).1)))) rfl

/-- A write of the issuing sequencer. -/
theorem execMtsr_seq (hs : x.seq = true) {f : Seq → Seq}
    (hw : (moveOn x 16 s).writeSpecial x i v = (moveOn x 16 s).modSeq x.cluster f) (hf : ∀ q, (f q).idx = q.idx) :
    ∃ t, execMtsr w s = .next t ∧ seqBecomes x (fun q => f { q with pc := x.pc + 16#56, emul := false }) s t := by
  obtain ⟨body, he, hb⟩ := execMtsr_issue h hi hp ha hv
  rw [he]
  refine issue_seq h hs (hb.trans (congrArg _ hw)) ((hf _).trans (State.seq_idx _ _)) ?_
  rw [(moved_seq h.2.1 hs 16).2]

end

/-- What is known of some answer holds of the answer. -/
theorem of_next {o : Host.Outcome State Fault Refusal} {t : State} {p : State → Prop} (ho : o = .next t) (h : ∃ t, o = .next t ∧ p t) : p t := by
  obtain ⟨t', ht, hp⟩ := h
  cases ho.symm.trans ht
  exact hp

/-- Settles O16: `mtsr` is the issue of a register's write, which its index decides. -/
theorem mtsrWritesSpecialRegisters : Obligations.MtsrWritesSpecialRegisters := by
  intro w s x h i
  have hi : i = (w.imm.extractLsb' 0 8).toNat := rfl
  clear_value i
  intro a v
  refine ⟨execMtsr_protected h hi, fun hp ha => execMtsr_next h hi hp ha rfl, fun hp ha => ?_, fun ha => ?_, fun ha => ?_, fun ha hn => ?_⟩
  · replace hp : i = 0x17 → x.priv = true := fun hi => hp.resolve_left (not_not_intro hi)
    have hu (hs : x.seq = false) : x.u = .gang x.t x.g := by
      obtain ⟨_, _, hu, -⟩ := gang_unit h.2.1 hs
      exact hu
    have hnext := execMtsr_next h hi hp ha rfl
    refine ⟨_, hnext, ?_, ?_, ?_, ?_, ?_, ?_, ?_⟩
    · rintro rfl hs
      exact congrArg (finish x) (writeSpecial_seed _ v hs)
    · rintro rfl hs
      exact of_next hnext (execMtsr_gang h hi hp ha rfl hs (writeSpecial_counters _ v hs))
    · rintro rfl hs
      exact congrArg (finish x) (writeSpecial_vector_gang _ v (hu hs))
    · rintro rfl hs
      exact of_next hnext (execMtsr_seq h hi hp ha rfl hs (writeSpecial_vector_seq _ v (moved_seq h.2.1 hs 16).1) fun _ => rfl)
    · rintro rfl hs
      exact of_next hnext (execMtsr_gang h hi hp ha rfl hs (writeSpecial_stack_gang _ v (hu hs)))
    · rintro rfl hs
      exact of_next hnext (execMtsr_seq h hi hp ha rfl hs (writeSpecial_stack_seq _ v (moved_seq h.2.1 hs 16).1) fun _ => rfl)
    · exact fun hj hs => of_next hnext (execMtsr_id h hi hp ha rfl (writeSpecial_gangOnly _ v hs hj))
  · rintro rfl
    exact execMtsr_regs h hi nofun ha rfl (writeSpecial_flags _ x v)
  · rintro rfl
    by_cases hm : (v.extractLsb' 0 3).toNat ≤ 5
    · simp only [hm, if_true]
      exact execMtsr_regs h hi nofun ha rfl (writeSpecial_mode _ x hm)
    · simp only [hm, if_false]
      exact execMtsr_id h hi nofun ha rfl (writeSpecial_reservedMode _ x hm)
  · have hv : i ≠ 0x17 := fun hj => hn (by simp [hj])
    simp only [List.mem_cons, List.not_mem_nil, or_false, not_or] at hn
    exact execMtsr_id h hi (fun hj => absurd hj hv) ha rfl (writeSpecial_other _ x i v hn)

end Sys2Proof.Machine
end

section
/-! The allocation of registers (R147 to R151) and their shapes (R144, R153): what each instruction answers. -/

namespace Sys2Proof.Machine

/-! ## `rgrow` and `rshrink` (R149 to R151) -/

section
variable {w : Fields} {s : State} {x : Exec}

section
variable (h : Issues s kindPlain 0xCD#8 w x)
include h

section
variable (hn : 256 < s.allocOf x.u + w.imm.toNat)
include hn

theorem execRgrowWait_tooMany :
    execRgrowWait w s = .next (raiseTrap x (countFault 0xCD#8 (s.allocOf x.u + w.imm.toNat)) false s) :=
  issue_trap h (by simp only [allocOf_moved h.2.1]; exact if_pos hn)

theorem execRgrowTry_tooMany :
    execRgrowTry w s = .next (raiseTrap x (countFault 0xCD#8 (s.allocOf x.u + w.imm.toNat)) false s) :=
  issue_trap h (by simp only [allocOf_moved h.2.1]; exact if_pos hn)

end

variable (hn : s.allocOf x.u + w.imm.toNat ≤ 256)
include hn

/-- `rgrow.wait` of a count that fits blocks its gang, and the arbiter serves its waiters (R150). -/
theorem execRgrowWait_blocks :
    execRgrowWait w s = .next (finish x ((blockUnit x (.rgrow w.imm.toNat) (moveOn x 16 s)).arbitrateSlots x.core)) :=
  issue_next h (by simp only [allocOf_moved h.2.1]; exact if_neg (Nat.not_lt.2 hn))

/-- `rgrow.try` of a count that fits is granted where slots are free and nobody waits (R150). -/
theorem execRgrowTry_answers :
    let m := moveOn x 16 s
    let ok : Bool := m.freeSlots x.core ≥ w.imm.toNat ∧ m.regWaiters x.core = []
    execRgrowTry w s = .next (finish x (writeK x ok (if ok then m.modGang x.t x.g fun v => v.grow w.imm.toNat m.tick else m))) :=
  issue_next h (by simp only [allocOf_moved h.2.1]; exact if_neg (Nat.not_lt.2 hn))

end

section
variable (h : Issues s kindPlain 0xCE#8 w x)
include h

/-- `rshrink` that would leave fewer than 8 registers traps (R151). -/
theorem execRshrink_tooMany (hn : s.allocOf x.u < w.imm.toNat + 8) :
    execRshrink w s = .next (raiseTrap x (countFault 0xCE#8 (s.allocOf x.u + w.imm.toNat)) false s) :=
  issue_trap h (by simp only [allocOf_moved h.2.1]; exact if_pos hn)

/-- `rshrink` gives the highest registers back, and the arbiter serves its waiters (R151). -/
theorem execRshrink_releases (hn : w.imm.toNat + 8 ≤ s.allocOf x.u) :
    execRshrink w s = .next (finish x ((((moveOn x 16 s).modGang x.t x.g fun v => v.shrink w.imm.toNat).modCore x.core fun c =>
      c.dropHold x.t x.g (s.allocOf x.u - w.imm.toNat)).arbitrateSlots x.core)) :=
  issue_next h (by simp only [allocOf_moved h.2.1]; exact if_neg (Nat.not_lt.2 hn))

end

end

/-- Settles O18: each of the three is the issue that the count of its registers decides. -/
theorem registerAllocationGrowsAndShrinks : Obligations.RegisterAllocationGrowsAndShrinks := by
  intro w s x m a n
  refine ⟨?_, ?_, ?_, ?_⟩
  · exact fun h hn => ⟨execRgrowWait_blocks h hn, execRgrowTry_answers h hn⟩
  · exact fun h hn => ⟨execRgrowWait_tooMany h hn, execRgrowTry_tooMany h hn⟩
  · exact fun h hn => execRshrink_releases h hn
  · exact fun h hn => execRshrink_tooMany h hn

/-! ## Shapes (R144, R153) -/

/-- The tag that `FN` of `rshape.set` names. -/
theorem tagOf_eq : ∀ fn : BitVec 4, tagOf fn = if fn = 1#4 then .uniform else if fn = 2#4 then .affine else .general := by decide

/-- The lane values fit the tag that `FN` names. -/
theorem fitsTag_tagOf (a : VReg) (fn : BitVec 4) : fitsTag a (tagOf fn) =
    (if fn = 1#4 then (List.finRange 32).all fun l => a.lanes[l] = a.lanes[0]
      else if fn = 2#4 then (List.finRange 32).all fun l => a.lanes[l] = a.lanes[0] + (a.lanes[1] - a.lanes[0]) * BitVec.ofNat 32 l.val
      else true) := by
  rw [tagOf_eq]
  split
  · rfl
  · split <;> rfl

/-- A gang whose register `r` is set to `a` under a tag, where `ok`. -/
def Gang.setTag (v : Gang) (ok : Bool) (r : Nat) (a : VReg) (tag : Tag) : Gang :=
  if ok then { v with vregs := setNth { a with tag := tag } v.vregs r } else v

/-- A gang with a scalar condition written. -/
def Gang.writeCond (v : Gang) (k : BitVec 3) (b : Bool) : Gang := { v with regs := v.regs.writeCond k b }

theorem setGang_setTag (s : State) (t g : Nat) (v : Gang) (ok : Bool) (r : Nat) (a : VReg) (tag : Tag) :
    s.setGang t g (v.setTag ok r a tag) =
      if ok then s.setGang t g { v with vregs := setNth { a with tag := tag } v.vregs r } else s.setGang t g v := by
  cases ok <;> rfl

section
variable {w : Fields} {s : State} {x : Exec} {v : Gang}

/-- The condition of a gang that is there is written in it. -/
theorem writeK_setGang {k : BitVec 3} (hk : x.w.d = .cond k) (hu : x.u = .gang x.t x.g) (hv : s.gang? x.t x.g = some v) (u : Gang) (b : Bool) :
    writeK x b (s.setGang x.t x.g u) = s.setGang x.t x.g (u.writeCond k b) := by
  simp only [writeK, hk, hu, State.modRegs, State.modGang_eq _ _ _ _ _ (State.gang?_setGang s _ _ u v hv), State.setGang_setGang,
    Gang.writeCond]

section
variable (hs : x.seq = false)
include hs

section
variable {r : Nat} (hc : s.cur = some x.u)
include hc

/-- A plain instruction of a gang that names a gated register raises its trap (R148). -/
theorem issue_gated {op : BitVec 8} {len : Nat} {body : Exec → State → Except Stop State} (he : execOf s x.u op w = some x)
    (hr : gatedReg op w (s.allocOf x.u) = some r) :
    issue kindPlain op w len body s = .next (raiseTrap x (.coded 0x22#8 (detailOp op (BitVec.ofNat 24 r))) false s) := by
  obtain ⟨-, rfl, rfl⟩ := execOf_u he
  exact issue_stopped hc he (issueCheck_gated (by simp [kindPlain]) hs hr)

variable (he : execOf s x.u 0xCF#8 w = some x) (hr : gatedReg 0xCF#8 w (s.allocOf x.u) = some r)
include he hr

theorem execRshapeGet_gated : execRshapeGet w s = .next (raiseTrap x (.coded 0x22#8 (detailOp 0xCF#8 (BitVec.ofNat 24 r))) false s) :=
  issue_gated hs hc he hr

theorem execRshapeSet_gated : execRshapeSet w s = .next (raiseTrap x (.coded 0x22#8 (detailOp 0xCF#8 (BitVec.ofNat 24 r))) false s) :=
  issue_gated hs hc he hr

end

variable (h : Issues s kindPlain 0xCF#8 w x) (hv : s.gang? x.t x.g = some v)
include h hv

/-- `rshape.get` writes the code of the tag to D. -/
theorem execRshapeGet_reads : ∃ t, execRshapeGet w s = .next t ∧
    regsBecome x (fun r => r.writeTo w.d .b32 (v.vreg (regOf w.a).toNat).shape.code) s t := by
  obtain ⟨_, _, hu, -⟩ := gang_unit h.2.1 hs
  simp only [regsBecome, hu]
  exact issue_gangBody h hs hv rfl rfl

/-- `rshape.set` sets the tag where no lane is pending or poisoned, every lane is live and the values fit, and says so in its condition. -/
theorem execRshapeSet_sets {k : BitVec 3} (hk : w.d = .cond k) {r : Nat} (hr : r = (regOf w.a).toNat) {a : VReg} (ha : a = v.vreg r) {ok : Bool}
    (hok : ok = decide (a.pend = 0#32 ∧ a.poison = 0#32 ∧ v.live = BitVec.allOnes 32 ∧ fitsTag a (tagOf w.fn))) :
    ∃ t, execRshapeSet w s = .next t ∧ gangBecomes x (fun u => ((u.moved x 16).setTag ok r a (tagOf w.fn)).writeCond k ok) s t := by
  obtain ⟨-, hw, -⟩ := h.unit
  obtain ⟨_, _, hu, -⟩ := gang_unit h.2.1 hs
  obtain ⟨hm, -⟩ := moved_gang h.2.1 hs hv 16
  refine issue_gang h hs hv ?_ rfl
  subst hr ha hok
  simp only [hm]
  rw [moveOn_gang hu hv, State.setGang_setGang, State.setGang_setGang, ← writeK_setGang (hw ▸ hk) hu hv, setGang_setTag]
  rfl

end

end

/-- Settles O19: the gated trap comes from the checks at issue, and else the tag of the register decides. -/
theorem shapesAreReadAndSet : Obligations.ShapesAreReadAndSet := by
  intro w s x v hs hv
  refine ⟨fun r hc he hr => ⟨execRshapeGet_gated hs hc he hr, execRshapeSet_gated hs hc he hr⟩,
    fun h => ⟨execRshapeGet_reads hs h hv, fun k hk => ?_⟩⟩
  simp only [← fitsTag_tagOf, ← tagOf_eq]
  exact execRshapeSet_sets hs h hv hk rfl rfl rfl

end Sys2Proof.Machine
end

section
/-! The state at reset (R143, R346, R388, R389, R453, R494, R495, R500) -/

namespace Sys2Proof.Machine

/-- The invariant holds of the state at reset. -/
theorem reset_inv : State.reset.Inv := by
  refine ⟨⟨reset_wf, fun d => ?_, nofun⟩, rfl⟩
  simp [State.reset, Die.reset, Memory.wf, Memory.above]

/-- Settles O45: what no list names is at its own reset, and each vector holds one value throughout. -/
theorem resetLeavesTheResetValues : Obligations.ResetLeavesTheResetValues := by
  refine ⟨reset_inv, rfl, rfl, rfl, ?_, ?_, ?_, ?_, ?_, ?_, rfl, rfl, rfl, rfl, rfl, rfl⟩
  · refine fun n => ⟨rfl, rfl, rfl, rfl, rfl, rfl, rfl, rfl, rfl, rfl, fun r => ?_⟩
    exact Vector.getElem_ofFn r.isLt
  · exact fun q => ⟨rfl, rfl, rfl, rfl⟩
  · exact fun c => Vector.getElem_ofFn c.isLt
  · exact fun i j => ⟨rfl, rfl, rfl, rfl, rfl⟩
  · exact fun p => congrArg Syndrome.v (Vector.getElem_ofFn p.isLt)
  · exact fun m => Vector.getElem_ofFn m.isLt

end Sys2Proof.Machine
end

section
/-! Steps of a core's units (R152, R254, R322 to R326, R342, R401): what each step answers. -/

namespace Sys2Proof.Machine

/-! ## Commands (R322 to R326) -/

section
variable {s : State} {core id : Nat} {c : Command}

section
variable (hf : (s.core core).array.find? (fun c => c.id = id) = some c)
include hf

/-- A command of the array begins once those before it allow it (R326). -/
theorem execCommandBegin_begins (hm : s.mayBegin core c = true) : execCommandBegin core id s = .next (s.modCore core fun u =>
    { u with array := replaceIf (fun b => b.id = id) (fun b => { b with begun := true, beginTick := s.tick }) u.array }) := by
  simp only [execCommandBegin, hf, hm, if_true]

theorem execCommandBegin_waits (hm : s.mayBegin core c = false) : execCommandBegin core id s = .next s := by
  simp only [execCommandBegin, hf, hm, Bool.false_eq_true, if_false]

end

section
variable (hf : (s.core core).commands.find? (fun c => c.id = id) = some c)
include hf

/-- A command that may complete is performed, and the waits that its end lifts are over (R323 to R325). -/
theorem execCommandComplete_completes (hm : s.mayComplete core c = true) :
    execCommandComplete core id s = .next ((s.completeCommand core c).retryAll fun w =>
      match w with
      | .handle _ _ | .range _ | .commands => true
      | _ => false) := by
  simp only [execCommandComplete, hf, hm, if_true] <;> rfl

theorem execCommandComplete_waits (hm : s.mayComplete core c = false) : execCommandComplete core id s = .next s := by
  simp only [execCommandComplete, hf, hm, Bool.false_eq_true, if_false]

end

/-! ## Granules and deadlocks (R152, R254, R401) -/

/-- Granules of a release that are cleared are free for the arbiter (R254). -/
theorem execGranuleClearDone_frees (hc : ((s.core core).clearing.any fun p => p.1 = id) = true) : execGranuleClearDone core id s =
    .next ((s.modCore core fun c => { c with clearing := c.clearing.filter fun p => p.1 ≠ id }).arbitrate core) :=
  next_of_guard hc rfl

variable {w : Waiter}

/-- A deadlock of handles fails the last waiter's request, and its handle is again what it was (R401). -/
theorem execAllocationDeadlock_fails {h : BitVec 5} {ty : Ty} {cols : Nat} {before : Handle} (hd : s.tileDeadlock core = true)
    (hl : (s.tileWaiters core).getLast? = some w) (hw : w.why = .talloc h ty cols before) :
    execAllocationDeadlock core s = .next ((s.modTeam w.team fun x => x.setHandle h before).failBlocked w 0xA0#8
      (.coded 0x28#8 (detailOp 0xA0#8 (0#11 ++ h ++ BitVec.ofNat 8 w.need)))) := by
  simp only [execAllocationDeadlock, hd, if_true, hl, hw]

/-- A deadlock of registers fails the last waiter's request (R152). -/
theorem execRegisterDeadlock_fails (hd : s.slotDeadlock core = true) (hl : (s.regWaiters core).getLast? = some w) :
    execRegisterDeadlock core s = .next (s.failBlocked w 0xCD#8 (.coded 0x28#8 (detailOp 0xCD#8 (BitVec.ofNat 24 w.need)))) := by
  simp only [execRegisterDeadlock, hd, if_true, hl]

end

/-- Settles O47: each step is its update where the condition of its clause holds, and leaves the state where that fails. -/
theorem commandsBeginCompleteAndDeadlocksResolve : Obligations.CommandsBeginCompleteAndDeadlocksResolve := by
  refine ⟨?_, ?_, ?_, ?_, ?_⟩
  · exact fun _ _ _ _ hf => ⟨execCommandBegin_begins hf, execCommandBegin_waits hf⟩
  · exact fun _ _ _ _ hf => ⟨execCommandComplete_completes hf, execCommandComplete_waits hf⟩
  · exact fun _ _ _ hc => execGranuleClearDone_frees hc
  · exact fun _ _ _ _ _ _ _ hd hl hw => execAllocationDeadlock_fails hd hl hw
  · exact fun _ _ _ hd hl => execRegisterDeadlock_fails hd hl

end Sys2Proof.Machine
end

section
/-! Saves, restores and served records (R162, R258, R367, R423, R440 to R445, R485, R489): what each step answers. -/

namespace Sys2Proof.Machine

/-! ## Saves (R258, R440, R443, R445) -/

section
variable {s : State} {t : Nat} {tm : Team} {c : Ctx} (ht : s.team? t = some tm) (hc : s.ctx? tm.ctx = some c) (he : c.ending = false)
include ht hc he

section
variable {g : Nat} {f : Trap} (hr : tm.residence = .resident) (hf : tm.faultedGang = some (g, f))
include hr hf

/-- A faulting team takes the lowest free slot and posts its record under it. -/
theorem execContextSave_takesSlot {k : Nat} (hk : c.freeSlot = some k) : execContextSave t s =
    .next (((s.takeSlot tm.ctx k).modTeam t fun x => { x with residence := .saving k false }).postFault tm g f k) := by
  simp only [execContextSave, ht, hc, he, hr, hf, hk, Bool.false_eq_true, if_false]

/-- Without a free slot the record is posted under none, which holds the gang. -/
theorem execContextSave_noSlot (hk : c.freeSlot = none) : execContextSave t s = .next (s.postFault tm g f 0xFFFF) := by
  simp only [execContextSave, ht, hc, he, hr, hf, hk, Bool.false_eq_true, if_false]

end

section
variable {k : Nat} {debug : Bool} (hr : tm.residence = .saving k debug) (hf : tm.faultedGang = none)
include hr hf

/-- The save of a team that is not quiet waits. -/
theorem execContextSave_waits (hw : s.saveWaits tm = true) : execContextSave t s = .next s := by
  simp only [execContextSave, ht, hc, he, hr, hf, hw, Bool.false_eq_true, if_false, if_true]

/-- The frame of a quiet team is written. -/
theorem execContextSave_finishes (hw : s.saveWaits tm = false) : execContextSave t s = .next (s.finishSave tm k debug) := by
  simp only [execContextSave, ht, hc, he, hr, hf, hw, Bool.false_eq_true, if_false]

end

end

/-! ## Restores (R162, R258, R442) -/

section
variable {s : State} {t k : Nat} {tm : Team} {c : Ctx} (ht : s.team? t = some tm) (hc : s.ctx? tm.ctx = some c)
  (hr : tm.residence = .saved k false false) (ha : s.awake = true) (he : c.ending = false) (hf : s.firstClaim tm = true)
include ht hc hr ha he hf

/-- A frame that cannot be restored ends the context. -/
theorem execTeamRestore_badFrame (hx : s.teamOfFrame tm (c.slotVa k) = none) : execTeamRestore t s = .next (s.endContext tm.ctx) := by
  simp only [execTeamRestore, ht, hr, hc, ha, he, hf, hx, Bool.false_eq_true, not_false_eq_true, and_self, if_true]

variable {x : Team} (hx : s.teamOfFrame tm (c.slotVa k) = some x)
include hx

/-- A team whose core holds it returns to that core, and each of its gangs rejoins or traps as its identifiers say. -/
theorem execTeamRestore_returns (hm : (s.roomOf tm.core fun _ => true).takes x.room = true) : execTeamRestore t s =
    .next ((List.range x.gangs.length).foldl (fun (z : State) g =>
      match execOf z (.gang t g) 0#8 default with
      | some y => z.clashTrap y
      | none => z) (s.placeTeam x k)) := by
  simp only [execTeamRestore, ht, hr, hc, ha, he, hf, hx, hm, Bool.false_eq_true, not_false_eq_true, and_self, if_true] <;> rfl

/-- A team whose core does not hold it waits. -/
theorem execTeamRestore_waits (hm : (s.roomOf tm.core fun _ => true).takes x.room = false) : execTeamRestore t s = .next s := by
  simp only [execTeamRestore, ht, hr, hc, ha, he, hf, hx, hm, Bool.false_eq_true, not_false_eq_true, and_self, if_true, if_false]

end

/-! ## Parked ensembles (R423) -/

section
variable {s s1 : State} {n : Nat} {e : Ensemble} (he : s.ensemble? n = some e) (ha : s.awake = true)
include he ha

/-- A parked ensemble whose room is needed is saved whole, and its waiters stay, marked saved. -/
theorem execParkedEnsembleSave_saves {c : Ctx} {ts : List Team} (hts : ts = s.teams.filter fun x => x.ensemble = n && x.residence = .resident)
    (hc : (ts.head?.bind fun x => s.ctx? x.ctx) = some c) (hend : c.ending = false) (hps : e.parkedSaved = false) (hp : s.parked e = true)
    (hn : s.parkedNeeded e = true) (hl : ts.length + c.slots.length ≤ c.nslot) (h1 : s.saveParked (ts.map (·.tid)) = some s1) :
    execParkedEnsembleSave n s = .next
      { s1 with
        parkWaiters := s1.parkWaiters.map fun (w : ParkWaiter) => if ts.any fun x => issuerOfTeam w.who x.tid then { w with saved := true } else w
        ensembles := replaceIf (fun x => x.eid = n) (fun x => { x with parkedSaved := true, parkedReady := false }) s1.ensembles }.servePark := by
  subst hts
  simp only [execParkedEnsembleSave, he, hc, ha, hend, hps, hp, hn, hl, h1, Bool.false_eq_true, not_false_eq_true, and_self, if_true]

/-- A saved ensemble whose wait is satisfied comes back whole. -/
theorem execParkedEnsembleRestore_restores (hps : e.parkedSaved = true) (hpr : e.parkedReady = true) (hf : s.parkedFirst e = true)
    (h1 : s.restoreParked e.teams = some (some s1)) :
    execParkedEnsembleRestore n s = .next (s1.modEnsemble n fun x => { x with parkedSaved := false, parkedReady := false }) := by
  simp only [execParkedEnsembleRestore, he, ha, hps, hpr, hf, h1, and_self, if_true]

end

/-! ## Served records (R367, R485, R489) -/

section
variable {s : State} {ctx idx : Nat} {c : Ctx} (hc : s.ctx? ctx = some c)
include hc

/-- A served record leaves the outstanding ones, and what it held goes on. -/
theorem serveFault_serves {r : FaultRecord} (hr : c.outstanding.find? (fun r => r.idx = idx) = some r) :
    s.serveFault ctx idx =
      (s.modCtx ctx fun c => { c with outstanding := c.outstanding.filter fun x => x.idx ≠ idx }).serveRecord false r false := by
  simp only [State.serveFault, hc, Option.bind_some, hr]

/-- An index that no outstanding record has is ignored. -/
theorem serveFault_ignored (hr : c.outstanding.find? (fun r => r.idx = idx) = none) : s.serveFault ctx idx = s := by
  simp only [State.serveFault, hc, Option.bind_some, hr]

end

section
variable {s : State} {idx : Nat} (fail : Bool)

/-- An index that no fabric record has is ignored. -/
theorem serveFabric_ignored (hr : s.fabricOut.find? (fun r => r.idx = idx) = none) : s.serveFabric idx fail = s := by
  simp only [State.serveFabric, hr]

/-- A served fabric record of a team leaves the queue, what it held goes on, and records that wait for room are written. -/
theorem serveFabric_serves {r : FaultRecord} (hr : s.fabricOut.find? (fun r => r.idx = idx) = some r) (hs : r.slot < 0x10000) :
    let z := { s with fabricOut := s.fabricOut.filter fun x => x.idx ≠ idx }.serveRecord true r fail
    s.serveFabric idx fail = z.drainFabric z.fabricWaiting := by
  simp only [State.serveFabric, hr, hs, if_true]

end

/-- Settles O49: each event is its update under the conditions of its clause, which leave the state where they fail. -/
theorem teamsAreSavedRestoredAndServed : Obligations.TeamsAreSavedRestoredAndServed := by
  refine ⟨?_, ?_, ?_, ?_, ?_, ?_, ?_⟩
  · exact fun _ _ _ _ _ _ ht hc he hr hf => ⟨fun _ => execContextSave_takesSlot ht hc he hr hf, execContextSave_noSlot ht hc he hr hf⟩
  · exact fun _ _ _ _ _ _ ht hc he hr hf => ⟨execContextSave_waits ht hc he hr hf, execContextSave_finishes ht hc he hr hf⟩
  · exact fun _ _ _ _ _ ht hc hr ha he hf => ⟨execTeamRestore_badFrame ht hc hr ha he hf,
      fun _ hx => ⟨execTeamRestore_returns ht hc hr ha he hf hx, execTeamRestore_waits ht hc hr ha he hf hx⟩⟩
  · intro s s1 n e c he ts hc ha hend hps hp hn hl h1
    exact execParkedEnsembleSave_saves he ha rfl hc hend hps hp hn hl h1
  · exact fun _ _ _ _ he ha hps hpr hf h1 => execParkedEnsembleRestore_restores he ha hps hpr hf h1
  · intro s hb
    exact ⟨fun _ _ => next_of_guard hb rfl, fun _ _ _ _ hc hr => next_of_guard hb (serveFault_serves hc hr),
      fun _ _ => next_of_guard hb rfl, fun _ _ _ hc hr => next_of_guard hb (serveFault_ignored hc hr)⟩
  · exact fun s ho idx fail => ⟨fun hr => next_of_guard ho (serveFabric_ignored fail hr),
      fun _ hr hs => next_of_guard ho (serveFabric_serves fail hr hs)⟩

end Sys2Proof.Machine
end

section
/-! The integer and bit instructions, scalar and vector (R163 to R186): each form is the shared issue of its class, and what it leaves. -/

namespace Sys2Proof.Machine

/-! ## Scalar forms (R163, R164, R177) -/

/-- Settles O1: a scalar form is the shared scalar issue with its own function. -/
theorem scalarFormsWriteTheirResult : Obligations.ScalarFormsWriteTheirResult := by
  intro i F s x hF h ha hb hc
  rw [scalarForm_exec hF]
  exact scalarOp_next h ha hb hc

/-- Settles O2: the body of `sli` computes the registers from themselves. -/
theorem sliWritesOneHalf : Obligations.SliWritesOneHalf := by
  intro w s x sel r h hd
  refine issue_regsBody h fun u => ?_
  simp only [hd]

/-! ## Vector forms (R165 to R167, R174, R186) -/

/-- Settles O4: a vector form is the shared vector issue with its own function. -/
theorem vectorFormsWriteTheirLanes : Obligations.VectorFormsWriteTheirLanes := by
  intro i F s x v hF h hs hv hclean
  rw [vectorForm_exec hF]
  exact vectorOp_next h hs hv (hclean _ (by simp)) (hclean _ (by simp)) (hclean _ (by simp))

/-- Settles O5: a test form is the shared vector issue with a predicate result. -/
theorem vectorTestsWritePredicates : Obligations.VectorTestsWritePredicates := by
  intro i F s x v p hF hd h hs hv hclean
  rw [testForm_exec hF]
  exact vectorTest_next h hs hv hd (hclean _ (by simp)) (hclean _ (by simp)) (hclean _ (by simp))

/-! ## `plog`, `vperm` and `vaddc` (R182, R184, R185) -/

section
variable {w : Fields} {s : State} {x : Exec} {v : Gang}

/-- Two sources without poison in the lanes that take part raise no fault. -/
theorem consumeLanes_two {e : Env} {oa ob : Operand} {a b : Src} (h : cleanLanes e [a, b]) :
    consumeLanes e.x.part [(oa, a.poison), (ob, b.poison)] = none :=
  consumeLanes_clean (by simpa [cleanLanes] using h)

/-- `plog` writes the table of its immediate at its three predicates (R185). -/
theorem execPlog_next {p : BitVec 3} (hs : x.seq = false) (hv : s.gang? x.t x.g = some v) (hd : w.d = .pred p)
    (h : Issues s kindPlain 0x62#8 w x) :
    ∃ t, execPlog w s = .next t ∧
      gangBecomes x (fun u =>
        let e := s.env x u
        (u.moved x 16).writePred p x.part (maskOf fun l => w.imm.getLsbD
          (4 * ((e.predSrc w.a).getLsbD l).toNat + 2 * ((e.predSrc w.b).getLsbD l).toNat + ((e.predSrc w.c).getLsbD l).toNat))) s t := by
  refine issue_env h hs hv ?_ rfl
  simp only [predSrc_moved (s.env x v) (v := v) rfl, hd]
  rfl

/-- `vperm` of clean sources writes the chosen bytes of its table (R182). -/
theorem execVperm_next (hs : x.seq = false) (hv : s.gang? x.t x.g = some v) (h : Issues s kindPlain 0x5F#8 w x)
    (hclean : cleanLanes (s.env x v) [(s.env x v).src w.a .n32, (s.env x v).table w.b]) :
    ∃ t, execVperm w s = .next t ∧
      gangBecomes x (fun u =>
        let e := s.env x u
        let a := e.src w.a .n32
        let b := e.table w.b
        ({ e with v := u.moved x 16 } : Env).write (regOf w.d) 32 (fun l => bytePerm (w.fn = 1#4) (a.val l) (b.val l))
          (e.shape .none a b (.uniform 0 false))) s t := by
  refine issue_env h hs hv ?_ rfl
  simp only [src_moved (s.env x v) (v := v) rfl, table_moved (s.env x v) (v := v) rfl, consumeLanes_two hclean]
  rfl

/-- `vaddc` of clean sources writes the sums, and the carries to C where it is a predicate (R184). -/
theorem execVaddc_next (hs : x.seq = false) (hv : s.gang? x.t x.g = some v) (h : Issues s kindPlain 0x61#8 w x)
    (hclean : cleanLanes (s.env x v) [(s.env x v).src w.a w.ty, (s.env x v).src w.b w.ty]) :
    ∃ t, execVaddc w s = .next t ∧
      gangBecomes x (fun u =>
        let e := s.env x u
        let r := fun l : Fin 32 =>
          intAddc (opWidth w.ty) w.fn.toNat ((e.src w.a w.ty).val l) ((e.src w.b w.ty).val l) ((e.predSrc w.c).getLsbD l)
        let g := ({ e with v := u.moved x 16 } : Env).write (regOf w.d) (opWidth w.ty) (fun l => (r l).1) .general
        match w.c with
        | .pred p => g.writePred p x.part (maskOf fun l => (r l).2)
        | _ => g) s t := by
  refine issue_env h hs hv ?_ rfl
  simp only [src_moved (s.env x v) (v := v) rfl, predSrc_moved (s.env x v) (v := v) rfl, consumeLanes_two hclean]
  cases w.c <;> rfl

end

/-- Settles O6: each of the three is an issue of a gang whose body replaces the gang. -/
theorem plogVpermVaddcResults : Obligations.PlogVpermVaddcResults := by
  intro w s x v hs hv
  refine ⟨?_, ?_, ?_⟩
  · exact fun _ hd h => execPlog_next hs hv hd h
  · exact fun h hclean => execVperm_next hs hv h hclean
  · exact fun h hclean => execVaddc_next hs hv h hclean

end Sys2Proof.Machine
end

section
/-! The values of the integer and bit operations (R167, R171 to R174, R178, R180, R184): each is the operation on words of the type's width. -/

namespace Sys2Proof.Machine

/-! ## Numbers built from their bits -/

theorem getLsbD_bitsOf (f : Nat → Bool) (n i : Nat) : (bitsOf f n).getLsbD i = (decide (i < n) && f i) := by
  induction n with
  | zero => simp [bitsOf]
  | succ n ih =>
    rw [bitsOf, BitVec.getLsbD_cons, ih]
    rcases Nat.lt_trichotomy i n with h | rfl | h
    · simp [h.ne, h, Nat.lt_succ_of_lt h]
    · simp
    · simp [h.ne', h.not_gt, Nat.not_lt.2 h]

theorem testBit_natBits (n : Nat) (f : Nat → Bool) (i : Nat) : (natBits n f).testBit i = (decide (i < n) && f i) := by
  rw [natBits, BitVec.testBit_toNat, getLsbD_bitsOf]

/-! ## Values of words (R117, R167) -/

section
variable {t : Ty}

theorem width_pos_of_isSigned (ht : t.isSigned = true) : 0 < t.width := by
  revert ht
  cases t <;> decide

theorem intVal_signed (ht : t.isSigned = true) (x : BitVec t.width) : intVal t x.toNat = x.toInt := by
  have hpow : 2 ^ t.width = 2 * 2 ^ (t.width - 1) := (mul_pow_sub_one (width_pos_of_isSigned ht).ne' 2).symm
  have hiff : 2 * x.toNat < 2 ^ t.width ↔ ¬ 2 ^ (t.width - 1) ≤ x.toNat := by omega
  simp only [intVal, Nat.mod_eq_of_lt x.isLt, ht, true_and, ge_iff_le, BitVec.toInt_eq_toNat_cond, hiff, ite_not, Nat.cast_pow, Nat.cast_ofNat]

theorem intVal_unsigned (ht : t.isSigned = false) (x : BitVec t.width) : intVal t x.toNat = x.toNat := by
  simp only [intVal, Nat.mod_eq_of_lt x.isLt, ht, Bool.false_eq_true, false_and, if_false]

/-- The value of a word, cut to the type's width, is the word. -/
theorem ofInt_intVal (x : BitVec t.width) : BitVec.ofInt t.width (intVal t x.toNat) = x := by
  cases ht : t.isSigned with
  | true => rw [intVal_signed ht, BitVec.ofInt_toInt]
  | false => rw [intVal_unsigned ht, BitVec.ofInt_natCast, BitVec.ofNat_toNat, BitVec.setWidth_eq]

theorem ofInt_sub (n : Nat) (a b : Int) : BitVec.ofInt n (a - b) = BitVec.ofInt n a - BitVec.ofInt n b := by
  rw [Int.sub_eq_add_neg, BitVec.ofInt_add, BitVec.ofInt_neg, BitVec.sub_eq_add_neg]

theorem intVal_eq_zero_iff (x : BitVec t.width) : intVal t x.toNat = 0 ↔ x = 0#_ := by
  constructor
  · intro h
    rw [← ofInt_intVal x, h]
    rfl
  · rintro rfl
    simp [intVal]

/-- `fin` is the word of the exact integer, or under saturation of the integer that the type's range leaves of it. -/
theorem fin_eq_ofInt (r : Int) (sat : Bool) : fin t r sat = (BitVec.ofInt t.width (if sat then clamp t r else r)).toNat := by
  rw [fin, BitVec.toNat_ofInt, Nat.cast_pow, Nat.cast_ofNat]

end

/-! ## Sums, differences and products (R171) -/

section
variable {t : Ty} {md : BitVec 11} (x y z : BitVec t.width)

theorem argA_plain (h : mdNA md = false) (a : Nat) : argA t md a = intVal t a := by
  rw [argA, h, if_neg Bool.false_ne_true]

theorem argB_plain (h : mdNB md = false) (b : Nat) : argB t md b = intVal t b := by
  rw [argB, h, if_neg Bool.false_ne_true]

variable (ha : mdNA md = false) (hb : mdNB md = false)
include ha hb

/-- Without saturation the operations are those of words, which wrap. -/
theorem intArith_wraps (hs : mdSAT md = false) :
    intAdd t md x.toNat y.toNat = (x + y).toNat ∧ intSub t md x.toNat y.toNat = (x - y).toNat ∧
    intMul t md x.toNat y.toNat = (x * y).toNat ∧ intMad t md x.toNat y.toNat z.toNat = (x * y + z).toNat := by
  simp only [intAdd, intSub, intMul, intMad, argA_plain ha, argB_plain hb, hs, fin_eq_ofInt, Bool.false_eq_true, if_false,
    BitVec.ofInt_add, BitVec.ofInt_mul, ofInt_sub, ofInt_intVal, and_self]

/-- With saturation the exact value of signed words is clamped once to the type's range. -/
theorem intArith_saturates (hs : mdSAT md = true) (ht : t.isSigned = true) :
    intAdd t md x.toNat y.toNat = (BitVec.ofInt t.width (min (max (x.toInt + y.toInt) (loOf t)) (hiOf t))).toNat ∧
    intSub t md x.toNat y.toNat = (BitVec.ofInt t.width (min (max (x.toInt - y.toInt) (loOf t)) (hiOf t))).toNat ∧
    intMad t md x.toNat y.toNat z.toNat = (BitVec.ofInt t.width (min (max (x.toInt * y.toInt + z.toInt) (loOf t)) (hiOf t))).toNat := by
  simp only [intAdd, intSub, intMad, argA_plain ha, argB_plain hb, hs, fin_eq_ofInt, if_true, clamp, intVal_signed ht, and_self]

end

/-! ## Quotients, remainders and order (R171, R172, R174) -/

/-- The signed quotient of words is the word of the exact quotient toward zero. -/
theorem sdiv_eq_ofInt {n : Nat} (x y : BitVec n) : x.sdiv y = BitVec.ofInt n (x.toInt.tdiv y.toInt) := by
  rw [← BitVec.toInt_inj, BitVec.toInt_sdiv, BitVec.toInt_ofInt]

/-- The signed remainder of words is the word of the exact remainder with the dividend's sign. -/
theorem srem_eq_ofInt {n : Nat} (x y : BitVec n) : x.srem y = BitVec.ofInt n (x.toInt.tmod y.toInt) := by
  rw [← BitVec.toInt_srem, BitVec.ofInt_toInt]

/-- The least signed word is its own negation. -/
theorem neg_eq_self_of_toInt {n : Nat} {x : BitVec n} (hn : 0 < n) (h : x.toInt = -2 ^ (n - 1)) : -x = x := by
  have hx : x = BitVec.intMin n := by
    rw [← BitVec.ofInt_toInt (x := x), ← BitVec.ofInt_toInt (x := BitVec.intMin n), h, BitVec.toInt_intMin_of_pos hn]
  rw [hx, BitVec.neg_intMin]

section
variable {t : Ty} (x y : BitVec t.width)

section
variable (ht : t.isSigned = true)
include ht

theorem intDiv_signed : intDiv t x.toNat y.toNat = if y = 0#_ then 2 ^ t.width - 1 else (x.sdiv y).toNat := by
  simp only [intDiv, intVal_eq_zero_iff]
  simp only [intVal_signed ht, ht, true_and, fin_eq_ofInt, Bool.false_eq_true, if_false, ← sdiv_eq_ofInt]
  split
  · rfl
  · split
    · next hcorner =>
      obtain ⟨hx, hy⟩ := hcorner
      have hlo : x.toInt = -2 ^ (t.width - 1) := by rw [hx, loOf, if_pos ht]
      rw [sdiv_eq_ofInt, hy, Int.tdiv_neg, Int.tdiv_one, BitVec.ofInt_neg, BitVec.ofInt_toInt,
        neg_eq_self_of_toInt (width_pos_of_isSigned ht) hlo]
    · rfl

theorem intRem_signed : intRem t x.toNat y.toNat = if y = 0#_ then x.toNat else (x.srem y).toNat := by
  simp only [intRem, intVal_eq_zero_iff]
  simp only [intVal_signed ht, ht, true_and, fin_eq_ofInt, Bool.false_eq_true, if_false, ← srem_eq_ofInt]
  split
  · rfl
  · split
    · next hcorner => rw [srem_eq_ofInt, hcorner.2, Int.tmod_neg, Int.tmod_one, BitVec.toNat_ofInt]; rfl
    · rfl

theorem intTest_signed :
    intTest t 2 x.toNat y.toNat = x.slt y ∧ intTest t 3 x.toNat y.toNat = x.sle y ∧
    intTest t 4 x.toNat y.toNat = y.slt x ∧ intTest t 5 x.toNat y.toNat = y.sle x := by
  simp only [intTest, intVal_signed ht, BitVec.slt, BitVec.sle, gt_iff_lt, ge_iff_le, and_self]

theorem intMinMax_signed :
    intMin t x.toNat y.toNat = (if x.sle y then x else y).toNat ∧ intMax t x.toNat y.toNat = (if y.sle x then x else y).toNat := by
  simp only [intMin, intMax, intVal_signed ht, BitVec.sle_iff_toInt_le, ge_iff_le, apply_ite BitVec.toNat, and_self]

end

section
variable (ht : t.isSigned = false)
include ht

theorem intDiv_unsigned : intDiv t x.toNat y.toNat = if y = 0#_ then 2 ^ t.width - 1 else (x / y).toNat := by
  simp only [intDiv, intVal_eq_zero_iff]
  simp only [intVal_unsigned ht, ht, Bool.false_eq_true, false_and, if_false, fin_eq_ofInt,
    ← Int.ofNat_tdiv, ← BitVec.toNat_udiv, BitVec.ofInt_natCast, BitVec.ofNat_toNat, BitVec.setWidth_eq]

theorem intRem_unsigned : intRem t x.toNat y.toNat = if y = 0#_ then x.toNat else (x % y).toNat := by
  simp only [intRem, intVal_eq_zero_iff]
  simp only [intVal_unsigned ht, ht, Bool.false_eq_true, false_and, if_false, fin_eq_ofInt,
    ← Int.ofNat_tmod, ← BitVec.toNat_umod, BitVec.ofInt_natCast, BitVec.ofNat_toNat, BitVec.setWidth_eq]

theorem intTest_unsigned : intTest t 2 x.toNat y.toNat = x.ult y ∧ intTest t 3 x.toNat y.toNat = x.ule y := by
  simp only [intTest, intVal_unsigned ht, Nat.cast_lt, Nat.cast_le, BitVec.ult, BitVec.ule, and_self]

theorem intMinMax_unsigned :
    intMin t x.toNat y.toNat = (if x ≤ y then x else y).toNat ∧ intMax t x.toNat y.toNat = (if y ≤ x then x else y).toNat := by
  simp only [intMin, intMax, intVal_unsigned ht, Nat.cast_le, BitVec.le_def, ge_iff_le, apply_ite BitVec.toNat, and_self]

end

end

/-! ## Shifts, rotations and funnels (R173, R178) -/

section
variable {w : Nat} (x y : BitVec w) (c : Nat)

theorem bitShl_eq : bitShl w x.toNat c = (x <<< c).toNat := by
  rw [bitShl, BitVec.toNat_shiftLeft, Nat.shiftLeft_eq]
  split
  · next h => rw [Nat.mod_eq_zero_of_dvd (Dvd.dvd.mul_left (pow_dvd_pow 2 h) _)]
  · rfl

theorem div_two_pow_eq_zero (h : w ≤ c) : x.toNat / 2 ^ c = 0 :=
  Nat.div_eq_of_lt (x.isLt.trans_le (Nat.pow_le_pow_right (by decide) h))

theorem bitShr_eq : bitShr w x.toNat c = (x >>> c).toNat := by
  rw [bitShr, BitVec.toNat_ushiftRight, Nat.shiftRight_eq_div_pow]
  split
  · next h => rw [div_two_pow_eq_zero x c h]
  · rfl

/-- The complement of the complement's shift to the right is the word's own shift with ones above (R173). -/
theorem two_pow_sub_one_sub_div (h : c < w) :
    2 ^ w - 1 - (2 ^ w - 1 - x.toNat) / 2 ^ c = x.toNat / 2 ^ c + (2 ^ w - 2 ^ (w - c)) := by
  have hsplit : 2 ^ w = 2 ^ c * 2 ^ (w - c) := (pow_mul_pow_sub 2 h.le).symm
  have hx : x.toNat < 2 ^ c * 2 ^ (w - c) := hsplit ▸ x.isLt
  have hdiv : (2 ^ w - 1 - x.toNat) / 2 ^ c = 2 ^ (w - c) - (x.toNat / 2 ^ c + 1) := by
    rw [← Nat.mul_sub_div _ _ _ hx, ← hsplit, Nat.sub_sub, Nat.add_comm 1]
  have hq : x.toNat / 2 ^ c < 2 ^ (w - c) := Nat.div_lt_of_lt_mul hx
  have hle : 2 ^ (w - c) ≤ 2 ^ w := Nat.pow_le_pow_right (by decide) (Nat.sub_le w c)
  rw [hdiv]
  generalize x.toNat / 2 ^ c = q at hq ⊢
  generalize 2 ^ (w - c) = e at hq hle ⊢
  generalize 2 ^ w = p at hle ⊢
  omega

theorem bitSar_eq : bitSar w x.toNat c = (x.sshiftRight c).toNat := by
  simp only [bitSar, BitVec.toNat_sshiftRight, BitVec.msb_eq_decide, Nat.shiftRight_eq_div_pow, decide_eq_true_eq, ge_iff_le]
  by_cases hc : w ≤ c
  · have hones : (2 ^ w - 1 - x.toNat) / 2 ^ c = 0 := by
      rw [← BitVec.toNat_not]; exact div_two_pow_eq_zero _ c hc
    simp only [hc, if_true, hones, div_two_pow_eq_zero x c hc, Nat.sub_zero]
  · simp only [hc, if_false, two_pow_sub_one_sub_div x c (Nat.not_le.1 hc)]

theorem bitRot_eq (hw : 0 < w) : bitRot w x.toNat c = (x.rotateLeft c).toNat := by
  have hk : c % w ≤ w := (Nat.mod_lt c hw).le
  have hhigh : x.toNat * 2 ^ (c % w) % 2 ^ w = 2 ^ (c % w) * (x.toNat % 2 ^ (w - c % w)) := by
    rw [← pow_mul_pow_sub 2 hk, Nat.mul_comm, Nat.mul_mod_mul_left]
  have hlow : x.toNat / 2 ^ (w - c % w) < 2 ^ (c % w) :=
    Nat.div_lt_of_lt_mul (by rw [← Nat.pow_add, Nat.sub_add_cancel hk]; exact x.isLt)
  rw [BitVec.toNat_rotateLeft, Nat.shiftLeft_eq, Nat.shiftRight_eq_div_pow]
  simp only [bitRot]
  rw [hhigh, Nat.two_pow_add_eq_or_of_lt hlow]

theorem bitFunnel_eq : bitFunnel w x.toNat y.toNat c = (((x ++ y) >>> (c % w)).extractLsb' 0 w).toNat := by
  rw [bitFunnel, BitVec.extractLsb'_toNat, BitVec.toNat_ushiftRight, BitVec.toNat_append, ← Nat.shiftLeft_add_eq_or_of_lt y.isLt,
    Nat.shiftRight_zero, Nat.shiftRight_eq_div_pow, Nat.shiftLeft_eq]

theorem bitAndn_eq : bitAndn w x.toNat y.toNat = (x &&& ~~~ y).toNat := by
  rw [bitAndn, BitVec.toNat_and, BitVec.toNat_not]

theorem bitBrev_eq : bitBrev w x.toNat = x.reverse.toNat := by
  refine congrArg BitVec.toNat (BitVec.eq_of_getLsbD_eq fun i hi => ?_)
  rw [getLsbD_bitsOf, BitVec.getLsbD_reverse, BitVec.getMsbD, bitAt, BitVec.testBit_toNat]

end

/-! ## Interleaved words (R180) -/

/-- Gathering field `j` of stride `k` from an interleaved word gives back the low bits of that field's source, as many as the word holds. -/
theorem bitGather_bitInterleave {w fn k j n : Nat} (a b c : Nat) (hk : (if fn < 2 then 2 else 3) = k) (hj : (if fn < 2 then fn else fn - 2) = j)
    (hjk : j < k) (hn : ∀ i, i < n ↔ k * i + j < w) :
    bitGather w fn (bitInterleave w k a b c) = (if j = 0 then a else if j = 1 then b else c) % 2 ^ n := by
  have hk0 : 0 < k := Nat.zero_lt_of_lt hjk
  apply Nat.eq_of_testBit_eq
  intro i
  have hdiv : (k * i + j) / k = i := by rw [Nat.mul_add_div hk0, Nat.div_eq_of_lt hjk, Nat.add_zero]
  have hmod : (k * i + j) % k = j := by rw [Nat.mul_add_mod, Nat.mod_eq_of_lt hjk]
  simp only [bitGather, hk, hj, testBit_natBits, bitInterleave, bitAt, hdiv, hmod, Nat.testBit_mod_two_pow, hn]
  by_cases hi : k * i + j < w
  · have hiw : i < w := (Nat.le_mul_of_pos_left i hk0).trans_lt ((Nat.le_add_right _ _).trans_lt hi)
    simp only [hi, hiw, decide_true, Bool.true_and]
  · simp only [hi, decide_false, Bool.false_and, Bool.and_false]

/-! ## Carry chains (R184) -/

section
variable {w a b : Nat} (cin : Bool) (ha : a < 2 ^ w) (hb : b < 2 ^ w)
include ha hb

theorem intAddc_sum :
    (intAddc w 0 a b cin).1 < 2 ^ w ∧ (intAddc w 0 a b cin).1 + 2 ^ w * (intAddc w 0 a b cin).2.toNat = a + b + cin.toNat := by
  have hc := Bool.toNat_le cin
  simp only [intAddc, Nat.zero_ne_one, if_false]
  refine ⟨Nat.mod_lt _ (Nat.two_pow_pos w), ?_⟩
  by_cases h : 2 ^ w ≤ a + b + cin.toNat
  · rw [Nat.mod_eq_sub_mod h, Nat.mod_eq_of_lt (by omega)]
    simp only [ge_iff_le, h, decide_true, Bool.toNat_true]
    omega
  · rw [Nat.mod_eq_of_lt (Nat.not_le.1 h)]
    simp only [ge_iff_le, h, decide_false, Bool.toNat_false]
    omega

theorem intAddc_difference :
    (intAddc w 1 a b cin).1 < 2 ^ w ∧ (intAddc w 1 a b cin).1 + b + cin.toNat = a + 2 ^ w * (intAddc w 1 a b cin).2.toNat := by
  have hc := Bool.toNat_le cin
  simp only [intAddc, if_true]
  refine ⟨Nat.mod_lt _ (Nat.two_pow_pos w), ?_⟩
  by_cases h : a < b + cin.toNat
  · rw [Nat.mod_eq_sub_mod (by omega), Nat.mod_eq_of_lt (by omega)]
    simp only [h, decide_true, Bool.toNat_true]
    omega
  · rw [Nat.mod_eq_sub_mod (by omega), Nat.mod_eq_sub_mod (by omega), Nat.mod_eq_of_lt (by omega)]
    simp only [h, decide_false, Bool.toNat_false]
    omega

end

/-- Settles O56: each function of the model is that of words of the type's width, by the lemma on it. -/
theorem integerResultsAreTheSpecifiedValues : Obligations.IntegerResultsAreTheSpecifiedValues := by
  refine ⟨?_, ?_, ?_, ?_, ?_, ?_, ?_⟩
  · exact fun _ _ _ ha hb => ⟨fun h hc => scalarFormsWriteTheirResult (.sdiv _) _ _ _ rfl h ha hb hc,
      fun h hc => scalarFormsWriteTheirResult (.srem _) _ _ _ rfl h ha hb hc⟩
  · exact fun _ _ x y z ha hb => ⟨intArith_wraps x y z ha hb, intArith_saturates x y z ha hb⟩
  · intro t x y ht
    obtain ⟨hlt, hle, hgt, hge⟩ := intTest_signed x y ht
    exact ⟨intDiv_signed x y ht, intRem_signed x y ht, hlt, hle, hgt, hge, intMinMax_signed x y ht⟩
  · intro t x y ht
    obtain ⟨hlt, hle⟩ := intTest_unsigned x y ht
    exact ⟨intDiv_unsigned x y ht, intRem_unsigned x y ht, hlt, hle, intMinMax_unsigned x y ht⟩
  · exact fun _ x y c hw => ⟨bitShl_eq x c, bitShr_eq x c, bitSar_eq x c, bitRot_eq x c hw, bitFunnel_eq x y c, bitAndn_eq x y, bitBrev_eq x⟩
  · intro w a b c
    refine ⟨?_, ?_, ?_, ?_, ?_⟩
    · exact bitGather_bitInterleave (k := 2) (j := 0) a b c rfl rfl (by decide) (by omega)
    · exact bitGather_bitInterleave (k := 2) (j := 1) a b c rfl rfl (by decide) (by omega)
    · exact bitGather_bitInterleave (k := 3) (j := 0) a b c rfl rfl (by decide) (by omega)
    · exact bitGather_bitInterleave (k := 3) (j := 1) a b c rfl rfl (by decide) (by omega)
    · exact bitGather_bitInterleave (k := 3) (j := 2) a b c rfl rfl (by decide) (by omega)
  · exact fun _ _ _ cin ha hb => ⟨intAddc_sum cin ha hb, intAddc_difference cin ha hb⟩

end Sys2Proof.Machine
end

section
/-! The floating forms that write at their issue, scalar and vector (R188, R191, R193 to R199, R202 to R210, R212): each is the shared floating issue of its class. -/

namespace Sys2Proof.Machine

/-! ## Scalar floating forms (R193, R194, R210) -/

/-- Settles O3: a scalar floating form is the shared scalar floating issue with its own function. -/
theorem scalarFloatWritesResultAndFlags : Obligations.ScalarFloatWritesResultAndFlags := by
  intro i F s x hF h ha hb hc
  rw [scalarFloat_exec hF]
  exact floatScalar_next h ha hb hc

/-! ## Vector floating forms of fixed latency (R195 to R199, R202 to R209) -/

/-- Settles O7: a form that is not late is the floating issue that writes its lanes, flags and counters at once. -/
theorem floatFormsWriteResultAndFlags : Obligations.FloatFormsWriteResultAndFlags := by
  intro i F s x v hF hlate h hs hv hclean
  rw [floatForm_exec hF, hlate]
  exact floatOp_next h hs hv (hclean _ (by simp)) (hclean _ (by simp)) (hclean _ (by simp))

end Sys2Proof.Machine
end

section
/-! Branches, calls and table branches (R214, R215, R218 to R223): each is a jump, once its condition or its stack and list decide it. -/

namespace Sys2Proof.Machine

/-! ## Branches (R214, R215, R218, R219) -/

/-- The target of a branch is the sum modulo 2^56 (R214). -/
theorem targetOf_eq (x : Exec) : targetOf x = BitVec.ofInt 56 (x.pc.toNat + 16 * x.w.imm.toInt) := by
  rw [targetOf, BitVec.ofInt_add, BitVec.ofInt_natCast, BitVec.ofNat_toNat, BitVec.setWidth_eq]

/-- A branch of an aligned word goes to an aligned word. -/
theorem targetOf_aligned {x : Exec} (h : x.pc.extractLsb' 0 4 = 0#4) : (targetOf x).extractLsb' 0 4 = 0#4 := by
  replace h := congrArg BitVec.toNat h
  apply BitVec.eq_of_toNat_eq
  simp only [targetOf_eq, BitVec.extractLsb'_toNat, BitVec.toNat_ofInt, Nat.shiftRight_zero, BitVec.toNat_ofNat] at h ⊢
  omega

section
variable {w : Fields} {s : State} {x : Exec}

/-- `bra` whose quads each agree moves each by its lanes (R218). -/
theorem execBra_jumps (h : Issues s kindPlain 0xC0#8 w x) (hq : splitQuad x (s.condition x w.a) = false) :
    ∃ t, execBra w s = .next t ∧
      jumps x (fun q => if (quadBits (s.condition x w.a &&& x.sub) q ≠ 0#4) ^^ (w.fn = 1#4) then targetOf x else x.pc + 16#56) s t :=
  issue_jump h (by simp only [condition_moved h.2.1, hq, Bool.false_eq_true, if_false])

/-- `bra` traps where the lanes of a quad differ (R215). -/
theorem execBra_splits (h : Issues s kindPlain 0xC0#8 w x) (hq : splitQuad x (s.condition x w.a) = true) :
    execBra w s = .next (raiseTrap x (illegalState x 2#8) false s) :=
  issue_trap h (by simp only [condition_moved h.2.1, hq, if_true])

/-- A value of `FN` by its number. -/
theorem fn_toNat_eq {fn : BitVec 4} {n : Nat} (hn : n < 16) : fn.toNat = n ↔ fn = BitVec.ofNat 4 n := by
  rw [← BitVec.toNat_inj, BitVec.toNat_ofNat, Nat.mod_eq_of_lt hn]

/-- Whether `brq` takes its branch in a quad of `sub`, by its `FN` (R219). -/
def brqTakes (fn sub b : BitVec 4) : Bool :=
  if fn = 0#4 then b ≠ 0#4 else if fn = 1#4 then b = sub else if fn = 2#4 then b = 0#4 else b ≠ sub

/-- `brq` moves each quad by the reduction of its lanes (R219). -/
theorem execBrq_jumps (h : Issues s kindPlain 0xC1#8 w x) : ∃ t, execBrq w s = .next t ∧
    jumps x (fun q => if brqTakes w.fn (quadBits x.sub q) (quadBits (s.condition x w.a &&& x.sub) q) then targetOf x
      else x.pc + 16#56) s t := by
  refine issue_jump h ?_
  simp only [condition_moved h.2.1]
  refine congrArg (fun f => Except.ok (jump x f (moveOn x 16 s))) (funext fun q => ?_)
  congr 2
  split
  · next hf => simp [brqTakes, (fn_toNat_eq (by decide)).1 hf, bne, beq_eq_decide]
  · next hf => simp [brqTakes, (fn_toNat_eq (by decide)).1 hf]
  · next hf => simp [brqTakes, (fn_toNat_eq (by decide)).1 hf, beq_eq_decide]
  · next h0 h1 h2 =>
    rw [imp_false, fn_toNat_eq (by decide)] at h0 h1 h2
    simp [brqTakes, h0, h1, h2]

end

/-- Settles O9: each branch is a jump by the condition, which the move to the next word leaves. -/
theorem branchesMoveTheSelectedQuads : Obligations.BranchesMoveTheSelectedQuads := by
  refine ⟨?_, ?_, ?_, ?_, ?_⟩
  · exact fun x => ⟨targetOf_eq x, targetOf_aligned⟩
  · exact fun _ _ => rfl
  · exact fun _ _ _ h hq => execBra_jumps h hq
  · exact fun _ _ _ h hq => execBra_splits h hq
  · exact fun _ _ _ h => execBrq_jumps h

/-! ## The call stack (R220 to R222) -/

/-- A push whose stack accesses are allowed stores the return address below each acting quad's stack pointer and moves the quads (R221). -/
theorem pushJump_ok {x : Exec} {s s1 : State} {as : List (Point × Access)} (hf : s.stackFault x accWrite = none)
    (hc : s.checkStack x accWrite ((actingQuads x).map fun q => (q, (s.cspOf x q - 8#64).toNat)) = (s1, .ok as)) (ra : BitVec 56)
    (f : Fin 8 → BitVec 56) :
    pushJump x ra f s = .ok (jump x f (setCsp x (fun q => s.cspOf x q - 8#64)
      (as.foldl (fun s p => s.store x ⟨p.2, p.1.va.toNat, p.2.mask, p.2.lay ra.toNat⟩ false false none) s1))) := by
  simp only [pushJump, hf, hc]

section
variable {w : Fields} {s s1 : State} {x : Exec} {as : List (Point × Access)}

/-- `call` whose stack accesses are allowed (R221). -/
theorem execCall_pushes (h : Issues s kindStack 0xC2#8 w x) (hf : (moveOn x 16 s).stackFault x accWrite = none)
    (hc : (moveOn x 16 s).checkStack x accWrite
      ((actingQuads x).map fun q => (q, ((moveOn x 16 s).cspOf x q - 8#64).toNat)) = (s1, .ok as)) :
    execCall w s = .next (finish x (jump x (fun _ => targetOf x) (setCsp x (fun q => (moveOn x 16 s).cspOf x q - 8#64)
      (as.foldl (fun s p => s.store x ⟨p.2, p.1.va.toNat, p.2.mask, p.2.lay (x.pc + 16#56).toNat⟩ false false none) s1)))) :=
  issue_next h (pushJump_ok hf hc (x.pc + 16#56) fun _ => targetOf x)

/-- `ret` whose stack accesses are allowed, and whose popped words are clean and aligned (R222). -/
theorem execRet_pops (h : Issues s kindStack 0xC3#8 w x) (hf : (moveOn x 16 s).stackFault x accRead = none)
    (hc : (moveOn x 16 s).checkStack x accRead ((actingQuads x).map fun q => (q, ((moveOn x 16 s).cspOf x q).toNat)) = (s1, .ok as))
    (hw : ∀ p ∈ as, s1.awaitsOwn x p.2 = false) (hp : ∀ p ∈ as.zip (s1.readLanes as []).2, p.2.2.2 = false)
    (ha : ∀ p ∈ (s1.readLanes as []).2, p.2.1 % 16 = 0) :
    execRet w s = .next (finish x (jump x (fun q => BitVec.ofNat 56 (popped (actingQuads x) (s1.readLanes as []).2 q))
      (setCsp x (fun q => s1.cspOf x q + 8#64) (s1.readLanes as []).1))) := by
  have waits : (as.any fun p => s1.awaitsOwn x p.2) = false := List.any_eq_false.2 fun p hm => ne_true_of_eq_false (hw p hm)
  have poison : (as.zip (s1.readLanes as []).2).find? (fun p => p.2.2.2) = none :=
    List.find?_eq_none.2 fun p hm => ne_true_of_eq_false (hp p hm)
  have misaligned : (s1.readLanes as []).2.find? (fun p => decide (p.2.1 % 16 ≠ 0)) = none :=
    List.find?_eq_none.2 fun p hm => by simp [ha p hm]
  refine issue_next h ?_
  simp only [hf, hc, waits, Bool.false_eq_true, if_false, poison, misaligned]

end

/-! ## Table branches (R223) -/

/-- The lowest issuing lane of a quad. -/
def Exec.leadLane (x : Exec) (q : Fin 8) : Fin 32 := Fin.ofNat 32 (lowest (x.sub &&& quadLanes (1#8 <<< q.val)))

/-- Where a table branch takes a quad: to the address of its lowest issuing lane. -/
def Src.target (a : Src) (x : Exec) (q : Fin 8) : BitVec 56 := BitVec.ofNat 56 (a.val (x.leadLane q))

/-- A table branch of clean addresses whose targets are aligned entries of its list goes to them, with `FN` 1 after a push (R223). -/
theorem execBtab_answers {w : Fields} {s s1 s2 : State} {x : Exec} {v : Gang} {ws : List W128} {a : Src}
    (ha : (s.env x v).src w.a .b64 = a) (h : Issues s (if w.fn = 1#4 then kindStack else kindPlain) 0xC4#8 w x) (hs : x.seq = false)
    (hv : s.gang? x.t x.g = some v) (hp : a.poison &&& x.sub = 0#32)
    (hu : ∀ l : Fin 32, x.sub.getLsbD l = true → a.val l = a.val (x.leadLane (Fin.ofNat 8 (l.val / 4))))
    (hl : (moveOn x (btabLength w) s).listWords x ((btabCount w + 1) / 2) 0 [] = (s1, .ok ws))
    (ht : ∀ q ∈ actingQuads x, (listEntries (btabCount w) ws).contains (a.target x q) = true ∧ (a.target x q).extractLsb' 0 4 = 0#4)
    (hb : (if w.fn = 1#4 then pushJump x (x.pc + BitVec.ofNat 56 (btabLength w)) (a.target x) s1 else .ok (jump x (a.target x) s1)) = .ok s2) :
    execBtab w s = .next (finish x s2) := by
  obtain ⟨hm, he⟩ := moved_gang h.2.1 hs hv (btabLength w)
  have clean : consumeLanes x.sub [(w.a, a.poison)] = none := consumeLanes_clean (by simpa only [List.forall_mem_singleton] using hp)
  have agree : ((List.finRange 32).any fun l => x.sub.getLsbD l && a.val l != a.val (x.leadLane (Fin.ofNat 8 (l.val / 4)))) = false :=
    List.any_eq_false.2 fun l _ hd => by
      obtain ⟨hsub, hne⟩ := Bool.and_eq_true_iff.1 hd
      exact bne_iff_ne.1 hne (hu l hsub)
  have listed : (actingQuads x).find? (fun q => !(listEntries (btabCount w) ws).contains (a.target x q)) = none :=
    List.find?_eq_none.2 fun q hq => by rw [(ht q hq).1]; decide
  refine issue_next h ?_
  simp only [Exec.leadLane, Src.target] at agree listed hb
  simp only [hm, he, src_moved (s.env x v) (v := v) rfl, ha, clean, agree, hl, listed, Bool.false_eq_true, if_false]
  rw [List.find?_eq_none.2 fun q hq => by exact fun hd => of_decide_eq_true hd (ht q hq).2]
  exact hb

/-- Settles O11: the checks of the stack and of the list decide each, and what passes them is a jump. -/
theorem callsReturnsAndTableBranches : Obligations.CallsReturnsAndTableBranches := by
  refine ⟨?_, ?_, ?_⟩
  · exact fun _ _ _ _ _ h hf hc => execCall_pushes h hf hc
  · exact fun _ _ _ _ _ h hf hc hw hp ha => execRet_pops h hf hc hw hp ha
  · intro w s s1 x v ws m a first target h hs hv hp hu hl ht
    have answers {s' : State} := execBtab_answers (s2 := s') rfl h hs hv hp hu hl ht
    exact ⟨fun hn => answers (if_neg hn), fun hn s2 hj => answers ((if_pos hn).trans hj)⟩

end Sys2Proof.Machine
end

section
/-! Traps and special registers (R227 to R232, R434, R436): what software traps, returns from a handler, `mfsr` and `icinv` answer. -/

namespace Sys2Proof.Machine

/-! ## Software traps (R227, R228, R434) -/

/-- A gang whose handler is free, of a team with a trap vector, takes a trap of quads that have no displaced word. -/
theorem noHandler_free {s : State} {t : Nat} {v : Gang} {tm : Team} {quads : QuadMask} (ht : s.team? t = some tm) (hh : v.handler = none)
    (hvec : tm.trapvec ≠ 0#64) (he : v.emul &&& quads = 0#8) : s.noHandler t v quads = false := by
  simp [State.noHandler, hh, ht, hvec, he]

/-- A software trap of a gang whose handler is free is not ignored. -/
theorem trapIgnored_free {s : State} {x : Exec} {v : Gang} {tm : Team} (hu : x.u = .gang x.t x.g) (ht : s.team? x.t = some tm)
    (hv : s.gang? x.t x.g = some v) (hh : v.handler = none) (hvec : tm.trapvec ≠ 0#64) (he : v.emul &&& x.quads = 0#8) (brk : Bool) :
    s.trapIgnored x brk = false := by
  simp only [State.trapIgnored, hu, hv, Option.any_some, noHandler_free ht hh hvec he, Bool.false_and]

/-- `trap` and `brk` are the software trap under their opcodes and codes, neither of which is that of a range lock. -/
theorem exec_softwareTrap {i : Instr} {w : Fields} {op code : BitVec 8}
    (hi : (i = .trap w ∧ op = 0xC8#8 ∧ code = 1#8) ∨ (i = .brk w ∧ op = 0xFF#8 ∧ code = 2#8)) :
    code ≠ codeLock ∧ ∀ s, exec i s = trapForm op code w s := by
  obtain ⟨rfl, rfl, rfl⟩ | ⟨rfl, rfl, rfl⟩ := hi
  · exact ⟨by decide, fun _ => rfl⟩
  · exact ⟨by decide, fun _ => rfl⟩

/-- A software trap that is not ignored is raised from the state before the issue. -/
theorem trapForm_raises {op code : BitVec 8} {w : Fields} {s : State} {x : Exec} (h : Issues s kindPlain op w x)
    (hi : s.trapIgnored x (op = 0xFF#8) = false) :
    trapForm op code w s = .next (raiseTrap x (.coded code (0#48 ++ w.imm.extractLsb' 0 16)) (op = 0xFF#8) s) :=
  issue_trap h (if_neg (ne_true_of_eq_false hi))

/-- Settles O12: the trap is not ignored, and raising it enters the free handler or holds it. -/
theorem softwareTrapsEnterTheHandler : Obligations.SoftwareTrapsEnterTheHandler := by
  intro i w s x tm v op code hi h hs ht hv hh hvec he detail
  obtain ⟨_, _, hu, -⟩ := gang_unit h.2.1 hs
  have notDebugged : (decide (op = 0xFF#8) && s.debugged x.t v) = false := by
    obtain ⟨-, rfl, -⟩ | ⟨-, -, -, hd⟩ := hi
    · rfl
    · rw [hd, Bool.and_false]
  obtain ⟨hc, hx⟩ := exec_softwareTrap (hi.imp_right fun ⟨hb, ho, hcode, _⟩ => ⟨hb, ho, hcode⟩)
  rw [hx, trapForm_raises h (trapIgnored_free hu ht hv hh hvec he _)]
  obtain ⟨now, held⟩ := raiseTrap_enter (detail := detail) hu ht hv hc notDebugged hh hvec he
  exact ⟨fun hp => congrArg Host.Outcome.next (now hp), fun hp => congrArg Host.Outcome.next (held hp)⟩

/-! ## Returns from a handler (R67, R229, R436) -/

section
variable {x : Exec} {s : State} {v : Gang} {code : BitVec 8} (hu : x.u = .gang x.t x.g) (hv : s.gang? x.t x.g = some v)
  (hh : v.handler = some code) (hc : terminal code = false)
include hu hv hh hc

/-- A gang does not return to a misaligned word (R67). -/
theorem trapReturn_misaligned (ha : (v.regs.trappc.extractLsb' 0 56).extractLsb' 0 4 ≠ 0#4) (fn : Nat) :
    trapReturn x fn s = .error (.trap (misalignedPc (v.regs.trappc.extractLsb' 0 56))) := by
  simp only [trapReturn, hu, hv, hh, hc, Bool.false_eq_true, if_false, if_pos ha]

variable (ha : (v.regs.trappc.extractLsb' 0 56).extractLsb' 0 4 = 0#4)
include ha

/-- A gang does not return to a displaced `trapret` or `brk` (R229). -/
theorem trapReturn_displacedBad (hd : displacedBad v.displaced = true) : trapReturn x 2 s = .error (.trap (illegalState x 7#8)) := by
  simp only [trapReturn, hu, hv, hh, hc, Bool.false_eq_true, if_false, ha, ne_eq, not_true, hd, and_self, if_true]

/-- The trapped quads of a gang leave its handler (R229, R436). -/
theorem trapReturn_leaves {fn : BitVec 4} (hd : fn = 2#4 → displacedBad v.displaced = false) : trapReturn x fn.toNat s = .ok (s.setGang x.t x.g
    (v.leave (if fn = 1#4 then v.regs.trappc.extractLsb' 0 56 + 16#56 else v.regs.trappc.extractLsb' 0 56) (fn = 2#4))) := by
  have displaced : ¬ (fn = 2#4 ∧ displacedBad v.displaced = true) := fun h => Bool.false_ne_true ((hd h.1).symm.trans h.2)
  simp only [trapReturn, hu, hv, hh, hc, Bool.false_eq_true, if_false, ha, ne_eq, not_true, fn_toNat_eq (n := 1) (by decide),
    fn_toNat_eq (n := 2) (by decide), displaced]

end

/-- A sequencer leaves its handler (R229, R454). -/
theorem trapReturn_seq {x : Exec} {s : State} {n : Nat} {code : BitVec 8} {fn : BitVec 4} (hu : x.u = .seq n) (hh : (s.seq n).handler = some code)
    (hc : terminal code = false) (ha : ((s.seq n).regs.trappc.extractLsb' 0 56).extractLsb' 0 4 = 0#4)
    (hd : fn = 2#4 → displacedBad (s.seq n).displaced = false) :
    trapReturn x fn.toNat s = .ok (s.setSeq { s.seq n with
      handler := none, emul := fn = 2#4
      pc := if fn = 1#4 then (s.seq n).regs.trappc.extractLsb' 0 56 + 16#56 else (s.seq n).regs.trappc.extractLsb' 0 56 }) := by
  have displaced : ¬ (fn = 2#4 ∧ displacedBad (s.seq n).displaced = true) := fun h => Bool.false_ne_true ((hd h.1).symm.trans h.2)
  simp only [trapReturn, hu, hh, hc, Bool.false_eq_true, if_false, ha, ne_eq, not_true, fn_toNat_eq (n := 1) (by decide),
    fn_toNat_eq (n := 2) (by decide), displaced]

/-- A return of a unit outside a handler, which is one that is not privileged, is an illegal state (R229). -/
theorem trapReturn_outside {s : State} {op : BitVec 8} {w : Fields} {x : Exec} (h : execOf s x.u op w = some x) (hp : x.priv = false) (fn : Nat) :
    trapReturn x fn (moveOn x 16 s) = .error (.trap (illegalState x 5#8)) := by
  obtain ⟨v, hu, hs, hv, -⟩ | ⟨n, hu, hs, rfl, -⟩ := moved_unit h 16
  · have outside : v.handler = none := by
      rw [hu] at h
      obtain ⟨tm, u, ht, hg, -, -, -, -, -, -, -, -, -, -, hpriv⟩ := execOf_gang h
      obtain rfl : v = u := Option.some.inj (hv.symm.trans (State.gang?_eq.2 ⟨tm, ht, hg⟩))
      exact Option.isNone_iff_eq_none.1 (by rw [← Option.not_isSome, ← hpriv, hp]; rfl)
    have moved : (v.moved x 16).handler = none := outside
    simp only [trapReturn, hu, (moved_gang h hs hv 16).1, moved]
  · have outside : (s.seq x.cluster).handler = none := by
      rw [hu] at h
      obtain ⟨-, -, -, -, -, -, hpriv⟩ := execOf_seq h
      exact Option.isNone_iff_eq_none.1 (by rw [← Option.not_isSome, ← hpriv, hp]; rfl)
    simp only [trapReturn, hu, (moved_seq h hs 16).2, outside]

/-- Settles O14: the return finds the handler, the program counter and the displaced word as they were before the move to the next word. -/
theorem trapretReturns : Obligations.TrapretReturns := by
  refine ⟨?_, ?_, ?_⟩
  · intro w s x v code h hs hv hh hc tp
    obtain ⟨_, _, hu, -⟩ := gang_unit h.2.1 hs
    obtain ⟨hm, -⟩ := moved_gang h.2.1 hs hv 16
    refine ⟨fun ha => ?_, fun ha hf hd => ?_, fun ha hd => ?_⟩
    · exact issue_trap h (trapReturn_misaligned hu hm hh hc ha w.fn.toNat)
    · exact issue_trap h (by rw [hf]; exact trapReturn_displacedBad hu hm hh hc ha hd)
    · exact issue_gang h hs hv (trapReturn_leaves hu hm hh hc ha hd) rfl
  · intro w s x code h hs hh hc hd tp ha
    obtain ⟨hu, hq⟩ := moved_seq h.2.1 hs 16
    refine issue_seq h hs (trapReturn_seq (code := code) hu ?_ hc ?_ ?_) ?_ ?_
    · rw [hq, hh]
    · rw [hq, ha]
    · rwa [hq]
    · rw [hq]; exact State.seq_idx s x.cluster
    · rw [hq]
  · exact fun w s x h hp => issue_trap h (trapReturn_outside h.2.1 hp w.fn.toNat)

/-! ## `mfsr` (R230, R231) -/

/-- `mfsr` writes what the special register holds, which the move to the next word leaves. -/
theorem execMfsr_reads {w : Fields} {s : State} {x : Exec} (h : Issues s kindPlain 0xCA#8 w x) {i : Nat}
    (hi : i = (w.imm.extractLsb' 0 8).toNat) :
    ∃ t, execMfsr w s = .next t ∧ regsBecome x (fun r => r.writeTo w.d (specialTy i) (s.readSpecial x i).toNat) s t :=
  issue_regs h (by simp only [readSpecial_moved h.2.1, hi])

/-- Settles O15: `mfsr` is the issue that writes D from the register. -/
theorem mfsrReadsSpecialRegisters : Obligations.MfsrReadsSpecialRegisters := by
  exact fun _ _ _ h => execMfsr_reads h rfl

/-! ## `icinv` (R232) -/

section
variable (x : Exec) (len : Nat) (s : State)

/-- The move to the next word leaves the invalidations, the dies and the next free name. -/
@[simp] theorem moveOn_invals : (moveOn x len s).invals = s.invals := by
  unfold moveOn
  split <;> rfl

@[simp] theorem moveOn_dies : (moveOn x len s).dies = s.dies := by
  unfold moveOn
  split <;> rfl

@[simp] theorem moveOn_ids : (moveOn x len s).ids = s.ids := by
  unfold moveOn
  split <;> rfl

end

section
variable {w : Fields} {s : State} {x : Exec}

/-- `icinv` of the core (R232). -/
theorem execIcinv_core (hf : w.fn ≠ 1#4) (h : Issues s kindPlain 0xCC#8 w x) :
    execIcinv w s = .next (finish x ((moveOn x 16 s).icacheReach x.core)) := by
  have kind : (⟨w.fn = 1#4, false, false, false, false⟩ : IssueKind) = kindPlain := by rw [kindPlain, decide_eq_false hf]
  rw [execIcinv, kind]
  exact issue_next h (if_neg hf)

/-- `icinv.dev` blocks its unit until the invalidation that it begins is done (R232). -/
theorem execIcinv_device (hf : w.fn = 1#4) (h : Issues s ⟨true, false, false, false, false⟩ 0xCC#8 w x) :
    execIcinv w s = .next (finish x (blockUnit x (.icinv s.ids)
      { (moveOn x 16 s).bump with invals := s.invals ++ [⟨s.ids, some x.u, (List.range 2592).filter fun c => !(s.die (dieOf c)).fenced⟩] })) := by
  have kind : (⟨w.fn = 1#4, false, false, false, false⟩ : IssueKind) = ⟨true, false, false, false, false⟩ := by rw [decide_eq_true hf]
  rw [execIcinv, kind]
  refine issue_next h ((if_pos hf).trans ?_)
  simp only [moveOn_invals, moveOn_ids, State.die, moveOn_dies]

/-- `icinv.dev` outside a privileged handler is protected (R68, R232). -/
theorem execIcinv_unprivileged (hf : w.fn = 1#4) (hc : s.cur = some x.u) (he : execOf s x.u 0xCC#8 w = some x) (hp : x.priv = false) :
    execIcinv w s = .next (raiseTrap x (protectionOnce 0#56) false s) :=
  issue_unprivileged hc he (decide_eq_true hf) hp

end

/-- Settles O17: `icinv` is the issue that its `FN` decides, privileged with `FN` 1. -/
theorem icinvInvalidates : Obligations.IcinvInvalidates := by
  refine ⟨?_, ?_, ?_⟩
  · exact fun _ _ _ hf h => execIcinv_core hf h
  · exact fun _ _ _ hf h => execIcinv_device hf h
  · exact fun _ _ _ hf hc he hp => execIcinv_unprivileged hf hc he hp

end Sys2Proof.Machine
end

section
/-! The gang instructions (R139, R233 to R239): the lanes that take part, the poison that is read, and the one result that each leaves outstanding. -/

namespace Sys2Proof.Machine

/-! ## What a gang instruction reads (R233) -/

section
variable (e : Env) {v : Gang} (hv : e.v = v) (x : Exec) (len : Nat)
include hv

/-- The move to the next word leaves the result of a gang instruction. -/
theorem gangResult_moved (f : Fin 32 → Nat) (flags : BitVec 5) :
    ({ e with v := v.moved x len } : Env).gangResult f flags = e.gangResult f flags := by
  simp only [Env.gangResult, takers_moved e hv]

/-- The move to the next word leaves the leaves of a reduction. -/
theorem leaves_moved (a : Src) : ({ e with v := v.moved x len } : Env).leaves a = e.leaves a := by
  simp only [Env.leaves, takers_moved e hv]

end

/-- A source without poison is read without poison, whichever of its lanes are read. -/
theorem gangTaint_clean {a : Src} (h : a.poison = 0#32) (o : Operand) (reads : Mask) : gangTaint o a reads = 0#32 := by
  unfold gangTaint
  split
  · exact h
  · rw [h]; exact BitVec.zero_and

/-- One source that is read without poison raises no fault. -/
theorem consumeLanes_taintOne {o : Operand} {a : Src} {reads : Mask} (h : gangTaint o a reads = 0#32) (part : Mask) :
    consumeLanes part [(o, gangTaint o a reads)] = none :=
  consumeLanes_clean (by rw [List.forall_mem_singleton, h]; exact BitVec.zero_and)

/-- Two sources without poison raise no fault. -/
theorem consumeLanes_taintTwo {a b : Src} (ha : a.poison = 0#32) (hb : b.poison = 0#32) (oa ob : Operand) (ra rb part : Mask) :
    consumeLanes part [(oa, gangTaint oa a ra), (ob, gangTaint ob b rb)] = none :=
  consumeLanes_clean (by simp [gangTaint_clean ha, gangTaint_clean hb])

/-! ## What each gang instruction leaves -/

section
variable {w : Fields} {s : State} {x : Exec} {v : Gang} (hs : x.seq = false) (hv : s.gang? x.t x.g = some v)
include hs hv

/-- `gvote` leaves the vote of the lanes that take part (R235). -/
theorem execGvote_leaves (h : Issues s kindGang 0xD0#8 w x) :
    let e := s.env x v
    let m := e.predSrc w.a &&& e.takers
    let r := if w.fn = 0#4 then (m != 0#32).toNat else if w.fn = 1#4 then (m == e.takers).toNat else m.toNat
    ∃ t, execGvote w s = .next t ∧ gangBecomes x (fun u => (u.moved x 16).addResult (e.gangResult (fun _ => r) 0#5) .general) s t := by
  refine issue_env h hs hv ?_ rfl
  simp only [predSrc_moved (s.env x v) (v := v) rfl, takers_moved (s.env x v) (v := v) rfl, gangResult_moved (s.env x v) (v := v) rfl]

section
variable {a b : Src} (ha : a = (s.env x v).src w.a w.ty) (hb : b = (s.env x v).src w.b .n32)
include ha hb

/-- `gshfl` of clean sources leaves in each lane the value of the lane that it names, 0 where that is not live (R236). -/
theorem execGshfl_leaves (h : Issues s kindGang 0xD1#8 w x) (hpa : a.poison = 0#32) (hpb : b.poison = 0#32) :
    let at_ := fun l : Fin 32 => (shuffleLane w.fn.toNat l.val (b.val l)).getD l
    ∃ t, execGshfl w s = .next t ∧ gangBecomes x (fun u => (u.moved x 16).addResult
      ((s.env x v).gangResult (fun l => if v.live.getLsbD (at_ l) then a.val (at_ l) else 0) 0#5) .general) s t := by
  subst ha hb
  refine issue_env h hs hv ?_ rfl
  simp only [src_moved (s.env x v) (v := v) rfl, takers_moved (s.env x v) (v := v) rfl, gangResult_moved (s.env x v) (v := v) rfl,
    consumeLanes_taintTwo hpa hpb]
  rfl

/-- `gbcast` of clean sources leaves the value of the lane that it names, 0 where that is not live (R238). -/
theorem execGbcast_leaves (h : Issues s kindGang 0xD4#8 w x) (hpa : a.poison = 0#32) (hpb : b.poison = 0#32) :
    let q := Fin.ofNat 32 (b.val 0)
    ∃ t, execGbcast w s = .next t ∧ gangBecomes x (fun u => (u.moved x 16).addResult
      ((s.env x v).gangResult (fun _ => if v.live.getLsbD q then a.val q else 0) 0#5)
      (if (s.env x v).takers = BitVec.allOnes 32 then .uniform else .general)) s t := by
  subst ha hb
  refine issue_env h hs hv ?_ rfl
  simp only [src_moved (s.env x v) (v := v) rfl, takers_moved (s.env x v) (v := v) rfl, gangResult_moved (s.env x v) (v := v) rfl,
    consumeLanes_taintTwo hpa hpb]
  rfl

end

section
variable {a : Src} (ha : a = (s.env x v).src w.a w.ty) (hp : gangTaint w.a a (s.env x v).takers = 0#32)
  {node : Nat × BitVec 5 → Nat × BitVec 5 → Nat × BitVec 5}
  (hn : node = gangNode w.ty (mdSUB w.md).toNat (scalarMode v.regs.fpctl w.md)) {id : Nat × BitVec 5}
  (hid : id = (gangIdentity w.ty (mdSUB w.md).toNat, 0#5))
include ha hp hn hid

/-- `gscan` leaves in each lane the scan up to it, or with `FN` 1 before it, a NaN as the canonical one (R120, R139, R237). -/
theorem execGscan_leaves (h : Issues s kindGang 0xD2#8 w x) :
    let at_ := fun l : Fin 32 =>
      if w.fn = 1#4 then (if l.val = 0 then id else scanAt node id ((s.env x v).leaves a) (l.val - 1))
      else scanAt node id ((s.env x v).leaves a) l.val
    ∃ t, execGscan w s = .next t ∧ gangBecomes x (fun u => (u.moved x 16).addResult
      ((s.env x v).gangResult (fun l => canonicalNan w.ty (at_ l).1) (flagsOf (s.env x v).takers fun l => (at_ l).2)) .general) s t := by
  subst ha hn hid
  refine issue_env h hs hv ?_ rfl
  simp only [src_moved (s.env x v) (v := v) rfl, takers_moved (s.env x v) (v := v) rfl, gangResult_moved (s.env x v) (v := v) rfl,
    leaves_moved (s.env x v) (v := v) rfl, consumeLanes_taintOne hp]
  rfl

/-- `greduce` leaves the root of the tree of the lanes that take part (R139, R237). -/
theorem execGreduce_leaves (h : Issues s kindGang 0xD3#8 w x) :
    let root := (pairTree node 5 ((s.env x v).leaves a)).headD id
    ∃ t, execGreduce w s = .next t ∧
      gangBecomes x (fun u => (u.moved x 16).addResult ((s.env x v).gangResult (fun _ => root.1) root.2) .general) s t := by
  subst ha hn hid
  refine issue_env h hs hv ?_ rfl
  simp only [src_moved (s.env x v) (v := v) rfl, takers_moved (s.env x v) (v := v) rfl, gangResult_moved (s.env x v) (v := v) rfl,
    leaves_moved (s.env x v) (v := v) rfl, consumeLanes_taintOne hp]
  rfl

end

end

/-- Settles O20: each is an issue of the gang whose body leaves a result, of sources that the move to the next word keeps. -/
theorem gangInstructionsLeaveAResult : Obligations.GangInstructionsLeaveAResult := by
  intro w s x v hs hv e a b code node leaves id
  refine ⟨?_, ?_, ?_, ?_, ?_⟩
  · exact fun h => execGvote_leaves hs hv h
  · exact fun h => execGshfl_leaves hs hv rfl rfl h
  · exact fun h hp => execGscan_leaves hs hv rfl hp rfl rfl h
  · exact fun h hp => execGreduce_leaves hs hv rfl hp rfl rfl h
  · exact fun h => execGbcast_leaves hs hv rfl rfl h

end Sys2Proof.Machine
end

section
/-! Traffic and event queues (R232, R243, R282, R291, R366, R379, R390, R410 to R413): what each arrival answers. -/

namespace Sys2Proof.Machine

/-! ## Packets (R410 to R412) -/

section
variable {s : State} {q : Nat} {p : Packet}

/-- A waiting packet whose slack has run out joins the zero class (R411). -/
theorem execSlackExhausted_exhausts (hf : s.packets.find? (fun q => q.id = p.id) = some p) (hz : p.zeroSince = none)
    (hc : p.current (s.queueTick p.queue) = 0) : execSlackExhausted p.id s = .next (s.exhaust p) := by
  simp only [execSlackExhausted, hf, hz, Option.isNone_none, hc, and_self, if_true]

/-- The state in which a queue's arbiter serves a packet: one whose slack has run out has joined the zero class (R411). -/
def State.atService (s : State) (q : Nat) (p : Packet) : State :=
  if p.zeroSince = none ∧ p.current (s.queueTick q) = 0 then s.exhaust p else s

section
variable (hn : s.nextPacket q = some p) {via : Option (Nat × Nat × Nat)}
include hn

/-- A packet that has passed its path leaves the queues. -/
theorem execPacketService_leaves (hp : (s.atService q p).pathAfter p = ([], via)) : execPacketService q s =
    .next { s.atService q p with packets := (s.atService q p).packets.filter fun q => q.id ≠ p.id } := by
  unfold State.atService at *
  simp only [execPacketService, hn, Option.isNone_iff_eq_none, decide_eq_true_eq, hp]

/-- A packet enters the next queue of its path with the slack that it has (R412). -/
theorem execPacketService_moves {n : Nat} {ns : List Nat} (hp : (s.atService q p).pathAfter p = (n :: ns, via)) : execPacketService q s =
    .next { (s.atService q p).bump with
      packets := updateFirst (fun (o : Packet) => decide (o.id = p.id)) (fun (o : Packet) =>
        { o with queue := n, path := ns, slack := p.current (s.queueTick q), entry := (s.atService q p).queueTick n, zeroSince := none, relayed := via })
        (s.atService q p).packets } := by
  unfold State.atService at *
  simp only [execPacketService, hn, Option.isNone_iff_eq_none, decide_eq_true_eq, hp]

end

/-- A queue whose packets are all held has none to serve. -/
theorem nextPacket_held (h : ∀ p ∈ s.packets, p.queue = q → s.packetHeld p = true) : s.nextPacket q = none := by
  have none_free : (s.packets.filter fun p => decide (p.queue = q) && !s.packetHeld p && !s.packets.any p.follows) = [] :=
    List.filter_eq_nil_iff.2 fun p hp hd => by
      simp only [Bool.and_eq_true, decide_eq_true_eq, Bool.not_eq_true'] at hd
      obtain ⟨⟨hq, hfree⟩, -⟩ := hd
      exact Bool.false_ne_true (hfree.symm.trans (h p hp hq))
  rw [State.nextPacket, none_free, firstBy]

/-- A queue whose packets are all held serves none (R21 to R23, R491). -/
theorem execPacketService_held (h : ∀ p ∈ s.packets, p.queue = q → s.packetHeld p = true) : execPacketService q s = .next s := by
  simp only [execPacketService, nextPacket_held h]

end

/-! ## Misses, promotions and evictions (R243, R282, R390) -/

/-- A miss-status entry that has been open for 32 clocks closes (R390). -/
theorem execCoalesceWindowClose_closes {s : State} {core k : Nat} {m : Miss} (hm : m ∈ (s.core core).misses) (hk : m.key = k)
    (hp : 6 * (s.tick - m.opened) ≥ 5 * 32) : execCoalesceWindowClose core k s = .next (s.modCore core fun c =>
      { c with misses := c.misses.filter fun m => !(decide (m.key = k) && clocksPassed m.opened s.tick 32) }) :=
  next_of_guard (List.any_eq_true.2 ⟨m, hm, by simp [hk, clocksPassed, hp]⟩) rfl

section
variable {s : State} {n d : Nat} {p : Promotion} (hf : s.promotions.find? (fun p => p.id = n) = some p) (hd : d ∈ p.dies)
  (hh : s.pairHeld p.stamp.port d = false)
include hf hd hh

/-- A promotion that has reached its last die lets go on what waited for it (R282). -/
theorem execPromotionArrival_last (hr : p.dies.filter (fun e => decide (e ≠ d)) = []) : execPromotionArrival n d s =
    .next ({ s.settleDie p.stamp d with promotions := (s.settleDie p.stamp d).promotions.filter fun q => q.id ≠ n }.wakePromoted p.who) := by
  simp only [execPromotionArrival, hf, List.contains_iff_mem.2 hd, hh, Bool.not_false, Bool.and_self, if_true, hr]

/-- A promotion that has reached a die has the others still to reach. -/
theorem execPromotionArrival_more (hr : p.dies.filter (fun e => decide (e ≠ d)) ≠ []) : execPromotionArrival n d s =
    .next { s.settleDie p.stamp d with
      promotions := replaceIf (fun q => q.id = n) (fun q => { q with dies := p.dies.filter fun e => e ≠ d }) (s.settleDie p.stamp d).promotions } := by
  simp only [execPromotionArrival, hf, List.contains_iff_mem.2 hd, hh, Bool.not_false, Bool.and_self, if_true, hr, if_false]

end

section
variable {s : State} {d k : Nat} {z : Sector} (hd : d < 9) (hz : (s.die d).sector? k = some z)
include hd hz

/-- A clean sector is evicted without traffic (R243). -/
theorem execCacheEviction_clean (h : z.dirty = 0#128) : execCacheEviction d k s = .next (s.evict d k) :=
  next_of_guard ⟨hd, by rw [hz]; rfl⟩ (by simp [State.evictSent, hz, h])

/-- A dirty sector goes to the memory side in a packet of the die's own (R243, R412). -/
theorem execCacheEviction_dirty (h : z.dirty ≠ 0#128) : execCacheEviction d k s = .next ((s.send (ownStamp d)
    (roundTrip d (chipPort (chipOf (128 * k))) [sideQueue (chipOf (128 * k))])).evict d k) :=
  next_of_guard ⟨hd, by rw [hz]; rfl⟩ (by simp [State.evictSent, hz, h])

end

/-! ## Remote operations and invalidations (R232, R291) -/

/-- A remote operation that nothing holds back is performed at its peer, and what waited for it goes on (R269, R291). -/
theorem execRemoteWriteAck_performs {s : State} {n : Nat} {r : RemoteOp} (hf : s.remote.find? (fun r => r.id = n) = some r)
    (hp : s.peerHeld r.peer = false) (hh : s.pairHeld (s.dieOfUnit r.who) ioPort = false)
    (ho : ((s.remote.takeWhile fun q => q.id ≠ n).any fun q => q.touches r.who r.sector r.mask) = false) :
    execRemoteWriteAck n s = .next (((((s.dropRemote r.id).performRemote r).acquirePerformed r)).wakeRemote r.who) := by
  simp only [execRemoteWriteAck, hf, hp, hh, Bool.or_self, Bool.false_eq_true, if_false, ho, State.completeRemote]

section
variable {s : State} {n core : Nat} {v : Inval} (hf : s.invals.find? (fun v => v.id = n) = some v) (hc : core ∈ v.cores)
  (hh : s.pairHeld ((v.who.map s.dieOfUnit).getD ioPort) (dieOf core) = false)
include hf hc hh

/-- An invalidation that has reached a core has the others still to reach (R232). -/
theorem execInvalidationReachesCore_more (hr : v.cores.filter (fun c => decide (c ≠ core)) ≠ []) : execInvalidationReachesCore n core s =
    .next { s.icacheReach core with
      invals := replaceIf (fun w => w.id = n) (fun w => { w with cores := v.cores.filter fun c => c ≠ core }) (s.icacheReach core).invals } := by
  simp only [execInvalidationReachesCore, hf, List.contains_iff_mem.2 hc, hh, Bool.not_false, Bool.and_self, if_true, hr, if_false]

/-- An invalidation that has reached its last core lets its unit go on (R232). -/
theorem execInvalidationReachesCore_last (hr : v.cores.filter (fun c => decide (c ≠ core)) = []) {u : Issuer} (hu : v.who = some u) :
    execInvalidationReachesCore n core s =
      .next ({ s.icacheReach core with invals := (s.icacheReach core).invals.filter fun w => w.id ≠ n }.wake u) := by
  rw [hu] at hh
  simp only [execInvalidationReachesCore, hf, List.contains_iff_mem.2 hc, hu, hh, Bool.not_false, Bool.and_self, if_true, hr]

end

/-! ## Event queues (R366, R379) -/

/-- A record that neither a held pair nor an earlier record of its producer keeps back joins its cluster's queue, or is dropped and counted where that is full (R366). -/
theorem execEventPost_joins {s : State} {n : Nat} {p : Post} (hf : s.posts.find? (fun p => p.id = n) = some p)
    (hh : s.pairHeld (s.producerPort p.producer) (p.cluster / 6) = false)
    (ho : ((s.posts.takeWhile fun q => q.id ≠ n).any fun q => decide (q.cluster = p.cluster ∧ q.producer = p.producer)) = false) :
    execEventPost n s = .next (({ s with posts := s.posts.filter fun q => q.id ≠ n }.modSeq p.cluster fun q =>
      if q.events.length ≥ eventCapacity then { q with drops := q.drops + 1 } else { q with events := q.events ++ [p.record] }).wakeEvwaits
        p.cluster fun _ => true) := by
  simp only [execEventPost, hf, hh, ho, Bool.false_eq_true, if_false]

section
variable {s : State} {n k o : Nat} (hw : (s.seq n).status = .blocked (.evwait (some k)) o)
include hw

/-- An `evwait` whose limit has passed ends (R379). -/
theorem execEvwaitTimeout_ends (hk : k ≤ (s.tickOf (unitOfSeq n)).toNat) : execEvwaitTimeout n s = .next (s.wake (.seq n)) := by
  simp only [execEvwaitTimeout, State.wakeEvwaits, hw, Option.any_some, hk, decide_true, if_true]

/-- An `evwait` within its limit goes on. -/
theorem execEvwaitTimeout_waits (hk : (s.tickOf (unitOfSeq n)).toNat < k) : execEvwaitTimeout n s = .next s := by
  simp only [execEvwaitTimeout, State.wakeEvwaits, hw, Option.any_some, Nat.not_le.2 hk, decide_false, Bool.false_eq_true, if_false]

end

/-- Settles O50: each arrival is its update under the conditions of its clause, which leave the state where they fail. -/
theorem trafficArrivesAndRecordsArePosted : Obligations.TrafficArrivesAndRecordsArePosted := by
  refine ⟨?_, ?_, ?_, ?_, ?_, ?_, ?_, ?_, ?_, ?_⟩
  · exact fun _ _ hf hz hc => execSlackExhausted_exhausts hf hz hc
  · exact fun _ _ _ hn => ⟨fun _ hp => execPacketService_leaves hn hp, fun _ _ _ hp => execPacketService_moves hn hp⟩
  · exact fun _ _ h => execPacketService_held h
  · exact fun _ _ _ _ hm hk hp => execCoalesceWindowClose_closes hm hk hp
  · exact fun _ _ _ _ hf hd hh => ⟨execPromotionArrival_last hf hd hh, execPromotionArrival_more hf hd hh⟩
  · exact fun _ _ _ hf hp hh ho => execRemoteWriteAck_performs hf hp hh ho
  · exact fun _ _ _ _ hd hz => ⟨execCacheEviction_clean hd hz, execCacheEviction_dirty hd hz⟩
  · exact fun _ _ _ _ hf hc hh => ⟨execInvalidationReachesCore_more hf hc hh, fun hr _ hu => execInvalidationReachesCore_last hf hc hh hr hu⟩
  · exact fun _ _ _ hf hh ho => execEventPost_joins hf hh ho
  · exact fun _ _ _ _ hw => ⟨execEvwaitTimeout_ends hw, execEvwaitTimeout_waits hw⟩

end Sys2Proof.Machine
end

section
/-! The bytes of a place (R242 to R250, R267, R384): the point that a read takes them from, and what a clean write leaves to be read. -/

namespace Sys2Proof.Machine

/-! ## Reads (R243, R244, R249, R250, R267) -/

/-- The core whose L1 may serve a read that a cache resolves: weak, of a page that L1s may hold, and without the hint that passes them (R249, R265). -/
def Access.l1Core (a : Access) : Option Nat := if a.strong || a.cp != 0#2 || a.hint == 2#2 then none else a.core

theorem core_of_l1Core {a : Access} {c : Nat} (h : a.l1Core = some c) : a.core = some c := by
  unfold Access.l1Core at h
  split at h
  · cases h
  · exact h

/-- The bytes that an access takes of its sector of a memory. -/
theorem take_sectorOf (a : Access) (m : List Host.Cell) {k : Nat} (hs : a.pa % 128 + a.size ≤ 128) (hk : k < a.size) :
    BitVec.ofNat 8 (a.take (sectorOf m (a.pa / 128)) / 256 ^ k) = memGet m (a.pa + k) := by
  rw [take_byte a _ k hk, byteOf_sectorOf m _ _ (by omega)]
  congr 1
  omega

section
variable {s : State} {a : Access} (hp : a.peer = none) (hr : regionOf a.pa ≠ .scratch)
include hp hr

/-- A read that resolves at the memory side takes the number that is there once the die's copy is written back (R267). -/
theorem read_aside (h : a.aside = true) : (s.read a).2.1 = a.take (sectorOf (s.writeBack a.die (a.pa / 128)).mem (a.pa / 128)) := by
  rw [read_home hp hr, key_of_home hp]
  simp only [h, if_true, evict_mem]

/-- A read that an L1 line serves takes the line's bytes (R249). -/
theorem read_line (h : a.aside = false) {c : Nat} {x : L1Line} (hc : a.l1Core = some c)
    (hx : (s.core c).l1.find? (fun l => l.key = a.pa / 128) = some x) : (s.read a).2.1 = a.take x.data := by
  unfold Access.l1Core at hc
  rw [read_home hp hr, key_of_home hp]
  simp only [h, hc, hx, Bool.false_eq_true, if_false]

/-- A byte of a read that neither an L1 line nor a fill of one serves is the die's (R243, R249, R250). -/
theorem read_dieByte (h : a.aside = false) (hz : ∀ z, (s.die a.die).sector? (a.pa / 128) = some z → z.shared = a.shared)
    (hl : ∀ c, a.l1Core = some c → (s.core c).l1.find? (fun l => l.key = a.pa / 128) = none ∧
      (s.core c).misses.find? (fun m => m.shares (a.pa / 128) a.who s.tick s.free) = none)
    {k : Nat} (hs : a.pa % 128 + a.size ≤ 128) (hk : k < a.size) :
    BitVec.ofNat 8 ((s.read a).2.1 / 256 ^ k) = s.dieByte a.die (a.pa + k) := by
  have hfill : ∃ need : BitVec 128, need.getLsbD (a.pa % 128 + k) = true ∧
      (s.read a).2.1 = a.take (s.dieRead a.die (a.pa / 128) a.shared need).2.1 := by
    rw [read_home hp hr, key_of_home hp]
    unfold Access.l1Core at hl
    simp only [h, Bool.false_eq_true, if_false]
    split
    · exact ⟨_, mask_bit a k hs hk, rfl⟩
    · next c hc =>
      obtain ⟨h1, h2⟩ := hl c hc
      simp only [h1, h2]
      exact ⟨_, by rw [BitVec.getLsbD_allOnes, decide_eq_true (by omega)], rfl⟩
  obtain ⟨need, hb, e⟩ := hfill
  rw [e, take_byte a _ k hk, dieRead_data s _ _ _ _ hz _ (by omega) hb]
  congr 1
  omega

end

/-- Settles O60: a read takes the sector of its point, and a byte of what it takes is that of the sector. -/
theorem readsTakeTheBytesOfTheirPoint : Obligations.ReadsTakeTheBytesOfTheirPoint := by
  intro s a k hp hd hr hs hk
  refine ⟨fun ha => ?_, fun ha hz hl => ?_⟩
  · rw [read_aside hp hr ha, take_sectorOf a _ hs hk]
  · exact read_dieByte hp hr ha hz (fun c hc => hl c (core_of_l1Core hc)) hs hk

/-! ## Clean writes (R242, R243, R249, R267, R384) -/

theorem write_scratch {s : State} {a : Access} (hr : regionOf a.pa = .scratch) (mask : BitVec 128) (v : BitVec 1024) (brings : Bool) :
    s.write a mask v brings = s.modDie a.die fun d =>
      { d with scratch := memPutMasked d.scratch (128 * ((a.pa - scratchBase) / 128)) mask v 128
               scratchPoison := poisonAfter d.scratchPoison ((a.pa - scratchBase) / 128) mask brings } := by
  unfold State.write
  rw [hr]

theorem read_scratch {s : State} {a : Access} (hp : a.peer = none) (hr : regionOf a.pa = .scratch) :
    (s.read a).2.1 = memNat (s.die a.die).scratch (a.pa - scratchBase) a.size := by
  unfold State.read
  rw [if_neg (by simp [hp]), hr]

theorem scratchBase_le_of_region {pa : Nat} (h : regionOf pa = .scratch) : scratchBase ≤ pa := by
  unfold regionOf at h
  split at h
  · cases h
  · split at h
    · next hs => exact hs.1
    · split at h <;> cases h

/-- The copy of a sector that a die has written back is clean (R245). -/
theorem writeBack_clean (s : State) {die k : Nat} (h : die < 9) {x : Sector} (hx : ((s.writeBack die k).die die).sector? k = some x) :
    x.dirty = 0#128 := by
  unfold State.writeBack at hx
  cases hz : (s.die die).sector? k with
  | none => simp only [hz, reduceCtorEq] at hx
  | some z =>
    by_cases hd : z.dirty = 0#128
    · simp only [hz, hd, if_true, Option.some.injEq] at hx
      rw [← hx, hd]
    · obtain rfl := Die.sector?_key hz
      simp only [hz, hd, if_false, State.die_modDie _ _ _ h] at hx
      rw [Die.sector?_setSector _ { z with dirty := 0#128, poison := z.poison || z.carried, carried := false }, Option.some.injEq] at hx
      rw [← hx]

/-- To write back a sector that has been written back leaves the memory side. -/
theorem writeBack_writeBack_mem (s : State) {die : Nat} (h : die < 9) (k : Nat) :
    ((s.writeBack die k).writeBack die k).mem = (s.writeBack die k).mem := by
  rw [writeBack_mem (s.writeBack die k)]
  cases hz : ((s.writeBack die k).die die).sector? k with
  | none => rfl
  | some x => simp only [writeBack_clean s h hz, if_true]

theorem die_congr {s t : State} (h : t.dies = s.dies) (n : Nat) : t.die n = s.die n := by
  unfold State.die
  rw [h]

theorem writeBack_mem_congr {s t : State} (h1 : t.mem = s.mem) (h2 : t.dies = s.dies) (die k : Nat) :
    (t.writeBack die k).mem = (s.writeBack die k).mem := by
  rw [writeBack_mem, writeBack_mem, die_congr h2, h1]

theorem writeBack_mem_absent {s : State} {die k : Nat} (h : (s.die die).sector? k = none) : (s.writeBack die k).mem = s.mem := by
  rw [writeBack_mem, h]

theorem evict_absent (s : State) {die : Nat} (h : die < 9) (k : Nat) : ((s.evict die k).die die).sector? k = none := by
  unfold State.evict
  rw [State.die_modDie _ _ _ h]
  simp [Die.sector?]

/-- The memory side and the dies after a write of a page that the die may cache: the die's copy takes the bytes, and a write that resolves at the memory side writes it back. -/
theorem write_cached_dies {s : State} {a : Access} (hp : a.peer = none) (hr : regionOf a.pa ≠ .scratch) (hc : a.cp ≠ 2#2) (mask : BitVec 128)
    (v : BitVec 1024) (brings : Bool) :
    let t := s.dieWrite a.die (a.pa / 128) a.shared mask v brings
    let u := if a.aside then t.writeBack a.die (a.pa / 128) else t
    (s.write a mask v brings).mem = u.mem ∧ (s.write a mask v brings).dies = u.dies := by
  rw [write_home hr, key_of_home hp]
  simp only [if_neg hc]
  cases a.core with
  | none => exact ⟨rfl, rfl⟩
  | some c => cases brings <;> simp

/-- The memory side and the dies after a write of a page of memory-side policy: the die keeps no copy, and the memory side takes the bytes (R384). -/
theorem write_aside_dies {s : State} {a : Access} (hp : a.peer = none) (hr : regionOf a.pa ≠ .scratch) (hc : a.cp = 2#2) (mask : BitVec 128)
    (v : BitVec 1024) (brings : Bool) :
    let t := s.evict a.die (a.pa / 128)
    (s.write a mask v brings).mem = memPutMasked t.mem (128 * (a.pa / 128)) mask v 128 ∧ (s.write a mask v brings).dies = t.dies := by
  rw [write_home hr, key_of_home hp]
  simp only [if_pos hc]
  cases a.core with
  | none => exact ⟨rfl, rfl⟩
  | some c => exact ⟨by rw [l1Drop_mem, l1Close_mem]; rfl, by rw [l1Drop_dies, l1Close_dies]; rfl⟩

/-- A byte of a sector that a memory has taken under a mask. -/
theorem memGet_memPutMasked_sector {m : List Host.Cell} (k : Nat) {mask : BitVec 128} (d : BitVec 1024) {i : Nat} (hm : Memory.wf m = true)
    (hi : i < 128) (hb : mask.getLsbD i = true) : memGet (memPutMasked m (128 * k) mask d 128) (128 * k + i) = byteOf d i := by
  rw [memGet_memPutMasked _ _ _ _ _ hm, Nat.add_sub_cancel_left, if_pos ⟨by omega, by omega, hb⟩]

/-- A byte that a die's cache takes is the memory side's once it is written back (R245). -/
theorem memGet_writeBack_dieWrite {s : State} {die : Nat} (h : die < 9) (hm : Memory.wf s.mem = true) (k : Nat) (shared : Bool)
    {mask : BitVec 128} (v : BitVec 1024) (brings : Bool) {i : Nat} (hi : i < 128) (hb : mask.getLsbD i = true) :
    memGet ((s.dieWrite die k shared mask v brings).writeBack die k).mem (128 * k + i) = byteOf v i := by
  obtain ⟨x, hx, -, h1, h2⟩ := dieWrite_sector s die k shared mask v brings h
  have hd : x.dirty.getLsbD i = true ∧ byteOf x.data i = byteOf v i := by
    cases hz : (s.die die).sector? k with
    | none =>
      obtain ⟨d1, d2, -⟩ := h2 hz
      rw [d1, d2, byteOf_mergeSector _ _ _ _ hi, if_pos hb]
      exact ⟨hb, rfl⟩
    | some z =>
      obtain ⟨d1, d2, -⟩ := h1 z hz
      rw [d1, d2, byteOf_mergeSector _ _ _ _ hi, if_pos hb, BitVec.getLsbD_or, hb, Bool.or_true]
      exact ⟨rfl, rfl⟩
  obtain ⟨hdirty, hdata⟩ := hd
  have hn : x.dirty ≠ 0#128 := fun e => by rw [e, BitVec.getLsbD_zero] at hdirty; cases hdirty
  rw [writeBack_mem, hx]
  simp only [if_neg hn]
  rw [memGet_memPutMasked_sector k x.data (m := (s.dieWrite die k shared mask v brings).mem) hm hi hdirty, hdata]

/-- A byte that is written to a place that resolves at the memory side is there once the die's copy is written back (R267). -/
theorem memGet_write_aside {s : State} {a : Access} (hp : a.peer = none) (hr : regionOf a.pa ≠ .scratch) (ha : a.aside = true)
    (h : a.die < 9) (hm : Memory.wf s.mem = true) {mask : BitVec 128} (v : BitVec 1024) (brings : Bool) {i : Nat} (hi : i < 128)
    (hb : mask.getLsbD i = true) :
    memGet ((s.write a mask v brings).writeBack a.die (a.pa / 128)).mem (128 * (a.pa / 128) + i) = byteOf v i := by
  by_cases hc : a.cp = 2#2
  · obtain ⟨h1, h2⟩ := write_aside_dies (s := s) hp hr hc mask v brings
    rw [writeBack_mem_absent (by rw [die_congr h2]; exact evict_absent s h _), h1]
    exact memGet_memPutMasked_sector _ _ (by rw [evict_mem]; exact writeBack_wf _ _ hm) hi hb
  · obtain ⟨h1, h2⟩ := write_cached_dies (s := s) hp hr hc mask v brings
    simp only [ha, if_true] at h1 h2
    rw [writeBack_mem_congr h1 h2, writeBack_writeBack_mem _ h]
    exact memGet_writeBack_dieWrite h hm _ _ _ _ hi hb

/-- An L1 line that a core holds after written bytes have been merged into it holds them (R249). -/
theorem l1Update_line {s : State} {c k : Nat} {mask : BitVec 128} {v : BitVec 1024} {x : L1Line}
    (hx : ((s.l1Update c k mask v).core c).l1.find? (fun l => l.key = k) = some x) {i : Nat} (hi : i < 128) (hb : mask.getLsbD i = true) :
    byteOf x.data i = byteOf v i := by
  unfold State.l1Update at hx
  dsimp only at hx
  split at hx
  · rw [State.modCore, State.core_setCore_at _ _ c (by simp)] at hx
    dsimp only at hx
    rw [find?_replaceIf _ _ (by simp), Option.map_eq_some_iff] at hx
    obtain ⟨y, -, rfl⟩ := hx
    rw [byteOf_mergeSector _ _ _ _ hi, if_pos hb]
  · next hn =>
    have hany := List.any_eq_true.2 ⟨x, List.mem_of_find?_eq_some hx, List.find?_some hx⟩
    exact absurd hany hn

/-- A byte that a clean write lays at a place that the die's cache resolves is read back, from the core's L1 line or from the die's copy (R243, R249). -/
theorem read_write_cached {s : State} {a : Access} (hp : a.peer = none) (hr : regionOf a.pa ≠ .scratch) (ha : a.aside = false)
    (h : a.die < 9) (v : Nat) {k : Nat} (hs : a.pa % 128 + a.size ≤ 128) (hk : k < a.size) :
    BitVec.ofNat 8 (((s.write a a.mask (a.lay v) false).read a).2.1 / 256 ^ k) = BitVec.ofNat 8 (v / 256 ^ k) := by
  have hc : a.cp ≠ 2#2 := fun e => by simp [Access.aside, e] at ha
  obtain ⟨h1, h2⟩ := write_cached_dies (s := s) hp hr hc a.mask (a.lay v) false
  simp only [ha, Bool.false_eq_true, if_false] at h1 h2
  have hb := mask_bit a k hs hk
  have hl1 : ∀ c, a.core = some c → (s.write a a.mask (a.lay v) false) =
      (s.dieWrite a.die (a.pa / 128) a.shared a.mask (a.lay v) false).l1Update c (a.pa / 128) a.mask (a.lay v) := fun c hcore => by
    rw [write_home hr, key_of_home hp]
    simp only [if_neg hc, ha, hcore, Bool.false_eq_true, if_false]
  by_cases hx : ∃ c x, a.l1Core = some c ∧ ((s.write a a.mask (a.lay v) false).core c).l1.find? (fun l => l.key = a.pa / 128) = some x
  · obtain ⟨c, x, hcore, hx⟩ := hx
    rw [read_line hp hr ha hcore hx, take_byte a _ k hk]
    rw [hl1 c (core_of_l1Core hcore)] at hx
    rw [l1Update_line hx (by omega) hb, lay_byte a v k (by omega)]
  · obtain ⟨y, hy, hsh, -⟩ := dieWrite_sector s a.die (a.pa / 128) a.shared a.mask (a.lay v) false h
    rw [read_dieByte hp hr ha _ _ hs hk, dieByte_congr h1 h2, show a.pa + k = 128 * (a.pa / 128) + (a.pa % 128 + k) by omega,
      dieByte_dieWrite s _ _ _ _ _ _ h _ (by omega) hb, lay_byte a v k (by omega)]
    · intro z hz
      rw [die_congr h2, hy] at hz
      cases hz
      exact hsh
    · intro c hcore
      refine ⟨Option.eq_none_iff_forall_ne_some.2 fun x e => hx ⟨c, x, hcore, e⟩, ?_⟩
      rw [hl1 c (core_of_l1Core hcore)]
      exact l1Update_shares _ _ _ _ _ _ _ _

/-- A byte that a clean write lays in a die's scratch is read back (R246). -/
theorem read_write_scratch {s : State} {a : Access} (hp : a.peer = none) (hr : regionOf a.pa = .scratch) (h : a.die < 9)
    (hm : Memory.wf (s.die a.die).scratch = true) (v : Nat) {k : Nat} (hs : a.pa % 128 + a.size ≤ 128) (hk : k < a.size) :
    BitVec.ofNat 8 (((s.write a a.mask (a.lay v) false).read a).2.1 / 256 ^ k) = BitVec.ofNat 8 (v / 256 ^ k) := by
  have hge := scratchBase_le_of_region hr
  have ho : (a.pa - scratchBase) % 128 = a.pa % 128 := by unfold scratchBase at *; omega
  have e : a.pa - scratchBase + k = 128 * ((a.pa - scratchBase) / 128) + (a.pa % 128 + k) := by omega
  rw [read_scratch hp hr, memNat_byte _ _ _ _ hk, write_scratch hr, State.die_modDie _ _ _ h, e]
  exact (memGet_memPutMasked_sector _ _ hm (by omega) (mask_bit a k hs hk)).trans (lay_byte a v k (by omega))

/-- A byte that a clean write lays is read back from the point that both resolve at. -/
theorem read_write_byte {s : State} (ht : s.tidy) {a : Access} (hp : a.peer = none) (h : a.die < 9) (v : Nat) {k : Nat}
    (hs : a.pa % 128 + a.size ≤ 128) (hk : k < a.size) :
    BitVec.ofNat 8 (((s.write a a.mask (a.lay v) false).read a).2.1 / 256 ^ k) = BitVec.ofNat 8 (v / 256 ^ k) := by
  obtain ⟨hm, hscr, -⟩ := ht
  by_cases hr : regionOf a.pa = .scratch
  · exact read_write_scratch hp hr h (by rw [State.die, vget, dif_pos h]; exact hscr ⟨a.die, h⟩) v hs hk
  · cases ha : a.aside with
    | true =>
      rw [read_aside hp hr ha, take_sectorOf a _ hs hk, show a.pa + k = 128 * (a.pa / 128) + (a.pa % 128 + k) by omega,
        memGet_write_aside hp hr ha h hm _ _ (by omega) (mask_bit a k hs hk), lay_byte a v k (by omega)]
    | false => exact read_write_cached hp hr ha h v hs hk

/-- A read gives a number of the access's bytes. -/
theorem read_lt (s : State) (a : Access) : (s.read a).2.1 < 256 ^ a.size := by
  unfold State.read
  split
  · exact take_lt a _
  · split
    · exact memNat_lt _ _ _
    · dsimp only
      split
      · exact take_lt a _
      · split
        · exact take_lt a _
        · split
          · exact take_lt a _
          · split <;> exact take_lt a _

theorem byte_mod_pow (v : Nat) {k n : Nat} (h : k < n) : BitVec.ofNat 8 (v % 256 ^ n / 256 ^ k) = BitVec.ofNat 8 (v / 256 ^ k) := by
  obtain ⟨m, rfl⟩ : ∃ m, n = k + (m + 1) := ⟨n - k - 1, by omega⟩
  apply BitVec.eq_of_toNat_eq
  rw [BitVec.toNat_ofNat, BitVec.toNat_ofNat, Nat.pow_add, Nat.mod_mul_right_div_self,
    Nat.mod_mod_of_dvd _ (Dvd.intro_left (256 ^ m) (Nat.pow_succ 256 m).symm)]

/-- Settles O59: each byte of the number is read back. -/
theorem storedNumbersAreReadBack : Obligations.StoredNumbersAreReadBack := by
  intro s a v ht hp hd hs
  rw [show (2 : Nat) ^ (8 * a.size) = 256 ^ a.size by rw [Nat.pow_mul]]
  refine eq_of_bytes (read_lt _ a) (Nat.mod_lt _ (by positivity)) fun k hk => ?_
  rw [read_write_byte ht hp hd v hs hk, byte_mod_pow v hk]

end Sys2Proof.Machine
end

section
/-! Weak loads and stores of pages that the die may cache (R243, R244, R249, R268, R302, R303, R306, R307): each completes, and what it leaves of the memories. -/

namespace Sys2Proof.Machine

/-! ## Steps that leave the memories -/

/-- `t` has the memories of `s`: the memory side with its poison, the dies with their caches and scratch, the remote operations, and the windows of the teams. -/
structure memoriesKept (s t : State) : Prop where
  mem : t.mem = s.mem
  memPoison : t.memPoison = s.memPoison
  remote : t.remote = s.remote
  dies : t.dies = s.dies
  windows : t.teams.map (fun y => (y.tid, y.window, y.winPoison)) = s.teams.map (fun y => (y.tid, y.window, y.winPoison))

theorem memoriesKept.trans {s t u : State} (h : memoriesKept s t) (k : memoriesKept t u) : memoriesKept s u :=
  ⟨k.mem.trans h.mem, k.memPoison.trans h.memPoison, k.remote.trans h.remote, k.dies.trans h.dies, k.windows.trans h.windows⟩

theorem memoriesKept_modGang (s : State) (t g : Nat) (f : Gang → Gang) : memoriesKept s (s.modGang t g f) :=
  ⟨rfl, rfl, rfl, rfl, windows_modGang s t g f⟩

theorem memoriesKept_moveOn (x : Exec) (len : Nat) (s : State) : memoriesKept s (moveOn x len s) := by
  unfold moveOn
  cases x.u with
  | gang t g => exact memoriesKept_modGang _ _ _ _
  | seq n => exact ⟨rfl, rfl, rfl, rfl, rfl⟩

theorem memoriesKept_looked {s t : State} (h : looked s t) : memoriesKept s t := by
  rw [looked] at h
  rw [h]
  exact ⟨rfl, rfl, rfl, rfl, rfl⟩

theorem memoriesKept_deliver (s : State) (x : Exec) (r : Result) : memoriesKept s (s.deliver x r) := by
  unfold State.deliver
  cases x.u with
  | gang t g => exact memoriesKept_modGang _ _ _ _
  | seq n => exact ⟨rfl, rfl, rfl, rfl, rfl⟩

theorem memoriesKept_finish (x : Exec) (s : State) : memoriesKept s (finish x s) := by
  unfold finish
  cases x.u with
  | gang t g => exact ⟨rfl, rfl, rfl, rfl, windows_modGang _ _ _ _⟩
  | seq n => exact ⟨rfl, rfl, rfl, rfl, rfl⟩

/-- What the checks of the accesses of an instruction leave of the memories. -/
theorem memoriesKept_accesses {x : Exec} {e : Env} {s s1 : State} {acc : BitVec 2} {size align : Nat} {more : List (Operand × Mask)}
    {r : Except Trap (List (Point × Access))} (h : e.accesses (moveOn x 16 s) acc size align more = (s1, r)) : memoriesKept s s1 := by
  have hl := looked_accesses e (moveOn x 16 s) acc size align more
  rw [h] at hl
  exact (memoriesKept_moveOn x 16 s).trans (memoriesKept_looked hl)

/-! ## Weak loads (R306) -/

/-- A weak load or store neither releases nor acquires (R268). -/
theorem effectsOf_weak {md : BitVec 11} (h : mdOrder md = 0#2) (load : Bool) : (effectsOf load md).rel = false ∧ (effectsOf load md).acq = false := by
  simp [effectsOf, h]

/-- `ld` and `ldg` are the load of global memory under their opcodes. -/
theorem exec_load {i : Instr} {op : BitVec 8} {w : Fields} (hi : (i = .ld w ∧ op = 0x80#8) ∨ (i = .ldg w ∧ op = 0x8E#8)) (s : State) :
    exec i s = loadGlobal op w s := by
  obtain ⟨rfl, rfl⟩ | ⟨rfl, rfl⟩ := hi <;> rfl

/-- A weak load that promotes no die and has no remote operation of its own to wait for reads its lanes and leaves one result outstanding. -/
theorem loadGlobal_weak {w : Fields} {op : BitVec 8} {s s1 : State} {x : Exec} {v : Gang} {as : List (Point × Access)}
    (h : Issues s (kindMem false true) op w x) (hs : x.seq = false) (hv : s.gang? x.t x.g = some v) (hf : w.fn ≠ 1#4)
    (hw : mdOrder w.md = 0#2)
    (ha : ((moveOn x 16 s).env x (v.moved x 16)).accesses (moveOn x 16 s) accRead (mdBytes w.md) (mdBytes w.md) [] = (s1, .ok as))
    (ho : ∀ p ∈ as, s1.awaitsOwn x p.2 = false) :
    ∃ r, loadGlobal op w s = .next (finish x ((s1.readLanes as []).1.deliver x r)) := by
  obtain ⟨hrel, hacq⟩ := effectsOf_weak hw true
  have hany : (as.any fun p => s1.awaitsOwn x p.2) = false := by simpa using ho
  exact ⟨_, issue_memBody h hs hv (by
    simp only [ha, env_x, hany, before_none hrel, after_none hacq, if_neg hf, Bool.false_eq_true, if_false]; rfl)⟩

/-- The accesses of a weak load of pages that the die may cache resolve at its caches (R267). -/
theorem aside_of_weak {a : Access} (hw : a.strong = false) (hc : a.cp ≠ 2#2) : a.aside = false := by
  simp [Access.aside, hw, hc]

/-- Settles O57: the checks, the result and the end of the issue keep the memories, and the reads change copies alone. -/
theorem cachedLoadsChangeNoByte : Obligations.CachedLoadsChangeNoByte := by
  intro i w op s x v s1 as hi h hs hv hf hw ha ho hc
  obtain ⟨r, hn⟩ := loadGlobal_weak h hs hv hf hw ha ho
  obtain ⟨-, hxw, -⟩ := execOf_u h.2.1
  have hside : ∀ p ∈ as, p.2.aside = false := fun p hp => by
    obtain ⟨hst, -⟩ := accesses_kind ha p hp
    exact aside_of_weak (by rw [hst, env_x, hxw, hw]; rfl) (hc p hp)
  have hb := memoriesKept_accesses ha
  have hr := readKept_readLanes as s1 [] hside
  have he := (memoriesKept_deliver (s1.readLanes as []).1 x r).trans (memoriesKept_finish x _)
  refine ⟨_, (exec_load hi s).trans hn, he.mem.trans (hr.mem.trans hb.mem), he.memPoison.trans (hr.memPoison.trans hb.memPoison),
    he.remote.trans (hr.remote.trans hb.remote), fun d => ?_, fun d k z hz => ?_, fun d k z' hz' hz => ?_, ?_⟩
  · rw [die_congr he.dies, hr.scratch, die_congr hb.dies]
  · rw [die_congr he.dies]
    exact hr.dirty d k z (by rw [die_congr hb.dies]; exact hz)
  · rw [die_congr he.dies] at hz'
    exact hr.clean d k z' hz' (by rw [die_congr hb.dies]; exact hz)
  · rw [he.windows, hr.teams, hb.windows]

/-! ## Weak stores (R307) -/

/-- A weak access of `n` bytes of one sector of a global page of this module that die `d` may cache, whose copy of the sector has the page's kind. -/
structure CachedAccess (s : State) (d n : Nat) (a : Access) : Prop where
  home : a.peer = none
  global : regionOf a.pa = .global
  policy : a.cp ≠ 2#2
  weak : a.strong = false
  die : a.die = d
  size : a.size = n
  fits : a.pa % 128 + n ≤ 128
  shared : ∀ z, (s.die d).sector? (a.pa / 128) = some z → z.shared = a.shared

/-- The bytes that such an access stores to. -/
theorem CachedAccess.covers_iff {s : State} {die size : Nat} {a : Access} (h : CachedAccess s die size a) (b : Nat) :
    a.covers b ↔ a.pa ≤ b ∧ b < a.pa + size := by
  have hf := h.fits
  rw [Access.covers, key_of_home h.home, Access.mask, h.size, getLsbD_byteRun _ _ _ (Nat.mod_lt _ (by decide)), decide_eq_true_eq]
  omega

section
variable {s : State} {die size : Nat} {as : List (Point × Access)} (h : ∀ p ∈ as, CachedAccess s die size p.2) (val : Nat → Nat)
include h

theorem requestsOf_cached : ∀ r ∈ requestsOf val as [], Cached r die := by
  intro r hr
  obtain ⟨p, hp, e⟩ | ⟨q, hq, -⟩ := mem_requestsOf hr
  · have a := h p hp
    rw [← e] at a
    exact ⟨a.home, a.global, a.policy, a.weak, a.die⟩
  · cases hq

theorem requestsOf_shared : ∀ r ∈ requestsOf val as [], ∀ z, (s.die die).sector? (r.a.key / 128) = some z → z.shared = r.a.shared := by
  intro r hr z hz
  obtain ⟨p, hp, e⟩ | ⟨q, hq, -⟩ := mem_requestsOf hr
  · have a := h p hp
    rw [← e] at a
    rw [key_of_home a.home] at hz
    exact a.shared z hz
  · cases hq

theorem storedByte_outside {b : Nat} (hb : ∀ p ∈ as, b < p.2.pa ∨ p.2.pa + size ≤ b) : storedByte (requestsOf val as []) b = none :=
  storedByte_none val as [] b fun p hp hc => by
    rw [(h p hp).covers_iff] at hc
    have := hb p hp
    omega

theorem storedByte_lane {p : Point × Access} (hp : p ∈ as) (hsep : ∀ q ∈ as, q ≠ p → q.2.pa + size ≤ p.2.pa ∨ p.2.pa + size ≤ q.2.pa)
    {k : Nat} (hk : k < size) : storedByte (requestsOf val as []) (p.2.pa + k) = some (BitVec.ofNat 8 (val p.1.lane / 256 ^ k)) := by
  have hf := (h p hp).fits
  have hc := ((h p hp).covers_iff (p.2.pa + k)).2 (by omega)
  rw [storedByte_some val as [] (p.2.pa + k) p hp hc fun q hq hne hc => by
    rw [(h q hq).covers_iff] at hc
    have := hsep q hq hne
    omega]
  rw [show (p.2.pa + k) % 128 = p.2.pa % 128 + k by omega, lay_byte p.2 _ k (by omega)]

end

/-- A weak store whose checks pass stores the requests of its lanes. -/
theorem exec_store_weak {i : Instr} {op : BitVec 8} {w : Fields} {s s1 : State} {x : Exec} {v : Gang} {as : List (Point × Access)}
    (hi : (i = .st w ∧ op = 0x81#8) ∨ (i = .stg w ∧ op = 0x8F#8)) (h : Issues s (kindMem false false) op w x) (hs : x.seq = false)
    (hv : s.gang? x.t x.g = some v) (hw : mdOrder w.md = 0#2) {e : Env} (he : e = (moveOn x 16 s).env x (v.moved x 16)) {d : Src}
    (hd : d = e.data w.c (mdBytes w.md))
    (ha : e.accesses (moveOn x 16 s) accWrite (mdBytes w.md) (mdBytes w.md) [(w.c, d.poison)] = (s1, .ok as)) :
    exec i s = .next (finish x (storeAll x (effectsOf false w.md) (requestsOf (fun n => d.val (Fin.ofNat 32 n)) as []) s1)) := by
  subst he hd
  obtain ⟨hrel, hacq⟩ := effectsOf_weak hw false
  have hn := (globalStoresStoreTheirRequests i w op s x v hi h hs hv).1 s1 s1 as ha (before_none hrel x s1)
  simpa only [holdRemote, Effects.holds, Effects.settle, hrel, after_none hacq, Bool.false_and, Bool.false_eq_true, if_false, ite_self,
    requestsOf] using hn

/-- Settles O58: the requests of the lanes are cached ones, whose bytes are those that the lanes' accesses cover. -/
theorem cachedStoresWriteTheirBytesOnly : Obligations.CachedStoresWriteTheirBytesOnly := by
  intro i w op s x v s1 as hi h hs hv hw m e size d ha hg
  obtain ⟨-, hxw, -⟩ := execOf_u h.2.1
  have hb := memoriesKept_accesses ha
  have hc : ∀ p ∈ as, CachedAccess s1 x.die size p.2 := fun p hp => by
    obtain ⟨hst, hdie, hsize⟩ := accesses_kind ha p hp
    obtain ⟨hpeer, hreg, hcp, hfit, hsh⟩ := hg p hp
    exact ⟨hpeer, hreg, hcp, by simpa only [e, env_x, hxw, hw, ne_eq, not_true, decide_false] using hst, hdie, hsize, hfit,
      by rw [die_congr hb.dies]; exact hsh⟩
  let val := fun n => d.val (Fin.ofNat 32 n)
  obtain ⟨k1, k2, -, k3, k4, k5⟩ := storeAll_cached x (effectsOf false w.md) x.die _ s1 (requestsOf_cached hc val)
    (requestsOf_pairwise val as [] .nil) (requestsOf_shared hc val)
  have he := memoriesKept_finish x (storeAll x (effectsOf false w.md) (requestsOf val as []) s1)
  refine ⟨_, exec_store_weak hi h hs hv hw rfl rfl ha, he.mem.trans (k1.trans hb.mem), he.memPoison.trans (k2.trans hb.memPoison),
    fun n => ?_, fun n b hout => ?_, fun p hp hsep hdie k hk => ?_⟩
  · exact (congrArg Die.scratch (die_congr he.dies n)).trans ((k3 n).trans (congrArg Die.scratch (die_congr hb.dies n)))
  · exact (dieByte_congr he.mem he.dies n b).trans
      ((k4 n b (.inr (storedByte_outside hc val hout))).trans (dieByte_congr hb.mem hb.dies n b))
  · exact (dieByte_congr he.mem he.dies _ _).trans (k5 _ _ hdie (storedByte_lane hc val hp hsep hk))

end Sys2Proof.Machine
end

section
/-! Loads and stores of windows (R251 to R253, R306, R307): what an issue answers once its checks of the offsets have passed or failed. -/

namespace Sys2Proof.Machine

/-- An offset that fails a check of a window access. -/
theorem windowAccess_trap {e : Env} {write : Bool} {size : Nat} {s s1 : State} {f : Effects} {k : Nat → List (Nat × Nat) → State → State}
    {t : Trap} (h : s.checkWindow e.x write size (s.windowTeam e) e.offsets = (s1, .error t)) :
    windowAccess e write size s f k = .error (.trap t) := by
  unfold windowAccess
  simp only [h]

/-- Settles O25: each is an issue of the gang whose sources are clean, so that the checks of the offsets decide it. -/
theorem windowLoadsAndStores : Obligations.WindowLoadsAndStores := by
  constructor
  · intro w s x v h hs hv hrel hacq m e size hc
    constructor
    · intro s1 s2 os fs os' fs' tm h1 h2 h3 z tm' h4 rs
      refine issue_memBody h hs hv ?_
      simp only [env_x, hc, e, m]
      rw [windowAccess_ok hrel hacq h1 h2 h3]
      simp only [env_x, h4, Option.map_some, Option.getD_some, rs, z, m, e, size]
    · intro s1 t h1
      refine issue_memBody_raise h hs hv (by decide) ?_
      simp only [env_x, hc, e, m]
      exact windowAccess_trap h1
  · intro w s x v h hs hv hrel hacq m e size d hc
    constructor
    · intro s1 s2 os fs os' fs' tm h1 h2 h3 bytes
      refine issue_memBody h hs hv ?_
      simp only [env_x, hc, e, m, d, size]
      rw [windowAccess_ok hrel hacq h1 h2 h3]
      simp only [env_x, bytes, m, e, d, size]
    · intro s1 t h1
      refine issue_memBody_raise h hs hv (by decide) ?_
      simp only [env_x, hc, e, m, d, size]
      exact windowAccess_trap h1

end Sys2Proof.Machine
end

section
/-! Errors, resets and the start (R260, R448, R449, R452, R453, R477, R478, R494 to R503): what each event answers, what whole-package reset keeps, and what a start's steps leave. -/

namespace Sys2Proof.Machine

/-! ## Errors (R260, R448, R449, R452, R477) -/

section
variable {s : State} {d k : Nat} {x : Sector} (h : (s.die d).sector? k = some x)
include h

/-- An uncorrectable error in a clean sector of a die's cache discards the copy (R448). -/
theorem execSectorPoison_clean (hd : x.dirty = 0#128) : execSectorPoison (.dieCopy d k) s =
    .next (s.modDie d fun e => { e with cache := e.cache.filter fun y => y.key ≠ k }) := by
  simp only [execSectorPoison, h, hd, if_true]

/-- An uncorrectable error in a dirty sector of a die's cache is a contained error of the die (R448). -/
theorem execSectorPoison_dirty (hd : x.dirty ≠ 0#128) : execSectorPoison (.dieCopy d k) s =
    .next (s.modDie d fun e => { e with error := e.error.or (some (2#8, BitVec.ofNat 16 (k / 4 % 32))) }) := by
  simp only [execSectorPoison, h, hd, if_false]

/-- A mismatch at the fill of a sector of a die's cache poisons the copy (R260). -/
theorem execSectorPoison_fill : execSectorPoison (.dieFill d k) s =
    .next { s.modDie d fun e => e.setSector { x with poison := true } with studioNotices := s.studioNotices + 1 } := by
  simp only [execSectorPoison, h]

end

theorem execSectorPoison_scratch {s : State} {d k : Nat} (h : 128 * k < scratchSize (s.die d).way) : execSectorPoison (.dieScratch d k) s =
    .next { s.modDie d fun e => { e with scratchPoison := insertNat k e.scratchPoison } with studioNotices := s.studioNotices + 1 } := by
  simp only [execSectorPoison, h, if_true]

theorem execSectorPoison_window {s : State} {t k : Nat} {tm : Team} (h : s.team? t = some tm) (hk : 128 * k < tm.winSize)
    (hr : tm.residence = .resident) : execSectorPoison (.window t k) s =
      .next { s.modTeam t fun x => { x with winPoison := insertNat k x.winPoison } with studioNotices := s.studioNotices + 1 } := by
  simp only [execSectorPoison, h, Option.any_some, hk, hr, decide_true, beq_self_eq_true, Bool.and_self, if_true]

theorem execContainedError_latches {s : State} {die : Nat} (h : (s.die die).alive = true) (cls : Byte) (u : BitVec 16) :
    execContainedError die cls u s = .next (s.modDie die fun d => { d with error := d.error.or (some (cls, u)) }) := by
  simp only [execContainedError, h, if_true]

theorem execDieFence_fences {s : State} {die : Nat} {cls : Byte} {u : BitVec 16} (ha : (s.die die).alive = true)
    (he : (s.die die).error = some (cls, u)) : execDieFence die s = .next (s.fence die cls u) := by
  simp only [execDieFence, he, ha, if_true]

theorem execUncontainedError_ends {s : State} (hp : s.powered = true) {port : Nat} (h : port < 23) (cls : Byte) (u : BitVec 16) :
    execUncontainedError port cls u s = .next (s.fatal port cls u) := by
  simp only [execUncontainedError, hp, h, and_self, if_true]

/-- Link 0 goes down: every context ends where link 1 is up to report it (R477). -/
theorem execLink0Down_answers {s : State} (h : s.link0 = true) :
    (s.link1 = true → execLink0Down s = .next { s.endAll with link0 := false, reports := s.reports + 1 }) ∧
    (s.link1 = false → execLink0Down s = .next { s with link0 := false }) := by
  constructor <;> intro h1 <;> simp [execLink0Down, h, h1]

/-! ## Resets, links and the firmware at work (R477, R494, R498, R501, R503) -/

section
variable {s : State} (hp : s.powered = true)
include hp

/-- Whole-package reset comes from PERST# and from the ground firmware's watchdog (R494). -/
theorem powered_resets : execFundamentalReset s = .next s.wholeReset ∧ execGroundWatchdogReset s = .next s.wholeReset := by
  simp only [execFundamentalReset, execGroundWatchdogReset, hp, if_true, and_self]

/-- It comes from a write of `RST` while a link is up (R494, R495). -/
theorem execRst_resets (hl : s.link0 = true ∨ s.link1 = true) : execRst s = .next s.wholeReset := by
  have h : s.linked = true := by simpa [State.linked, hp] using hl
  simp only [execRst, h, if_true]

/-- It comes after a failed start alone (R498). -/
theorem execStartFailureReset_answers :
    (s.start.failed = true → execStartFailureReset s = .next s.wholeReset) ∧
    (s.start.failed = false → execStartFailureReset s = .next s) := by
  constructor <;> intro h <;> simp [execStartFailureReset, hp, h]

theorem execHostLinkTrained_answers :
    execHostLinkTrained 0 s = .next { s with link0 := true } ∧ execHostLinkTrained 1 s = .next { s with link1 := true } := by
  simp [execHostLinkTrained, hp]

theorem execStudioRestart_ready (hr : s.start.ready = true) : execStudioRestart s = .next (s.measureImage 1 s.flash.studio) := by
  simp only [execStudioRestart, hp, hr, true_or, and_self, if_true]

theorem execAttestationRequest_ready (hr : s.start.ready = true) (hl : s.link0 = true) (nonce : BitVec 256) :
    execAttestationRequest nonce s =
      .next { s with attestation := s.reportBody nonce ++ (List.range 1280).map fun i => Config.signature (s.reportBody nonce) i } := by
  have h : s.groundRuns = true := by simp [State.groundRuns, hp, hr]
  simp only [execAttestationRequest, h, hl, and_self, if_true]

/-- Each step of a start but the last fails when its limit passes (R496). -/
theorem execStartStepTimeout_answers :
    (1 ≤ s.start.phase → s.start.phase ≤ 8 → execStartStepTimeout s = .next s.failStart) ∧
    (s.start.phase = 9 → execStartStepTimeout s = .next s) := by
  constructor
  · intro h1 h8
    simp only [execStartStepTimeout, hp, h1, h8, and_self, if_true]
  · intro h9
    simp [execStartStepTimeout, h9]

end

/-! ## The start (R496 to R498) -/

section
variable {s : State} (hp : s.powered = true) (hr : s.start.ready = false) (hs : s.start.safe = false) (hf : s.start.failed = false)
include hp hr hs hf

theorem execStart_begins (h : s.start.phase = 0) (good : Bool) (spare : Nat) :
    execStart good spare s = .next { s with start := { s.start with phase := 1, kind := s.retouches } } := by
  simp [execStart, hp, hr, hs, hf, h]

/-- The step that runs ends: its action where it succeeds, and the failure of the start where it does not. -/
theorem execStart_runs (h : s.start.phase ≠ 0) (spare : Nat) :
    (∀ r, s.startStep spare = some r → execStart true spare s = .next r) ∧
    (s.startStep spare = none → execStart true spare s = .next s.failStart) ∧ execStart false spare s = .next s.failStart := by
  refine ⟨fun r e => ?_, fun e => ?_, ?_⟩
  · simp [execStart, hp, hr, hs, hf, h, e]
  · simp [execStart, hp, hr, hs, hf, h, e]
  · simp [execStart, hp, hr, hs, hf, h]

end

/-- No start runs once one is ready, safe or failed. -/
theorem execStart_over {s : State} (h : s.start.ready = true ∨ s.start.safe = true ∨ s.start.failed = true) (good : Bool) (spare : Nat) :
    execStart good spare s = .next s := by
  unfold execStart
  exact congrArg _ (if_pos (.inr h))

/-- A start that fails counts its failure by its kind, and the third of a gesso start is the safe state (R498). -/
theorem failStart_counts (s : State) :
    s.failStart.start.step = BitVec.ofNat 8 s.start.phase ∧ s.failStart.start.phase = 0 ∧
    (s.start.kind = true → s.failStart.start.rf = raise3 s.start.rf ∧ s.failStart.start.gf = s.start.gf ∧ s.failStart.start.safe = false) ∧
    (s.start.kind = false → s.failStart.start.gf = raise3 s.start.gf ∧ s.failStart.start.rf = s.start.rf ∧
      s.failStart.start.safe = decide (raise3 s.start.gf = 3#4)) := by
  refine ⟨rfl, rfl, fun h => ?_, fun h => ?_⟩ <;> simp [State.failStart, h]

/-- Step 8 furnishes the package: its contexts, its epoch and its spare die (R14, R388, R450). -/
theorem startStep_furnishes {s : State} {spare : Nat} (h : s.start.phase = 8) {r : State} (hr : s.startStep spare = some r) :
    r.ctxs = s.flash.provision.contexts.map Ctx.reset ∧ r.epoch = 0#64 ∧ r.termWord = (if spare % 9 = 0 then 1#64 else 0#64) ∧
    (∀ d : Fin 9, r.dies[d].spare = decide (d.val = spare % 9) ∧ r.dies[d].inService = decide (d.val ≠ spare % 9)) ∧ r.start.phase = 9 := by
  simp only [State.startStep, h, Option.some.injEq] at hr
  subst hr
  refine ⟨rfl, rfl, rfl, fun d => ?_, ?_⟩
  · simp [State.furnish]
  · simp [State.furnish, h]

/-- Step 9 completes the start, with its failure counts cleared (R496, R498). -/
theorem startStep_completes {s : State} {spare : Nat} (h : s.start.phase = 9) {r : State} (hr : s.startStep spare = some r) :
    r.start.ready = true ∧ r.start.phase = 0 ∧ r.start.gf = 0#4 ∧ r.start.rf = 0#4 := by
  simp only [State.startStep, h, Option.some.injEq] at hr
  subst hr
  exact ⟨rfl, rfl, rfl, rfl⟩

/-- Settles O54: each event is its update where its cause holds, and each reset and step leaves what its definition lists. -/
theorem errorsResetsAndStarts : Obligations.ErrorsResetsAndStarts := by
  refine ⟨fun _ _ => rfl, fun _ _ _ _ h => ⟨execSectorPoison_clean h, fun hd _ => execSectorPoison_dirty h hd⟩,
    fun _ _ _ _ h => execSectorPoison_fill h, fun _ _ _ h => execSectorPoison_scratch h, fun _ _ _ _ h hk hr => execSectorPoison_window h hk hr,
    fun _ _ => rfl, fun _ _ _ _ h => execContainedError_latches h _ _, fun _ _ _ _ ha he => execDieFence_fences ha he,
    fun _ _ cls u hp h => ⟨execUncontainedError_ends hp h cls u, rfl⟩, fun _ h => execLink0Down_answers h, ?_, ?_, ?_, ?_, ?_, ?_, ?_, ?_⟩
  · exact fun s => ⟨rfl, rfl, rfl, rfl, rfl, rfl, rfl, rfl, rfl, rfl, rfl, rfl, rfl, rfl, rfl, rfl, rfl, rfl, rfl⟩
  · exact fun s => ⟨rfl, rfl, rfl, rfl, rfl⟩
  · exact fun s hp => ⟨(powered_resets hp).1, (powered_resets hp).2, execRst_resets hp, (execStartFailureReset_answers hp).1,
      (execStartFailureReset_answers hp).2, (execHostLinkTrained_answers hp).1, (execHostLinkTrained_answers hp).2,
      execStudioRestart_ready hp, fun nonce hr hl => execAttestationRequest_ready hp hr hl nonce, (execStartStepTimeout_answers hp).1,
      (execStartStepTimeout_answers hp).2⟩
  · exact fun s good spare hp hr hs hf => ⟨fun h => execStart_begins hp hr hs hf h good spare, fun h => execStart_runs hp hr hs hf h spare⟩
  · exact fun s h good spare => execStart_over h good spare
  · exact failStart_counts
  · exact fun s spare h r hr => startStep_furnishes h hr
  · exact fun s spare h r hr => startStep_completes h hr

end Sys2Proof.Machine
end

section
/-! `bar` (R425), the global loads and atomics (R306, R309 to R312), `fence`, `fpromote` and `prefetch` (R314, R315, R318): what an issue answers once its checks have passed or failed. -/

namespace Sys2Proof.Machine

/-! ## Checks that pass -/

/-- One clean source. -/
theorem consumeOnce_one {a : Operand} {p : Bool} (h : p = false) : consumeOnce [(a, p)] = none :=
  consumeOnce_clean fun _ hq => List.mem_singleton.1 hq ▸ h

/-- Two clean sources. -/
theorem consumeOnce_two {a b : Operand} {p q : Bool} (hp : p = false) (hq : q = false) : consumeOnce [(a, p), (b, q)] = none := by
  subst hp hq
  rfl

/-! ## `bar` -/

/-- A `bar` whose release is done counts its arrival, blocks or goes on, and serves its barrier. -/
theorem execBar_arrives {w : Fields} {s s1 m : State} {x : Exec} {b : Nat} (h : Issues s { kindPlain with conv := true } 0xD5#8 w x)
    (hb : b = (w.imm.extractLsb' 0 4).toNat) (hr : releaseAt x 0#3 (moveOn x 16 s) = .ok s1)
    (hm : m = s1.modTeam x.t fun tm =>
      { tm with barriers := vset tm.barriers b ((vget tm.barriers b ⟨0, 0, false, false⟩).arrive (w.imm.extractLsb' 8 6).toNat tm.gangsLeft) }) :
    execBar w s = .next (finish x ((if w.fn = 1#4 then m else blockUnit x (.bar b) m).serveBarrier x.t b)) := by
  subst hb hm
  exact issue_next h (by simp only [hr])

/-- Settles O21: past the release the body of `bar` has no other way to stop. -/
theorem barCountsArrivals : Obligations.BarCountsArrivals :=
  fun _ _ _ h _ hr => execBar_arrives h rfl hr rfl

/-! ## `ld` and `ldg` -/

section
variable {op : BitVec 8} {w : Fields} {s s1 : State} {x : Exec} {v : Gang} (h : Issues s (kindMem false true) op w x) (hs : x.seq = false)
  (hv : s.gang? x.t x.g = some v)
include h hs hv

/-- A load whose addresses pass, that has no remote operation of its own to wait for and whose release is done, reads its lanes. -/
theorem loadGlobal_reads {s2 : State} {as : List (Point × Access)} {e : Env} (he : e = (moveOn x 16 s).env x (v.moved x 16))
    {r : State × List (Nat × Nat × Bool)} (hr : r = (if w.fn = 1#4 then s2.promoteAll x else s2).readLanes as [])
    (ha : e.accesses (moveOn x 16 s) accRead (mdBytes w.md) (mdBytes w.md) [] = (s1, .ok as)) (hw : ∀ p ∈ as, s1.awaitsOwn x p.2 = false)
    (hb : (effectsOf true w.md).before x s1 = .ok s2) :
    loadGlobal op w s = .next (finish x ((effectsOf true w.md).after x (r.1.deliver x
      ⟨e.id, loadWrites (regOf w.d) (mdBytes w.md) w.ty x.part (laneValue r.2) (lanePoison r.2), [], [], [], 0#5, .none⟩))) := by
  subst he hr
  have none_awaited : ¬ (as.any fun p => s1.awaitsOwn x p.2) = true := by simpa using hw
  exact issue_memBody h hs hv (by simp only [ha, env_x, if_neg none_awaited, hb])

/-- A load one of whose addresses fails a check traps. -/
theorem loadGlobal_traps (ho : op ≠ 0xFF#8) {t : Trap}
    (ha : ((moveOn x 16 s).env x (v.moved x 16)).accesses (moveOn x 16 s) accRead (mdBytes w.md) (mdBytes w.md) [] = (s1, .error t)) :
    loadGlobal op w s = .next (raiseTrap x t false s) :=
  issue_memBody_raise h hs hv ho (by simp only [ha])

end

/-- Settles O22: the load's body runs its checks, then its release, then its lanes, and a trap of the checks ends it before the others. -/
theorem globalLoadsLeaveAResult : Obligations.GlobalLoadsLeaveAResult := by
  intro i w op s x v hi h hs hv m e size f
  have ho : op ≠ 0xFF#8 := by obtain ⟨-, rfl⟩ | ⟨-, rfl⟩ := hi <;> decide
  rw [exec_load hi]
  exact ⟨fun _ _ _ => loadGlobal_reads h hs hv rfl rfl, fun _ _ => loadGlobal_traps h hs hv ho⟩

/-! ## `atom` and `red` -/

/-- `atom` and `red` are the atomic form under their opcodes, neither of which is that of `brk`. -/
theorem exec_atomic {i : Instr} {op : BitVec 8} {w : Fields} {dest : Bool}
    (hi : (i = .atom w ∧ op = 0x89#8 ∧ dest = (w.d != .none)) ∨ (i = .red w ∧ op = 0x8A#8 ∧ dest = false)) :
    op ≠ 0xFF#8 ∧ ∀ s, exec i s = atomicForm op w dest s := by
  obtain ⟨rfl, rfl, rfl⟩ | ⟨rfl, rfl, rfl⟩ := hi
  all_goals exact ⟨by decide, fun _ => rfl⟩

/-- Settles O27: the body runs its checks, then its release, then its lanes, whose results go to D where there is one. -/
theorem atomicsActLaneByLane : Obligations.AtomicsActLaneByLane := by
  intro i w op dest s x v hi h hs hv m e size f
  obtain ⟨ho, hx⟩ := exec_atomic hi
  rw [hx]
  constructor
  · intro s1 s2 as ha hb r
    constructor
    · intro hd
      refine issue_memBody h hs hv ?_
      simp only [ha, env_x, hb, hd, Bool.false_eq_true, if_false, m, e, size, f, r]
    · intro hd vec
      refine issue_memBody h hs hv ?_
      simp only [ha, env_x, hb, hd, if_true, m, e, size, f, r, vec]
  · intro s1 t ha
    exact issue_memBody_raise h hs hv ho (by simp only [ha, m, e, size])

/-! ## `fence` -/

/-- A `fence` whose release is done acquires. -/
theorem execFence_acquires {w : Fields} {s s1 : State} {x : Exec} (h : Issues s (kindMem true false) 0x8B#8 w x)
    (hr : releaseAt x (mdScope w.md) (if w.fn = 1#4 then (moveOn x 16 s).promoteAll x else moveOn x 16 s) = .ok s1) :
    execFence w s = .next (finish x (s1.acquireBy x.u (mdScope w.md))) :=
  issue_next h (by simp only [Effects.before, Effects.after, if_true, hr])

/-! ## `fpromote` -/

/-- A promotion that names an existing die where it names one passes its check. -/
theorem not_dieAbsent {w : Fields} {p : Nat} (h : w.fn = 0#4 → p < 9) : ¬ (w.fn = 0#4 ∧ p ≥ 9) :=
  fun ⟨hf, hn⟩ => Nat.not_le.2 (h hf) hn

section
variable {w : Fields} {s : State} {x : Exec} (h : Issues s (kindMem true false) 0x8C#8 w x) (ha : (s.regsOf x.u).taint w.a = false)
  {p : Nat} (hp : p = ((s.regsOf x.u).bits w.a).toNat % 2 ^ 32)
include h ha hp

/-- A promotion of a die that does not exist is protected. -/
theorem execFpromote_traps (hf : w.fn = 0#4) (hn : 9 ≤ p) :
    execFpromote w s = .next (raiseTrap x (protectionOnce (BitVec.ofNat 56 p)) false s) := by
  subst hp
  exact issue_trap h (by
    simp only [regsOf_moved h.2.1, consumeOnce_one ha]
    exact if_pos ⟨hf, hn⟩)

variable (hn : w.fn = 0#4 → p < 9) {ds : List Nat}
  (hds : ds = (if w.fn = 0#4 then [p] else List.range 9).filter fun d => !(moveOn x 16 s).dieIdle d)
include hn hds

/-- A promotion of dies none of which holds a team does nothing. -/
theorem execFpromote_idle (he : ds = []) : execFpromote w s = .next (finish x (moveOn x 16 s)) := by
  subst hp hds
  exact issue_next h (by
    simp only [regsOf_moved h.2.1, consumeOnce_one ha, if_neg (not_dieAbsent hn), he, if_true])

/-- A promotion is outstanding at the dies that hold a team. -/
theorem execFpromote_promotes (he : ds ≠ []) :
    execFpromote w s = .next (finish x { (moveOn x 16 s).bump with
      promotions := (moveOn x 16 s).promotions ++ [⟨(moveOn x 16 s).ids + 1, x.u, (moveOn x 16 s).stampOf x, ds⟩] }) := by
  subst hp hds
  exact issue_next h (by
    simp only [regsOf_moved h.2.1, consumeOnce_one ha, if_neg (not_dieAbsent hn), if_neg he]
    rfl)

end

/-! ## `prefetch` -/

/-- `prefetch` always completes. -/
theorem execPrefetch_completes {w : Fields} {s : State} {x : Exec} {v : Gang} (h : Issues s (kindMem false false) 0x8D#8 w x)
    (hs : x.seq = false) (hv : s.gang? x.t x.g = some v) {e : Env} (he : e = (moveOn x 16 s).env x (v.moved x 16)) :
    execPrefetch w s = .next (finish x ((e.points 1).foldl (fun z p =>
      if (e.pointSources.foldl (fun (b : Mask) p => b ||| p.2) 0#32).getLsbD p.lane then z
      else z.prefetchLane x (mdHint w.md) p) (moveOn x 16 s))) := by
  subst he
  exact issue_memBody h hs hv rfl

/-- Settles O28: each is an issue whose premises decide which end its body takes. -/
theorem fencePromotePrefetch : Obligations.FencePromotePrefetch := by
  refine ⟨?_, ?_, ?_⟩
  · exact fun _ _ _ _ h => execFence_acquires h
  · intro w s x h ha m p ds
    exact ⟨execFpromote_traps h ha rfl, fun hn => execFpromote_idle h ha rfl hn rfl, fun hn => execFpromote_promotes h ha rfl hn rfl⟩
  · exact fun _ _ _ _ h hs hv => execPrefetch_completes h hs hv rfl

end Sys2Proof.Machine
end

section
/-! The range locks, the invalidation of translations and the table probe (R405 to R407): what an issue answers once its checks have passed or failed. -/

namespace Sys2Proof.Machine

/-- The move to the next word leaves the cores. -/
theorem core_moveOn (x : Exec) (len : Nat) (s : State) (n : Nat) : (moveOn x len s).core n = s.core n := by
  unfold moveOn
  split <;> rfl

/-- A check that passes leaves the fault to those after it. -/
theorem firstFault_passed (l : List (Option Trap)) : firstFault (none :: l) = firstFault l := rfl

theorem firstFault_nil : firstFault [] = none := rfl

/-- The size of a window does not see a change of one gang. -/
@[simp] theorem Team.setGang_winSize (tm : Team) (g : Nat) (v : Gang) : (tm.setGang g v).winSize = tm.winSize := rfl

/-! ## `rlock` -/

section
variable {w : Fields} {s : State} {x : Exec} {tm : Team} (h : Issues s (kindTable false false) 0xA4#8 w x) (hs : x.seq = false)
  (ht : s.team? x.t = some tm) (ha : (s.regsOf x.u).taint w.a = false) (hb : (s.regsOf x.u).taint w.b = false)
  {b n : Nat} (hbv : b = ((s.regsOf x.u).bits w.a).toNat) (hnv : n = (s.regsOf x.u).halfOrImm w w.b)
include h hs ht ha hb hbv hnv

/-- A lock of an aligned range inside its space joins the table where an entry is free. -/
theorem execRlock_locks {ls : List Lock} (hls : ls = (s.core x.core).locks) (hb16 : b % 16 = 0) (hn16 : n % 16 = 0) (hn0 : n ≠ 0)
    (hin : if w.fn.getLsbD 1 then b + n ≤ tm.winSize else b < 2 ^ 56) (hroom : ls.length < 32)
    (hown : (ls.filter fun l => l.cmd.isNone).length < 16) :
    execRlock w s = .next (finish x (writeS x (BitVec.ofNat 64 (freeLock ls)) ((moveOn x 16 s).modCore x.core fun c =>
      { c with locks := c.locks ++ [⟨freeLock ls, none, w.fn.getLsbD 0, w.fn.getLsbD 1, b, n, x.g, x.t, x.ctx⟩] }))) := by
  subst hls
  obtain ⟨v, hm⟩ := team_moved h.2.1 hs ht
  have aligned : ¬ (b % 16 ≠ 0 ∨ n % 16 ≠ 0 ∨ n = 0) := by omega
  have in_window : ¬ (w.fn.getLsbD 1 = true ∧ b + n > tm.winSize) := fun ⟨hsp, hout⟩ => by
    rw [if_pos hsp] at hin
    omega
  have in_space : ¬ (¬ w.fn.getLsbD 1 = true ∧ b ≥ 2 ^ 56) := fun ⟨hsp, hout⟩ => by
    rw [if_neg hsp] at hin
    omega
  have room : ¬ ((s.core x.core).locks.length ≥ 32 ∨ ((s.core x.core).locks.filter fun l => l.cmd.isNone).length ≥ 16) := by omega
  exact issue_next h (by
    simp only [regsOf_moved h.2.1, hm, core_moveOn, ← hbv, ← hnv, consumeOnce_two ha hb, Team.setGang_winSize, if_neg aligned,
      if_neg in_window, if_neg in_space, if_neg room, firstFault_passed, firstFault_nil])

/-- A range that is empty or not aligned is misaligned. -/
theorem execRlock_misaligned (hal : b % 16 ≠ 0 ∨ n % 16 ≠ 0 ∨ n = 0) :
    execRlock w s = .next (raiseTrap x (misalignedAt laneNone accRead b) false s) := by
  subst hbv hnv
  obtain ⟨v, hm⟩ := team_moved h.2.1 hs ht
  exact issue_trap h (by
    simp only [regsOf_moved h.2.1, hm, consumeOnce_two ha hb, if_pos hal, firstFault_passed, firstFault_head])

end

/-! ## `runlock` -/

section
variable {w : Fields} {s : State} {x : Exec} (h : Issues s (kindTable false false) 0xA5#8 w x) (ha : (s.regsOf x.u).taint w.a = false)
  {e : Nat} (he : e = (s.regsOf x.u).halfOrImm w w.a)
include h ha he

/-- An entry that the issuer's team holds leaves the table. -/
theorem execRunlock_unlocks (hm : ((s.core x.core).locks.any fun l => decide (l.entry = e ∧ l.cmd = none ∧ l.team = x.t)) = true) :
    execRunlock w s = .next (finish x ((moveOn x 16 s).modCore x.core fun c => { c with locks := c.locks.filter fun l => l.entry ≠ e })) := by
  subst he
  exact issue_next h (by
    simp only [regsOf_moved h.2.1, core_moveOn, consumeOnce_one ha, if_pos hm])

/-- An entry that the issuer's team does not hold is protected. -/
theorem execRunlock_traps (hm : ((s.core x.core).locks.any fun l => decide (l.entry = e ∧ l.cmd = none ∧ l.team = x.t)) = false) :
    execRunlock w s = .next (raiseTrap x (protectionOnce (BitVec.ofNat 56 e)) false s) := by
  subst he
  exact issue_trap h (by
    simp only [regsOf_moved h.2.1, core_moveOn, consumeOnce_one ha, if_neg (ne_true_of_eq_false hm)])

end

/-! ## `tlbinv` -/

section
variable {w : Fields} {s : State} {x : Exec} (h : Issues s { kindTable false false with priv := true } 0xA6#8 w x)
  (ha : (s.regsOf x.u).taint w.a = false) (hb : (s.regsOf x.u).taint w.b = false) {va : Nat} (hva : va = ((s.regsOf x.u).bits w.a).toNat)
include h ha hb hva

/-- The translations of an aligned range that no accepted command holds, or of an empty one, go. -/
theorem execTlbinv_invalidates {lo hi : Nat} (hlo : lo = if w.fn = 1#4 then 0 else va)
    (hhi : hi = if w.fn = 1#4 then 2 ^ 56 else va + 65536 * (s.regsOf x.u).halfOrImm w w.b) (hal : w.fn = 1#4 ∨ va % 65536 = 0)
    (hfree : lo = hi ∨ (moveOn x 16 s).commandHolds x.ctx lo hi = false) :
    execTlbinv w s = .next (finish x ((moveOn x 16 s).invalidated x.ctx lo hi)) := by
  have aligned : ¬ (¬ w.fn = 1#4 ∧ va % 65536 ≠ 0) := fun ⟨hf, hn⟩ => hal.elim hf hn
  have free : ¬ (lo ≠ hi ∧ (moveOn x 16 s).commandHolds x.ctx lo hi = true) := fun ⟨hne, hc⟩ =>
    hfree.elim hne fun hf => Bool.false_ne_true (hf.symm.trans hc)
  exact issue_next h (by
    simp only [regsOf_moved h.2.1, decide_eq_true_eq, ← hva, ← hlo, ← hhi, consumeOnce_two ha hb, if_neg aligned, if_neg free,
      firstFault_passed, firstFault_nil])

/-- An address that no page begins at is misaligned. -/
theorem execTlbinv_misaligned (hf : w.fn ≠ 1#4) (hal : va % 65536 ≠ 0) :
    execTlbinv w s = .next (raiseTrap x (misalignedAt laneNone accRead va) false s) :=
  issue_trap h (by
    simp only [regsOf_moved h.2.1, decide_eq_true_eq, ← hva, consumeOnce_two ha hb, if_pos (And.intro hf hal), firstFault_passed,
      firstFault_head])

end

/-! ## `cprobe` -/

/-- The result that `cprobe` leaves outstanding. -/
def probeReply (x : Exec) (n : BitVec 6) (v : W64) (s : State) : State :=
  s.deliver x ⟨s.ids, [], [⟨n, 3#2, v, 0#2⟩], [], [], 0#5, .none⟩

section
variable {w : Fields} {s : State} {x : Exec} {sel : Sel} {n : BitVec 6} (h : Issues s (kindTable false true) 0xA7#8 w x)
include h

/-- The probe of a handle replies with its palette entry. -/
theorem execCprobe_palette {tm : Team} (hd : w.d = .sca sel n) (ht : (moveOn x 16 s).team? x.t = some tm) (hf : w.fn = 0#4) :
    execCprobe w s = .next (finish x (probeReply x n ((moveOn x 16 s).paletteEntry tm (handleOf w.a)) (moveOn x 16 s))) :=
  issue_next h (by simp only [hf, ht, hd, if_true, probeReply])

variable (hf : w.fn ≠ 0#4) (ha : (s.regsOf x.u).taint w.a = false) {e : Nat} (he : e = (s.regsOf x.u).halfOrImm w w.a)
include hf ha he

/-- The probe of a circuit replies with its table entry. -/
theorem execCprobe_circuit (hd : w.d = .sca sel n) (hc : e < 16) :
    execCprobe w s = .next (finish x (probeReply x n ((moveOn x 16 s).circuitEntry e) (moveOn x 16 s))) := by
  subst he
  exact issue_next h (by
    simp only [regsOf_moved h.2.1, if_neg hf, consumeOnce_one ha, if_neg (Nat.not_le.2 hc), hd, probeReply])

/-- A circuit that the table does not hold is protected. -/
theorem execCprobe_traps (hc : 16 ≤ e) : execCprobe w s = .next (raiseTrap x (protectionOnce (BitVec.ofNat 56 e)) false s) := by
  subst he
  exact issue_trap h (by
    simp only [regsOf_moved h.2.1, if_neg hf, consumeOnce_one ha, if_pos hc])

end

/-- Settles O32: each is an issue whose checks decide between its trap and its one effect. -/
theorem locksTranslationsAndTables : Obligations.LocksTranslationsAndTables := by
  refine ⟨?_, ?_, ?_, ?_⟩
  · intro w s x tm h hs ht m r b n ls ha hb
    exact ⟨execRlock_locks h hs ht ha hb rfl rfl rfl, execRlock_misaligned h hs ht ha hb rfl rfl⟩
  · intro w s x h ha m e mine
    exact ⟨execRunlock_unlocks h ha rfl, execRunlock_traps h ha rfl⟩
  · intro w s x h m r lo hi ha hb
    exact ⟨execTlbinv_invalidates h ha hb rfl rfl rfl, execTlbinv_misaligned h ha hb rfl⟩
  · intro w s x tm sel n h hd hs ht m e reply
    exact ⟨execCprobe_palette h hd ht, fun hf ha => execCprobe_circuit h hf ha rfl hd, fun hf ha => execCprobe_traps h hf ha rfl⟩

end Sys2Proof.Machine
end

section
/-! The scalar loads and stores (R306, R307) and the translation and stash instructions (R301, R316, R317): what an issue answers once its checks have passed or failed. -/

namespace Sys2Proof.Machine

/-! ## `sld` -/

section
variable {w : Fields} {s s1 : State} {x : Exec} (h : Issues s (kindMem true true) 0x84#8 w x) (ha : (s.regsOf x.u).taint w.a = false)
include h ha

/-- A scalar load whose address passes, that has no remote operation of its own to wait for and whose release is done, reads its access. -/
theorem execSld_reads {s2 : State} {as bs : List (Point × Access)} {sel : Sel} {n : BitVec 6} (hd : w.d = .sca sel n)
    (hc : (moveOn x 16 s).checkGlobal x accRead (mdBytes w.md) (mdBytes w.md) [scalarPoint x (s.regsOf x.u)] = (s1, .ok as))
    (hbs : bs = as.map fun p => (p.1, p.2.withMd w.md)) (hw : ∀ p ∈ bs, s1.awaitsOwn x p.2 = false)
    (hb : (effectsOf true w.md).before x s1 = .ok s2) {q : State × List (Nat × Nat × Bool)}
    (hq : q = (if w.fn = 1#4 then s2.promoteAll x else s2).readLanes bs []) {v : BitVec 2 × W64}
    (hv : v = scalarResult w.ty sel (laneValue q.2 laneNone)) :
    execSld w s = .next (finish x ((effectsOf true w.md).after x (q.1.deliver x
      ⟨(moveOn x 16 s).ids, [], [⟨n, v.1, v.2, if q.2.any (·.2.2) then 3#2 else 0#2⟩], [], [], 0#5, .none⟩))) := by
  subst hbs hq hv
  have none_awaited : ¬ ((as.map fun p => (p.1, p.2.withMd w.md)).any fun p => s1.awaitsOwn x p.2) = true := by
    simpa using fun a b hab => hw _ (List.mem_map_of_mem hab)
  exact issue_next h (by
    simp only [regsOf_moved h.2.1, consumeOnce_one ha, hc, if_neg none_awaited, hb, hd])

/-- A scalar load whose address fails a check traps. -/
theorem execSld_traps {t : Trap}
    (hc : (moveOn x 16 s).checkGlobal x accRead (mdBytes w.md) (mdBytes w.md) [scalarPoint x (s.regsOf x.u)] = (s1, .error t)) :
    execSld w s = .next (raiseTrap x t false s) :=
  issue_trap h (by simp only [regsOf_moved h.2.1, consumeOnce_one ha, hc])

end

/-! ## `sst` -/

section
variable {w : Fields} {s s1 : State} {x : Exec} (h : Issues s (kindMem true false) 0x85#8 w x) (ha : (s.regsOf x.u).taint w.a = false)
  (hv : (s.regsOf x.u).taint w.c = false)
include h ha hv

/-- A scalar store whose address passes and whose release is done stores its access. -/
theorem execSst_stores {s2 : State} {as : List (Point × Access)}
    (hc : (moveOn x 16 s).checkGlobal x accWrite (mdBytes w.md) (mdBytes w.md) [scalarPoint x (s.regsOf x.u)] = (s1, .ok as))
    (hb : (effectsOf false w.md).before x s1 = .ok s2) {rs : List Request}
    (hr : rs = as.foldl (fun rs p =>
      addLane rs (p.2.withMd w.md) p.1.va.toNat (((s.regsOf x.u).bits w.c).toNat % 2 ^ (8 * mdBytes w.md))) []) :
    execSst w s = .next (finish x (holdRemote x (effectsOf false w.md).holds
      ((effectsOf false w.md).settle x (as.map (·.2)) (storeAll x (effectsOf false w.md) rs s2)))) := by
  subst hr
  exact issue_next h (by simp only [regsOf_moved h.2.1, consumeOnce_two ha hv, hc, hb])

/-- A scalar store whose address fails a check traps. -/
theorem execSst_traps {t : Trap}
    (hc : (moveOn x 16 s).checkGlobal x accWrite (mdBytes w.md) (mdBytes w.md) [scalarPoint x (s.regsOf x.u)] = (s1, .error t)) :
    execSst w s = .next (raiseTrap x t false s) :=
  issue_trap h (by simp only [regsOf_moved h.2.1, consumeOnce_two ha hv, hc])

end

/-- Settles O24: with clean sources the check of the address decides between the access and its trap. -/
theorem scalarLoadsAndStores : Obligations.ScalarLoadsAndStores := by
  constructor
  · intro w s x h m r size f
    exact ⟨fun ha _ _ _ hc hw hb _ _ hd => execSld_reads h ha hd hc rfl hw hb rfl rfl, fun ha _ _ hc => execSld_traps h ha hc⟩
  · intro w s x h m r size f
    exact ⟨fun ha hv _ _ _ hc hb => execSst_stores h ha hv hc hb rfl, fun ha hv _ _ hc => execSst_traps h ha hv hc⟩

/-! ## `xlate` -/

/-- The translation that `xlate` leaves outstanding for an address and its leaf (R301). -/
def translationOf (va : Nat) (l : Leaf) : Trans :=
  { lim := BitVec.ofNat 32 (min (l.base + 2 ^ l.bits - va) 0xFFFFFFFF), cp := l.cp, cc := l.cc, vis := l.vis
    xwr := l.xwr, v := true, pa := BitVec.ofNat 52 (l.pa va), va := BitVec.ofNat 56 va }

section
variable {w : Fields} {s : State} {x : Exec} (h : Issues s (kindMem true true) 0x86#8 w x) (ha : (s.regsOf x.u).taint w.a = false)
  {va : Nat} (hva : va = (scalarPoint x (s.regsOf x.u)).va.toNat)
include h ha hva

/-- An address above 2^56 is protected. -/
theorem execXlate_outside (ho : 2 ^ 56 ≤ va) : execXlate w s = .next (raiseTrap x (protectionAt laneNone accRead va) false s) := by
  subst hva
  exact issue_trap h (by simp only [regsOf_moved h.2.1, consumeOnce_one ha, ge_iff_le, if_pos ho])

variable (hin : va < 2 ^ 56) {s1 : State}
include hin

/-- The translation of an address whose page is of a lit class goes outstanding. -/
theorem execXlate_translates {n : BitVec 3} {l : Leaf} (hd : w.d = .trans n) (hl : (moveOn x 16 s).look x va = (s1, .leaf l))
    (hlit : s1.lit l.cc = true) :
    execXlate w s = .next (finish x (s1.deliver x ⟨s1.ids, [], [], [], [(n, translationOf va l)], 0#5, .none⟩)) := by
  subst hva
  exact issue_next h (by
    simp only [regsOf_moved h.2.1, consumeOnce_one ha, ge_iff_le, if_neg (Nat.not_le.2 hin), hl, hlit, not_true_eq_false, if_false, hd,
      translationOf])

/-- An address that no page translates is a page fault of a read. -/
theorem execXlate_absent (hl : (moveOn x 16 s).look x va = (s1, .absent)) :
    execXlate w s = .next (raiseTrap x (.page (BitVec.ofNat 56 va) 1#3) false s) := by
  subst hva
  have read : pageAcc accRead = 1#3 := by decide
  exact issue_trap h (by
    simp only [regsOf_moved h.2.1, consumeOnce_one ha, ge_iff_le, if_neg (Nat.not_le.2 hin), hl, read])

end

/-! ## `stmap` -/

/-- Three clean sources. -/
theorem consumeOnce_three {a b c : Operand} {p q r : Bool} (hp : p = false) (hq : q = false) (hr : r = false) :
    consumeOnce [(a, p), (b, q), (c, r)] = none := by
  subst hp hq hr
  rfl

/-- A mapping of clean, aligned operands in its window, whose pages pass the checks and which no lock holds, writes back its slot, unmaps it and maps it anew. -/
theorem execStmap_maps {w : Fields} {s s1 s2 : State} {x : Exec} {tm : Team} (h : Issues s (kindMem true false) 0x87#8 w x)
    (hm : (moveOn x 16 s).team? x.t = some tm) {o va n : Nat} (ho : o = ((s.regsOf x.u).bits w.a).toNat)
    (hva : va = ((s.regsOf x.u).bits w.b).toNat) (hn : n = ((s.regsOf x.u).bits w.c).toNat) {old : Option StashSlot}
    (hold : old = vget tm.stash w.fn.toNat none) (ha : (s.regsOf x.u).taint w.a = false) (hb : (s.regsOf x.u).taint w.b = false)
    (hc : (s.regsOf x.u).taint w.c = false) (hoa : o % 128 = 0) (hvaa : va % 128 = 0) (hna : n % 128 = 0)
    (hfit : n > 0 → o + n ≤ tm.winSize ∧ va + n ≤ 2 ^ 56 ∧
      ∀ j < 4, j ≠ w.fn.toNat → ∀ p, vget tm.stash j none = some p → overlap o n p.w p.n = false)
    (hp : (moveOn x 16 s).probePages x (if n > 0 then pagesOf va n else []) none = (s1, none))
    (hfree : n ≠ 0 → s1.lockedWindow x.core x.t o n true = false)
    (hfree' : ∀ p, old = some p → s1.lockedWindow x.core x.t p.w p.n true = false)
    (hback : s1.stashBackAll x true 0#3 x.t (tm.dirtySectors fun p => some p = old) = .ok s2) :
    execStmap w s = .next (finish x (s2.modTeam x.t fun y =>
      if n > 0 then (y.unmap w.fn.toNat).mapSlot w.fn.toNat ⟨o, BitVec.ofNat 64 va, n⟩ else y.unmap w.fn.toNat)) := by
  have aligned : [o, va, n].find? (fun v => decide (v % 128 ≠ 0)) = none := by simp [hoa, hvaa, hna]
  have in_window : ¬ (n > 0 ∧ (o + n > tm.winSize ∨
      ((List.range 4).any fun j => decide (j ≠ w.fn.toNat) && (vget tm.stash j none).any fun p => overlap o n p.w p.n) = true)) := by
    rintro ⟨hpos, hbig | hclash⟩
    · exact Nat.not_lt.2 (hfit hpos).1 hbig
    · simp only [List.any_eq_true, List.mem_range, Bool.and_eq_true, decide_eq_true_eq, Option.any_eq_true] at hclash
      obtain ⟨j, hj, hne, p, hjp, hov⟩ := hclash
      exact absurd hov (by simp [(hfit hpos).2.2 j hj hne p hjp])
  have in_space : ¬ (n > 0 ∧ va + n > 2 ^ 56) := fun ⟨hpos, hbig⟩ => Nat.not_lt.2 (hfit hpos).2.1 hbig
  have unlocked : ¬ ((n != 0 && s1.lockedWindow x.core x.t o n true) || (old.any fun p => s1.lockedWindow x.core x.t p.w p.n true)) = true := by
    cases hold' : old with
    | none => by_cases hz : n = 0 <;> simp [hz, hfree]
    | some p => by_cases hz : n = 0 <;> simp [hz, hfree, hfree' p hold']
  subst ho hva hn hold
  exact issue_next h (by
    simp only [regsOf_moved h.2.1, consumeOnce_three ha hb hc, hm, aligned, if_neg in_window, if_neg in_space, hp, if_neg unlocked,
      hback])

/-! ## `stflush` -/

section
variable {w : Fields} {s s1 : State} {x : Exec} {tm : Team} (h : Issues s (kindMem true false) 0x88#8 w x)
  (hm : (moveOn x 16 s).team? x.t = some tm) {ks : List Nat}
  (hks : ks = tm.dirtySectors fun p => w.fn = 4#4 || vget tm.stash w.fn.toNat none == some p)
include h hm hks

/-- A flush whose write-back and release are done completes. -/
theorem execStflush_flushes {s2 : State} (hb : (moveOn x 16 s).stashBackAll x true (mdScope w.md) x.t ks = .ok s1)
    (hr : (if mdOrder w.md = 2#2 then releaseAt x (mdScope w.md) s1 else .ok s1) = .ok s2) :
    execStflush w s = .next (finish x s2) := by
  subst hks
  exact issue_next h (by simp only [hm, hb, hr])

/-- A flush whose write-back fails a check traps. -/
theorem execStflush_traps {t : Trap} (hb : (moveOn x 16 s).stashBackAll x true (mdScope w.md) x.t ks = .error t) :
    execStflush w s = .next (raiseTrap x t false s) := by
  subst hks
  exact issue_trap h (by simp only [hm, hb])

end

/-- Settles O26: each is an issue whose premises decide which end its body takes. -/
theorem xlateStmapStflush : Obligations.XlateStmapStflush := by
  refine ⟨?_, ?_, ?_⟩
  · intro w s x n h ha hd m va
    exact ⟨fun hin _ _ hl hlit => execXlate_translates h ha rfl hin hd hl hlit, fun hin _ hl => execXlate_absent h ha rfl hin hl,
      execXlate_outside h ha rfl⟩
  · intro w s x tm h ht hs m r o va n old ha hb hc hoa hvaa hna hfit s1 s2
    obtain ⟨v, hm⟩ := team_moved h.2.1 hs ht
    exact execStmap_maps h hm rfl rfl rfl rfl ha hb hc hoa hvaa hna hfit
  · intro w s x tm h ht hs m ks
    obtain ⟨v, hm⟩ := team_moved h.2.1 hs ht
    exact ⟨fun _ _ => execStflush_flushes h hm rfl, fun _ => execStflush_traps h hm rfl⟩

end Sys2Proof.Machine
end

section
/-! Tile loads, tile stores, copies and the wait for commands (R322 to R324, R336 to R338, R341 to R343): what an issue answers once its checks have passed or failed. -/

namespace Sys2Proof.Machine

/-! ## Checks that pass -/

@[simp] theorem Gang.moved_regs (v : Gang) (x : Exec) (len : Nat) : (v.moved x len).regs = v.regs := rfl
@[simp] theorem Gang.moved_alloc (v : Gang) (x : Exec) (len : Nat) : (v.moved x len).alloc = v.alloc := rfl

theorem env_v (s : State) (x : Exec) (v : Gang) : (s.env x v).v = v := rfl

/-- A full run inside the allocation is not gated. -/
theorem runGated_inside {op : BitVec 8} {alloc base u : Nat} (h : base + 16 * u ≤ alloc) : runGated op alloc base u = none :=
  if_neg (Nat.not_lt.2 h)

/-- An aligned address and pitch, the pitch no less than a row. -/
theorem pitchFault_aligned {acc : BitVec 2} {va q len : Nat} (hva : va % 16 = 0) (hq : q % 16 = 0) (hl : len ≤ q) :
    pitchFault acc va q len = none := by
  unfold pitchFault
  rw [if_neg (by omega), if_neg (by omega)]

/-! ## `tld` -/

section
variable {w : Fields} {s : State} {x : Exec} {v : Gang} (h : Issues s (kindTile false) 0x94#8 w x) (hs : x.seq = false)
  (hv : s.gang? x.t x.g = some v) {tm : Team} (ht : (moveOn x 16 s).team? x.t = some tm)
  {e : Env} (he : e = (moveOn x 16 s).env x (v.moved x 16)) {u len : Nat} (hu : u = wordsPer (tm.handle (handleOf w.d)).ty)
  (hlen : len = 4 * u * mdCols w.md)
  (held : heldFault x tm (handleOf w.d) = none) (hcol : columnFault tm (handleOf w.d) (w.imm.extractLsb' 0 9).toNat (mdCols w.md) = none)
  (ha : v.regs.taint w.a = false) (hb : v.regs.taint w.b = false) (hc : v.regs.taint w.c = false)
  {c : CmdKind → Command} (hcmd : c = fun kind => (e.command kind).withHandles tm w.d .none) {s1 : State} {k : Command}
  (hw : s1.commandWait x [k] = none)
include h hs hv ht he hu held hcol ha hb hc hcmd hw

/-- A tile load from a block of registers of the allocation, none of them poisoned. -/
theorem execTld_block (hf : w.fn = 2#4) {base : Nat} (hbase : base = (regOf w.a).toNat) (hp : e.blockPoison base (16 * u) = false)
    (hin : base + 16 * u ≤ v.alloc)
    (hz : s1 = (moveOn x 16 s).setGang x.t x.g ((v.moved x 16).touchRun (moveOn x 16 s).tick base (16 * u)))
    (hk : k = { c .tldV with block := (List.range (16 * u)).map fun n => ((v.moved x 16).vreg (base + n)).lanes }) :
    execTld w s = .next (finish x (s1.accept x k)) := by
  subst he hu hcmd hbase hz hk
  have single : ¬ w.fn = 1#4 := by rw [hf]; decide
  have clean := consumeOnce_three (a := w.a) (b := w.b) (c := w.c) (p := v.regs.taint w.a || decide (w.fn = 2#4 ∧
    ((moveOn x 16 s).env x (v.moved x 16)).blockPoison (regOf w.a).toNat (16 * wordsPer (tm.handle (handleOf w.d)).ty) = true))
    (by simp [ha, hp]) hb hc
  refine issue_memBody h hs hv ?_
  simp only [env_x, env_v, ht, Env.tag, Gang.moved_regs, Gang.moved_alloc, clean, held, hcol, if_pos hf, if_neg single, runGated_inside hin,
    firstFault_passed, firstFault_nil, submit_ok hw]

include hlen

/-- A tile load from a window. -/
theorem execTld_window (hf : w.fn = 0#4) {off : Nat} (hoff : off = (v.regs.bits w.b).toNat) {p : Team}
    (hp : e.tileWindow (moveOn x 16 s) tm accRead off (64 * len) = .ok p)
    (hfill : (moveOn x 16 s).probeFills x p [(off, 64 * len)] = (s1, none))
    (hk : k = { c .tldSp with bOff := off, peer := p.tid, ranges := [⟨some p.tid, off, 64 * len, false⟩] }) :
    execTld w s = .next (finish x (s1.accept x k)) := by
  subst he hlen hu hcmd hoff hk
  have plain : ¬ w.fn = 2#4 ∧ ¬ w.fn = 1#4 := by rw [hf]; decide
  have clean := consumeOnce_three (a := w.a) (b := w.b) (c := w.c) (p := v.regs.taint w.a || decide (w.fn = 2#4 ∧
    ((moveOn x 16 s).env x (v.moved x 16)).blockPoison (regOf w.a).toNat (16 * wordsPer (tm.handle (handleOf w.d)).ty) = true))
    (by simp [ha, plain.1]) hb hc
  refine issue_memBody h hs hv ?_
  simp only [env_x, env_v, ht, Env.tag, Gang.moved_regs, clean, held, hcol, if_neg plain.1, if_neg plain.2,
    firstFault_passed, firstFault_nil, hp, hfill, submit_ok hw]

/-- A tile load from global memory, whose rows are aligned and do not overlap. -/
theorem execTld_global (hf : w.fn = 1#4) {va pitch : Nat} (hva : va = (v.regs.bits w.a).toNat)
    (hpitch : pitch = if w.c = .none then len else (v.regs.bits w.c).toNat) (hal : va % 16 = 0) (hpal : pitch % 16 = 0) (hl : len ≤ pitch)
    {ls : List Leaf} (hr : (moveOn x 16 s).probeRanges x accRead ((List.range 64).map fun r => (va + r * pitch, len)) = (s1, .ok ls))
    (hk : k = { c .tldGl with addr := va, pitch, leaves := ls, ranges := [⟨none, va, 63 * pitch + len, false⟩] }) :
    execTld w s = .next (finish x (s1.accept x k)) := by
  subst he hlen hu hcmd hva hpitch hk
  have single : ¬ w.fn = 2#4 := by rw [hf]; decide
  have clean := consumeOnce_three (a := w.a) (b := w.b) (c := w.c) (p := v.regs.taint w.a || decide (w.fn = 2#4 ∧
    ((moveOn x 16 s).env x (v.moved x 16)).blockPoison (regOf w.a).toNat (16 * wordsPer (tm.handle (handleOf w.d)).ty) = true))
    (by simp [ha, single]) hb hc
  refine issue_memBody h hs hv ?_
  simp only [env_x, env_v, ht, Env.tag, Gang.moved_regs, clean, held, hcol, if_neg single, if_pos hf, pitchFault_aligned hal hpal hl,
    firstFault_passed, firstFault_nil, hr, submit_ok hw]

end

/-! ## `tst` -/

section
variable {w : Fields} {s : State} {x : Exec} {v : Gang} (h : Issues s (kindTile (w.fn = 2#4)) 0x95#8 w x) (hs : x.seq = false)
  (hv : s.gang? x.t x.g = some v) {tm : Team} (ht : (moveOn x 16 s).team? x.t = some tm)
  {e : Env} (he : e = (moveOn x 16 s).env x (v.moved x 16)) {u len : Nat} (hu : u = wordsPer (tm.handle (handleOf w.a)).ty)
  (hlen : len = 4 * u * mdCols w.md)
  (held : heldFault x tm (handleOf w.a) = none) (hcol : columnFault tm (handleOf w.a) (w.imm.extractLsb' 0 9).toNat (mdCols w.md) = none)
  (hb : v.regs.taint w.b = false) (hc : v.regs.taint w.c = false)
  {c : CmdKind → Command} (hcmd : c = fun kind => (e.command kind).withHandles tm .none w.a)
include h hs hv ht he hu held hcol hb hc hcmd

/-- A tile store to registers of the allocation leaves their result outstanding until its command completes. -/
theorem execTst_registers (hf : w.fn = 2#4) {base : Nat} (hbase : base = (regOf w.d).toNat) (hin : base + 16 * u ≤ v.alloc)
    (hw : (moveOn x 16 s).commandWait x [c .tstV] = none) {z : State} (hz : z = (moveOn x 16 s).accept x (c .tstV)) :
    execTst w s = .next (finish x (z.bump.modGang x.t x.g fun y => (y.touchRun (moveOn x 16 s).tick base (16 * u)).addResult
      (runResult z.ids (moveOn x 16 s).ids base (16 * u) x.sub) .general)) := by
  subst he hu hcmd hbase hz
  have single : ¬ w.fn = 1#4 := by rw [hf]; decide
  refine issue_memBody h hs hv ?_
  simp only [env_x, env_v, ht, Env.tag, Gang.moved_regs, Gang.moved_alloc, consumeOnce_two hb hc, held, hcol, if_pos hf, if_neg single,
    runGated_inside hin, firstFault_passed, firstFault_nil, submit_ok hw]

include hlen
variable {k : Command}

/-- A tile store to a window. -/
theorem execTst_window (hf : w.fn = 0#4) {off : Nat} (hoff : off = (v.regs.bits w.b).toNat) {p : Team}
    (hp : e.tileWindow (moveOn x 16 s) tm accWrite off (64 * len) = .ok p)
    (hk : k = { c .tstSp with bOff := off, peer := p.tid, ranges := [⟨some p.tid, off, 64 * len, true⟩] })
    (hw : (moveOn x 16 s).commandWait x [k] = none) : execTst w s = .next (finish x ((moveOn x 16 s).accept x k)) := by
  subst he hlen hu hcmd hoff hk
  have plain : ¬ w.fn = 2#4 ∧ ¬ w.fn = 1#4 := by rw [hf]; decide
  refine issue_memBody h hs hv ?_
  simp only [env_x, env_v, ht, Env.tag, Gang.moved_regs, consumeOnce_two hb hc, held, hcol, if_neg plain.1, if_neg plain.2,
    firstFault_passed, firstFault_nil, hp, submit_ok hw]

/-- A tile store to global memory, whose rows are aligned and do not overlap. -/
theorem execTst_global (hf : w.fn = 1#4) {va pitch : Nat} (hva : va = (v.regs.bits w.b).toNat)
    (hpitch : pitch = if w.c = .none then len else (v.regs.bits w.c).toNat) (hal : va % 16 = 0) (hpal : pitch % 16 = 0) (hl : len ≤ pitch)
    {s1 : State} {ls : List Leaf}
    (hr : (moveOn x 16 s).probeRanges x accWrite ((List.range 64).map fun r => (va + r * pitch, len)) = (s1, .ok ls))
    (hk : k = { c .tstGl with addr := va, pitch, leaves := ls, ranges := [⟨none, va, 63 * pitch + len, true⟩] })
    (hw : s1.commandWait x [k] = none) : execTst w s = .next (finish x (s1.accept x k)) := by
  subst he hlen hu hcmd hva hpitch hk
  have single : ¬ w.fn = 2#4 := by rw [hf]; decide
  refine issue_memBody h hs hv ?_
  simp only [env_x, env_v, ht, Env.tag, Gang.moved_regs, consumeOnce_two hb hc, held, hcol, if_neg single, if_pos hf,
    pitchFault_aligned hal hpal hl, firstFault_passed, firstFault_nil, hr, submit_ok hw]

end

/-! ## `mcopy` -/

/-- Two commands that nothing makes wait are accepted in turn. -/
theorem submit_two {s : State} {x : Exec} {c d : Command} (h : s.commandWait x [c, d] = none) :
    s.submit x [c, d] = .ok ((s.accept x c).accept x d) := by
  unfold State.submit; rw [h]; rfl

section
variable {w : Fields} {s s1 : State} {x : Exec} {v : Gang} (h : Issues s (kindTile false) 0x98#8 w x) (hs : x.seq = false)
  (hv : s.gang? x.t x.g = some v)
include h hs hv

/-- A copy alone whose checks pass. -/
theorem copyForm_accepts {c : Command} (hc : ((moveOn x 16 s).env x (v.moved x 16)).copyCommand (moveOn x 16 s) = (s1, .ok c))
    (hw : s1.commandWait x [c] = none) : copyForm w none s = .next (finish x (s1.accept x c)) :=
  issue_memBody h hs hv (by simp only [Option.isSome_none, Bool.false_eq_true, if_false, hc, env_x, submit_ok hw])

/-- A copy alone whose checks fail. -/
theorem copyForm_traps {t : Trap} (hc : ((moveOn x 16 s).env x (v.moved x 16)).copyCommand (moveOn x 16 s) = (s1, .error t)) :
    copyForm w none s = .next (raiseTrap x t false s) :=
  issue_memBody_raise h hs hv (by decide) (by simp only [Option.isSome_none, Bool.false_eq_true, if_false, hc])

/-- A copy and its follow-on command, the second after the first. -/
theorem copyForm_follows {op : BitVec 8} {fw : Fields} (hg : gatedReg op fw v.alloc = none) {e : Env}
    (he : e = (moveOn x 32 s).env x (v.moved x 32)) {s2 : State} {c f : Command} (hc : e.copyCommand (moveOn x 32 s) = (s1, .ok c))
    (hf : ({ e with x := { x with op := op, w := fw } } : Env).matrixCommand s1 (matrixKind op) = (s2, .ok f))
    (hw : s2.commandWait x [c, { f with after := some s2.ids }] = none) :
    copyForm w (some (op, fw)) s = .next (finish x ((s2.accept x c).accept x { f with after := some s2.ids })) := by
  subst he
  have free : gatedReg op fw ((moveOn x 32 s).env x (v.moved x 32)).v.alloc = none := hg
  exact issue_memBody h hs hv (by simp only [Option.isSome_some, if_true, hc, env_x, free, hf, submit_two hw])

end

/-- A follow-on word that is not fetched or not one of its kind. -/
theorem execMcopy_followFails {w : Fields} {s s1 : State} {x : Exec} {t : Trap} (hw : w.fn = 1#4) (hc : s.cur = some x.u)
    (hx : execOf s x.u 0x98#8 w = some x) (hf : s.followOn x = (s1, .error t)) : execMcopy w s = .next (raiseTrap x t false s) := by
  simp only [execMcopy, if_pos hw, hc, Option.bind_some, hx, hf]

/-- A follow-on word that is one of its kind issues with its copy. -/
theorem execMcopy_follow {w fw : Fields} {op : BitVec 8} {s s0 : State} {x : Exec} (hw : w.fn = 1#4) (hc : s.cur = some x.u)
    (hx : execOf s x.u 0x98#8 w = some x) (hf : s.followOn x = (s0, .ok (op, fw))) : execMcopy w s = copyForm w (some (op, fw)) s0 := by
  simp only [execMcopy, if_pos hw, hc, Option.bind_some, hx, hf]

/-! ## `mwait` -/

section
variable {w : Fields} {s : State} {x : Exec} {tm : Team} (h : Issues s (kindTile false) 0x99#8 w x)
  (ht : (moveOn x 16 s).team? x.t = some tm)
include h ht

/-- A wait for the commands on a tile of a held handle. -/
theorem execMwait_handle (hf : w.fn = 0#4) (held : heldFault x tm (handleOf w.a) = none) :
    execMwait w s = .next (finish x (if (tm.handle (handleOf w.a)).tile.any fun id => (moveOn x 16 s).tileBusy x.core id then
      blockUnit x (.mwait (handleOf w.a)) (moveOn x 16 s) else moveOn x 16 s)) :=
  issue_next h (by simp only [ht, if_pos hf, held])

/-- A wait for all the commands of the gang. -/
theorem execMwait_all (hf : w.fn ≠ 0#4) :
    execMwait w s = .next (finish x (if ((moveOn x 16 s).core x.core).commands.any fun c => decide (c.team = x.t ∧ c.gang = x.g) then
      blockUnit x .mwaitAll (moveOn x 16 s) else moveOn x 16 s)) :=
  issue_next h (by simp only [ht, if_neg hf])

/-- A wait on a handle that is not held. -/
theorem execMwait_traps (hf : w.fn = 0#4) {t : Trap} (held : heldFault x tm (handleOf w.a) = some t) :
    execMwait w s = .next (raiseTrap x t false s) :=
  issue_trap h (by simp only [ht, if_pos hf, held])

end

/-- Settles O30: each form's premises decide the checks of its body, and so its command, its trap or its wait. -/
theorem tileCopiesAreAccepted : Obligations.TileCopiesAreAccepted := by
  refine ⟨?_, ?_, ?_, ?_, ?_⟩
  · intro w s x v tm h hs hv ht m e hd u base off len va pitch c held hcol ha hb hc
    have hm := team_moved_gang h.2.1 hs ht hv 16
    refine ⟨fun hf hp hin => ?_, fun hf p s1 hp hfill => ?_, fun hf hal hpal hl s1 ls hr => ?_⟩
    · intro z k hw
      exact execTld_block h hs hv hm rfl rfl held hcol ha hb hc rfl hw hf rfl hp hin rfl rfl
    · intro k hw
      exact execTld_window h hs hv hm rfl rfl rfl held hcol ha hb hc rfl hw hf rfl hp hfill rfl
    · intro k hw
      exact execTld_global h hs hv hm rfl rfl rfl held hcol ha hb hc rfl hw hf rfl rfl hal hpal hl hr rfl
  · intro w s x v tm h hs hv ht m e hd u base off len va pitch c held hcol hb hc
    have hm := team_moved_gang h.2.1 hs ht hv 16
    refine ⟨fun hf hin hw => ?_, fun hf p hp => ?_, fun hf hal hpal hl s1 ls hr => ?_⟩
    · exact execTst_registers h hs hv hm rfl rfl held hcol hb hc rfl hf rfl hin hw rfl
    · intro k hw
      exact execTst_window h hs hv hm rfl rfl rfl held hcol hb hc rfl hf rfl hp rfl hw
    · intro k hw
      exact execTst_global h hs hv hm rfl rfl rfl held hcol hb hc rfl hf rfl rfl hal hpal hl hr rfl hw
  · intro w s x v hf h hs hv m e
    have alone : exec (.mcopy w) s = copyForm w none s := if_neg hf
    rw [alone]
    exact ⟨fun _ _ => copyForm_accepts h hs hv, fun _ _ => copyForm_traps h hs hv⟩
  · intro w fw op s s0 x v hw hcur hx
    refine ⟨fun s1 t => execMcopy_followFails hw hcur hx, fun hf h hs hv hg => ?_⟩
    intro m e s1 s2 c f hc hfw hwait
    exact (execMcopy_follow hw hcur hx hf).trans (copyForm_follows h hs hv hg rfl hc hfw hwait)
  · intro w s x tm h hs ht m hd
    obtain ⟨v, hm⟩ := team_moved h.2.1 hs ht
    have waits := execMwait_handle h hm
    have traps := @execMwait_traps _ _ _ _ h hm
    exact ⟨waits, execMwait_all h hm, fun hf _ => traps hf⟩

end Sys2Proof.Machine
end

section
/-! Software traps that no handler takes (R437, R438, R445, R454) and the handles of a core's palette (R394, R399, R400, R402 to R404): what an issue answers. -/

namespace Sys2Proof.Machine

/-! ## Software traps without a handler -/

/-- A software trap that is ignored only goes on to the next word. -/
theorem trapForm_ignored {op code : BitVec 8} {w : Fields} {s : State} {x : Exec} (h : Issues s kindPlain op w x)
    (hi : s.trapIgnored x (op = 0xFF#8) = true) : ∃ t, trapForm op code w s = .next t ∧ regsBecome x id s t :=
  issue_id h (if_pos hi)

/-- A trap of a sequencer whose handler is free and whose word is not a displaced one enters the handler. -/
theorem takeSeq_free {s : State} {n : Nat} (h : ((s.seq n).handler.isSome || (s.seq n).trapvec == 0#64 || (s.seq n).emul) = false)
    (code : BitVec 8) (detail : W64) (pc : BitVec 56) : s.takeSeq n code detail pc =
      s.setSeq { s.seq n with
        regs := { (s.seq n).regs with trapcause := code.zeroExtend 32, trapdetail := detail, trappc := pc.zeroExtend 64 }
        pc := (s.seq n).trapvec.extractLsb' 0 56, handler := some code, heldTrap := none } := by
  simp only [Bool.or_eq_false_iff, Option.isSome_eq_false_iff, beq_eq_false_iff_ne] at h
  obtain ⟨⟨hh, hv⟩, he⟩ := h
  unfold State.takeSeq
  exact if_pos ⟨hh, hv, ne_true_of_eq_false he⟩

/-- A software trap of a sequencer that is not ignored enters its handler. -/
theorem trapForm_sequencer {op code : BitVec 8} {w : Fields} {s : State} {x : Exec} {n : Nat} (h : Issues s kindPlain op w x) (hu : x.u = .seq n)
    (hi : s.trapIgnored x (op = 0xFF#8) = false) : trapForm op code w s = .next (s.setSeq { s.seq n with
      regs := { (s.seq n).regs with trapcause := code.zeroExtend 32, trapdetail := 0#48 ++ w.imm.extractLsb' 0 16, trappc := x.pc.zeroExtend 64 }
      pc := (s.seq n).trapvec.extractLsb' 0 56, handler := some code, heldTrap := none }) := by
  rw [trapForm_raises h hi]
  simp only [State.trapIgnored, hu] at hi
  simp only [raiseTrap, noteIssue, trapFrom, hu, takeSeq_free hi]

/-- A `brk` that the debugger takes stops its gang in the handler's entry. -/
theorem execBrk_debugged {w : Fields} {s : State} {x : Exec} {tm : Team} {v : Gang} (h : Issues s kindPlain 0xFF#8 w x) (hs : x.seq = false)
    (ht : s.team? x.t = some tm) (hv : s.gang? x.t x.g = some v) (hp : v.regs.pending = []) (hd : s.debugged x.t v = true) :
    execBrk w s = .next ((countPerf x.core 0x02 1 s.bump).setGang x.t x.g
      { (v.counted x s.tick s.ids).settle.enter 2#8 (0#48 ++ w.imm.extractLsb' 0 16) x.quads x.pc (tm.trapvec.extractLsb' 0 56) with
        status := .debug }) := by
  obtain ⟨_, _, hu, -⟩ := gang_unit h.2.1 hs
  have taken : s.trapIgnored x true = false := by
    simp only [State.trapIgnored, hu, hv, Option.any_some, hd, Bool.and_self, Bool.not_true, Bool.and_false]
  exact (trapForm_raises h taken).trans (congrArg Host.Outcome.next (raiseTrap_debug hu ht hv (by decide) hd hp))

/-- Settles O13: the trap is ignored and the unit moves on, or it is raised in the sequencer or for the debugger. -/
theorem softwareTrapsWithoutAHandler : Obligations.SoftwareTrapsWithoutAHandler := by
  intro i w s x op code hi h
  obtain ⟨-, hx⟩ := exec_softwareTrap hi
  refine ⟨fun hig => ?_, fun n hu hig => ?_, fun tm v hb hs ht hv hp hd => ?_⟩
  · rw [hx]
    exact trapForm_ignored h hig
  · rw [hx]
    exact trapForm_sequencer h hu hig
  · obtain ⟨rfl, -⟩ | ⟨-, rfl, rfl⟩ := hi
    · cases hb
    · rw [hb]
      exact execBrk_debugged h hs ht hv hp hd

/-! ## `talloc` -/

/-- The opcode of an issue is that of its instruction. -/
theorem Issues.op {s : State} {k : IssueKind} {op : BitVec 8} {w : Fields} {x : Exec} (h : Issues s k op w x) : x.op = op :=
  (execOf_u h.2.1).2.2

section
variable {w : Fields} {s : State} {x : Exec} {tm : Team} (h : Issues s (kindTable true false) 0xA0#8 w x)
  (ht : (moveOn x 16 s).team? x.t = some tm)
include h

/-- A request for a handle in use is a handle-released fault of cause 5. -/
theorem tallocFault_used {hd : BitVec 5} (hst : (tm.handle hd).st = .owned ∨ (tm.handle hd).st = .given) :
    tallocFault x tm hd = some (handleFault 0xA0#8 hd 5#8) := by
  obtain hst | hst := hst <;> simp only [tallocFault, hst, h.op]

omit h in
theorem tallocFault_free {hd : BitVec 5} (hst : (tm.handle hd).st = .unallocated ∨ (tm.handle hd).st = .released) :
    tallocFault x tm hd = none := by
  obtain hst | hst := hst <;> simp only [tallocFault, hst]

include ht

/-- A waiting request for a free handle holds it and leaves its grant to the arbiter. -/
theorem execTallocWait_waits {hd : BitVec 5} (hhd : hd = handleOf w.a) {v : Handle} (hv : v = tm.handle hd)
    (hst : v.st = .unallocated ∨ v.st = .released) :
    execTallocWait w s = .next (finish x ((blockUnit x (.talloc hd w.ty (mdCols w.md) v)
      ((moveOn x 16 s).modTeam x.t fun y => y.setHandle hd { v with st := .owned, own := BitVec.ofNat 5 x.g, tile := none })).arbitrate
        x.core)) := by
  subst hhd hv
  exact issue_next h (by simp only [ht, tallocFault_free hst])

/-- A request at once for a free handle is granted inside its reserve, or where the pool has room and no earlier waiter needs it. -/
theorem execTallocTry_answers {hd : BitVec 5} (hhd : hd = handleOf w.a) (hst : (tm.handle hd).st = .unallocated ∨ (tm.handle hd).st = .released)
    {n : Nat} (hn : n = granuleCount w.ty (mdCols w.md)) {ok behind : Bool}
    (hbe : behind = ((moveOn x 16 s).tileWaiters x.core).any fun q =>
      decide (q.deadline ≤ tm.deadline.toNat) && ((moveOn x 16 s).team? q.team).any fun z => q.need > z.reserveLeft)
    (hok : ok = ((moveOn x 16 s).withinReserve tm n || ((moveOn x 16 s).fitsTile tm n && !behind))) :
    execTallocTry w s = .next (finish x
      (writeK x ok (if ok then (moveOn x 16 s).grantTile x.t x.g hd w.ty (mdCols w.md) else moveOn x 16 s))) := by
  subst hhd hn hok hbe
  exact issue_next h (by simp only [ht, tallocFault_free hst])

/-- Both requests for a handle in use trap. -/
theorem execTalloc_traps {hd : BitVec 5} (hhd : hd = handleOf w.a) (hst : (tm.handle hd).st = .owned ∨ (tm.handle hd).st = .given) :
    execTallocWait w s = .next (raiseTrap x (handleFault 0xA0#8 hd 5#8) false s) ∧
    execTallocTry w s = .next (raiseTrap x (handleFault 0xA0#8 hd 5#8) false s) := by
  subst hhd
  have used := tallocFault_used h hst
  exact ⟨issue_trap h (by simp only [ht, used]), issue_trap h (by simp only [ht, used])⟩

end

/-! ## `tgive` -/

/-- Whether a gang may receive a handle does not depend on where the giving gang's quads are. -/
theorem receives_moved {s : State} {x : Exec} {tm : Team} {v : Gang} (ht : s.team? x.t = some tm) (hv : s.gang? x.t x.g = some v) (g : Nat) :
    (tm.setGang x.g (v.moved x 16)).receives g = tm.receives g := by
  obtain ⟨y, hy, hg⟩ := State.gang?_eq.1 hv
  obtain rfl : tm = y := Option.some.inj (ht.symm.trans hy)
  have inside : x.g < tm.gangs.length := (List.getElem?_eq_some_iff.1 hg).1
  unfold Team.receives
  rw [Team.setGang_gangs]
  by_cases he : g = x.g
  · subst he
    rw [getElem?_setNth _ _ _ inside, hg]
    rfl
  · rw [getElem?_setNth_other _ _ _ _ he]

section
variable {w : Fields} {s : State} {x : Exec} {tm : Team} (h : Issues s (kindTable true false) 0xA1#8 w x)
  (ht : (moveOn x 16 s).team? x.t = some tm) {hd : BitVec 5} (hhd : hd = handleOf w.a) (hb : (s.regsOf x.u).taint w.b = false)
include h ht hhd hb

/-- A held handle that no command works on is given, after a release, to a gang that has not retired. -/
theorem execTgive_gives {g : Nat} (hg : g = (s.regsOf x.u).halfOrImm w w.b) (held : heldFault x tm hd = none)
    (hr : tm.receives g = true) (idle : ((tm.handle hd).tile.any fun id => (moveOn x 16 s).tileBusy x.core id) = false)
    {s1 : State} (hrel : releaseAt x 0#3 (moveOn x 16 s) = .ok s1) :
    execTgive w s = .next (finish x (s1.modTeam x.t fun y =>
      y.setHandle hd { tm.handle hd with st := .given, dest := BitVec.ofNat 5 g })) := by
  subst hhd hg
  exact issue_next h (by
    simp only [regsOf_moved h.2.1, ht, consumeOnce_one hb, held, if_pos hr, firstFault_passed, firstFault_nil, if_neg (ne_true_of_eq_false idle), hrel])

/-- A handle that the gang does not hold is not given. -/
theorem execTgive_traps {t : Trap} (held : heldFault x tm hd = some t) : execTgive w s = .next (raiseTrap x t false s) := by
  subst hhd
  exact issue_trap h (by simp only [regsOf_moved h.2.1, ht, consumeOnce_one hb, held, firstFault_passed, firstFault_head])

end

/-! ## `ttake` -/

section
variable {w : Fields} {s : State} {x : Exec} {tm : Team} (h : Issues s (kindTable true false) 0xA2#8 w x)
  (ht : (moveOn x 16 s).team? x.t = some tm) {hd : BitVec 5} (hhd : hd = handleOf w.a) {v : Handle} (hv : v = tm.handle hd)
include h ht hhd hv

/-- A handle that is owned is answered by whether the gang is its owner. -/
theorem execTtake_owned (hst : v.st = .owned) : execTtake w s = .next (finish x (writeK x (v.own.toNat = x.g) (moveOn x 16 s))) := by
  subst hhd hv
  exact issue_next h (by simp only [ht, hst])

/-- A given handle is taken by the gang that it names, or back by its owner. -/
theorem execTtake_takes (hst : v.st = .given) (hm : v.dest.toNat = x.g ∨ v.own.toNat = x.g) :
    execTtake w s = .next (finish x (writeK x true ((moveOn x 16 s).modTeam x.t fun y =>
      y.setHandle hd { v with st := .owned, own := BitVec.ofNat 5 x.g, dest := 0#5 }))) := by
  subst hhd hv
  exact issue_next h (by simp only [ht, hst, if_pos hm])

/-- A given handle is refused to every other gang. -/
theorem execTtake_refuses (hst : v.st = .given) (hm : ¬ (v.dest.toNat = x.g ∨ v.own.toNat = x.g)) :
    execTtake w s = .next (finish x (writeK x false (moveOn x 16 s))) := by
  subst hhd hv
  exact issue_next h (by simp only [ht, hst, if_neg hm])

/-- A handle that was never allocated, or was released, is a handle-released fault of its cause. -/
theorem execTtake_traps :
    (v.st = .unallocated → execTtake w s = .next (raiseTrap x (handleFault 0xA2#8 hd 1#8) false s)) ∧
    (v.st = .released → execTtake w s = .next (raiseTrap x (handleFault 0xA2#8 hd 2#8) false s)) := by
  subst hhd hv
  exact ⟨fun hst => issue_trap h (by simp only [ht, hst, h.op]), fun hst => issue_trap h (by simp only [ht, hst, h.op])⟩

end

/-! ## `tfree` -/

section
variable {w : Fields} {s : State} {x : Exec} {tm : Team} (h : Issues s (kindTable true false) 0xA3#8 w x)
  (ht : (moveOn x 16 s).team? x.t = some tm)
include h ht

/-- A held handle is released. -/
theorem execTfree_frees (held : heldFault x tm (handleOf w.a) = none) :
    execTfree w s = .next (finish x ((moveOn x 16 s).releaseHandle x.t (handleOf w.a))) :=
  issue_next h (by simp only [ht, held])

/-- A handle that is not held is not freed. -/
theorem execTfree_traps {t : Trap} (held : heldFault x tm (handleOf w.a) = some t) : execTfree w s = .next (raiseTrap x t false s) :=
  issue_trap h (by simp only [ht, held])

end

/-- Settles O31: the state of the handle in the palette decides which end each body takes. -/
theorem handlesAreGrantedGivenTakenFreed : Obligations.HandlesAreGrantedGivenTakenFreed := by
  refine ⟨?_, ?_, ?_, ?_⟩
  · intro w s x tm h hs ht m hd v n
    obtain ⟨_, hm⟩ := team_moved h.2.1 hs ht
    refine ⟨fun hst => ⟨execTallocWait_waits h hm rfl rfl hst, fun y hy => ?_⟩, fun hst => execTalloc_traps h hm rfl hst⟩
    obtain rfl := Option.some.inj (hm.symm.trans hy)
    exact execTallocTry_answers h hm rfl hst rfl rfl rfl
  · intro w s x tm h hs ht m hd g
    obtain ⟨_, v, _, _, _, hv⟩ := gang_unit h.2.1 hs
    have hm := team_moved_gang h.2.1 hs ht hv 16
    refine ⟨fun hb held hr idle s1 hrel => ?_, fun hb t held => execTgive_traps h hm rfl hb held⟩
    exact execTgive_gives h hm rfl hb rfl held ((receives_moved ht hv g).trans hr) idle hrel
  · intro w s x tm h hs ht m hd v
    obtain ⟨_, hm⟩ := team_moved h.2.1 hs ht
    obtain ⟨never, after⟩ := execTtake_traps (v := v) h hm rfl rfl
    exact ⟨execTtake_owned h hm rfl rfl, execTtake_takes h hm rfl rfl, execTtake_refuses h hm rfl rfl, never, after⟩
  · intro w s x tm h hs ht hd
    obtain ⟨_, hm⟩ := team_moved h.2.1 hs ht
    exact ⟨fun held => execTfree_frees h hm held, fun t held => execTfree_traps h hm held⟩

end Sys2Proof.Machine
end

section
/-! The queue instructions (R345, R351, R366, R370, R375 to R380): what an issue answers once its checks have passed or failed. -/

namespace Sys2Proof.Machine

/-! ## `launch` -/

section
variable {w : Fields} {s : State} {x : Exec} (h : Issues s (kindQueue false) 0xE0#8 w x) (ha : (s.regsOf x.u).taint w.a = false)
  (hb : (s.regsOf x.u).taint w.b = false) {a : Nat} (hav : a = ((s.regsOf x.u).bits w.a).toNat)
include h ha hb hav

/-- A packet that is not aligned is misaligned. -/
theorem execLaunch_misaligned (hal : a % 128 ≠ 0) : execLaunch w s = .next (raiseTrap x (misalignedAt laneNone accRead a) false s) := by
  subst hav
  exact issue_trap h (by simp only [regsOf_moved h.2.1, consumeOnce_two ha hb, if_pos hal, firstFault_passed, firstFault_head])

variable {q : Nat} (hqv : q = ((s.regsOf x.u).bits w.b).toNat)
include hqv

/-- A clean, aligned packet of a queue that takes launches of the context is read, released and submitted. -/
theorem execLaunch_submits (hal : a % 128 = 0) (hq : (moveOn x 16 s).launchable q x.ctx = true) {s1 s2 : State} {o : Access}
    (hc : (moveOn x 16 s).checkObject x accRead 128 128 a true = (s1, .ok o)) {v : State × Nat × Bool}
    (hv : v = s1.read { o with strong := true, wide := true }) (hp : v.2.2 = false) (hr : releaseAt x 3#3 v.1 = .ok s2) :
    execLaunch w s = .next (finish x ((s2.send (s2.stampOf x) (roundTrip x.die ioPort [])).submitPacket q v.2.1 x.cluster)) := by
  subst hav hqv hv
  exact issue_next h (by
    simp only [regsOf_moved h.2.1, consumeOnce_two ha hb, if_neg (not_not.2 hal), if_pos hq, firstFault_passed, firstFault_nil, hc,
      if_neg (ne_true_of_eq_false hp), hr])

/-- A queue that takes no launches of the context is protected. -/
theorem execLaunch_refused (hal : a % 128 = 0) (hq : (moveOn x 16 s).launchable q x.ctx = false) :
    execLaunch w s = .next (raiseTrap x (protectionOnce (BitVec.ofNat 56 q)) false s) := by
  subst hav hqv
  exact issue_trap h (by
    simp only [regsOf_moved h.2.1, consumeOnce_two ha hb, if_neg (not_not.2 hal), if_neg (ne_true_of_eq_false hq), firstFault_passed,
      firstFault_head])

end

/-! ## `qappend` -/

section
variable {w : Fields} {s s1 s2 : State} {x : Exec} (h : Issues s (kindQueue false) 0xE1#8 w x) (ha : (s.regsOf x.u).taint w.a = false)
  (hb : (s.regsOf x.u).taint w.b = false) {b : Nat} (hbv : b = ((s.regsOf x.u).bits w.b).toNat) {p1 p2 : Point} {blk dsc : Access}
  (hc : (moveOn x 16 s).checkObjects x accBoth 64 64 [((s.regsOf x.u).bits w.a).toNat, b] true = (s1, .ok [(p1, blk), (p2, dsc)]))
  (hr : releaseAt x 3#3 ((s1.expose blk).expose dsc) = .ok s2) {last n : Nat} (hl : last = memNat s2.mem (blk.key + 8) 8)
include h ha hb hbv hc hr hl

/-- A descriptor becomes the first and the last of an empty chain. -/
theorem execQappend_first (hn : n = memNat s2.mem (blk.key + 0x10) 4) (he : last = 0) :
    execQappend w s = .next (finish x
      (((((s2.putAt blk 0x10 (n + 1) 4).putAt blk 8 b 8).putAt blk 0 b 8).putAt dsc 8 n 4).putAt dsc 0 0 8)) := by
  subst hbv hl hn
  exact issue_next h (by
    simp only [regsOf_moved h.2.1, consumeOnce_two ha hb, hc, List.map_cons, List.map_nil, List.headD_cons, List.drop_succ_cons,
      List.drop_zero, hr, if_pos he])

/-- A descriptor is linked after the last one of its chain. -/
theorem execQappend_linked (he : last ≠ 0) {s3 : State} {o : Access} (ho : s2.checkObject x accBoth 64 64 last true = (s3, .ok o))
    (hn : n = memNat s3.mem (blk.key + 0x10) 4) :
    execQappend w s = .next (finish x
      ((((((s3.putAt blk 0x10 (n + 1) 4).putAt blk 8 b 8).putAt dsc 8 n 4).putAt dsc 0 0 8).expose o).putAt o 0 b 8)) := by
  subst hbv hl hn
  exact issue_next h (by
    simp only [regsOf_moved h.2.1, consumeOnce_two ha hb, hc, List.map_cons, List.map_nil, List.headD_cons, List.drop_succ_cons,
      List.drop_zero, hr, if_neg he, ho])

end

/-! ## `qtail` -/

/-- The control block of a mover's chain told of its new tail: the tail moves where that lies ahead of it and not past the count (R377). -/
def State.moveTail (s : State) (blk : Access) (mover slot : Nat) (n : W32) : State :=
  let count := BitVec.ofNat 32 (memNat s.mem (blk.key + 0x10) 4)
  let tail := BitVec.ofNat 32 (memNat s.mem (blk.key + 0x14) 4)
  let z := if 0 < (n - tail).toNat ∧ (n - tail).toNat ≤ (count - tail).toNat then s.putAt blk 0x14 n.toNat 4 else s
  { z with registrations := updateFirst (fun g => g.mover = mover ∧ g.slot = slot) (fun g => { g with rung := true }) z.registrations }

section
variable {w : Fields} {s s1 s2 : State} {x : Exec} (h : Issues s (kindQueue false) 0xE2#8 w x) (ha : (s.regsOf x.u).taint w.a = false)
  (hb : (s.regsOf x.u).taint w.b = false) {a : Nat} (hav : a = ((s.regsOf x.u).bits w.a).toNat) {blk : Access}
  (hc : (moveOn x 16 s).checkObject x accBoth 64 1 a true = (s1, .ok blk)) (hs2 : s2 = s1.expose blk) {mover slot : Nat}
  (hm : mover = memNat s2.mem (blk.key + 0x20) 1) (hsl : slot = memNat s2.mem (blk.key + 0x21) 1)
include h ha hb hav hc hs2 hm hsl

/-- The tail of a registered control block moves after a release. -/
theorem execQtail_moves (hal : a % 64 = 0) (hg : s2.registered x.ctx a mover slot = true) {s3 : State}
    (hr : releaseAt x (if w.fn = 1#4 then 4#3 else if w.fn = 2#4 then 5#3 else 3#3) s2 = .ok s3) :
    execQtail w s = .next (finish x (s3.moveTail blk mover slot (((s.regsOf x.u).bits w.b).extractLsb' 0 32))) := by
  subst hav hs2 hm hsl
  have known : ¬ (((s.regsOf x.u).bits w.a).toNat % 64 ≠ 0 ∨ ¬ (s1.expose blk).registered x.ctx ((s.regsOf x.u).bits w.a).toNat
      (memNat (s1.expose blk).mem (blk.key + 0x20) 1) (memNat (s1.expose blk).mem (blk.key + 0x21) 1) = true) := by simp [hal, hg]
  exact issue_next h (by simp only [regsOf_moved h.2.1, consumeOnce_two ha hb, hc, if_neg known, hr, State.moveTail])

/-- A control block that is not aligned, or that is not registered, is protected. -/
theorem execQtail_traps (hno : a % 64 ≠ 0 ∨ s2.registered x.ctx a mover slot = false) :
    execQtail w s = .next (raiseTrap x (protectionAt laneNone accBoth a) false s) := by
  subst hav hs2 hm hsl
  rw [← Bool.not_eq_true] at hno
  exact issue_trap h (by simp only [regsOf_moved h.2.1, consumeOnce_two ha hb, hc, if_pos hno])

end

/-- Settles O33: each is an issue whose premises decide its checks, and so its submission, its links or its trap. -/
theorem launchesAndMoverQueues : Obligations.LaunchesAndMoverQueues := by
  refine ⟨?_, ?_, ?_⟩
  · intro w s x h m r a q ha hb
    exact ⟨fun hal hq _ _ _ hc => execLaunch_submits h ha hb rfl rfl hal hq hc rfl, execLaunch_misaligned h ha hb rfl,
      execLaunch_refused h ha hb rfl rfl⟩
  · intro w s x h m r a b ha hb s1 s2 p1 p2 blk dsc hc hr last n
    exact ⟨execQappend_first h ha hb rfl hc hr rfl rfl, fun he _ _ ho => execQappend_linked h ha hb rfl hc hr rfl he ho rfl⟩
  · intro w s x h m r a n ha hb s1 blk hc s2 mover slot
    exact ⟨fun hal hg _ hr => execQtail_moves h ha hb rfl hc rfl rfl rfl hal hg hr, execQtail_traps h ha hb rfl hc rfl rfl rfl⟩

/-! ## `evget` and `evwait` -/

/-- The result of `evget`: a record in a pair of registers. -/
def eventReply (id : Nat) (i : BitVec 6) (r : W128) : Result :=
  ⟨id, [], [⟨i, 3#2, r.extractLsb' 0 64, 0#2⟩, ⟨i + 1#6, 3#2, r.extractLsb' 64 64, 0#2⟩], [], [], 0#5, .none⟩

/-- The oldest record of a sequencer's queue goes outstanding to the pair. -/
theorem execEvget_takes {w : Fields} {s : State} {x : Exec} {sel : Sel} {i : BitVec 6} (h : Issues s (kindQueue true) 0xE3#8 w x)
    (hd : w.d = .sca sel i) {r : Seq × W128} (hr : r = ((moveOn x 16 s).seq x.cluster).takeEvent ((moveOn x 16 s).tickOf (unitOfSeq x.cluster))) :
    execEvget w s = .next (finish x (((moveOn x 16 s).setSeq r.1).bump.deliver x (eventReply (moveOn x 16 s).ids i r.2))) := by
  subst hr
  exact issue_next h (by simp only [hd, State.setSeq_ids, eventReply])

section
variable {w : Fields} {s : State} {x : Exec} (h : Issues s (kindQueue false) 0xE4#8 w x)
include h

/-- A sequencer with an event waiting goes on. -/
theorem execEvwait_goes (he : ((moveOn x 16 s).seq x.cluster).events ≠ []) : execEvwait w s = .next (finish x (moveOn x 16 s)) :=
  issue_next h (if_pos he)

/-- A sequencer without an event is blocked, up to its limit where it has one. -/
theorem execEvwait_blocks (he : ((moveOn x 16 s).seq x.cluster).events = []) :
    execEvwait w s = .next (finish x (blockUnit x (.evwait (if w.imm = 0#32 then none else
      some (((moveOn x 16 s).tickOf (unitOfSeq x.cluster)).toNat + 1000 * w.imm.toNat))) (moveOn x 16 s))) :=
  issue_next h (if_neg (not_not.2 he))

end

/-! ## `msem` -/

section
variable {w : Fields} {s s1 : State} {x : Exec} (h : Issues s (kindQueue true) 0xE5#8 w x) (ha : (s.regsOf x.u).taint w.a = false)
  (hb : (s.regsOf x.u).taint w.b = false)
include h ha hb

/-- The condition on a clean word that no remote operation of the unit is still to write goes outstanding, with an acquire. -/
theorem execMsem_tests {i : BitVec 3} (hd : w.d = .cond i) {o o' : Access}
    (hc : (moveOn x 16 s).checkObject x accRead 8 8 ((s.regsOf x.u).bits w.a).toNat false = (s1, .ok o))
    (ho : o' = { o with strong := true, wide := true }) {v : State × Nat × Bool} (hv : v = s1.read o')
    (hw : s1.awaitsOwn x o' = false) (hp : v.2.2 = false) :
    execMsem w s = .next (finish x ((⟨false, true, mdScope w.md⟩ : Effects).after x (v.1.bump.deliver x
      ⟨(moveOn x 16 s).ids, [], [], [(i, waitCond w.fn.toNat v.2.1 ((s.regsOf x.u).bits w.b).toNat)], [], 0#5, .none⟩))) := by
  subst hv ho
  exact issue_next h (by
    simp only [regsOf_moved h.2.1, consumeOnce_two ha hb, hc, if_neg (ne_true_of_eq_false hw), if_neg (ne_true_of_eq_false hp), hd])

/-- A word that fails a check traps. -/
theorem execMsem_traps {t : Trap}
    (hc : (moveOn x 16 s).checkObject x accRead 8 8 ((s.regsOf x.u).bits w.a).toNat false = (s1, .error t)) :
    execMsem w s = .next (raiseTrap x t false s) :=
  issue_trap h (by simp only [regsOf_moved h.2.1, consumeOnce_two ha hb, hc])

end

/-- Settles O34: the event queue, or the check of the word, decides which end each body takes. -/
theorem eventsAndMemorySemaphores : Obligations.EventsAndMemorySemaphores := by
  refine ⟨?_, ?_, ?_⟩
  · exact fun _ _ _ _ _ h hd => execEvget_takes h hd rfl
  · exact fun _ _ _ h => ⟨execEvwait_goes h, execEvwait_blocks h⟩
  · intro w s x i h hd m r a ha hb
    exact ⟨fun _ _ hc hw hp => execMsem_tests h ha hb hd hc rfl rfl hw hp, fun _ _ => execMsem_traps h ha hb⟩

end Sys2Proof.Machine
end

section
/-! Semaphores, default slack and sequence numbers (R416 to R422, R426, R427): what an issue answers once its checks have passed. -/

namespace Sys2Proof.Machine

/-! ## Semaphores -/

section
variable {w : Fields} {s s1 : State} {x : Exec}

section
variable {tm : Team} {e : Ensemble} {j : Nat} (hf : w.fn = 0#4) (hc : (moveOn x 16 s).checkRank x w = .ok (tm, e, j))
include hf hc

/-- A pair counter goes up, no further than its largest value, after a release. -/
theorem execSemup_pair (h : Issues s (kindSem false) 0xE8#8 w x) {e' : Ensemble}
    (hr : (⟨true, false, mdScope w.md⟩ : Effects).before x (moveOn x 16 s) = .ok s1) (he : s1.ensemble? tm.ensemble = some e') :
    execSemup w s = .next (finish x (s1.servePair e'
      { e'.counter tm.rank j with value := min ((e'.counter tm.rank j).value + semCount w) pairMax })) :=
  issue_next h (by simp only [if_pos hf, hc, hr, he])

/-- A waiter joins its pair counter and is blocked until it is served. -/
theorem execSemwait_pair (h : Issues s (kindSem false) 0xE9#8 w x) :
    execSemwait w s = .next (finish x ((blockUnit x (.semPair j tm.rank) (moveOn x 16 s)).servePair e
      { e.counter j tm.rank with waiters := (e.counter j tm.rank).waiters ++ [⟨x.u, semCount w, mdScope w.md⟩] })) :=
  issue_next h (by simp only [if_pos hf, hc])

/-- The value of a pair counter goes outstanding. -/
theorem execSemread_pair (h : Issues s (kindSem true) 0xEA#8 w x) :
    execSemread w s = .next (finish x ((⟨false, true, mdScope w.md⟩ : Effects).after x
      ((moveOn x 16 s).bump.deliver x (scalarReply x (moveOn x 16 s).ids .b32 (e.counter j tm.rank).value false)))) :=
  issue_next h (by simp only [if_pos hf, hc])

end

section
variable {a : Access} (hf : w.fn ≠ 0#4) (hc : (moveOn x 16 s).checkPark x w = (s1, .ok a))
include hf hc

/-- The word of a parking semaphore goes up after a release. -/
theorem execSemup_park (h : Issues s (kindSem false) 0xE8#8 w x) {s2 : State}
    (hr : (⟨true, false, mdScope w.md⟩ : Effects).before x s1 = .ok s2) :
    execSemup w s = .next (finish x (holdRemote x (scopeDom (mdScope w.md))
      (s2.parkUp x a ((s2.regsOf x.u).bits w.a).toNat (semCount w) (scopeDom (mdScope w.md))))) :=
  issue_next h (by simp only [if_neg hf, hc, hr, Effects.holds, Bool.true_and])

variable (hw : s1.awaitsOwn x a = false)
include hw

/-- A waiter joins the queue of its parking word and is blocked until it is served. -/
theorem execSemwait_park (h : Issues s (kindSem false) 0xE9#8 w x) :
    execSemwait w s = .next (finish x ((blockUnit x (.semPark a.parkKey) (s1.expose a)).enqueuePark
      ⟨a.parkKey, x.u, semCount w, mdScope w.md, false⟩).servePark) :=
  issue_next h (by simp only [if_neg hf, hc, if_neg (ne_true_of_eq_false hw)])

/-- The word of a parking semaphore goes outstanding. -/
theorem execSemread_park (h : Issues s (kindSem true) 0xEA#8 w x) {r : State × Nat × Bool} (hr : r = s1.read a) :
    execSemread w s = .next (finish x ((⟨false, true, mdScope w.md⟩ : Effects).after x
      (r.1.bump.deliver x (scalarReply x (moveOn x 16 s).ids .b64 r.2.1 r.2.2)))) := by
  subst hr
  exact issue_next h (by simp only [if_neg hf, hc, if_neg (ne_true_of_eq_false hw)])

end
end

/-! ## `slkset` -/

/-- The default slack that `slkset` sets for a value (R416, R427). -/
def State.slackFor (s : State) (x : Exec) (v : Nat) : BitVec 12 :=
  if v = 0 then slackOf (s.special x 0x16) (s.special x 0x10) else BitVec.ofNat 12 (min v 4095)

/-- The unit's default slack becomes the given one, or that of R416. -/
theorem execSlkset_sets {w : Fields} {s : State} {x : Exec} (h : Issues s kindPlain 0xEB#8 w x) (ha : (s.regsOf x.u).taint w.a = false)
    {slack : BitVec 12} (hs : slack = (moveOn x 16 s).slackFor x ((s.regsOf x.u).halfOrImm w w.a)) :
    (∀ t g, x.u = .gang t g → execSlkset w s = .next (finish x ((moveOn x 16 s).modTeam t fun y => { y with slack := slack }))) ∧
    (∀ n, x.u = .seq n → execSlkset w s = .next (finish x ((moveOn x 16 s).modSeq n fun q => { q with slack := slack }))) := by
  subst hs
  have clean := consumeOnce_one (a := w.a) ha
  constructor
  · exact fun t g hu => issue_next h (by
      simp only [regsOf_moved h.2.1, clean, State.slackFor]
      simp only [hu])
  · exact fun n hu => issue_next h (by
      simp only [regsOf_moved h.2.1, clean, State.slackFor]
      simp only [hu])

/-! ## `seqwait` -/

/-- A unit waits until a mover's sequence number passes the given one. -/
theorem execSeqwait_waits {w : Fields} {s s1 : State} {x : Exec} {a : Access} (h : Issues s { kindPlain with memory := true } 0xEC#8 w x)
    (ha : (s.regsOf x.u).taint w.a = false) (hb : (s.regsOf x.u).taint w.b = false)
    (hc : (moveOn x 16 s).checkObject x accBoth 64 64 ((s.regsOf x.u).bits w.a).toNat true = (s1, .ok a)) :
    execSeqwait w s = .next (finish x ((blockUnit x
      (.seqwait a.key (((s.regsOf x.u).bits w.b).extractLsb' 0 32) (mdScope w.md)) (s1.writeBack a.die (a.key / 128))).serveSeqwaits)) :=
  issue_next h (by simp only [regsOf_moved h.2.1, consumeOnce_two ha hb, hc])

/-- Settles O35: the premises are the checks of each form, past which its body has one end. -/
theorem semaphoresSlackAndSequence : Obligations.SemaphoresSlackAndSequence := by
  refine ⟨?_, ?_, ?_, ?_, ?_, ?_, ?_, ?_⟩
  · exact fun _ _ _ _ _ _ _ _ h hf hc hr he => execSemup_pair hf hc h hr he
  · exact fun _ _ _ _ _ _ h hf hc hr => execSemup_park hf hc h hr
  · exact fun _ _ _ _ _ _ h hf hc => execSemwait_pair hf hc h
  · exact fun _ _ _ _ _ h hf hc hw => execSemwait_park hf hc hw h
  · exact fun _ _ _ _ _ _ h hf hc => execSemread_pair hf hc h
  · exact fun _ _ _ _ _ h hf hc hw => execSemread_park hf hc hw h rfl
  · exact fun _ _ _ h ha => execSlkset_sets h ha rfl
  · exact fun _ _ _ _ _ h ha hb hc => execSeqwait_waits h ha hb hc

end Sys2Proof.Machine
end

section
/-! The invariant (R241, R495 to R498): which fields it reads, and the operations on the parts of the state that it speaks of. Below, in the order of the model, a lemma `inv_f` says that the function `f` keeps it. -/

namespace Sys2Proof.Machine

/-! ## What the invariant reads -/

section
variable {s : State} (h : s.Inv)
include h

theorem State.Inv.mem : Memory.wf s.mem = true := let ⟨⟨hm, _⟩, _⟩ := h; hm
theorem State.Inv.scratch (d : Fin 9) : Memory.wf s.dies[d].scratch = true := let ⟨⟨_, hd, _⟩, _⟩ := h; hd d
theorem State.Inv.window {x : Team} (hx : x ∈ s.teams) : Memory.wf x.window = true := let ⟨⟨_, _, ht⟩, _⟩ := h; ht x hx
theorem State.Inv.start : s.start.legal = true := let ⟨_, hs⟩ := h; hs

end

/-- The invariant of a state whose parts are those of a state that has it, but for the memories, the dies, the teams and the start. -/
theorem State.Inv.update {s t : State} (h : s.Inv) (hm : t.mem = s.mem) (hd : t.dies = s.dies) (ht : t.teams = s.teams)
    (hs : t.start = s.start) : t.Inv := by
  unfold State.Inv State.tidy
  rw [hm, hd, ht, hs]
  exact h

/-- The checks of an access keep the invariant. -/
theorem State.Inv.looked {s t : State} (h : s.Inv) (hl : looked s t) : t.Inv := by
  unfold Machine.looked at hl
  rw [hl]
  exact h

/-- A record of other fields around the memories, the dies, the teams and the start of a state keeps its invariant. -/
theorem inv_update (s : State) (ens : List Ensemble) (las : List Launch) (cos : List Core) (sqs : List Seq) (chs : Vector Chip 12)
    (mps : List Nat) (ros : List RemoteOp) (lws : List LostWrite) (prs : List Promotion) (pws : List ParkWaiter) (ivs : List Inval)
    (pks : List Packet) (zs : List (Nat × W32)) (pos : List Post) (tk : Nat) (ep : W64) (cis : Vector Circuit 16) (pas : List Pair)
    (sws : List SwitchCmd) (asg : BitVec 384) (tp : Option Topology) (sys : Vector Syndrome 23) (qus : List QueueReg) (sls : List QueueSlot)
    (cxs : List Ctx) (rss : List Reservation) (rgs : List Registration) (fos : List FaultRecord) (fn : Nat) (frs : List (List Byte))
    (fws : List WaitingRecord) (ets : Vector EthPort 4) (rts : List Retrain) (dps : List Nat) (l0 l1 : Bool)
    (hr : Option (List Byte × List Bool)) (rp sn : Nat) (att : List Byte) (tw : W64) (ms : Vector (BitVec 512) 8) (fl : Flash)
    (ib pw st : Bool) (ag : List Turn) (cu : Option Issuer) (fr is : Nat) :
    State.Inv { s with
      ensembles := ens, launches := las, cores := cos, seqs := sqs, chips := chs, memPoison := mps, remote := ros, lostWrites := lws
      promotions := prs, parkWaiters := pws, invals := ivs, packets := pks, zsc := zs, posts := pos, tick := tk, epoch := ep, circuits := cis
      pairs := pas, switchCmds := sws, assignment := asg, topology := tp, syndromes := sys, queues := qus, slots := sls, ctxs := cxs
      reservations := rss, registrations := rgs, fabricOut := fos, fabricNext := fn, fabricRing := frs, fabricWaiting := fws, eth := ets
      retrains := rts, deadPorts := dps, link0 := l0, link1 := l1, hostReply := hr, reports := rp, studioNotices := sn, attestation := att
      termWord := tw, measures := ms, flash := fl, icBusy := ib, powered := pw, stopped := st, agenda := ag, cur := cu, free := fr, ids := is } =
    s.Inv := rfl

/-- The invariant of a state that comes with an answer. -/
theorem inv_of_eq {α : Type} {p : State × α} (h : p.1.Inv) {m : State} {a : α} (e : p = (m, a)) : m.Inv := by
  subst e
  exact h

/-! ## Changes in turn -/

/-- Changes that keep the invariant keep it one after another. -/
theorem inv_foldl {α : Type} {f : State → α → State} (hf : ∀ s a, s.Inv → (f s a).Inv) (l : List α) {s : State} (h : s.Inv) :
    (l.foldl f s).Inv := by
  induction l generalizing s with
  | nil => exact h
  | cons a l ih => exact ih (hf s a h)

/-! ## Teams and dies -/

/-- Teams whose windows are canonical keep the invariant. -/
theorem State.Inv.teams {s t : State} (h : s.Inv) (ht : ∀ x ∈ t.teams, Memory.wf x.window = true) (hm : t.mem = s.mem)
    (hd : t.dies = s.dies) (hs : t.start = s.start) : t.Inv := by
  refine ⟨⟨?_, fun d => ?_, ht⟩, ?_⟩
  · rw [hm]
    exact h.mem
  · rw [hd]
    exact h.scratch d
  · rw [hs]
    exact h.start

/-- Dies whose scratch is canonical keep the invariant. -/
theorem State.Inv.dies {s t : State} (h : s.Inv) (hd : ∀ d : Fin 9, Memory.wf t.dies[d].scratch = true) (hm : t.mem = s.mem)
    (ht : t.teams = s.teams) (hs : t.start = s.start) : t.Inv := by
  refine ⟨⟨?_, hd, fun x hx => ?_⟩, ?_⟩
  · rw [hm]
    exact h.mem
  · rw [ht] at hx
    exact h.window hx
  · rw [hs]
    exact h.start

/-- A canonical memory keeps the invariant. -/
theorem State.Inv.memory {s t : State} (h : s.Inv) (hm : Memory.wf t.mem = true) (hd : t.dies = s.dies) (ht : t.teams = s.teams)
    (hs : t.start = s.start) : t.Inv := by
  refine ⟨⟨hm, fun d => ?_, fun x hx => ?_⟩, ?_⟩
  · rw [hd]
    exact h.scratch d
  · rw [ht] at hx
    exact h.window hx
  · rw [hs]
    exact h.start

/-- The scratch of a die is canonical. -/
theorem State.Inv.die {s : State} (h : s.Inv) (n : Nat) : Memory.wf (s.die n).scratch = true := by
  unfold State.die vget
  split
  · exact h.scratch ⟨n, ‹_›⟩
  · exact nil_wf

section
variable {s : State} (h : s.Inv)
include h

/-- The window of a team is canonical. -/
theorem State.Inv.team {t : Nat} {x : Team} (hx : s.team? t = some x) : Memory.wf x.window = true :=
  h.window (List.mem_of_find?_eq_some hx)

theorem State.Inv.map_window {f : Team → Team} (hf : ∀ x, (f x).window = x.window) {x : Team} (hx : x ∈ s.teams.map f) :
    Memory.wf x.window = true := by
  obtain ⟨y, hy, rfl⟩ := List.mem_map.1 hx
  rw [hf]
  exact h.window hy

theorem State.Inv.replaceIf_window {p : Team → Bool} {f : Team → Team} (hf : ∀ x, (f x).window = x.window) {x : Team}
    (hx : x ∈ replaceIf p f s.teams) : Memory.wf x.window = true := by
  obtain ⟨y, hy, rfl⟩ := mem_replaceIf _ _ hx
  have hw := h.window hy
  split
  · rw [hf]
    exact hw
  · exact hw

theorem State.Inv.append_window {y : Team} (hy : Memory.wf y.window = true) {x : Team} (hx : x ∈ s.teams ++ [y]) :
    Memory.wf x.window = true := by
  obtain hx | hx := List.mem_append.1 hx
  · exact h.window hx
  · obtain rfl := List.mem_singleton.1 hx
    exact hy

theorem inv_modTeam {t : Nat} {f : Team → Team} (hf : ∀ x, Memory.wf x.window = true → Memory.wf (f x).window = true) :
    (s.modTeam t f).Inv := by
  refine h.teams (fun x hx => ?_) rfl rfl rfl
  obtain hx | ⟨y, hy, rfl⟩ := mem_updateFirst _ f hx
  · exact h.window hx
  · exact hf y (h.team hy)

theorem inv_modDie {n : Nat} {f : Die → Die} (hf : ∀ d, Memory.wf d.scratch = true → Memory.wf (f d).scratch = true) :
    (s.modDie n f).Inv := by
  refine h.dies (fun d => ?_) rfl rfl rfl
  by_cases he : n = d.val
  · subst he
    have hd : (s.modDie d.val f).dies[d] = f (s.die d.val) := (vget_fin _ d Die.reset).symm.trans (State.die_modDie s d.val f d.isLt)
    rw [hd]
    exact hf _ (h.die _)
  · have hd : (s.modDie n f).dies[d] = s.dies[d] :=
      (vget_fin _ d Die.reset).symm.trans ((State.die_modDie_other s n d f he).trans (vget_fin _ d _))
    rw [hd]
    exact h.scratch d

theorem inv_setGang (t g : Nat) (v : Gang) : (s.setGang t g v).Inv := inv_modTeam h fun _ hx => hx

theorem inv_modGang (t g : Nat) (f : Gang → Gang) : (s.modGang t g f).Inv :=
  inv_modTeam h fun _ hx => by split <;> exact hx

theorem inv_sideMerge (k : Nat) (mask : BitVec 128) (d : BitVec 1024) (brings : Bool) : (s.sideMerge k mask d brings).Inv :=
  h.memory (sideMerge_wf k mask d brings h.mem) rfl rfl rfl

theorem inv_sideBytes (a : Nat) (bs : List Byte) : (s.sideBytes a bs).Inv := h.memory (sideBytes_wf a bs h.mem) rfl rfl rfl

end
end Sys2Proof.Machine
end

section
/-! What keeps the invariant (R241, R495 to R498): the state, traps and issues. -/

namespace Sys2Proof.Machine

section
variable {s : State} (h : s.Inv)
include h

theorem inv_setSeq (v : Seq) : (s.setSeq v).Inv := h

theorem inv_modSeq (n : Nat) (f : Seq → Seq) : (s.modSeq n f).Inv := h

theorem inv_modCore (n : Nat) (f : Core → Core) : (s.modCore n f).Inv := h

theorem inv_modChip (n : Nat) (f : Chip → Chip) : (s.modChip n f).Inv := h

theorem inv_modCtx (n : Nat) (f : Ctx → Ctx) : (s.modCtx n f).Inv := h

theorem inv_modEnsemble (e : Nat) (f : Ensemble → Ensemble) : (s.modEnsemble e f).Inv := h

theorem inv_modLaunch (k : Nat) (f : Launch → Launch) : (s.modLaunch k f).Inv := h

theorem inv_modQueue (q : Nat) (f : QueueReg → QueueReg) : (s.modQueue q f).Inv := h

theorem inv_modPair (i j : Nat) (f : Pair → Pair) : (s.modPair i j f).Inv := h

theorem inv_bump : s.bump.Inv := h

theorem inv_modRegs (u : Issuer) (f : Regs → Regs) : (s.modRegs u f).Inv := by
  unfold State.modRegs
  split
  · exact inv_modGang h _ _ _
  · exact h

theorem inv_moveOn (x : Exec) (len : Nat) : (moveOn x len s).Inv := by
  unfold moveOn
  split
  · exact inv_modGang h _ _ _
  · exact h

theorem inv_endTeam (t : Nat) (lost : Bool) : (s.endTeam t lost).Inv := inv_modTeam h fun _ hx => hx

theorem inv_endContext (c : Nat) : (s.endContext c).Inv := h

theorem inv_stopSeq (n : Nat) : (s.stopSeq n).Inv := h

theorem inv_serveGang (t g : Nat) (code : BitVec 8) (quads : QuadMask) (pc : BitVec 56) : (s.serveGang t g code quads pc).Inv := by
  unfold State.serveGang
  grind [inv_setGang, inv_endContext]

theorem inv_takeGang (t g : Nat) (code : BitVec 8) (detail : W64) (quads : QuadMask) (pc : BitVec 56) (brk : Bool) :
    (s.takeGang t g code detail quads pc brk).Inv := by
  unfold State.takeGang
  grind [inv_setGang, inv_serveGang]

theorem inv_takeSeq (n : Nat) (code : BitVec 8) (detail : W64) (pc : BitVec 56) : (s.takeSeq n code detail pc).Inv := by
  unfold State.takeSeq
  grind [inv_setSeq, inv_stopSeq]

theorem inv_countPerf (core ev n : Nat) : (countPerf core ev n s).Inv := h

theorem inv_noteIssue (x : Exec) : (noteIssue x s).Inv := by
  unfold noteIssue
  split
  · exact inv_modGang h _ _ _
  · exact h

theorem inv_trapFrom (x : Exec) (t : Trap) (brk : Bool) : (trapFrom x t brk s).Inv := by
  unfold trapFrom
  grind [inv_countPerf, inv_takeGang, inv_setGang, inv_takeSeq, inv_stopSeq]

theorem inv_raiseTrap (x : Exec) (t : Trap) (brk : Bool) : (raiseTrap x t brk s).Inv := inv_trapFrom (inv_noteIssue h _) _ _ _

theorem inv_wake (u : Issuer) : (s.wake u).Inv := by
  unfold State.wake
  split
  · exact inv_modGang h _ _ _
  · exact h

theorem inv_blockUnit (x : Exec) (why : Block) : (blockUnit x why s).Inv := by
  unfold blockUnit
  split
  · exact inv_modGang h _ _ _
  · exact h

theorem inv_finish (x : Exec) : (finish x s).Inv := by
  unfold finish
  grind [inv_countPerf, inv_bump, inv_modGang, inv_modCore]

theorem inv_waitUnit (x : Exec) (w : Wait) : (waitUnit x w s).Inv := by
  unfold waitUnit
  split
  · exact inv_modGang h _ _ _
  · exact h

theorem inv_falseGuard (k : IssueKind) (x : Exec) : (falseGuard k x s).Inv := by
  unfold falseGuard
  grind [inv_modGang]

/-- An issue keeps the invariant where its body does. -/
theorem inv_issue {k : IssueKind} {op : BitVec 8} {w : Fields} {len : Nat} {body : Exec → State → Except Stop State}
    (hb : ∀ x m z, m.Inv → body x m = .ok z → z.Inv) {z : State} (e : issue k op w len body s = .next z) : z.Inv := by
  unfold issue at e
  split at e
  · cases e
  · next x _ =>
    have moved := inv_moveOn h x len
    have done := hb x (moveOn x len s)
    cases e
    generalize decide (op = 0xFF#8) = brk
    grind [inv_raiseTrap, inv_finish, inv_falseGuard, inv_waitUnit]

theorem inv_gangBody (f : Exec → Gang → Except Stop Gang) (x : Exec) {z : State} (e : gangBody f x s = .ok z) : z.Inv := by
  unfold gangBody at e
  grind [inv_setGang]

theorem inv_regsBody (f : Exec → Regs → Except Stop Regs) (x : Exec) {z : State} (e : regsBody f x s = .ok z) : z.Inv := by
  unfold regsBody at e
  grind [inv_modRegs]

theorem inv_trapReturn (x : Exec) (fn : Nat) {z : State} (e : trapReturn x fn s = .ok z) : z.Inv := by
  unfold trapReturn at e
  split at e
  · split at e
    · grind
    · split at e
      · grind
      · split at e
        · cases e
          exact inv_endTeam h _ _
        · grind [inv_setGang]
  · grind [inv_stopSeq, inv_setSeq]

end
end Sys2Proof.Machine
end

section
/-! What keeps the invariant (R241, R495 to R498): global memory: copies, sectors and stores. -/

namespace Sys2Proof.Machine

section
variable {s : State} (h : s.Inv)
include h

theorem inv_writeBack (die k : Nat) : (s.writeBack die k).Inv := by
  unfold State.writeBack
  split
  · exact h
  · split
    · exact h
    · exact inv_modDie (inv_sideMerge h _ _ _ _) fun _ hd => hd

theorem inv_writeBackAll (die : Nat) : (s.writeBackAll die).Inv := inv_foldl (fun _ _ h => inv_writeBack h _ _) _ h

theorem inv_evict (die k : Nat) : (s.evict die k).Inv := by
  unfold State.evict
  grind [inv_writeBack, inv_modDie]

theorem inv_evictAll (die : Nat) : (s.evictAll die).Inv := by
  unfold State.evictAll
  grind [inv_writeBackAll, inv_modDie]

theorem inv_dieRead (die k : Nat) (shared : Bool) (need : BitVec 128) : (s.dieRead die k shared need).1.Inv := by
  unfold State.dieRead
  dsimp only
  split
  · exact inv_modDie h fun _ hd => hd
  · split
    · exact h
    · exact inv_modDie h fun _ hd => hd

theorem inv_dieWrite (die k : Nat) (shared : Bool) (mask : BitVec 128) (v : BitVec 1024) (brings : Bool) :
    (s.dieWrite die k shared mask v brings).Inv := inv_modDie h fun _ hd => by dsimp only; split <;> exact hd

theorem inv_l1Close (core k : Nat) : (s.l1Close core k).Inv := by
  unfold State.l1Close
  split <;> exact h

theorem inv_l1Update (core k : Nat) (mask : BitVec 128) (v : BitVec 1024) : (s.l1Update core k mask v).Inv := by
  unfold State.l1Update
  grind [inv_l1Close, inv_modCore]

theorem inv_l1Drop (core k : Nat) : (s.l1Drop core k).Inv := by
  unfold State.l1Drop
  split <;> exact h

theorem inv_l1Clear (core : Nat) : (s.l1Clear core).Inv := h

theorem inv_l1Join (core : Nat) (m : Miss) (who : Option Issuer) : (s.l1Join core m who).Inv := by
  unfold State.l1Join
  split <;> exact h

theorem inv_l1Miss (core k : Nat) (who : Option Issuer) (data : BitVec 1024) (poison : Bool) : (s.l1Miss core k who data poison).Inv := h

theorem inv_read (a : Access) : (s.read a).1.Inv := by
  unfold State.read
  grind [inv_evict, inv_dieRead, inv_l1Join, inv_l1Miss, inv_modCore]

theorem inv_write (a : Access) (mask : BitVec 128) (v : BitVec 1024) (brings : Bool) : (s.write a mask v brings).Inv := by
  unfold State.write
  split
  · exact inv_modDie h fun _ hd => memPutMasked_wf _ _ _ _ hd
  · grind [inv_evict, inv_sideMerge, inv_l1Close, inv_l1Drop, inv_dieWrite, inv_writeBack, inv_l1Update]

theorem inv_expose (a : Access) : (s.expose a).Inv := by
  unfold State.expose
  grind [inv_evict, inv_l1Close, inv_l1Drop]

theorem inv_acquire (team core : Option Nat) (die : Nat) (sc : BitVec 3) : (s.acquire team core die sc).Inv := by
  have unfill : ∀ t (z : State), z.Inv → (z.modTeam t Team.unfill).Inv := fun t z hz => inv_modTeam hz fun _ hx => hx
  have advance : ∀ n (z : State), z.Inv → (z.modDie n Die.advance).Inv := fun n z hz => inv_modDie hz fun _ hd => hd
  unfold State.acquire
  grind [inv_l1Clear]

end
end Sys2Proof.Machine
end

section
/-! What keeps the invariant (R241, R495 to R498): traffic. -/

namespace Sys2Proof.Machine

section
variable {s : State} (h : s.Inv)
include h

theorem inv_sendFor (st : Stamp) (reply : Option (Issuer × Nat)) (away : Option Nat) (path : List Nat) : (s.sendFor st reply away path).Inv := by
  unfold State.sendFor
  split <;> exact h

theorem inv_send (st : Stamp) (path : List Nat) : (s.send st path).Inv := inv_sendFor h _ _ _ _

end
end Sys2Proof.Machine
end

section
/-! What keeps the invariant (R241, R495 to R498): translation and fetch. -/

namespace Sys2Proof.Machine

section
variable {s : State} (h : s.Inv)
include h

theorem inv_lookChip (ctx va : Nat) : (s.lookChip ctx va).1.Inv := by
  unfold State.lookChip
  grind [inv_modChip]

theorem inv_lookCluster (cluster ctx va : Nat) : (s.lookCluster cluster ctx va).1.Inv := by
  unfold State.lookCluster
  grind [inv_lookChip, inv_modSeq]

theorem inv_lookCore (core ctx va : Nat) : (s.lookCore core ctx va).1.Inv := by
  unfold State.lookCore
  grind [inv_lookCluster, inv_modCore]

theorem inv_sendWalk (x : Exec) (va : Nat) : (s.sendWalk x va).Inv := by
  unfold State.sendWalk
  have fold := @inv_foldl
  grind [inv_send]

theorem inv_look (x : Exec) (va : Nat) : (s.look x va).1.Inv := by
  unfold State.look
  grind [inv_sendWalk, inv_lookCluster, inv_lookCore]

theorem inv_word (x : Exec) (va : Nat) (src : BitVec 2) : (s.word x va src).1.Inv := by
  unfold State.word
  grind [inv_look, inv_read, inv_modCore]

theorem inv_fetch (x : Exec) : (s.fetch x).1.Inv := by
  unfold State.fetch
  grind [inv_word]

end
end Sys2Proof.Machine
end

section
/-! What keeps the invariant (R241, R495 to R498): watches and parking semaphores. -/

namespace Sys2Proof.Machine

section
variable {s : State} (h : s.Inv)
include h

theorem inv_acquireBy (u : Issuer) (sc : BitVec 3) : (s.acquireBy u sc).Inv := by
  unfold State.acquireBy
  grind [inv_modTeam, inv_acquire, inv_modSeq]

theorem inv_wakeAcquire (u : Issuer) (sc : BitVec 3) : (s.wakeAcquire u sc).Inv := inv_wake (inv_acquireBy h _ _) _

theorem inv_wakeAll (us : List (Issuer × BitVec 3)) : (s.wakeAll us).Inv := inv_foldl (fun _ _ h => inv_wakeAcquire h _ _) _ h

theorem inv_parkPut (k v : Nat) : (s.parkPut k v).Inv := by
  unfold State.parkPut
  dsimp only
  split
  · exact h.memory (memPutBytes_wf _ _ h.mem) rfl rfl rfl
  · exact inv_modDie h fun _ hd => memPutBytes_wf _ _ hd

theorem inv_notifyParked (u : Issuer) : (s.notifyParked u).Inv := by
  unfold State.notifyParked
  grind [inv_modEnsemble]

theorem inv_testPark (held : List Nat) (ws : List ParkWaiter) : (s.testPark held ws).Inv := by
  induction ws generalizing s held with
  | nil => exact h
  | cons w ws ih =>
    unfold State.testPark
    grind [inv_parkPut, inv_wakeAcquire, inv_notifyParked, inv_update]

theorem inv_servePark : s.servePark.Inv := inv_testPark h _ _

theorem inv_seqWake (u : Issuer) (st : Status) : (s.seqWake u st).Inv := by
  unfold State.seqWake
  grind [inv_wakeAcquire]

theorem inv_serveSeqwaits : s.serveSeqwaits.Inv := by
  unfold State.serveSeqwaits
  refine inv_foldl (fun s q h => inv_seqWake h _ _) _ (inv_foldl (fun s tm h => ?_) _ h)
  split
  · exact inv_foldl (fun s p h => inv_seqWake h _ _) _ h
  · exact h

theorem inv_serveWatches : s.serveWatches.Inv := inv_serveSeqwaits (inv_servePark h)

end
end Sys2Proof.Machine
end

section
/-! What keeps the invariant (R241, R495 to R498): turns. -/

namespace Sys2Proof.Machine

section
variable {s : State} (h : s.Inv)
include h

theorem inv_firstAcquire (u : Issuer) : (s.firstAcquire u).Inv := by
  unfold State.firstAcquire
  grind [inv_acquireBy, inv_modTeam]

end
end Sys2Proof.Machine
end

section
/-! What keeps the invariant (R241, R495 to R498): vector operands. -/

namespace Sys2Proof.Machine

section
variable {s : State} (h : s.Inv)
include h

theorem inv_envBody (f : Env → Except Stop Gang) (x : Exec) {z : State} (e : envBody f x s = .ok z) : z.Inv := by
  unfold envBody at e
  grind [inv_setGang]

theorem inv_vectorOp (op : BitVec 8) (w : Fields) (ta tb tc : Ty) (wd : Nat) (k : Affine) (f : Nat → Nat → Nat → Nat) {z : State}
    (e : vectorOp op w ta tb tc wd k f s = .next z) : z.Inv :=
  inv_issue h (fun _ _ _ h e => inv_envBody h _ _ e) e

theorem inv_vectorTest (op : BitVec 8) (w : Fields) (ta tb tc : Ty) (f : Fin 32 → Nat → Nat → Nat → Bool) {z : State}
    (e : vectorTest op w ta tb tc f s = .next z) : z.Inv :=
  inv_issue h (fun _ _ _ h e => inv_envBody h _ _ e) e

theorem inv_scalarOp (op : BitVec 8) (w : Fields) (ta tb tc td : Ty) (f : Nat → Nat → Nat → Nat) {z : State}
    (e : scalarOp op w ta tb tc td f s = .next z) : z.Inv := by
  refine inv_issue h (fun x m z h e => ?_) e
  grind [inv_modRegs]

end
end Sys2Proof.Machine
end

section
/-! What keeps the invariant (R241, R495 to R498): float flags. -/

namespace Sys2Proof.Machine

section
variable {s : State} (h : s.Inv)
include h

theorem inv_floatOp (op : BitVec 8) (w : Fields) (late : Bool) (ta tb tc : Ty) (wd n : Nat)
    (f : Mode → (Nat → Nat) → Nat → Nat → Nat → Nat × BitVec 5) {z : State} (e : floatOp op w late ta tb tc wd n f s = .next z) : z.Inv :=
  inv_issue h (fun _ _ _ h e => inv_envBody h _ _ e) e

theorem inv_floatScalar (op : BitVec 8) (w : Fields) (ta tb tc td : Ty) (f : Mode → Nat → Nat → Nat → Nat × BitVec 5) {z : State}
    (e : floatScalar op w ta tb tc td f s = .next z) : z.Inv := by
  refine inv_issue h (fun x m z h e => ?_) e
  grind [inv_modRegs]

end
end Sys2Proof.Machine
end

section
/-! What keeps the invariant (R241, R495 to R498): accesses, stash and window. -/

namespace Sys2Proof.Machine

section
variable {s : State} (h : s.Inv)
include h

theorem inv_probe (x : Exec) (acc : BitVec 2) (size : Nat) (p : Point) : (s.probe x acc size p).1.Inv := by
  unfold State.probe
  split
  · exact h
  · exact inv_look h _ _

theorem inv_sendRequests (st : Stamp) (reply : Option (Issuer × Nat)) (md : BitVec 11) (acc : BitVec 2) (as : List Access) (seen : List Nat) :
    (s.sendRequests st reply md acc as seen).Inv := h.looked (looked_sendRequests st reply md acc as s seen)

theorem inv_sendWriteBacks (st : Stamp) (die : Nat) : (s.sendWriteBacks st die).Inv := inv_foldl (fun _ _ h => inv_send h _ _) _ h

theorem inv_probeAll (x : Exec) (acc : BitVec 2) (size : Nat) (ps : List Point) (f : Option (Nat × Trap)) (as : List (Point × Access)) :
    (s.probeAll x acc size ps f as).1.Inv := h.looked (looked_probeAll x acc size ps s f as)

theorem inv_checkGlobal (x : Exec) (acc : BitVec 2) (size align : Nat) (ps : List Point) : (s.checkGlobal x acc size align ps).1.Inv := by
  unfold State.checkGlobal
  grind [inv_probeAll, inv_sendRequests]

theorem inv_sendRemote (r : RemoteOp) : (s.sendRemote r).Inv := h

theorem inv_store (x : Exec) (r : Request) (brings holds : Bool) (acq : Option (BitVec 3)) : (s.store x r brings holds acq).Inv := by
  unfold State.store
  grind [inv_write, inv_serveWatches, inv_sendRemote]

theorem inv_stashFill (st : Stamp) (t k : Nat) (a : Access) : (s.stashFill st t k a).Inv := by
  unfold State.stashFill
  split
  · exact h
  · exact inv_modTeam (inv_read (inv_send h _ _) _) fun _ hx => memPutMasked_wf _ _ _ _ hx

theorem inv_stashBack (x : Exec) (locks : Bool) (sc : BitVec 3) (t k : Nat) {z : State} (e : s.stashBack x locks sc t k = .ok z) : z.Inv := by
  have cleaned : ∀ (m : State) (y : StashSector), m.Inv → (m.modTeam t fun tm => tm.setSector y).Inv :=
    fun m y hm => inv_modTeam hm fun _ hx => hx
  unfold State.stashBack at e
  split at e
  · cases e; exact h
  · dsimp only at e
    split at e
    · cases e; exact h
    · next p _ =>
      split at e
      · cases e; exact h
      · split at e
        · cases e
        · split at e
          · cases e
          · next m a he =>
            have hm := inv_of_eq (inv_probe h _ _ _ _) he
            split at e
            · cases e
            · split at e
              · cases e
              · cases e
                exact cleaned _ _ (inv_store (inv_send hm _ _) _ _ _ _ _)

theorem inv_stashBackAll (x : Exec) (locks : Bool) (sc : BitVec 3) (t : Nat) (ks : List Nat) {z : State}
    (e : s.stashBackAll x locks sc t ks = .ok z) : z.Inv := by
  induction ks generalizing s with
  | nil => cases e; exact h
  | cons k ks ih =>
    unfold State.stashBackAll at e
    grind [inv_stashBack]

theorem inv_settleDie (st : Stamp) (die : Nat) : (s.settleDie st die).Inv := by
  unfold State.settleDie
  grind [inv_sendWriteBacks, inv_writeBackAll, inv_serveWatches]

theorem inv_passLost (x : Exec) (sc : BitVec 3) (l : Nat × Nat) : (s.passLost x sc l).Inv := by
  unfold State.passLost
  grind [inv_update]

theorem inv_stashRelease (x : Exec) (sc : BitVec 3) {z : State} (e : stashRelease x sc s = .ok z) : z.Inv := by
  unfold stashRelease at e
  grind [inv_stashBackAll]

theorem inv_releaseAt (x : Exec) (sc : BitVec 3) {z : State} (e : releaseAt x sc s = .ok z) : z.Inv := by
  unfold releaseAt at e
  grind [inv_stashRelease, inv_settleDie, inv_passLost]

theorem inv_before (f : Effects) (x : Exec) {z : State} (e : Effects.before f x s = .ok z) : z.Inv := by
  unfold Effects.before at e
  grind [inv_releaseAt]

theorem inv_after (f : Effects) (x : Exec) : (Effects.after f x s).Inv := by
  unfold Effects.after
  split
  · exact inv_acquireBy h _ _
  · exact h

theorem inv_settle (f : Effects) (x : Exec) (as : List Access) : (Effects.settle f x as s).Inv := by
  unfold Effects.settle
  split
  · exact h
  · exact inv_after h _ _

theorem inv_promoteAll (x : Exec) : (s.promoteAll x).Inv := inv_foldl (fun _ _ h => inv_settleDie h _ _) _ h

theorem inv_holdRemote (x : Exec) (holds : Bool) : (holdRemote x holds s).Inv := by
  unfold holdRemote
  split
  · exact inv_blockUnit h _ _
  · exact h

theorem inv_deliver (x : Exec) (r : Result) : (s.deliver x r).Inv := by
  unfold State.deliver
  split
  · exact inv_modGang h _ _ _
  · exact h

theorem inv_readLanes (ps : List (Point × Access)) (rs : List (Nat × Nat × Bool)) : (s.readLanes ps rs).1.Inv := by
  induction ps generalizing s rs with
  | nil => exact h
  | cons p ps ih => exact ih (inv_read h p.2) _

omit h in
/-- An atomic keeps a memory canonical. -/
theorem atomicAt_wf {m : List Host.Cell} (hm : Memory.wf m = true) (o : AtomicOp) (a : Nat) (p : Bool) :
    Memory.wf (atomicAt o m a p).1 = true := by
  unfold atomicAt
  split
  · exact hm
  · exact memPutBytes_wf _ _ hm

theorem inv_atomic (a : Access) (o : AtomicOp) : (s.atomic a o).1.Inv := by
  unfold State.atomic
  split
  · exact inv_serveWatches (inv_modDie h fun _ _ => atomicAt_wf (h.die _) _ _ _)
  · have hx := inv_serveWatches (inv_expose h a)
    exact inv_serveWatches (hx.memory (atomicAt_wf hx.mem _ _ _) rfl rfl rfl)

theorem inv_postPoison (core va : Nat) : (s.postPoison core va).Inv := h

end
end Sys2Proof.Machine
end

section
/-! What keeps the invariant (R241, R495 to R498): memory instructions. -/

namespace Sys2Proof.Machine

section
variable {s : State} (h : s.Inv)
include h

/-- The body of a gang with its environment keeps the invariant where its function does. -/
theorem inv_memBody {f : Env → State → Except Stop State} (hf : ∀ v m z, m.Inv → f v m = .ok z → z.Inv) {x : Exec} {z : State}
    (e : memBody f x s = .ok z) : z.Inv := by
  unfold memBody at e
  grind

theorem inv_accesses (e : Env) (acc : BitVec 2) (size align : Nat) (more : List (Operand × Mask)) : (Env.accesses e s acc size align more).1.Inv := by
  unfold Env.accesses
  grind [inv_checkGlobal]

theorem inv_loadGlobal (op : BitVec 8) (w : Fields) {z : State} (e : loadGlobal op w s = .next z) : z.Inv := by
  refine inv_issue h (fun _ _ _ h e => inv_memBody h (fun v m z h e => ?_) e) e
  grind [inv_accesses, inv_before, inv_promoteAll, inv_readLanes, inv_after, inv_deliver]

theorem inv_storeAll (x : Exec) (f : Effects) (rs : List Request) : (storeAll x f rs s).Inv := inv_foldl (fun _ _ h => inv_store h _ _ _ _ _) _ h

theorem inv_storeGlobal (op : BitVec 8) (w : Fields) {z : State} (e : storeGlobal op w s = .next z) : z.Inv := by
  refine inv_issue h (fun _ _ _ h e => inv_memBody h (fun v m z h e => ?_) e) e
  grind [inv_accesses, inv_before, inv_holdRemote, inv_settle, inv_storeAll]

theorem inv_probeStash (x : Exec) (acc : BitVec 2) (size : Nat) (points : List Point) : (s.probeStash x acc size points).1.Inv := by
  unfold State.probeStash
  grind [inv_probeAll]

theorem inv_checkWindow (x : Exec) (write : Bool) (size : Nat) (tgt : Option Team) (ps : List (Nat × Int)) :
    (s.checkWindow x write size tgt ps).1.Inv := by
  unfold State.checkWindow
  grind [inv_probeStash]

theorem inv_fillAll (st : Stamp) (t : Nat) (ps : List (Nat × Nat)) (fs : List (Point × Access)) : (s.fillAll st t ps fs).Inv := by
  induction fs generalizing s with
  | nil => exact h
  | cons f fs ih =>
    unfold State.fillAll
    grind [inv_stashFill]

/-- An access of a window keeps the invariant where what it does past its checks keeps it. -/
theorem inv_windowAccess {v : Env} {write : Bool} {size : Nat} {f : Effects} {k : Nat → List (Nat × Nat) → State → State}
    (hk : ∀ t os m, m.Inv → (k t os m).Inv) {z : State} (e : windowAccess v write size s f k = .ok z) : z.Inv := by
  unfold windowAccess at e
  grind [inv_checkWindow, inv_before, inv_fillAll, inv_after]

theorem inv_execLd (w : Fields) {z : State} (e : execLd w s = .next z) : z.Inv := inv_loadGlobal h _ _ e

theorem inv_execSt (w : Fields) {z : State} (e : execSt w s = .next z) : z.Inv := inv_storeGlobal h _ _ e

theorem inv_execLdsp (w : Fields) {z : State} (e : execLdsp w s = .next z) : z.Inv := by
  refine inv_issue h (fun _ _ _ h e => inv_memBody h (fun v m z h e => ?_) e) e
  grind [inv_windowAccess, inv_deliver]

theorem inv_storeWindow {t k : Nat} {mask : BitVec 128} {d : BitVec 1024} {brings : Bool} :
    (s.modTeam t fun x => x.storeWindow k mask d brings).Inv :=
  inv_modTeam h fun x hx => by
    have put : Memory.wf (x.putWindow k mask d brings).window = true := memPutMasked_wf _ _ _ _ hx
    unfold Team.storeWindow
    dsimp only
    split <;> exact put

theorem inv_execStsp (w : Fields) {z : State} (e : execStsp w s = .next z) : z.Inv := by
  refine inv_issue h (fun _ _ _ h e => inv_memBody h (fun v m z h e => ?_) e) e
  dsimp only at e
  split at e
  · cases e
  · exact inv_windowAccess h (fun _ _ _ h => inv_foldl (fun _ _ h => inv_storeWindow h) _ h) e

theorem inv_execSld (w : Fields) {z : State} (e : execSld w s = .next z) : z.Inv := by
  refine inv_issue h (fun x m z h e => ?_) e
  grind [inv_checkGlobal, inv_before, inv_promoteAll, inv_readLanes, inv_after, inv_deliver]

theorem inv_execSst (w : Fields) {z : State} (e : execSst w s = .next z) : z.Inv := by
  refine inv_issue h (fun x m z h e => ?_) e
  grind [inv_checkGlobal, inv_before, inv_holdRemote, inv_settle, inv_storeAll]

theorem inv_execXlate (w : Fields) {z : State} (e : execXlate w s = .next z) : z.Inv := by
  refine inv_issue h (fun x m z h e => ?_) e
  grind [inv_look, inv_deliver]

theorem inv_probePages (x : Exec) (ps : List (Nat × Nat)) (f : Option (Nat × Trap)) : (s.probePages x ps f).1.Inv := by
  induction ps generalizing s f with
  | nil => exact h
  | cons p ps ih =>
    unfold State.probePages
    grind [inv_probe]

theorem inv_unmapMap {t slot n : Nat} {p : StashSlot} :
    (s.modTeam t fun tm => if n > 0 then (tm.unmap slot).mapSlot slot p else tm.unmap slot).Inv := by
  refine inv_modTeam h fun x hx => ?_
  have unmapped : Memory.wf (x.unmap slot).window = true := by
    unfold Team.unmap
    split
    · exact hx
    · exact filter_wf _ hx
  split
  · exact filter_wf _ unmapped
  · exact unmapped

theorem inv_execStmap (w : Fields) {z : State} (e : execStmap w s = .next z) : z.Inv := by
  refine inv_issue h (fun x m z h e => ?_) e
  dsimp only at e
  split at e
  · cases e
  · cases e; exact h
  · split at e
    · cases e
    · split at e
      · cases e
      · split at e
        · cases e
        · split at e
          · cases e
          · next m' he =>
            have hm := inv_of_eq (inv_probePages h _ _ _) he
            split at e
            · cases e
            · split at e
              · cases e
              · next m'' hb =>
                have hz := inv_stashBackAll hm _ _ _ _ _ hb
                cases e
                exact inv_unmapMap hz

theorem inv_execStflush (w : Fields) {z : State} (e : execStflush w s = .next z) : z.Inv := by
  refine inv_issue h (fun x m z h e => ?_) e
  dsimp only at e
  split at e
  · cases e; exact h
  · split at e
    · cases e
    · next m' hb =>
      have hm := inv_stashBackAll h _ _ _ _ _ hb
      split at e
      · exact inv_releaseAt hm _ _ e
      · cases e; exact hm

theorem inv_atomicLanes (v : Env) (dest : Bool) (ord : Effects) (ps : List (Point × Access)) (rs : List (Nat × Nat × Bool)) (f : BitVec 5) :
    (s.atomicLanes v dest ord ps rs f).1.Inv := by
  induction ps generalizing s rs f with
  | nil => exact h
  | cons p ps ih =>
    unfold State.atomicLanes
    grind [inv_sendRemote, inv_atomic, inv_postPoison]

theorem inv_atomicForm (op : BitVec 8) (w : Fields) (dest : Bool) {z : State} (e : atomicForm op w dest s = .next z) : z.Inv := by
  refine inv_issue h (fun _ _ _ h e => inv_memBody h (fun v m z h e => ?_) e) e
  dsimp only at e
  split at e
  · cases e
  · next m' as he =>
    have hm := inv_of_eq (inv_accesses h _ _ _ _ _) he
    split at e
    · cases e
    · next m'' hb =>
      have hz := inv_atomicLanes (inv_before hm _ _ hb) v dest ⟨mdOrder w.md = 3#2, mdOrder w.md = 3#2, mdScope w.md⟩ as [] 0#5
      cases e
      refine inv_holdRemote (inv_settle ?_ _ _ _) _ _
      split
      · exact inv_deliver hz _ _
      · exact hz

theorem inv_execAtom (w : Fields) {z : State} (e : execAtom w s = .next z) : z.Inv := inv_atomicForm h _ _ _ e

theorem inv_execRed (w : Fields) {z : State} (e : execRed w s = .next z) : z.Inv := inv_atomicForm h _ _ _ e

theorem inv_execFence (w : Fields) {z : State} (e : execFence w s = .next z) : z.Inv := by
  refine inv_issue h (fun x m z h e => ?_) e
  grind [inv_before, inv_promoteAll, inv_after]

theorem inv_execFpromote (w : Fields) {z : State} (e : execFpromote w s = .next z) : z.Inv := by
  refine inv_issue h (fun x m z h e => ?_) e
  grind [inv_bump, inv_update]

theorem inv_prefetchLane (x : Exec) (hint : BitVec 2) (p : Point) : (s.prefetchLane x hint p).Inv := by
  unfold State.prefetchLane
  grind [inv_probe, inv_read]

theorem inv_execPrefetch (w : Fields) {z : State} (e : execPrefetch w s = .next z) : z.Inv := by
  refine inv_issue h (fun _ _ _ h e => inv_memBody h (fun v m z h e => ?_) e) e
  cases e
  refine inv_foldl (fun m p h => ?_) _ h
  split
  · exact h
  · exact inv_prefetchLane h _ _ _

theorem inv_execLdg (w : Fields) {z : State} (e : execLdg w s = .next z) : z.Inv := inv_loadGlobal h _ _ e

theorem inv_execStg (w : Fields) {z : State} (e : execStg w s = .next z) : z.Inv := inv_storeGlobal h _ _ e

end
end Sys2Proof.Machine
end

section
/-! What keeps the invariant (R241, R495 to R498): tiles and commands. -/

namespace Sys2Proof.Machine

section
variable {s : State} (h : s.Inv)
include h

theorem inv_modTile (t id : Nat) (f : Tile → Tile) : (s.modTile t id f).Inv := inv_modTeam h fun _ hx => hx

theorem inv_setHandle (t : Nat) (b : BitVec 5) (v : Handle) : (s.modTeam t fun x => x.setHandle b v).Inv := inv_modTeam h fun _ hx => hx

theorem inv_grantTile (t g : Nat) (h' : BitVec 5) (ty : Ty) (cols : Nat) : (s.grantTile t g h' ty cols).Inv := inv_modTeam (inv_bump h) fun _ hx => hx

theorem inv_grantWaiter (w : Waiter) : (s.grantWaiter w).Inv := by
  unfold State.grantWaiter
  split
  · exact inv_wake (inv_grantTile h _ _ _ _ _) _
  · exact h

theorem inv_grantReserved (ws : List Waiter) : (s.grantReserved ws).Inv := by
  induction ws generalizing s with
  | nil => exact h
  | cons w ws ih =>
    unfold State.grantReserved
    grind [inv_grantWaiter]

theorem inv_grantPooled (ws : List Waiter) : (s.grantPooled ws).Inv := by
  induction ws generalizing s with
  | nil => exact h
  | cons w ws ih =>
    unfold State.grantPooled
    grind [inv_grantWaiter]

theorem inv_arbitrate (core : Nat) : (s.arbitrate core).Inv := inv_grantPooled (inv_grantReserved h _) _

theorem inv_clearTile (t id : Nat) : (s.clearTile t id).Inv := by
  unfold State.clearTile
  grind [inv_bump, inv_modTeam, inv_modCore]

theorem inv_freeTile (t id : Nat) : (s.freeTile t id).Inv := by
  unfold State.freeTile
  split
  · exact inv_modTile h _ _ _
  · exact inv_clearTile h _ _

theorem inv_releaseHandle (t : Nat) (h' : BitVec 5) : (s.releaseHandle t h').Inv := by
  unfold State.releaseHandle
  split
  · exact h
  · next x _ =>
    have hv := inv_setHandle h t h' { x.handle h' with st := .released, tile := none }
    dsimp only
    split
    · exact inv_freeTile hv _ _
    · exact hv

theorem inv_retireHandles (t g : Nat) : (s.retireHandles t g).Inv := by
  unfold State.retireHandles
  have fold := @inv_foldl
  grind [inv_releaseHandle]

theorem inv_exitHandles (t : Nat) : (s.exitHandles t).Inv := by
  unfold State.exitHandles
  split
  · exact h
  · exact inv_foldl (fun _ _ h => inv_freeTile h _ _) _ (inv_modTeam h fun _ hx => hx)

theorem inv_accept (x : Exec) (c : Command) : (s.accept x c).Inv := h

theorem inv_submit (x : Exec) (cs : List Command) {z : State} (e : s.submit x cs = .ok z) : z.Inv := by
  unfold State.submit at e
  split at e
  · cases e
  · cases e
    exact inv_foldl (fun _ _ h => inv_accept h _ _) _ h

theorem inv_probeFills (x : Exec) (tm : Team) (rs : List (Nat × Nat)) : (s.probeFills x tm rs).1.Inv := by
  unfold State.probeFills
  grind [inv_probeAll]

theorem inv_probePieces (x : Exec) (acc : BitVec 2) (ps : List (Nat × Nat)) (f : Option (Nat × Trap)) (ls : List Leaf) :
    (s.probePieces x acc ps f ls).1.Inv := by
  induction ps generalizing s f ls with
  | nil => cases f <;> exact h
  | cons p ps ih =>
    unfold State.probePieces
    grind [inv_probe, inv_look]

theorem inv_probeRanges (x : Exec) (acc : BitVec 2) (rs : List (Nat × Nat)) : (s.probeRanges x acc rs).1.Inv := by
  unfold State.probeRanges
  split
  · exact h
  · exact inv_probePieces h _ _ _ _ _

end
end Sys2Proof.Machine
end

section
/-! What keeps the invariant (R241, R495 to R498): matrix instructions. -/

namespace Sys2Proof.Machine

section
variable {s : State} (h : s.Inv)
include h

theorem inv_fillRange (x : Exec) (st : Stamp) (t o n : Nat) : (s.fillRange x st t o n).Inv := by
  unfold State.fillRange
  have fold := @inv_foldl
  grind [inv_probe, inv_stashFill]

theorem inv_readPieces (x : Exec) (c : Command) (va : Nat) (qs : List (Nat × Nat)) (v : Nat) (p : Bool) :
    (s.readPieces x c va qs v p).1.Inv := by
  induction qs generalizing s v p with
  | nil => exact h
  | cons q qs ih => exact ih (inv_read (inv_sendRequests h _ _ _ _ _ _) _) _ _

theorem inv_writePieces (x : Exec) (c : Command) (va v : Nat) (bad : Nat → Nat → Bool) (qs : List (Nat × Nat)) :
    (s.writePieces x c va v bad qs).Inv := by
  induction qs generalizing s with
  | nil => exact h
  | cons q qs ih =>
    unfold State.writePieces
    grind [inv_sendRequests, inv_write, inv_serveWatches]

theorem inv_writeWindow (t o n v : Nat) (bad : Nat → Bool) : (s.writeWindow t o n v bad).Inv := inv_foldl (fun _ _ h => inv_storeWindow h) _ h

theorem inv_performMatrix (c : Command) : (s.performMatrix c).1.Inv := by
  unfold State.performMatrix
  grind [inv_fillRange, inv_modTile]

theorem inv_performConvert (c : Command) : (s.performConvert c).1.Inv := by
  unfold State.performConvert
  grind [inv_modTile]

theorem inv_readRows (x : Exec) (c : Command) (len : Nat) (rows vs : List Nat) (p : Bool) : (s.readRows x c len rows vs p).1.Inv := by
  induction rows generalizing s vs p with
  | nil => exact h
  | cons r rs ih => exact ih (inv_readPieces h _ _ _ _ _ _) _ _

theorem inv_performLoad (c : Command) : (s.performLoad c).Inv := by
  unfold State.performLoad
  grind [inv_modTile, inv_fillRange, inv_readRows]

theorem inv_performStore (c : Command) : (s.performStore c).Inv := by
  unfold State.performStore
  have fold := @inv_foldl
  grind [inv_word, inv_modGang, inv_writeWindow, inv_writePieces]

theorem inv_performCopy (c : Command) : (s.performCopy c).Inv := inv_foldl (fun _ _ h => inv_storeWindow (inv_readPieces h _ _ _ _ _ _)) _ h

theorem inv_perform (c : Command) : (s.perform c).1.Inv := by
  unfold State.perform
  grind [inv_performMatrix, inv_performConvert, inv_performLoad, inv_performStore, inv_performCopy]

theorem inv_wakeMwaits (core : Nat) : (s.wakeMwaits core).Inv := by
  unfold State.wakeMwaits
  have fold := @inv_foldl
  grind [inv_wake]

theorem inv_completeCommand (core : Nat) (c : Command) : (s.completeCommand core c).Inv := by
  unfold State.completeCommand
  have fold := @inv_foldl
  grind [inv_perform, inv_modGang, inv_modCore, inv_clearTile, inv_wakeMwaits]

theorem inv_matrixCommand (e : Env) (kind : CmdKind) : (Env.matrixCommand e s kind).1.Inv := by
  unfold Env.matrixCommand
  grind [inv_probeFills]

theorem inv_matrixForm (op : BitVec 8) (kind : CmdKind) (w : Fields) {z : State} (e : matrixForm op kind w s = .next z) : z.Inv := by
  refine inv_issue h (fun _ _ _ h e => inv_memBody h (fun v m z h e => ?_) e) e
  grind [inv_matrixCommand, inv_submit]

theorem inv_execMma (w : Fields) {z : State} (e : execMma w s = .next z) : z.Inv := inv_matrixForm h _ _ _ e

theorem inv_execMmat (w : Fields) {z : State} (e : execMmat w s = .next z) : z.Inv := inv_matrixForm h _ _ _ e

theorem inv_execMperm (w : Fields) {z : State} (e : execMperm w s = .next z) : z.Inv := inv_matrixForm h _ _ _ e

theorem inv_execMrsum (w : Fields) {z : State} (e : execMrsum w s = .next z) : z.Inv := inv_matrixForm h _ _ _ e

theorem inv_execTld (w : Fields) {z : State} (e : execTld w s = .next z) : z.Inv := by
  refine inv_issue h (fun _ _ _ h e => inv_memBody h (fun v m z h e => ?_) e) e
  dsimp only at e
  split at e
  · cases e; exact h
  · split at e
    · cases e
    · split at e
      · exact inv_submit (inv_setGang h _ _ _) _ _ e
      · split at e
        · split at e
          · cases e
          · next he => exact inv_submit (inv_of_eq (inv_probeRanges h _ _ _) he) _ _ e
        · split at e
          · cases e
          · split at e
            · cases e
            · next he => exact inv_submit (inv_of_eq (inv_probeFills h _ _ _) he) _ _ e

theorem inv_execTst (w : Fields) {z : State} (e : execTst w s = .next z) : z.Inv := by
  refine inv_issue h (fun _ _ _ h e => inv_memBody h (fun v m z h e => ?_) e) e
  grind [inv_submit, inv_bump, inv_modGang, inv_probeRanges]

theorem inv_execTcvt (w : Fields) {z : State} (e : execTcvt w s = .next z) : z.Inv := by
  refine inv_issue h (fun _ _ _ h e => inv_memBody h (fun v m z h e => ?_) e) e
  grind [inv_submit]

theorem inv_execTzero (w : Fields) {z : State} (e : execTzero w s = .next z) : z.Inv := by
  refine inv_issue h (fun _ _ _ h e => inv_memBody h (fun v m z h e => ?_) e) e
  grind [inv_submit]

theorem inv_copyCommand (e : Env) : (Env.copyCommand e s).1.Inv := by
  unfold Env.copyCommand
  grind [inv_probeRanges]

theorem inv_followOn (x : Exec) : (s.followOn x).1.Inv := by
  unfold State.followOn
  grind [inv_word]

theorem inv_copyForm (w : Fields) (follow : Option (BitVec 8 × Fields)) {z : State} (e : copyForm w follow s = .next z) : z.Inv := by
  refine inv_issue h (fun _ _ _ h e => inv_memBody h (fun v m z h e => ?_) e) e
  grind [inv_copyCommand, inv_submit, inv_matrixCommand]

theorem inv_execMcopy (w : Fields) {z : State} (e : execMcopy w s = .next z) : z.Inv := by
  unfold execMcopy at e
  grind [inv_followOn, inv_raiseTrap, inv_copyForm]

theorem inv_execMwait (w : Fields) {z : State} (e : execMwait w s = .next z) : z.Inv := by
  refine inv_issue h (fun x m z h e => ?_) e
  grind [inv_blockUnit]

end
end Sys2Proof.Machine
end

section
/-! What keeps the invariant (R241, R495 to R498): tables, locks and handles. -/

namespace Sys2Proof.Machine

section
variable {s : State} (h : s.Inv)
include h

theorem inv_writeK (x : Exec) (b : Bool) : (writeK x b s).Inv := by
  unfold writeK
  split
  · exact inv_modRegs h _ _
  · exact h

theorem inv_execTallocWait (w : Fields) {z : State} (e : execTallocWait w s = .next z) : z.Inv := by
  refine inv_issue h (fun x m z h e => ?_) e
  dsimp only at e
  split at e
  · cases e; exact h
  · split at e
    · cases e
    · cases e
      exact inv_arbitrate (inv_blockUnit (inv_setHandle h _ _ _) _ _) _

theorem inv_execTallocTry (w : Fields) {z : State} (e : execTallocTry w s = .next z) : z.Inv := by
  refine inv_issue h (fun x m z h e => ?_) e
  grind [inv_writeK, inv_grantTile]

theorem inv_execTgive (w : Fields) {z : State} (e : execTgive w s = .next z) : z.Inv := by
  refine inv_issue h (fun x m z h e => ?_) e
  dsimp only at e
  split at e
  · cases e; exact h
  · split at e
    · cases e
    · split at e
      · cases e
      · split at e
        · cases e
        · next m' hr =>
          cases e
          exact inv_setHandle (inv_releaseAt h _ _ hr) _ _ _

theorem inv_execTtake (w : Fields) {z : State} (e : execTtake w s = .next z) : z.Inv := by
  refine inv_issue h (fun x m z h e => ?_) e
  dsimp only at e
  split at e
  · cases e; exact h
  · split at e
    · cases e
    · cases e
    · cases e; exact inv_writeK h _ _
    · split at e
      · cases e; exact inv_writeK (inv_setHandle h _ _ _) _ _
      · cases e; exact inv_writeK h _ _

theorem inv_execTfree (w : Fields) {z : State} (e : execTfree w s = .next z) : z.Inv := by
  refine inv_issue h (fun x m z h e => ?_) e
  grind [inv_releaseHandle]

theorem inv_writeS (x : Exec) (v : W64) : (writeS x v s).Inv := by
  unfold writeS
  split
  · exact inv_modRegs h _ _
  · exact h

theorem inv_execRlock (w : Fields) {z : State} (e : execRlock w s = .next z) : z.Inv := by
  refine inv_issue h (fun x m z h e => ?_) e
  grind [inv_writeS, inv_modCore]

theorem inv_execRunlock (w : Fields) {z : State} (e : execRunlock w s = .next z) : z.Inv := by
  refine inv_issue h (fun x m z h e => ?_) e
  grind [inv_modCore]

theorem inv_evictFrames (rs : List (Nat × Nat)) (die : Nat) : (s.evictFrames rs die).Inv := inv_foldl (fun _ _ h => inv_evict h _ _) _ h

theorem inv_invalidate (ctx lo hi : Nat) : (s.invalidate ctx lo hi).Inv := by
  refine inv_serveWatches (inv_foldl (fun _ _ h => inv_evictFrames h _ _) _ (h.teams (fun _ => h.map_window fun x => ?_) rfl rfl rfl))
  split <;> rfl

theorem inv_execCprobe (w : Fields) {z : State} (e : execCprobe w s = .next z) : z.Inv := by
  refine inv_issue h (fun x m z h e => ?_) e
  grind [inv_deliver]

end
end Sys2Proof.Machine
end

section
/-! What keeps the invariant (R241, R495 to R498): barriers, counters and semaphores. -/

namespace Sys2Proof.Machine

section
variable {s : State} (h : s.Inv)
include h

theorem inv_checkObjects (x : Exec) (acc : BitVec 2) (size align : Nat) (vas : List Nat) (home : Bool) :
    (s.checkObjects x acc size align vas home).1.Inv := by
  unfold State.checkObjects
  grind [inv_probeAll, inv_sendRequests]

theorem inv_checkObject (x : Exec) (acc : BitVec 2) (size align va : Nat) (home : Bool) : (s.checkObject x acc size align va home).1.Inv := by
  unfold State.checkObject
  grind [inv_checkObjects]

theorem inv_servePair (e : Ensemble) (c : PairCounter) : (s.servePair e c).Inv := by
  unfold State.servePair
  grind [inv_modEnsemble, inv_wakeAll]

theorem inv_enqueuePark (w : ParkWaiter) : (s.enqueuePark w).Inv := h

theorem inv_checkPark (x : Exec) (w : Fields) : (s.checkPark x w).1.Inv := by
  unfold State.checkPark
  grind [inv_checkObject]

theorem inv_parkUp (x : Exec) (a : Access) (va n : Nat) (holds : Bool) : (s.parkUp x a va n holds).Inv := by
  unfold State.parkUp
  grind [inv_sendRemote, inv_atomic, inv_postPoison]

theorem inv_execSemup (w : Fields) {z : State} (e : execSemup w s = .next z) : z.Inv := by
  refine inv_issue h (fun x m z h e => ?_) e
  grind [inv_before, inv_servePair, inv_checkPark, inv_holdRemote, inv_parkUp]

theorem inv_execSemwait (w : Fields) {z : State} (e : execSemwait w s = .next z) : z.Inv := by
  refine inv_issue h (fun x m z h e => ?_) e
  grind [inv_blockUnit, inv_servePair, inv_checkPark, inv_expose, inv_enqueuePark, inv_servePark]

theorem inv_execSemread (w : Fields) {z : State} (e : execSemread w s = .next z) : z.Inv := by
  refine inv_issue h (fun x m z h e => ?_) e
  grind [inv_after, inv_bump, inv_deliver, inv_checkPark, inv_read]

theorem inv_serveBarrier (t : Nat) (b : Nat) : (s.serveBarrier t b).Inv := by
  unfold State.serveBarrier
  split
  · exact h
  · dsimp only
    split
    · refine inv_foldl (fun m p h => ?_) _ (inv_modTeam h fun _ hx => hx)
      grind [inv_wake]
    · exact h

theorem inv_execBar (w : Fields) {z : State} (e : execBar w s = .next z) : z.Inv := by
  refine inv_issue h (fun x m z h e => ?_) e
  grind [inv_releaseAt, inv_modTeam, inv_blockUnit, inv_serveBarrier]

theorem inv_barriersRetire (t : Nat) : (s.barriersRetire t).Inv := inv_foldl (fun _ _ h => inv_serveBarrier h _ _) _ (inv_modTeam h fun _ hx => hx)

theorem inv_execSlkset (w : Fields) {z : State} (e : execSlkset w s = .next z) : z.Inv := by
  refine inv_issue h (fun x m z h e => ?_) e
  grind [inv_modTeam, inv_modSeq]

theorem inv_execSeqwait (w : Fields) {z : State} (e : execSeqwait w s = .next z) : z.Inv := by
  refine inv_issue h (fun x m z h e => ?_) e
  grind [inv_checkObject, inv_writeBack, inv_blockUnit, inv_serveSeqwaits]

end
end Sys2Proof.Machine
end

section
/-! What keeps the invariant (R241, R495 to R498): the masters of memory. -/

namespace Sys2Proof.Machine

section
variable {s : State} (h : s.Inv)
include h

theorem inv_masterWrite (ctx va : Nat) (bs : List Byte) {z : State} (e : s.masterWrite ctx va bs = some z) : z.Inv := by
  obtain ⟨pa, _, rfl⟩ := Option.map_eq_some_iff.1 e
  exact inv_sideBytes h _ _

theorem inv_masterPut (ctx va : Nat) (bs : List Byte) {z : State} (e : s.masterPut ctx va bs = some z) : z.Inv := by
  obtain ⟨pa, _, rfl⟩ := Option.map_eq_some_iff.1 e
  exact inv_sideBytes h _ _

theorem inv_writeRecord (ctx : Nat) (bs : List Byte) : (s.writeRecord ctx bs).1.Inv := by
  unfold State.writeRecord
  grind [inv_masterWrite, inv_modCtx]

theorem inv_notice (ctx : Nat) (bs : List Byte) : (s.notice ctx bs).Inv := by
  unfold State.notice
  grind [inv_writeRecord, inv_modCtx]

theorem inv_launchNotice (ctx what id status : Nat) : (s.launchNotice ctx what id status).Inv := inv_notice h _ _

theorem inv_registerRecord (ctx : Nat) (w : WaitingRecord) (idx : Nat) : (s.registerRecord ctx w idx).Inv := by
  unfold State.registerRecord
  grind [inv_modCtx, inv_modGang, inv_modTeam]

theorem inv_writeWaiting (ctx : Nat) (ws : List WaitingRecord) : (s.writeWaiting ctx ws).Inv := by
  induction ws generalizing s with
  | nil => exact h
  | cons w ws ih =>
    unfold State.writeWaiting
    grind [inv_writeRecord, inv_registerRecord, inv_modCtx]

theorem inv_retryRecords (ctx : Nat) : (s.retryRecords ctx).Inv := by
  unfold State.retryRecords
  split
  · exact inv_writeWaiting h _ _
  · exact h

theorem inv_faultRecord (ctx : Nat) (w : WaitingRecord) : (s.faultRecord ctx w).Inv := inv_retryRecords (inv_modCtx h _ _) _

theorem inv_modSlot (q : Nat) (f : QueueSlot → QueueSlot) : (s.modSlot q f).Inv := h

theorem inv_writeDescriptor (q o : Nat) (bs : List Byte) {z : State} (e : s.writeDescriptor q o bs = some z) : z.Inv := by
  unfold State.writeDescriptor at e
  grind [inv_masterPut]

theorem inv_masterPost (cluster kind sub : Nat) (detail : W64) : (s.masterPost cluster kind sub detail).Inv := h

/-- Two writes of a descriptor, one after the other. -/
theorem inv_writeDescriptor_twice {q o p : Nat} {bs cs : List Byte} {z : State}
    (e : ((s.writeDescriptor q o bs).bind fun m => m.writeDescriptor q p cs) = some z) : z.Inv := by
  obtain ⟨m, hm, e⟩ := Option.bind_eq_some_iff.1 e
  exact inv_writeDescriptor (inv_writeDescriptor h _ _ _ hm) _ _ _ e

theorem inv_stopQueue (q : Nat) (head idx : W32) (code : Nat) (cluster : Option Nat) : (s.stopQueue q head idx code cluster).Inv := by
  have hq : ((s.modSlot q fun x => { x with err := idx <<< 8 ||| BitVec.ofNat 32 code }).modQueue q fun r =>
      { r with stopped := true }).Inv := inv_modQueue (inv_modSlot h _ _) _ _
  unfold State.stopQueue
  dsimp only
  generalize hw : Option.bind _ _ = o
  obtain _ | m := o
  · have hr := inv_modQueue hq q fun r => { r with heldErr := idx <<< 8 ||| BitVec.ofNat 32 code }
    grind [inv_launchNotice, inv_masterPost]
  · have hm := inv_writeDescriptor_twice hq hw
    grind [inv_launchNotice, inv_masterPost]

theorem inv_stampPackets (x : QueueSlot) (n : Nat) (i : W32) {z : State} (e : s.stampPackets x n i = .ok z) : z.Inv := by
  induction n generalizing s i with
  | zero => cases e; exact h
  | succ n ih =>
    unfold State.stampPackets at e
    grind [inv_masterPut]

theorem inv_writeCompletion (ctx va status id first : Nat) : (s.writeCompletion ctx va status id first).Inv := by
  unfold State.writeCompletion
  grind [inv_masterWrite, inv_launchNotice]

theorem inv_launchEvent (l : Launch) (kind sub : Nat) : (s.launchEvent l kind sub).Inv := by
  unfold State.launchEvent
  grind [inv_masterPost, inv_launchNotice]

theorem inv_purgeLaunch (k : Nat) : (s.purgeLaunch k).Inv := by
  refine h.dies (fun d => ?_) rfl rfl rfl
  rw [State.purgeLaunch, Fin.getElem_fin, Vector.getElem_ofFn]
  exact h.scratch d

theorem inv_completeLaunch (k status : Nat) : (s.completeLaunch k status).Inv := by
  unfold State.completeLaunch
  grind [inv_writeCompletion, inv_launchEvent, inv_purgeLaunch, inv_update]

theorem inv_settleLaunch (k : Nat) : (s.settleLaunch k).Inv := by
  unfold State.settleLaunch
  grind [inv_completeLaunch]

theorem inv_setHead (q : Nat) (old h' : W32) : (s.setHead q old h').Inv := by
  unfold State.setHead
  split
  · exact inv_modSlot h _ _
  · split
    · exact inv_writeDescriptor_twice h ‹_›
    · exact inv_stopQueue h _ _ _ _ _

theorem inv_consume (q : Nat) : (s.consume q).Inv := by
  unfold State.consume
  split
  · exact h
  · exact inv_setHead h _ _ _

theorem inv_passOver (l : Launch) : (s.passOver l).Inv := by
  unfold State.passOver
  grind [inv_consume, inv_modQueue]

theorem inv_restampPacket (l : Launch) (d : Nat) : (s.restampPacket l d).Inv := by
  unfold State.restampPacket
  grind [inv_masterPut, inv_stopQueue]

theorem inv_missDeadline (k : Nat) : (s.missDeadline k).Inv := by
  unfold State.missDeadline
  grind [inv_passOver, inv_modLaunch, inv_purgeLaunch, inv_launchEvent, inv_settleLaunch, inv_restampPacket]

theorem inv_acceptLaunch (x : QueueSlot) (i : W32) (v : Nat) : (s.acceptLaunch x i v).Inv := h

theorem inv_acceptPackets (x : QueueSlot) (n : Nat) (i : W32) : (s.acceptPackets x n i).Inv := by
  induction n generalizing s i with
  | zero => exact h
  | succ n ih =>
    unfold State.acceptPackets
    grind [inv_acceptLaunch]

theorem inv_dropBell (q : Nat) : (s.dropBell q).Inv := h

theorem inv_rereadErr (q : Nat) : (s.rereadErr q).Inv := by
  unfold State.rereadErr
  grind [inv_modQueue, inv_modSlot]

theorem inv_setTail (q : Nat) (x : QueueSlot) (tail : W32) : (s.setTail q x tail).Inv := by
  unfold State.setTail
  grind [inv_acceptPackets, inv_modSlot, inv_writeDescriptor, inv_stopQueue]

theorem inv_applyBell (q : Nat) (x : QueueSlot) (bell : W32) (stamp : Bool) : (s.applyBell q x bell stamp).Inv := by
  unfold State.applyBell
  grind [inv_dropBell, inv_stampPackets, inv_stopQueue, inv_setTail]

theorem inv_ringBell (q : Nat) (bell : W32) : (s.ringBell q bell).Inv := by
  unfold State.ringBell
  grind [inv_dropBell, inv_rereadErr, inv_stopQueue, inv_modSlot, inv_stampPackets, inv_applyBell]

end
end Sys2Proof.Machine
end

section
/-! What keeps the invariant (R241, R495 to R498): queues and launches. -/

namespace Sys2Proof.Machine

section
variable {s : State} (h : s.Inv)
include h

theorem inv_refusePacket (ctx q : Nat) (tail : W32) (pk status cluster : Nat) : (s.refusePacket ctx q tail pk status cluster).Inv := by
  unfold State.refusePacket
  grind [inv_writeCompletion, inv_masterPost]

theorem inv_advanceTail (q : Nat) (x : QueueSlot) (tail : W32) : (s.advanceTail q x tail).Inv := by
  unfold State.advanceTail
  split
  · exact h
  · exact inv_setTail (inv_rereadErr h _) _ _ _

/-- A change that may not be possible, and that leaves the state as it is then. -/
theorem inv_getD {o : Option State} (ho : ∀ z, o = some z → z.Inv) : (o.getD s).Inv := by
  cases o with
  | none => exact h
  | some z => exact ho z rfl

theorem inv_submitPacket (q pk cluster : Nat) : (s.submitPacket q pk cluster).Inv := by
  unfold State.submitPacket
  dsimp only
  split
  · exact inv_refusePacket (inv_stopQueue h _ _ _ _ _) _ _ _ _ _ _
  · split
    · exact inv_refusePacket h _ _ _ _ _ _
    · split
      · exact inv_refusePacket (inv_stopQueue h _ _ _ _ _) _ _ _ _ _ _
      · next m hm =>
        have hp := inv_masterPut h _ _ _ hm
        refine inv_advanceTail (inv_modQueue ?_ _ _) _ _ _
        split
        · exact inv_getD hp fun _ e => inv_masterPut hp _ _ _ e
        · exact hp

theorem inv_execLaunch (w : Fields) {z : State} (e : execLaunch w s = .next z) : z.Inv := by
  refine inv_issue h (fun x m z h e => ?_) e
  grind [inv_checkObject, inv_read, inv_releaseAt, inv_send, inv_submitPacket]

theorem inv_putAt (a : Access) (o v n : Nat) : (s.putAt a o v n).Inv := inv_sideBytes h _ _

/-- The fields of a control block with a new last descriptor. -/
theorem inv_link {c : Prop} [Decidable c] (a : Access) (i b : Nat) :
    (if c then ((s.putAt a 0x10 i 4).putAt a 8 b 8).putAt a 0 b 8 else (s.putAt a 0x10 i 4).putAt a 8 b 8).Inv := by
  have hb := inv_putAt (inv_putAt h a 0x10 i 4) a 8 b 8
  split
  · exact inv_putAt hb _ _ _ _
  · exact hb

theorem inv_execQappend (w : Fields) {z : State} (e : execQappend w s = .next z) : z.Inv := by
  refine inv_issue h (fun x m z h e => ?_) e
  dsimp only at e
  split at e
  · cases e
  · split at e
    · cases e
    · next he =>
      have hm := inv_of_eq (inv_checkObjects h _ _ _ _ _ _) he
      split at e
      · cases e
      · next hr =>
        split at e
        · cases e
        · next q last hl =>
          have hr := inv_releaseAt (inv_expose (inv_expose hm _) _) _ _ hr
          have hq : q.Inv := by
            split at hl
            · cases hl; exact hr
            · split at hl
              · cases hl
              · next hc =>
                cases hl
                exact inv_of_eq (inv_checkObject hr _ _ _ _ _ _) hc
          cases e
          split
          · exact inv_putAt (inv_expose (inv_putAt (inv_putAt (inv_link hq _ _ _) _ _ _ _) _ _ _ _) _) _ _ _ _
          · exact inv_putAt (inv_putAt (inv_link hq _ _ _) _ _ _ _) _ _ _ _

theorem inv_execQtail (w : Fields) {z : State} (e : execQtail w s = .next z) : z.Inv := by
  refine inv_issue h (fun x m z h e => ?_) e
  grind [inv_checkObject, inv_expose, inv_releaseAt, inv_putAt, inv_update]

theorem inv_execEvget (w : Fields) {z : State} (e : execEvget w s = .next z) : z.Inv := by
  refine inv_issue h (fun x m z h e => ?_) e
  grind [inv_setSeq, inv_bump, inv_deliver]

theorem inv_execEvwait (w : Fields) {z : State} (e : execEvwait w s = .next z) : z.Inv := by
  refine inv_issue h (fun x m z h e => ?_) e
  grind [inv_blockUnit]

theorem inv_execMsem (w : Fields) {z : State} (e : execMsem w s = .next z) : z.Inv := by
  refine inv_issue h (fun x m z h e => ?_) e
  grind [inv_checkObject, inv_read, inv_after, inv_bump, inv_deliver]

end
end Sys2Proof.Machine
end

section
/-! What keeps the invariant (R241, R495 to R498): registers and shapes. -/

namespace Sys2Proof.Machine

section
variable {s : State} (h : s.Inv)
include h

theorem inv_grantSlots (core : Nat) (ws : List Waiter) : (s.grantSlots core ws).Inv := by
  induction ws generalizing s with
  | nil => exact h
  | cons w ws ih =>
    unfold State.grantSlots
    split
    · exact ih (inv_wake (inv_modGang h _ _ _) _)
    · exact h

theorem inv_arbitrateSlots (core : Nat) : (s.arbitrateSlots core).Inv := inv_grantSlots h _ _

theorem inv_execRgrowWait (w : Fields) {z : State} (e : execRgrowWait w s = .next z) : z.Inv := by
  refine inv_issue h (fun x m z h e => ?_) e
  grind [inv_blockUnit, inv_arbitrateSlots]

theorem inv_execRgrowTry (w : Fields) {z : State} (e : execRgrowTry w s = .next z) : z.Inv := by
  refine inv_issue h (fun x m z h e => ?_) e
  grind [inv_writeK, inv_modGang]

theorem inv_execRshrink (w : Fields) {z : State} (e : execRshrink w s = .next z) : z.Inv := by
  refine inv_issue h (fun x m z h e => ?_) e
  grind [inv_modGang, inv_modCore, inv_arbitrateSlots]

theorem inv_execRshapeGet (w : Fields) {z : State} (e : execRshapeGet w s = .next z) : z.Inv :=
  inv_issue h (fun _ _ _ h e => inv_gangBody h _ _ e) e

theorem inv_execRshapeSet (w : Fields) {z : State} (e : execRshapeSet w s = .next z) : z.Inv := by
  refine inv_issue h (fun x m z h e => ?_) e
  dsimp only at e
  split at e
  · cases e; exact h
  · cases e
    refine inv_writeK ?_ _ _
    split
    · exact inv_setGang h _ _ _
    · exact h

end
end Sys2Proof.Machine
end

section
/-! What keeps the invariant (R241, R495 to R498): the deal of launches. -/

namespace Sys2Proof.Machine

section
variable {s : State} (h : s.Inv)
include h

theorem inv_execQueueDoorbell (q : Nat) (bell : W32) {z : State} (e : execQueueDoorbell q bell s = .next z) : z.Inv := by
  cases e
  split
  · exact inv_ringBell h _ _
  · exact h

theorem inv_execDoorbellDropClear (q : Nat) {z : State} (e : execDoorbellDropClear q s = .next z) : z.Inv := by
  cases e
  split <;> exact h

theorem inv_holdQueue (q : Nat) (hold : Bool) : (s.holdQueue q hold).Inv := by
  refine h.dies (fun d => ?_) rfl rfl rfl
  rw [State.holdQueue, Fin.getElem_fin, Vector.getElem_ofFn]
  exact h.scratch d

theorem inv_answerHead (head : W32) : (s.answerHead head).Inv := h

theorem inv_releaseSlot (x : QueueSlot) : (s.releaseSlot x).Inv := by
  unfold State.releaseSlot
  grind [inv_writeDescriptor, inv_stopQueue, inv_modQueue, inv_answerHead, inv_update]

theorem inv_mapQueue (q : Nat) : (s.mapQueue q).Inv := by
  unfold State.mapQueue
  grind [inv_stopQueue, inv_holdQueue, inv_applyBell, inv_update]

theorem inv_execQueueSwitch {z : State} (e : execQueueSwitch s = .next z) : z.Inv := by
  cases e
  grind [inv_mapQueue, inv_stopQueue, inv_releaseSlot, inv_modSlot, inv_holdQueue]

theorem inv_addTeams (l : Launch) (eid k : Nat) (cores : List Nat) (r : Nat) : (s.addTeams l eid k cores r).Inv := by
  induction cores generalizing s r with
  | nil => exact h
  | cons core cores ih =>
    have added : ∀ (n : Nat) (es : List Ensemble),
        State.Inv { s with ids := n, teams := s.teams ++ [s.newTeam l eid k r core], ensembles := es } :=
      fun _ _ => h.teams (fun _ => h.append_window nil_wf) rfl rfl rfl
    exact ih (added _ _) _

theorem inv_startEnsemble (c : Nat) (l : Launch) (k : Nat) (cores : List Nat) : (s.startEnsemble c l k cores).Inv := by
  unfold State.startEnsemble
  grind [inv_bump, inv_addTeams, inv_modLaunch, inv_update]

theorem inv_startAll (l : Launch) (counts : Team → Bool) (ks : List Nat) {z : State} (e : s.startAll l counts ks = some z) : z.Inv := by
  induction ks generalizing s with
  | nil => cases e; exact h
  | cons k ks ih =>
    unfold State.startAll at e
    grind [inv_startEnsemble]

theorem inv_preempt (on : Nat → Bool) (deadline : Nat) : (s.preempt on deadline).Inv := h

theorem inv_takeUp (x : QueueSlot) (v : Nat) : (s.takeUp x v).Inv := by
  unfold State.takeUp
  grind [inv_acceptLaunch, inv_modLaunch, inv_completeLaunch, inv_consume, inv_missDeadline]

theorem inv_dealtWhole (l : Launch) : (s.dealtWhole l).Inv := inv_consume (inv_modLaunch h _ _) _

theorem inv_sendDeal (die : Nat) : (s.sendDeal die).Inv := inv_send h _ _

theorem inv_addRange (n : Nat) (r : DieRange) : (s.modDie n fun d => d.addRange r).Inv :=
  inv_modDie h fun d hd => by unfold Die.addRange; dsimp only; split <;> exact hd

theorem inv_dealRange (l : Launch) (die count : Nat) : (s.dealRange l die count).Inv := by
  have hd := inv_addRange h die
  unfold State.dealRange
  dsimp only
  split
  · exact inv_settleLaunch (inv_dealtWhole h _) _
  · split
    · split
      · exact inv_dealtWhole (inv_sendDeal (hd _) _) _
      · exact inv_modSlot (inv_modLaunch (inv_sendDeal (hd _) _) _ _) _ _
    · exact h

theorem inv_dealFrom (x : QueueSlot) (die count : Nat) : (s.dealFrom x die count).Inv := by
  unfold State.dealFrom
  grind [inv_stopQueue, inv_takeUp, inv_startAll, inv_dealtWhole, inv_preempt, inv_dealRange]

theorem inv_redeal (l : Launch) (die count : Nat) : (s.redeal l die count).Inv := by
  unfold State.redeal
  split
  · exact h
  · exact inv_sendDeal (inv_modLaunch (inv_addRange h _ _) _ _) _

theorem inv_execLaunchDeal (die count : Nat) {z : State} (e : execLaunchDeal die count s = .next z) : z.Inv := by
  cases e
  grind [inv_redeal, inv_dealFrom]

theorem inv_execWaitPacketPoll (q : Nat) {z : State} (e : execWaitPacketPoll q s = .next z) : z.Inv := by
  cases e
  grind [inv_consume, inv_stopQueue]

theorem inv_execSignalPacket (q : Nat) {z : State} (e : execSignalPacket q s = .next z) : z.Inv := by
  cases e
  grind [inv_sideBytes, inv_consume, inv_stopQueue]

theorem inv_execDieDistributorDeal (die cluster : Nat) {z : State} (e : execDieDistributorDeal die cluster s = .next z) : z.Inv := by
  cases e
  grind [inv_modDie, inv_modSeq, inv_send]

theorem inv_execEnsembleStart (seq : Nat) (cores : List Nat) {z : State} (e : execEnsembleStart seq cores s = .next z) : z.Inv := by
  cases e
  grind [inv_modSeq, inv_startEnsemble, inv_preempt]

theorem inv_execStealRequest (thief victim : Nat) {z : State} (e : execStealRequest thief victim s = .next z) : z.Inv := by
  cases e
  grind [inv_modSeq, inv_send]

theorem inv_execStealReply (victim : Nat) {z : State} (e : execStealReply victim s = .next z) : z.Inv := by
  cases e
  grind [inv_modSeq, inv_send]

theorem inv_execDeadlineMiss (launch : Nat) {z : State} (e : execDeadlineMiss launch s = .next z) : z.Inv := by
  cases e
  split
  · exact inv_missDeadline h _
  · exact h

end
end Sys2Proof.Machine
end

section
/-! What keeps the invariant (R241, R495 to R498): control flow. -/

namespace Sys2Proof.Machine

section
variable {s : State} (h : s.Inv)
include h

theorem inv_jump (x : Exec) (f : Fin 8 → BitVec 56) : (jump x f s).Inv := by
  unfold jump
  split
  · exact inv_modGang h _ _ _
  · exact h

theorem inv_execBra (w : Fields) {z : State} (e : execBra w s = .next z) : z.Inv := by
  refine inv_issue h (fun x m z h e => ?_) e
  grind [inv_jump]

theorem inv_execBrq (w : Fields) {z : State} (e : execBrq w s = .next z) : z.Inv := by
  refine inv_issue h (fun _ _ _ h e => ?_) e
  cases e
  exact inv_jump h _ _

theorem inv_setCsp (x : Exec) (f : Fin 8 → W64) : (setCsp x f s).Inv := by
  unfold setCsp
  split
  · exact inv_modGang h _ _ _
  · exact h

theorem inv_checkStack (x : Exec) (acc : BitVec 2) (vas : List (Fin 8 × Nat)) : (s.checkStack x acc vas).1.Inv := by
  unfold State.checkStack
  grind [inv_checkGlobal]

theorem inv_pushJump (x : Exec) (ra : BitVec 56) (f : Fin 8 → BitVec 56) {z : State} (e : pushJump x ra f s = .ok z) : z.Inv := by
  unfold pushJump at e
  split at e
  · cases e
  · dsimp only at e
    split at e
    · cases e
    · next he =>
      cases e
      exact inv_jump (inv_setCsp (inv_foldl (fun _ _ h => inv_store h _ _ _ _ _) _ (inv_of_eq (inv_checkStack h _ _ _) he)) _ _) _ _

theorem inv_execCall (w : Fields) {z : State} (e : execCall w s = .next z) : z.Inv :=
  inv_issue h (fun _ _ _ h e => inv_pushJump h _ _ _ e) e

theorem inv_execRet (w : Fields) {z : State} (e : execRet w s = .next z) : z.Inv := by
  refine inv_issue h (fun x m z h e => ?_) e
  grind [inv_checkStack, inv_readLanes, inv_setCsp, inv_jump]

theorem inv_listWords (x : Exec) (k i : Nat) (ws : List W128) : (s.listWords x k i ws).1.Inv := by
  induction k generalizing s i ws with
  | zero => exact h
  | succ k ih =>
    unfold State.listWords
    grind [inv_word]

theorem inv_execBtab (w : Fields) {z : State} (e : execBtab w s = .next z) : z.Inv := by
  refine inv_issue h (fun x m z h e => ?_) e
  grind [inv_listWords, inv_pushJump, inv_jump]

theorem inv_execRegang (w : Fields) {z : State} (e : execRegang w s = .next z) : z.Inv :=
  inv_issue h (fun _ _ _ h e => inv_gangBody h _ _ e) e

theorem inv_clashTrap (x : Exec) : (s.clashTrap x).Inv := by
  unfold State.clashTrap
  grind [inv_trapFrom]

theorem inv_dropLanes (x : Exec) (lanes : Mask) : (s.dropLanes x lanes).Inv := by
  unfold State.dropLanes
  split
  · exact h
  · have hs := inv_setGang h x.t x.g
    dsimp only
    split
    · exact inv_endTeam (hs _) _ _
    · exact inv_clashTrap (hs _) _

theorem inv_execExit (w : Fields) {z : State} (e : execExit w s = .next z) : z.Inv := by
  refine inv_issue h (fun x m z h e => ?_) e
  grind [inv_dropLanes, inv_modSeq]

theorem inv_execNop (w : Fields) {z : State} (e : execNop w s = .next z) : z.Inv := by
  refine inv_issue h (fun x m z h e => ?_) e
  grind

theorem inv_trapForm (op code : BitVec 8) (w : Fields) {z : State} (e : trapForm op code w s = .next z) : z.Inv := by
  refine inv_issue h (fun x m z h e => ?_) e
  split at e
  · cases e; exact h
  · cases e

theorem inv_execTrap (w : Fields) {z : State} (e : execTrap w s = .next z) : z.Inv := inv_trapForm h _ _ _ e

theorem inv_execTrapret (w : Fields) {z : State} (e : execTrapret w s = .next z) : z.Inv :=
  inv_issue h (fun _ _ _ h e => inv_trapReturn h _ _ e) e

theorem inv_execBrk (w : Fields) {z : State} (e : execBrk w s = .next z) : z.Inv := inv_trapForm h _ _ _ e

theorem inv_execMfsr (w : Fields) {z : State} (e : execMfsr w s = .next z) : z.Inv := by
  refine inv_issue h (fun _ _ _ h e => ?_) e
  cases e
  exact inv_modRegs h _ _

theorem inv_writeSpecial (x : Exec) (i : Nat) (v : W64) : (s.writeSpecial x i v).Inv := by
  unfold State.writeSpecial
  grind [inv_modRegs, inv_modTeam, inv_modGang, inv_modSeq, inv_setCsp]

theorem inv_execMtsr (w : Fields) {z : State} (e : execMtsr w s = .next z) : z.Inv := by
  refine inv_issue h (fun x m z h e => ?_) e
  grind [inv_writeSpecial]

theorem inv_icacheReach (core : Nat) : (s.icacheReach core).Inv := inv_modDie (inv_modCore h _ _) fun _ hd => hd

theorem inv_execIcinv (w : Fields) {z : State} (e : execIcinv w s = .next z) : z.Inv := by
  refine inv_issue h (fun x m z h e => ?_) e
  grind [inv_blockUnit, inv_bump, inv_icacheReach, inv_update]

end
end Sys2Proof.Machine
end

section
/-! What keeps the invariant (R241, R495 to R498): events. -/

namespace Sys2Proof.Machine

section
variable {s : State} (h : s.Inv)
include h

theorem inv_execResultReply (u : Issuer) (id : Nat) {z : State} (e : execResultReply u id s = .next z) : z.Inv := by
  cases e
  grind [inv_setGang, inv_modCore, inv_arbitrateSlots]

theorem inv_execDlyExpiry (team gang : Nat) {z : State} (e : execDlyExpiry team gang s = .next z) : z.Inv := by
  cases e
  exact inv_modGang h _ _ _

theorem inv_execGangAged (team gang : Nat) {z : State} (e : execGangAged team gang s = .next z) : z.Inv := by
  cases e
  grind [inv_modGang]

theorem inv_execSlotDrowsy (team gang reg : Nat) {z : State} (e : execSlotDrowsy team gang reg s = .next z) : z.Inv := by
  cases e
  exact inv_modGang h _ _ _

theorem inv_execTrapEntry (u : Issuer) {z : State} (e : execTrapEntry u s = .next z) : z.Inv := by
  cases e
  grind [inv_takeGang]

theorem inv_retryAll (p : Wait → Bool) : (s.retryAll p).Inv := h.teams (fun _ hx => h.map_window (fun _ => by rfl) hx) rfl rfl rfl

theorem inv_execRangeLockRetry (team gang : Nat) {z : State} (e : execRangeLockRetry team gang s = .next z) : z.Inv := by
  cases e
  exact inv_modGang h _ _ _

theorem inv_execHandleBusyTimeout (team gang : Nat) {z : State} (e : execHandleBusyTimeout team gang s = .next z) : z.Inv := by
  cases e
  grind [inv_raiseTrap, inv_setGang]

theorem inv_execCommandQueueAccept (team gang : Nat) {z : State} (e : execCommandQueueAccept team gang s = .next z) : z.Inv := by
  cases e
  split
  · exact h
  · exact inv_modGang h _ _ _

theorem inv_execCommandBegin (core cmd : Nat) {z : State} (e : execCommandBegin core cmd s = .next z) : z.Inv := by
  cases e
  grind [inv_modCore]

theorem inv_execCommandComplete (core cmd : Nat) {z : State} (e : execCommandComplete core cmd s = .next z) : z.Inv := by
  cases e
  split
  · exact h
  · split
    · exact inv_retryAll (inv_completeCommand h _ _) _
    · exact h

theorem inv_execGranuleClearDone (core release : Nat) {z : State} (e : execGranuleClearDone core release s = .next z) : z.Inv := by
  cases e
  split
  · exact inv_arbitrate (inv_modCore h _ _) _
  · exact h

theorem inv_failBlocked (w : Waiter) (op : BitVec 8) (t : Trap) : (s.failBlocked w op t).Inv := by
  unfold State.failBlocked
  grind [inv_setGang, inv_trapFrom]

theorem inv_execAllocationDeadlock (core : Nat) {z : State} (e : execAllocationDeadlock core s = .next z) : z.Inv := by
  cases e
  split
  · split
    · exact inv_failBlocked (inv_setHandle h _ _ _) _ _ _
    · exact h
  · exact h

theorem inv_execRegisterDeadlock (core : Nat) {z : State} (e : execRegisterDeadlock core s = .next z) : z.Inv := by
  cases e
  split
  · exact inv_failBlocked h _ _ _
  · exact h

theorem inv_exitTeam (t core : Nat) : (s.exitTeam t core).Inv := by
  unfold State.exitTeam
  grind [inv_modTeam, inv_exitHandles, inv_arbitrate]

theorem inv_execGangRetire (team gang : Nat) {z : State} (e : execGangRetire team gang s = .next z) : z.Inv := by
  cases e
  grind [inv_modGang, inv_retireHandles, inv_barriersRetire, inv_arbitrateSlots, inv_exitTeam, inv_arbitrate]

theorem inv_retireEnsemble (eid : Nat) : (s.retireEnsemble eid).Inv := by
  unfold State.retireEnsemble
  split
  · exact h
  · next e _ =>
    split
    · have hw : ∀ (ls : List LostWrite) (es : List Ensemble),
          State.Inv { s with lostWrites := ls, ensembles := es, teams := s.teams.filter fun x => x.ensemble ≠ eid } :=
        fun _ _ => h.teams (fun _ hx => h.window (List.mem_filter.1 hx).1) rfl rfl rfl
      exact inv_settleLaunch (inv_modLaunch (hw _ _) _ _) _
    · exact h

theorem inv_execTeamDone (team : Nat) {z : State} (e : execTeamDone team s = .next z) : z.Inv := by
  cases e
  grind [inv_stashBackAll, inv_writeBackAll, inv_modTeam, inv_modCore, inv_arbitrate, inv_retireEnsemble]

theorem inv_leaveWaits (u : Issuer) : (s.leaveWaits u).Inv := h

theorem inv_execCoalesceWindowClose (core line : Nat) {z : State} (e : execCoalesceWindowClose core line s = .next z) : z.Inv := by
  cases e
  grind [inv_modCore]

theorem inv_evictSent (die k : Nat) : (s.evictSent die k).Inv := by
  unfold State.evictSent
  grind [inv_send, inv_evict]

theorem inv_execCacheEviction (die line : Nat) {z : State} (e : execCacheEviction die line s = .next z) : z.Inv := by
  cases e
  split
  · exact inv_evictSent h _ _
  · exact h

theorem inv_wakePromoted (u : Issuer) : (s.wakePromoted u).Inv := by
  unfold State.wakePromoted
  grind [inv_modGang, inv_modSeq]

theorem inv_execPromotionArrival (promotion die : Nat) {z : State} (e : execPromotionArrival promotion die s = .next z) : z.Inv := by
  cases e
  grind [inv_settleDie, inv_wakePromoted, inv_update]

theorem inv_clearBusy : s.clearBusy.Inv := h

theorem inv_execInvalidationReachesCore (inval core : Nat) {z : State} (e : execInvalidationReachesCore inval core s = .next z) : z.Inv := by
  cases e
  grind [inv_icacheReach, inv_wake, inv_clearBusy, inv_update]

theorem inv_deliverRemote (u : Issuer) (dest : Option (Nat × Nat)) (value : Nat) (poison : Bool) (flags : BitVec 5) :
    (s.deliverRemote u dest value poison flags).Inv := by
  unfold State.deliverRemote
  split
  · exact inv_modGang h _ _ _
  · exact h

theorem inv_wakeRemote (u : Issuer) : (s.wakeRemote u).Inv := by
  unfold State.wakeRemote
  grind [inv_retryAll, inv_wake]

theorem inv_acquirePerformed (r : RemoteOp) : (s.acquirePerformed r).Inv := by
  unfold State.acquirePerformed
  grind [inv_acquireBy]

theorem inv_dropRemote (id : Nat) : (s.dropRemote id).Inv := h

theorem inv_performRemote (r : RemoteOp) : (s.performRemote r).Inv := by
  unfold State.performRemote
  split
  · exact inv_serveWatches (inv_sideMerge h _ _ _ _)
  · next o _ =>
    have hm : ∀ (k : Nat) (p : Bool), State.Inv { s with mem := (atomicAt o s.mem k p).1 } :=
      fun _ _ => h.memory (atomicAt_wf h.mem _ _ _) rfl rfl rfl
    dsimp only
    split
    · split
      · exact inv_postPoison (inv_serveWatches (inv_deliverRemote (hm _ _) _ _ _ _ _)) _ _
      · exact inv_serveWatches (inv_deliverRemote (hm _ _) _ _ _ _ _)
    · exact inv_serveWatches (inv_deliverRemote (hm _ _) _ _ _ _ _)

theorem inv_completeRemote (r : RemoteOp) : (s.completeRemote r).Inv := by
  unfold State.completeRemote
  grind [inv_dropRemote, inv_performRemote, inv_acquirePerformed, inv_wakeRemote]

theorem inv_execRemoteWriteAck (op : Nat) {z : State} (e : execRemoteWriteAck op s = .next z) : z.Inv := by
  cases e
  grind [inv_completeRemote]

theorem inv_execCorrectableError (chip : Nat) {z : State} (e : execCorrectableError chip s = .next z) : z.Inv := by
  cases e
  exact h

theorem inv_execSectorPoison (place : SectorPlace) {z : State} (e : execSectorPoison place s = .next z) : z.Inv := by
  have marked : ∀ (n : Nat) (f : Die → Die), (∀ d, (f d).scratch = d.scratch) → ∀ k, State.Inv { s.modDie n f with studioNotices := k } :=
    fun n f hf _ => inv_modDie h fun d hd => by rw [hf]; exact hd
  have poisoned : ∀ (t : Nat) (f : Team → Team), (∀ x, (f x).window = x.window) → ∀ k, State.Inv { s.modTeam t f with studioNotices := k } :=
    fun t f hf _ => inv_modTeam h fun x hx => by rw [hf]; exact hx
  cases e
  split
  · exact h
  · split
    · exact h
    · split <;> exact inv_modDie h fun _ hd => hd
  · split
    · exact h
    · exact marked _ _ (fun _ => by rfl) _
  · split
    · exact marked _ _ (fun _ => by rfl) _
    · exact h
  · split
    · exact poisoned _ _ (fun _ => by rfl) _
    · exact h

theorem inv_wakeEvwaits (cluster : Nat) (p : Option Nat → Bool) : (s.wakeEvwaits cluster p).Inv := by
  unfold State.wakeEvwaits
  grind [inv_wake]

theorem inv_execEventPost (post : Nat) {z : State} (e : execEventPost post s = .next z) : z.Inv := by
  cases e
  grind [inv_modSeq, inv_wakeEvwaits, inv_update]

theorem inv_execEvwaitTimeout (seq : Nat) {z : State} (e : execEvwaitTimeout seq s = .next z) : z.Inv := by
  cases e
  exact inv_wakeEvwaits h _ _

end
end Sys2Proof.Machine
end

section
/-! What keeps the invariant (R241, R495 to R498): frames: saves and restores. -/

namespace Sys2Proof.Machine

section
variable {s : State} (h : s.Inv)
include h

theorem inv_putFrame (ctx va n : Nat) (bs : List Byte) {z : State} (e : s.putFrame ctx va n bs = some z) : z.Inv := by
  induction n generalizing s va bs with
  | zero => cases e; exact h
  | succ n ih =>
    unfold State.putFrame at e
    split at e
    · cases e; exact h
    · obtain ⟨m, hm, e⟩ := Option.bind_eq_some_iff.1 e
      exact ih (inv_masterWrite h _ _ _ hm) _ _ e

theorem inv_writeFrame (tm : Team) (va : Nat) {z : State} (e : s.writeFrame tm va = some z) : z.Inv := by
  simp only [State.writeFrame, Option.bind_eq_some_iff] at e
  obtain ⟨m, hm, n, hn, e⟩ := e
  exact inv_putFrame (inv_putFrame (inv_putFrame h _ _ _ _ hm) _ _ _ _ hn) _ _ _ _ e

theorem inv_backOut (t g : Nat) : (s.backOut t g).Inv := by
  have hs := inv_setGang h t g
  unfold State.backOut
  split
  · exact h
  · dsimp only
    split
    · exact h
    · split <;> exact hs _
    · exact inv_setHandle (hs _) _ _ _
    · exact inv_leaveWaits (hs _) _
    · exact inv_leaveWaits (hs _) _
    · exact inv_modTeam (hs _) fun _ hx => hx
    · exact hs _
    · exact hs _

theorem inv_backOutAll (t n : Nat) : (s.backOutAll t n).Inv := inv_foldl (fun _ _ h => inv_backOut h _ _) _ h

theorem inv_vacate (t slot : Nat) (debug parked : Bool) : (s.vacate t slot debug parked).Inv := by
  unfold State.vacate
  split
  · exact h
  · exact inv_arbitrateSlots (inv_arbitrate (inv_modTeam h fun _ _ => nil_wf) _) _

theorem inv_saveTeam (t slot : Nat) {z : State} (e : s.saveTeam t slot = some z) : z.Inv := by
  unfold State.saveTeam at e
  split at e
  · cases e
  · split at e
    · cases e
    · next hb =>
      split at e
      · exact inv_writeFrame (inv_stashBackAll h _ _ _ _ _ hb) _ _ e
      · cases e

theorem inv_takeSlot (ctx k : Nat) : (s.takeSlot ctx k).Inv := h

theorem inv_freeSlot (ctx k : Nat) : (s.freeSlot ctx k).Inv := h

theorem inv_finishSave (tm : Team) (slot : Nat) (debug : Bool) : (s.finishSave tm slot debug).Inv := by
  unfold State.finishSave
  grind [inv_backOutAll, inv_saveTeam, inv_endContext, inv_vacate, inv_modCtx]

theorem inv_writeFabric (w : WaitingRecord) : (s.writeFabric w).Inv := by
  unfold State.writeFabric
  grind [inv_modGang, inv_modTeam, inv_update]

theorem inv_drainFabric (ws : List WaitingRecord) : (s.drainFabric ws).Inv := by
  induction ws generalizing s with
  | nil => exact h
  | cons w ws ih =>
    unfold State.drainFabric
    grind [inv_writeFabric, inv_update]

theorem inv_fabricRecord (w : WaitingRecord) : (s.fabricRecord w).Inv := inv_drainFabric h _

theorem inv_postFault (tm : Team) (g : Nat) (t : Trap) (slot : Nat) : (s.postFault tm g t slot).Inv := by
  unfold State.postFault
  grind [inv_modGang, inv_faultRecord, inv_fabricRecord]

theorem inv_execContextSave (team : Nat) {z : State} (e : execContextSave team s = .next z) : z.Inv := by
  have saving : ∀ (x n : Nat) (r : Residence), ((s.takeSlot x n).modTeam team fun y => { y with residence := r }).Inv :=
    fun x n _ => inv_modTeam (inv_takeSlot h x n) fun _ hx => hx
  cases e
  split
  · exact h
  · split
    · exact h
    · split
      · exact h
      · split
        · split
          · exact inv_postFault (saving _ _ _) _ _ _ _
          · exact inv_postFault h _ _ _ _
        · split
          · split
            · exact saving _ _ _
            · exact h
          · exact h
        · exact inv_postFault h _ _ _ _
        · split
          · exact h
          · exact inv_finishSave h _ _ _
        · exact h

theorem inv_placeTeam {x : Team} (hx : Memory.wf x.window = true) (slot : Nat) : (s.placeTeam x slot).Inv := by
  have hi : State.Inv { s with ids := s.ids + 64 } := h
  have placed : ∀ (k : Nat) (gs : List Gang),
      ({ s with ids := s.ids + 64 }.modTeam x.tid fun _ => { x with slot := k, gangs := gs }).Inv :=
    fun _ _ => inv_modTeam hi fun _ _ => hx
  exact inv_arbitrateSlots (inv_freeSlot (placed _ _) _ _) _

omit h in
/-- The window of a team that its frame gives is canonical. -/
theorem teamOfFrame_window {tm x : Team} {va : Nat} (e : s.teamOfFrame tm va = some x) : Memory.wf x.window = true := by
  unfold State.teamOfFrame at e
  split at e
  · cases e
  · dsimp only at e
    split at e
    · split at e
      · split at e
        · cases e
        · cases e
          exact memPutBytes_wf _ _ nil_wf
      · cases e
    · cases e

theorem inv_execTeamRestore (team : Nat) {z : State} (e : execTeamRestore team s = .next z) : z.Inv := by
  cases e
  split
  · exact h
  · split
    · split
      · split
        · exact inv_endContext h _
        · next hf =>
          split
          · refine inv_foldl (fun m g h => ?_) _ (inv_placeTeam h (teamOfFrame_window hf) _)
            split
            · exact inv_clashTrap h _
            · exact h
          · exact h
      · exact h
    · exact h

theorem inv_saveParked (ts : List Nat) {z : State} (e : s.saveParked ts = some z) : z.Inv := by
  induction ts generalizing s with
  | nil => cases e; exact h
  | cons t ts ih =>
    unfold State.saveParked at e
    split at e
    · cases e
    · split at e
      · cases e
      · obtain ⟨y, hy, e⟩ := Option.bind_eq_some_iff.1 e
        obtain ⟨u, hu, rfl⟩ := Option.map_eq_some_iff.1 hy
        refine ih (inv_vacate (inv_saveTeam (inv_foldl (fun _ _ h => inv_modGang h _ _ _) _ (inv_takeSlot h _ _)) _ _ hu) _ _ _ _) e

theorem inv_execParkedEnsembleSave (ensemble : Nat) {z : State} (e : execParkedEnsembleSave ensemble s = .next z) : z.Inv := by
  cases e
  grind [inv_saveParked, inv_endContext, inv_servePark, inv_update]

theorem inv_restoreParked (ts : List Nat) {z : State} (e : s.restoreParked ts = some (some z)) : z.Inv := by
  induction ts generalizing s with
  | nil => cases e; exact h
  | cons t ts ih =>
    unfold State.restoreParked at e
    split at e
    · exact ih h e
    · split at e
      · split at e
        · cases e
        · next hf =>
          split at e
          · next x _ core _ =>
            have hx := teamOfFrame_window hf
            exact ih (inv_placeTeam h (x := { x with core := core }) hx _) e
          · cases e
      · exact ih h e

theorem inv_execParkedEnsembleRestore (ensemble : Nat) {z : State} (e : execParkedEnsembleRestore ensemble s = .next z) : z.Inv := by
  cases e
  grind [inv_restoreParked, inv_endContext, inv_modEnsemble]

theorem inv_serveRecord (fabric : Bool) (r : FaultRecord) (fail : Bool) : (s.serveRecord fabric r fail).Inv := by
  have hs : (s.modTeam r.team fun x => { x with circuitFailed := x.circuitFailed || fail }).Inv := inv_modTeam h fun _ hx => hx
  unfold State.serveRecord
  dsimp only
  split
  · exact inv_modGang hs _ _ _
  · exact inv_modTeam (inv_bump hs) fun _ hx => hx

theorem inv_writeDebug (ctx : Nat) (value : W64) : (s.writeDebug ctx value).Inv := by
  unfold State.writeDebug
  dsimp only
  generalize hm : s.modCtx ctx _ = m
  have hm : m.Inv := hm ▸ inv_modCtx h _ _
  split
  · exact hm.teams (fun _ hx => hm.replaceIf_window (fun _ => by rfl) hx) rfl rfl rfl
  · exact hm

theorem inv_debugRead (ctx slot gang reg : Nat) : (s.debugRead ctx slot gang reg).Inv := by
  unfold State.debugRead
  grind [inv_update]

theorem inv_debugWrite (ctx slot gang reg word : Nat) (value : W32) : (s.debugWrite ctx slot gang reg word value).Inv := by
  unfold State.debugWrite
  split
  · exact h
  · split
    · exact inv_getD h fun _ e => inv_masterWrite h _ _ _ e
    · exact h

theorem inv_killHeld (ctx slot gang : Nat) (old : Gang) (lanes : Mask) : (s.killHeld ctx slot gang old lanes).Inv := by
  unfold State.killHeld
  split
  · exact h
  · exact inv_getD h fun _ e => inv_putFrame h _ _ _ _ e

theorem inv_execDebuggerKill (team gang : Nat) (lanes : Mask) {z : State} (e : execDebuggerKill team gang lanes s = .next z) : z.Inv := by
  cases e
  grind [inv_killHeld, inv_dropLanes, inv_leaveWaits]

theorem inv_execDebugGo (ctx : Nat) (value : W64) {z : State} (e : execDebugGo ctx value s = .next z) : z.Inv := by
  cases e
  split
  · exact inv_writeDebug h _ _
  · exact h

end
end Sys2Proof.Machine
end

section
/-! What keeps the invariant (R241, R495 to R498): packets. -/

namespace Sys2Proof.Machine

section
variable {s : State} (h : s.Inv)
include h

theorem inv_setZsc (unit : Nat) (v : W32) : (s.setZsc unit v).Inv := h

theorem inv_postExhausted (p : Packet) : (s.postExhausted p).Inv := h

theorem inv_exhaust (p : Packet) : (s.exhaust p).Inv := by
  unfold State.exhaust
  grind [inv_setZsc, inv_countPerf, inv_postExhausted, inv_update]

theorem inv_execSlackExhausted (packet : Nat) {z : State} (e : execSlackExhausted packet s = .next z) : z.Inv := by
  cases e
  grind [inv_exhaust]

theorem inv_execPacketService (queue : Nat) {z : State} (e : execPacketService queue s = .next z) : z.Inv := by
  cases e
  grind [inv_exhaust, inv_bump, inv_update]

end
end Sys2Proof.Machine
end

section
/-! What keeps the invariant (R241, R495 to R498): ends of teams, dies and contexts. -/

namespace Sys2Proof.Machine

section
variable {s : State} (h : s.Inv)
include h

theorem inv_execForcedReset (ctx : Nat) {z : State} (e : execForcedReset ctx s = .next z) : z.Inv := by
  cases e
  split <;> exact h

theorem inv_removeTeams (p : Team → Bool) : (s.removeTeams p).Inv := by
  have cleared : ∀ (ts : List Team), (ts.foldl (fun (s : State) x => x.tiles.foldl (fun (s : State) y => s.clearTile x.tid y.id) s) s).Inv :=
    fun ts => inv_foldl (fun _ _ h => inv_foldl (fun _ _ h => inv_clearTile h _ _) _ h) ts h
  refine inv_retryAll (inv_foldl (fun _ _ h => inv_arbitrateSlots (inv_arbitrate h _) _) _ ?_) _
  exact (cleared (s.teams.filter p)).teams (fun _ hx => (cleared _).window (List.mem_filter.1 hx).1) rfl rfl rfl

theorem inv_disableQueues (ctx : Nat) : (s.disableQueues ctx).Inv := inv_foldl (fun _ _ h => by grind [inv_releaseSlot, inv_modQueue]) _ h

theorem inv_finishContext (ctx : Nat) : (s.finishContext ctx).Inv := by
  unfold State.finishContext
  have fold := @inv_foldl
  grind [inv_removeTeams, inv_disableQueues, inv_completeLaunch, inv_modCtx, inv_update]

theorem inv_execContextEnd (ctx : Nat) {z : State} (e : execContextEnd ctx s = .next z) : z.Inv := by
  cases e
  split
  · exact inv_finishContext h _
  · exact h

theorem inv_endAll : s.endAll.Inv := inv_foldl (fun _ _ h => inv_finishContext h _) _ h

theorem inv_latchError (port : Nat) (fatal : Bool) (cls : Byte) (unit : BitVec 16) : (s.latchError port fatal cls unit).Inv := h

theorem inv_execSyndromeClear (port : Nat) {z : State} (e : execSyndromeClear port s = .next z) : z.Inv := by
  cases e
  split <;> exact h

theorem inv_execContainedError (die : Nat) (cls : Byte) (unit : BitVec 16) {z : State} (e : execContainedError die cls unit s = .next z) : z.Inv := by
  cases e
  grind [inv_modDie]

theorem inv_loseDie (die : Nat) : (s.loseDie die).Inv := by
  have freed : ∀ (l : List (Nat × Nat)), (l.foldl (fun (s : State) p => s.freeSlot p.1 p.2) (s.removeTeams fun x => dieOf x.core = die)).Inv :=
    fun l => inv_foldl (fun _ _ h => inv_freeSlot h _ _) l (inv_removeTeams h _)
  exact (inv_modDie (freed _) (n := die) (f := fun _ => { Die.reset with fenced := true }) fun _ _ => nil_wf).update rfl rfl rfl rfl

theorem inv_settleLost : s.settleLost.Inv := by
  unfold State.settleLost
  have fold := @inv_foldl
  grind [inv_wakePromoted, inv_wake, inv_clearBusy, inv_update]

theorem inv_choose (l : List Nat) : (s.choose l).1.Inv := by
  unfold State.choose
  split <;> exact h

theorem inv_elect (die : Nat) : (s.elect die).Inv := by
  unfold State.elect
  grind [inv_choose, inv_update]

theorem inv_lose (target : Option Nat) (e : Nat × Nat) : (s.lose target e).Inv := by
  unfold State.lose
  grind [inv_settleLaunch, inv_modLaunch, inv_endContext]

theorem inv_takeOver (die : Nat) : (s.takeOver die).Inv := by
  unfold State.takeOver
  grind [inv_modDie, inv_update]

theorem inv_loseWork (die : Nat) (work : List (Nat × Nat)) : (s.loseWork die work).Inv := by
  unfold State.loseWork
  have fold := @inv_foldl
  grind [inv_takeOver, inv_lose, inv_update]

theorem inv_shrinkReservations (die : Nat) : (s.shrinkReservations die).Inv := by
  unfold State.shrinkReservations
  have fold := @inv_foldl
  grind [inv_notice, inv_masterPost, inv_passOver, inv_completeLaunch, inv_update]

theorem inv_fence (die : Nat) (cls : Byte) (unit : BitVec 16) : (s.fence die cls unit).Inv := by
  unfold State.fence
  grind [inv_loseDie, inv_settleLost, inv_latchError, inv_elect, inv_shrinkReservations, inv_loseWork, inv_update]

theorem inv_execDieFence (die : Nat) {z : State} (e : execDieFence die s = .next z) : z.Inv := by
  cases e
  grind [inv_fence]

theorem inv_fatal (port : Nat) (cls : Byte) (unit : BitVec 16) : (s.fatal port cls unit).Inv := inv_endAll h

theorem inv_execUncontainedError (port : Nat) (cls : Byte) (unit : BitVec 16) {z : State} (e : execUncontainedError port cls unit s = .next z) :
    z.Inv := by
  cases e
  split
  · exact inv_fatal h _ _ _
  · exact h

theorem inv_execLink0Down {z : State} (e : execLink0Down s = .next z) : z.Inv := by
  cases e
  split
  · exact inv_endAll h
  · exact h

end
end Sys2Proof.Machine
end

section
/-! What keeps the invariant (R241, R495 to R498): movers. -/

namespace Sys2Proof.Machine

section
variable {s : State} (h : s.Inv)
include h

theorem inv_runWrite (bytes : List Byte) (taint : Nat → Bool) (ps : Run) : (s.runWrite bytes taint ps).Inv := by
  induction ps generalizing s with
  | nil => exact h
  | cons p ps ih => exact ih (inv_sideMerge h _ _ _ _)

theorem inv_modChain (mover slot : Nat) (f : Registration → Registration) : (s.modChain mover slot f).Inv := h

theorem inv_halt (r : Registration) (block idx code va : Nat) : (s.halt r block idx code va).Inv := by
  unfold State.halt
  grind [inv_sideBytes, inv_serveWatches, inv_modChain, inv_notice]

theorem inv_done (d : Taken) : (s.done d).Inv := by
  unfold State.done
  grind [inv_serveWatches, inv_sideBytes, inv_modChain]

theorem inv_stopChain (d : Taken) (m : MoverStop) : (s.stopChain d m).Inv := by
  unfold State.stopChain
  grind [inv_halt, inv_fabricRecord]

theorem inv_sendRun (d : Taken) (r : Run) : (s.sendRun d r).Inv := inv_foldl (fun _ _ h => inv_send h _ _) _ h

/-- A mover keeps the invariant where what it does with a descriptor that it takes keeps it. -/
theorem inv_moverStep {mover slot : Nat} {ops : List Nat} {f : Taken → State → State} (hf : ∀ d m, m.Inv → (f d m).Inv) :
    (moverStep mover slot ops f s).Inv := by
  unfold moverStep
  grind [inv_halt]

theorem inv_execMoverCopy (mover slot : Nat) {z : State} (e : execMoverCopy mover slot s = .next z) : z.Inv := by
  cases e
  refine inv_moverStep h fun d m h => ?_
  grind [inv_stopChain, inv_sendRun, inv_runWrite, inv_done, inv_update]

theorem inv_mismatch (d : Taken) : (s.mismatch d).Inv := inv_foldl (fun _ _ h => inv_halt h _ _ _ _ _) _ h

theorem inv_writeAll (bytes : List Byte) (runs : List Run) : (s.writeAll bytes runs).Inv := inv_foldl
    (fun _ _ h => inv_serveWatches (inv_runWrite h _ _ _)) _ h

theorem inv_sendMember (away : Bool) (m : Taken) (r : Run) : (s.sendMember away m r).Inv := by
  unfold State.sendMember
  grind [inv_sendRun, inv_send]

theorem inv_sendMembers (away : Bool) (ms : List (Member × Run)) : (s.sendMembers away ms).Inv := inv_foldl (fun _ _ h => by grind [inv_sendMember])
    _ h

theorem inv_execMoverRingAllreduce (mover slot : Nat) {z : State} (e : execMoverRingAllreduce mover slot s = .next z) : z.Inv := by
  cases e
  refine inv_moverStep h fun d m h => ?_
  have fold := @inv_foldl
  grind [inv_stopChain, inv_mismatch, inv_sendMembers, inv_writeAll, inv_done]

theorem inv_execMoverTreeAllreduce (mover slot : Nat) {z : State} (e : execMoverTreeAllreduce mover slot s = .next z) : z.Inv := by
  cases e
  refine inv_moverStep h fun d m h => ?_
  have fold := @inv_foldl
  grind [inv_stopChain, inv_mismatch, inv_sendMember, inv_writeAll, inv_done, inv_update]

theorem inv_modEth (p : Nat) (f : EthPort → EthPort) : (s.modEth p f).Inv := h

theorem inv_execEthernetSend (mover slot : Nat) {z : State} (e : execEthernetSend mover slot s = .next z) : z.Inv := by
  cases e
  refine inv_moverStep h fun d m h => ?_
  grind [inv_stopChain, inv_sendRun, inv_modEth, inv_done]

theorem inv_execEthernetReceive (mover slot : Nat) {z : State} (e : execEthernetReceive mover slot s = .next z) : z.Inv := by
  cases e
  refine inv_moverStep h fun d m h => ?_
  grind [inv_stopChain, inv_sendRun, inv_runWrite, inv_modEth, inv_done]

theorem inv_execEthernetFrameArrival (port : Nat) (frame : List Byte) (fcsGood paused : Bool) {z : State}
    (e : execEthernetFrameArrival port frame fcsGood paused s = .next z) : z.Inv := by
  cases e
  grind [inv_modEth]

theorem inv_linkWrite (pa : Nat) (bytes : List Byte) (poisoned : Bool) : (s.linkWrite pa bytes poisoned).Inv := by
  unfold State.linkWrite
  split
  · exact inv_serveWatches (inv_sideMerge h _ _ _ _)
  · exact h

theorem inv_execUtiumFlitReceive (port : Nat) (crcGood : Bool) (flit : Flit) {z : State} (e : execUtiumFlitReceive port crcGood flit s = .next z) :
    z.Inv := by
  cases e
  split
  · exact inv_foldl (fun _ _ h => inv_linkWrite h _ _ _) _ h
  · exact h

end
end Sys2Proof.Machine
end

section
/-! What keeps the invariant (R241, R495 to R498): the start (R495 to R498). -/

namespace Sys2Proof.Machine

section
variable {s : State} (h : s.Inv)
include h

theorem inv_measure (i : Nat) (d : List Byte) : (s.measure i d).Inv := h

theorem inv_measureImage (i : Nat) (img : List Byte) : (s.measureImage i img).Inv := h

theorem inv_zeroMemory : s.zeroMemory.Inv := h.memory (filter_wf _ h.mem) rfl rfl rfl

omit h in
/-- The states of a start that R495 to R498 allow, part by part. -/
theorem Start.legal_iff {t : Start} : t.legal = true ↔ (t.gf.toNat ≤ 3 ∧ t.rf.toNat ≤ 3 ∧ t.phase ≤ 9) ∧
    (t.phase = 0 ∨ t.ready = false ∧ t.safe = false ∧ t.failed = false) ∧ (t.ready = true → t.safe = false) ∧
    (t.ready = true → t.failed = false) ∧ (t.safe = true → t.failed = false) := by
  simp only [Start.legal, Bool.and_eq_true, Bool.or_eq_true, decide_eq_true_eq, Bool.not_eq_true', Bool.and_eq_false_iff, Bool.or_eq_false_iff]
  grind

/-- A start that its rules allow keeps the invariant. -/
theorem State.Inv.started {t : State} (ht : t.start.legal = true) (hm : t.mem = s.mem) (hd : t.dies = s.dies) (hx : t.teams = s.teams) :
    t.Inv := by
  obtain ⟨hi, _⟩ := h
  refine ⟨?_, ht⟩
  unfold State.tidy
  rw [hm, hd, hx]
  exact hi

theorem inv_wholeReset : s.wholeReset.Inv := by
  obtain ⟨⟨hg, hr, _⟩, _⟩ := Start.legal_iff.1 h.start
  refine (reset_inv.memory (t := { State.reset with mem := s.mem }) h.mem rfl rfl rfl).started ?_ rfl rfl rfl
  exact Start.legal_iff.2 ⟨⟨hg, hr, Nat.zero_le 9⟩, .inl rfl, nofun, nofun, nofun⟩

theorem inv_unpowered : s.unpowered.Inv := by
  have hw := inv_zeroMemory (inv_wholeReset h)
  exact hw.started hw.start rfl rfl rfl

theorem inv_execPowerOn {z : State} (e : execPowerOn s = .next z) : z.Inv := by
  cases e
  exact inv_unpowered h

theorem inv_execPowerRemoval {z : State} (e : execPowerRemoval s = .next z) : z.Inv := by
  cases e
  exact inv_unpowered h

theorem inv_execFundamentalReset {z : State} (e : execFundamentalReset s = .next z) : z.Inv := by
  cases e
  split
  · exact inv_wholeReset h
  · exact h

theorem inv_execGroundWatchdogReset {z : State} (e : execGroundWatchdogReset s = .next z) : z.Inv := by
  cases e
  split
  · exact inv_wholeReset h
  · exact h

theorem inv_execRst {z : State} (e : execRst s = .next z) : z.Inv := by
  cases e
  split
  · exact inv_wholeReset h
  · exact h

omit h in
theorem raise3_le (n : BitVec 4) : (raise3 n).toNat ≤ 3 := by
  unfold raise3
  split
  · bv_omega
  · decide

/-- A start that fails before it is ready keeps the invariant. -/
theorem inv_failStart (hr : s.start.ready = false) : s.failStart.Inv := by
  obtain ⟨⟨hg, hf, _⟩, _⟩ := Start.legal_iff.1 h.start
  refine h.started (Start.legal_iff.2 ⟨⟨?_, ?_, Nat.zero_le 9⟩, .inl rfl, ?_, ?_, ?_⟩) rfl rfl rfl
  · unfold State.failStart
    dsimp only
    split
    · exact hg
    · exact raise3_le _
  · unfold State.failStart
    dsimp only
    split
    · exact raise3_le _
    · exact hf
  · exact fun h => absurd (hr.symm.trans h) nofun
  · exact fun h => absurd (hr.symm.trans h) nofun
  · exact fun h => by simpa [State.failStart] using h

theorem inv_furnish (spare : Nat) : (s.furnish spare).Inv := by
  refine h.dies (fun d => ?_) rfl rfl rfl
  rw [State.furnish, Fin.getElem_fin, Vector.getElem_ofFn]
  exact nil_wf

/-- A start that comes to its end keeps the invariant. -/
theorem inv_ready (hs : s.start.safe = false) (hf : s.start.failed = false) : s.ready.Inv := by
  refine inv_measure ?_ _ _
  exact h.started (Start.legal_iff.2 ⟨⟨Nat.zero_le 3, Nat.zero_le 3, Nat.zero_le 9⟩, .inl rfl, fun _ => hs, fun _ => hf, fun _ => hf⟩)
    rfl rfl rfl

/-- The next phase of a start that has not ended. -/
theorem inv_nextPhase (hp : s.start.phase < 9) (hr : s.start.ready = false) (hs : s.start.safe = false) (hf : s.start.failed = false) :
    State.Inv { s with start := { s.start with phase := s.start.phase + 1 } } := by
  obtain ⟨⟨hg, hn, _⟩, _⟩ := Start.legal_iff.1 h.start
  exact h.started (Start.legal_iff.2 ⟨⟨hg, hn, hp⟩, .inr ⟨hr, hs, hf⟩, fun _ => hs, fun _ => hf, fun _ => hf⟩) rfl rfl rfl

/-- A step of a start that has not ended keeps the invariant. -/
theorem inv_startStep (hr : s.start.ready = false) (hs : s.start.safe = false) (hf : s.start.failed = false) (spare : Nat) {z : State}
    (e : s.startStep spare = some z) : z.Inv := by
  obtain ⟨⟨_, _, hp⟩, _⟩ := Start.legal_iff.1 h.start
  unfold State.startStep at e
  dsimp only at e
  split at e
  · split at e
    · cases e
      exact inv_nextPhase (inv_measureImage h _ _) (by change s.start.phase < 9; omega) hr hs hf
    · cases e
  · split at e
    · cases e
      have hm := inv_measureImage (inv_measureImage (inv_measureImage h 1 s.flash.studio) 2 s.flash.topology) 3 s.flash.provisioning
      have ht := inv_nextPhase hm (by change s.start.phase < 9; omega) hr hs hf
      exact ht.update rfl rfl rfl rfl
    · cases e
  · cases e
    exact inv_nextPhase (inv_zeroMemory h) (by change s.start.phase < 9; omega) hr hs hf
  · cases e
    exact inv_nextPhase (inv_furnish h spare) (by change s.start.phase < 9; omega) hr hs hf
  · cases e
    exact inv_ready h hs hf
  · next h9 =>
    cases e
    exact inv_nextPhase h (Nat.lt_of_le_of_ne hp h9) hr hs hf

theorem inv_execStart (good : Bool) (spare : Nat) {z : State} (e : execStart good spare s = .next z) : z.Inv := by
  cases e
  dsimp only
  split
  · exact h
  · next hc =>
    simp only [not_or, Bool.not_eq_true] at hc
    obtain ⟨_, hr, hs, hf⟩ := hc
    split
    · obtain ⟨⟨hg, hn, _⟩, _⟩ := Start.legal_iff.1 h.start
      exact h.started (Start.legal_iff.2 ⟨⟨hg, hn, (by decide : 1 ≤ 9)⟩, .inr ⟨hr, hs, hf⟩, fun _ => hs, fun _ => hf, fun _ => hf⟩) rfl rfl rfl
    · split
      · next hz =>
        split at hz
        · exact inv_startStep h hr hs hf _ hz
        · cases hz
      · exact inv_failStart h hr

theorem inv_execStartStepTimeout {z : State} (e : execStartStepTimeout s = .next z) : z.Inv := by
  cases e
  split
  · next hc =>
    obtain ⟨_, hp, _⟩ := hc
    obtain ⟨_, ho, _⟩ := Start.legal_iff.1 h.start
    obtain ho | ⟨hr, _⟩ := ho
    · omega
    · exact inv_failStart h hr
  · exact h

theorem inv_execStartFailureReset {z : State} (e : execStartFailureReset s = .next z) : z.Inv := by
  cases e
  split
  · exact inv_wholeReset h
  · exact h

theorem inv_execStudioRestart {z : State} (e : execStudioRestart s = .next z) : z.Inv := by
  cases e
  split <;> exact h

theorem inv_execAttestationRequest (nonce : BitVec 256) {z : State} (e : execAttestationRequest nonce s = .next z) : z.Inv := by
  cases e
  split <;> exact h

theorem inv_execHostLinkTrained (link : Nat) {z : State} (e : execHostLinkTrained link s = .next z) : z.Inv := by
  cases e
  grind [inv_update]

end
end Sys2Proof.Machine
end

section
/-! What keeps the invariant (R241, R495 to R498): the host. -/

namespace Sys2Proof.Machine

section
variable {s : State} (h : s.Inv)
include h

theorem inv_serveFabric (idx : Nat) (fail : Bool) : (s.serveFabric idx fail).Inv := by
  unfold State.serveFabric
  grind [inv_serveRecord, inv_modChain, inv_drainFabric, inv_update]

theorem inv_execFabricFaultServed (idx : W32) (fail : Bool) {z : State} (e : execFabricFaultServed idx fail s = .next z) : z.Inv := by
  cases e
  split
  · exact inv_serveFabric h _ _
  · exact h

theorem inv_serveFault (ctx idx : Nat) : (s.serveFault ctx idx).Inv := by
  unfold State.serveFault
  split
  · exact h
  · exact inv_serveRecord (inv_modCtx h _ _) _ _ _

theorem inv_execFaultServed (ctx : Nat) (idx : W32) {z : State} (e : execFaultServed ctx idx s = .next z) : z.Inv := by
  cases e
  split
  · exact inv_serveFault h _ _
  · exact h

theorem inv_setFaultHead (ctx : Nat) (head : W32) : (s.setFaultHead ctx head).Inv := inv_retryRecords (inv_modCtx h _ _) _

theorem inv_execFaultQueueHeadWrite (ctx : Nat) (head : W32) {z : State} (e : execFaultQueueHeadWrite ctx head s = .next z) : z.Inv := by
  cases e
  split
  · exact inv_setFaultHead h _ _
  · exact h

theorem inv_invalidated (ctx lo hi : Nat) : (s.invalidated ctx lo hi).Inv := by
  unfold State.invalidated
  grind [inv_invalidate, inv_retryRecords]

omit h in
theorem eq_of_ite_ok {c : Prop} [Decidable c] {p : Stop} {a z : State} (e : (if c then .error p else .ok a) = Except.ok z) : a = z := by
  split at e
  · cases e
  · exact Except.ok.inj e

theorem inv_execTlbinv (w : Fields) {z : State} (e : execTlbinv w s = .next z) : z.Inv := by
  refine inv_issue h (fun x m z h e => ?_) e
  dsimp only at e
  split at e
  · cases e
  · obtain rfl := eq_of_ite_ok e
    exact inv_invalidated h _ _ _

theorem inv_startInv (ctx : Nat) (value : W64) : (s.startInv ctx value).Inv := h

theorem inv_writeInv (ctx : Nat) (value : W64) : (s.writeInv ctx value).Inv := by
  unfold State.writeInv
  grind [inv_modCtx, inv_startInv]

theorem inv_advanceInv (ctx : Nat) : (s.advanceInv ctx).Inv := by
  unfold State.advanceInv
  grind [inv_modCtx, inv_invalidated, inv_startInv]

theorem inv_execTlbInvalidateControl (ctx : Nat) (value : W64) {z : State} (e : execTlbInvalidateControl ctx value s = .next z) : z.Inv := by
  cases e
  split
  · exact inv_writeInv h _ _
  · exact h

theorem inv_invalidateAll : s.invalidateAll.Inv := h

theorem inv_execIcacheInvalidateGo {z : State} (e : execIcacheInvalidateGo s = .next z) : z.Inv := by
  cases e
  split <;> exact h

theorem inv_writeWay (die : Nat) (way : BitVec 16) : (s.writeWay die way).Inv := by
  unfold State.writeWay
  dsimp only
  split
  · exact h
  · refine inv_modDie ?_ fun _ _ => nil_wf
    split
    · exact h
    · exact inv_evictAll h _

theorem inv_execWayMaskWrite (die : Nat) (way : W32) {z : State} (e : execWayMaskWrite die way s = .next z) : z.Inv := by
  cases e
  split
  · exact inv_writeWay h _ _
  · exact h

theorem inv_writePair (i j : Nat) (v : W32) : (s.writePair i j v).Inv := by
  unfold State.writePair
  grind [inv_modPair]

theorem inv_execRoutingRegisterWrite (i j : Nat) (value : W32) {z : State} (e : execRoutingRegisterWrite i j value s = .next z) : z.Inv := by
  cases e
  split
  · exact inv_writePair h _ _ _
  · exact h

theorem inv_execRouteChangeEffect (i j : Nat) {z : State} (e : execRouteChangeEffect i j s = .next z) : z.Inv := by
  cases e
  grind [inv_modPair]

theorem inv_execPairFaultCountClear (i j : Nat) {z : State} (e : execPairFaultCountClear i j s = .next z) : z.Inv := by
  cases e
  split <;> exact h

theorem inv_loseRail (i j plane : Nat) : (s.loseRail i j plane).Inv := by
  unfold State.loseRail
  split <;> exact h

theorem inv_execRailLoss (i j plane : Nat) {z : State} (e : execRailLoss i j plane s = .next z) : z.Inv := by
  cases e
  split
  · exact inv_loseRail h _ _ _
  · exact h

theorem inv_execRailRelock (i j rail : Nat) {z : State} (e : execRailRelock i j rail s = .next z) : z.Inv := by
  cases e
  split <;> exact h

theorem inv_execPairLossTimeout (i j : Nat) {z : State} (e : execPairLossTimeout i j s = .next z) : z.Inv := by
  cases e
  grind [inv_fence, inv_fatal]

theorem inv_execLaneLossOfLock (lane : LaneName) {z : State} (e : execLaneLossOfLock lane s = .next z) : z.Inv := by
  cases e
  grind [inv_loseRail, inv_update]

theorem inv_execRetrainAttemptEnd (lane : LaneName) (locked : Bool) {z : State} (e : execRetrainAttemptEnd lane locked s = .next z) : z.Inv := by
  cases e
  grind [inv_update]

theorem inv_execHeaterRollover (_lane : LaneName) {z : State} (e : execHeaterRollover _lane s = .next z) : z.Inv := by
  cases e
  exact h

theorem inv_execSwitchMatrixCommand (asg : BitVec 384) {z : State} (e : execSwitchMatrixCommand asg s = .next z) : z.Inv := by
  cases e
  split <;> exact h

theorem inv_loseRemote (r : RemoteOp) : (s.loseRemote r).Inv := by
  unfold State.loseRemote
  grind [inv_dropRemote, inv_modTeam, inv_modSeq, inv_atomic, inv_deliverRemote, inv_acquirePerformed, inv_wakeRemote]

theorem inv_settleRemotes (rs : List RemoteOp) : (s.settleRemotes rs).Inv := by
  induction rs generalizing s with
  | nil => exact h
  | cons r rs ih =>
    unfold State.settleRemotes
    grind [inv_completeRemote, inv_loseRemote]

theorem inv_forgetCircuits : s.forgetCircuits.Inv := h.teams (fun _ hx => h.map_window (fun _ => by rfl) hx) rfl rfl rfl

theorem inv_execSwitchCommandApplied {z : State} (e : execSwitchCommandApplied s = .next z) : z.Inv := by
  cases e
  split
  · next c t _ _ =>
    split
    · exact h
    · have lit : State.Inv { s.light t c.asg with switchCmds := settleCmd 0#8 1#2 s.switchCmds } := by
        simp only [State.light, inv_update]
        exact h
      exact (inv_forgetCircuits (inv_settleRemotes lit _)).update rfl rfl rfl rfl
  · exact h

theorem inv_startSeq (n : Nat) : (s.startSeq n).Inv := by
  unfold State.startSeq
  grind [inv_setSeq, inv_ready]

theorem inv_execSequencerStart (seq : Nat) {z : State} (e : execSequencerStart seq s = .next z) : z.Inv := by
  cases e
  split
  · exact inv_startSeq h _
  · exact h

theorem inv_writeQueue (q : Nat) (mask v : W64) : (s.writeQueue q mask v).Inv := by
  unfold State.writeQueue
  grind [inv_releaseSlot, inv_modQueue, inv_ringBell, inv_update]

theorem inv_writeDesc (q : Nat) (mask v : W64) : (s.writeDesc q mask v).Inv := h

theorem inv_writeRegistration (mover slot : Nat) (f : Registration → Registration) : (s.writeRegistration mover slot f).Inv := h

theorem inv_writeContext (ctx off : Nat) (mask v : W64) : (s.writeContext ctx off mask v).Inv := by
  unfold State.writeContext
  grind [inv_modCtx, inv_retryRecords, inv_writeDebug, inv_serveFault, inv_writeInv, inv_setFaultHead]

theorem inv_writeSeq (n off : Nat) (mask v : W64) : (s.writeSeq n off mask v).Inv := by
  unfold State.writeSeq
  grind [inv_modSeq, inv_startSeq]

theorem inv_writeCore (core off : Nat) (mask v : W64) : (s.writeCore core off mask v).Inv := by
  unfold State.writeCore
  grind [inv_modCore]

theorem inv_writePackage (off : Nat) (mask v : W64) : (s.writePackage off mask v).Inv := by
  have reset : ∀ m : BitVec 2, State.Inv { s with start := { s.start with mode := m } } := fun _ => h.started h.start rfl rfl rfl
  unfold State.writePackage
  split
  · dsimp only
    split
    · split
      · exact inv_wholeReset (reset _)
      · exact reset _
    · exact h
  · grind [inv_writeWay, inv_modChip, inv_invalidateAll, inv_serveFabric, inv_writeSeq, inv_setZsc, inv_writePair, inv_update]

theorem inv_writeSpace (off : Nat) (mask v : W64) : (s.writeSpace off mask v).Inv := by
  unfold State.writeSpace
  grind [inv_writePackage, inv_writeQueue, inv_writeDesc, inv_writeRegistration, inv_writeContext, inv_writeCore]

theorem inv_execRegisterWrite (offset width : Nat) (value : W64) {z : State} (e : execRegisterWrite offset width value s = .next z) : z.Inv := by
  cases e
  grind [inv_writeSpace]

theorem inv_readHead (q : Nat) : (s.readHead q).Inv := by
  unfold State.readHead
  grind [inv_modQueue, inv_answerHead]

theorem inv_execHostLinkAccess (link : Nat) (access : HostAccess) {z : State} (e : execHostLinkAccess link access s = .next z) : z.Inv := by
  cases e
  split
  · exact h
  · split
    · split <;> exact h
    · split
      · exact inv_foldl (fun _ _ h => inv_linkWrite h _ _ _) _ h
      · exact h
    · exact h
    · grind [inv_readHead]
    · grind [inv_debugRead]
    · grind [inv_debugWrite]

end
end Sys2Proof.Machine
end

section
/-! What keeps the invariant (R241, R495 to R498): the clock. -/

namespace Sys2Proof.Machine

section
variable {s : State} (h : s.Inv)
include h

theorem inv_countClocks (first last : Nat) (c : Core) : (s.countClocks first last c).Inv := h

theorem inv_trimDie (die : Nat) : (s.trimDie die).Inv := by
  unfold State.trimDie
  have fold := @inv_foldl
  grind [inv_evictSent]

theorem inv_trim : s.trim.Inv := inv_foldl (fun _ _ h => inv_trimDie h _) _ h

theorem inv_pass : s.pass.Inv := by
  unfold State.pass
  have fold := @inv_foldl
  grind [inv_serveWatches, inv_trim, inv_advanceInv, inv_countClocks, inv_update]

end
end Sys2Proof.Machine
end

section
/-! What keeps the invariant (R241, R495 to R498): floats. -/

namespace Sys2Proof.Machine

section
variable {s : State} (h : s.Inv)
include h

theorem inv_execSfadd (w : Fields) {z : State} (e : execSfadd w s = .next z) : z.Inv := inv_floatScalar h _ _ _ _ _ _ _ e

theorem inv_execSfmul (w : Fields) {z : State} (e : execSfmul w s = .next z) : z.Inv := inv_floatScalar h _ _ _ _ _ _ _ e

theorem inv_execSffma (w : Fields) {z : State} (e : execSffma w s = .next z) : z.Inv := inv_floatScalar h _ _ _ _ _ _ _ e

theorem inv_execSfcvt (w : Fields) {z : State} (e : execSfcvt w s = .next z) : z.Inv := by
  unfold execSfcvt at e
  grind [inv_floatScalar]

theorem inv_execVfadd (w : Fields) {z : State} (e : execVfadd w s = .next z) : z.Inv := by
  unfold execVfadd at e
  grind [inv_floatOp]

theorem inv_execVfsub (w : Fields) {z : State} (e : execVfsub w s = .next z) : z.Inv := by
  unfold execVfsub at e
  grind [inv_floatOp]

theorem inv_execVfmul (w : Fields) {z : State} (e : execVfmul w s = .next z) : z.Inv := by
  unfold execVfmul at e
  grind [inv_floatOp]

theorem inv_execVffma (w : Fields) {z : State} (e : execVffma w s = .next z) : z.Inv := by
  unfold execVffma at e
  grind [inv_floatOp]

theorem inv_execVfmin (w : Fields) {z : State} (e : execVfmin w s = .next z) : z.Inv := by
  unfold execVfmin at e
  grind [inv_floatOp]

theorem inv_execVfmax (w : Fields) {z : State} (e : execVfmax w s = .next z) : z.Inv := by
  unfold execVfmax at e
  grind [inv_floatOp]

theorem inv_execVfcmp (w : Fields) {z : State} (e : execVfcmp w s = .next z) : z.Inv := inv_vectorTest h _ _ _ _ _ _ e

theorem inv_execVfdiv (w : Fields) {z : State} (e : execVfdiv w s = .next z) : z.Inv := by
  unfold execVfdiv at e
  grind [inv_floatOp]

theorem inv_execVfsqrt (w : Fields) {z : State} (e : execVfsqrt w s = .next z) : z.Inv := by
  unfold execVfsqrt at e
  grind [inv_floatOp]

theorem inv_execVfrcp (w : Fields) {z : State} (e : execVfrcp w s = .next z) : z.Inv := by
  unfold execVfrcp at e
  grind [inv_floatOp]

theorem inv_execVfrsq (w : Fields) {z : State} (e : execVfrsq w s = .next z) : z.Inv := by
  unfold execVfrsq at e
  grind [inv_floatOp]

theorem inv_execVfexp2 (w : Fields) {z : State} (e : execVfexp2 w s = .next z) : z.Inv := by
  unfold execVfexp2 at e
  grind [inv_floatOp]

theorem inv_execVflog2 (w : Fields) {z : State} (e : execVflog2 w s = .next z) : z.Inv := by
  unfold execVflog2 at e
  grind [inv_floatOp]

theorem inv_execVfsinpi (w : Fields) {z : State} (e : execVfsinpi w s = .next z) : z.Inv := by
  unfold execVfsinpi at e
  grind [inv_floatOp]

theorem inv_execVfcospi (w : Fields) {z : State} (e : execVfcospi w s = .next z) : z.Inv := by
  unfold execVfcospi at e
  grind [inv_floatOp]

theorem inv_execVfcvt (w : Fields) {z : State} (e : execVfcvt w s = .next z) : z.Inv := by
  unfold execVfcvt at e
  grind [inv_floatOp]

theorem inv_execVfcvti (w : Fields) {z : State} (e : execVfcvti w s = .next z) : z.Inv := by
  unfold execVfcvti at e
  grind [inv_floatOp]

theorem inv_execVicvtf (w : Fields) {z : State} (e : execVicvtf w s = .next z) : z.Inv := by
  unfold execVicvtf at e
  grind [inv_floatOp]

theorem inv_execVfrnd (w : Fields) {z : State} (e : execVfrnd w s = .next z) : z.Inv := by
  unfold execVfrnd at e
  grind [inv_floatOp]

theorem inv_execVfclass (w : Fields) {z : State} (e : execVfclass w s = .next z) : z.Inv := by
  unfold execVfclass at e
  grind [inv_vectorTest, inv_vectorOp]

theorem inv_execVfscale (w : Fields) {z : State} (e : execVfscale w s = .next z) : z.Inv := by
  unfold execVfscale at e
  grind [inv_floatOp]

theorem inv_execVfgetexp (w : Fields) {z : State} (e : execVfgetexp w s = .next z) : z.Inv := inv_vectorOp h _ _ _ _ _ _ _ _ e

theorem inv_execVfpack (w : Fields) {z : State} (e : execVfpack w s = .next z) : z.Inv := by
  unfold execVfpack at e
  grind [inv_floatOp]

theorem inv_execVfdot2 (w : Fields) {z : State} (e : execVfdot2 w s = .next z) : z.Inv := by
  unfold execVfdot2 at e
  grind [inv_floatOp]

end
end Sys2Proof.Machine
end

section
/-! What keeps the invariant (R241, R495 to R498): gang instructions. -/

namespace Sys2Proof.Machine

section
variable {s : State} (h : s.Inv)
include h

theorem inv_execGvote (w : Fields) {z : State} (e : execGvote w s = .next z) : z.Inv :=
  inv_issue h (fun _ _ _ h e => inv_envBody h _ _ e) e

theorem inv_execGshfl (w : Fields) {z : State} (e : execGshfl w s = .next z) : z.Inv :=
  inv_issue h (fun _ _ _ h e => inv_envBody h _ _ e) e

theorem inv_execGscan (w : Fields) {z : State} (e : execGscan w s = .next z) : z.Inv :=
  inv_issue h (fun _ _ _ h e => inv_envBody h _ _ e) e

theorem inv_execGreduce (w : Fields) {z : State} (e : execGreduce w s = .next z) : z.Inv :=
  inv_issue h (fun _ _ _ h e => inv_envBody h _ _ e) e

theorem inv_execGbcast (w : Fields) {z : State} (e : execGbcast w s = .next z) : z.Inv :=
  inv_issue h (fun _ _ _ h e => inv_envBody h _ _ e) e

end
end Sys2Proof.Machine
end

section
/-! What keeps the invariant (R241, R495 to R498): scalar integers. -/

namespace Sys2Proof.Machine

section
variable {s : State} (h : s.Inv)
include h

theorem inv_execSadd (w : Fields) {z : State} (e : execSadd w s = .next z) : z.Inv := inv_scalarOp h _ _ _ _ _ _ _ e

theorem inv_execSsub (w : Fields) {z : State} (e : execSsub w s = .next z) : z.Inv := inv_scalarOp h _ _ _ _ _ _ _ e

theorem inv_execSmul (w : Fields) {z : State} (e : execSmul w s = .next z) : z.Inv := inv_scalarOp h _ _ _ _ _ _ _ e

theorem inv_execSmulh (w : Fields) {z : State} (e : execSmulh w s = .next z) : z.Inv := inv_scalarOp h _ _ _ _ _ _ _ e

theorem inv_execSdiv (w : Fields) {z : State} (e : execSdiv w s = .next z) : z.Inv := inv_scalarOp h _ _ _ _ _ _ _ e

theorem inv_execSrem (w : Fields) {z : State} (e : execSrem w s = .next z) : z.Inv := inv_scalarOp h _ _ _ _ _ _ _ e

theorem inv_execSand (w : Fields) {z : State} (e : execSand w s = .next z) : z.Inv := inv_scalarOp h _ _ _ _ _ _ _ e

theorem inv_execSor (w : Fields) {z : State} (e : execSor w s = .next z) : z.Inv := inv_scalarOp h _ _ _ _ _ _ _ e

theorem inv_execSxor (w : Fields) {z : State} (e : execSxor w s = .next z) : z.Inv := inv_scalarOp h _ _ _ _ _ _ _ e

theorem inv_execSshl (w : Fields) {z : State} (e : execSshl w s = .next z) : z.Inv := inv_scalarOp h _ _ _ _ _ _ _ e

theorem inv_execSshr (w : Fields) {z : State} (e : execSshr w s = .next z) : z.Inv := inv_scalarOp h _ _ _ _ _ _ _ e

theorem inv_execSsar (w : Fields) {z : State} (e : execSsar w s = .next z) : z.Inv := inv_scalarOp h _ _ _ _ _ _ _ e

theorem inv_execSrot (w : Fields) {z : State} (e : execSrot w s = .next z) : z.Inv := inv_scalarOp h _ _ _ _ _ _ _ e

theorem inv_execSmin (w : Fields) {z : State} (e : execSmin w s = .next z) : z.Inv := inv_scalarOp h _ _ _ _ _ _ _ e

theorem inv_execSmax (w : Fields) {z : State} (e : execSmax w s = .next z) : z.Inv := inv_scalarOp h _ _ _ _ _ _ _ e

theorem inv_execScmp (w : Fields) {z : State} (e : execScmp w s = .next z) : z.Inv := inv_scalarOp h _ _ _ _ _ _ _ e

theorem inv_execSsel (w : Fields) {z : State} (e : execSsel w s = .next z) : z.Inv := inv_scalarOp h _ _ _ _ _ _ _ e

theorem inv_execSmov (w : Fields) {z : State} (e : execSmov w s = .next z) : z.Inv := inv_scalarOp h _ _ _ _ _ _ _ e

theorem inv_execSli (w : Fields) {z : State} (e : execSli w s = .next z) : z.Inv :=
  inv_issue h (fun _ _ _ h e => inv_regsBody h _ _ e) e

theorem inv_execSclz (w : Fields) {z : State} (e : execSclz w s = .next z) : z.Inv := inv_scalarOp h _ _ _ _ _ _ _ e

theorem inv_execSpopc (w : Fields) {z : State} (e : execSpopc w s = .next z) : z.Inv := inv_scalarOp h _ _ _ _ _ _ _ e

theorem inv_execSbfx (w : Fields) {z : State} (e : execSbfx w s = .next z) : z.Inv := inv_scalarOp h _ _ _ _ _ _ _ e

theorem inv_execSbfi (w : Fields) {z : State} (e : execSbfi w s = .next z) : z.Inv := inv_scalarOp h _ _ _ _ _ _ _ e

end
end Sys2Proof.Machine
end

section
/-! What keeps the invariant (R241, R495 to R498): vector integers. -/

namespace Sys2Proof.Machine

section
variable {s : State} (h : s.Inv)
include h

theorem inv_execVadd (w : Fields) {z : State} (e : execVadd w s = .next z) : z.Inv := inv_vectorOp h _ _ _ _ _ _ _ _ e

theorem inv_execVsub (w : Fields) {z : State} (e : execVsub w s = .next z) : z.Inv := inv_vectorOp h _ _ _ _ _ _ _ _ e

theorem inv_execVmul (w : Fields) {z : State} (e : execVmul w s = .next z) : z.Inv := inv_vectorOp h _ _ _ _ _ _ _ _ e

theorem inv_execVmulh (w : Fields) {z : State} (e : execVmulh w s = .next z) : z.Inv := inv_vectorOp h _ _ _ _ _ _ _ _ e

theorem inv_execVmad (w : Fields) {z : State} (e : execVmad w s = .next z) : z.Inv := inv_vectorOp h _ _ _ _ _ _ _ _ e

theorem inv_execVand (w : Fields) {z : State} (e : execVand w s = .next z) : z.Inv := inv_vectorOp h _ _ _ _ _ _ _ _ e

theorem inv_execVor (w : Fields) {z : State} (e : execVor w s = .next z) : z.Inv := inv_vectorOp h _ _ _ _ _ _ _ _ e

theorem inv_execVxor (w : Fields) {z : State} (e : execVxor w s = .next z) : z.Inv := inv_vectorOp h _ _ _ _ _ _ _ _ e

theorem inv_execVandn (w : Fields) {z : State} (e : execVandn w s = .next z) : z.Inv := inv_vectorOp h _ _ _ _ _ _ _ _ e

theorem inv_execVshl (w : Fields) {z : State} (e : execVshl w s = .next z) : z.Inv := inv_vectorOp h _ _ _ _ _ _ _ _ e

theorem inv_execVshr (w : Fields) {z : State} (e : execVshr w s = .next z) : z.Inv := inv_vectorOp h _ _ _ _ _ _ _ _ e

theorem inv_execVsar (w : Fields) {z : State} (e : execVsar w s = .next z) : z.Inv := inv_vectorOp h _ _ _ _ _ _ _ _ e

theorem inv_execVrot (w : Fields) {z : State} (e : execVrot w s = .next z) : z.Inv := inv_vectorOp h _ _ _ _ _ _ _ _ e

theorem inv_execVfunnel (w : Fields) {z : State} (e : execVfunnel w s = .next z) : z.Inv := inv_vectorOp h _ _ _ _ _ _ _ _ e

theorem inv_execVmin (w : Fields) {z : State} (e : execVmin w s = .next z) : z.Inv := inv_vectorOp h _ _ _ _ _ _ _ _ e

theorem inv_execVmax (w : Fields) {z : State} (e : execVmax w s = .next z) : z.Inv := inv_vectorOp h _ _ _ _ _ _ _ _ e

theorem inv_execVabs (w : Fields) {z : State} (e : execVabs w s = .next z) : z.Inv := inv_vectorOp h _ _ _ _ _ _ _ _ e

theorem inv_execVcmp (w : Fields) {z : State} (e : execVcmp w s = .next z) : z.Inv := inv_vectorTest h _ _ _ _ _ _ e

theorem inv_execVsel (w : Fields) {z : State} (e : execVsel w s = .next z) : z.Inv := inv_vectorOp h _ _ _ _ _ _ _ _ e

theorem inv_execVmov (w : Fields) {z : State} (e : execVmov w s = .next z) : z.Inv := inv_vectorOp h _ _ _ _ _ _ _ _ e

theorem inv_execVli (w : Fields) {z : State} (e : execVli w s = .next z) : z.Inv := inv_vectorOp h _ _ _ _ _ _ _ _ e

theorem inv_execVclz (w : Fields) {z : State} (e : execVclz w s = .next z) : z.Inv := inv_vectorOp h _ _ _ _ _ _ _ _ e

theorem inv_execVctz (w : Fields) {z : State} (e : execVctz w s = .next z) : z.Inv := inv_vectorOp h _ _ _ _ _ _ _ _ e

theorem inv_execVpopc (w : Fields) {z : State} (e : execVpopc w s = .next z) : z.Inv := inv_vectorOp h _ _ _ _ _ _ _ _ e

theorem inv_execVbrev (w : Fields) {z : State} (e : execVbrev w s = .next z) : z.Inv := inv_vectorOp h _ _ _ _ _ _ _ _ e

theorem inv_execVbswap (w : Fields) {z : State} (e : execVbswap w s = .next z) : z.Inv := inv_vectorOp h _ _ _ _ _ _ _ _ e

theorem inv_execVbfx (w : Fields) {z : State} (e : execVbfx w s = .next z) : z.Inv := inv_vectorOp h _ _ _ _ _ _ _ _ e

theorem inv_execVbfi (w : Fields) {z : State} (e : execVbfi w s = .next z) : z.Inv := inv_vectorOp h _ _ _ _ _ _ _ _ e

theorem inv_execVbitil (w : Fields) {z : State} (e : execVbitil w s = .next z) : z.Inv := inv_vectorOp h _ _ _ _ _ _ _ _ e

theorem inv_execVbitdl (w : Fields) {z : State} (e : execVbitdl w s = .next z) : z.Inv := inv_vectorOp h _ _ _ _ _ _ _ _ e

theorem inv_execVclmul (w : Fields) {z : State} (e : execVclmul w s = .next z) : z.Inv := inv_vectorOp h _ _ _ _ _ _ _ _ e

theorem inv_execVperm (w : Fields) {z : State} (e : execVperm w s = .next z) : z.Inv :=
  inv_issue h (fun _ _ _ h e => inv_envBody h _ _ e) e

theorem inv_execVdot4 (w : Fields) {z : State} (e : execVdot4 w s = .next z) : z.Inv := inv_vectorOp h _ _ _ _ _ _ _ _ e

theorem inv_execVaddc (w : Fields) {z : State} (e : execVaddc w s = .next z) : z.Inv :=
  inv_issue h (fun _ _ _ h e => inv_envBody h _ _ e) e

theorem inv_execPlog (w : Fields) {z : State} (e : execPlog w s = .next z) : z.Inv :=
  inv_issue h (fun _ _ _ h e => inv_envBody h _ _ e) e

theorem inv_execPmov (w : Fields) {z : State} (e : execPmov w s = .next z) : z.Inv := by
  unfold execPmov at e
  grind [inv_vectorOp, inv_vectorTest]

end
end Sys2Proof.Machine
end

section
/-! What keeps the invariant (R241, R495 to R498): every instruction, event, turn and step. -/

namespace Sys2Proof.Machine

/-- The invariant of the state that a turn is prepared to. -/
def Prepared.Inv : Prepared → Prop
  | .run _ s => s.Inv
  | .done s => s.Inv

section
variable {s : State} (h : s.Inv)
include h

/-- Every instruction form and every event keeps the invariant. -/
theorem inv_exec (i : Instr) {z : State} (e : exec i s = .next z) : z.Inv := by
  cases i with
  | sadd => exact inv_execSadd h _ e
  | ssub => exact inv_execSsub h _ e
  | smul => exact inv_execSmul h _ e
  | smulh => exact inv_execSmulh h _ e
  | sdiv => exact inv_execSdiv h _ e
  | srem => exact inv_execSrem h _ e
  | sand => exact inv_execSand h _ e
  | sor => exact inv_execSor h _ e
  | sxor => exact inv_execSxor h _ e
  | sshl => exact inv_execSshl h _ e
  | sshr => exact inv_execSshr h _ e
  | ssar => exact inv_execSsar h _ e
  | srot => exact inv_execSrot h _ e
  | smin => exact inv_execSmin h _ e
  | smax => exact inv_execSmax h _ e
  | scmp => exact inv_execScmp h _ e
  | ssel => exact inv_execSsel h _ e
  | smov => exact inv_execSmov h _ e
  | sli => exact inv_execSli h _ e
  | sclz => exact inv_execSclz h _ e
  | spopc => exact inv_execSpopc h _ e
  | sbfx => exact inv_execSbfx h _ e
  | sbfi => exact inv_execSbfi h _ e
  | sfadd => exact inv_execSfadd h _ e
  | sfmul => exact inv_execSfmul h _ e
  | sffma => exact inv_execSffma h _ e
  | sfcvt => exact inv_execSfcvt h _ e
  | vadd => exact inv_execVadd h _ e
  | vsub => exact inv_execVsub h _ e
  | vmul => exact inv_execVmul h _ e
  | vmulh => exact inv_execVmulh h _ e
  | vmad => exact inv_execVmad h _ e
  | vand => exact inv_execVand h _ e
  | vor => exact inv_execVor h _ e
  | vxor => exact inv_execVxor h _ e
  | vandn => exact inv_execVandn h _ e
  | vshl => exact inv_execVshl h _ e
  | vshr => exact inv_execVshr h _ e
  | vsar => exact inv_execVsar h _ e
  | vrot => exact inv_execVrot h _ e
  | vfunnel => exact inv_execVfunnel h _ e
  | vmin => exact inv_execVmin h _ e
  | vmax => exact inv_execVmax h _ e
  | vabs => exact inv_execVabs h _ e
  | vcmp => exact inv_execVcmp h _ e
  | vsel => exact inv_execVsel h _ e
  | vmov => exact inv_execVmov h _ e
  | vli => exact inv_execVli h _ e
  | vclz => exact inv_execVclz h _ e
  | vctz => exact inv_execVctz h _ e
  | vpopc => exact inv_execVpopc h _ e
  | vbrev => exact inv_execVbrev h _ e
  | vbswap => exact inv_execVbswap h _ e
  | vbfx => exact inv_execVbfx h _ e
  | vbfi => exact inv_execVbfi h _ e
  | vbitil => exact inv_execVbitil h _ e
  | vbitdl => exact inv_execVbitdl h _ e
  | vclmul => exact inv_execVclmul h _ e
  | vperm => exact inv_execVperm h _ e
  | vdot4 => exact inv_execVdot4 h _ e
  | vaddc => exact inv_execVaddc h _ e
  | plog => exact inv_execPlog h _ e
  | pmov => exact inv_execPmov h _ e
  | vfadd => exact inv_execVfadd h _ e
  | vfsub => exact inv_execVfsub h _ e
  | vfmul => exact inv_execVfmul h _ e
  | vffma => exact inv_execVffma h _ e
  | vfmin => exact inv_execVfmin h _ e
  | vfmax => exact inv_execVfmax h _ e
  | vfcmp => exact inv_execVfcmp h _ e
  | vfdiv => exact inv_execVfdiv h _ e
  | vfsqrt => exact inv_execVfsqrt h _ e
  | vfrcp => exact inv_execVfrcp h _ e
  | vfrsq => exact inv_execVfrsq h _ e
  | vfexp2 => exact inv_execVfexp2 h _ e
  | vflog2 => exact inv_execVflog2 h _ e
  | vfsinpi => exact inv_execVfsinpi h _ e
  | vfcospi => exact inv_execVfcospi h _ e
  | vfcvt => exact inv_execVfcvt h _ e
  | vfcvti => exact inv_execVfcvti h _ e
  | vicvtf => exact inv_execVicvtf h _ e
  | vfrnd => exact inv_execVfrnd h _ e
  | vfclass => exact inv_execVfclass h _ e
  | vfscale => exact inv_execVfscale h _ e
  | vfgetexp => exact inv_execVfgetexp h _ e
  | vfpack => exact inv_execVfpack h _ e
  | vfdot2 => exact inv_execVfdot2 h _ e
  | ld => exact inv_execLd h _ e
  | st => exact inv_execSt h _ e
  | ldsp => exact inv_execLdsp h _ e
  | stsp => exact inv_execStsp h _ e
  | sld => exact inv_execSld h _ e
  | sst => exact inv_execSst h _ e
  | xlate => exact inv_execXlate h _ e
  | stmap => exact inv_execStmap h _ e
  | stflush => exact inv_execStflush h _ e
  | atom => exact inv_execAtom h _ e
  | red => exact inv_execRed h _ e
  | fence => exact inv_execFence h _ e
  | fpromote => exact inv_execFpromote h _ e
  | prefetch => exact inv_execPrefetch h _ e
  | ldg => exact inv_execLdg h _ e
  | stg => exact inv_execStg h _ e
  | mma => exact inv_execMma h _ e
  | mmat => exact inv_execMmat h _ e
  | mperm => exact inv_execMperm h _ e
  | mrsum => exact inv_execMrsum h _ e
  | tld => exact inv_execTld h _ e
  | tst => exact inv_execTst h _ e
  | tcvt => exact inv_execTcvt h _ e
  | tzero => exact inv_execTzero h _ e
  | mcopy => exact inv_execMcopy h _ e
  | mwait => exact inv_execMwait h _ e
  | tallocWait => exact inv_execTallocWait h _ e
  | tallocTry => exact inv_execTallocTry h _ e
  | tgive => exact inv_execTgive h _ e
  | ttake => exact inv_execTtake h _ e
  | tfree => exact inv_execTfree h _ e
  | rlock => exact inv_execRlock h _ e
  | runlock => exact inv_execRunlock h _ e
  | tlbinv => exact inv_execTlbinv h _ e
  | cprobe => exact inv_execCprobe h _ e
  | bra => exact inv_execBra h _ e
  | brq => exact inv_execBrq h _ e
  | call => exact inv_execCall h _ e
  | ret => exact inv_execRet h _ e
  | btab => exact inv_execBtab h _ e
  | regang => exact inv_execRegang h _ e
  | exit => exact inv_execExit h _ e
  | nop => exact inv_execNop h _ e
  | trap => exact inv_execTrap h _ e
  | trapret => exact inv_execTrapret h _ e
  | mfsr => exact inv_execMfsr h _ e
  | mtsr => exact inv_execMtsr h _ e
  | icinv => exact inv_execIcinv h _ e
  | brk => exact inv_execBrk h _ e
  | rgrowWait => exact inv_execRgrowWait h _ e
  | rgrowTry => exact inv_execRgrowTry h _ e
  | rshrink => exact inv_execRshrink h _ e
  | rshapeGet => exact inv_execRshapeGet h _ e
  | rshapeSet => exact inv_execRshapeSet h _ e
  | gvote => exact inv_execGvote h _ e
  | gshfl => exact inv_execGshfl h _ e
  | gscan => exact inv_execGscan h _ e
  | greduce => exact inv_execGreduce h _ e
  | gbcast => exact inv_execGbcast h _ e
  | bar => exact inv_execBar h _ e
  | launch => exact inv_execLaunch h _ e
  | qappend => exact inv_execQappend h _ e
  | qtail => exact inv_execQtail h _ e
  | evget => exact inv_execEvget h _ e
  | evwait => exact inv_execEvwait h _ e
  | msem => exact inv_execMsem h _ e
  | semup => exact inv_execSemup h _ e
  | semwait => exact inv_execSemwait h _ e
  | semread => exact inv_execSemread h _ e
  | slkset => exact inv_execSlkset h _ e
  | seqwait => exact inv_execSeqwait h _ e
  | resultReply => exact inv_execResultReply h _ _ e
  | dlyExpiry => exact inv_execDlyExpiry h _ _ e
  | slotDrowsy => exact inv_execSlotDrowsy h _ _ _ e
  | trapEntry => exact inv_execTrapEntry h _ e
  | rangeLockRetry => exact inv_execRangeLockRetry h _ _ e
  | handleBusyTimeout => exact inv_execHandleBusyTimeout h _ _ e
  | commandQueueAccept => exact inv_execCommandQueueAccept h _ _ e
  | commandBegin => exact inv_execCommandBegin h _ _ e
  | commandComplete => exact inv_execCommandComplete h _ _ e
  | granuleClearDone => exact inv_execGranuleClearDone h _ _ e
  | allocationDeadlock => exact inv_execAllocationDeadlock h _ e
  | registerDeadlock => exact inv_execRegisterDeadlock h _ e
  | evwaitTimeout => exact inv_execEvwaitTimeout h _ e
  | gangRetire => exact inv_execGangRetire h _ _ e
  | teamDone => exact inv_execTeamDone h _ e
  | debuggerKill => exact inv_execDebuggerKill h _ _ _ e
  | contextSave => exact inv_execContextSave h _ e
  | teamRestore => exact inv_execTeamRestore h _ e
  | parkedEnsembleSave => exact inv_execParkedEnsembleSave h _ e
  | parkedEnsembleRestore => exact inv_execParkedEnsembleRestore h _ e
  | debugGo => exact inv_execDebugGo h _ _ e
  | slackExhausted => exact inv_execSlackExhausted h _ e
  | packetService => exact inv_execPacketService h _ e
  | coalesceWindowClose => exact inv_execCoalesceWindowClose h _ _ e
  | promotionArrival => exact inv_execPromotionArrival h _ _ e
  | remoteWriteAck => exact inv_execRemoteWriteAck h _ e
  | sectorPoison => exact inv_execSectorPoison h _ e
  | correctableError => exact inv_execCorrectableError h _ e
  | eventPost => exact inv_execEventPost h _ e
  | queueDoorbell => exact inv_execQueueDoorbell h _ _ e
  | doorbellDropClear => exact inv_execDoorbellDropClear h _ e
  | queueSwitch => exact inv_execQueueSwitch h e
  | launchDeal => exact inv_execLaunchDeal h _ _ e
  | waitPacketPoll => exact inv_execWaitPacketPoll h _ e
  | signalPacket => exact inv_execSignalPacket h _ e
  | dieDistributorDeal => exact inv_execDieDistributorDeal h _ _ e
  | ensembleStart => exact inv_execEnsembleStart h _ _ e
  | stealRequest => exact inv_execStealRequest h _ _ e
  | stealReply => exact inv_execStealReply h _ e
  | deadlineMiss => exact inv_execDeadlineMiss h _ e
  | forcedReset => exact inv_execForcedReset h _ e
  | contextEnd => exact inv_execContextEnd h _ e
  | moverCopy => exact inv_execMoverCopy h _ _ e
  | moverRingAllreduce => exact inv_execMoverRingAllreduce h _ _ e
  | moverTreeAllreduce => exact inv_execMoverTreeAllreduce h _ _ e
  | ethernetSend => exact inv_execEthernetSend h _ _ e
  | ethernetReceive => exact inv_execEthernetReceive h _ _ e
  | ethernetFrameArrival => exact inv_execEthernetFrameArrival h _ _ _ _ e
  | utiumFlitReceive => exact inv_execUtiumFlitReceive h _ _ _ e
  | hostLinkAccess => exact inv_execHostLinkAccess h _ _ e
  | switchMatrixCommand => exact inv_execSwitchMatrixCommand h _ e
  | switchCommandApplied => exact inv_execSwitchCommandApplied h e
  | fabricFaultServed => exact inv_execFabricFaultServed h _ _ e
  | faultServed => exact inv_execFaultServed h _ _ e
  | faultQueueHeadWrite => exact inv_execFaultQueueHeadWrite h _ _ e
  | tlbInvalidateControl => exact inv_execTlbInvalidateControl h _ _ e
  | icacheInvalidateGo => exact inv_execIcacheInvalidateGo h e
  | wayMaskWrite => exact inv_execWayMaskWrite h _ _ e
  | routingRegisterWrite => exact inv_execRoutingRegisterWrite h _ _ _ e
  | routeChangeEffect => exact inv_execRouteChangeEffect h _ _ e
  | pairFaultCountClear => exact inv_execPairFaultCountClear h _ _ e
  | syndromeClear => exact inv_execSyndromeClear h _ e
  | sequencerStart => exact inv_execSequencerStart h _ e
  | registerWrite => exact inv_execRegisterWrite h _ _ _ e
  | railLoss => exact inv_execRailLoss h _ _ _ e
  | railRelock => exact inv_execRailRelock h _ _ _ e
  | pairLossTimeout => exact inv_execPairLossTimeout h _ _ e
  | laneLossOfLock => exact inv_execLaneLossOfLock h _ e
  | retrainAttemptEnd => exact inv_execRetrainAttemptEnd h _ _ e
  | heaterRollover lane => exact inv_execHeaterRollover h lane e
  | containedError => exact inv_execContainedError h _ _ _ e
  | dieFence => exact inv_execDieFence h _ e
  | uncontainedError => exact inv_execUncontainedError h _ _ _ e
  | link0Down => exact inv_execLink0Down h e
  | attestationRequest => exact inv_execAttestationRequest h _ e
  | powerOn => exact inv_execPowerOn h e
  | fundamentalReset => exact inv_execFundamentalReset h e
  | rst => exact inv_execRst h e
  | groundWatchdogReset => exact inv_execGroundWatchdogReset h e
  | start => exact inv_execStart h _ _ e
  | startStepTimeout => exact inv_execStartStepTimeout h e
  | startFailureReset => exact inv_execStartFailureReset h e
  | studioRestart => exact inv_execStudioRestart h e
  | gangAged => exact inv_execGangAged h _ _ e
  | cacheEviction => exact inv_execCacheEviction h _ _ e
  | invalidationReachesCore => exact inv_execInvalidationReachesCore h _ _ e
  | powerRemoval => exact inv_execPowerRemoval h e
  | hostLinkTrained => exact inv_execHostLinkTrained h _ e

theorem inv_nextTurn : s.nextTurn.2.Inv := by
  unfold State.nextTurn
  split <;> exact h

theorem inv_issueTurn (u : Issuer) : (s.issueTurn u).Inv := by
  have first : State.Inv { s.firstAcquire u with cur := some u } := inv_firstAcquire h u
  unfold State.issueTurn
  split
  · dsimp only
    split
    · exact first
    · next x _ =>
      have fetched := inv_fetch first x
      split
      · next he => exact inv_raiseTrap (inv_of_eq fetched he) _ _ _
      · next he =>
        split
        · exact inv_raiseTrap (inv_of_eq fetched he) _ _ _
        · exact inv_of_eq fetched he
  · exact h

theorem inv_prepare (t : Turn) : (s.prepare t).Inv := by
  cases t with
  | issue u => exact inv_issueTurn h u
  | event i =>
    change (if i.parts.isNone then Prepared.run i { s with cur := none } else Prepared.done s).Inv
    split <;> exact h
  | dropLine core key => exact inv_l1Drop h core key
  | dropWord | dropTlb | dropSeqTlb | dropChipTlb => exact h

theorem inv_step {z : State} (e : step s = .next z) : z.Inv := by
  have turned := inv_nextTurn h
  unfold step at e
  split at e
  · next hn =>
    rw [hn] at turned
    exact Host.Outcome.next.inj e ▸ inv_pass turned
  · next t m hn =>
    rw [hn] at turned
    have prepared := inv_prepare turned t
    split at e
    · next hp =>
      rw [hp] at prepared
      exact Host.Outcome.next.inj e ▸ inv_pass prepared
    · next i m hp =>
      rw [hp] at prepared
      split at e
      · next he =>
        exact Host.Outcome.next.inj e ▸ inv_pass (inv_exec prepared i he)
      · cases e
      · cases e

end

/-- Settles O55: a turn, its instruction or event and the time that passes each keep the invariant. -/
theorem stepsKeepTheInvariant : Obligations.StepsKeepTheInvariant := by
  unfold Obligations.StepsKeepTheInvariant
  exact fun _ _ h e => inv_step h e

end Sys2Proof.Machine
end
